-- ==== Sys2Proof/Word.lean ====
section
/-! DEFINITION. The machine's words and the sparse map type that every bank of registers and every memory is held in. -/

namespace Sys2Proof

/-- A 32-bit register, literal or command word (R7, R12). -/
abbrev Word := BitVec 32

/-- One byte of memory or scratchpad (R7, R269). -/
abbrev Byte := BitVec 8

/-- A 64-bit address, offset or key half. -/
abbrev DWord := BitVec 64

/-- A sparse map from natural numbers: keys strictly rising, no entry that equals the map's default value.
The canonical form makes equal maps equal lists. The operations are in Machine/SMap.lean. -/
abbrev SMap (α : Type) := List (Nat × α)

end Sys2Proof
end

