-- ==== Sys2Proof/Syntax.lean ====
section
/-! DEFINITION. The instructions of Jexius and the module's events: one constructor of `Instr` per row of the
opcode table. Operand codes are decoded here once (R21, R24); a literal operand carries its literal word (R13). -/

namespace Sys2Proof

/-- A vector register v0–v191 (R26). -/
abbrev VReg := Fin 192
/-- A scalar register s0–s383 (R24). -/
abbrev SReg := Fin 384
/-- A mask register m0–m15. -/
abbrev MReg := Fin 16
/-- A handle slot th0–th63. -/
abbrev Slot := Fin 64

/-- An L-set source operand code (R21). `half` is legal in floating-point positions only. -/
inductive LSrc where
  | v (r : VReg)
  | s (r : Fin 32)
  | ds (r : Fin 16)
  | zero | one | negOne | two | half
  | lane | octet | width
  | lit (w : Word)
  deriving DecidableEq, Repr

/-- A U-set source operand code (R24); `imm c` is code 384 + c, of value c − 32. -/
inductive USrc where
  | s (r : SReg)
  | imm (c : Fin 64)
  | lit (w : Word)
  deriving DecidableEq, Repr

/-- The access width that W, or bits [9:8] of v(H), selects (R16, R19). -/
inductive Width where
  | w4 | w8 | w16
  deriving DecidableEq, Repr

/-- The H and W fields of LM: a slot and width, or the register that holds them (R16, R19). -/
inductive HSel where
  | slot (h : Slot) (w : Width)
  | reg (r : Fin 64)
  deriving DecidableEq, Repr

/-- Scope codes 0–5 (R40). -/
inductive Scope where
  | group | workgroup | cluster | die | module | system
  deriving DecidableEq, Repr

/-- Rounding modes (R35, R88). -/
inductive Rnd where
  | rne | rz | rdn | rup | sr
  deriving DecidableEq, Repr

/-- IUNY sub-codes (R34). -/
inductive IunyOp where
  | popc | clz | brev | abs | neg | not
  deriving DecidableEq, Repr

/-- FUNY sub-codes (R34). -/
inductive FunyOp where
  | rcp | rsq | exp2 | log2 | sinp | cosp | sqrt | abs | neg | floor | ceil | trunc | cls
  deriving DecidableEq, Repr

/-- FCVT's PAIR field (R35). -/
inductive FcvtPair where
  | bf16F32 | fp16F32 | e4m3F32 | e5m2F32 | f32Bf16 | f32Fp16 | f32E4m3 | f32E5m2
  | i32F32 | u32F32 | i8F32 | f32I32 | f32U32 | f32I8 | e4m3Bf16 | e5m2Bf16
  deriving DecidableEq, Repr

/-- ISET and SSET conditions (R36). -/
inductive ICond where
  | eq | ne | lt | le | gt | ge | ltu | leu | gtu | geu
  deriving DecidableEq, Repr

/-- FSET conditions (R36). -/
inductive FCond where
  | eq | ne | lt | le | gt | ge | ord | uno
  deriving DecidableEq, Repr

/-- LRED and LSCAN operations (R37). -/
inductive RedOp where
  | iadd | imin | imax | umin | umax | and | or | xor | fadd | fmin | fmax
  deriving DecidableEq, Repr

/-- MSKOP operations (R38). -/
inductive MskOp where
  | and | or | xor | andn | not | mov | set | clr
  deriving DecidableEq, Repr

/-- ATOM and ATOMR operations (R39). -/
inductive AtomOp where
  | add | min | max | umin | umax | and | or | xor | exch | fadd | fmin | fmax | incw
  deriving DecidableEq, Repr

/-- The ORD field of the memory-order word with its scope (R260): SCOPE is zero when ORD is plain. -/
inductive MemOrd where
  | plain
  | acq (sc : Scope)
  | rel (sc : Scope)
  | acqRel (sc : Scope)
  deriving DecidableEq, Repr

/-- BTEST's MODE (R135). -/
inductive BtMode where
  | test | read | errc
  deriving DecidableEq, Repr

/-- A matrix operation's B source (R201). -/
inductive BSrc where
  | slot (n : Fin 256)
  | reg (r : VReg)
  | gen (g : Fin 8)
  deriving DecidableEq, Repr

/-- The copy command word without TGT (R113); `men` is MASK when MEN is set. -/
structure CopyWord where
  src : Slot
  dst : Slot
  size : Width
  cvt : Bool
  rnd : Rnd
  sat : Bool
  exp : Bool
  arr : Bool
  men : Option MReg
  deriving DecidableEq, Repr

/-- The matrix command word without TEAM (R202). -/
structure MatWord where
  ah : Slot
  bsrc : BSrc
  t : Bool
  acc : Bool
  deriving DecidableEq, Repr

/-- The name of a resident or saved group: its workgroup's identity and its index in the workgroup (R5, R355). -/
structure GKey where
  wg : Nat
  g : Nat
  deriving DecidableEq, Repr

/-- A piece of storage that an uncorrectable soft error can poison (R358). -/
inductive PoisonLoc where
  | vreg (g : GKey) (lane reg : Nat)
  | scratch (wg line : Nat)
  | acc (wg row col : Nat)
  | bslot (cluster launch slot : Nat)
  | line (pa : Nat)
  deriving DecidableEq, Repr

/-- A host atomic over the link (R370): the operation on an aligned 4- or 8-byte word. -/
structure HostAtomic where
  pa : Nat
  wide : Bool
  op : AtomOp
  operand : DWord
  key : Nat
  deriving DecidableEq, Repr

/-- What the physical world does during a start (R376): the steps whose primary method fails, those whose
alternate fails, the ports left down, the masks recorded in DETAIL, the fuse maps, and the pool's capacity. -/
structure StartEnv where
  primaryFails : List Nat
  alternateFails : List Nat
  cxlDown : BitVec 16
  portDown : BitVec 18
  halfRate : BitVec 8
  badClusters : List Nat
  fuses : List (BitVec 17)
  poolBytes : Nat
  sealedKeys : List (Option (BitVec 512))
  deriving DecidableEq, Repr

/-- The module-control-block fields that MCB_WRITE covers: those with no row of their own (R369). -/
inductive McbField where
  | hbmn | saven | saveb | freel
  deriving DecidableEq, Repr

/-- The instructions and events of the opcode table, one constructor per row, in the table's order. The first
part is what a word decodes to; from `teamTrap` on, the rows are events of the module, which no word encodes. -/
inductive Instr where
  -- integer arithmetic (R150–R152)
  | iadd (d : VReg) (a b : LSrc)
  | isub (d : VReg) (a b : LSrc)
  | imul (d : VReg) (a b : LSrc)
  | imulh (d : VReg) (a b : LSrc)
  | imulhu (d : VReg) (a b : LSrc)
  | imad (d : VReg) (a b : LSrc)
  | imin (d : VReg) (a b : LSrc)
  | imax (d : VReg) (a b : LSrc)
  | and (d : VReg) (a b : LSrc)
  | or (d : VReg) (a b : LSrc)
  | xor (d : VReg) (a b : LSrc)
  | shl (d : VReg) (a b : LSrc)
  | shr (d : VReg) (a b : LSrc)
  | sar (d : VReg) (a b : LSrc)
  | iuny (op : IunyOp) (d : VReg) (a : LSrc)
  | iset (c : ICond) (m : MReg) (a b : LSrc)
  -- floating point (R153–R158)
  | fadd (d : VReg) (a b : LSrc)
  | fsub (d : VReg) (a b : LSrc)
  | fmul (d : VReg) (a b : LSrc)
  | ffma (d : VReg) (a b : LSrc)
  | fmin (d : VReg) (a b : LSrc)
  | fmax (d : VReg) (a b : LSrc)
  | fset (c : FCond) (m : MReg) (a b : LSrc)
  | funy (op : FunyOp) (d : VReg) (a : LSrc)
  | fcvt (p : FcvtPair) (r : Rnd) (sat : Bool) (d : VReg) (a : LSrc)
  | hfma2 (d : VReg) (a b : LSrc)
  | bfma2 (d : VReg) (a b : LSrc)
  -- moves, masks and lane exchange (R161–R166)
  | mov (d : VReg) (a : LSrc)
  | cmov (d : VReg) (a : LSrc) (m : MReg)
  | lxor (d : VReg) (a b : LSrc)
  | lshf (d : VReg) (a b : LSrc)
  | lred (op : RedOp) (d : VReg) (a : LSrc)
  | lscan (excl : Bool) (op : RedOp) (d : VReg) (a : LSrc)
  | matchv (d : VReg) (a : LSrc)
  | cmpct (d : VReg) (a : LSrc) (m : MReg)
  | ballot (d : VReg) (a : LSrc)
  | mskop (op : MskOp) (m p q : MReg)
  | mpopc (pre : Bool) (d : VReg) (m : MReg)
  -- streams (R190, R191), generators (R232), signatures (R247)
  | draw (n : Fin 4) (w2 : Bool) (d : VReg)
  | catd (n : Fin 4) (d : VReg) (a : LSrc)
  | dsskip (n : Fin 4) (a b : LSrc)
  | dsfork (a : LSrc)
  | dssetp (n : Fin 4) (a b : LSrc)
  | dspos (n : Fin 4) (d : VReg)
  | gneval (t : Bool) (g : Fin 8) (d : VReg) (a : LSrc)
  | ksig (d a : VReg) (h : Slot)
  -- lane memory (R106, R256, R258, R261, R295, R298, R242)
  | ld (d : VReg) (a : LSrc) (h : HSel)
  | lde (d : VReg) (a : LSrc) (h : HSel)
  | ldnr (d : VReg) (a : LSrc) (h : HSel)
  | st (d a : LSrc) (h : HSel)
  | ste (d a : LSrc) (h : HSel)
  | stnt (d a : LSrc) (h : HSel)
  | pst (h2 : Slot) (d a : LSrc) (h : HSel)
  | atom (op : AtomOp) (ord : MemOrd) (d : VReg) (a : LSrc) (h : HSel)
  | atomr (op : AtomOp) (d a : LSrc) (h : HSel)
  | cas (ord : MemOrd) (d : VReg) (a : LSrc) (h : HSel)
  | cas128 (ord : MemOrd) (d : VReg) (a : LSrc) (h : HSel)
  | gath (nm1 : Fin 8) (men : Option MReg) (d : VReg) (a : LSrc) (h : HSel)
  | scat (nm1 : Fin 8) (men : Option MReg) (d a : LSrc) (h : HSel)
  | sisect (ha hb : Slot) (out : Option Slot) (men : Option MReg) (d : VReg) (a : LSrc) (b : VReg)
  | kst (nl : Bool) (wide : Bool) (d a : LSrc) (h : Slot)
  -- copies and matrix operations (R112, R203, R217, R218, R248)
  | cpl (c : CopyWord) (d a b : LSrc)
  | cpm (c : CopyWord) (tgt : Fin 16) (d a b : LSrc)
  | mmq (w : MatWord) (d a b : LSrc)
  | mmt (w : MatWord) (team : Fin 8) (d a b : LSrc)
  | accrd (mm1 : Fin 32) (d : VReg) (a b : LSrc)
  | accwr (mm1 : Fin 32) (d a b : LSrc)
  | accpatch (add : Bool) (d a : LSrc) (m : MReg)
  | kgath (kh oh : Slot) (p : Fin 13) (msk : Option MReg) (capm1 : Fin 2048) (d a b : LSrc)
  -- control flow (R167–R171)
  | bra (disp : BitVec 16)
  | braKernelAbsolute (off : Word)
  | brm (m : MReg) (disp : BitVec 16)
  | brmn (m : MReg) (disp : BitVec 16)
  | brz (d : LSrc) (disp : BitVec 16)
  | brnz (d : LSrc) (disp : BitVec 16)
  | call (disp : BitVec 16)
  | callKernelAbsolute (off : Word)
  | ret (a : LSrc)
  | exit
  | trap (code : BitVec 16)
  -- scalar set (R172–R175)
  | sadd (sd : SReg) (sb : USrc)
  | ssub (sd : SReg) (sb : USrc)
  | smul (sd : SReg) (sb : USrc)
  | sand (sd : SReg) (sb : USrc)
  | sor (sd : SReg) (sb : USrc)
  | sxor (sd : SReg) (sb : USrc)
  | sshl (sd : SReg) (sb : USrc)
  | sshr (sd : SReg) (sb : USrc)
  | ssar (sd : SReg) (sb : USrc)
  | smin (sd : SReg) (sb : USrc)
  | smax (sd : SReg) (sb : USrc)
  | smov (sd : SReg) (sb : USrc)
  | sset (c : ICond) (sd : SReg) (sb : USrc)
  | smovi (sd : SReg) (imm : BitVec 15)
  | slui (sd : SReg) (imm : BitVec 15)
  | v2s (sd : SReg) (lane : Bool) (v : VReg) (x : Fin 64)
  | sbra (disp : BitVec 15)
  | sbz (c : SReg) (disp : BitVec 15)
  | sbnz (c : SReg) (disp : BitVec 15)
  -- identifiers, waits and scalar memory (R326–R328, R140, R257, R267, R110, R160, R29)
  | qrd (q : Fin 8) (sb : USrc)
  | qst (q : Fin 8) (sb : USrc)
  | idrd (sd : SReg) (sb : USrc)
  | waitc (nld nst ncp ntl : Fin 64)
  | fence (sc : Scope)
  | ntdrain (sc : Scope)
  | ldu (acq : Option Scope) (wide : Bool) (sd : SReg) (sb : USrc)
  | stu (rel : Option Scope) (wide : Bool) (sd : SReg) (sb : USrc)
  | fstat (sd : SReg) (sb : USrc)
  | nop
  | nopLiteral (inSd inSb : Bool) (w : Word)
  -- handles, barriers, queues, residency (R97–R99, R135, R142, R66, R67)
  | hload (sd : SReg) (sb : USrc) (x : Slot)
  | hadj (sd : SReg) (sb : USrc) (x : Slot)
  | hqry (sd : SReg) (sb : USrc) (x : Slot)
  | binit (sd sb : USrc)
  | barrive (ring exp : Bool) (sd sb : USrc)
  | bexpect (ring : Bool) (sd sb : USrc)
  | bwait (ring : Bool) (sd sb : USrc)
  | btest (mode : BtMode) (ring : Bool) (sd : SReg) (sb : USrc)
  | rqenq (rel : Option Scope) (wide : Bool) (sd : SReg) (sb : USrc)
  | rqdeq (acq : Option Scope) (wide : Bool) (sd : SReg) (sb : USrc)
  | pgreq (sd : SReg) (sb : USrc) (x : Slot)
  | pfh (sd : SReg) (sb : USrc) (x : Slot)
  -- descriptors, tiles and accumulators (R184, R231, R198, R200, R219, R220, R241)
  | dsld (sd : SReg) (sb : USrc) (d : Fin 16)
  | gnld (sd : SReg) (sb : USrc) (g : Fin 8)
  | bld (t nt : Bool) (sd : SReg) (sb : USrc) (x : Slot)
  | bfree (sb : USrc)
  | accz (sd sb : USrc)
  | accst (rowsm1 : Fin 2048) (r : Rnd) (sat : Bool) (sd sb : USrc) (x : Slot)
  | ksinit (gn : Fin 8) (psc : Scope) (clog : Fin 3) (bb : Fin 9) (d128 : Bool) (sd : SReg) (sb : USrc) (x : Slot)
  -- launches, tapes, trap mode and watches (R329, R331, R341, R349, R344)
  | launch (after : Bool) (sd : SReg) (sb : USrc)
  | tapepush (endF : Bool) (sd : SReg) (sb : USrc)
  | tret (skip : Bool)
  | tfrd (sd : SReg) (sb : USrc)
  | tfwr (sd : SReg) (sb : USrc)
  | watchLoad (w : Fin 8) (sb : USrc)
  | watchStore (w : Fin 8) (sb : USrc)
  | watchClr (w : Fin 8)
  | gend (rcd : Bool)
  -- events: groups and engines
  | teamTrap (g : GKey)
  | loadComplete (op : Nat)
  | storeRetire (g : GKey)
  | ntStoreWrite (core idx : Nat)
  | atomicPerform (op req : Nat)
  | copySectorLand (op sector : Nat)
  | presenceUnpark (g : GKey) (pc : DWord)
  | migrationUnpark (g : GKey) (pc : DWord)
  | bwaitReturn (g : GKey) (pc : DWord)
  | waitcReturn (g : GKey) (pc : DWord)
  | ntdrainReturn (g : GKey) (pc : DWord)
  | fenceComplete (g : GKey) (pc : DWord)
  | bldLoadComplete (op : Nat)
  | reservationGrant (cluster : Nat) (fused : List Nat)
  | reservationAged (cluster entry : Nat)
  | matrixPassComplete (cluster : Nat)
  | hatArrive (cluster : Nat)
  | burstEnd (cluster : Nat)
  | accOpComplete (op : Nat)
  | accstComplete (op : Nat)
  | kstRowPerformed (op : Nat)
  | ksClaim (op : Nat)
  | ksPublish (op : Nat)
  | kgathWalk (op : Nat)
  | gathComplete (op : Nat)
  | scatWrite (op : Nat)
  | sisectRun (op : Nat)
  | collectorDispatch (core line : Nat)
  | collectorLineServed (core line : Nat)
  | pgreqWalk (op : Nat)
  | residencyComplete (req : Nat)
  | translationUpdateComplete (upd : Nat)
  -- events: dispatch
  | launchPost (addr : DWord)
  | launchTake
  | workgroupPlace (core : Nat)
  | preempt
  | sliceExpiry (launch : Nat)
  | preemptSave (wg : Nat)
  | restore (wg core : Nat)
  | groupEnd (g : GKey)
  | launchComplete (launch : Nat)
  | issueSlotPromote (core part slot : Nat)
  | l2PortPromote (req : Nat)
  | softError (at' : PoisonLoc)
  -- events: host and fabric
  | hostRead (pa len key : Nat)
  | hostWrite (pa : Nat) (bytes : List Byte) (key : Nat)
  | hostAtomic (a : HostAtomic)
  | flush (slot : Slot)
  | xupd (slot : Slot)
  | resolve (slot : Slot)
  | trapgo (slot : Slot)
  | keyld (slot : Slot)
  | keyclr (slot : Slot)
  | tapego (slot : Slot)
  | stepgo (slot : Slot)
  | recclr (slot : Slot)
  | commandInvalid (slot : Slot)
  | nqheadWrite (v : Word)
  | nqConfigWrite (base : DWord) (log : BitVec 8)
  | capwWrite (v : BitVec 16)
  | modeWrite (v : BitVec 5)
  | mcbWrite (f : McbField) (v : DWord)
  | flitCrcFail (port : Fin 18)
  | portDown (port : Fin 18)
  | vcPause (port : Fin 18) (vc : Fin 4)
  | vcRelease (port : Fin 18) (vc : Fin 4)
  | flitPromote (port : Fin 18) (flit : Nat)
  | start (env : StartEnv)
  | thermalTick (junctions : List Nat)
  | thermalTrip (junctions : List Nat)
  -- events: decode
  | illegalEncoding (w : Word)
  | fetchFault
  deriving DecidableEq, Repr

end Sys2Proof
end

