-- ==== Sys2Proof/WellFormed.lean ====
section
/-! DEFINITION. Which terms of `Instr` an instruction word stands for: the checks of R43 and R44 that the types of
Syntax.lean do not already make, and the literal words that an instruction carries (R13). -/

namespace Sys2Proof

/-- The literal word of an L-set operand, if it holds the literal code (R13). -/
def LSrc.lits : LSrc → List Word
  | .lit w => [w]
  | _ => []

/-- The literal word of a U-set operand, if it holds the literal code (R13). -/
def USrc.lits : USrc → List Word
  | .lit w => [w]
  | _ => []

/-- Legal in an integer position: not the code of 0.5 (R21). -/
def LSrc.intOk : LSrc → Bool
  | .half => false
  | _ => true

/-- A vector register whose number is a multiple of `n` (R18). -/
def LSrc.vecMul (n : Nat) : LSrc → Bool
  | .v r => r.val % n == 0
  | _ => false

/-- A vector register. -/
def LSrc.isVec : LSrc → Bool
  | .v _ => true
  | _ => false

/-- The number of registers of a transfer of this width (R18). -/
def Width.regs : Width → Nat
  | .w4 => 1
  | .w8 => 2
  | .w16 => 4

/-- The width that W gives at decode: none when the register form supplies it at issue (R19). -/
def HSel.width? : HSel → Option Width
  | .slot _ w => some w
  | .reg _ => none

/-- The registers that W asks for at decode; the register form is checked as a 4-byte access (R19). -/
def HSel.regs (h : HSel) : Nat :=
  match h.width? with
  | some w => w.regs
  | none => 1

/-- D of a store: any integer code for 4 bytes, an aligned vector register for more (R18). -/
def storeDataOk (d : LSrc) (h : HSel) : Bool :=
  if h.regs = 1 then d.intOk else d.vecMul h.regs

/-- All literal words are one word (R13). -/
def oneLiteral : List Word → Bool
  | [] => true
  | w :: ws => ws.all (· == w)

/-- The operations of LRED and LSCAN that read FP32 positions (R164). -/
def RedOp.isFloat : RedOp → Bool
  | .fadd | .fmin | .fmax => true
  | _ => false

/-- The atomic operations on FP32 (R261). -/
def AtomOp.isFloat : AtomOp → Bool
  | .fadd | .fmin | .fmax => true
  | _ => false

/-- A conversion with no rounding to do (R35). -/
def FcvtPair.exact : FcvtPair → Bool
  | .f32Bf16 | .f32Fp16 | .f32E4m3 | .f32E5m2 | .f32I8 => true
  | _ => false

/-- The source position of a conversion is a floating-point one when its source is FP32, BF16 or FP16 (R21, R158). -/
def FcvtPair.srcFloat : FcvtPair → Bool
  | .i32F32 | .u32F32 | .i8F32 | .bf16F32 | .fp16F32 | .e4m3F32 | .e5m2F32 | .f32Bf16 | .f32Fp16 | .e4m3Bf16
  | .e5m2Bf16 => true
  | .f32E4m3 | .f32E5m2 | .f32I32 | .f32U32 | .f32I8 => false

/-- The literal words that the operand fields of an instruction ask for, in field order (R13). -/
def Instr.lits : Instr → List Word
  | .iadd _ a b | .isub _ a b | .imul _ a b | .imulh _ a b | .imulhu _ a b | .imad _ a b | .imin _ a b
  | .imax _ a b | .and _ a b | .or _ a b | .xor _ a b | .shl _ a b | .shr _ a b | .sar _ a b
  | .iset _ _ a b | .fset _ _ a b
  | .fadd _ a b | .fsub _ a b | .fmul _ a b | .ffma _ a b | .fmin _ a b | .fmax _ a b
  | .hfma2 _ a b | .bfma2 _ a b | .lxor _ a b | .lshf _ a b | .dsskip _ a b | .dssetp _ a b => a.lits ++ b.lits
  | .iuny _ _ a | .funy _ _ a | .fcvt _ _ _ _ a | .mov _ a | .cmov _ a _ | .lred _ _ a | .lscan _ _ _ a
  | .matchv _ a | .cmpct _ a _ | .ballot _ a | .catd _ _ a | .dsfork a | .gneval _ _ _ a
  | .ld _ a _ | .lde _ a _ | .ldnr _ a _ | .atom _ _ _ a _ | .cas _ _ a _ | .cas128 _ _ a _
  | .gath _ _ _ a _ | .sisect _ _ _ _ _ a _ | .ret a => a.lits
  | .st d a _ | .ste d a _ | .stnt d a _ | .pst _ d a _ | .atomr _ d a _ | .scat _ _ d a _ | .kst _ _ d a _
  | .accpatch _ d a _ => d.lits ++ a.lits
  | .cpl _ d a b | .cpm _ _ d a b | .mmq _ d a b | .mmt _ _ d a b | .accwr _ d a b
  | .kgath _ _ _ _ _ d a b => d.lits ++ (a.lits ++ b.lits)
  | .accrd _ _ a b => a.lits ++ b.lits
  | .braKernelAbsolute w | .callKernelAbsolute w | .nopLiteral _ _ w => [w]
  | .brz d _ | .brnz d _ => d.lits
  | .sadd _ b | .ssub _ b | .smul _ b | .sand _ b | .sor _ b | .sxor _ b | .sshl _ b | .sshr _ b | .ssar _ b
  | .smin _ b | .smax _ b | .smov _ b | .sset _ _ b | .qrd _ b | .qst _ b | .idrd _ b
  | .ldu _ _ _ b | .stu _ _ _ b | .fstat _ b | .hload _ b _ | .hadj _ b _ | .hqry _ b _
  | .btest _ _ _ b | .rqenq _ _ _ b | .rqdeq _ _ _ b | .pgreq _ b _ | .pfh _ b _ | .dsld _ b _ | .gnld _ b _
  | .bld _ _ _ b _ | .bfree b | .ksinit _ _ _ _ _ _ b _ | .launch _ _ b | .tapepush _ _ b
  | .tfrd _ b | .tfwr _ b | .watchLoad _ b | .watchStore _ b => b.lits
  | .binit d b | .barrive _ _ d b | .bexpect _ d b | .bwait _ d b | .accz d b | .accst _ _ _ d b _ => d.lits ++ b.lits
  | _ => []

/-- The E-forms: a command word follows the base word (R12, R32, R33). -/
def Instr.eform : Instr → Bool
  | .pst .. | .atom .. | .atomr .. | .cas .. | .cas128 .. | .gath .. | .scat .. | .sisect .. | .kst .. | .cpl ..
  | .cpm .. | .mmq .. | .mmt .. | .accrd .. | .accwr .. | .accpatch .. | .kgath .. | .bld .. | .accst .. | .ksinit ..
  | .launch .. | .tapepush .. | .watchLoad .. | .watchStore .. | .watchClr .. => true
  | _ => false

/-- The length of an instruction in words (R12). -/
def Instr.len (i : Instr) : Nat :=
  1 + (if i.eform then 1 else 0) + (if i.lits = [] then 0 else 1)

/-- An even scalar register with a successor (R66, R110). -/
def SReg.even (r : SReg) : Bool := r.val % 2 == 0

/-- A scalar register with a successor: the ring forms (R135). -/
def SReg.pair (r : SReg) : Bool := r.val ≤ 382

/-- A source that names a scalar register with a successor (R135). -/
def USrc.ringReg : USrc → Bool
  | .s r => SReg.pair r
  | _ => false

/-- The field holds raw zero (R135, R349). -/
def USrc.isZeroField : USrc → Bool
  | .s r => r.val == 0
  | _ => false

/-- The register rule of RQENQ and RQDEQ (R142). -/
def queueRegsOk (wide : Bool) (sd : SReg) : Bool :=
  if wide then sd.val % 2 == 0 && sd.val + 2 ≤ 383 else sd.val + 1 ≤ 383

/-- An L-set opcode that R32 reserves. -/
def reservedL (op : Nat) : Bool :=
  op == 0 || (0x1C ≤ op && op ≤ 0x1F) || (0x33 ≤ op && op ≤ 0x3F) || op == 0x4F || (0x58 ≤ op && op ≤ 0x5F)
    || 0x69 ≤ op

/-- A U-set opcode that R33 reserves. -/
def reservedU (op : Nat) : Bool :=
  (0x1D ≤ op && op ≤ 0x1F) || (0x2C ≤ op && op ≤ 0x2F) || (0x37 ≤ op && op ≤ 0x3F) || 0x47 ≤ op

/-- A base word that is no instruction: all zeros, all ones, or a reserved opcode (R43; R45 steps 2 and 3). -/
def noInstr (w : Nat) : Bool :=
  w == 0 || w == 0xFFFFFFFF ||
    (if w / 2147483648 % 2 = 0 then reservedL (w / 16777216 % 128) else reservedU (w / 16777216 % 128))

/-- The rules of the single instructions that their types leave open. -/
def Instr.shapeOk : Instr → Bool
  | .iadd _ a b | .isub _ a b | .imul _ a b | .imulh _ a b | .imulhu _ a b | .imad _ a b | .imin _ a b
  | .imax _ a b | .and _ a b | .or _ a b | .xor _ a b | .shl _ a b | .shr _ a b | .sar _ a b
  | .iset _ _ a b | .lxor _ a b | .lshf _ a b | .dsskip _ a b | .dssetp _ a b | .accrd _ _ a b => a.intOk && b.intOk
  | .iuny _ _ a | .mov _ a | .cmov _ a _ | .matchv _ a | .cmpct _ a _ | .ballot _ a | .dsfork a | .gneval _ _ _ a
  | .ret a => a.intOk
  | .fadd .. | .fsub .. | .fmul .. | .ffma .. | .fmin .. | .fmax .. | .fset .. | .funy .. | .hfma2 .. | .bfma2 ..
  | .catd .. => true
  | .fcvt p r sat _ a =>
      (p.srcFloat || a.intOk) && (!p.exact || (r == .rne && !sat))
  | .lred op _ a | .lscan _ op _ a => op.isFloat || a.intOk
  | .mskop op _ p q =>
      match op with
      | .not | .mov => q.val == 0
      | .set | .clr => p.val == 0 && q.val == 0
      | _ => true
  | .mpopc .. => true
  | .draw _ w2 d => !w2 || d.val % 2 == 0
  | .dspos _ d => d.val % 2 == 0
  | .ksig d _ _ => d.val % 2 == 0
  | .ld d a h | .lde d a h | .ldnr d a h => a.intOk && d.val % h.regs == 0
  | .st d a h | .stnt d a h | .pst _ d a h => storeDataOk d h && a.intOk
  | .ste d a h => (h.regs == 1 || d.vecMul h.regs) && a.intOk
  | .atom op _ d a h =>
      a.intOk && d.val % h.regs == 0 &&
        (match h.width? with | some .w16 => false | some .w8 => !op.isFloat | _ => true)
  | .atomr op d a h =>
      storeDataOk d h && a.intOk &&
        (match h.width? with | some .w16 => false | some .w8 => !op.isFloat | _ => true)
  | .cas _ d a h =>
      a.intOk &&
        (match h.width? with
         | some .w16 => false | some .w8 => d.val % 4 == 0 | some .w4 | none => d.val % 2 == 0)
  | .cas128 _ d a h =>
      a.intOk && (match h.width? with | some .w16 => d.val % 8 == 0 | none => true | _ => false)
  | .gath nm1 _ d a h => (if nm1.val = 0 then a.intOk else a.isVec) && d.val % h.regs == 0
  | .scat nm1 _ d a h =>
      if nm1.val = 0 then a.intOk && storeDataOk d h else a.isVec && d.vecMul h.regs
  | .sisect _ _ _ _ d a _ => a.intOk && d.val % 4 == 0
  | .kst _ wide d a _ => a.intOk && (if wide then d.vecMul 2 else d.intOk)
  | .cpl c d a b => (c.cvt || (c.rnd == .rne && !c.sat)) && d.intOk && a.intOk && b.intOk
  | .cpm c t d a b => t.val != 0 && (c.cvt || (c.rnd == .rne && !c.sat)) && d.intOk && a.intOk && b.intOk
  | .mmq _ d a b | .mmt _ _ d a b => d.intOk && a.intOk && b.intOk
  | .accwr mm1 d a b => (if mm1.val = 0 then d.intOk else d.isVec) && a.intOk && b.intOk
  | .accpatch _ _ a _ => a.intOk
  | .kgath _ _ _ _ _ d a _ => d.intOk && a.intOk
  | .bra .. | .braKernelAbsolute .. | .brm .. | .brmn .. | .call .. | .callKernelAbsolute .. | .exit | .trap .. => true
  | .brz d _ | .brnz d _ => d.intOk
  | .sadd .. | .ssub .. | .smul .. | .sand .. | .sor .. | .sxor .. | .sshl .. | .sshr .. | .ssar .. | .smin ..
  | .smax .. | .smov .. | .sset .. | .smovi .. | .slui .. => true
  | .v2s .. => true
  | .sbra .. | .sbz .. | .sbnz .. | .qrd .. | .qst .. | .idrd .. | .waitc .. | .fence .. | .ntdrain .. => true
  | .ldu _ wide sd _ | .stu _ wide sd _ => !wide || SReg.even sd
  | .fstat .. | .nop => true
  | .nopLiteral inSd inSb _ => inSd || inSb
  | .hload .. | .hadj .. | .hqry .. | .binit .. => true
  | .barrive ring exp sd sb => (!ring || sd.ringReg) && (exp || sb.isZeroField)
  | .bexpect ring sd _ => !ring || sd.ringReg
  | .bwait ring sd sb => !ring || (sd.ringReg && sb.isZeroField)
  | .btest mode ring sd sb => (!ring || SReg.pair sd) && ((mode == .test && !ring) || sb.isZeroField)
  | .rqenq _ wide sd _ | .rqdeq _ wide sd _ => queueRegsOk wide sd
  | .pgreq sd _ _ | .pfh sd _ _ => SReg.even sd
  | .dsld .. | .gnld .. | .bld .. | .bfree .. | .accz .. | .accst .. => true
  | .ksinit _ _ _ _ _ sd _ _ => SReg.even sd
  | .launch .. | .tapepush .. | .tret .. | .tfrd .. | .tfwr .. | .watchLoad .. | .watchStore .. | .watchClr ..
  | .gend .. => true
  | .illegalEncoding w => noInstr w.toNat
  | .teamTrap .. | .loadComplete .. | .storeRetire .. | .ntStoreWrite .. | .atomicPerform .. | .copySectorLand ..
  | .presenceUnpark .. | .migrationUnpark .. | .bwaitReturn .. | .waitcReturn .. | .ntdrainReturn ..
  | .fenceComplete .. | .bldLoadComplete .. | .reservationGrant .. | .reservationAged .. | .matrixPassComplete ..
  | .hatArrive .. | .burstEnd .. | .accOpComplete .. | .accstComplete .. | .kstRowPerformed .. | .ksClaim ..
  | .ksPublish .. | .kgathWalk .. | .gathComplete .. | .scatWrite .. | .sisectRun .. | .collectorDispatch ..
  | .collectorLineServed .. | .pgreqWalk .. | .residencyComplete .. | .translationUpdateComplete .. | .launchPost ..
  | .launchTake | .workgroupPlace .. | .preempt | .sliceExpiry .. | .preemptSave .. | .restore .. | .groupEnd ..
  | .launchComplete .. | .issueSlotPromote .. | .l2PortPromote .. | .softError .. | .hostRead .. | .hostWrite ..
  | .hostAtomic .. | .flush .. | .xupd .. | .resolve .. | .trapgo .. | .keyld .. | .keyclr .. | .tapego ..
  | .stepgo .. | .recclr .. | .commandInvalid .. | .nqheadWrite .. | .nqConfigWrite .. | .capwWrite ..
  | .modeWrite .. | .mcbWrite .. | .flitCrcFail .. | .portDown .. | .vcPause .. | .vcRelease .. | .flitPromote ..
  | .start .. | .thermalTick .. | .thermalTrip .. | .fetchFault => false

/-- A well-formed instruction: its fields keep the rules of R43 and R44 that words alone decide, and its operands
share one literal word (R13). The events of the module, which no word encodes, are not well-formed instructions. -/
def Instr.wellFormed (i : Instr) : Bool := i.shapeOk && oneLiteral i.lits

end Sys2Proof
end

