-- ==== Sys2Proof/Decode.lean ====
section
/-! DEFINITION. The decoder, total on any words, with the order of checks of R45 steps 2–7 as far as the words alone
decide them, and after it the encoder, written from the same tables (R16, R21, R24, R25, R32–R42). -/

namespace Sys2Proof

/-- Why a word traps at decode, with the subcode of R45. -/
inductive DecodeTrap where
  | illegal (sub : Nat)
  | operand (sub : Nat)
  deriving DecidableEq, Repr

/-- Bits [hi:lo] of a word (R7). -/
def fld (w hi lo : Nat) : Nat := w / 2 ^ lo % 2 ^ (hi - lo + 1)

/-- Goes on if the condition holds. -/
def needThat (ok : Bool) (e : DecodeTrap) : Except DecodeTrap Unit := if ok then .ok () else .error e

/-- Goes on with the value if there is one. -/
def needSome {α : Type} (o : Option α) (e : DecodeTrap) : Except DecodeTrap α :=
  match o with
  | some a => .ok a
  | none => .error e

/-- A reserved value of a sub-code, condition, operation or scope (R45 step 4). -/
def step4 {α : Type} (o : Option α) : Except DecodeTrap α := needSome o (.illegal 3)
/-- A must-be-zero field of the base word (R45 step 5). -/
def step5 (ok : Bool) : Except DecodeTrap Unit := needThat ok (.illegal 4)
/-- A reserved bit or must-be-zero field of the command word (R45 step 6). -/
def step6 (ok : Bool) : Except DecodeTrap Unit := needThat ok (.illegal 5)
/-- An operand code that is reserved or illegal in its position (R45 step 7a). -/
def step7a {α : Type} (o : Option α) : Except DecodeTrap α := needSome o (.operand 1)
/-- A misaligned register group (R45 step 7b, as far as the words decide it). -/
def step7b (ok : Bool) : Except DecodeTrap Unit := needThat ok (.operand 2)

/-! ## Codes -/

/-- A vector register code (R22). -/
def vregOf (c : Nat) : Option VReg := if h : c < 192 then some ⟨c, h⟩ else none

/-- A scalar register code (R24). -/
def sregOf (c : Nat) : Option SReg := if h : c < 384 then some ⟨c, h⟩ else none

/-- A number below `n`. -/
def finOf (n c : Nat) : Option (Fin n) := if h : c < n then some ⟨c, h⟩ else none

/-- The low bits of a field as a number below `n`. -/
def lowFin (n c : Nat) (h : 0 < n) : Fin n := ⟨c % n, Nat.mod_lt c h⟩

/-- An L-set source code in a floating-point position (R21). -/
def lsrcFp (lit c : Nat) : Option LSrc :=
  if h : c < 192 then some (.v ⟨c, h⟩)
  else if c < 224 then some (.s (lowFin 32 (c - 192) (by decide)))
  else if c < 240 then some (.ds (lowFin 16 (c - 224) (by decide)))
  else if c = 240 then some .zero
  else if c = 241 then some .one
  else if c = 242 then some .negOne
  else if c = 243 then some .two
  else if c = 244 then some .half
  else if c = 245 then some .lane
  else if c = 246 then some .octet
  else if c = 247 then some .width
  else if c = 255 then some (.lit (BitVec.ofNat 32 lit))
  else none

/-- An L-set source code in an integer position: 0xF4 has no meaning there (R21). -/
def lsrcInt (lit c : Nat) : Option LSrc := if c = 244 then none else lsrcFp lit c

/-- A U-set source code (R24). -/
def usrcOf (lit c : Nat) : Option USrc :=
  if h : c < 384 then some (.s ⟨c, h⟩)
  else if c < 448 then some (.imm (lowFin 64 (c - 384) (by decide)))
  else if c = 511 then some (.lit (BitVec.ofNat 32 lit))
  else none

/-- Scope codes (R40). -/
def scopeOf (c : Nat) : Option Scope :=
  match c with
  | 0 => some .group | 1 => some .workgroup | 2 => some .cluster | 3 => some .die | 4 => some .module
  | 5 => some .system | _ => none

/-- Width codes 00, 01 and 10 (R16). -/
def widthOf (c : Nat) : Option Width :=
  match c with
  | 0 => some .w4 | 1 => some .w8 | 2 => some .w16 | _ => none

/-- Rounding codes (R35). -/
def rndOf (c : Nat) : Option Rnd :=
  match c with
  | 0 => some .rne | 1 => some .rz | 2 => some .rdn | 3 => some .rup | 4 => some .sr | _ => none

/-- H and W of LM (R16, R19). -/
def hselOf (h w : Nat) : HSel :=
  match widthOf w with
  | some ww => .slot (lowFin 64 h (by decide)) ww
  | none => .reg (lowFin 64 h (by decide))

/-- IUNY sub-codes (R34). -/
def iunyOf (c : Nat) : Option IunyOp :=
  match c with
  | 0 => some .popc | 1 => some .clz | 2 => some .brev | 3 => some .abs | 4 => some .neg | 5 => some .not
  | _ => none

/-- FUNY sub-codes (R34). -/
def funyOf (c : Nat) : Option FunyOp :=
  match c with
  | 0 => some .rcp | 1 => some .rsq | 2 => some .exp2 | 3 => some .log2 | 4 => some .sinp | 5 => some .cosp
  | 6 => some .sqrt | 7 => some .abs | 8 => some .neg | 9 => some .floor | 10 => some .ceil | 11 => some .trunc
  | 12 => some .cls | _ => none

/-- PAIR codes of FCVT (R35). -/
def pairOf (c : Nat) : FcvtPair :=
  match c with
  | 0 => .bf16F32 | 1 => .fp16F32 | 2 => .e4m3F32 | 3 => .e5m2F32 | 4 => .f32Bf16 | 5 => .f32Fp16
  | 6 => .f32E4m3 | 7 => .f32E5m2 | 8 => .i32F32 | 9 => .u32F32 | 10 => .i8F32 | 11 => .f32I32
  | 12 => .f32U32 | 13 => .f32I8 | 14 => .e4m3Bf16 | _ => .e5m2Bf16

/-- ISET and SSET conditions (R36). -/
def icondOf (c : Nat) : Option ICond :=
  match c with
  | 0 => some .eq | 1 => some .ne | 2 => some .lt | 3 => some .le | 4 => some .gt | 5 => some .ge
  | 6 => some .ltu | 7 => some .leu | 8 => some .gtu | 9 => some .geu | _ => none

/-- FSET conditions (R36). -/
def fcondOf (c : Nat) : Option FCond :=
  match c with
  | 0 => some .eq | 1 => some .ne | 2 => some .lt | 3 => some .le | 4 => some .gt | 5 => some .ge
  | 6 => some .ord | 7 => some .uno | _ => none

/-- LRED and LSCAN operations (R37). -/
def redOf (c : Nat) : Option RedOp :=
  match c with
  | 0 => some .iadd | 1 => some .imin | 2 => some .imax | 3 => some .umin | 4 => some .umax | 5 => some .and
  | 6 => some .or | 7 => some .xor | 8 => some .fadd | 9 => some .fmin | 10 => some .fmax | _ => none

/-- MSKOP operations (R38). -/
def mskOf (c : Nat) : Option MskOp :=
  match c with
  | 0 => some .and | 1 => some .or | 2 => some .xor | 3 => some .andn | 4 => some .not | 5 => some .mov
  | 6 => some .set | 7 => some .clr | _ => none

/-- ATOM and ATOMR operations (R39). -/
def atomOf (c : Nat) : Option AtomOp :=
  match c with
  | 0 => some .add | 1 => some .min | 2 => some .max | 3 => some .umin | 4 => some .umax | 5 => some .and
  | 6 => some .or | 7 => some .xor | 8 => some .exch | 9 => some .fadd | 10 => some .fmin | 11 => some .fmax
  | 12 => some .incw | _ => none

/-- ORD with its scope (R260). -/
def ordOf (o : Nat) (sc : Scope) : MemOrd :=
  match o with
  | 0 => .plain | 1 => .acq sc | 2 => .rel sc | _ => .acqRel sc

/-- BTEST modes (R135). -/
def btModeOf (c : Nat) : Option BtMode :=
  match c with
  | 0 => some .test | 1 => some .read | 2 => some .errc | _ => none

/-- BSRC codes (R201). -/
def bsrcOf (c : Nat) : Option BSrc :=
  if h : c < 256 then some (.slot ⟨c, h⟩)
  else if c < 448 then some (.reg (lowFin 192 (c - 256) (by decide)))
  else if c < 456 then some (.gen (lowFin 8 (c - 448) (by decide)))
  else none

/-! ## Lengths -/

/-- Which of D, A and B are operand fields of an L-set opcode (R13, R17, R161, R190). -/
def lOperandFields (op : Nat) : Bool × Bool × Bool :=
  if op = 0x10 ∨ op = 0x17 ∨ op = 0x2D ∨ op = 0x2F then (false, true, true)
  else if op ≤ 0x1B then (true, true, op ≠ 0x0F && op ≠ 0x18 && op ≠ 0x19)
  else if op = 0x22 ∨ op = 0x23 then (true, true, true)
  else if op = 0x29 then (false, false, false)
  else if op = 0x2A ∨ op = 0x2B ∨ op = 0x30 then (true, false, false)
  else if op = 0x2E ∨ op = 0x66 then (false, true, false)
  else if op ≤ 0x4C then (true, true, false)
  else if op = 0x4D then (true, true, true)
  else if op = 0x4E then (true, true, false)
  else if op ≤ 0x55 ∨ op = 0x57 then (true, true, true)
  else if op = 0x56 then (true, true, false)
  else if op = 0x60 ∨ op = 0x63 ∨ op = 0x64 ∨ op = 0x65 then (true, false, false)
  else (false, false, false)

/-- Which of sd and sb are operand fields of a U-set word (R13): the fields that an entry requires to be zero are
none. `cmd` is the command word, which decides for WATCH (R349). -/
def uOperandFields (op sbx cmd : Nat) : Bool × Bool :=
  if op ≤ 0x0C then (true, true)
  else if op ≤ 0x0F then (true, false)
  else if op ≤ 0x12 ∨ op = 0x16 ∨ op = 0x17 ∨ op = 0x18 ∨ op = 0x42 ∨ op = 0x46 then (false, false)
  else if op = 0x13 ∨ op = 0x14 ∨ op = 0x33 then (false, true)
  else if op = 0x24 then (true, sbx % 2 = 1)
  else if op = 0x26 then (true, sbx / 2 % 2 = 0)
  else if op = 0x27 then (true, sbx / 2 % 2 = 0 && sbx / 16 % 4 = 0)
  else if op = 0x45 then (false, cmd % 4 ≠ 2)
  else (true, true)

/-- Whether an opcode is an E-form (R32, R33). -/
def eformOp (u : Bool) (op : Nat) : Bool :=
  if u then op == 0x32 || op == 0x35 || op == 0x36 || op == 0x40 || op == 0x41 || op == 0x45
  else (0x46 ≤ op && op ≤ 0x4E) || (0x50 ≤ op && op ≤ 0x57)

/-- Whether an operand field of the word holds the literal code (R12, R13). -/
def hasLiteral (w cmd : Nat) : Bool :=
  if fld w 31 31 = 0 then
    let f := lOperandFields (fld w 30 24)
    (f.1 && fld w 23 16 == 255) || (f.2.1 && fld w 15 8 == 255) || (f.2.2 && fld w 7 0 == 255)
  else
    let f := uOperandFields (fld w 30 24) (fld w 5 0) cmd
    (f.1 && fld w 23 15 == 511) || (f.2 && fld w 14 6 == 511)

/-- Whether a command word follows this base word. -/
def hasCommand (w : Nat) : Bool := !noInstr w && eformOp (fld w 31 31 == 1) (fld w 30 24)

/-- The number of words of the instruction that begins with `w` (R12; R46: one word when no format is known). -/
def wordCount (w cmd : Nat) : Nat :=
  if noInstr w then 1
  else 1 + (if hasCommand w then 1 else 0) + (if hasLiteral w cmd then 1 else 0)

/-! ## L-set words -/

/-- A two-source integer instruction. -/
def decInt2 (mk : VReg → LSrc → LSrc → Instr) (w lit : Nat) : Except DecodeTrap Instr := do
  let d ← step7a (vregOf (fld w 23 16))
  let a ← step7a (lsrcInt lit (fld w 15 8))
  let b ← step7a (lsrcInt lit (fld w 7 0))
  return mk d a b

/-- A two-source floating-point instruction. -/
def decFp2 (mk : VReg → LSrc → LSrc → Instr) (w lit : Nat) : Except DecodeTrap Instr := do
  let d ← step7a (vregOf (fld w 23 16))
  let a ← step7a (lsrcFp lit (fld w 15 8))
  let b ← step7a (lsrcFp lit (fld w 7 0))
  return mk d a b

/-- The opcodes 0x01–0x1B (R32). -/
def decodeArith (w lit : Nat) : Except DecodeTrap Instr :=
  match fld w 30 24 with
  | 0x01 => decInt2 .iadd w lit
  | 0x02 => decInt2 .isub w lit
  | 0x03 => decInt2 .imul w lit
  | 0x04 => decInt2 .imulh w lit
  | 0x05 => decInt2 .imulhu w lit
  | 0x06 => decInt2 .imad w lit
  | 0x07 => decInt2 .imin w lit
  | 0x08 => decInt2 .imax w lit
  | 0x09 => decInt2 .and w lit
  | 0x0A => decInt2 .or w lit
  | 0x0B => decInt2 .xor w lit
  | 0x0C => decInt2 .shl w lit
  | 0x0D => decInt2 .shr w lit
  | 0x0E => decInt2 .sar w lit
  | 0x0F => do
      let op ← step4 (iunyOf (fld w 7 0))
      let d ← step7a (vregOf (fld w 23 16))
      let a ← step7a (lsrcInt lit (fld w 15 8))
      return .iuny op d a
  | 0x10 => do
      let c ← step4 (icondOf (fld w 23 20))
      let a ← step7a (lsrcInt lit (fld w 15 8))
      let b ← step7a (lsrcInt lit (fld w 7 0))
      return .iset c (lowFin 16 (fld w 19 16) (by decide)) a b
  | 0x11 => decFp2 .fadd w lit
  | 0x12 => decFp2 .fsub w lit
  | 0x13 => decFp2 .fmul w lit
  | 0x14 => decFp2 .ffma w lit
  | 0x15 => decFp2 .fmin w lit
  | 0x16 => decFp2 .fmax w lit
  | 0x17 => do
      let c ← step4 (fcondOf (fld w 23 20))
      let a ← step7a (lsrcFp lit (fld w 15 8))
      let b ← step7a (lsrcFp lit (fld w 7 0))
      return .fset c (lowFin 16 (fld w 19 16) (by decide)) a b
  | 0x18 => do
      let op ← step4 (funyOf (fld w 7 0))
      let d ← step7a (vregOf (fld w 23 16))
      let a ← step7a (lsrcFp lit (fld w 15 8))
      return .funy op d a
  | 0x19 => do
      let p := pairOf (fld w 7 4)
      let r ← step4 (rndOf (fld w 3 1))
      let sat := fld w 0 0 == 1
      needThat (!p.exact || (r == .rne && !sat)) (.illegal 3)
      let d ← step7a (vregOf (fld w 23 16))
      let a ← step7a (if p.srcFloat then lsrcFp lit (fld w 15 8) else lsrcInt lit (fld w 15 8))
      return .fcvt p r sat d a
  | 0x1A => decFp2 .hfma2 w lit
  | 0x1B => decFp2 .bfma2 w lit
  | _ => .error (.illegal 2)

/-- A destination and one integer source, with a must-be-zero rule for the rest. -/
def decInt1 (mk : VReg → LSrc → Instr) (ok : Bool) (w lit : Nat) : Except DecodeTrap Instr := do
  step5 ok
  let d ← step7a (vregOf (fld w 23 16))
  let a ← step7a (lsrcInt lit (fld w 15 8))
  return mk d a

/-- The opcodes 0x20–0x32 (R32, R161, R190, R232, R247). -/
def decodeMove (w lit : Nat) : Except DecodeTrap Instr :=
  match fld w 30 24 with
  | 0x20 => decInt1 .mov (fld w 7 0 == 0) w lit
  | 0x21 => decInt1 (fun d a => .cmov d a (lowFin 16 (fld w 3 0) (by decide))) (fld w 7 4 == 0) w lit
  | 0x22 => decInt2 .lxor w lit
  | 0x23 => decInt2 .lshf w lit
  | 0x24 => do
      let op ← step4 (redOf (fld w 6 0))
      step5 (fld w 7 7 == 0)
      let d ← step7a (vregOf (fld w 23 16))
      let a ← step7a (if op.isFloat then lsrcFp lit (fld w 15 8) else lsrcInt lit (fld w 15 8))
      return .lred op d a
  | 0x25 => do
      let op ← step4 (redOf (fld w 6 0))
      let d ← step7a (vregOf (fld w 23 16))
      let a ← step7a (if op.isFloat then lsrcFp lit (fld w 15 8) else lsrcInt lit (fld w 15 8))
      return .lscan (fld w 7 7 == 1) op d a
  | 0x26 => decInt1 .matchv (fld w 7 0 == 0) w lit
  | 0x27 => decInt1 (fun d a => .cmpct d a (lowFin 16 (fld w 3 0) (by decide))) (fld w 7 4 == 0) w lit
  | 0x28 => decInt1 .ballot (fld w 7 0 == 0) w lit
  | 0x29 => do
      let op ← step4 (mskOf (fld w 7 0))
      step5 (fld w 23 20 == 0 &&
        (match op with
         | .not | .mov => fld w 15 12 == 0
         | .set | .clr => fld w 15 8 == 0
         | _ => true))
      return .mskop op (lowFin 16 (fld w 19 16) (by decide)) (lowFin 16 (fld w 11 8) (by decide))
        (lowFin 16 (fld w 15 12) (by decide))
  | 0x2A => do
      needThat (fld w 7 1 == 0) (.illegal 3)
      step5 (fld w 15 12 == 0)
      let d ← step7a (vregOf (fld w 23 16))
      return .mpopc (fld w 0 0 == 1) d (lowFin 16 (fld w 11 8) (by decide))
  | 0x2B => do
      needThat (fld w 7 3 == 0) (.illegal 3)
      step5 (fld w 15 8 == 0)
      let d ← step7a (vregOf (fld w 23 16))
      step7b (!(fld w 2 2 == 1) || d.val % 2 == 0)
      return .draw (lowFin 4 (fld w 1 0) (by decide)) (fld w 2 2 == 1) d
  | 0x2C => do
      needThat (fld w 7 2 == 0) (.illegal 3)
      let d ← step7a (vregOf (fld w 23 16))
      let a ← step7a (lsrcFp lit (fld w 15 8))
      return .catd (lowFin 4 (fld w 1 0) (by decide)) d a
  | 0x2D => do
      step5 (fld w 23 18 == 0)
      let a ← step7a (lsrcInt lit (fld w 15 8))
      let b ← step7a (lsrcInt lit (fld w 7 0))
      return .dsskip (lowFin 4 (fld w 17 16) (by decide)) a b
  | 0x2E => do
      step5 (fld w 23 16 == 0 && fld w 7 0 == 0)
      let a ← step7a (lsrcInt lit (fld w 15 8))
      return .dsfork a
  | 0x2F => do
      step5 (fld w 23 18 == 0)
      let a ← step7a (lsrcInt lit (fld w 15 8))
      let b ← step7a (lsrcInt lit (fld w 7 0))
      return .dssetp (lowFin 4 (fld w 17 16) (by decide)) a b
  | 0x30 => do
      needThat (fld w 7 2 == 0) (.illegal 3)
      step5 (fld w 15 8 == 0)
      let d ← step7a (vregOf (fld w 23 16))
      step7b (d.val % 2 == 0)
      return .dspos (lowFin 4 (fld w 1 0) (by decide)) d
  | 0x31 => do
      step5 (fld w 7 4 == 0)
      let d ← step7a (vregOf (fld w 23 16))
      let a ← step7a (lsrcInt lit (fld w 15 8))
      return .gneval (fld w 3 3 == 1) (lowFin 8 (fld w 2 0) (by decide)) d a
  | 0x32 => do
      step5 (fld w 7 6 == 0)
      let d ← step7a (vregOf (fld w 23 16))
      let a ← step7a (vregOf (fld w 15 8))
      step7b (d.val % 2 == 0)
      return .ksig d a (lowFin 64 (fld w 5 0) (by decide))
  | _ => .error (.illegal 2)

/-- A lane load: D names a vector register, aligned for the width that W gives (R18). -/
def decLoad (mk : VReg → LSrc → HSel → Instr) (w lit : Nat) : Except DecodeTrap Instr := do
  let h := hselOf (fld w 7 2) (fld w 1 0)
  let d ← step7a (vregOf (fld w 23 16))
  let a ← step7a (lsrcInt lit (fld w 15 8))
  step7b (d.val % h.regs == 0)
  return mk d a h

/-- D of a store-like instruction that needs `n` registers: any source code when `n` is 1, else a vector register;
`fp` says that a 4-byte D is a floating-point position (R18, R107). -/
def storeData (fp : Bool) (n w lit : Nat) : Option LSrc :=
  if n = 1 then (if fp then lsrcFp lit (fld w 23 16) else lsrcInt lit (fld w 23 16))
  else (vregOf (fld w 23 16)).map .v

/-- The alignment of a store's register group (R18). -/
def storeAligned (n : Nat) (d : LSrc) : Bool := n == 1 || d.vecMul n

/-- A lane store (R18). -/
def decStore (fp : Bool) (mk : LSrc → LSrc → HSel → Instr) (w lit : Nat) : Except DecodeTrap Instr := do
  let h := hselOf (fld w 7 2) (fld w 1 0)
  let d ← step7a (storeData fp h.regs w lit)
  let a ← step7a (lsrcInt lit (fld w 15 8))
  step7b (storeAligned h.regs d)
  return mk d a h

/-- The widths that an atomic allows (R261). -/
def atomWidthOk (op : AtomOp) (h : HSel) : Bool :=
  match h.width? with
  | some .w16 => false
  | some .w8 => !op.isFloat
  | _ => true

/-- The mask operand of a collector or copy word: `none` when the enable bit is clear (R113, R294). -/
def menOf (en m : Nat) : Option MReg := if en = 1 then some (lowFin 16 m (by decide)) else none

/-- The mask number must be zero when the enable bit is clear (R113, R294). -/
def menOk (en m : Nat) : Bool := en == 1 || m == 0

/-- The opcodes 0x40–0x4E (R106, R256, R258, R260, R261, R294, R295, R298, R242). D of ATOMR stands in an integer position
for every OP, also for FADD, FMIN and FMAX, where R21 and R261 name no position (log entry 85). -/
def decodeLaneMem (w cmd lit : Nat) : Except DecodeTrap Instr :=
  match fld w 30 24 with
  | 0x40 => decLoad .ld w lit
  | 0x41 => decLoad .lde w lit
  | 0x42 => decLoad .ldnr w lit
  | 0x43 => decStore false .st w lit
  | 0x44 => decStore true .ste w lit
  | 0x45 => decStore false .stnt w lit
  | 0x46 => do
      needThat (fld cmd 19 16 < 13 && fld cmd 14 12 < 6) (.illegal 3)
      step6 (fld cmd 25 20 == 0 && fld cmd 19 16 == 0 && fld cmd 15 15 == 0 && fld cmd 14 12 == 0
        && fld cmd 11 10 == 0 && fld cmd 9 0 == 0)
      decStore false (.pst (lowFin 64 (fld cmd 31 26) (by decide))) w lit
  | 0x47 => do
      let op ← step4 (atomOf (fld cmd 19 16))
      let sc ← step4 (scopeOf (fld cmd 14 12))
      let h := hselOf (fld w 7 2) (fld w 1 0)
      step5 (atomWidthOk op h)
      step6 (fld cmd 31 26 == 0 && fld cmd 25 20 == 0 && fld cmd 15 15 == 0 && fld cmd 9 0 == 0
        && (fld cmd 11 10 != 0 || fld cmd 14 12 == 0))
      let d ← step7a (vregOf (fld w 23 16))
      let a ← step7a (lsrcInt lit (fld w 15 8))
      step7b (d.val % h.regs == 0)
      return .atom op (ordOf (fld cmd 11 10) sc) d a h
  | 0x48 => do
      let op ← step4 (atomOf (fld cmd 19 16))
      needThat (fld cmd 14 12 < 6) (.illegal 3)
      let h := hselOf (fld w 7 2) (fld w 1 0)
      step5 (atomWidthOk op h)
      step6 (fld cmd 31 26 == 0 && fld cmd 25 20 == 0 && fld cmd 15 15 == 0 && fld cmd 14 12 == 0
        && fld cmd 11 10 == 0 && fld cmd 9 0 == 0)
      let d ← step7a (storeData false h.regs w lit)
      let a ← step7a (lsrcInt lit (fld w 15 8))
      step7b (storeAligned h.regs d)
      return .atomr op d a h
  | 0x49 => do
      needThat (fld cmd 19 16 < 13) (.illegal 3)
      let sc ← step4 (scopeOf (fld cmd 14 12))
      let h := hselOf (fld w 7 2) (fld w 1 0)
      step5 (fld w 1 0 != 2)
      step6 (fld cmd 31 26 == 0 && fld cmd 25 20 == 0 && fld cmd 19 16 == 0 && fld cmd 15 15 == 0
        && fld cmd 9 0 == 0 && (fld cmd 11 10 != 0 || fld cmd 14 12 == 0))
      let d ← step7a (vregOf (fld w 23 16))
      let a ← step7a (lsrcInt lit (fld w 15 8))
      step7b (d.val % (2 * h.regs) == 0)
      return .cas (ordOf (fld cmd 11 10) sc) d a h
  | 0x4A => do
      needThat (fld cmd 19 16 < 13) (.illegal 3)
      let sc ← step4 (scopeOf (fld cmd 14 12))
      let h := hselOf (fld w 7 2) (fld w 1 0)
      step5 (2 ≤ fld w 1 0)
      step6 (fld cmd 31 26 == 0 && fld cmd 25 20 == 0 && fld cmd 19 16 == 0 && fld cmd 15 15 == 0
        && fld cmd 9 0 == 0 && (fld cmd 11 10 != 0 || fld cmd 14 12 == 0))
      let d ← step7a (vregOf (fld w 23 16))
      let a ← step7a (lsrcInt lit (fld w 15 8))
      step7b (match h.width? with | some _ => d.val % 8 == 0 | none => true)
      return .cas128 (ordOf (fld cmd 11 10) sc) d a h
  | 0x4B => do
      step6 (fld cmd 31 12 == 0 && fld cmd 6 3 == 0 && menOk (fld cmd 11 11) (fld cmd 10 7))
      let h := hselOf (fld w 7 2) (fld w 1 0)
      let n := fld cmd 2 0
      let d ← step7a (vregOf (fld w 23 16))
      let a ← step7a (if n = 0 then lsrcInt lit (fld w 15 8) else (vregOf (fld w 15 8)).map .v)
      step7b (d.val % h.regs == 0)
      return .gath (lowFin 8 n (by decide)) (menOf (fld cmd 11 11) (fld cmd 10 7)) d a h
  | 0x4C => do
      step6 (fld cmd 31 12 == 0 && fld cmd 6 3 == 0 && menOk (fld cmd 11 11) (fld cmd 10 7))
      let h := hselOf (fld w 7 2) (fld w 1 0)
      let n := fld cmd 2 0
      let d ← step7a (if n = 0 then storeData false h.regs w lit else (vregOf (fld w 23 16)).map .v)
      let a ← step7a (if n = 0 then lsrcInt lit (fld w 15 8) else (vregOf (fld w 15 8)).map .v)
      step7b (if n = 0 then storeAligned h.regs d else d.vecMul h.regs)
      return .scat (lowFin 8 n (by decide)) (menOf (fld cmd 11 11) (fld cmd 10 7)) d a h
  | 0x4D => do
      step6 ((fld cmd 13 13 == 1 || fld cmd 19 14 == 0) && fld cmd 12 12 == 0 && fld cmd 6 3 == 0
        && menOk (fld cmd 11 11) (fld cmd 10 7) && fld cmd 2 0 == 0)
      let d ← step7a (vregOf (fld w 23 16))
      let a ← step7a (lsrcInt lit (fld w 15 8))
      let b ← step7a (vregOf (fld w 7 0))
      step7b (d.val % 4 == 0)
      return .sisect (lowFin 64 (fld cmd 31 26) (by decide)) (lowFin 64 (fld cmd 25 20) (by decide))
        (if fld cmd 13 13 = 1 then some (lowFin 64 (fld cmd 19 14) (by decide)) else none)
        (menOf (fld cmd 11 11) (fld cmd 10 7)) d a b
  | 0x4E => do
      step5 (fld w 1 0 < 2)
      step6 (fld cmd 31 1 == 0)
      let n := if fld w 1 0 = 1 then 2 else 1
      let d ← step7a (storeData false n w lit)
      let a ← step7a (lsrcInt lit (fld w 15 8))
      step7b (storeAligned n d)
      return .kst (fld cmd 0 0 == 1) (fld w 1 0 == 1) d a (lowFin 64 (fld w 7 2) (by decide))
  | _ => .error (.illegal 2)

/-- Three integer sources of an engine instruction. -/
def decEngine3 (mk : LSrc → LSrc → LSrc → Instr) (w lit : Nat) : Except DecodeTrap Instr := do
  let d ← step7a (lsrcInt lit (fld w 23 16))
  let a ← step7a (lsrcInt lit (fld w 15 8))
  let b ← step7a (lsrcInt lit (fld w 7 0))
  return mk d a b

/-- The copy word without TGT (R113). -/
def copyWordOf (cmd : Nat) (size : Width) (r : Rnd) : CopyWord :=
  { src := lowFin 64 (fld cmd 31 26) (by decide), dst := lowFin 64 (fld cmd 25 20) (by decide), size := size,
    cvt := fld cmd 17 17 == 1, rnd := r, sat := fld cmd 13 13 == 1, exp := fld cmd 12 12 == 1,
    arr := fld cmd 11 11 == 1, men := menOf (fld cmd 10 10) (fld cmd 9 6) }

/-- The must-be-zero rules that CPL and CPM share (R113). -/
def copyZeros (cmd : Nat) : Bool :=
  fld cmd 5 4 == 0 && (fld cmd 17 17 == 1 || (fld cmd 16 14 == 0 && fld cmd 13 13 == 0))
    && menOk (fld cmd 10 10) (fld cmd 9 6)

/-- The opcodes 0x50–0x57 (R112, R113, R201–R203, R216–R218, R248). -/
def decodeEngine (w cmd lit : Nat) : Except DecodeTrap Instr :=
  match fld w 30 24 with
  | 0x50 => do
      let size ← step4 (widthOf (fld cmd 19 18))
      let r ← step4 (rndOf (fld cmd 16 14))
      step6 (copyZeros cmd && fld cmd 3 0 == 0)
      decEngine3 (.cpl (copyWordOf cmd size r)) w lit
  | 0x51 => do
      let size ← step4 (widthOf (fld cmd 19 18))
      let r ← step4 (rndOf (fld cmd 16 14))
      needThat (fld cmd 3 0 != 0) (.illegal 3)
      step6 (copyZeros cmd)
      decEngine3 (.cpm (copyWordOf cmd size r) (lowFin 16 (fld cmd 3 0) (by decide))) w lit
  | 0x52 => do
      step6 (fld cmd 14 12 == 0 && fld cmd 11 0 == 0)
      let bs ← step7a (bsrcOf (fld cmd 25 17))
      decEngine3 (.mmq ⟨lowFin 64 (fld cmd 31 26) (by decide), bs, fld cmd 16 16 == 1, fld cmd 15 15 == 1⟩) w lit
  | 0x53 => do
      step6 (fld cmd 11 0 == 0)
      let bs ← step7a (bsrcOf (fld cmd 25 17))
      decEngine3 (.mmt ⟨lowFin 64 (fld cmd 31 26) (by decide), bs, fld cmd 16 16 == 1, fld cmd 15 15 == 1⟩
        (lowFin 8 (fld cmd 14 12) (by decide))) w lit
  | 0x54 => do
      needThat (fld cmd 10 8 < 5) (.illegal 3)
      step6 (fld cmd 31 5 == 0)
      let d ← step7a (vregOf (fld w 23 16))
      let a ← step7a (lsrcInt lit (fld w 15 8))
      let b ← step7a (lsrcInt lit (fld w 7 0))
      return .accrd (lowFin 32 (fld cmd 4 0) (by decide)) d a b
  | 0x55 => do
      needThat (fld cmd 10 8 < 5) (.illegal 3)
      step6 (fld cmd 31 5 == 0)
      let d ← step7a (if fld cmd 4 0 = 0 then lsrcInt lit (fld w 23 16) else (vregOf (fld w 23 16)).map .v)
      let a ← step7a (lsrcInt lit (fld w 15 8))
      let b ← step7a (lsrcInt lit (fld w 7 0))
      return .accwr (lowFin 32 (fld cmd 4 0) (by decide)) d a b
  | 0x56 => do
      needThat (fld cmd 10 8 < 5) (.illegal 3)
      step5 (fld w 7 4 == 0)
      step6 (fld cmd 31 7 == 0 && fld cmd 5 0 == 0)
      let d ← step7a (lsrcFp lit (fld w 23 16))
      let a ← step7a (lsrcInt lit (fld w 15 8))
      return .accpatch (fld cmd 6 6 == 1) d a (lowFin 16 (fld w 3 0) (by decide))
  | 0x57 => do
      let p ← step4 (finOf 13 (fld cmd 19 16))
      step6 (menOk (fld cmd 15 15) (fld cmd 14 11))
      let d ← step7a (lsrcInt lit (fld w 23 16))
      let a ← step7a (lsrcInt lit (fld w 15 8))
      let b ← step7a (lsrcFp lit (fld w 7 0))
      return .kgath (lowFin 64 (fld cmd 31 26) (by decide)) (lowFin 64 (fld cmd 25 20) (by decide)) p
        (menOf (fld cmd 15 15) (fld cmd 14 11)) (lowFin 2048 (fld cmd 10 0) (by decide)) d a b
  | _ => .error (.illegal 2)

/-- The opcodes 0x60–0x68 (R20, R167–R171). -/
def decodeControl (w lit : Nat) : Except DecodeTrap Instr :=
  match fld w 30 24 with
  | 0x60 =>
      if fld w 23 16 = 255 then do
        step5 (fld w 15 0 == 0)
        return .braKernelAbsolute (BitVec.ofNat 32 lit)
      else do
        step5 (fld w 23 16 == 0)
        return .bra (BitVec.ofNat 16 (fld w 15 0))
  | 0x61 => do
      step5 (fld w 23 20 == 0)
      return .brm (lowFin 16 (fld w 19 16) (by decide)) (BitVec.ofNat 16 (fld w 15 0))
  | 0x62 => do
      step5 (fld w 23 20 == 0)
      return .brmn (lowFin 16 (fld w 19 16) (by decide)) (BitVec.ofNat 16 (fld w 15 0))
  | 0x63 => do
      let d ← step7a (lsrcInt lit (fld w 23 16))
      return .brz d (BitVec.ofNat 16 (fld w 15 0))
  | 0x64 => do
      let d ← step7a (lsrcInt lit (fld w 23 16))
      return .brnz d (BitVec.ofNat 16 (fld w 15 0))
  | 0x65 =>
      if fld w 23 16 = 255 then do
        step5 (fld w 15 0 == 0)
        return .callKernelAbsolute (BitVec.ofNat 32 lit)
      else do
        step5 (fld w 23 16 == 0)
        return .call (BitVec.ofNat 16 (fld w 15 0))
  | 0x66 => do
      step5 (fld w 23 16 == 0 && fld w 7 0 == 0)
      let a ← step7a (lsrcInt lit (fld w 15 8))
      return .ret a
  | 0x67 => do
      step5 (fld w 23 0 == 0)
      return .exit
  | 0x68 => do
      step5 (fld w 23 16 == 0)
      return .trap (BitVec.ofNat 16 (fld w 15 0))
  | _ => .error (.illegal 2)

/-- The L-set (R11, R32). -/
def decodeL (w cmd lit : Nat) : Except DecodeTrap Instr :=
  if fld w 30 24 < 0x20 then decodeArith w lit
  else if fld w 30 24 < 0x40 then decodeMove w lit
  else if fld w 30 24 < 0x50 then decodeLaneMem w cmd lit
  else if fld w 30 24 < 0x60 then decodeEngine w cmd lit
  else decodeControl w lit

/-! ## U-set words -/

/-- A register destination and a source; `ok` says that the must-be-zero fields are zero. -/
def decS (mk : SReg → USrc → Instr) (ok : Bool) (w lit : Nat) : Except DecodeTrap Instr := do
  step5 ok
  let d ← step7a (sregOf (fld w 23 15))
  let b ← step7a (usrcOf lit (fld w 14 6))
  return mk d b

/-- The opcodes 0x00–0x12 (R33, R173–R175). -/
def decodeScalar (w lit : Nat) : Except DecodeTrap Instr :=
  match fld w 30 24 with
  | 0x00 => decS .sadd (fld w 5 0 == 0) w lit
  | 0x01 => decS .ssub (fld w 5 0 == 0) w lit
  | 0x02 => decS .smul (fld w 5 0 == 0) w lit
  | 0x03 => decS .sand (fld w 5 0 == 0) w lit
  | 0x04 => decS .sor (fld w 5 0 == 0) w lit
  | 0x05 => decS .sxor (fld w 5 0 == 0) w lit
  | 0x06 => decS .sshl (fld w 5 0 == 0) w lit
  | 0x07 => decS .sshr (fld w 5 0 == 0) w lit
  | 0x08 => decS .ssar (fld w 5 0 == 0) w lit
  | 0x09 => decS .smin (fld w 5 0 == 0) w lit
  | 0x0A => decS .smax (fld w 5 0 == 0) w lit
  | 0x0B => decS .smov (fld w 5 0 == 0) w lit
  | 0x0C => do
      let c ← step4 (icondOf (fld w 3 0))
      decS (.sset c) (fld w 5 4 == 0) w lit
  | 0x0D => do
      let d ← step7a (sregOf (fld w 23 15))
      return .smovi d (BitVec.ofNat 15 (fld w 14 0))
  | 0x0E => do
      let d ← step7a (sregOf (fld w 23 15))
      return .slui d (BitVec.ofNat 15 (fld w 14 0))
  | 0x0F => do
      let d ← step7a (sregOf (fld w 23 15))
      let v ← step7a (vregOf (fld w 13 6))
      return .v2s d (fld w 14 14 == 1) v (lowFin 64 (fld w 5 0) (by decide))
  | 0x10 => do
      step5 (fld w 23 15 == 0)
      return .sbra (BitVec.ofNat 15 (fld w 14 0))
  | 0x11 => do
      let c ← step7a (sregOf (fld w 23 15))
      return .sbz c (BitVec.ofNat 15 (fld w 14 0))
  | 0x12 => do
      let c ← step7a (sregOf (fld w 23 15))
      return .sbnz c (BitVec.ofNat 15 (fld w 14 0))
  | _ => .error (.illegal 2)

/-- The scope of an access whose ordering bit is `ord` (R110, R142). -/
def scopeIf (ord : Nat) (sc : Scope) : Option Scope := if ord = 1 then some sc else none

/-- LDU, STU, RQENQ and RQDEQ (R110, R142); `regsOk` is the rule for sd. -/
def decItem (mk : Option Scope → Bool → SReg → USrc → Instr) (regsOk : Bool → SReg → Bool) (w lit : Nat) :
    Except DecodeTrap Instr := do
  let sc ← step4 (scopeOf (fld w 5 3))
  step5 (fld w 0 0 == 0 && (fld w 2 2 == 1 || fld w 5 3 == 0))
  let d ← step7a (sregOf (fld w 23 15))
  let b ← step7a (usrcOf lit (fld w 14 6))
  step7b (regsOk (fld w 1 1 == 1) d)
  return mk (scopeIf (fld w 2 2) sc) (fld w 1 1 == 1) d b

/-- sd of LDU and STU (R110). -/
def itemRegsOk (wide : Bool) (d : SReg) : Bool := !wide || SReg.even d

/-- The opcodes 0x13–0x1C (R327, R328, R326, R140, R267, R257, R110, R160, R29). -/
def decodeUniform (w lit : Nat) : Except DecodeTrap Instr :=
  match fld w 30 24 with
  | 0x13 => do
      step5 (fld w 23 15 == 0 && fld w 5 3 == 0)
      let b ← step7a (usrcOf lit (fld w 14 6))
      return .qrd (lowFin 8 (fld w 2 0) (by decide)) b
  | 0x14 => do
      step5 (fld w 23 15 == 0 && fld w 5 3 == 0)
      let b ← step7a (usrcOf lit (fld w 14 6))
      return .qst (lowFin 8 (fld w 2 0) (by decide)) b
  | 0x15 => decS .idrd (fld w 5 0 == 0) w lit
  | 0x16 => .ok (.waitc (lowFin 64 (fld w 23 18) (by decide)) (lowFin 64 (fld w 17 12) (by decide))
      (lowFin 64 (fld w 11 6) (by decide)) (lowFin 64 (fld w 5 0) (by decide)))
  | 0x17 => do
      let sc ← step4 (scopeOf (fld w 5 0))
      step5 (fld w 23 6 == 0)
      return .fence sc
  | 0x18 => do
      let sc ← step4 (scopeOf (fld w 5 0))
      step5 (fld w 23 6 == 0)
      return .ntdrain sc
  | 0x19 => decItem .ldu itemRegsOk w lit
  | 0x1A => decItem .stu itemRegsOk w lit
  | 0x1B => decS .fstat (fld w 5 0 == 0) w lit
  | 0x1C => do
      step5 ((fld w 23 15 == 0 || fld w 23 15 == 511) && (fld w 14 6 == 0 || fld w 14 6 == 511) && fld w 5 0 == 0)
      if fld w 23 15 = 0 ∧ fld w 14 6 = 0 then return .nop
      else return .nopLiteral (fld w 23 15 == 511) (fld w 14 6 == 511) (BitVec.ofNat 32 lit)
  | _ => .error (.illegal 2)

/-- A barrier instruction's sd: a register with a successor in a ring form, else any source (R135). -/
def ringSrc (ring : Bool) (lit c : Nat) : Option USrc :=
  if ring then (sregOf c).map .s else usrcOf lit c

/-- The check of 0–382 in a ring form (R135). -/
def ringOk (ring : Bool) (d : USrc) : Bool := !ring || d.ringReg

/-- The opcodes 0x20–0x2B (R97–R99, R135, R142, R66, R67). -/
def decodeHandle (w lit : Nat) : Except DecodeTrap Instr :=
  match fld w 30 24 with
  | 0x20 => decS (fun d b => .hload d b (lowFin 64 (fld w 5 0) (by decide))) true w lit
  | 0x21 => decS (fun d b => .hadj d b (lowFin 64 (fld w 5 0) (by decide))) true w lit
  | 0x22 => decS (fun d b => .hqry d b (lowFin 64 (fld w 5 0) (by decide))) true w lit
  | 0x23 => do
      step5 (fld w 5 0 == 0)
      let d ← step7a (usrcOf lit (fld w 23 15))
      let b ← step7a (usrcOf lit (fld w 14 6))
      return .binit d b
  | 0x24 => do
      let ring := fld w 1 1 == 1
      let exp := fld w 0 0 == 1
      step5 (fld w 5 2 == 0 && (exp || fld w 14 6 == 0))
      let d ← step7a (ringSrc ring lit (fld w 23 15))
      let b ← step7a (usrcOf lit (fld w 14 6))
      step7b (ringOk ring d)
      return .barrive ring exp d b
  | 0x25 => do
      let ring := fld w 1 1 == 1
      step5 (fld w 5 2 == 0 && fld w 0 0 == 0)
      let d ← step7a (ringSrc ring lit (fld w 23 15))
      let b ← step7a (usrcOf lit (fld w 14 6))
      step7b (ringOk ring d)
      return .bexpect ring d b
  | 0x26 => do
      let ring := fld w 1 1 == 1
      step5 (fld w 5 2 == 0 && fld w 0 0 == 0 && (!ring || fld w 14 6 == 0))
      let d ← step7a (ringSrc ring lit (fld w 23 15))
      let b ← step7a (usrcOf lit (fld w 14 6))
      step7b (ringOk ring d)
      return .bwait ring d b
  | 0x27 => do
      let mode ← step4 (btModeOf (fld w 5 4))
      let ring := fld w 1 1 == 1
      step5 (fld w 3 2 == 0 && fld w 0 0 == 0 && ((mode == .test && !ring) || fld w 14 6 == 0))
      let d ← step7a (sregOf (fld w 23 15))
      let b ← step7a (usrcOf lit (fld w 14 6))
      step7b (!ring || SReg.pair d)
      return .btest mode ring d b
  | 0x28 => decItem .rqenq queueRegsOk w lit
  | 0x29 => decItem .rqdeq queueRegsOk w lit
  | 0x2A => do
      let d ← step7a (sregOf (fld w 23 15))
      let b ← step7a (usrcOf lit (fld w 14 6))
      step7b (SReg.even d)
      return .pgreq d b (lowFin 64 (fld w 5 0) (by decide))
  | 0x2B => do
      let d ← step7a (sregOf (fld w 23 15))
      let b ← step7a (usrcOf lit (fld w 14 6))
      step7b (SReg.even d)
      return .pfh d b (lowFin 64 (fld w 5 0) (by decide))
  | _ => .error (.illegal 2)

/-- The opcodes 0x30–0x46 (R184, R231, R198, R200, R219, R220, R241, R329, R331, R341, R349). -/
def decodeSystem (w cmd lit : Nat) : Except DecodeTrap Instr :=
  match fld w 30 24 with
  | 0x30 => decS (fun d b => .dsld d b (lowFin 16 (fld w 3 0) (by decide))) (fld w 5 4 == 0) w lit
  | 0x31 => decS (fun d b => .gnld d b (lowFin 8 (fld w 2 0) (by decide))) (fld w 5 3 == 0) w lit
  | 0x32 => do
      step6 (fld cmd 31 2 == 0)
      decS (fun d b => .bld (fld cmd 0 0 == 1) (fld cmd 1 1 == 1) d b (lowFin 64 (fld w 5 0) (by decide))) true w lit
  | 0x33 => do
      step5 (fld w 23 15 == 0 && fld w 5 0 == 0)
      let b ← step7a (usrcOf lit (fld w 14 6))
      return .bfree b
  | 0x34 => do
      step5 (fld w 5 0 == 0)
      let d ← step7a (usrcOf lit (fld w 23 15))
      let b ← step7a (usrcOf lit (fld w 14 6))
      return .accz d b
  | 0x35 => do
      let r ← step4 (rndOf (fld cmd 10 8))
      step6 (fld cmd 31 22 == 0 && fld cmd 6 0 == 0)
      let d ← step7a (usrcOf lit (fld w 23 15))
      let b ← step7a (usrcOf lit (fld w 14 6))
      return .accst (lowFin 2048 (fld cmd 21 11) (by decide)) r (fld cmd 7 7 == 1) d b
        (lowFin 64 (fld w 5 0) (by decide))
  | 0x36 => do
      let psc ← step4 (scopeOf (fld cmd 12 10))
      let cl ← step4 (finOf 3 (fld cmd 9 8))
      needThat (4 ≤ fld cmd 7 4) (.illegal 3)
      let bb ← step4 (finOf 9 (fld cmd 7 4 - 4))
      step6 (fld cmd 31 16 == 0 && fld cmd 3 1 == 0)
      let d ← step7a (sregOf (fld w 23 15))
      let b ← step7a (usrcOf lit (fld w 14 6))
      step7b (SReg.even d)
      return .ksinit (lowFin 8 (fld cmd 15 13) (by decide)) psc cl bb (fld cmd 0 0 == 1) d b
        (lowFin 64 (fld w 5 0) (by decide))
  | 0x40 => do
      needThat (fld cmd 1 0 < 2) (.illegal 3)
      step5 (fld w 5 0 == 0)
      step6 (fld cmd 31 2 == 0)
      decS (.launch (fld cmd 1 0 == 1)) true w lit
  | 0x41 => do
      step5 (fld w 5 0 == 0)
      step6 (fld cmd 31 1 == 0)
      decS (.tapepush (fld cmd 0 0 == 1)) true w lit
  | 0x42 => do
      step5 (fld w 23 1 == 0)
      return .tret (fld w 0 0 == 1)
  | 0x43 => decS .tfrd (fld w 5 0 == 0) w lit
  | 0x44 => decS .tfwr (fld w 5 0 == 0) w lit
  | 0x45 => do
      needThat (fld cmd 1 0 != 3) (.illegal 3)
      step5 (fld w 23 15 == 0 && fld w 5 3 == 0 && (fld cmd 1 0 != 2 || fld w 14 6 == 0))
      step6 (fld cmd 31 2 == 0)
      if fld cmd 1 0 = 2 then return .watchClr (lowFin 8 (fld w 2 0) (by decide))
      else do
        let b ← step7a (usrcOf lit (fld w 14 6))
        if fld cmd 1 0 = 0 then return .watchLoad (lowFin 8 (fld w 2 0) (by decide)) b
        else return .watchStore (lowFin 8 (fld w 2 0) (by decide)) b
  | 0x46 => do
      step5 (fld w 23 1 == 0)
      return .gend (fld w 0 0 == 1)
  | _ => .error (.illegal 2)

/-- The U-set (R11, R33). -/
def decodeU (w cmd lit : Nat) : Except DecodeTrap Instr :=
  if fld w 30 24 < 0x13 then decodeScalar w lit
  else if fld w 30 24 < 0x20 then decodeUniform w lit
  else if fld w 30 24 < 0x30 then decodeHandle w lit
  else decodeSystem w cmd lit

/-- The decoder: the base word, the command word and the literal word of an instruction, the last two zero where the
instruction has none. A base word that is no instruction decodes to the event that its issue is (R43). -/
def decode (w cmd lit : Nat) : Except DecodeTrap Instr :=
  if noInstr w then .ok (.illegalEncoding (BitVec.ofNat 32 w))
  else if fld w 31 31 = 0 then decodeL w cmd lit
  else decodeU w cmd lit

/-- A little-endian 32-bit word from the front of a list of bytes; bytes past the end read as zero (R7). -/
def leWord (bs : List Byte) : Nat :=
  match bs with
  | a :: b :: c :: d :: _ => a.toNat + 256 * b.toNat + 65536 * c.toNat + 16777216 * d.toNat
  | [a, b, c] => a.toNat + 256 * b.toNat + 65536 * c.toNat
  | [a, b] => a.toNat + 256 * b.toNat
  | [a] => a.toNat
  | [] => 0

/-- The decoder on bytes in memory order, with the bytes that follow the instruction. -/
def decodeBytes (bs : List Byte) : Except DecodeTrap Instr × List Byte :=
  let w := leWord bs
  let cmd := if hasCommand w then leWord (bs.drop 4) else 0
  let n := wordCount w cmd
  let lit := if hasLiteral w cmd && !noInstr w then leWord (bs.drop (4 * (n - 1))) else 0
  (decode w cmd lit, bs.drop (4 * n))

/-- The bytes of a number, least significant first. -/
def leBytes : Nat → Nat → List Byte
  | 0, _ => []
  | n + 1, v => BitVec.ofNat 8 v :: leBytes n (v / 256)

/-- The instruction that the decoder reads from the bits `w` of a table row, laid out from the first word up; the
bits above `nbits` are zero. -/
def decodeTableWord (nbits w : Nat) : Option Instr :=
  match (decodeBytes (leBytes 12 (w % 2 ^ nbits))).1 with
  | .ok i => some i
  | .error _ => none

/-! ## The encoder -/

/-- The code of an L-set source (R21). -/
def LSrc.code : LSrc → Nat
  | .v r => r.val
  | .s r => 192 + r.val
  | .ds r => 224 + r.val
  | .zero => 240 | .one => 241 | .negOne => 242 | .two => 243 | .half => 244
  | .lane => 245 | .octet => 246 | .width => 247
  | .lit _ => 255

/-- The code of a U-set source (R24). -/
def USrc.code : USrc → Nat
  | .s r => r.val
  | .imm c => 384 + c.val
  | .lit _ => 511

/-- The code of a scope (R40). -/
def Scope.code : Scope → Nat
  | .group => 0 | .workgroup => 1 | .cluster => 2 | .die => 3 | .module => 4 | .system => 5

/-- The code of a width (R16). -/
def Width.code : Width → Nat
  | .w4 => 0 | .w8 => 1 | .w16 => 2

/-- The code of a rounding mode (R35). -/
def Rnd.code : Rnd → Nat
  | .rne => 0 | .rz => 1 | .rdn => 2 | .rup => 3 | .sr => 4

/-- Bits [7:0] of LM (R16). -/
def HSel.bits : HSel → Nat
  | .slot h w => 4 * h.val + w.code
  | .reg r => 4 * r.val + 3

/-- The code of an IUNY operation (R34). -/
def IunyOp.code : IunyOp → Nat
  | .popc => 0 | .clz => 1 | .brev => 2 | .abs => 3 | .neg => 4 | .not => 5

/-- The code of a FUNY operation (R34). -/
def FunyOp.code : FunyOp → Nat
  | .rcp => 0 | .rsq => 1 | .exp2 => 2 | .log2 => 3 | .sinp => 4 | .cosp => 5 | .sqrt => 6 | .abs => 7 | .neg => 8
  | .floor => 9 | .ceil => 10 | .trunc => 11 | .cls => 12

/-- The code of a conversion pair (R35). -/
def FcvtPair.code : FcvtPair → Nat
  | .bf16F32 => 0 | .fp16F32 => 1 | .e4m3F32 => 2 | .e5m2F32 => 3 | .f32Bf16 => 4 | .f32Fp16 => 5 | .f32E4m3 => 6
  | .f32E5m2 => 7 | .i32F32 => 8 | .u32F32 => 9 | .i8F32 => 10 | .f32I32 => 11 | .f32U32 => 12 | .f32I8 => 13
  | .e4m3Bf16 => 14 | .e5m2Bf16 => 15

/-- The code of an integer condition (R36). -/
def ICond.code : ICond → Nat
  | .eq => 0 | .ne => 1 | .lt => 2 | .le => 3 | .gt => 4 | .ge => 5 | .ltu => 6 | .leu => 7 | .gtu => 8 | .geu => 9

/-- The code of a floating-point condition (R36). -/
def FCond.code : FCond → Nat
  | .eq => 0 | .ne => 1 | .lt => 2 | .le => 3 | .gt => 4 | .ge => 5 | .ord => 6 | .uno => 7

/-- The code of a reduction (R37). -/
def RedOp.code : RedOp → Nat
  | .iadd => 0 | .imin => 1 | .imax => 2 | .umin => 3 | .umax => 4 | .and => 5 | .or => 6 | .xor => 7 | .fadd => 8
  | .fmin => 9 | .fmax => 10

/-- The code of a mask operation (R38). -/
def MskOp.code : MskOp → Nat
  | .and => 0 | .or => 1 | .xor => 2 | .andn => 3 | .not => 4 | .mov => 5 | .set => 6 | .clr => 7

/-- The code of an atomic operation (R39). -/
def AtomOp.code : AtomOp → Nat
  | .add => 0 | .min => 1 | .max => 2 | .umin => 3 | .umax => 4 | .and => 5 | .or => 6 | .xor => 7 | .exch => 8
  | .fadd => 9 | .fmin => 10 | .fmax => 11 | .incw => 12

/-- ORD and SCOPE of the memory-order word (R260). -/
def MemOrd.bits : MemOrd → Nat
  | .plain => 0
  | .acq sc => 4096 * sc.code + 1024
  | .rel sc => 4096 * sc.code + 2048
  | .acqRel sc => 4096 * sc.code + 3072

/-- The code of a BTEST mode (R135). -/
def BtMode.code : BtMode → Nat
  | .test => 0 | .read => 1 | .errc => 2

/-- The code of a B source (R201). -/
def BSrc.code : BSrc → Nat
  | .slot n => n.val
  | .reg r => 256 + r.val
  | .gen g => 448 + g.val

/-- A flag as a bit. -/
def bitOf (b : Bool) : Nat := if b then 1 else 0

/-- The enable bit of an optional mask, and the number below it (R113, R294). -/
def menBits (men : Option MReg) : Nat :=
  match men with
  | some m => 16 + m.val
  | none => 0

/-- X of LDU, STU, RQENQ and RQDEQ (R110). -/
def itemBits (ord : Option Scope) (wide : Bool) : Nat :=
  (match ord with
   | some sc => 8 * sc.code + 4
   | none => 0) + 2 * bitOf wide

/-- An LR word (R16). -/
def lrWord (op d a b : Nat) : Nat := 16777216 * op + 65536 * d + 256 * a + b
/-- An LB word (R16). -/
def lbWord (op d disp : Nat) : Nat := 16777216 * op + 65536 * d + disp
/-- A UR word (R25). -/
def urWord (op sd sb x : Nat) : Nat := 2147483648 + 16777216 * op + 32768 * sd + 64 * sb + x
/-- A UI or UB word (R25). -/
def uiWord (op sd imm : Nat) : Nat := 2147483648 + 16777216 * op + 32768 * sd + imm
/-- A UW word (R25). -/
def uwWord (op nld nst ncp ntl : Nat) : Nat :=
  2147483648 + 16777216 * op + 262144 * nld + 4096 * nst + 64 * ncp + ntl

/-- The copy word (R113). -/
def CopyWord.bits (c : CopyWord) (tgt : Nat) : Nat :=
  67108864 * c.src.val + 1048576 * c.dst.val + 262144 * c.size.code + 131072 * bitOf c.cvt + 16384 * c.rnd.code
    + 8192 * bitOf c.sat + 4096 * bitOf c.exp + 2048 * bitOf c.arr + 64 * menBits c.men + tgt

/-- The matrix word (R202). -/
def MatWord.bits (m : MatWord) (team : Nat) : Nat :=
  67108864 * m.ah.val + 131072 * m.bsrc.code + 65536 * bitOf m.t + 32768 * bitOf m.acc + 4096 * team

/-- The base word of an instruction. -/
def baseWord : Instr → Nat
  | .iadd d a b => lrWord 0x01 d.val a.code b.code
  | .isub d a b => lrWord 0x02 d.val a.code b.code
  | .imul d a b => lrWord 0x03 d.val a.code b.code
  | .imulh d a b => lrWord 0x04 d.val a.code b.code
  | .imulhu d a b => lrWord 0x05 d.val a.code b.code
  | .imad d a b => lrWord 0x06 d.val a.code b.code
  | .imin d a b => lrWord 0x07 d.val a.code b.code
  | .imax d a b => lrWord 0x08 d.val a.code b.code
  | .and d a b => lrWord 0x09 d.val a.code b.code
  | .or d a b => lrWord 0x0A d.val a.code b.code
  | .xor d a b => lrWord 0x0B d.val a.code b.code
  | .shl d a b => lrWord 0x0C d.val a.code b.code
  | .shr d a b => lrWord 0x0D d.val a.code b.code
  | .sar d a b => lrWord 0x0E d.val a.code b.code
  | .iuny op d a => lrWord 0x0F d.val a.code op.code
  | .iset c m a b => lrWord 0x10 (16 * c.code + m.val) a.code b.code
  | .fadd d a b => lrWord 0x11 d.val a.code b.code
  | .fsub d a b => lrWord 0x12 d.val a.code b.code
  | .fmul d a b => lrWord 0x13 d.val a.code b.code
  | .ffma d a b => lrWord 0x14 d.val a.code b.code
  | .fmin d a b => lrWord 0x15 d.val a.code b.code
  | .fmax d a b => lrWord 0x16 d.val a.code b.code
  | .fset c m a b => lrWord 0x17 (16 * c.code + m.val) a.code b.code
  | .funy op d a => lrWord 0x18 d.val a.code op.code
  | .fcvt p r sat d a => lrWord 0x19 d.val a.code (16 * p.code + 2 * r.code + bitOf sat)
  | .hfma2 d a b => lrWord 0x1A d.val a.code b.code
  | .bfma2 d a b => lrWord 0x1B d.val a.code b.code
  | .mov d a => lrWord 0x20 d.val a.code 0
  | .cmov d a m => lrWord 0x21 d.val a.code m.val
  | .lxor d a b => lrWord 0x22 d.val a.code b.code
  | .lshf d a b => lrWord 0x23 d.val a.code b.code
  | .lred op d a => lrWord 0x24 d.val a.code op.code
  | .lscan e op d a => lrWord 0x25 d.val a.code (128 * bitOf e + op.code)
  | .matchv d a => lrWord 0x26 d.val a.code 0
  | .cmpct d a m => lrWord 0x27 d.val a.code m.val
  | .ballot d a => lrWord 0x28 d.val a.code 0
  | .mskop op m p q => lrWord 0x29 m.val (16 * q.val + p.val) op.code
  | .mpopc pre d m => lrWord 0x2A d.val m.val (bitOf pre)
  | .draw n w2 d => lrWord 0x2B d.val 0 (4 * bitOf w2 + n.val)
  | .catd n d a => lrWord 0x2C d.val a.code n.val
  | .dsskip n a b => lrWord 0x2D n.val a.code b.code
  | .dsfork a => lrWord 0x2E 0 a.code 0
  | .dssetp n a b => lrWord 0x2F n.val a.code b.code
  | .dspos n d => lrWord 0x30 d.val 0 n.val
  | .gneval t g d a => lrWord 0x31 d.val a.code (8 * bitOf t + g.val)
  | .ksig d a h => lrWord 0x32 d.val a.val h.val
  | .ld d a h => lrWord 0x40 d.val a.code h.bits
  | .lde d a h => lrWord 0x41 d.val a.code h.bits
  | .ldnr d a h => lrWord 0x42 d.val a.code h.bits
  | .st d a h => lrWord 0x43 d.code a.code h.bits
  | .ste d a h => lrWord 0x44 d.code a.code h.bits
  | .stnt d a h => lrWord 0x45 d.code a.code h.bits
  | .pst _ d a h => lrWord 0x46 d.code a.code h.bits
  | .atom _ _ d a h => lrWord 0x47 d.val a.code h.bits
  | .atomr _ d a h => lrWord 0x48 d.code a.code h.bits
  | .cas _ d a h => lrWord 0x49 d.val a.code h.bits
  | .cas128 _ d a h => lrWord 0x4A d.val a.code h.bits
  | .gath _ _ d a h => lrWord 0x4B d.val a.code h.bits
  | .scat _ _ d a h => lrWord 0x4C d.code a.code h.bits
  | .sisect _ _ _ _ d a b => lrWord 0x4D d.val a.code b.val
  | .kst _ wide d a h => lrWord 0x4E d.code a.code (4 * h.val + bitOf wide)
  | .cpl _ d a b => lrWord 0x50 d.code a.code b.code
  | .cpm _ _ d a b => lrWord 0x51 d.code a.code b.code
  | .mmq _ d a b => lrWord 0x52 d.code a.code b.code
  | .mmt _ _ d a b => lrWord 0x53 d.code a.code b.code
  | .accrd _ d a b => lrWord 0x54 d.val a.code b.code
  | .accwr _ d a b => lrWord 0x55 d.code a.code b.code
  | .accpatch _ d a m => lrWord 0x56 d.code a.code m.val
  | .kgath _ _ _ _ _ d a b => lrWord 0x57 d.code a.code b.code
  | .bra disp => lbWord 0x60 0 disp.toNat
  | .braKernelAbsolute _ => lbWord 0x60 255 0
  | .brm m disp => lbWord 0x61 m.val disp.toNat
  | .brmn m disp => lbWord 0x62 m.val disp.toNat
  | .brz d disp => lbWord 0x63 d.code disp.toNat
  | .brnz d disp => lbWord 0x64 d.code disp.toNat
  | .call disp => lbWord 0x65 0 disp.toNat
  | .callKernelAbsolute _ => lbWord 0x65 255 0
  | .ret a => lrWord 0x66 0 a.code 0
  | .exit => lbWord 0x67 0 0
  | .trap code => lbWord 0x68 0 code.toNat
  | .sadd d b => urWord 0x00 d.val b.code 0
  | .ssub d b => urWord 0x01 d.val b.code 0
  | .smul d b => urWord 0x02 d.val b.code 0
  | .sand d b => urWord 0x03 d.val b.code 0
  | .sor d b => urWord 0x04 d.val b.code 0
  | .sxor d b => urWord 0x05 d.val b.code 0
  | .sshl d b => urWord 0x06 d.val b.code 0
  | .sshr d b => urWord 0x07 d.val b.code 0
  | .ssar d b => urWord 0x08 d.val b.code 0
  | .smin d b => urWord 0x09 d.val b.code 0
  | .smax d b => urWord 0x0A d.val b.code 0
  | .smov d b => urWord 0x0B d.val b.code 0
  | .sset c d b => urWord 0x0C d.val b.code c.code
  | .smovi d imm => uiWord 0x0D d.val imm.toNat
  | .slui d imm => uiWord 0x0E d.val imm.toNat
  | .v2s d lane v x => urWord 0x0F d.val (256 * bitOf lane + v.val) x.val
  | .sbra disp => uiWord 0x10 0 disp.toNat
  | .sbz c disp => uiWord 0x11 c.val disp.toNat
  | .sbnz c disp => uiWord 0x12 c.val disp.toNat
  | .qrd q b => urWord 0x13 0 b.code q.val
  | .qst q b => urWord 0x14 0 b.code q.val
  | .idrd d b => urWord 0x15 d.val b.code 0
  | .waitc nld nst ncp ntl => uwWord 0x16 nld.val nst.val ncp.val ntl.val
  | .fence sc => urWord 0x17 0 0 sc.code
  | .ntdrain sc => urWord 0x18 0 0 sc.code
  | .ldu acq wide d b => urWord 0x19 d.val b.code (itemBits acq wide)
  | .stu rel wide d b => urWord 0x1A d.val b.code (itemBits rel wide)
  | .fstat d b => urWord 0x1B d.val b.code 0
  | .nop => urWord 0x1C 0 0 0
  | .nopLiteral inSd inSb _ => urWord 0x1C (511 * bitOf inSd) (511 * bitOf inSb) 0
  | .hload d b x => urWord 0x20 d.val b.code x.val
  | .hadj d b x => urWord 0x21 d.val b.code x.val
  | .hqry d b x => urWord 0x22 d.val b.code x.val
  | .binit d b => urWord 0x23 d.code b.code 0
  | .barrive ring exp d b => urWord 0x24 d.code b.code (2 * bitOf ring + bitOf exp)
  | .bexpect ring d b => urWord 0x25 d.code b.code (2 * bitOf ring)
  | .bwait ring d b => urWord 0x26 d.code b.code (2 * bitOf ring)
  | .btest mode ring d b => urWord 0x27 d.val b.code (16 * mode.code + 2 * bitOf ring)
  | .rqenq rel wide d b => urWord 0x28 d.val b.code (itemBits rel wide)
  | .rqdeq acq wide d b => urWord 0x29 d.val b.code (itemBits acq wide)
  | .pgreq d b x => urWord 0x2A d.val b.code x.val
  | .pfh d b x => urWord 0x2B d.val b.code x.val
  | .dsld d b x => urWord 0x30 d.val b.code x.val
  | .gnld d b x => urWord 0x31 d.val b.code x.val
  | .bld _ _ d b x => urWord 0x32 d.val b.code x.val
  | .bfree b => urWord 0x33 0 b.code 0
  | .accz d b => urWord 0x34 d.code b.code 0
  | .accst _ _ _ d b x => urWord 0x35 d.code b.code x.val
  | .ksinit _ _ _ _ _ d b x => urWord 0x36 d.val b.code x.val
  | .launch _ d b => urWord 0x40 d.val b.code 0
  | .tapepush _ d b => urWord 0x41 d.val b.code 0
  | .tret skip => urWord 0x42 0 0 (bitOf skip)
  | .tfrd d b => urWord 0x43 d.val b.code 0
  | .tfwr d b => urWord 0x44 d.val b.code 0
  | .watchLoad w b => urWord 0x45 0 b.code w.val
  | .watchStore w b => urWord 0x45 0 b.code w.val
  | .watchClr w => urWord 0x45 0 0 w.val
  | .gend rcd => urWord 0x46 0 0 (bitOf rcd)
  | .illegalEncoding w => w.toNat
  | .teamTrap .. | .loadComplete .. | .storeRetire .. | .ntStoreWrite .. | .atomicPerform .. | .copySectorLand ..
  | .presenceUnpark .. | .migrationUnpark .. | .bwaitReturn .. | .waitcReturn .. | .ntdrainReturn ..
  | .fenceComplete .. | .bldLoadComplete .. | .reservationGrant .. | .reservationAged .. | .matrixPassComplete ..
  | .hatArrive .. | .burstEnd .. | .accOpComplete .. | .accstComplete .. | .kstRowPerformed .. | .ksClaim ..
  | .ksPublish .. | .kgathWalk .. | .gathComplete .. | .scatWrite .. | .sisectRun .. | .collectorDispatch ..
  | .collectorLineServed .. | .pgreqWalk .. | .residencyComplete .. | .translationUpdateComplete .. | .launchPost ..
  | .launchTake | .workgroupPlace .. | .preempt | .sliceExpiry .. | .preemptSave .. | .restore .. | .groupEnd ..
  | .launchComplete .. | .issueSlotPromote .. | .l2PortPromote .. | .softError .. | .hostRead .. | .hostWrite ..
  | .hostAtomic .. | .flush .. | .xupd .. | .resolve .. | .trapgo .. | .keyld .. | .keyclr .. | .tapego ..
  | .stepgo .. | .recclr .. | .commandInvalid .. | .nqheadWrite .. | .nqConfigWrite .. | .capwWrite ..
  | .modeWrite .. | .mcbWrite .. | .flitCrcFail .. | .portDown .. | .vcPause .. | .vcRelease .. | .flitPromote ..
  | .start .. | .thermalTick .. | .thermalTrip .. | .fetchFault => 0

/-- The command word of an E-form; zero for every other instruction. -/
def commandWord : Instr → Nat
  | .pst h2 _ _ _ => 67108864 * h2.val
  | .atom op ord _ _ _ => 65536 * op.code + ord.bits
  | .atomr op _ _ _ => 65536 * op.code
  | .cas ord _ _ _ => ord.bits
  | .cas128 ord _ _ _ => ord.bits
  | .gath nm1 men _ _ _ => 128 * menBits men + nm1.val
  | .scat nm1 men _ _ _ => 128 * menBits men + nm1.val
  | .sisect ha hb out men _ _ _ =>
      67108864 * ha.val + 1048576 * hb.val +
        (match out with
         | some oh => 16384 * oh.val + 8192
         | none => 0) + 128 * menBits men
  | .kst nl _ _ _ _ => bitOf nl
  | .cpl c _ _ _ => c.bits 0
  | .cpm c tgt _ _ _ => c.bits tgt.val
  | .mmq m _ _ _ => m.bits 0
  | .mmt m team _ _ _ => m.bits team.val
  | .accrd mm1 _ _ _ => mm1.val
  | .accwr mm1 _ _ _ => mm1.val
  | .accpatch add _ _ _ => 64 * bitOf add
  | .kgath kh oh p msk cap _ _ _ =>
      67108864 * kh.val + 1048576 * oh.val + 65536 * p.val + 2048 * menBits msk + cap.val
  | .bld t nt _ _ _ => 2 * bitOf nt + bitOf t
  | .accst rows r sat _ _ _ => 2048 * rows.val + 256 * r.code + 128 * bitOf sat
  | .ksinit gn psc cl bb d128 _ _ _ =>
      8192 * gn.val + 1024 * psc.code + 256 * cl.val + 16 * (bb.val + 4) + bitOf d128
  | .launch after _ _ => bitOf after
  | .tapepush e _ _ => bitOf e
  | .watchLoad .. => 0
  | .watchStore .. => 1
  | .watchClr _ => 2
  | _ => 0

/-- The literal word of an instruction; zero when it has none. -/
def literalWord (i : Instr) : Nat :=
  match i.lits with
  | [] => 0
  | w :: _ => w.toNat

/-- The words of a well-formed instruction, in the order of R12. -/
def encode (i : Instr) : List Nat :=
  baseWord i :: ((if i.eform then [commandWord i] else []) ++ (if i.lits = [] then [] else [literalWord i]))

/-- The bytes of an instruction as memory holds them (R7). -/
def encodeBytes (i : Instr) : List Byte := (encode i).flatMap (leBytes 4)

/-- Decoding a list of words (R12). -/
def decodeWords (ws : List Nat) : Except DecodeTrap Instr :=
  let w := ws.headD 0
  let cmd := if hasCommand w then (ws.drop 1).headD 0 else 0
  let lit := if hasLiteral w cmd && !noInstr w then (ws.drop (wordCount w cmd - 1)).headD 0 else 0
  decode w cmd lit

end Sys2Proof
end

