-- ==== Sys2Proof/Machine/Bits.lean ====
section
/-! DEFINITION. Sparse maps, bit fields and byte order: the helpers that every bank of registers, descriptor and
memory is read and written through. -/

namespace Sys2Proof.Machine

/-! ## Sparse maps -/

/-- The value at `k`; `d` where the map lists none. -/
def mapGet {α : Type} (d : α) : SMap α → Nat → α
  | [], _ => d
  | (k', v) :: m, k => if k = k' then v else if k < k' then d else mapGet d m k

/-- The entry at `k`, if the map lists one. -/
def mapFind {α : Type} : SMap α → Nat → Option α
  | [], _ => none
  | (k', v) :: m, k => if k = k' then some v else if k < k' then none else mapFind m k

/-- Lists `v` at `k`. -/
def mapPut {α : Type} : SMap α → Nat → α → SMap α
  | [], k, v => [(k, v)]
  | (k', v') :: m, k, v =>
      if k = k' then (k, v) :: m else if k < k' then (k, v) :: (k', v') :: m else (k', v') :: mapPut m k v

/-- Lists nothing at `k`. -/
def mapErase {α : Type} : SMap α → Nat → SMap α
  | [], _ => []
  | (k', v') :: m, k => if k = k' then m else if k < k' then (k', v') :: m else (k', v') :: mapErase m k

/-- Writes `v` at `k`, keeping the canonical form: the default value `d` is never listed. -/
def mapSet {α : Type} [DecidableEq α] (d : α) (m : SMap α) (k : Nat) (v : α) : SMap α :=
  if v = d then mapErase m k else mapPut m k v

/-- The canonical form: keys strictly rising from above `lo`, and no entry equal to the default. -/
def mapWfFrom {α : Type} [DecidableEq α] (d : α) : Nat → SMap α → Bool
  | _, [] => true
  | lo, (k, v) :: m => decide (lo ≤ k) && decide (v ≠ d) && mapWfFrom d (k + 1) m

/-- The canonical form of a sparse map with default `d`. -/
def mapWf {α : Type} [DecidableEq α] (d : α) (m : SMap α) : Bool := mapWfFrom d 0 m

/-! ## Bits and bytes -/

/-- Bits [hi:lo] of a descriptor or register (R7). -/
def bits {w : Nat} (x : BitVec w) (hi lo : Nat) : Nat := x.toNat / 2 ^ lo % 2 ^ (hi + 1 - lo)

/-- Bit `i`. -/
def bit {w : Nat} (x : BitVec w) (i : Nat) : Bool := x.toNat / 2 ^ i % 2 == 1

/-- `x` with bits [hi:lo] replaced by the low bits of `v`. -/
def setBits {w : Nat} (x : BitVec w) (hi lo v : Nat) : BitVec w :=
  BitVec.ofNat w (x.toNat % 2 ^ lo + 2 ^ lo * (v % 2 ^ (hi + 1 - lo)) + 2 ^ (hi + 1) * (x.toNat / 2 ^ (hi + 1)))

/-- A number below 2^w read as two's complement. -/
def toSigned (w n : Nat) : Int := if n < 2 ^ (w - 1) then (n : Int) else (n : Int) - 2 ^ w

/-- An integer as a 64-bit number, modulo 2^64. -/
def wrap64 (i : Int) : Nat := (i % 18446744073709551616).toNat

/-- The number that a list of bytes holds, least significant first (R7). -/
def ofBytes : List Byte → Nat
  | [] => 0
  | b :: bs => b.toNat + 256 * ofBytes bs

/-- The indices below `n` at which bit `i` of `x` is set, ascending. -/
def setBitsOf (n x : Nat) : List Nat := (List.range n).filter (fun i => x / 2 ^ i % 2 == 1)

/-- The mask with exactly the listed bits. -/
def maskOf (ls : List Nat) : DWord := ls.foldl (fun m l => m ||| (1 <<< l : DWord)) 0

/-- The number of set bits among the low `n`. -/
def popcount : Nat → Nat → Nat
  | 0, _ => 0
  | n + 1, x => x % 2 + popcount n (x / 2)

/-- The value of `f` at the elements of a list, first failure first. -/
def mapE {α β ε : Type} (f : α → Except ε β) : List α → Except ε (List β)
  | [] => .ok []
  | a :: as =>
    match f a with
    | .error e => .error e
    | .ok b =>
      match mapE f as with
      | .error e => .error e
      | .ok bs => .ok (b :: bs)

/-- The first element of a list of options that is present. -/
def firstSome {α : Type} : List (Option α) → Option α
  | [] => none
  | some a :: _ => some a
  | none :: os => firstSome os

/-- The list without its repeats, first occurrences kept. -/
def dedup {α : Type} [DecidableEq α] : List α → List α
  | [] => []
  | a :: as => a :: (dedup as).filter (fun b => b ≠ a)

/-- The list with `f` applied to the elements that satisfy `p`. -/
def updateIf {α : Type} (p : α → Bool) (f : α → α) (l : List α) : List α :=
  l.map (fun a => if p a then f a else a)

/-- The element at position `n` replaced. -/
def setAt {α : Type} : List α → Nat → α → List α
  | [], _, _ => []
  | _ :: as, 0, b => b :: as
  | a :: as, n + 1, b => a :: setAt as n b

end Sys2Proof.Machine
end

