-- ==== Sys2Proof/Machine/Float.lean ====
section
/-! DEFINITION. Exact binary values, the floating-point formats of R80, rounding and saturation (R88–R92), and the
arithmetic of the lanes (R153–R157) with the status that it sets (R159). -/

namespace Sys2Proof.Machine

/-- The floating-point formats of R80. -/
inductive FFmt where
  | fp32 | bf16 | fp16 | e4m3 | e5m2
  deriving DecidableEq, Repr

/-- Fraction bits (R80). -/
def fracBits : FFmt → Nat
  | .fp32 => 23 | .bf16 => 7 | .fp16 => 10 | .e4m3 => 3 | .e5m2 => 2

/-- Exponent bits (R80). -/
def expBits : FFmt → Nat
  | .fp32 => 8 | .bf16 => 8 | .fp16 => 5 | .e4m3 => 4 | .e5m2 => 5

/-- Exponent bias (R80). -/
def expBias : FFmt → Int
  | .fp32 => 127 | .bf16 => 127 | .fp16 => 15 | .e4m3 => 7 | .e5m2 => 15

/-- The encoding of max finite, sign clear (R80). -/
def maxCode : FFmt → Nat
  | .fp32 => 0x7F7FFFFF | .bf16 => 0x7F7F | .fp16 => 0x7BFF | .e4m3 => 0x7E | .e5m2 => 0x7B

/-- The encoding of the canonical NaN (R80). -/
def canonNaN : FFmt → Nat
  | .fp32 => 0x7FC00000 | .bf16 => 0x7FC0 | .fp16 => 0x7E00 | .e4m3 => 0x7F | .e5m2 => 0x7E

/-- Whether the format has infinities (R80). -/
def hasInf : FFmt → Bool
  | .e4m3 => false
  | _ => true

/-- The weight of the sign bit. -/
def signBit (f : FFmt) : Nat := 2 ^ (expBits f + fracBits f)

/-- The encoding of infinity, sign clear; only for formats that have one. -/
def infCode (f : FFmt) : Nat := (2 ^ expBits f - 1) * 2 ^ fracBits f

/-- An exact value: (−1)^neg × m × 2^e with m ≠ 0, a signed zero, an infinity or a NaN. -/
inductive FVal where
  | zero (neg : Bool)
  | fin (neg : Bool) (m : Nat) (e : Int)
  | inf (neg : Bool)
  | nan
  deriving DecidableEq, Repr

/-- Infinity or NaN (R159). -/
def FVal.nonFinite : FVal → Bool
  | .inf _ | .nan => true
  | _ => false

/-- The value with its sign inverted. -/
def FVal.negate : FVal → FVal
  | .zero s => .zero (!s)
  | .fin s m e => .fin (!s) m e
  | .inf s => .inf (!s)
  | .nan => .nan

/-- The value times 2^k, exactly (R82). -/
def FVal.scale (k : Int) : FVal → FVal
  | .fin s m e => .fin s m (e + k)
  | v => v

/-- The value of an encoding (R80). -/
def decodeF (f : FFmt) (c : Nat) : FVal :=
  let neg := c / signBit f % 2 == 1
  let mag := c % signBit f
  let ex := mag / 2 ^ fracBits f
  let fr := mag % 2 ^ fracBits f
  if maxCode f < mag then
    (if hasInf f && mag == infCode f then .inf neg else .nan)
  else if ex = 0 then
    (if fr = 0 then .zero neg else .fin neg fr (1 - expBias f - fracBits f))
  else .fin neg (2 ^ fracBits f + fr) (ex - expBias f - fracBits f)

/-- A rounding mode with the word that stochastic rounding consumes (R88, R90). -/
inductive RMode where
  | rne | rz | rdn | rup
  | sr (word : Nat)
  deriving DecidableEq, Repr

/-- The mode of a rounding field, with the word that SR takes. -/
def rmodeOf (r : Rnd) (word : Nat) : RMode :=
  match r with
  | .rne => .rne | .rz => .rz | .rdn => .rdn | .rup => .rup | .sr => .sr word

/-- Whether a magnitude with truncated part `t` and discarded bits `d` of `k` bits rounds up (R88, R90). -/
def roundsUp (mode : RMode) (neg : Bool) (t d k : Nat) : Bool :=
  if d = 0 then false
  else
    match mode with
    | .rne => decide (2 ^ k < 2 * d) || (decide (2 * d = 2 ^ k) && t % 2 == 1)
    | .rz => false
    | .rdn => neg
    | .rup => !neg
    | .sr w =>
      if k ≤ 32 then decide (2 ^ k ≤ w % 2 ^ k + d) else decide (4294967296 ≤ w + d / 2 ^ (k - 32))

/-- What an encoding step reports (R92). -/
structure Encoded where
  code : Nat
  invalid : Bool
  overflow : Bool
  underflow : Bool
  saturated : Bool
  deriving DecidableEq, Repr

/-- R89 for a source of this sign: what an out-of-range magnitude becomes. -/
def overflowCode (f : FFmt) (mode : RMode) (sat neg : Bool) : Nat :=
  let s := if neg then signBit f else 0
  let away := s + (if hasInf f then infCode f else 0x7F)
  if sat then s + maxCode f
  else
    match mode with
    | .rne | .sr _ => away
    | .rz => s + maxCode f
    | .rdn => if neg then away else s + maxCode f
    | .rup => if neg then s + maxCode f else away

/-- The encoding of an exact value under a mode and saturation (R83, R88–R90). -/
def encodeF (f : FFmt) (mode : RMode) (sat : Bool) (x : FVal) : Encoded :=
  match x with
  | .nan => ⟨canonNaN f, false, false, false, false⟩
  | .zero neg => ⟨if neg then signBit f else 0, false, false, false, false⟩
  | .inf neg =>
      let s := if neg then signBit f else 0
      if sat then ⟨s + maxCode f, false, false, false, true⟩
      else if hasInf f then ⟨s + infCode f, false, false, false, false⟩
      else ⟨s + 0x7F, true, false, false, false⟩
  | .fin neg m e =>
      let p := fracBits f
      let low := 1 - expBias f - p
      let q := max ((Nat.log2 m : Int) + e - p) low
      let k := (q - e).toNat
      let t := if q ≤ e then m * 2 ^ (e - q).toNat else m / 2 ^ k
      let d := if q ≤ e then 0 else m % 2 ^ k
      let t' := if roundsUp mode neg t d k then t + 1 else t
      let mag := (q - low).toNat * 2 ^ p + t'
      let s := if neg then signBit f else 0
      if maxCode f < mag then
        let c := overflowCode f mode sat neg
        ⟨c, !sat && !hasInf f && c != s + maxCode f, true, false,
          sat && c != overflowCode f mode false neg⟩
      else ⟨s + mag, false, false, decide (mag < 2 ^ p) && d != 0, false⟩

/-- RNE(x, f) with saturation off: the helper of R10. -/
def rne (f : FFmt) (x : FVal) : Nat := (encodeF f .rne false x).code

/-! ## The FP status (R159) -/

/-- Bits INV 1, DZ 2, OF 4, UF 8, NFP 16, NFC 32. -/
abbrev FpStatus := BitVec 6

/-- A status word from its bits. -/
def fpsOf (inv dz ovf unf nfp nfc : Bool) : FpStatus :=
  BitVec.ofNat 6 (bitOf inv + 2 * bitOf dz + 4 * bitOf ovf + 8 * bitOf unf + 16 * bitOf nfp + 32 * bitOf nfc)

/-- A result with the status bits it sets. -/
structure FRes where
  code : Nat
  fl : FpStatus
  deriving DecidableEq, Repr

/-- The result of an arithmetic operation: the exact value rounded once by RNE; `none` is an invalid operation
(R153). `nfc` says that a non-finite operand was read and `dz` a division by zero. -/
def finishF (f : FFmt) (x : Option FVal) (nfc dz : Bool) : FRes :=
  match x with
  | none => ⟨canonNaN f, fpsOf true dz false false true nfc⟩
  | some v =>
      let r := encodeF f .rne false v
      ⟨r.code, fpsOf false dz r.overflow r.underflow (decodeF f r.code).nonFinite nfc⟩

/-! ## Exact sums and products -/

/-- The exact sum; `none` for infinities of opposite sign (R153, R154). -/
def addV (x y : FVal) : Option FVal :=
  match x, y with
  | .nan, _ | _, .nan => some .nan
  | .inf s, .inf t => if s = t then some (.inf s) else none
  | .inf s, _ | _, .inf s => some (.inf s)
  | .zero s, .zero t => some (.zero (s && t))
  | .zero _, v | v, .zero _ => some v
  | .fin s m e, .fin t n g =>
      let q := min e g
      let a : Int := (m * 2 ^ (e - q).toNat : Nat)
      let b : Int := (n * 2 ^ (g - q).toNat : Nat)
      let r := (if s then -a else a) + (if t then -b else b)
      some (if r = 0 then .zero false else .fin (decide (r < 0)) r.natAbs q)

/-- The exact product; `none` for zero times infinity (R153, R154). -/
def mulV (x y : FVal) : Option FVal :=
  match x, y with
  | .nan, _ | _, .nan => some .nan
  | .zero _, .inf _ | .inf _, .zero _ => none
  | .inf s, .inf t => some (.inf (s != t))
  | .inf s, .fin t _ _ | .fin t _ _, .inf s => some (.inf (s != t))
  | .zero s, .zero t => some (.zero (s != t))
  | .zero s, .fin t _ _ | .fin t _ _, .zero s => some (.zero (s != t))
  | .fin s m e, .fin t n g => some (.fin (s != t) (m * n) (e + g))

/-- a × b + d exactly; `none` when invalid (R154). -/
def fmaV (x y z : FVal) : Option FVal :=
  match mulV x y with
  | none => none
  | some p => addV p z

/-- FADD in a format (R153, R154). -/
def addF (f : FFmt) (a b : Nat) : FRes :=
  let x := decodeF f a
  let y := decodeF f b
  finishF f (addV x y) (x.nonFinite || y.nonFinite) false

/-- FSUB (R154). -/
def subF (f : FFmt) (a b : Nat) : FRes :=
  let x := decodeF f a
  let y := decodeF f b
  finishF f (addV x y.negate) (x.nonFinite || y.nonFinite) false

/-- FMUL (R154). -/
def mulF (f : FFmt) (a b : Nat) : FRes :=
  let x := decodeF f a
  let y := decodeF f b
  finishF f (mulV x y) (x.nonFinite || y.nonFinite) false

/-- FFMA and each half of HFMA2 and BFMA2 (R154, R157). -/
def fmaF (f : FFmt) (a b d : Nat) : FRes :=
  let x := decodeF f a
  let y := decodeF f b
  let z := decodeF f d
  finishF f (fmaV x y z) (x.nonFinite || y.nonFinite || z.nonFinite) false

/-- The order of two values that are not NaN, zeros equal: −1, 0 or 1. -/
def cmpV (x y : FVal) : Int :=
  match addV x y.negate with
  | some (.zero _) => 0
  | some (.fin s _ _) => if s then -1 else 1
  | some (.inf s) => if s then -1 else 1
  | _ => 0

/-- Whether the sign of a value is negative. -/
def FVal.neg : FVal → Bool
  | .zero s | .fin s _ _ | .inf s => s
  | .nan => false

/-- The order of FMIN and FMAX, where −0 < +0 (R154). -/
def lessV (x y : FVal) : Bool :=
  match x, y with
  | .zero s, .zero t => s && !t
  | .inf s, .inf t => s && !t
  | _, _ => decide (cmpV x y < 0)

/-- FMIN and FMAX (R154): they never set INV. -/
def minMaxF (isMax : Bool) (a b : Nat) : FRes :=
  let x := decodeF .fp32 a
  let y := decodeF .fp32 b
  let r :=
    if x = .nan ∧ y = .nan then canonNaN .fp32
    else if x = .nan then b
    else if y = .nan then a
    else if isMax then (if lessV x y then b else a)
    else (if lessV y x then b else a)
  ⟨r, fpsOf false false false false (decodeF .fp32 r).nonFinite (x.nonFinite || y.nonFinite)⟩

/-- FSET's comparison (R36, R156): zeros are equal, and a NaN makes all conditions false but NE and UNO. -/
def condF (c : FCond) (a b : Nat) : Bool :=
  let x := decodeF .fp32 a
  let y := decodeF .fp32 b
  if x = .nan ∨ y = .nan then c == .ne || c == .uno
  else
    let o : Int :=
      match x, y with
      | .inf s, .inf t => if s = t then 0 else if s then -1 else 1
      | _, _ => cmpV x y
    match c with
    | .eq => o == 0
    | .ne => o != 0
    | .lt => decide (o < 0)
    | .le => decide (o ≤ 0)
    | .gt => decide (0 < o)
    | .ge => decide (0 ≤ o)
    | .ord => true
    | .uno => false

/-- A packed pair of half-word multiply-adds (R157). -/
def fma2 (f : FFmt) (a b d : Nat) : FRes :=
  let lo := fmaF f (a % 65536) (b % 65536) (d % 65536)
  let hi := fmaF f (a / 65536 % 65536) (b / 65536 % 65536) (d / 65536 % 65536)
  ⟨hi.code * 65536 + lo.code, lo.fl ||| hi.fl⟩

/-! ## Conversions to and from integers -/

/-- The exact value of an integer. -/
def ofInt (i : Int) : FVal := if i = 0 then .zero false else .fin (decide (i < 0)) i.natAbs 0

/-- An exact finite value rounded to an integer under a mode (R91). -/
def roundInt (mode : RMode) (neg : Bool) (m : Nat) (e : Int) : Int :=
  let k := (-e).toNat
  let t := if 0 ≤ e then m * 2 ^ e.toNat else m / 2 ^ k
  let d := if 0 ≤ e then 0 else m % 2 ^ k
  let t' := if roundsUp mode neg t d k then t + 1 else t
  if neg then -(t' : Int) else t'

/-- A conversion to an integer target between `lo` and `hi` of `w` bits (R91): the code and whether INV is set.
Values beyond any target's range are cut before the shift is formed. -/
def toIntF (mode : RMode) (sat : Bool) (w : Nat) (lo hi : Int) (bad : Nat) (x : FVal) : Nat × Bool :=
  let clamp (neg : Bool) : Int := if neg then lo else hi
  let enc (i : Int) : Nat := (i % 2 ^ w).toNat
  match x with
  | .nan => (if sat then 0 else bad, true)
  | .zero _ => (0, false)
  | .inf neg => (if sat then enc (clamp neg) else bad, true)
  | .fin neg m e =>
      if 64 < (Nat.log2 m : Int) + e then (if sat then enc (clamp neg) else bad, true)
      else
        let i := roundInt mode neg m e
        if lo ≤ i ∧ i ≤ hi then (enc i, false) else (if sat then enc (clamp neg) else bad, true)

end Sys2Proof.Machine
end

