-- ==== Sys2Proof/Machine/State.lean ====
section
/-! DEFINITION. The state of one LN9 module as plain data: everything the manual gives the machine, the reasons a
step can stop, and the state after reset. -/

namespace Sys2Proof.Machine

/-! ## Locations, registers and images -/

/-- One location that an access reaches (R269): a physical byte with the cache attribute of its page (R51), or a
byte of a workgroup's scratchpad allocation. -/
inductive Loc where
  | mem (pa : Nat) (ca : Nat)
  | scr (wg : Nat) (off : Nat)
  deriving DecidableEq, Repr

/-- The types of a distribution register (R182). -/
inductive DsType where
  | uniform | inverse | aliased | reject
  deriving DecidableEq, Repr

/-- The image that DSLD captures (R184). -/
structure DsImage where
  kind : DsType
  stream : Fin 4
  n : Nat
  toff : Nat
  lo : Word
  width : Word
  deriving DecidableEq, Repr

/-- The image that GNLD captures: descriptor, table and generator key (R224). -/
structure GnImage where
  desc : BitVec 1024
  tbl : BitVec 4096
  ka : DWord
  kb : DWord
  deriving DecidableEq, Repr

/-- A thread (R5, R26, R178): its PC, whether it has executed EXIT (R170), its vector registers, its sixteen mask
bits, its key and its four stream positions. -/
structure Lane where
  pc : DWord
  exited : Bool
  v : SMap Word
  m : BitVec 16
  ka : DWord
  kb : DWord
  pos0 : BitVec 56
  pos1 : BitVec 56
  pos2 : BitVec 56
  pos3 : BitVec 56
  deriving DecidableEq, Repr

/-! ## Outstanding operations -/

/-- The four classes of outstanding operations, and the operations that count in none (R139). -/
inductive OpClass where
  | load | store | copy | tile | none
  deriving DecidableEq, Repr

/-- The data of a watch hit that a trap delivers (R348): slot, tag and coordinates. -/
structure Hit where
  slot : Nat
  tag : Word
  c0 : Word
  c1 : Word
  c2 : Word
  c3 : Word
  deriving DecidableEq, Repr

/-- A register that an operation will write: lane, vector register, value bound at acceptance (R103, R107). -/
structure Fill where
  lane : Nat
  reg : Nat
  val : Word
  deriving DecidableEq, Repr

/-- A register that the collector will fill from memory (R296); `none` gives zeros. An operation's list of them is
`bound` once they have been read: the values, and the registers whose data was poisoned. -/
structure LocFill where
  lane : Nat
  reg : Nat
  src : Option Loc
  deriving DecidableEq, Repr

/-- One byte that a store writes (R102). -/
structure StoreByte where
  loc : Loc
  val : Byte
  deriving DecidableEq, Repr

/-- What one lane brings to an atomic (R263): its operand, and for a compare-and-swap its comparand. -/
structure AtomLane where
  lane : Nat
  cmp : Nat
  val : Nat
  deriving DecidableEq, Repr

/-- What an atomic does at its home (R261). -/
inductive AtomKind where
  | rmw (op : AtomOp)
  | cas
  deriving DecidableEq, Repr

/-- One request of the aggregator: the lanes that name one address, ascending (R263). `sent` says that it has left the core
for its home, its line having been written back and dropped (R255). -/
structure AtomReq where
  loc : Loc
  lanes : List AtomLane
  done : Bool
  sent : Bool
  deriving DecidableEq, Repr

/-- An accepted atomic (R261–R263): `dest` is the first returning register, if it returns; `fills` are the register
values that its out-of-bounds lanes and its performed requests give. `passed` says that a later atomic of the group has
been performed before it (R265, R278), `gates` what the releases among those wrote: a group of the core that reaches it
reads this atomic's result too (R275, R280). -/
structure Atomic where
  kind : AtomKind
  width : Nat
  dest : Option Nat
  acqScope : Option Scope
  relScope : Option Scope
  reqs : List AtomReq
  fills : List Fill
  passed : Bool
  gates : List Loc
  deriving DecidableEq, Repr

/-- One source element of a copied quad: its first byte, whether it is the high nibble of it (CB4), and the linear
index of its destination element, which keys engine rounding (R118). -/
structure ElemRef where
  loc : Loc
  hi : Bool
  idx : Nat
  deriving DecidableEq, Repr

/-- Four destination bytes of a copy (R116), and their offset from the base of the destination handle. `src = none`
lands zeros (R117). -/
structure Quad where
  dst : Loc
  off : Nat
  src : Option (List ElemRef)
  deriving DecidableEq, Repr

/-- The part of a copy that lands at once (R121): the receiving workgroup, the number of the part that all receivers
share, its quads, and the quantised tile whose trailer this sector writes, if it is a trailer (R119). `bound` holds
the data once a first receiver's sector has been read and converted, four bytes for each quad, and `satd` whether
saturation changed an element of it. -/
structure Sector where
  target : Nat
  part : Nat
  quads : List Quad
  trailer : Option Nat
  bound : List (List Byte)
  satd : Bool
  landed : Bool
  deriving DecidableEq, Repr

/-- How the completion of an operation can be observed (R273, R348). -/
inductive Via where
  | counter (issuer : GKey) (cls : OpClass)
  | barrier (wg off phase : Nat)
  | line (wg line : Nat)
  | bslot (cluster launch slot : Nat)
  deriving DecidableEq, Repr

/-- A copy in flight (R116): the captured descriptors (R74), the conversion, the barrier offset and the sectors; the
phases and lines to which it has contributed, and for each tile the elements that saturation changed (R119). -/
structure CopyOp where
  src : BitVec 1024
  dst : BitVec 1024
  cvt : Bool
  rnd : Rnd
  sat : Bool
  bar : Nat
  sectors : List Sector
  vias : List Via
  satTiles : SMap Nat
  deriving DecidableEq, Repr

/-- A lane of SISECT: its range group and output index (R298, R299), ends already clipped. -/
structure SiLane where
  lane : Nat
  i : Nat
  ie : Nat
  j : Nat
  je : Nat
  o : Nat
  deriving DecidableEq, Repr

/-- An accepted SISECT (R299, R300). -/
structure SiOp where
  ha : BitVec 1024
  hb : BitVec 1024
  oh : Option (BitVec 1024)
  d : Nat
  b : Nat
  lanes : List SiLane
  deriving DecidableEq, Repr

/-- An accepted BLD (R198); `xl` are the locations of the lines that it reads, as they were translated. -/
structure BldOp where
  cluster : Nat
  launch : Nat
  slot : Nat
  h : BitVec 1024
  idx : Nat
  t : Bool
  nt : Bool
  xl : List (Nat × Loc)
  deriving DecidableEq, Repr

/-- The B operand that a matrix entry reads: a slot with its load generation, or a captured image (R211, R233). -/
inductive BRef where
  | slot (n : Nat) (lgen : Nat)
  | gen (im : GnImage)
  deriving DecidableEq, Repr

/-- One octet of a matrix operation, or one member of a team pass (R206, R208), and the operation it belongs to.
`row0` is its own first accumulator row. -/
structure OctetOp where
  op : Nat
  ah : BitVec 1024
  org : Nat
  row0 : Nat
  b : BRef
  k0 : Nat
  j : Nat
  t : Bool
  acc : Bool
  deriving DecidableEq, Repr

/-- An MMT arrival (R208): its team, the team's size, the member, the round, what the members must agree on, and the
member's lanes. -/
structure TeamArrival where
  team : Nat
  size : Nat
  member : Nat
  round : Nat
  word : MatWord
  row0 : Nat
  bc : Word
  mask : DWord
  o : OctetOp
  deriving DecidableEq, Repr

/-- One element that moves between registers and accumulator (R217, R218). -/
structure AccElem where
  lane : Nat
  reg : Nat
  row : Nat
  col : Nat
  val : Word
  deriving DecidableEq, Repr

/-- What of a key-store link has still to be done (R243–R245): its claim, the publication of the entry at a virtual
address, or nothing. -/
inductive KstStage where
  | claim | publish (va : Nat) | linked
  deriving DecidableEq, Repr

/-- An accepted KST (R243): the KEYSTORE handle, the header as it was read, the token, its bucket, and the bytes of the
row, which are written or not. -/
structure KstOp where
  store : BitVec 1024
  hdr : BitVec 2048
  t : Nat
  sigma : Nat
  row : List StoreByte
  rowDone : Bool
  stage : KstStage
  deriving DecidableEq, Repr

/-- A bucket as a KGATH snapshot reads it (R249). -/
structure SnapBucket where
  bucket : Nat
  head : Nat
  nclm : Nat
  deriving DecidableEq, Repr

/-- An accepted KGATH (R249): `hdr` is the header as it was read; `fallbk` is the mask form's fallback, which writes only a zero count; `lines` are the
scratchpad lines whose presence it has cleared. -/
structure KgathOp where
  store : BitVec 1024
  hdr : BitVec 2048
  out : BitVec 1024
  o : Nat
  n : Nat
  fallbk : Bool
  snap : List SnapBucket
  lines : List Nat
  deriving DecidableEq, Repr

/-- A PGREQ in flight (R66): the byte's virtual address, the barrier that receives the arrival, and the tables and owner
under which the page is asked for, which outlive the workgroup. -/
structure PgreqOp where
  va : Nat
  bar : Nat
  root : Nat
  owner : Nat
  req : Option Nat
  deriving DecidableEq, Repr

/-- What an outstanding operation still has to do. `second` is the write of the second halves of a PST that was issued again
for lanes whose first halves are the listed operations (R259). -/
inductive OpKind where
  | load (fills : List Fill)
  | store (left : Nat)
  | second (ids : List Nat)
  | atomic (a : Atomic)
  | copy (c : CopyOp)
  | gath (fills : List LocFill) (bound : Option (List Fill × List (Nat × Nat)))
  | scat (bytes : List StoreByte)
  | sisect (si : SiOp)
  | bld (b : BldOp)
  | matrix (rows : List Nat)
  | team (a : TeamArrival)
  | accrd (els : List AccElem)
  | accwr (els : List AccElem)
  | accpatch (add : Bool) (els : List AccElem)
  | accz (row0 n : Nat)
  | accst (h : BitVec 1024) (row0 rows idx : Nat) (r : Rnd) (sat : Bool) (xl : List (Nat × Loc))
  | kst (k : KstOp)
  | kgath (k : KgathOp)
  | pgreq (p : PgreqOp)
  deriving DecidableEq, Repr

/-- An accepted operation that has not retired (R139). `eop` is the group's count of accepted instructions just
before its acceptance (R380); `ord` is its number in its class of its group, from 1; `watch` holds the join-time slots in
force at its issue; `seen` lists the groups that have observed its hit while it was in flight (R348). -/
structure Op where
  id : Nat
  grp : GKey
  cls : OpClass
  kind : OpKind
  eop : Nat
  ord : Nat
  done : Bool
  watch : SMap (BitVec 256)
  hit : Option Hit
  seen : List GKey
  era : Nat
  deriving DecidableEq, Repr

/-- An entry of a group's store FIFO (R254): bytes to write, non-temporal or not, with the scope of a release, or an
atomic to send. -/
inductive FifoEntry where
  | store (op : Nat) (nt : Bool) (rel : Option Scope) (bytes : List StoreByte)
  | atomic (op : Nat)
  deriving DecidableEq, Repr

/-! ## Groups and workgroups -/

/-- Why the lanes at one PC issue nothing (R127, R65, R357). -/
inductive ParkWhy where
  | presence (wg : Nat) (lines : List Nat)
  | migration (va : Nat)
  | fetchMig (va : Nat)
  | fetchReq (req : Nat)
  deriving DecidableEq, Repr

/-- Lanes parked at a PC. `woken` says that the cause is gone and the instruction may be issued again; the note stays
until it is accepted, because the acceptance of a parked load observes joins (R127, R348). `mask` are the lanes whose issue
of the instruction has parked, none where only its fetch has, and `handles` the slots as that issue read them (R74, R100). -/
structure Park where
  pc : DWord
  why : ParkWhy
  woken : Bool
  mask : DWord
  handles : SMap (BitVec 1024)
  deriving DecidableEq, Repr

/-- What a population held at a PC waits for (R318): WAITC, BWAIT, NTDRAIN, FENCE, or a full collector that has not
taken all lines of the operation that the lanes have just issued (R292). `upto` is the identity of the newest operation
that a FENCE or NTDRAIN covers; `met` is the barrier's phase at the update that met a BWAIT's condition (R138). -/
inductive HoldWhy where
  | waitc (nld nst ncp ntl : Nat)
  | bwait (bar phase : Nat) (met : Option Nat)
  | ntdrain (sc : Scope) (upto : Nat)
  | fence (sc : Scope) (upto : Nat)
  | collector (op : Nat)
  deriving DecidableEq, Repr

/-- A population held at a PC, with its instruction's length in words. -/
structure Hold where
  pc : DWord
  mask : DWord
  len : Nat
  why : HoldWhy
  deriving DecidableEq, Repr

/-- The WSKIP state that TRET leaves (R343): it covers these lanes while their PC is `tpc`. -/
structure WSkip where
  tpc : DWord
  mask : DWord
  deriving DecidableEq, Repr

/-- The half-done mask of a PST (R259): these lanes perform only their second halves at `pc`. -/
structure HalfDone where
  pc : DWord
  mask : DWord
  deriving DecidableEq, Repr

/-- A PST at `pc` whose first halves have been accepted as operation `op` and whose second halves have not (R259). -/
structure OpenPst where
  pc : DWord
  op : Nat
  deriving DecidableEq, Repr

/-- A TEAM trap that waits for its group's next instruction boundary (R208), with the count of its cancelled
operation (R380). `waits` says that it was due when the group took another trap, so that it comes after that one's handler. -/
structure TeamFail where
  round : Nat
  sub : Nat
  mask : DWord
  eop : Nat
  waits : Bool
  deriving DecidableEq, Repr

/-- A completed hit operation whose join some group has still to observe (R348); `seen` lists the groups to which
the trap has been delivered, or that discarded it in trap mode (R339). -/
structure JoinHit where
  op : Nat
  eop : Nat
  ord : Nat
  cls : OpClass
  hit : Hit
  via : List Via
  seen : List GKey
  deriving DecidableEq, Repr

/-- A group (R5, R26, R144). Its lanes are as many as its width. Its outstanding-operation counters are the numbers
of its unretired entries of `State.ops`, class by class (R139); `issued` counts what it has accepted in each class.
`vpoison` are the lanes and registers of v0–v7 that were poisoned when its frame was written (R345); `waited` are the
PCs at which an access has parked on presence and has not been accepted: its acceptance observes joins (R127, R273). `era` counts
the changes into and out of the handling of a trap, and is odd while the group's frame stands to be restored. -/
structure Group where
  key : GKey
  launch : Nat
  lanes : List Lane
  s : SMap Word
  fps : BitVec 6
  ds : List (Nat × DsImage)
  gn : List (Nat × GnImage)
  qt : SMap DWord
  trapMode : Bool
  handler : DWord
  handlerN : Nat
  handlerLen : Nat
  frozen : Bool
  eop : Nat
  issued : SMap Nat
  fifo : List FifoEntry
  wskip : List WSkip
  half : List HalfDone
  openPst : List OpenPst
  vpoison : List (Nat × Nat)
  era : Nat
  waited : List DWord
  parks : List Park
  holds : List Hold
  teamFails : List TeamFail
  rounds : SMap Nat
  part : Nat
  slot : Nat
  laneOff : Nat
  deriving DecidableEq, Repr

/-- The state of a B-stack slot (R196). -/
inductive BState where
  | empty | loading | ready | poisoned
  deriving DecidableEq, Repr

/-- What stands in slot order on a B-stack slot and has not yet taken effect (R197). -/
inductive SlotStep where
  | load (op : Nat)
  | free
  | read (entry : Nat)
  deriving DecidableEq, Repr

/-- A B-stack slot of a launch on a cluster (R195, R196): the control word's fields, the captured handle image, the
decoded tile as element codes by 256 k + n, and the steps that wait in slot order. `ordFmt` and `ordState` are the
format and state that the slot has in slot order, after those steps. -/
structure BSlot where
  launch : Nat
  slot : Nat
  image : BitVec 1024
  idx : Word
  lgen : Word
  ncol : Nat
  nt : Bool
  t : Bool
  fmt : BitVec 4
  psub : BitVec 4
  state : BState
  tile : SMap Nat
  steps : List SlotStep
  ordFmt : BitVec 4
  ordState : BState
  deriving DecidableEq, Repr

/-- Where a workgroup stands (R351–R355): resident and running, stopped and draining, or saved. -/
inductive WgStatus where
  | resident | stopping | saved
  deriving DecidableEq, Repr

/-- An entry of the reservation table (R211): one octet of an MMQ, or a team round with the members that have arrived.
`wg` is its workgroup, `launch` its launch, `wait` the clocks it has waited. -/
structure Resv where
  id : Nat
  wg : Nat
  launch : Nat
  prio : Nat
  octets : List OctetOp
  team : Option (Nat × Nat)
  complete : Bool
  wait : Nat
  aged : Bool
  deriving DecidableEq, Repr

/-- A workgroup (R5, R74, R123, R214, R346). `uid` is its identity and the generation tag of its allocation
(R121, R355). `core` is the logical core it is, or was last, resident on;
`slots` the B-stack slots saved with it, and `resv` the reservation entries: open rounds, and what stands behind them
(R222). -/
structure Wg where
  uid : Nat
  launch : Nat
  index : Nat
  core : Nat
  status : WgStatus
  owner : Nat
  scratchSize : Nat
  scratch : SMap Byte
  absent : List Nat
  accRows : Nat
  acc : SMap Word
  handles : SMap (BitVec 1024)
  watch : SMap (BitVec 256)
  recUnit : Nat
  recUnits : Nat
  placedSeq : Nat
  slots : List BSlot
  resv : List Resv
  deriving DecidableEq, Repr

/-! ## Clusters, cores and dies -/

/-- A cluster (R1, R194, R211, R212): its B-stack slots, its reservation table, the entries of the pass in
progress, whether it holds a hat and how many clocks of its burst have passed, and its multicast drop counter. -/
structure Cluster where
  bslots : List BSlot
  resv : List Resv
  pass : List Resv
  hat : Bool
  burst : Nat
  drops : DWord
  deriving DecidableEq, Repr

/-- An L1 line (R3, R70, R254): its physical base, the owner tag, its bytes other than zero, and a dirty flag for
each byte. `torn` marks the aligned pieces of 16 bytes whose clean bytes are of different ages. -/
structure L1Line where
  base : Nat
  ca : Nat
  owner : Nat
  data : SMap Byte
  dirty : BitVec 256
  torn : BitVec 16
  deriving DecidableEq, Repr

/-- A line that the L2 of its home die holds (R3, R70, R254): its physical base and its owner tag. Its value is the
line's value at home. -/
structure L2Line where
  base : Nat
  owner : Nat
  deriving DecidableEq, Repr

/-- A non-temporal store in the write-combining buffer (R256). -/
structure WcEntry where
  grp : GKey
  op : Nat
  owner : Nat
  bytes : List StoreByte
  deriving DecidableEq, Repr

/-- A line entry of the request collector (R292): the operations that wait on it and the clocks it has been open
and idle. The first 64 of a core are its entries; those behind them wait for one to free. -/
structure CollEntry where
  line : Nat
  waiting : List Nat
  opened : Nat
  idle : Nat
  dispatched : Bool
  deriving DecidableEq, Repr

/-- A core (R1, R3, R254, R256, R292). -/
structure Core where
  l1 : List L1Line
  wc : List WcEntry
  coll : List CollEntry
  deriving DecidableEq, Repr

/-- A slot of a scheduler partition (R314, R319). `grows` says, once its partition has picked in this clock, whether
it grows older in it: it had a ready candidate and is not the one that was picked. -/
structure IssueSlot where
  core : Nat
  part : Nat
  slot : Nat
  launch : Nat
  lastPick : Nat
  wait : Nat
  promoted : Option Nat
  grows : Option Bool
  deriving DecidableEq, Repr

/-- A request at a bank port of a die L2 (R321). -/
structure PortReq where
  id : Nat
  die : Nat
  bank : Nat
  cls : Nat
  wait : Nat
  promoted : Option Nat
  deriving DecidableEq, Repr

/-- A line of the memory-side cache (R51): its pool line's physical base, its bytes other than zero, whether it is
dirty. It stands at index (pool offset ÷ 256) mod L. -/
structure MscLine where
  base : Nat
  data : SMap Byte
  dirty : Bool
  deriving DecidableEq, Repr

/-! ## Launches -/

/-- A record that joined a region's queue (R311), with its place in the module's enqueue order, the launch after
whose completion it is eligible (R329), and whether a tape run enqueued it (R332). -/
structure Queued where
  recPa : Nat
  region : Nat
  order : Nat
  after : Option Nat
  tape : Bool
  deriving DecidableEq, Repr

/-- A launch that has been taken for dispatch (R308, R310, R312), with its resolved fields. `chain` is its region and
the ancestors, `caps` the CORES of each, `slice` the length of its slices in clocks, 0 for one that never expires, and
`sliceLeft` the clocks left of the present one. `unplaced` lists the
workgroup indices not yet placed; `live` counts the workgroups that have not ended. `behind` is the launch that begins a
slice before this one, whose own has expired, is served again (R317). -/
structure Launch where
  uid : Nat
  recPa : Nat
  region : Nat
  chain : List Nat
  caps : List Nat
  order : Nat
  tape : Bool
  ptroot : Nat
  seedA : DWord
  seedB : DWord
  traph : DWord
  tapeb : DWord
  tapecap : Nat
  prio : Nat
  det : Bool
  fdp : Nat
  owner : Nat
  watch : SMap (BitVec 256)
  kernel : DWord
  width : Nat
  nregs : Nat
  scratch : Nat
  accRows : Nat
  bslots : Nat
  teams : List Nat
  codeLen : Nat
  dataOfs : Nat
  nwg : Nat
  gpw : Nat
  lidx : Word
  params : List Word
  handles : SMap (BitVec 1024)
  unplaced : List Nat
  live : Nat
  faulted : Bool
  digest : DWord
  endFwd : Bool
  slice : Nat
  sliceLeft : Option Nat
  behind : Option Nat
  deriving DecidableEq, Repr

/-! ## Residency, translation updates, notifications, host -/

/-- Who waits for a residency request (R64, R66, R357). -/
inductive ReqWait where
  | op (op : Nat)
  | fetch (g : GKey)
  deriving DecidableEq, Repr

/-- A residency request (R64): the region's root, a virtual address of the page, and its waiters. `verdict` is the
host's answer in host-assisted mode, with the slot and tag of the command that gave it. -/
structure ResReq where
  id : Nat
  ptroot : Nat
  owner : Nat
  va : Nat
  waits : List ReqWait
  notified : Bool
  verdict : Option (Bool × Nat × BitVec 16)
  deriving DecidableEq, Repr

/-- A translation update in progress (R62). `cmd` is the command slot and tag that started it. -/
structure XlatUpd where
  id : Nat
  ptroot : Nat
  base : Nat
  len : Nat
  cmd : Option (Nat × BitVec 16)
  deriving DecidableEq, Repr

/-- A notification entry before it is written (R372). -/
structure Notif where
  kind : Nat
  status : Nat
  tag : BitVec 16
  arg0 : DWord
  arg1 : DWord
  arg2 : DWord
  deriving DecidableEq, Repr

/-- The module control block (R369). -/
structure Mcb where
  cxlup : BitVec 16
  portup : BitVec 18
  hats : Nat
  capw : Nat
  mode : BitVec 5
  hbma : Nat
  hbmn : Nat
  saven : Nat
  saveb : Nat
  freel : Nat
  nqhead : Word
  nqtail : Word
  nqlog : Nat
  nqbase : Nat
  deriving DecidableEq, Repr

/-- A link answer that the host receives: the bytes read, and whether the error status is set (R69). -/
structure HostReply where
  bytes : List Byte
  err : Bool
  deriving DecidableEq, Repr

/-- A flit at a port's sender (R366, R367), with its 256 bytes: header and payload. -/
structure Flit where
  id : Nat
  vc : Nat
  bytes : List Byte
  wait : Nat
  promoted : Option Nat
  deriving DecidableEq, Repr

/-- A virtual channel at a receiver (R367): the buffer's fill and whether the channel is paused. -/
structure VChan where
  fill : Nat
  paused : Bool
  deriving DecidableEq, Repr

/-- A Tsuzel port (R366, R367): failed replays in a row, flits sent and not yet acknowledged, waiting flits, and
the four channels. -/
structure Port where
  fails : Nat
  replay : List Flit
  queue : List Flit
  vcs : List VChan
  deriving DecidableEq, Repr

/-- The bring-up state (R375–R377): the flash copy and the window's copy of the start record as (outcome, detail)
pairs for steps 1–9, the step reached, and the status word's fields. `step` 0 is off, 10 is in service. `hostUp` is the
bring-up mode of this start; `tripped` says that a junction cut the power before it (R378); `portLost` that the port over
which the host assists has gone down during it (R366). -/
structure Boot where
  step : Nat
  dead : Bool
  waiting : Bool
  last : Nat
  env : Option StartEnv
  record : List (Nat × DWord)
  flash : List (Nat × DWord)
  clusterMap : SMap Nat
  poolBytes : Nat
  flashMode : BitVec 5
  flashHbmn : Nat
  flashNqbase : Nat
  flashNqlog : Nat
  hostUp : Bool
  tripped : Bool
  portLost : Bool
  deriving DecidableEq, Repr

/-! ## Scheduling inputs and the focus of issue -/

/-- Which agent moves next. The list of turns is an input of the model: it fixes every choice of order that the
manual leaves open between groups, engines, dispatchers, hosts and clocks. `issue` is an issue in which no other
candidate of the partition's slot is ready; `pick` is a partition's pick of R319 among the candidates that are ready,
those listed in `stalled` being ones whose words or sources have not arrived. `fill` brings the line of an
address into the L1 of a group's core ahead of any access, and `refresh` the clean bytes of a word of an L1 line up to date
with their home; `send` lets request `r` of an atomic leave the core for its home, where ATOMIC_PERFORM
performs it; `flitSend` brings a flit of the link's traffic with its bytes. -/
inductive Turn where
  | event (i : Instr)
  | issue (g : GKey) (pc : DWord) (partner : Option DWord)
  | pick (core part : Nat) (stalled : List (GKey × DWord))
  | evict (core base : Nat)
  | fill (g : GKey) (va : Nat)
  | refresh (core pa : Nat)
  | send (op r : Nat)
  | clocks (n : Nat)
  | portReq (die bank cls : Nat)
  | portGrant (die bank : Nat)
  | flitIn (port vc : Nat)
  | flitOut (port vc : Nat)
  | flitSend (port vc : Nat) (bytes : List Byte)
  | flitGrant (port : Nat)
  | flitAck (port : Nat)
  deriving DecidableEq, Repr

/-- Everything that a trap delivers (R336, R337). -/
structure TrapInfo where
  cause : Nat
  sub : Nat
  mask : DWord
  len : Nat
  addr : DWord
  coord : List Word
  tag : Word
  aux : Word
  code : BitVec 16
  half : DWord
  eopid : DWord
  eopcls : Nat
  wskip : Bool
  deriving DecidableEq, Repr

/-- The group and PC whose instruction is being executed, the partner of its pair, and the trap of the pair's first
instruction while its partner still runs (R148, R337). `lanes` are the lanes that may execute it: for the second of a
pair those that stood at its PC when the pair was picked (R2, R319). `waits` says that the instruction was not ready. -/
structure Focus where
  grp : GKey
  pc : DWord
  lanes : DWord
  partner : Option DWord
  second : Bool
  stash : Option TrapInfo
  ostate : Nat
  waits : Bool
  deriving DecidableEq, Repr

/-- The machine. -/
structure State where
  turns : List Turn
  focus : Focus
  free : Nat
  clock : Nat
  seq : Nat
  mem : List Host.Cell
  xmem : List Host.Cell
  lineKeys : SMap (BitVec 512)
  keys : SMap (BitVec 512)
  msc : List MscLine
  poison : List PoisonLoc
  groups : List Group
  wgs : List Wg
  ops : List Op
  hits : List JoinHit
  clusters : List (Nat × Cluster)
  cores : List (Nat × Core)
  l2 : List (Nat × List L2Line)
  issueSlots : List IssueSlot
  ports : List PortReq
  thermal : Nat
  powered : Bool
  launches : List Launch
  queued : List Queued
  reqs : List ResReq
  xupds : List XlatUpd
  held : List Notif
  mcb : Mcb
  cmds : SMap (BitVec 512)
  reply : Option HostReply
  link : List (Nat × Port)
  boot : Boot
  deriving DecidableEq, Repr

/-- Why the machine stops with a fault. -/
inductive Fault where
  /-- Raised by exec of an instruction when no live group stands at the focus. No run reaches it through `step`.
  Safe: the model stops. -/
  | noGroup
  deriving DecidableEq, Repr

/-- Why the model has no meaning to give. -/
inductive Refusal where
  /-- An instruction or event not modelled yet. Safe. -/
  | notModelled (mnemonic : String)
  /-- An event was named whose conditions the state does not meet, so that the module makes no such step. Raised by
  the meanings of events. Safe: the model stops. -/
  | notEnabled (event : String)
  /-- The host wrote a launch record that the module owns, or posted it twice: the manual defines no outcome
  (R310, R373). Raised by LAUNCH_POST, LAUNCH, HOST_WRITE and HOST_ATOMIC. Safe: the model stops. -/
  | recordOwned
  deriving DecidableEq, Repr

/-- A group key that names no group. -/
def GKey.none : GKey := ⟨0, 0⟩

/-- The focus when nothing issues. -/
def Focus.idle : Focus := ⟨GKey.none, 0, BitVec.allOnes 64, Option.none, false, Option.none, 0, false⟩

/-- The MCB's reset values (R369); HBMN, MODE and the fields filled at start are as the flash image of the log
gives them. -/
def Mcb.reset : Mcb :=
  { cxlup := 0, portup := 0, hats := 16, capw := 3800, mode := 0, hbma := 0, hbmn := 8, saven := 0, saveb := 0,
    freel := 0, nqhead := 0, nqtail := 0, nqlog := 0, nqbase := 0 }

/-- The bring-up state at power-on: no step has run, and the flash holds a record with no outcome (R375). -/
def Boot.reset : Boot :=
  { step := 0, dead := false, waiting := false, last := 0, env := Option.none, record := List.replicate 9 (0, 0),
    flash := List.replicate 9 (0, 0), clusterMap := [], poolBytes := 0, flashMode := 0, flashHbmn := 8,
    flashNqbase := 0, flashNqlog := 0, hostUp := false, tripped := false, portLost := false }

/-- The machine at power-on, before the start (R376): nothing placed, nothing queued, nothing in memory. -/
def State.reset : State :=
  { turns := [], focus := Focus.idle, free := 0, clock := 0, seq := 1, mem := [], xmem := [], lineKeys := [],
    keys := [], msc := [], poison := [], groups := [], wgs := [], ops := [], hits := [], clusters := [], cores := [],
    l2 := [], issueSlots := [], ports := [], thermal := 16, powered := true, launches := [], queued := [],
    reqs := [], xupds := [], held := [], mcb := Mcb.reset, cmds := [], reply := Option.none, link := [],
    boot := Boot.reset }

end Sys2Proof.Machine
end

