-- ==== Sys2Proof/Machine/Handles.lean ====
section
/-! DEFINITION. Tensor handles (R72–R79): the fields of a descriptor, its validity, the path from an index to an
address, and the element encodings under a handle (R80–R87, R93–R95). -/

namespace Sys2Proof.Machine

/-- A descriptor of 128 bytes (R72); zero is the unloaded slot (R74). -/
abbrev Handle := BitVec 1024

def hFmt (h : Handle) : Nat := bits h 67 64
def hRank (h : Handle) : Nat := bits h 69 68
def hScratch (h : Handle) : Bool := bit h 70
def hSwz (h : Handle) : Nat := bits h 74 72
def hScap (h : Handle) : Nat := bits h 77 76
def hTrapOob (h : Handle) : Bool := bit h 80
def hDigest (h : Handle) : Bool := bit h 81
def hProfile (h : Handle) : Bool := bit h 82
def hNtDef (h : Handle) : Bool := bit h 83
def hScale (h : Handle) : Int := toSigned 8 (bits h 95 88)
def hTag (h : Handle) : Nat := bits h 127 96
def hBase (h : Handle) : Nat := bits h 59 0
def hTrb (h : Handle) : Nat := bits h 507 448
def hControl (h : Handle) : Nat := bits h 95 64

/-- EXT0–EXT3. -/
def hExt (h : Handle) (k : Nat) : Nat := bits h (159 + 32 * k) (128 + 32 * k)
/-- STR1–STR3, signed. -/
def hStr (h : Handle) (k : Nat) : Int := toSigned 64 (bits h (319 + 64 * (k - 1)) (256 + 64 * (k - 1)))
/-- CODEBOOK entry j. -/
def hCode (h : Handle) (j : Nat) : Nat := bits h (527 + 16 * j) (512 + 16 * j)

/-- Whether a slot is loaded (R74). -/
def loaded (h : Handle) : Bool := h != 0

/-- Swizzle span S (R72). -/
def swzSpan (h : Handle) : Nat := 16 * 2 ^ hSwz h

/-- Element size in bytes; the half byte of CB4 and the byte views of FMT 9 to 11 count as 1 (R73, R76, R79). -/
def elemSize (fmt : Nat) : Nat :=
  match fmt with
  | 2 | 3 => 4
  | 4 | 5 => 2
  | _ => 1

/-- The real element size: the sparse formats decode to E4M3 and BF16 (R81). -/
def decodedSize (fmt : Nat) : Nat := if fmt = 10 then 2 else elemSize fmt

/-- Whether an extent and stride condition of R73 subcode 4 fails. -/
def badDims (h : Handle) : Bool :=
  let off (k : Nat) := hRank h < k && (hExt h k != 1 || hStr h k != 0)
  off 1 || off 2 || off 3 ||
    ((hFmt h == 9 || hFmt h == 10) && (hExt h 0 % 64 != 0 || hStr h 1 != 0 || hStr h 2 != 0 || hStr h 3 != 0))

/-- A reserved bit of the descriptor is set (R72). -/
def badReserved (h : Handle) : Bool :=
  bits h 1023 768 != 0 || bits h 511 508 != 0 || bits h 87 84 != 0 || bits h 79 78 != 0 || bit h 75 || bit h 71
    || bits h 63 60 != 0

/-- A base or trailer base off its alignment or range (R73 subcode 5). -/
def badBase (h : Handle) : Bool :=
  let f := hFmt h
  let b := hBase h
  b % elemSize f != 0 || (hSwz h != 0 && b % swzSpan h != 0) || (hTrb h != 0 && b % 4096 != 0)
    || ((f == 9 || f == 10) && b % 16 != 0) || hTrb h % 16 != 0
    || (hScratch h && (1048576 ≤ b || 1048576 ≤ hTrb h))

/-- A combination that R73 subcode 6 forbids. -/
def badMix (h : Handle) : Bool :=
  let f := hFmt h
  (hTrb h != 0 && !(f == 6 || f == 7 || f == 8)) || (hScale h != 0 && (f == 0 || f == 1 || f == 2 || f == 11))
    || (hScap h != 0 && !(f == 9 || f == 10)) || (hSwz h != 0 && (f == 9 || f == 10 || f == 11))
    || (hDigest h && hProfile h)
    || (f == 11 && (hScratch h || hRank h != 0 || hSwz h != 0 || hTrb h != 0))

/-- The lowest failing subcode of R73, if the descriptor is invalid. -/
def handleFault (h : Handle) : Option Nat :=
  if badReserved h || 12 ≤ hFmt h || 5 ≤ hSwz h then some 3
  else if badDims h then some 4
  else if badBase h then some 5
  else if badMix h then some 6
  else none

/-! ## Bounds and addresses -/

/-- The extents that bound an index: the storage bytes for FMT 9 and 10 (R79, R86). -/
def sparseBlock (h : Handle) : Nat := 16 + (16 * (hScap h + 1)) * (if hFmt h = 10 then 2 else 1)
/-- The storage size of a sparse handle (R86). -/
def sparseStorage (h : Handle) : Nat :=
  sparseBlock h * (hExt h 0 / 64) * hExt h 1 * hExt h 2 * hExt h 3

/-- The extents as a lane access sees them: a sparse handle is one run of bytes (R79). -/
def laneExt (h : Handle) (k : Nat) : Nat :=
  if hFmt h = 9 ∨ hFmt h = 10 then (if k = 0 then sparseStorage h else 1) else hExt h k

/-- The coordinates of a linear index under given extents (R75). Where an extent by which R75 divides is zero, no index is in
bounds and the rule gives no coordinates: the model's choice is zeros (log entry 81). -/
def coordsOf (e0 e1 e2 : Nat) (i : Nat) : List Nat :=
  if e0 = 0 ∨ e1 = 0 ∨ e2 = 0 then [0, 0, 0, 0]
  else [i % e0, i / e0 % e1, i / (e0 * e1) % e2, i / (e0 * e1 * e2)]

/-- The coordinates of a lane's index (R75); a byte offset into a sparse handle's storage is one coordinate (R79). -/
def coords (h : Handle) (i : Nat) : List Nat :=
  if hFmt h = 9 ∨ hFmt h = 10 then [i, 0, 0, 0] else coordsOf (hExt h 0) (hExt h 1) (hExt h 2) i

/-- The coordinates of an element index of the logical tensor: BLD, ACCST (R198, R220). -/
def elemCoords (h : Handle) (i : Nat) : List Nat := coordsOf (hExt h 0) (hExt h 1) (hExt h 2) i

/-- Entry k of a list of coordinates. -/
def nth (l : List Nat) (k : Nat) : Nat := l.getD k 0

/-- The elements of an access of `width` memory bytes (R75). -/
def elemsOf (h : Handle) (width : Nat) : Nat := if hFmt h = 8 then 2 * width else width / elemSize (hFmt h)

/-- The number of elements of the handle. -/
def elemCount (h : Handle) : Nat := laneExt h 0 * laneExt h 1 * laneExt h 2 * laneExt h 3

/-- R75's bounds for n elements at an index. -/
def inBounds (h : Handle) (i n : Nat) : Bool :=
  decide (i < elemCount h) && decide (nth (coords h i) 0 + n ≤ laneExt h 0)

/-- The byte address of the element at given coordinates, modulo 2^64 (R76). -/
def addrAt (h : Handle) (c0 c1 c2 c3 : Nat) : Nat :=
  let lead : Int := if hFmt h = 8 then (c0 / 2 : Nat) else (c0 * elemSize (hFmt h) : Nat)
  let off := wrap64 (if hFmt h = 9 ∨ hFmt h = 10 then lead
    else lead + c1 * hStr h 1 + c2 * hStr h 2 + c3 * hStr h 3)
  let off := if hSwz h = 0 then off
    else off ^^^ ((((off / swzSpan h) % (swzSpan h / 16))) * 16)
  (hBase h + off) % 18446744073709551616

/-- The byte address of a lane's index (R76). -/
def addrOf (h : Handle) (i : Nat) : Nat :=
  let c := coords h i
  addrAt h (nth c 0) (nth c 1) (nth c 2) (nth c 3)

/-- A virtual address beyond 60 bits is out of bounds (R53). -/
def beyondVa (h : Handle) (a : Nat) : Bool := !hScratch h && decide (2 ^ 60 ≤ a)

/-- The outcome of forming a lane's address: none when the lane is out of bounds (R75–R77). -/
def laneAddr (h : Handle) (i width : Nat) : Option Nat :=
  if inBounds h i (elemsOf h width) then
    let a := addrOf h i
    if beyondVa h a then none else some a
  else none

/-! ## The footprint (R78) -/

/-- The linear offset of a byte before the swizzle; the swizzle permutes the chunks of a span and is its own
inverse, since it leaves the span number as it was (R76). -/
def unswizzle (h : Handle) (off : Nat) : Nat :=
  if hSwz h = 0 then off else off ^^^ ((((off / swzSpan h) % (swzSpan h / 16))) * 16)

/-- The least x whose multiple a·x, taken modulo m, lies between l and r, where 0 < l ≤ r < m: none where no multiple does,
or where the fuel ends. Each level of it is a step of Euclid's algorithm on a and m. -/
def firstMultiple : Nat → Nat → Nat → Nat → Nat → Option Nat
  | 0, _, _, _, _ => none
  | fuel + 1, a, m, l, r =>
      if l = 0 then some 0
      else if a = 0 then none
      else if (l + a - 1) / a * a ≤ r then some ((l + a - 1) / a)
      else (firstMultiple fuel (m % a) a (a - r % a) (a - l % a)).map (fun y => (l + m * y + a - 1) / a)

/-- Whether the row of some c below n covers an offset: (d − c·str) mod 2^64 is below the row's length (R76, R78). -/
def someRow (d : Nat) (str : Int) (len n : Nat) : Bool :=
  if n = 0 ∨ len = 0 then false
  else if d < len then true
  else
    match firstMultiple 128 (wrap64 str) 18446744073709551616 (d - (len - 1)) d with
    | some x => decide (x < n)
    | none => false

/-- The bytes of a row of dimension 0. -/
def rowBytes (h : Handle) : Nat := if hFmt h = 8 then (hExt h 0 + 1) / 2 else hExt h 0 * elemSize (hFmt h)

/-- Whether a byte address lies in the footprint: some row of dimension 0 covers it (R78). The strides are tried by
their extents; a dimension whose stride is zero adds no row. -/
def inFootprint (h : Handle) (a : Nat) : Bool :=
  if beyondVa h a then false
  else if hFmt h = 9 ∨ hFmt h = 10 then
    decide (hBase h ≤ a) && decide (a < hBase h + sparseStorage h)
  else
    let off := unswizzle h (wrap64 ((a : Int) - hBase h))
    let n (k : Nat) := if hStr h k = 0 then min 1 (hExt h k) else hExt h k
    (List.range (n 3)).any (fun c3 => (List.range (n 2)).any (fun c2 =>
      someRow (wrap64 ((off : Int) - (c2 * hStr h 2 + c3 * hStr h 3))) (hStr h 1) (rowBytes h) (hExt h 1)))

/-! ## Element values (R80–R82) -/

/-- The floating-point format of a format code (R80). -/
def ffmtOf : Nat → Option FFmt
  | 3 => some .fp32 | 4 => some .bf16 | 5 => some .fp16 | 6 => some .e4m3 | 7 => some .e5m2 | _ => none

/-- The value of an element's code under a handle before SCALE: FMT 8 codes select CODEBOOK entries, and the sparse
formats hold E4M3 and BF16 codes (R80, R81). -/
def rawValue (h : Handle) (c : Nat) : FVal :=
  match hFmt h with
  | 1 => ofInt (toSigned 8 (c % 256))
  | 2 => ofInt (toSigned 32 (c % 4294967296))
  | 3 => decodeF .fp32 c
  | 4 | 10 => decodeF .bf16 c
  | 5 => decodeF .fp16 c
  | 6 | 9 => decodeF .e4m3 c
  | 7 => decodeF .e5m2 c
  | 8 => decodeF .bf16 (hCode h (c % 16))
  | _ => .zero false

/-- Decode(e, h): the exact value with the handle's scale (R82). -/
def elemValue (h : Handle) (c : Nat) : FVal := (rawValue h c).scale (hScale h)

/-- The floating-point format of the elements that a handle of a format code decodes to: the sparse formats hold E4M3 and
BF16 codes (R81). -/
def elemFmt (fmt : Nat) : Option FFmt :=
  match fmt with
  | 9 => some .e4m3
  | 10 => some .bf16
  | f => ffmtOf f

/-- An encoding is nonzero when any bit but the sign bit is set (R84). -/
def codeNonzero (fmt c : Nat) : Bool :=
  match elemFmt fmt with
  | some f => c % signBit f != 0
  | none => c != 0

/-- An element written through a handle: x × 2^(−SCALE) under the mode and saturation (R82, R88–R91). -/
def encodeElem (h : Handle) (mode : RMode) (sat : Bool) (x : FVal) : Encoded :=
  match ffmtOf (hFmt h) with
  | some f => encodeF f mode sat (x.scale (-hScale h))
  | none =>
      let r := if hFmt h = 2 then toIntF mode sat 32 (-2147483648) 2147483647 0x80000000 x
        else toIntF mode sat 8 (-128) 127 0x80 x
      ⟨r.1, r.2, false, false, sat && r.2⟩

/-! ## Trailers (R93–R95) -/

/-- One byte through CRC-32C, reflected (R94). -/
def crcByte (c : Nat) (b : Byte) : Nat :=
  (List.range 8).foldl (fun c _ => if c % 2 = 1 then (c / 2) ^^^ 0x82F63B78 else c / 2) (c ^^^ b.toNat)

/-- CRC-32C of a run of bytes (R94). -/
def crc32c (bs : List Byte) : Nat := (bs.foldl crcByte 0xFFFFFFFF) ^^^ 0xFFFFFFFF

/-- The subcode of a failed trailer check, given the tile's bytes and its trailer (R95). Of a tile that fails both of R95's
conditions the model reports the first (log entry 82). -/
def trailerFault (fmt : Nat) (tile trailer : List Byte) : Option Nat :=
  let t := ofBytes trailer
  if t / 2 ^ 32 % 2 ^ 32 ≠ crc32c tile then some 1
  else if t / 2 ^ 68 % 16 ≠ 10 ∨ t / 2 ^ 64 % 16 ≠ fmt ∨ t / 2 ^ 72 ≠ 0 then some 2
  else none

/-- Whether magnitude a exceeds magnitude b. -/
def magLess (a b : FVal) : Bool :=
  match a, b with
  | .zero _, .zero _ => false
  | .zero _, _ => true
  | _, .zero _ => false
  | .fin _ m e, .fin _ n g => decide (cmpV (.fin false m e) (.fin false n g) < 0)
  | .fin _ _ _, .inf _ => true
  | _, _ => false

/-- MAXABS of a tile's element values (R93). -/
def maxAbsCode (vs : List FVal) : Nat :=
  if vs.any (· == .nan) then 0x7FC0
  else
    let m := vs.foldl (fun a v => if magLess a v then v else a) (.zero false)
    let pos : FVal := match m with | .fin _ m e => .fin false m e | .inf _ => .inf false | v => v.scale 0
    match pos with
    | .zero _ => 0
    | p => (encodeF .bf16 .rup false p).code

/-- The codes of the elements held in the bytes of a tile of format 6, 7 or 8 (R81). -/
def tileCodes (fmt : Nat) (bs : List Byte) : List Nat :=
  if fmt = 8 then bs.flatMap (fun b => [b.toNat % 16, b.toNat / 16]) else bs.map (·.toNat)

/-- The trailer of a tile (R93). -/
def trailerBytes (h : Handle) (tile : List Byte) (satcnt : Nat) : List Byte :=
  let v := maxAbsCode ((tileCodes (hFmt h) tile).map (rawValue h)) + 65536 * min satcnt 65535
    + 2 ^ 32 * crc32c tile + 2 ^ 64 * hFmt h + 2 ^ 68 * 10
  leBytes 16 v

/-! ## Bitmap-sparse blocks (R86, R87) -/

/-- The block that holds logical coordinates (R86). -/
def blockIndex (h : Handle) (c0 c1 c2 c3 : Nat) : Nat :=
  c0 / 64 + (hExt h 0 / 64) * (c1 + hExt h 1 * (c2 + hExt h 2 * c3))

/-- The subcode of a failed block check (R87). Of a block that fails both conditions the model reports the first (log
entry 82). -/
def blockFault (h : Handle) (bs : List Byte) : Option Nat :=
  let bm := ofBytes (bs.take 8)
  let plen := ofBytes ((bs.drop 8).take 2)
  if popcount 64 bm ≠ plen then some 3
  else if 16 * (hScap h + 1) < plen ∨ ofBytes ((bs.drop 10).take 6) ≠ 0 then some 4
  else none

/-- The code of element j of a block (R86). -/
def blockElem (h : Handle) (bs : List Byte) (j : Nat) : Nat :=
  let bm := ofBytes (bs.take 8)
  if bm / 2 ^ j % 2 = 0 then 0
  else
    let sz := if hFmt h = 10 then 2 else 1
    let r := popcount j bm
    ofBytes ((bs.drop (16 + r * sz)).take sz)

end Sys2Proof.Machine
end

