-- ==== Sys2Proof/Config.lean ====
section
/-! DEFINITION. What an implementation fixes and the manual leaves open: opaque constants, of which no proof can know
a value. Each one is named in the assumption log. -/

namespace Sys2Proof.Config

/-- What a reader under the second key sees of a 256-byte line written under the first: AES-256-XTS decryption of
another key's ciphertext (R69). The arguments are the two keys, the line's physical base, its plain bytes and the
byte's place in the line. -/
opaque xtsView (writer reader : BitVec 512) (base : Nat) (plain : SMap Byte) (i : Nat) : Byte

/-- The die in whose L2 a line has its home (R1, R3): the manual gives no map from addresses to dies. -/
opaque homeDie (base : Nat) : Fin 4

/-- The value of an accumulator element that a pass wrote from a B slot poisoned after the entry was accepted, where
the manual gives only that the data is poisoned (R358). -/
opaque poisonedValue (free : Nat) : Word

/-- The fill above which a receiver pauses a virtual channel (R367). -/
opaque vcHigh : Nat

/-- The greatest fill below the low threshold, at which a receiver releases a channel: a threshold that no fill lies below
would never release one (R367). -/
opaque vcLow : Nat

end Sys2Proof.Config
end

