-- ==== Sys2Proof/Machine/Access.lean ====
section
/-! DEFINITION. The accessors of the state: one reader and one writer for each table that State holds. -/

namespace Sys2Proof.Machine

/-! ## Tables of the state -/

def findGroup (s : State) (k : GKey) : Option Group := s.groups.find? (fun g => g.key = k)
def setGroup (s : State) (g : Group) : State :=
  { s with groups := updateIf (fun x => x.key = g.key) (fun _ => g) s.groups }
def updGroup (s : State) (k : GKey) (f : Group → Group) : State :=
  { s with groups := updateIf (fun x => x.key = k) f s.groups }

def findWg (s : State) (uid : Nat) : Option Wg := s.wgs.find? (fun w => w.uid = uid)
def updWg (s : State) (uid : Nat) (f : Wg → Wg) : State :=
  { s with wgs := updateIf (fun w => w.uid = uid) f s.wgs }

def findLaunch (s : State) (uid : Nat) : Option Launch := s.launches.find? (fun l => l.uid = uid)
def updLaunch (s : State) (uid : Nat) (f : Launch → Launch) : State :=
  { s with launches := updateIf (fun l => l.uid = uid) f s.launches }

def findOp (s : State) (id : Nat) : Option Op := s.ops.find? (fun o => o.id = id)
def updOp (s : State) (id : Nat) (f : Op → Op) : State :=
  { s with ops := updateIf (fun o => o.id = id) f s.ops }

/-- A core with empty caches. -/
def Core.empty : Core := ⟨[], [], []⟩
def coreOf (s : State) (c : Nat) : Core := mapGet Core.empty s.cores c
def setCore (s : State) (c : Nat) (x : Core) : State := { s with cores := mapSet Core.empty s.cores c x }

/-- A cluster with no slots and no entries. -/
def Cluster.empty : Cluster := ⟨[], [], [], false, 0, 0⟩
def clusterOf (s : State) (c : Nat) : Cluster := mapGet Cluster.empty s.clusters c
def setCluster (s : State) (c : Nat) (x : Cluster) : State :=
  { s with clusters := mapSet Cluster.empty s.clusters c x }

/-- The groups of a workgroup. -/
def groupsOf (s : State) (uid : Nat) : List Group := s.groups.filter (fun g => g.key.wg = uid)

/-- The key value in an owner slot; none when the slot is empty (R69). -/
def keyVal (s : State) (slot : Nat) : Option (BitVec 512) := mapFind s.keys slot
/-- The key value in an owner slot, zero when empty. -/
def keyOr (s : State) (slot : Nat) : BitVec 512 := (keyVal s slot).getD 0

/-! ## Lanes -/

/-- The group's width (R5). -/
def Group.width (g : Group) : Nat := g.lanes.length

/-- Lane `l` of a group, if it has one. -/
def Group.lane? (g : Group) (l : Nat) : Option Lane := g.lanes[l]?

/-- The active lanes at a PC, ascending: not exited, and standing there (R146). -/
def Group.activeAt (g : Group) (pc : DWord) : List Nat :=
  (List.range g.width).filter (fun l =>
    match g.lane? l with
    | some x => !x.exited && x.pc == pc
    | none => false)

/-- The lanes that have not exited. -/
def Group.live (g : Group) : List Nat :=
  (List.range g.width).filter (fun l =>
    match g.lane? l with
    | some x => !x.exited
    | none => false)

/-- The group with `f` applied to the listed lanes. -/
def Group.mapLanes (g : Group) (ls : List Nat) (f : Nat → Lane → Lane) : Group :=
  { g with lanes := g.lanes.mapIdx (fun i x => if ls.contains i then f i x else x) }

/-- Register v`r` of a lane. -/
def Lane.vreg (x : Lane) (r : Nat) : Word := mapGet 0 x.v r
/-- Writes v`r`. -/
def Lane.setV (x : Lane) (r : Nat) (w : Word) : Lane := { x with v := mapSet 0 x.v r w }
/-- Mask bit `k`. -/
def Lane.mbit (x : Lane) (k : Nat) : Bool := bit x.m k
/-- Writes mask bit `k`. -/
def Lane.setM (x : Lane) (k : Nat) (b : Bool) : Lane := { x with m := setBits x.m k k (bitOf b) }

/-- Scalar register s`r`. -/
def Group.sreg (g : Group) (r : Nat) : Word := mapGet 0 g.s r
/-- Writes s`r`. -/
def Group.setS (g : Group) (r : Nat) (w : Word) : Group := { g with s := mapSet 0 g.s r w }

/-- Stream position n of a lane (R178). -/
def Lane.pos (x : Lane) (n : Nat) : BitVec 56 :=
  match n with
  | 0 => x.pos0 | 1 => x.pos1 | 2 => x.pos2 | _ => x.pos3
/-- Writes stream position n. -/
def Lane.setPos (x : Lane) (n : Nat) (p : BitVec 56) : Lane :=
  match n with
  | 0 => { x with pos0 := p }
  | 1 => { x with pos1 := p }
  | 2 => { x with pos2 := p }
  | _ => { x with pos3 := p }

/-! ## Code in force -/

/-- The header of the running code: the handler's in trap mode (R338). -/
def kernelBase (ln : Launch) (g : Group) : DWord := if g.trapMode then g.handler else ln.kernel
/-- The declared count in force (R22, R338). -/
def declared (ln : Launch) (g : Group) : Nat := if g.trapMode then g.handlerN else ln.nregs

/-- The code length in words of the running code (R31, R338). -/
def codeWords (ln : Launch) (g : Group) : Nat := if g.trapMode then g.handlerLen else ln.codeLen

/-- The next identity, and the state that has given it out. -/
def freshId (s : State) : Nat × State := (s.seq, { s with seq := s.seq + 1 })

/-- The next index of a free value. -/
def freshFree (s : State) : Nat × State := (s.free, { s with free := s.free + 1 })

/-! ## Outstanding operations (R139) -/

/-- The unretired operations of a group in a class, in issue order. -/
def classOps (s : State) (k : GKey) (c : OpClass) : List Op := s.ops.filter (fun o => o.grp = k && o.cls = c)

/-- The counter of a class (R139). -/
def counter (s : State) (k : GKey) (c : OpClass) : Nat := (classOps s k c).length

/-- The outstanding-operation limit of a class (R139). -/
def counterFull (s : State) (k : GKey) (c : OpClass) : Bool := decide (63 ≤ counter s k c)

end Sys2Proof.Machine
end

