-- ==== Sys2Proof/Machine/Mem.lean ====
section
/-! DEFINITION. Physical memory, the memory-side cache and line keys (R48–R52, R69), translation (R53–R59, R62), and the
path between a core and the home of a line: L1, write-combining buffer, store FIFO (R254–R257, R270, R273). -/

namespace Sys2Proof.Machine

/-! ## The physical space (R48, R49) -/

/-- The base of the pooled tier. -/
def poolBase : Nat := 0x0010000000000000

/-- Bytes of near memory: inside the 59 GiB of one of the N steps. -/
def inNear (s : State) (pa n : Nat) : Bool :=
  decide (pa / 0x1000000000 < s.mcb.hbma) && decide (pa % 0x1000000000 + n ≤ 0xEC0000000)

/-- Bytes of the mapped pool extent. -/
def inPool (s : State) (pa n : Nat) : Bool :=
  decide (poolBase ≤ pa) && decide (pa + n ≤ poolBase + s.boot.poolBytes)

/-- A physical range that holds memory. -/
def inMemory (s : State) (pa n : Nat) : Bool := inNear s pa n || inPool s pa n

/-- The base of the 256-byte line of an address. -/
def lineOf (a : Nat) : Nat := a / 256 * 256

/-- The 256-byte lines that n bytes at an address touch. -/
def linesOf (va n : Nat) : List Nat :=
  if n = 0 then [] else (List.range ((va + n - 1) / 256 + 1 - va / 256)).map (fun i => lineOf va + 256 * i)

/-! ## The memory list -/

/-- What an unlisted byte of memory reads as: a choice of this model, named in the assumption log. -/
def unlisted : Byte := 0

/-- One byte of the memory list. -/
def memGet (m : List Host.Cell) (pa : Nat) : Byte := mapGet unlisted m pa
/-- Writes one byte, keeping the canonical form. -/
def memSet (m : List Host.Cell) (pa : Nat) (b : Byte) : List Host.Cell := mapSet unlisted m pa b
/-- Writes consecutive bytes. -/
def memSetBytes (m : List Host.Cell) (pa : Nat) : List Byte → List Host.Cell
  | [] => m
  | b :: bs => memSetBytes (memSet m pa b) (pa + 1) bs
/-- Consecutive bytes. -/
def memGetBytes (m : List Host.Cell) (pa n : Nat) : List Byte := (List.range n).map (fun i => memGet m (pa + i))
/-- A little-endian number of n bytes. -/
def memNum (m : List Host.Cell) (pa n : Nat) : Nat := ofBytes (memGetBytes m pa n)
/-- The canonical form of memory. -/
def Memory.wf (m : List Host.Cell) : Bool := mapWf unlisted m

/-- The listed cells of a range as offsets from its base. -/
def cellsIn (m : List Host.Cell) (base n : Nat) : SMap Byte :=
  (m.filter (fun c => decide (base ≤ c.1) && decide (c.1 < base + n))).map (fun c => (c.1 - base, c.2))

/-- The memory with every byte of a range cleared. -/
def memClear (m : List Host.Cell) (base n : Nat) : List Host.Cell :=
  m.filter (fun c => !(decide (base ≤ c.1) && decide (c.1 < base + n)))

/-- Writes the listed cells of a sparse block at a base, over a cleared range of n bytes. -/
def memPutBlock (m : List Host.Cell) (base n : Nat) (b : SMap Byte) : List Host.Cell :=
  b.foldl (fun m c => memSet m (base + c.1) c.2) (memClear m base n)

/-! ## The memory-side cache (R51) -/

/-- The number of lines of the memory-side cache. -/
def mscLines (s : State) : Nat := (9 - s.mcb.hbma) * 247463936

/-- The cache line that holds a pool line, if any. -/
def mscFind (s : State) (base : Nat) : Option MscLine := s.msc.find? (fun l => l.base = base)

/-- Applies `f` to the cached copy of a line. -/
def updMsc (s : State) (base : Nat) (f : MscLine → MscLine) : State :=
  { s with msc := updateIf (fun l => l.base = base) f s.msc }

/-- Writes a dirty cache line back to the pool. -/
def mscWriteBack (s : State) (l : MscLine) : State :=
  if l.dirty then { s with mem := memPutBlock s.mem l.base 256 l.data } else s

/-- Drops the cached copy of a line, after write-back if it is dirty. -/
def mscDrop (s : State) (base : Nat) : State :=
  match mscFind s base with
  | none => s
  | some l => let s := mscWriteBack s l
              { s with msc := s.msc.filter (fun x => x.base ≠ base) }

/-- Brings a pool line into the cache, first writing back the line that it displaces. -/
def mscFill (s : State) (base : Nat) : State :=
  match mscFind s base with
  | some _ => s
  | none =>
      let idx (b : Nat) := (b - poolBase) / 256 % mscLines s
      let out := (s.msc.filter (fun l => idx l.base = idx base)).map (·.base)
      let s := out.foldl mscDrop s
      { s with msc := ⟨base, cellsIn s.mem base 256, false⟩ :: s.msc }

/-! ## Home values (R69, R254) -/

/-- The bytes of a line as its last writer's key gives them, through the memory-side cache. -/
def plainLine (s : State) (base : Nat) : SMap Byte :=
  match mscFind s base with
  | some l => l.data
  | none => cellsIn s.mem base 256

/-- One byte as its last writer's key gives it. -/
def plainByte (s : State) (pa : Nat) : Byte :=
  if poolBase ≤ pa then
    match mscFind s (lineOf pa) with
    | some l => mapGet 0 l.data (pa % 256)
    | none => memGet s.mem pa
  else memGet s.mem pa

/-- One byte at its home as a reader under this key sees it (R69). -/
def homeByte (s : State) (key : BitVec 512) (pa : Nat) : Byte :=
  match mapFind s.lineKeys (lineOf pa) with
  | none => plainByte s pa
  | some k => if k = key then plainByte s pa else Config.xtsView k key (lineOf pa) (plainLine s (lineOf pa)) (pa % 256)

/-- A line at its home as a reader under this key sees it. -/
def homeLine (s : State) (key : BitVec 512) (base : Nat) : SMap Byte :=
  match mapFind s.lineKeys base with
  | none => plainLine s base
  | some k =>
      if k = key then plainLine s base
      else (List.range 256).foldl (fun m i => mapSet 0 m i (Config.xtsView k key base (plainLine s base) i)) []

/-- A line about to be written under a key: what the writer sees of its other bytes becomes its plain content, in the
cache and, where the cached line is not dirty, at home (R51, R69). -/
def rekeyLine (s : State) (key : BitVec 512) (base : Nat) : State :=
  match mapFind s.lineKeys base with
  | none => { s with lineKeys := mapPut s.lineKeys base key }
  | some k =>
      if k = key then s
      else
        let d := homeLine s key base
        let s := { s with lineKeys := mapPut s.lineKeys base key }
        match mscFind s base with
        | some l =>
            let s := if l.dirty then s else { s with mem := memPutBlock s.mem base 256 d }
            updMsc s base (fun l => { l with data := d })
        | none => { s with mem := memPutBlock s.mem base 256 d }

/-- Clears the poison of a line when a full write of it makes it whole (R358). -/
def clearLinePoison (s : State) (base n : Nat) : State :=
  if n = 256 then { s with poison := s.poison.filter (fun p => p ≠ PoisonLoc.line base) } else s

/-- Writes one byte at its home under a key, by the cache attribute of its page (R51). -/
def homeSet (s : State) (key : BitVec 512) (ca pa : Nat) (b : Byte) : State :=
  let base := lineOf pa
  let cached := decide (poolBase ≤ pa) && ca != 2 && decide (s.mcb.hbma < 9)
  let s := if decide (poolBase ≤ pa) && !cached then mscDrop s base else s
  let s := if cached then mscFill s base else s
  let s := rekeyLine s key base
  if cached then
    let s := updMsc s base (fun l => { l with data := mapSet 0 l.data (pa % 256) b, dirty := l.dirty || ca == 0 })
    if ca = 1 then { s with mem := memSet s.mem pa b } else s
  else { s with mem := memSet s.mem pa b }

/-- Writes consecutive bytes at their home. -/
def homeSetBytes (s : State) (key : BitVec 512) (ca pa : Nat) : List Byte → State
  | [] => s
  | b :: bs => homeSetBytes (homeSet s key ca pa b) key ca (pa + 1) bs

/-- What a read through a page with this attribute does to the memory-side cache (R51, R52): an uncached one writes a
dirty line back and drops it, and a miss of any other fills the line from the pool. -/
def readThrough (s : State) (ca pa : Nat) : State :=
  if pa < poolBase then s
  else if ca = 2 then mscDrop s (lineOf pa)
  else if s.mcb.hbma < 9 then mscFill s (lineOf pa)
  else s

/-- Consecutive bytes at their home under a key. -/
def homeBytes (s : State) (key : BitVec 512) (pa n : Nat) : List Byte :=
  (List.range n).map (fun i => homeByte s key (pa + i))

/-! ## The die L2s (R3, R70, R254) -/

/-- The lines that an L2 holds: 64 MiB. -/
def l2Lines : Nat := 262144

/-- A line enters the L2 of its home die under an owner's tag; another owner's copy of it has gone, and of a full L2 the
line that entered first leaves. Which die is its home, and which lines an L2 holds, change no value (R67, R254). -/
def l2Touch (s : State) (owner base : Nat) : State :=
  let d := (Config.homeDie base).val
  let ls := (mapGet [] s.l2 d).filter (fun x => x.base ≠ base)
  { s with l2 := mapPut s.l2 d ((⟨base, owner⟩ :: ls).take l2Lines) }

/-- Lines written at their homes are the writer's in L2 (R70). -/
def l2TouchAll (s : State) (owner : Nat) (lines : List Nat) : State := lines.foldl (fun s l => l2Touch s owner l) s

/-- The L2s without their copies of a line. -/
def l2Without (m : SMap (List L2Line)) (base : Nat) : SMap (List L2Line) :=
  let d := (Config.homeDie base).val
  mapSet [] m d ((mapGet [] m d).filter (fun x => x.base ≠ base))

/-- An owner writes consecutive bytes at their home, whose lines take its tag in L2 (R51, R70). -/
def ownSetBytes (s : State) (owner ca pa : Nat) (bs : List Byte) : State :=
  l2TouchAll (homeSetBytes s (keyOr s owner) ca pa bs) owner (linesOf pa bs.length)

/-! ## L1 (R3, R70, R254) -/

/-- The lines that an L1 holds: 256 KiB. -/
def l1Lines : Nat := 1024

/-- The line of L1 at a base. -/
def l1Find (c : Core) (base : Nat) : Option L1Line := c.l1.find? (fun l => l.base = base)

/-- Applies `f` to the lines of a core's L1 that satisfy `p`. -/
def updL1 (s : State) (core : Nat) (p : L1Line → Bool) (f : L1Line → L1Line) : State :=
  let c := coreOf s core
  setCore s core { c with l1 := updateIf p f c.l1 }

/-- Writes a line's dirty bytes back to the home L2 under its own tag's key. -/
def l1WriteBack (s : State) (l : L1Line) : State :=
  let is := setBitsOf 256 l.dirty.toNat
  l2TouchAll (is.foldl (fun s i => homeSet s (keyOr s l.owner) l.ca (l.base + i) (mapGet 0 l.data i)) s) l.owner
    (if is.isEmpty then [] else [l.base])

/-- Drops a line from a core's L1, its dirty bytes written back first. -/
def l1Drop (s : State) (core base : Nat) : State :=
  match l1Find (coreOf s core) base with
  | none => s
  | some l =>
      let s := l1WriteBack s l
      let c := coreOf s core
      setCore s core { c with l1 := c.l1.filter (fun x => x.base ≠ base) }

/-- Writes every dirty line of a core's L1 back (R254, R270). -/
def l1WriteBackAll (s : State) (core : Nat) : State :=
  let s := (coreOf s core).l1.foldl l1WriteBack s
  let c := coreOf s core
  setCore s core { c with l1 := c.l1.map (fun l => { l with dirty := 0 }) }

/-- Writes back and drops every line of a core's L1 that an owner could read (R267, R270). -/
def l1DropAll (s : State) (core : Nat) : State :=
  ((coreOf s core).l1.map (·.base)).foldl (fun s b => l1Drop s core b) s

/-- Makes room for a line in a core's L1: of a full one the line that was filled first leaves (R3). -/
def l1Room (s : State) (core : Nat) : State :=
  let c := coreOf s core
  if c.l1.length < l1Lines then s
  else match c.l1.getLast? with
    | some l => l1Drop s core l.base
    | none => s

/-- Makes a line present in a core's L1 for an owner: another owner's line counts as a miss (R70), and so does one that was
filled under another cache attribute, whose dirty bytes go home under their own (R51, R52). -/
def l1Fill (s : State) (core owner ca base : Nat) : State :=
  let hit :=
    match l1Find (coreOf s core) base with
    | some l => l.owner == owner && l.ca == ca
    | none => false
  if hit then s
  else
    let s := l1Room (l1Drop s core base) core
    let s := l2Touch (readThrough s ca base) owner base
    let c := coreOf s core
    setCore s core { c with l1 := ⟨base, ca, owner, homeLine s (keyOr s owner) base, 0, 0⟩ :: c.l1 }

/-- Writes one byte into a line of L1, setting its dirty flag. -/
def l1Set (s : State) (core owner ca pa : Nat) (b : Byte) : State :=
  let s := l1Fill s core owner ca (lineOf pa)
  updL1 s core (fun l => l.base = lineOf pa)
    (fun l => { l with data := mapSet 0 l.data (pa % 256) b, dirty := setBits l.dirty (pa % 256) (pa % 256) 1 })

/-- An L1 line whose clean bytes among the n from an address take the values that they have at home. -/
def L1Line.freshen (l : L1Line) (s : State) (pa n : Nat) : L1Line :=
  { l with data := (List.range n).foldl (fun d i =>
      if bit l.dirty (pa % 256 + i) then d else mapSet 0 d (pa % 256 + i) (homeByte s (keyOr s l.owner) (pa + i))) l.data }

/-- The clean bytes of one word of a core's L1 line take the values that they have at home: copies of a line may come forward
piece by piece, and what one lane then reads of it may be newer than what another reads (R269, R288). The 16 bytes around
the word are noted as torn. -/
def l1Refresh (s : State) (core pa : Nat) : State :=
  updL1 s core (fun l => l.base = lineOf pa) (fun l =>
    { l.freshen s (pa / 4 * 4) 4 with torn := setBits l.torn (pa % 256 / 16) (pa % 256 / 16) 1 })

/-- The torn pieces of a core's L1 that some locations lie in come forward whole: one access of more than a word reads 16
aligned bytes of one age (R264, R269). -/
def l1Mend (s : State) (core : Nat) (ls : List Loc) : State :=
  (dedup (ls.filterMap (fun l => match l with | .mem pa _ => some (pa / 16 * 16) | .scr _ _ => none))).foldl (fun s pa =>
    updL1 s core (fun l => l.base = lineOf pa && bit l.torn (pa % 256 / 16)) (fun l =>
      { l.freshen s pa 16 with torn := setBits l.torn (pa % 256 / 16) (pa % 256 / 16) 0 })) s

/-! ## The write-combining buffer (R256) -/

/-- Whether two locations are one byte, whatever cache attribute each was reached through. -/
def Loc.same (a b : Loc) : Bool :=
  match a, b with
  | .mem p _, .mem q _ => p == q
  | .scr u o, .scr v n => u == v && o == n
  | _, _ => false

/-- Whether a store byte lies at a physical address of a range. -/
def StoreByte.inRange (lo hi : Nat) (b : StoreByte) : Bool :=
  match b.loc with
  | .mem pa _ => decide (lo ≤ pa) && decide (pa < hi)
  | .scr _ _ => false

/-- A byte that has been written at its home: a clean copy in the core's own L1 takes it too (R255). The 16 bytes around it are noted
as torn, since the others may be older than what the write has found at home (R264). -/
def l1Note (s : State) (core owner : Nat) (b : StoreByte) : State :=
  match b.loc with
  | .scr _ _ => s
  | .mem pa _ =>
      updL1 s core (fun l => l.base = lineOf pa && l.owner = owner && !bit l.dirty (pa % 256))
        (fun l => { l with
          data := mapSet 0 l.data (pa % 256) b.val, torn := setBits l.torn (pa % 256 / 16) (pa % 256 / 16) 1 })

/-- A byte of the write-combining buffer is written at its home. -/
def wcByteOut (s : State) (core owner : Nat) (b : StoreByte) : State :=
  match b.loc with
  | .scr _ _ => s
  | .mem pa ca => l1Note (homeSet s (keyOr s owner) ca pa b.val) core owner b

/-- The line bases of the memory bytes of a store. -/
def memLines (bs : List StoreByte) : List Nat :=
  dedup (bs.filterMap (fun b => match b.loc with | .mem pa _ => some (lineOf pa) | .scr _ _ => none))

/-- Writes an entry of the write-combining buffer to its home and removes it. -/
def wcEntryOut (s : State) (core : Nat) (e : WcEntry) : State :=
  let s := l2TouchAll (e.bytes.foldl (fun s b => wcByteOut s core e.owner b) s) e.owner (memLines e.bytes)
  let c := coreOf s core
  setCore s core { c with wc := c.wc.filter (fun x => x ≠ e) }

/-- Whether two entries write a common byte. -/
def WcEntry.overlaps (a b : WcEntry) : Bool := a.bytes.any (fun x => b.bytes.any (fun y => x.loc.same y.loc))

/-- The entries of a buffer, oldest first, that must go home when those that satisfy `p` do: an older entry of a byte goes
before a newer one (R255, R274). -/
def wcPick (p : WcEntry → Bool) : List WcEntry → List WcEntry
  | [] => []
  | e :: es =>
      let r := wcPick p es
      if p e || r.any e.overlaps then e :: r else r

/-- Writes the entries that satisfy `p` and the older ones that they overwrite, oldest first. -/
def wcOut (s : State) (core : Nat) (p : WcEntry → Bool) : State :=
  (wcPick p (coreOf s core).wc).foldl (fun s e => wcEntryOut s core e) s

/-- Writes the entries that touch a range. -/
def wcOutRange (s : State) (core lo hi : Nat) : State :=
  wcOut s core (fun e => e.bytes.any (StoreByte.inRange lo hi))

/-! ## Reading through the core (R104, R256, R276) -/

/-- The stores of a group's FIFO that touch bytes, oldest first. -/
def fifoBytes (g : Group) : List StoreByte :=
  g.fifo.flatMap (fun e =>
    match e with
    | .store _ _ _ bs => bs
    | .atomic _ => [])

/-- The newest value that a list of written bytes, oldest first, gives a location. -/
def overlay (l : Loc) (bs : List StoreByte) (d : Byte) : Byte :=
  bs.foldl (fun d b => if b.loc.same l then b.val else d) d

/-- A byte of a workgroup's scratchpad allocation. -/
def scratchByte (s : State) (uid off : Nat) : Byte :=
  match findWg s uid with
  | some w => mapGet 0 w.scratch off
  | none => 0

/-- The lines of memory locations, with the cache attributes of their pages. -/
def lineCas (ls : List Loc) : List (Nat × Nat) :=
  dedup (ls.filterMap (fun l => match l with | .mem pa ca => some (lineOf pa, ca) | .scr _ _ => none))

/-- Makes the lines of memory locations present in the core's L1; `home` reads bypass L1 (R270). -/
def touchLocs (s : State) (core owner : Nat) (ls : List Loc) : State :=
  (lineCas ls).foldl (fun s p => l1Fill s core owner p.2 p.1) s

/-- One byte as a group of a core reads it, its line being present: its FIFO, the write-combining buffer, L1, home. -/
def readLoc (s : State) (core owner : Nat) (g : Group) (l : Loc) : Byte :=
  match l with
  | .scr uid off => overlay l (fifoBytes g) (scratchByte s uid off)
  | .mem pa _ =>
      let c := coreOf s core
      let base :=
        match l1Find c (lineOf pa) with
        | some x => mapGet 0 x.data (pa % 256)
        | none => homeByte s (keyOr s owner) pa
      overlay l (fifoBytes g) (overlay l (c.wc.flatMap (·.bytes)) base)

/-- Lines are about to be read past a core's L1 (R51, R70, R270, R273): what the write-combining buffer holds of them is
written, so that the reader sees the stores before it (R281); another owner's copies in L1 are written back under their own
key and dropped, and the memory-side cache is used as the pages' attributes say. `keep` says that the lines take a place in
L2, as all reads but the non-temporal ones of BLD do (R198). -/
def touchHomeAs (keep : Bool) (s : State) (core owner : Nat) (ls : List Loc) : State :=
  (lineCas ls).foldl (fun s p =>
    let s := wcOutRange s core p.1 (p.1 + 256)
    let s := match l1Find (coreOf s core) p.1 with
      | some l => if l.owner = owner then s else l1Drop s core p.1
      | none => s
    let s := readThrough s p.2 p.1
    if keep then l2Touch s owner p.1 else s) (l1Mend s core ls)

/-- The same for a read by an engine or by a wide acquire, whose lines enter L2. -/
def touchHome (s : State) (core owner : Nat) (ls : List Loc) : State := touchHomeAs true s core owner ls

/-- One byte as an acquire of CLUSTER scope or wider reads it, its line having been touched: at the home L2, and still the
core's own dirty, write-combined and queued bytes (R270). -/
def readLocHome (s : State) (core owner : Nat) (g : Group) (l : Loc) : Byte :=
  match l with
  | .scr uid off => overlay l (fifoBytes g) (scratchByte s uid off)
  | .mem pa _ =>
      let c := coreOf s core
      let base :=
        match l1Find c (lineOf pa) with
        | some x =>
            if bit x.dirty (pa % 256) ∧ x.owner = owner then mapGet 0 x.data (pa % 256) else homeByte s (keyOr s owner) pa
        | none => homeByte s (keyOr s owner) pa
      overlay l (fifoBytes g) (overlay l (c.wc.flatMap (·.bytes)) base)

/-! ## Writing -/

/-- Writes a byte of a workgroup's scratchpad. -/
def scratchSet (s : State) (uid off : Nat) (b : Byte) : State :=
  updWg s uid (fun w => { w with scratch := mapSet 0 w.scratch off b })

/-- A plain store byte that leaves the FIFO: into L1 or scratchpad (R254). Older non-temporal bytes go home first. -/
def storeByteOut (s : State) (core owner : Nat) (b : StoreByte) : State :=
  match b.loc with
  | .scr uid off => scratchSet s uid off b.val
  | .mem pa ca => l1Set (wcOutRange s core pa (pa + 1)) core owner ca pa b.val

/-- The cores of a cluster (R1). -/
def clusterCores (cl : Nat) : List Nat := [4 * cl, 4 * cl + 1, 4 * cl + 2, 4 * cl + 3]

/-- A memory line leaves every L1 of a cluster, dirty and write-combined bytes of it written back first (R273). -/
def clusterDrop (s : State) (cl line : Nat) : State :=
  (clusterCores cl).foldl (fun s c => l1Drop (wcOutRange s c line (line + 256)) c line) s

/-- One byte at its home or in a scratchpad, its line already out of the cluster's L1s. -/
def engineByteOut (s : State) (owner : Nat) (b : StoreByte) : State :=
  match b.loc with
  | .scr uid off => scratchSet s uid off b.val
  | .mem pa ca => homeSet s (keyOr s owner) ca pa b.val

/-- Bytes at their homes or in scratchpads, their lines an owner's in L2 (R70). -/
def engineOut (s : State) (owner : Nat) (bs : List StoreByte) : State :=
  l2TouchAll (bs.foldl (fun s b => engineByteOut s owner b) s) owner (memLines bs)

/-- An engine's write of bytes for a cluster: performed at the home L2, the lines dropped from every L1 of the cluster
(R273). -/
def engineSetAll (s : State) (cl owner : Nat) (bs : List StoreByte) : State :=
  engineOut ((memLines bs).foldl (fun s l => clusterDrop s cl l) s) owner bs

/-! ## Page tables (R54–R57) -/

/-- The shift of the virtual bits that a level indexes; level 3 is the root. -/
def levelShift : Nat → Nat
  | 0 => 16 | 1 => 21 | 2 => 30 | _ => 45

/-- The number of entries of a table. -/
def levelEntries : Nat → Nat
  | 0 => 32 | 1 => 512 | _ => 32768

/-- The span of virtual addresses under one entry; for a leaf, its page size. -/
def levelSpan (l : Nat) : Nat := 2 ^ levelShift l

/-- The size and alignment of a table. -/
def tableSize (l : Nat) : Nat := 8 * levelEntries l

/-- The physical address of an entry. -/
def entryPa (table l va : Nat) : Nat := table + 8 * (va / levelSpan l % levelEntries l)

/-- An entry's address field: ADDR or BACKING. -/
def entryAddr (e : Nat) : Nat := e / 256 % 2 ^ 46 * 256

/-- Bit `i` of an entry. -/
def ebit (e i : Nat) : Bool := e / 2 ^ i % 2 == 1

/-- A malformed entry (R57). An entry with P = 1, LEAF = 0 and MIG = 1 is one of them: R55 says that MIG is then zero, and the
model takes the other value as malformed (log entry 78). -/
def malformed (s : State) (l e : Nat) : Bool :=
  let leaf := ebit e 2
  if e / 2 ^ 54 ≠ 0 then true
  else if (leaf && l == 3) || (!leaf && l == 0) then true
  else if !ebit e 0 then ebit e 1 || ebit e 6 || ebit e 7 || (!leaf && (ebit e 3 || ebit e 4 || ebit e 5))
  else
    let ca := e / 64 % 4
    let a := entryAddr e
    if ca = 3 then true
    else if !leaf then ca != 0 || ebit e 1 || a % tableSize (l - 1) != 0 || !inNear s a (tableSize (l - 1))
    else if a % levelSpan l ≠ 0 then true
    else if inNear s a (levelSpan l) then ca != 0
    else !inPool s a (levelSpan l)

/-- What a walk finds (R54–R57): the level, the entry's physical address and the entry. -/
inductive Walk where
  | unmapped
  | malformed
  | nonres (l epa e : Nat)
  | leaf (l epa e : Nat)
  deriving DecidableEq, Repr

/-- What the entry of an address in a table ends the walk with; none where it points to a table of the next level. -/
def walkEntry (s : State) (l epa e : Nat) : Option Walk :=
  if e = 0 then some .unmapped
  else if malformed s l e then some .malformed
  else if !ebit e 0 then some (.nonres l epa e)
  else if ebit e 2 then some (.leaf l epa e)
  else none

/-- The entry of an address in a table, as walks see it. -/
def entryOf (s : State) (va l table : Nat) : Nat := memNum s.xmem (entryPa table l va) 8

/-- The walk from a table at a level; a table of the last level has no table below it. -/
def walkFrom (s : State) (va : Nat) : Nat → Nat → Walk
  | 0, table => (walkEntry s 0 (entryPa table 0 va) (entryOf s va 0 table)).getD .malformed
  | l + 1, table =>
      match walkEntry s (l + 1) (entryPa table (l + 1) va) (entryOf s va (l + 1) table) with
      | some w => w
      | none => walkFrom s va l (entryAddr (entryOf s va (l + 1) table))

/-- The walk of a region's tables (R54). A root that R54 does not allow is walked as it stands (log entry 79). -/
def walk (s : State) (root va : Nat) : Walk := walkFrom s va 3 root

/-- The physical address of a virtual address under a leaf. -/
def leafPa (l e va : Nat) : Nat := entryAddr e / levelSpan l * levelSpan l + va % levelSpan l

/-- The permissions that an access asks of a leaf (R59). -/
inductive Need where
  | r | w | rw | x
  deriving DecidableEq, Repr

/-- The outcome of one translation (R58, R63, R65, R71). -/
inductive Xl where
  | ok (pa ca : Nat) (mig : Bool)
  | page (sub : Nat)
  | prot (sub : Nat)
  deriving DecidableEq, Repr

/-- The physical pages that hold a launch's code: (base, size) (R15). They are those of its own kernel, also while it runs the
region's trap handler: the model's choice of log entry 113. -/
def codePages (s : State) (ln : Launch) : List (Nat × Nat) :=
  let lo := ln.kernel.toNat / 65536
  let hi := (ln.kernel.toNat + 63 + 4 * ln.codeLen) / 65536
  if ln.codeLen = 0 then []
  else (List.range (hi + 1 - lo)).filterMap (fun i =>
    match walk s ln.ptroot (65536 * (lo + i)) with
    | .leaf l _ e => some (entryAddr e / levelSpan l * levelSpan l, levelSpan l)
    | _ => none)

/-- Whether a page under a leaf holds the launch's code. -/
def holdsCode (s : State) (ln : Launch) (l e : Nat) : Bool :=
  let b := entryAddr e / levelSpan l * levelSpan l
  (codePages s ln).any (fun p => decide (b < p.1 + p.2) && decide (p.1 < b + levelSpan l))

/-- Translation for a launch (R58, R59, R71), with the lowest subcode that applies to the line. Instruction fetch
reads the cause apart (R357). No table maps an address of 2^60 or more (R4, R53): where the module itself forms one, such as a
TRAPH with a bit of [63:60] set, the model finds it unmapped (log entry 23). -/
def translate (s : State) (ln : Launch) (need : Need) (va : Nat) : Xl :=
  if 2 ^ 60 ≤ va then .page 1
  else
  match walk s ln.ptroot va with
  | .unmapped => .page 1
  | .nonres _ _ _ => .page 2
  | .malformed => .prot 3
  | .leaf l _ e =>
      let r := ebit e 3
      let w := ebit e 4
      let okPerm :=
        match need with
        | .r => r
        | .w => w
        | .rw => r && w
        | .x => ebit e 5
      let writes := need == .w || need == .rw
      if !okPerm then .prot 1
      else if writes && holdsCode s ln l e then .prot 2
      else if (keyVal s ln.owner).isNone then .prot 4
      else .ok (leafPa l e va) (e / 64 % 4) (ebit e 1)

/-- The module reads n bytes at a virtual address for itself: instructions, headers, handle tables, tape records. The pool
lines of them that translate go through the memory-side cache as their pages' attributes say (R51, R52). -/
def virtTouch (s : State) (ln : Launch) (need : Need) (va n : Nat) : State :=
  (linesOf va n).foldl (fun s l =>
    match translate s ln need l with
    | .ok pa ca _ => readThrough s ca pa
    | _ => s) s

end Sys2Proof.Machine
end

