-- ==== Sys2Proof/Machine/Region.lean ====
section
/-! DEFINITION. The structures of memory that the module reads and writes for itself: region control blocks (R307,
R308), launch and tape records (R310, R330), kernel headers (R31), save records (R354), and notifications (R372). -/

namespace Sys2Proof.Machine

/-! ## Module accesses to memory -/

/-- A little-endian number of n bytes as the line's last writer gives them. -/
def plainNum (s : State) (pa n : Nat) : Nat := ofBytes ((List.range n).map (fun i => plainByte s (pa + i)))

/-- Writes one byte, leaving the key of its line as it is. -/
def plainSetByte (s : State) (pa : Nat) (b : Byte) : State :=
  match mscFind s (lineOf pa) with
  | some _ => updMsc s (lineOf pa) (fun l => { l with data := mapSet 0 l.data (pa % 256) b, dirty := true })
  | none => { s with mem := memSet s.mem pa b }

/-- Writes consecutive bytes, leaving the keys of their lines as they are. -/
def plainSet (s : State) (pa : Nat) : List Byte → State
  | [] => s
  | b :: bs => plainSet (plainSetByte s pa b) (pa + 1) bs

/-- Writes a number of n bytes. -/
def plainSetNum (s : State) (pa n v : Nat) : State := plainSet s pa (leBytes n v)

/-- A number of n bytes at a virtual address that the module reads through a region's tables (R379): none where the
translation fails. The launch stands for its root, owner and code. -/
def virtNum (s : State) (ln : Launch) (va n : Nat) : Option Nat :=
  match translate s ln .r va with
  | .ok pa _ _ => some (ofBytes (homeBytes s (keyOr s ln.owner) pa n))
  | _ => none

/-- Bits [hi:lo] of a number. -/
def nbits (x hi lo : Nat) : Nat := x / 2 ^ lo % 2 ^ (hi + 1 - lo)

/-! ## Region control blocks (R307, R308) -/

/-- The 4,096 bits of an RCB. -/
def rcbAt (s : State) (pa : Nat) : Nat := plainNum s pa 512

/-- Field [hi:lo] of the RCB at an address, read from the bytes that hold it. -/
def rcbField (s : State) (pa hi lo : Nat) : Nat :=
  nbits (plainNum s (pa + lo / 8) (hi / 8 + 1 - lo / 8)) (hi - lo / 8 * 8) (lo % 8)

def rcbParent (s : State) (pa : Nat) : Nat := rcbField s pa 63 0
def rcbOvr (s : State) (pa : Nat) : Nat := rcbField s pa 489 480
def rcbStopped (s : State) (pa : Nat) : Bool := rcbField s pa 672 672 == 1
def rcbTapeRun (s : State) (pa : Nat) : Bool := rcbField s pa 673 673 == 1
def rcbLcount (s : State) (pa : Nat) : Nat := rcbField s pa 671 640
def rcbQhead (s : State) (pa : Nat) : Nat := rcbField s pa 575 512
def rcbQtail (s : State) (pa : Nat) : Nat := rcbField s pa 639 576
def rcbTapesp (s : State) (pa : Nat) : Nat := rcbField s pa 447 416
def rcbTarea (s : State) (pa : Nat) : Nat := rcbField s pa 1023 960
def rcbTcompl (s : State) (pa : Nat) : Nat := rcbField s pa 767 704
def rcbFcount (s : State) (pa : Nat) : Nat := rcbField s pa 799 768
def rcbFcause (s : State) (pa : Nat) : Nat := rcbField s pa 869 864

/-- A validity condition of R308 on one RCB, without its chain. -/
def rcbOk (s : State) (pa : Nat) : Bool :=
  let zero (hi lo : Nat) := rcbField s pa hi lo == 0
  pa % 512 == 0 && inNear s pa 512
    && zero 2047 1280 && zero 895 880 && zero 871 870 && zero 703 674 && zero 511 490 && zero 479 473 && zero 463 462
    && zero 455 454
    && decide (1 ≤ rcbField s pa 472 464) && decide (rcbField s pa 472 464 ≤ 256)
    && (rcbParent s pa != 0 || rcbOvr s pa == 0x3FF)

/-- The chain from a region to its root, the region first; none where an RCB of it is invalid or it is longer than
the fuel (R308). -/
def rcbChainN (s : State) : Nat → Nat → Option (List Nat)
  | 0, _ => none
  | n + 1, pa =>
      if rcbOk s pa then
        if rcbParent s pa = 0 then some [pa]
        else
          match rcbChainN s n (rcbParent s pa) with
          | some c => some (pa :: c)
          | none => none
      else none

/-- The chain of a region, at most 8 long (R308). -/
def rcbChain (s : State) (pa : Nat) : Option (List Nat) := rcbChainN s 8 pa

/-- The RCB of a chain whose OVR bit for a field is 1, nearest first (R308). -/
def rcbFor (s : State) (chain : List Nat) (k : Nat) : Nat :=
  ((chain.find? (fun pa => rcbOvr s pa / 2 ^ k % 2 == 1)).getD (chain.getLastD 0))

/-- A resolved field (R308): the bits [hi:lo] of the nearest RCB that overrides field k. -/
def resolved (s : State) (chain : List Nat) (k hi lo : Nat) : Nat := rcbField s (rcbFor s chain k) hi lo

/-- The resolved watch slots (R307, R308), each at its number, zero slots unlisted. -/
def resolvedWatch (s : State) (chain : List Nat) : SMap (BitVec 256) :=
  let pa := rcbFor s chain 9
  (List.range 8).foldl (fun m k =>
    mapSet 0 m k (BitVec.ofNat 256 (rcbField s pa (2303 + 256 * k) (2048 + 256 * k)))) []

/-- A bound of a watch slot: LOk and HIk (R346). -/
def watchLo (w : BitVec 256) (k : Nat) : Nat :=
  match k with
  | 0 => bits w 159 128 | 1 => bits w 223 192 | 2 => bits w 79 64 | _ => bits w 111 96
def watchHi (w : BitVec 256) (k : Nat) : Nat :=
  match k with
  | 0 => bits w 191 160 | 1 => bits w 255 224 | 2 => bits w 95 80 | _ => bits w 127 112

/-- A valid watch slot (R346). -/
def watchValid (w : BitVec 256) : Bool :=
  bits w 63 40 == 0 && bits w 37 36 == 0
    && (List.range 4).all (fun k => decide (watchLo w k ≤ watchHi w k))

/-! ## Kernel headers (R31) -/

def hdWidth (h : Nat) : Nat := 8 * 2 ^ nbits h 33 32
def hdRegs (h : Nat) : Nat := 8 * nbits h 44 40
def hdScratch (h : Nat) : Nat := nbits h 77 64
def hdAccRows (h : Nat) : Nat := nbits h 107 96
def hdBslots (h : Nat) : Nat := nbits h 120 112
def hdTeam (h t : Nat) : Nat := nbits h (131 + 4 * t) (128 + 4 * t)
def hdTeams (h : Nat) : List Nat := (List.range 8).map (hdTeam h)
def hdCodeLen (h : Nat) : Nat := nbits h 191 160
def hdDataOfs (h : Nat) : Nat := nbits h 223 192

/-- A valid kernel header (R31). -/
def headerOk (h : Nat) : Bool :=
  nbits h 31 0 == 0x4A580001 && nbits h 39 34 == 0 && nbits h 63 45 == 0 && nbits h 95 78 == 0
    && nbits h 111 108 == 0 && nbits h 127 121 == 0 && nbits h 511 224 == 0
    && decide (8 ≤ hdRegs h) && decide (hdRegs h ≤ 192) && decide (hdScratch h ≤ 8192)
    && decide (hdAccRows h ≤ 2048) && hdAccRows h % 8 == 0 && decide (hdBslots h ≤ 256)
    && (hdTeams h).all (fun t => decide (t ≠ 1) && decide (t ≤ 8)) && decide (1 ≤ hdCodeLen h)

/-! ## Save records (R354) -/

/-- The size of a workgroup's save record in 64 KiB units (R354). -/
def recordUnits (ln : Launch) : Nat :=
  let size := 16384 + ln.gpw * (20480 + ln.width * (64 + 4 * ln.nregs)) + 128 * ln.scratch
    + 128 * ((ln.scratch + 1023) / 1024) + 1024 * ln.accRows + 256 * ln.bslots
  (size + 65535) / 65536

/-- The base of a workgroup's save record. -/
def recordBase (s : State) (w : Wg) : Nat := s.mcb.saveb + 65536 * w.recUnit

/-- The trap frame of a group (R336, R354). -/
def frameBase (s : State) (w : Wg) (g : Nat) : Nat := recordBase s w + 0x4000 + 20480 * g

/-- Writes a block of whole lines of near memory under a key, every byte of it; no L2 keeps a copy of them (R70). -/
def putBlockKeyed (s : State) (key : BitVec 512) (base n : Nat) (b : SMap Byte) : State :=
  { s with
    mem := memPutBlock s.mem base n b
    l2 := (List.range (n / 256)).foldl (fun m i => l2Without m (base + 256 * i)) s.l2
    lineKeys := (List.range (n / 256)).foldl (fun m i => mapPut m (base + 256 * i) key) s.lineKeys }

/-- A word of near memory under a key. -/
def keyedNum (s : State) (key : BitVec 512) (pa n : Nat) : Nat := ofBytes (homeBytes s key pa n)

/-- Writes a number of n bytes of near memory for an owner. -/
def keyedSetNum (s : State) (owner pa n v : Nat) : State := ownSetBytes s owner 0 pa (leBytes n v)

/-- The offset of the lane blocks in a save record (R354). -/
def recLanes (ln : Launch) : Nat := 16384 + 20480 * ln.gpw
/-- The offset of the vector registers. -/
def recVregs (ln : Launch) : Nat := recLanes ln + 64 * ln.width * ln.gpw
/-- The offset of the scratchpad image. -/
def recScratch (ln : Launch) : Nat := recVregs ln + 4 * ln.nregs * ln.width * ln.gpw
/-- The offset of the presence bits. -/
def recPresence (ln : Launch) : Nat := recScratch ln + 128 * ln.scratch

/-- Byte k of the presence bits of a workgroup: bit j for line j. -/
def presenceByte (ln : Launch) (w : Wg) (k : Nat) : Nat :=
  ((List.range 8).map (fun b =>
    bitOf (decide (8 * k + b < ln.scratch) && !w.absent.contains (8 * k + b)) * 2 ^ b)).foldl (· + ·) 0

/-- One scratchpad line of a saved workgroup as its record holds it: the bytes and the presence bit. -/
def syncLine (ln : Launch) (w : Wg) (s : State) (line : Nat) : State :=
  let s := keyedSetNum s w.owner (recordBase s w + recScratch ln + 128 * line) 128
    (ofBytes ((List.range 128).map (fun i => mapGet 0 w.scratch (128 * line + i))))
  keyedSetNum s w.owner (recordBase s w + recPresence ln + line / 8) 1 (presenceByte ln w (line / 8))

/-- What has come to some scratchpad lines of a workgroup stands in its save record, if it is saved (R121, R356). -/
def syncLines (s : State) (uid : Nat) (lines : List Nat) : State :=
  match findWg s uid with
  | none => s
  | some w =>
      if w.status = .saved then
        match findLaunch s w.launch with
        | some ln => (dedup lines).foldl (syncLine ln w) s
        | none => s
      else s

/-! ## Notifications (R372) -/

/-- A valid queue is named. -/
def queueNamed (m : Mcb) : Bool := m.nqbase != 0 && decide (4 ≤ m.nqlog) && decide (m.nqlog ≤ 16)

/-- No entry is free. -/
def queueFull (m : Mcb) : Bool := (m.nqtail - m.nqhead).toNat == 2 ^ m.nqlog

/-- The 32 bytes of an entry. -/
def Notif.bytes (n : Notif) : List Byte :=
  leBytes 32 (n.kind + 2 ^ 32 * n.status + 2 ^ 48 * n.tag.toNat + 2 ^ 64 * n.arg0.toNat + 2 ^ 128 * n.arg1.toNat
    + 2 ^ 192 * n.arg2.toNat)

/-- Writes an entry at NQTAIL and raises it. -/
def writeNotif (s : State) (n : Notif) : State :=
  let s := plainSet s (s.mcb.nqbase + 32 * (s.mcb.nqtail.toNat % 2 ^ s.mcb.nqlog)) n.bytes
  { s with mcb := { s.mcb with nqtail := s.mcb.nqtail + 1 } }

/-- Notifications that wait for a host answer (R372). -/
def waitsForHost (kind : Nat) : Bool := kind == 2 || kind == 3 || kind == 4

/-- Posts a notification: written, held behind a full queue or until a queue is named, or discarded (R372). -/
def post (s : State) (n : Notif) : State :=
  if queueNamed s.mcb then
    if queueFull s.mcb || !s.held.isEmpty then { s with held := s.held ++ [n] } else writeNotif s n
  else if waitsForHost n.kind then { s with held := s.held ++ [n] }
  else s

/-- Writes held notifications in their order while there is room; fuel is their number. -/
def drainHeldN : Nat → State → State
  | 0, s => s
  | k + 1, s =>
      match s.held with
      | [] => s
      | n :: ns =>
          if queueNamed s.mcb && !queueFull s.mcb then drainHeldN k (writeNotif { s with held := ns } n) else s

/-- Writes as many held notifications as fit. -/
def drainHeld (s : State) : State := drainHeldN s.held.length s

/-- A notification whose TAG and STATUS are zero. -/
def notif (kind a0 a1 a2 : Nat) : Notif :=
  ⟨kind, 0, 0, BitVec.ofNat 64 a0, BitVec.ofNat 64 a1, BitVec.ofNat 64 a2⟩

/-- The identity of a group in the commands and notifications of the host: workgroup identity and group index. -/
def groupId (k : GKey) : Nat := k.wg * 64 + k.g
/-- The group that a host's group id names. -/
def groupOfId (n : Nat) : GKey := ⟨n / 64, n % 64⟩

end Sys2Proof.Machine
end

