-- ==== Sys2Proof/Machine/Rounds.lean ====
section
/-! DEFINITION. What the end of a group or of an operation sets off: retirement by class (R139), the order of operations on
accumulator rows (R215) and on B-stack slots (R195–R197), and team rounds that can no longer be completed (R208). -/

namespace Sys2Proof.Machine

/-! ## Retirement (R139) -/

/-- Drops the finished operations at the head of a class: completions are counted in issue order (R139). -/
def retireHead : List Op → List Op
  | [] => []
  | o :: os => if o.done then retireHead os else o :: os

/-- The identities that a class of a group has retired but the state still lists. -/
def retired (s : State) (k : GKey) (cls : OpClass) : List Nat :=
  let all := classOps s k cls
  (all.take (all.length - (retireHead all).length)).map (·.id)

/-- Removes the retired operations of a class of a group. -/
def retireClass (s : State) (k : GKey) (cls : OpClass) : State :=
  let out := retired s k cls
  { s with ops := s.ops.filter (fun o => !out.contains o.id) }

/-- An operation has completed: its hit, if any, waits to be observed through its counter and the given other ways
(R348), and it retires when it heads its class. -/
def finishOp (s : State) (id : Nat) (via : List Via) : State :=
  match findOp s id with
  | none => s
  | some o =>
      let s := match o.hit with
        | none => s
        | some h => { s with hits := s.hits ++ [⟨id, o.eop, o.ord, o.cls, h, .counter o.grp o.cls :: via, o.seen⟩] }
      if o.cls = .none then { s with ops := s.ops.filter (fun x => x.id ≠ id) }
      else retireClass (updOp s id (fun x => { x with done := true })) o.grp o.cls

/-! ## Order within a group (R215) -/

/-- The rows that an accumulator operation has still to act on, as first row and number. -/
def accSpans (o : Op) : List (Nat × Nat) :=
  if o.done then []
  else
    match o.kind with
    | .matrix rows => rows.map (fun r => (r, 8))
    | .team a => [(a.row0, 8 * a.size)]
    | .accrd els => els.map (fun e => (e.row, 1))
    | .accwr els => els.map (fun e => (e.row, 1))
    | .accpatch _ els => els.map (fun e => (e.row, 1))
    | .accz r n => [(r, n)]
    | .accst _ r n _ _ _ _ => [(r, n)]
    | _ => []

/-- Whether two lists of row spans meet. -/
def spansMeet (xs ys : List (Nat × Nat)) : Bool :=
  xs.any (fun x => ys.any (fun y => decide (x.1 < y.1 + y.2) && decide (y.1 < x.1 + x.2)))

/-- No accumulator operation of the group older than operation `id` has still to act on these rows. -/
def accTurn (s : State) (k : GKey) (id : Nat) (spans : List (Nat × Nat)) : Bool :=
  s.ops.all (fun o => o.grp != k || decide (id ≤ o.id) || !spansMeet (accSpans o) spans)

/-- An operation's turn on all its rows. -/
def accReady (s : State) (o : Op) : Bool := !o.done && accTurn s o.grp o.id (accSpans o)

/-- Every element of some rows becomes +0 (R219). -/
def zeroRows (s : State) (uid row n : Nat) : State :=
  let s := updWg s uid (fun w =>
    { w with acc := w.acc.filter (fun e => !(decide (256 * row ≤ e.1) && decide (e.1 < 256 * (row + n)))) })
  if s.poison.isEmpty then s
  else { s with poison := s.poison.filter (fun p => match p with
      | .acc u r _ => !(u == uid && decide (row ≤ r) && decide (r < row + n))
      | _ => true) }

/-- An ACCZ whose turn has come takes effect. -/
def tryAccz (s : State) (id : Nat) : State :=
  match findOp s id with
  | some o =>
      match o.kind with
      | .accz r n => if accReady s o then finishOp (zeroRows s o.grp.wg r n) id [] else s
      | _ => s
  | none => s

/-- Every ACCZ of a group whose turn has come takes effect, in issue order. -/
def runAccz (s : State) (k : GKey) : State :=
  ((s.ops.filter (fun o => o.grp = k)).map (·.id)).foldl tryAccz s

/-- A tile operation has completed. -/
def finishTile (s : State) (id : Nat) (via : List Via) : State :=
  match findOp s id with
  | some o => runAccz (finishOp s id via) o.grp
  | none => s

/-! ## Slots and slot order (R195–R197) -/

/-- A slot that nothing has loaded. -/
def BSlot.fresh (launch n : Nat) : BSlot :=
  { launch := launch, slot := n, image := 0, idx := 0, lgen := 0, ncol := 0, nt := false, t := false, fmt := 0, psub := 0,
    state := .empty, tile := [], steps := [], ordFmt := 0, ordState := .empty }

/-- A slot of a launch on a cluster. -/
def bslotGet (s : State) (cl launch n : Nat) : BSlot :=
  ((clusterOf s cl).bslots.find? (fun b => b.launch = launch && b.slot = n)).getD (BSlot.fresh launch n)

/-- Writes a slot. -/
def bslotSet (s : State) (cl : Nat) (b : BSlot) : State :=
  let c := clusterOf s cl
  let rest := c.bslots.filter (fun x => !(x.launch = b.launch && x.slot = b.slot))
  setCluster s cl { c with bslots := rest ++ [b] }

/-- The tile rows of a format (R194). -/
def tileK : Nat → Nat
  | 4 | 10 => 128 | 8 => 512 | _ => 256

/-- In-bounds columns (R198). -/
def tileCols (h : Handle) (i : Nat) (t : Bool) : Nat :=
  let q := elemCoords h i
  if t then min 256 (hExt h 1 - nth q 1) else min 256 (hExt h 0 - nth q 0)

/-- A load takes effect: the slot captures it (R198). -/
def BSlot.begin (b : BSlot) (o : BldOp) : BSlot :=
  { b with
    image := o.h, idx := BitVec.ofNat 32 o.idx, ncol := tileCols o.h o.idx o.t, nt := o.nt, t := o.t
    fmt := BitVec.ofNat 4 (hFmt o.h), psub := 0, state := .loading, tile := [] }

/-- The steps at the head of slot order take effect until one has to wait (R197). A BFREE leaves PSUB zero and no tile, of which
R200 says nothing: the model's choice of log entry 116. -/
def slotPump (s : State) : Nat → BSlot → BSlot
  | 0, b => b
  | n + 1, b =>
      match b.steps with
      | .free :: rest => slotPump s n { b with state := .empty, psub := 0, tile := [], steps := rest }
      | .load op :: _ =>
          if b.state = .loading then b
          else
            match findOp s op with
            | some o => match o.kind with
              | .bld p => b.begin p
              | _ => b
            | none => b
      | _ => b

/-- The slot with a step added at the end of slot order, and what can take effect done. -/
def slotStep (s : State) (cl : Nat) (b : BSlot) (st : SlotStep) : State :=
  bslotSet s cl (slotPump s (b.steps.length + 1) { b with steps := b.steps ++ [st] })

/-- The reads that may run now: those before any load or free (R197). -/
def readsReady : List SlotStep → List Nat
  | .read e :: rest => e :: readsReady rest
  | _ => []

/-- An entry has read its slot (R197). -/
def slotRead (s : State) (cl launch n entry : Nat) : State :=
  let b := bslotGet s cl launch n
  let st := b.steps.filter (fun x => x ≠ .read entry)
  bslotSet s cl (slotPump s (st.length + 1) { b with steps := st })

/-- Whether a step changes what a slot holds. -/
def SlotStep.changes : SlotStep → Bool
  | .read _ => false
  | _ => true

/-- The steps that satisfy `p` leave the slot order of every slot, and what stood behind them takes effect. -/
def dropSteps (s : State) (p : SlotStep → Bool) : State :=
  let pump (s : State) (b : BSlot) : BSlot :=
    let st := b.steps.filter (fun x => !p x)
    slotPump s (st.length + 1) { b with steps := st }
  { s with clusters := s.clusters.map (fun c =>
      (c.1, { c.2 with bslots := updateIf (fun b => b.steps.any p) (pump s) c.2.bslots })) }

/-! ## Team rounds (R207, R208) -/

/-- The first octet of a team in the workgroup. -/
def teamFirst (ln : Launch) (t : Nat) : Nat := (ln.teams.take t).foldl (· + ·) 0

/-- The octets of a team. -/
def teamSize (ln : Launch) (t : Nat) : Nat := ln.teams.getD t 0

/-- The arrivals of a team's round in a workgroup. -/
def arrivalsOf (s : State) (wg t m : Nat) : List (Op × TeamArrival) :=
  s.ops.filterMap (fun o =>
    match o.kind with
    | .team a => if !o.done && o.grp.wg == wg && a.team == t && a.round == m then some (o, a) else none
    | _ => none)

/-- The B operand that the octets of an entry share. -/
def entryB (e : Resv) : Option BRef :=
  match e.octets with
  | o :: _ => some o.b
  | [] => none

/-- The B operand of an entry has been read. -/
def entryRead (s : State) (cl : Nat) (e : Resv) : State :=
  match entryB e with
  | some (.slot n _) => slotRead s cl e.launch n e.id
  | _ => s

/-- A failed round (R208): its entry goes, each arrived member's counter entry retires, and its group has a TEAM trap
to take. -/
def failRound (s : State) (cl : Nat) (e : Resv) (t m sub : Nat) : State :=
  let c := clusterOf s cl
  let s := setCluster s cl { c with resv := c.resv.filter (fun x => x.id ≠ e.id) }
  let s := entryRead s cl e
  (arrivalsOf s e.wg t m).foldl (fun s p =>
    let s := updGroup s p.1.grp (fun g => { g with teamFails := g.teamFails ++ [⟨m, sub, p.2.mask, p.1.eop, false⟩] })
    finishTile (updOp s p.1.id (fun o => { o with hit := none })) p.1.id []) s

/-- Whether a member of an open round that has not arrived can no longer arrive (R208). -/
def cannotArrive (s : State) (ln : Launch) (wg t m i : Nat) : Bool :=
  let per := ln.width / 8
  let n := teamFirst ln t + i
  !(arrivalsOf s wg t m).any (fun p => p.2.member = i)
    && (match findGroup s ⟨wg, n / per⟩ with
        | none => true
        | some g => !(g.live.any (fun l => decide (l / 8 = n % per))))

/-- Fails the open rounds that can no longer be completed (R208). -/
def failTeamRounds (s : State) : State :=
  s.clusters.foldl (fun s p =>
    (p.2.resv.filter (fun e => !e.complete)).foldl (fun s e =>
      match e.team, findLaunch s e.launch with
      | some (t, m), some ln =>
          if (List.range (teamSize ln t)).any (cannotArrive s ln e.wg t m) then failRound s p.1 e t m 1 else s
      | _, _ => s) s) s

end Sys2Proof.Machine
end

