-- ==== Sys2Proof/Machine/Ops.lean ====
section
/-! DEFINITION. What every instruction shares: the population at the focus of issue, the ways an instruction can stop,
the commit of an issue, taking a trap (R334–R340), ending groups under the fault-domain policy (R309), and the return
from a trap (R343). -/

namespace Sys2Proof.Machine

/-- The outcome of one step of this machine. -/
abbrev Result := Host.Outcome State Fault Refusal

/-- How an instruction at the focus can stop without completing. -/
inductive Stop where
  /-- A precise trap: nothing commits (R334). -/
  | trap (t : TrapInfo)
  /-- A trap that falls after an effect that stands (R188, R259, R343, R348). -/
  | trapIn (t : TrapInfo) (s : State)
  /-- Parked before acceptance (R65, R127). -/
  | park (why : ParkWhy)
  /-- Parked after an effect that stands: the first halves of a PST (R259). -/
  | parkIn (why : ParkWhy) (s : State)
  /-- Held at a wait, in the state after the joins that the access to it has observed (R127, R318). -/
  | hold (why : HoldWhy) (s : State)
  /-- Not ready, so not issued (R318). -/
  | notReady
  deriving DecidableEq, Repr

/-- A trap with its cause and subcode, all lanes of the population (an empty mask stands for them) and every other
field of the frame zero (R336). -/
def mkTrap (cause sub : Nat) : TrapInfo :=
  { cause := cause, sub := sub, mask := 0, len := 0, addr := 0, coord := [], tag := 0, aux := 0, code := 0, half := 0,
    eopid := 0, eopcls := 0, wskip := false }

/-! ## Trap causes (R335) -/

def cIllegal : Nat := 0x01
def cOperand : Nat := 0x02
def cNonuniform : Nat := 0x03
def cSpbound : Nat := 0x04
def cOob : Nat := 0x05
def cAlign : Nat := 0x06
def cPage : Nat := 0x07
def cProt : Nat := 0x08
def cMmfmt : Nat := 0x09
def cBpoison : Nat := 0x0A
def cAccbound : Nat := 0x0B
def cWatch : Nat := 0x0C
def cKsfallback : Nat := 0x0D
def cPairhalf : Nat := 0x0E
def cSoft : Nat := 0x0F
def cHandle : Nat := 0x10
def cFetch : Nat := 0x11
def cTeam : Nat := 0x12
def cPriv : Nat := 0x13
def cDeterm : Nat := 0x14
def cCopyshape : Nat := 0x15
def cDouble : Nat := 0x16

/-- Stops with a trap of the whole population. -/
def trapAll {α : Type} (cause sub : Nat) : Except Stop α := .error (.trap (mkTrap cause sub))

/-- Stops with a trap of some lanes. -/
def trapLanes {α : Type} (cause sub : Nat) (ls : List Nat) : Except Stop α :=
  .error (.trap { mkTrap cause sub with mask := maskOf ls })

/-- Passes when the condition holds, else traps the population. -/
def demand (ok : Bool) (cause sub : Nat) : Except Stop Unit := if ok then .ok () else trapAll cause sub

/-- Passes when no lane is listed, else traps the listed lanes. -/
def demandNone (bad : List Nat) (cause sub : Nat) : Except Stop Unit :=
  if bad.isEmpty then .ok () else trapLanes cause sub bad

/-! ## The population at the focus (R146) -/

/-- The group, workgroup and launch of an issue, its PC, its active lanes and its length in words; `slots` are the
handles that the instruction reads: the workgroup's, or for one issued again after a park those of its first issue (R74). -/
structure Ctx where
  g : Group
  w : Wg
  ln : Launch
  pc : DWord
  act : List Nat
  len : Nat
  slots : SMap (BitVec 1024)
  deriving DecidableEq, Repr

/-- The lanes held at a PC by a wait (R318). -/
def Group.heldAt (g : Group) (pc : DWord) : List Nat :=
  (g.holds.filter (fun h => h.pc = pc)).flatMap (fun h => setBitsOf 64 h.mask.toNat)

/-- The park of lanes of a group at a PC whose issue there has parked and is not accepted yet (R65, R127). -/
def Group.begun (g : Group) (pc : DWord) : Option Park := g.parks.find? (fun p => p.pc == pc && p.mask != 0)

/-- The lanes that an issue at a PC takes: active there and not held by a wait (R146, R318). Where an issue has parked, its own
lanes alone take it up again, with the slots that they read (R74, R127); lanes that have reached the PC since then, or while others
are held there by a BWAIT, WAITC, FENCE, NTDRAIN or a full collector, issue the instruction after them, or beside them, as a
population of their own: the model's choices of log entries 112 and 114. -/
def Group.population (g : Group) (pc : DWord) : List Nat :=
  let ls := (g.activeAt pc).filter (fun l => !(g.heldAt pc).contains l)
  match g.begun pc with
  | some p => ls.filter (fun l => bit p.mask l)
  | none => ls

/-- The group, workgroup and launch of a key. -/
def findCtx (s : State) (k : GKey) : Option (Group × Wg × Launch) :=
  match findGroup s k with
  | none => none
  | some g =>
      match findWg s k.wg with
      | none => none
      | some w =>
          match findLaunch s w.launch with
          | none => none
          | some ln => some (g, w, ln)

/-- The lanes that execute the instruction at the focus: the population there, and of a pair's second instruction those
of it that stood there when the pair was picked, since no lane executes two instructions of one clock (R2, R319). -/
def Focus.population (f : Focus) (g : Group) : List Nat := (g.population f.pc).filter (fun l => bit f.lanes l)

/-- The handle slots as an instruction at a PC reads them: once, at its issue (R74, R100). -/
def Group.slotsAt (g : Group) (w : Wg) (pc : DWord) : SMap (BitVec 1024) :=
  match g.begun pc with
  | some p => p.handles
  | none => w.handles

/-- The issue at the focus of the state, for an instruction of this length; none where no lane stands there. -/
def focusCtx (s : State) (len : Nat) : Option Ctx :=
  match findCtx s s.focus.grp with
  | none => none
  | some (g, w, ln) =>
      if (s.focus.population g).isEmpty then none
      else some ⟨g, w, ln, s.focus.pc, s.focus.population g, len, g.slotsAt w s.focus.pc⟩

/-- The lanes of an issue as a mask. -/
def Ctx.mask (c : Ctx) : DWord := maskOf c.act

/-! ## PCs (R167, R168) -/

/-- Whether a PC lies on a word of the running code (R168). -/
def inCode (ln : Launch) (g : Group) (pc : DWord) : Bool :=
  let off := (pc - kernelBase ln g).toNat
  decide (64 ≤ off) && decide (off < 64 + 4 * codeWords ln g) && off % 4 == 0

/-- The PC after an instruction. -/
def Ctx.nextPc (c : Ctx) : DWord := c.pc + BitVec.ofNat 64 (4 * c.len)

/-- An instruction that moves its lanes to the next word must find it inside the code (R168). -/
def Ctx.fallOk (c : Ctx) : Except Stop Unit := demand (inCode c.ln c.g c.nextPc) cOperand 3

/-- Drops the WSKIP of lanes that leave a PC (R343); in trap mode the lanes stand in the handler and keep it. -/
def dropSkips (g : Group) (pc : DWord) (ls : List Nat) : Group :=
  if g.trapMode then g
  else
    { g with
      wskip := (g.wskip.map (fun w => if w.tpc = pc then { w with mask := w.mask &&& ~~~ maskOf ls } else w)).filter
        (fun w => w.mask ≠ 0) }

/-- Moves lanes of a group from a PC, each to its own target. -/
def moveLanes (s : State) (k : GKey) (pc : DWord) (ls : List Nat) (target : Nat → DWord) : State :=
  updGroup s k (fun g => dropSkips (g.mapLanes ls (fun l x => { x with pc := target l })) pc ls)

/-- Moves the population past its instruction. -/
def Ctx.advance (c : Ctx) (s : State) : State := moveLanes s c.g.key c.pc c.act (fun _ => c.nextPc)

/-! ## Ending groups (R170, R309, R340, R344) -/

/-- Ends every live lane of a group: it issues nothing more, and what it accepted is drained. -/
def endLanes (g : Group) : Group :=
  let g := g.mapLanes (List.range g.width) (fun _ x => { x with exited := true })
  { g with frozen := false, parks := [], holds := [], half := [], wskip := [], waited := [], vpoison := [] }

/-- Ends the groups that satisfy `p`; the team rounds that waited for a lane of them fail at once (R208). -/
def endGroupsWhere (s : State) (p : GKey → Bool) : State :=
  failTeamRounds { s with groups := updateIf (fun g => p g.key) endLanes s.groups }

/-- Whether a group belongs to a launch. -/
def inLaunch (s : State) (uid : Nat) (k : GKey) : Bool :=
  match findWg s k.wg with
  | some w => w.launch == uid
  | none => false

/-- Whether an operation is a PGREQ, whose page is asked for though its workgroup ends (R66). -/
def Op.isPgreq (o : Op) : Bool :=
  match o.kind with
  | .pgreq _ => true
  | _ => false

/-- Forgets a workgroup, its groups and their operations: its save record is free again (R354). -/
def dropWg (s : State) (uid : Nat) : State :=
  { s with
    wgs := s.wgs.filter (fun w => w.uid ≠ uid)
    groups := s.groups.filter (fun g => g.key.wg ≠ uid)
    ops := s.ops.filter (fun o => o.grp.wg ≠ uid || o.isPgreq) }

/-- Whether a step of slot order is one of a workgroup: the read of a saved entry of it, or the load of an operation of it. -/
def stepOf (s : State) (uid : Nat) (st : SlotStep) : Bool :=
  match st with
  | .read e => (findWg s uid).any (fun w => w.resv.any (fun x => x.id == e))
  | .load op => (findOp s op).any (fun o => o.grp.wg == uid)
  | .free => false

/-- A saved workgroup ends where it is: nothing waits any more for what it had saved. -/
def dropSaved (s : State) (uid : Nat) : State := dropSteps (dropWg s uid) (stepOf s uid)

/-- Ends a launch under FDP 2 or 3 (R309): nothing more is placed, the resident groups end, and a saved workgroup,
which would have to be placed again, ends where it is. -/
def endLaunch (s : State) (uid : Nat) : State :=
  let saved := (s.wgs.filter (fun w => w.launch = uid && w.status = .saved)).map (·.uid)
  let s := saved.foldl dropSaved s
  let s := updLaunch s uid (fun l => { l with unplaced := [], faulted := true, live := l.live - saved.length - l.unplaced.length })
  endGroupsWhere s (inLaunch s uid)

/-- Records an unhandled trap in the launch's RCB (R309). -/
def recordFault (s : State) (ln : Launch) (wgIndex cause sub : Nat) (pc : DWord) : State :=
  let pa := ln.region
  let first := rcbFcause s pa == 0
  let s := plainSetNum s (pa + 96) 4 (min 0xFFFFFFFF (rcbFcount s pa + 1))
  if first then
    let s := plainSetNum s (pa + 100) 4 ln.lidx.toNat
    let s := plainSetNum s (pa + 104) 4 wgIndex
    let s := plainSetNum s (pa + 108) 1 cause
    let s := plainSetNum s (pa + 109) 1 sub
    plainSetNum s (pa + 112) 8 pc.toNat
  else s

/-- Sets or clears STOPPED or TAPERUN of an RCB: bit 0 or 1 of byte 84 (R307). -/
def rcbSetBit (s : State) (pa b : Nat) (v : Bool) : State :=
  let old := plainNum s (pa + 84) 1
  plainSetNum s (pa + 84) 1 (old - old / 2 ^ b % 2 * 2 ^ b + bitOf v * 2 ^ b)

/-- An unhandled trap: recorded, and work ends under the fault-domain policy (R309, R340). -/
def unhandled (s : State) (k : GKey) (cause sub : Nat) (pc : DWord) : State :=
  match findCtx s k with
  | none => s
  | some (_, w, ln) =>
      let s := recordFault s ln w.index cause sub pc
      match ln.fdp with
      | 0 => endGroupsWhere s (fun x => x == k)
      | 1 => endGroupsWhere s (fun x => x.wg == k.wg)
      | 2 => endLaunch s ln.uid
      | _ => endLaunch (rcbSetBit s ln.region 0 true) ln.uid

/-! ## The trap frame (R336, R337) -/

/-- Puts a number of n bytes into a sparse block. -/
def blockPut (b : SMap Byte) (off n v : Nat) : SMap Byte :=
  (List.range n).foldl (fun b i => mapSet 0 b (off + i) (BitVec.ofNat 8 (v / 256 ^ i))) b

/-- The offset of a PC from a kernel header, as the frame holds it. -/
def pcOffset (base pc : DWord) : Nat := (pc - base).toNat % 4294967296

/-- CSW (R337). -/
def cswOf (t : TrapInfo) (ostate : Nat) : Nat :=
  t.cause % 64 + 256 * (t.sub % 256) + 65536 * (t.len % 4) + 262144 * (ostate % 4) + 1048576 * bitOf t.wskip

/-- The mask of the live lanes of a group whose mask bit k is set; exited lanes give 0 (R337, log entry 137). -/
def maskBits (g : Group) (k : Nat) : Nat :=
  (maskOf (g.live.filter (fun l => match g.lane? l with | some x => x.mbit k | none => false))).toNat

/-- The words of a trap frame with their offsets and sizes (R337). -/
def frameFields (g : Group) (w : Wg) (ln : Launch) (pc : DWord) (t : TrapInfo) (opc : Option DWord) (ostate : Nat) :
    List (Nat × Nat × Nat) :=
  let base := ln.kernel
  let lanes := List.range 64
  let live := g.live
  let lane (l : Nat) : Option Lane := if live.contains l then g.lane? l else none
  [(0x000, 4, cswOf t ostate), (0x004, 4, t.code.toNat), (0x008, 4, pcOffset base pc),
   (0x00C, 4, match opc with | some p => pcOffset base p | none => 0xFFFFFFFF),
   (0x010, 8, t.mask.toNat), (0x018, 8, (maskOf live).toNat), (0x020, 8, t.half.toNat), (0x028, 8, t.addr.toNat)]
  ++ (List.range 4).map (fun i => (0x030 + 4 * i, 4, (t.coord.getD i 0).toNat))
  ++ [(0x040, 4, t.tag.toNat), (0x044, 4, t.aux.toNat), (0x048, 8, t.eopid.toNat), (0x050, 8, base.toNat),
      (0x058, 4, ln.lidx.toNat), (0x05C, 4, w.index), (0x060, 4, g.key.g)]
  ++ lanes.map (fun l => (0x100 + 4 * l, 4, match lane l with | some x => pcOffset base x.pc | none => 0xFFFFFFFF))
  ++ live.flatMap (fun l => (List.range 8).map (fun r =>
      (0x200 + 256 * r + 4 * l, 4, match g.lane? l with | some x => (x.vreg r).toNat | none => 0)))
  ++ (List.range 8).map (fun r => (0xA00 + 4 * r, 4, (g.sreg r).toNat))
  ++ [(0xA20, 4, g.fps.toNat)]
  ++ (List.range 16).map (fun k => (0xA40 + 8 * k, 8, maskBits g k))

/-- The trap frame as a block of 4 KiB, zero where nothing is listed. -/
def frameBlock (fs : List (Nat × Nat × Nat)) : SMap Byte := fs.foldl (fun b f => blockPut b f.1 f.2.1 f.2.2) []

/-- Reads a number of n bytes of a group's frame. -/
def frameGet (s : State) (w : Wg) (g off n : Nat) : Nat :=
  keyedNum s (keyOr s w.owner) (frameBase s w g + off) n

/-- Writes a number of n bytes of a group's frame. -/
def frameSet (s : State) (w : Wg) (g off n v : Nat) : State :=
  keyedSetNum s w.owner (frameBase s w g + off) n v

/-! ## Registers that operations fill (R103, R343, R345) -/

/-- Clears the poison of registers that are written whole (R358). -/
def clearRegPoison (s : State) (k : GKey) (ws : List (Nat × Nat)) : State :=
  if s.poison.isEmpty then s
  else { s with poison := s.poison.filter (fun p => !ws.any (fun w => p == .vreg k w.1 w.2)) }

/-- Whether what an operation brings to a register is written there: what a handler left outstanding for v0–v7 when it returned is
not, since TRET has restored them (log entry 126). -/
def Op.lands (o : Op) (g : Group) (r : Nat) : Bool := decide (8 ≤ r) || o.era == g.era || o.era % 2 == 0

/-- Whether it goes into the group's frame too, from which TRET restores v0–v7: the operation was accepted before the trap (R345, log
entry 126). -/
def Op.saves (o : Op) (g : Group) (r : Nat) : Bool := decide (r < 8) && o.era != g.era && o.era % 2 == 0 && g.era % 2 == 1

/-- Writes words of v0–v7 into a group's frame, of lanes that were live at its trap. -/
def saveWords (s : State) (k : GKey) (fs : List Fill) : State :=
  match findWg s k.wg with
  | none => s
  | some w =>
      fs.foldl (fun s f =>
        if frameGet s w k.g (0x18 + f.lane / 8) 1 / 2 ^ (f.lane % 8) % 2 = 1 then
          frameSet s w k.g (0x200 + 256 * f.reg + 4 * f.lane) 4 f.val.toNat
        else s) s

/-- The registers that fills write into the lanes of a group, each lane's in order. -/
def putFills (g : Group) (fs : List Fill) : Group :=
  fs.foldl (fun g f => g.mapLanes [f.lane] (fun _ x => x.setV f.reg f.val)) g

/-- The registers that an operation fills are written, poison going with the data (R358): `bad` are those whose data is
poisoned. -/
def landRegs (s : State) (o : Op) (fs : List Fill) (bad : List (Nat × Nat)) : State :=
  match findGroup s o.grp with
  | none => s
  | some g =>
      let fs := fs.filter (fun f => o.lands g f.reg)
      let bad := bad.filter (fun p => o.lands g p.2)
      let held := fs.filter (fun f => o.saves g f.reg)
      let s := clearRegPoison s o.grp (fs.map (fun f => (f.lane, f.reg)))
      let s := updGroup s o.grp (fun g => { putFills g fs with
        vpoison := g.vpoison.filter (fun p => !held.any (fun f => f.lane == p.1 && f.reg == p.2))
          ++ bad.filter (fun p => o.saves g p.2) })
      let s := if bad.isEmpty then s else { s with poison := bad.map (fun p => PoisonLoc.vreg o.grp p.1 p.2) ++ s.poison }
      saveWords s o.grp held

/-! ## Taking a trap (R338–R340) -/

/-- The header of the trap handler, where it can be read and is valid (R338). -/
def handlerHeader (s : State) (ln : Launch) : Option Nat :=
  if ln.traph = 0 then none
  else
    match virtNum s ln ln.traph.toNat 64 with
    | none => none
    | some h =>
        if headerOk h && ln.traph.toNat % 256 == 0 && decide (hdRegs h ≤ ln.nregs) && hdScratch h == 0
            && hdAccRows h == 0 && hdBslots h == 0 && nbits h 159 128 == 0 then some h
        else none

/-- The lanes and registers of v0–v7 of a group that are poisoned (R345, R358). -/
def framePoison (s : State) (k : GKey) : List (Nat × Nat) :=
  s.poison.filterMap (fun p => match p with
    | .vreg k' l r => if k' = k ∧ r < 8 then some (l, r) else none
    | _ => none)

/-- The header of the trap handler is read (R51, R338). -/
def touchHandler (s : State) (ln : Launch) : State := if ln.traph = 0 then s else virtTouch s ln .r ln.traph.toNat 64

/-- Enters the handler, or finds the trap unhandled (R338, R340). -/
def enterHandler (s : State) (k : GKey) (cause sub : Nat) (pc : DWord) : State :=
  match findCtx s k with
  | none => s
  | some (_, _, ln) =>
      match handlerHeader s ln with
      | none => unhandled (touchHandler s ln) k cause sub pc
      | some h =>
          updGroup (touchHandler s ln) k (fun g =>
            let g := g.mapLanes g.live (fun _ x => { x with pc := ln.traph + 64 })
            { g with
              trapMode := true, handler := ln.traph, handlerN := hdRegs h, handlerLen := hdCodeLen h
              frozen := false, parks := [], holds := [] })

/-- Takes a trap of a group (R338–R340): in trap mode a DOUBLE ends the group; otherwise the frame is written, and
either the handler is entered or the host is notified (MODE bit 1, R374). TEAM traps that are due already wait until the
handler has returned (R208, log entry 98). -/
def takeTrap (s : State) (k : GKey) (pc : DWord) (t : TrapInfo) (opc : Option DWord) (ostate : Nat) : State :=
  match findCtx s k with
  | none => s
  | some (g, w, ln) =>
      if g.trapMode then unhandled s k cDouble t.cause pc
      else
        let s := putBlockKeyed s (keyOr s w.owner) (frameBase s w k.g) 4096
          (frameBlock (frameFields g w ln pc t opc ostate))
        let s := updGroup s k (fun g => { g with
          vpoison := framePoison s k, era := g.era + 1 + g.era % 2, teamFails := g.teamFails.map (fun f => { f with waits := true }) })
        if bit s.mcb.mode 1 then
          let s := updGroup s k (fun g => { g with frozen := true, parks := [], holds := [] })
          post s (notif 3 (groupId k) (frameBase s w k.g) (t.cause + 256 * t.sub))
        else enterHandler s k t.cause t.sub pc

/-- A trap of a group that was in trap mode when its instruction issued, or was not: the first of a pair may have trapped
before its partner left trap mode (R148, R339). -/
def takeTrapIn (s : State) (inTrap : Bool) (k : GKey) (pc : DWord) (t : TrapInfo) (opc : Option DWord) (ostate : Nat) : State :=
  if inTrap then unhandled s k cDouble t.cause pc else takeTrap s k pc t opc ostate

/-- Notes at the focus how the instruction that just ran ended, for the OSTATE of its partner (R337). -/
def markFocus (s : State) (n : Nat) : State :=
  if s.focus.partner.isSome then { s with focus := { s.focus with ostate := n } } else s

/-- An instruction that was not ready has not been issued, so the other of its pair has no partner (R318, R319). -/
def unpair (s : State) : State := { s with focus := { s.focus with partner := none, waits := true } }

/-- Whether the instruction at the focus is the second of a pair whose first has trapped. -/
def Focus.afterTrap (f : Focus) : Bool := f.partner.isSome && f.second && f.stash.isSome

/-- Raises the trap of the instruction at the focus, which leaves `s`; `s0` is the state in which it issued, with the advances of a
REJECT register's rejecting lanes. The first of a pair keeps it until its partner has completed; a second trap of one pair
commits those advances alone (R148, R188, R334, log entry 105). -/
def raiseTrap (s0 s : State) (t : TrapInfo) : State :=
  if s0.focus.afterTrap then markFocus s0 2
  else
    match s.focus.partner with
    | none => takeTrap s s.focus.grp s.focus.pc t none 0
    | some p =>
        if s.focus.second then takeTrap s s.focus.grp s.focus.pc t (some p) s.focus.ostate
        else { s with focus := { s.focus with stash := some t } }

/-! ## Settling an issue -/

/-- A trap with the mask of the population where none is given, and the length of the instruction. -/
def Ctx.fill (c : Ctx) (t : TrapInfo) : TrapInfo :=
  { t with mask := if t.mask = 0 then c.mask else t.mask, len := c.len }

/-- Counts an issue that commits (R380); a park at its PC is over. -/
def countIssue (s : State) (k : GKey) (pc : DWord) : State :=
  updGroup s k (fun g => { g with
    eop := g.eop + 1, parks := g.parks.filter (fun p => p.pc ≠ pc), waited := g.waited.filter (fun p => p ≠ pc) })

/-- The population of an issue is held at its PC by a wait (R318); its access has been accepted, so that a park there is over
(R127). -/
def holdHere (s : State) (k : GKey) (h : Hold) : State :=
  updGroup s k (fun g => { g with
    holds := g.holds ++ [h], parks := g.parks.filter (fun p => p.pc ≠ h.pc), waited := g.waited.filter (fun p => p ≠ h.pc) })

/-- Whether a park is one on presence (R127). -/
def ParkWhy.onPresence : ParkWhy → Bool
  | .presence _ _ => true
  | _ => false

/-- The lanes of an issue park, with the handle slots as they read them (R65, R74, R127). -/
def parkAt (s : State) (k : GKey) (pc mask : DWord) (slots : SMap (BitVec 1024)) (why : ParkWhy) : State :=
  updGroup s k (fun g => { g with
    parks := g.parks.filter (fun p => p.pc ≠ pc) ++ [⟨pc, why, false, mask, slots⟩]
    waited := if why.onPresence then g.waited.filter (fun p => p ≠ pc) ++ [pc] else g.waited })

/-- The issue of a context parks. -/
def Ctx.park (c : Ctx) (s : State) (why : ParkWhy) : State := parkAt s c.g.key c.pc c.mask c.slots why

/-- The fetch of the instruction at a PC parks the lanes there; what an earlier issue of theirs has read of the slots stays as
it read it (R65, R100, R357). -/
def parkFetch (s : State) (k : GKey) (pc : DWord) (why : ParkWhy) : State :=
  updGroup s k (fun g =>
    let old := (g.begun pc).map (fun p => (p.mask, p.handles))
    { g with parks := g.parks.filter (fun p => p.pc ≠ pc) ++ [⟨pc, why, false, (old.getD (0, [])).1, (old.getD (0, [])).2⟩] })

/-- The outcome of an issue that began in `s0` and, with the attempts of a REJECT register made, goes on from `s`: it commits, traps,
parks, waits or, not being ready, has not begun (R188, R318). -/
def Ctx.settleFrom (c : Ctx) (s0 s : State) (r : Except Stop State) : Result :=
  match r with
  | .ok s' => .next (markFocus (countIssue s' c.g.key c.pc) 1)
  | .error (.trap t) => .next (raiseTrap s s (c.fill t))
  | .error (.trapIn t s') => .next (raiseTrap s s' (c.fill t))
  | .error (.park why) => .next (markFocus (c.park s why) 3)
  | .error (.parkIn why s') => .next (markFocus (c.park s' why) 3)
  | .error (.hold why s') => .next (markFocus (holdHere s' c.g.key ⟨c.pc, c.mask, c.len, why⟩) 3)
  | .error .notReady => .next (unpair s0)

/-- The outcome of an issue. -/
def Ctx.settle (c : Ctx) (s : State) (r : Except Stop State) : Result := c.settleFrom s s r

/-- A U-set instruction (R172, R173): its effect once for its population, which then stands at the next word. -/
def uniform (i : Instr) (body : Ctx → State → Except Stop State) (s : State) : Result :=
  match focusCtx s i.len with
  | none => .fault .noGroup
  | some c =>
      c.settle s (do
        c.fallOk
        let s' ← body c s
        .ok (c.advance s'))

/-! ## Returning from a trap (R343) -/

/-- Where the frame of a group sends a lane: none for a PC word of all ones. -/
def framePc (s : State) (w : Wg) (ln : Launch) (skipLen : Nat) (g : Nat) (tmask l : Nat) : Option DWord :=
  let lpc := frameGet s w g (0x100 + 4 * l) 4
  if lpc = 0xFFFFFFFF then none
  else some (ln.kernel + BitVec.ofNat 64 (lpc + (if tmask / 2 ^ l % 2 = 1 then skipLen else 0)))

/-- The lane of a group that a frame gives back: v0–v7, mask bits and PC. -/
def restoreLane (s : State) (w : Wg) (ln : Launch) (skipLen : Nat) (g : Nat) (tmask l : Nat) (x : Lane) : Lane :=
  if x.exited then x
  else
    match framePc s w ln skipLen g tmask l with
    | none => { x with exited := true }
    | some pc =>
      let v := (List.range 8).foldl (fun v r =>
        mapSet 0 v r (BitVec.ofNat 32 (frameGet s w g (0x200 + 256 * r + 4 * l) 4))) x.v
      let m := (List.range 16).foldl (fun m k =>
        setBits m k k (frameGet s w g (0xA40 + 8 * k + l / 8) 1 / 2 ^ (l % 8))) x.m
      { x with pc := pc, v := v, m := m }

/-- TRET's effect on a group (R343): back to the trapped code, or an end with DOUBLE where a PC of the frame lies outside it, be it
that of a lane which has exited in the handler. Whatever lanes of the handler are parked or held, they leave it (R345). -/
def returnFromTrap (s : State) (k : GKey) (skip : Bool) (pc : DWord) : State :=
  match findCtx s k with
  | none => s
  | some (g, w, ln) =>
      let csw := frameGet s w k.g 0 4
      let tpc := ln.kernel + BitVec.ofNat 64 (frameGet s w k.g 8 4)
      let tmask := frameGet s w k.g 0x10 8
      let skipLen := if skip then 4 * (csw / 65536 % 4) else 0
      let g' := { g with lanes := g.lanes.mapIdx (restoreLane s w ln skipLen k.g tmask) }
      let g' := { g' with
        trapMode := false, handler := 0, handlerN := 0, handlerLen := 0, frozen := false, era := g.era + 2 - g.era % 2 }
      if (List.range g.width).any (fun l => (framePc s w ln skipLen k.g tmask l).any (fun p => !inCode ln g' p)) then
        unhandled s k cDouble cOperand pc
      else
        let at' (p : DWord) (m : DWord) : DWord :=
          maskOf ((setBitsOf 64 m.toNat).filter (fun l => match g'.lane? l with | some x => !x.exited && x.pc == p | none => false))
        let kept : List WSkip := (g.wskip.map (fun e : WSkip => { e with mask := at' e.tpc e.mask })).filter (fun e => e.mask ≠ 0)
        let fresh : List WSkip :=
          if csw / 1048576 % 2 = 1 then [⟨tpc, at' tpc (BitVec.ofNat 64 tmask)⟩].filter (fun e => e.mask ≠ 0) else []
        let ph := csw % 64 == cPairhalf
        let halfKept : List HalfDone := (g.half.map (fun e : HalfDone => { e with mask := at' e.pc e.mask })).filter
          (fun e => e.mask ≠ 0 && !(ph && e.pc == tpc))
        let half : List HalfDone :=
          if ph && !skip then
            [⟨tpc, at' tpc (BitVec.ofNat 64 (frameGet s w k.g 0x20 8))⟩].filter (fun e => e.mask ≠ 0)
          else []
        let back (p : PoisonLoc) : Bool := match p with | .vreg k' _ r => k' == k && decide (r < 8) | _ => false
        let s := { s with poison := s.poison.filter (fun p => !back p) ++ g.vpoison.map (fun p => .vreg k p.1 p.2) }
        setGroup s { g' with
          vpoison := []
          parks := []
          holds := []
          waited := g.waited.filter (fun p => !(g'.activeAt p).isEmpty)
          s := (List.range 8).foldl (fun m r => mapSet 0 m r (BitVec.ofNat 32 (frameGet s w k.g (0xA00 + 4 * r) 4))) g.s
          fps := BitVec.ofNat 6 (frameGet s w k.g 0xA20 4)
          wskip := kept ++ fresh
          half := halfKept ++ half }

end Sys2Proof.Machine
end

