-- ==== Sys2Proof/Machine/Transc.lean ====
section
/-! DEFINITION. FUNY's functions, correctly rounded (R155), and the natural logarithm of CATD (R191). Irrational values
are computed in fixed point with 320 fraction bits and a sticky bit, then rounded once. -/

namespace Sys2Proof.Machine

/-- Fraction bits of the fixed-point work. -/
def fixBits : Nat := 320
/-- One in fixed point. -/
def fixOne : Nat := 2 ^ fixBits

/-- Σ z^(2k+1)/(2k+1) for k from `k` on: `zp` is the power in hand and `z2` the square, both in fixed point. -/
def atanhLoop : Nat → Nat → Nat → Nat → Nat → Nat
  | 0, _, _, _, acc => acc
  | n + 1, k, z2, zp, acc => atanhLoop n (k + 2) z2 (zp * z2 / fixOne) (acc + zp / k)

/-- artanh of a fixed-point value up to one third. -/
def atanhFix (z : Nat) : Nat := atanhLoop 110 1 (z * z / fixOne) z 0

/-- ln 2 in fixed point. -/
def ln2Fix : Nat := 2 * atanhFix (fixOne / 3)

/-- Σ t^n/n! from term `n` on. -/
def expLoop : Nat → Nat → Nat → Nat → Nat → Nat
  | 0, _, _, _, acc => acc
  | f + 1, n, t, term, acc => expLoop f (n + 1) t (term * t / fixOne / n) (acc + term)

/-- e^t for a fixed-point t below 1. -/
def expFix (t : Nat) : Nat := expLoop 90 1 t fixOne 0

/-- The alternating series of arctangent at 1/k: Σ ±1/((2j+1) k^(2j+1)), as a positive and a negative sum. -/
def atanLoop : Nat → Nat → Nat → Nat → Bool → Nat → Nat → Nat
  | 0, _, _, _, _, pos, neg => pos - neg
  | f + 1, j, k2, p, s, pos, neg =>
      atanLoop f (j + 2) k2 (p / k2) (!s) (if s then pos + p / j else pos) (if s then neg else neg + p / j)

/-- π in fixed point, by Machin's formula. -/
def piFix : Nat :=
  16 * atanLoop 75 1 25 (fixOne / 5) true 0 0 - 4 * atanLoop 75 1 57121 (fixOne / 239) true 0 0

/-- The sine series Σ ±t^n/n!, as a positive and a negative sum. -/
def sinLoop : Nat → Nat → Nat → Nat → Bool → Nat → Nat → Nat
  | 0, _, _, _, _, pos, neg => pos - neg
  | f + 1, n, t2, term, s, pos, neg =>
      sinLoop f (n + 2) t2 (term * t2 / fixOne / ((n + 1) * (n + 2))) (!s) (if s then pos + term else pos)
        (if s then neg else neg + term)

/-- sin t for a fixed-point t up to π/2. -/
def sinFix (t : Nat) : Nat := sinLoop 50 1 (t * t / fixOne) t true 0 0

/-- An irrational value given in fixed point: one more bit marks it as lying strictly off every grid. -/
def offGrid (neg : Bool) (x : Nat) : FVal := .fin neg (2 * x + 1) (-(fixBits : Int) - 1)

/-- A quotient n/d × 2^e with 80 significant bits and a sticky bit. -/
def quotV (neg : Bool) (n d : Nat) (e : Int) : FVal :=
  let k := 80 + Nat.log2 d
  let q := n * 2 ^ k / d
  let r := n * 2 ^ k % d
  .fin neg (2 * q + (if r = 0 then 0 else 1)) (e - k - 1)

/-- The integer square root by bits: the largest r below 2^(n) with r² ≤ x. -/
def isqrtLoop : Nat → Nat → Nat → Nat
  | 0, _, r => r
  | n + 1, x, r =>
      let c := r + 2 ^ n
      isqrtLoop n x (if c * c ≤ x then c else r)

/-- The integer square root of a number below 2^256. -/
def isqrt (x : Nat) : Nat := isqrtLoop 128 x 0

/-- m × 2^e with an even exponent. -/
def evenExp (m : Nat) (e : Int) : Nat × Int := if e % 2 = 0 then (m, e) else (2 * m, e - 1)

/-- √(m × 2^e) with a sticky bit. -/
def sqrtV (m : Nat) (e : Int) : FVal :=
  let (m', e') := evenExp m e
  let x := m' * 2 ^ 120
  let r := isqrt x
  .fin false (2 * r + (if r * r = x then 0 else 1)) (e' / 2 - 61)

/-- 1/√(m × 2^e) with a sticky bit. -/
def rsqV (m : Nat) (e : Int) : FVal :=
  let (m', e') := evenExp m e
  let q := 2 ^ 200 / m'
  let r := isqrt q
  .fin false (2 * r + (if r * r = q ∧ 2 ^ 200 % m' = 0 then 0 else 1)) (-(e' / 2) - 101)

/-- ln(m × 2^e) in fixed point with its sign: exponent × ln 2 plus the logarithm of the significand in [1, 2). -/
def lnFix (m : Nat) (e : Int) : Int :=
  let l := Nat.log2 m
  let num := m - 2 ^ l
  let den := m + 2 ^ l
  (e + l) * (ln2Fix : Int) + (2 * atanhFix (num * fixOne / den) : Nat)

/-- log2 a (R155): the exponent of a power of two, else an irrational. -/
def log2V (m : Nat) (e : Int) : FVal :=
  if m = 2 ^ Nat.log2 m then ofInt (e + Nat.log2 m)
  else
    let v := lnFix m e
    offGrid (decide (v < 0)) (v.natAbs * fixOne / ln2Fix)

/-- 2^a (R155): exact for an integer, cut outside every range FP32 can hold. -/
def exp2V (neg : Bool) (m : Nat) (e : Int) : FVal :=
  if 8 < (Nat.log2 m : Int) + e then .fin false 1 (if neg then -400 else 400)
  else if 0 ≤ e then .fin false 1 (if neg then -((m * 2 ^ e.toNat : Nat) : Int) else (m * 2 ^ e.toNat : Nat))
  else
    let k := (-e).toNat
    let whole := m / 2 ^ k
    let frac := m % 2 ^ k
    if frac = 0 then .fin false 1 (if neg then -(whole : Int) else whole)
    else
      let f := frac * fixOne / 2 ^ k
      let (n, g) : Int × Nat := if neg then (-(whole : Int) - 1, fixOne - f) else (whole, f)
      (offGrid false (expFix (g * ln2Fix / fixOne))).scale n

/-- sin(π n/2^k) for a value that is no multiple of ½, given as n with 0 < n < 2^(k+1). -/
def sinTurns (neg : Bool) (n k : Nat) : FVal :=
  let half := 2 ^ k
  let neg' := neg != decide (half < n)
  let r := if half < n then n - half else n
  let r' := if half < 2 * r then half - r else r
  offGrid neg' (sinFix (r' * piFix / half))

/-- sin(π a) for a nonzero finite a (R155). -/
def sinpV (neg : Bool) (m : Nat) (e : Int) : FVal :=
  if 0 ≤ e then .zero neg
  else
    let k := (-e).toNat
    let n := m % 2 ^ (k + 1)
    if m % 2 ^ k = 0 then .zero neg
    else if 2 * m % 2 ^ k = 0 then .fin (neg != decide (2 ^ k < n)) 1 0
    else sinTurns neg n k

/-- cos(π a) for a finite a (R155): sin(π(a + ½)), with exact values at the multiples of ½. -/
def cospV (m : Nat) (e : Int) : FVal :=
  if 0 ≤ e then .fin (decide (e = 0) && m % 2 == 1) 1 0
  else
    let k := (-e).toNat
    let n := m % 2 ^ (k + 1)
    if m % 2 ^ k = 0 then .fin (n != 0) 1 0
    else if 2 * m % 2 ^ k = 0 then .zero false
    else sinTurns false ((2 * n + 2 ^ k) % 2 ^ (k + 2)) (k + 1)

/-- FLOOR, CEIL and TRUNC of a finite value (R155). A result of zero is the exact value of the function, so that a nonzero
operand that gives it sets no UF (R159, log entry 90). -/
def integralV (up : Bool) (neg : Bool) (m : Nat) (e : Int) : FVal :=
  if 0 ≤ e then .fin neg m e
  else
    let k := (-e).toNat
    let n := m / 2 ^ k + (if up && m % 2 ^ k != 0 then 1 else 0)
    if n = 0 then .zero neg else .fin neg n 0

/-- CLASS (R155). -/
def classF (a : Nat) : Nat :=
  match decodeF .fp32 a with
  | .nan => 256
  | .inf s => if s then 1 else 128
  | .zero s => if s then 8 else 16
  | .fin s _ _ =>
      if a / 8388608 % 256 = 0 then (if s then 4 else 32) else (if s then 2 else 64)

/-- The functions RCP to TRUNC on a value that is not a NaN: the exact value, none when invalid, and whether it is a
division by zero (R155). -/
def funyV (op : FunyOp) (x : FVal) : Option FVal × Bool :=
  match op, x with
  | .rcp, .zero s => (some (.inf s), true)
  | .rcp, .inf s => (some (.zero s), false)
  | .rcp, .fin s m e => (some (quotV s 1 m (-e)), false)
  | .rsq, .zero s => (some (.inf s), true)
  | .rsq, .inf s => (if s then none else some (.zero false), false)
  | .rsq, .fin s m e => (if s then none else some (rsqV m e), false)
  | .exp2, .zero _ => (some (.fin false 1 0), false)
  | .exp2, .inf s => (some (if s then .zero false else .inf false), false)
  | .exp2, .fin s m e => (some (exp2V s m e), false)
  | .log2, .zero _ => (some (.inf true), true)
  | .log2, .inf s => (if s then none else some (.inf false), false)
  | .log2, .fin s m e => (if s then none else some (log2V m e), false)
  | .sinp, .inf _ => (none, false)
  | .sinp, .zero s => (some (.zero s), false)
  | .sinp, .fin s m e => (some (sinpV s m e), false)
  | .cosp, .inf _ => (none, false)
  | .cosp, .zero _ => (some (.fin false 1 0), false)
  | .cosp, .fin _ m e => (some (cospV m e), false)
  | .sqrt, .zero s => (some (.zero s), false)
  | .sqrt, .inf s => (if s then none else some (.inf false), false)
  | .sqrt, .fin s m e => (if s then none else some (sqrtV m e), false)
  | .floor, .fin s m e => (some (integralV s s m e), false)
  | .ceil, .fin s m e => (some (integralV (!s) s m e), false)
  | .trunc, .fin s m e => (some (integralV false s m e), false)
  | _, v => (some v, false)

/-- FUNY on one lane (R155): ABS, NEG and CLASS change bits only and set no status. -/
def funyF (op : FunyOp) (a : Nat) : FRes :=
  match op with
  | .abs => ⟨a % 2147483648, 0⟩
  | .neg => ⟨if a < 2147483648 then a + 2147483648 else a - 2147483648, 0⟩
  | .cls => ⟨classF a, 0⟩
  | _ =>
      let x := decodeF .fp32 a
      if x = .nan then finishF .fp32 (some .nan) true false
      else
        let r := funyV op x
        finishF .fp32 r.1 x.nonFinite r.2

/-- RNE(ln a, FP32) for CATD (R191); a NaN or negative a gives NaN, and zero −∞. -/
def lnF (a : Nat) : Nat :=
  match decodeF .fp32 a with
  | .nan => canonNaN .fp32
  | .zero _ => rne .fp32 (.inf true)
  | .inf s => if s then canonNaN .fp32 else rne .fp32 (.inf false)
  | .fin s m e =>
      if s then canonNaN .fp32
      else if e ≤ 0 ∧ m = 2 ^ (-e).toNat then 0
      else
        let v := lnFix m e
        rne .fp32 (offGrid (decide (v < 0)) v.natAbs)

end Sys2Proof.Machine
end

