-- ==== Sys2Proof/Machine/Operands.lean ====
section
/-! DEFINITION. The operand forms of the L-set (R21–R23) and the U-set (R24), the stream function and draws
(R177–R189), and the order in which an L-set instruction is checked, reads, draws and commits (R45, R146, R187). -/

namespace Sys2Proof.Machine

/-! ## Streams (R177, R179) -/

/-- The stream function F (R177). -/
def streamF (ka kb c : DWord) : DWord :=
  let x := c + ka
  let x := (x ^^^ (x >>> 29)) * 0x9C3F52E7A1D46B29
  let x := (x ^^^ (x >>> 32)) * 0xE5A70C934B1FD86D
  x ^^^ (x >>> 29) ^^^ kb

/-- Word w of stream n under a key (R179). -/
def streamWord (ka kb : DWord) (n : Nat) (w : BitVec 56) : Word :=
  let f := streamF ka kb (BitVec.ofNat 64 (n * 2 ^ 56 + w.toNat / 2))
  if w.toNat % 2 = 0 then f.setWidth 32 else (f >>> 32).setWidth 32

/-- Word `pos_n + k` of a lane's stream n. -/
def Lane.word (x : Lane) (n k : Nat) : Word := streamWord x.ka x.kb n (x.pos n + BitVec.ofNat 56 k)

/-- Advances stream n by k words; the position wraps at 2^56 (R178). -/
def Lane.skip (x : Lane) (n k : Nat) : Lane := x.setPos n (x.pos n + BitVec.ofNat 56 k)

/-! ## Draws (R185) -/

/-- A 4-byte word of the scratchpad of the group's workgroup as a draw reads it: a store that has not left its FIFO is
not seen (R185, R362). -/
def tableWord (s : State) (g : Group) (off : Nat) : Nat :=
  ofBytes ((List.range 4).map (fun i => scratchByte s g.key.wg (off + i)))

/-- The same word as an access of the group reads it, its own queued stores included (R104, R255). -/
def ownWord (s : State) (g : Group) (off : Nat) : Nat :=
  ofBytes ((List.range 4).map (fun i =>
    overlay (.scr g.key.wg (off + i)) (fifoBytes g) (scratchByte s g.key.wg (off + i))))

/-- w × 2^−24 as FP32 for w below 2^24, exact. -/
def u24 (w : Nat) : Nat := rne .fp32 (if w = 0 then .zero false else .fin false w (-24))

/-- The INVERSE value of a word (R185). -/
def inverseDraw (s : State) (g : Group) (toff w : Nat) : Nat :=
  let seg := toff + 8 * (w / 16777216)
  (fmaF .fp32 (u24 (w % 16777216)) (tableWord s g (seg + 4)) (tableWord s g seg)).code

/-- The value that a draw delivers in a lane, and the lane with its position advanced (R185); whether a REJECT
attempt is accepted is `drawAccepts`. -/
def drawValue (s : State) (g : Group) (im : DsImage) (x : Lane) : Word × Lane :=
  let n := im.stream.val
  let w := (x.word n 0).toNat
  match im.kind with
  | .uniform => (BitVec.ofNat 32 (fmaF .fp32 (u24 (w / 256)) im.width.toNat im.lo.toNat).code, x.skip n 1)
  | .inverse => (BitVec.ofNat 32 (inverseDraw s g im.toff w), x.skip n 1)
  | .aliased =>
      let j := w / 65536 * im.n / 65536
      let e := tableWord s g (im.toff + 4 * j)
      (BitVec.ofNat 32 (if e % 65536 ≤ w % 65536 then e / 65536 % 1024 else j), x.skip n 1)
  | .reject => (BitVec.ofNat 32 (inverseDraw s g im.toff w), x.skip n 2)

/-- Whether a REJECT attempt is accepted: u24(w2) < acc, a NaN rejecting (R185). -/
def drawAccepts (s : State) (g : Group) (im : DsImage) (x : Lane) : Bool :=
  let n := im.stream.val
  let w1 := (x.word n 0).toNat
  let seg := im.toff + 2048 + 8 * (w1 / 16777216)
  let acc := (fmaF .fp32 (u24 (w1 % 16777216)) (tableWord s g (seg + 4)) (tableWord s g seg)).code
  condF .lt (u24 ((x.word n 1).toNat / 256)) acc

/-- The scratchpad offsets of the table words that a draw reads (R185). -/
def drawReads (im : DsImage) (x : Lane) : List Nat :=
  let w := (x.word im.stream.val 0).toNat
  let seg := im.toff + 8 * (w / 16777216)
  match im.kind with
  | .uniform => []
  | .inverse => [seg, seg + 4]
  | .aliased => [im.toff + 4 * (w / 65536 * im.n / 65536)]
  | .reject => [seg, seg + 4, seg + 2048, seg + 2052]

/-- The image of a distribution register of a group. -/
def dsOf (g : Group) (r : Nat) : Option DsImage := mapFind g.ds r

/-! ## Source operands (R21, R24) -/

/-- The type of an operand position (R21). -/
inductive SrcTy where
  | int | fp32 | fp16 | bf16
  deriving DecidableEq, Repr

/-- A small integer in a position of this type, exact (R21). -/
def smallConst (t : SrcTy) (i : Int) : Word :=
  match t with
  | .int => BitVec.ofInt 32 i
  | .fp32 => BitVec.ofNat 32 (rne .fp32 (ofInt i))
  | .fp16 => BitVec.ofNat 32 (rne .fp16 (ofInt i) * 65537)
  | .bf16 => BitVec.ofNat 32 (rne .bf16 (ofInt i) * 65537)

/-- 0.5 in a position of this type; no integer position holds it (R21). -/
def halfConst : SrcTy → Word
  | .int => 0
  | .fp32 => 0x3F000000
  | .fp16 => 0x38003800
  | .bf16 => 0x3F003F00

/-- The value of a source in a lane, and the lane after its draw (R21, R23). -/
def readSrc (s : State) (g : Group) (idx : Nat) (t : SrcTy) (src : LSrc) (x : Lane) : Word × Lane :=
  match src with
  | .v r => (x.vreg r.val, x)
  | .s r => (g.sreg r.val, x)
  | .ds r =>
      match dsOf g r.val with
      | some im => drawValue s g im x
      | none => (0, x)
  | .zero => (smallConst t 0, x)
  | .one => (smallConst t 1, x)
  | .negOne => (smallConst t (-1), x)
  | .two => (smallConst t 2, x)
  | .half => (halfConst t, x)
  | .lane => (smallConst t idx, x)
  | .octet => (smallConst t (idx / 8 : Nat), x)
  | .width => (smallConst t g.width, x)
  | .lit w => (w, x)

/-- The values of the sources in their order, and the lane after all draws (R186). -/
def readSrcs (s : State) (g : Group) (idx : Nat) : List (SrcTy × LSrc) → Lane → List Word × Lane
  | [], x => ([], x)
  | (t, src) :: rest, x =>
      let r := readSrc s g idx t src x
      let q := readSrcs s g idx rest r.2
      (r.1 :: q.1, q.2)

/-- The offsets of the table words that the sources of a lane read as they draw, in their order. -/
def srcReads (s : State) (g : Group) (idx : Nat) : List (SrcTy × LSrc) → Lane → List Nat
  | [], _ => []
  | (t, src) :: rest, x =>
      (match src with
       | .ds r => (match dsOf g r.val with | some im => drawReads im x | none => [])
       | _ => []) ++ srcReads s g idx rest (readSrc s g idx t src x).2

/-- The value of a U-set source (R24). -/
def readU (g : Group) : USrc → Word
  | .s r => g.sreg r.val
  | .imm c => BitVec.ofInt 32 ((c.val : Int) - 32)
  | .lit w => w

/-- The vector registers that an L-set source names. -/
def LSrc.vregs : LSrc → List Nat
  | .v r => [r.val]
  | _ => []

/-- The distribution registers that an L-set source names. -/
def LSrc.dists : LSrc → List Nat
  | .ds r => [r.val]
  | _ => []

/-- n registers from r up. -/
def regRange (r n : Nat) : List Nat := (List.range n).map (r + ·)

/-! ## The issue of an L-set instruction -/

/-- What an L-set instruction asks of its issue: its length; its sources in drawing order A, B, D; the vector
registers it names beside them (destinations and groups, checked at step 7b); those it reads beside its sources;
whether it draws words of its own; the counter it would raise; and its H and W fields with the checks that a
register-held width gives rise to (R45 step 9); `decl` are further checks against what the launch declares (R202), and
`busy` says that it waits at issue. -/
structure LSpec where
  len : Nat
  srcs : List (SrcTy × LSrc)
  named : List Nat
  reads : Width → List Nat
  own : Bool
  cls : OpClass
  hsel : Option HSel
  widthOk : Width → Ctx → Except Stop Unit
  decl : Ctx → Except Stop Unit
  busy : Ctx → State → Bool

/-- A plain specification: no group of registers, no counter, no handle. -/
def LSpec.mk0 (i : Instr) (srcs : List (SrcTy × LSrc)) (named : List Nat) : LSpec :=
  { len := i.len, srcs := srcs, named := named, reads := fun _ => [], own := false, cls := .none, hsel := none,
    widthOk := fun _ _ => .ok (), decl := fun _ => .ok (), busy := fun _ _ => false }

/-- The vector register that holds H and W, if any (R19). -/
def LSpec.hreg (p : LSpec) : List Nat :=
  match p.hsel with
  | some (.reg r) => [r.val]
  | _ => []

/-- The vector registers that its source fields and H name. -/
def LSpec.srcRegs (p : LSpec) : List Nat := p.srcs.flatMap (fun x => LSrc.vregs x.2) ++ p.hreg

/-- The distribution registers it names. -/
def LSpec.dists (p : LSpec) : List Nat := p.srcs.flatMap (fun x => LSrc.dists x.2)

/-- The REJECT image that it names, if any (R189). -/
def LSpec.reject (p : LSpec) (g : Group) : Option DsImage :=
  firstSome (p.dists.map (fun r =>
    match dsOf g r with
    | some im => if im.kind = .reject then some im else none
    | none => none))

/-- SOFT for the lanes whose draws read a poisoned scratchpad line (R358): each lane with the offsets that it reads. -/
def softDraws (s : State) (wg : Nat) (rs : List (Nat × List Nat)) : Except Stop Unit :=
  if s.poison.isEmpty then .ok ()
  else
    let bad (off : Nat) : Bool := s.poison.contains (.scratch wg (off / 128))
    match rs.filter (fun r => r.2.any bad) with
    | [] => .ok ()
    | r :: rest =>
        .error (.trap { mkTrap cSoft 2 with
          mask := maskOf ((r :: rest).map (·.1)), addr := BitVec.ofNat 64 ((r.2.find? bad).getD 0) })

/-- The table words that the attempts of a REJECT register read, lane by lane. -/
def LSpec.attemptReads (p : LSpec) (c : Ctx) : List (Nat × List Nat) :=
  match p.reject c.g with
  | none => []
  | some im => c.act.map (fun l => (l, match c.g.lane? l with | some x => drawReads im x | none => []))

/-- The checks before anything is drawn: registers within the declared count (R45 step 7b), readiness (R318), and
the conflicts of a REJECT register (R189). Where an attempt reads a poisoned table line no lane's attempt counts (log entry
106). -/
def LSpec.ready (p : LSpec) (c : Ctx) (s : State) : Except Stop Unit := do
  let n := declared c.ln c.g
  demand ((p.named ++ p.srcRegs).all (fun r => decide (r < n))) cOperand 2
  p.decl c
  if (p.cls ≠ .none && counterFull s c.g.key p.cls) || p.busy c s then .error .notReady
  else
    demand ((p.reject c.g).isNone || (p.dists.length == 1 && !p.own)) cOperand 5
    softDraws s c.w.uid (p.attemptReads c)

/-- The lanes whose attempt is accepted; all of them where no REJECT register is named (R188). -/
def LSpec.accepting (p : LSpec) (c : Ctx) (s : State) : List Nat :=
  match p.reject c.g with
  | none => c.act
  | some im =>
      c.act.filter (fun l => match c.g.lane? l with | some x => drawAccepts s c.g im x | none => false)

/-- The rejecting lanes' positions advance by two words, and nothing else of them changes (R188). -/
def LSpec.spend (p : LSpec) (c : Ctx) (s : State) : State :=
  match p.reject c.g with
  | none => s
  | some im =>
      let acc := p.accepting c s
      updGroup s c.g.key (fun g => g.mapLanes (c.act.filter (fun l => !acc.contains l)) (fun _ x => x.skip im.stream.val 2))

/-- One lane of an issue: its index, itself after the operand draws, and the values of the sources. -/
structure LaneIn where
  idx : Nat
  lane : Lane
  vals : List Word
  deriving DecidableEq, Repr

/-- The value of source number n. -/
def LaneIn.arg (x : LaneIn) (n : Nat) : Word := x.vals.getD n 0

/-- An issue after its checks and draws: `c.act` are the accepting lanes. -/
structure Issue where
  c : Ctx
  s : State
  slot : Nat
  width : Width
  ins : List LaneIn
  deriving DecidableEq, Repr

/-- The lanes of a list on which a value differs from the first lane's (R149). -/
def differing (vs : List (Nat × Word)) : List Nat :=
  match vs with
  | [] => []
  | (_, v) :: rest => (rest.filter (fun p => p.2 ≠ v)).map (·.1)

/-- The register v(r) of the population, lane by lane. -/
def Ctx.vregs (c : Ctx) (r : Nat) : List (Nat × Word) :=
  c.act.map (fun l => (l, match c.g.lane? l with | some x => x.vreg r | none => 0))

/-- Step 9: the slot and width that H and W, or v(H), give (R19, R45). -/
def LSpec.step9 (p : LSpec) (c : Ctx) : Except Stop (Nat × Width) :=
  match p.hsel with
  | none => .ok (0, .w4)
  | some (.slot h w) => .ok (h.val, w)
  | some (.reg r) => do
      demandNone (differing (c.vregs r.val)) cNonuniform 0
      let v := match c.vregs r.val with | (_, v) :: _ => v.toNat | [] => 0
      demand (v / 256 % 4 ≠ 3 && v / 64 % 4 == 0 && v / 1024 == 0) cOperand 3
      let w : Width := match v / 256 % 4 with | 0 => .w4 | 1 => .w8 | _ => .w16
      p.widthOk w c
      .ok (v % 64, w)

/-- The lanes that would read a poisoned register (R358). -/
def LSpec.softLanes (p : LSpec) (c : Ctx) (s : State) (w : Width) : List Nat :=
  if s.poison.isEmpty then []
  else c.act.filter (fun l => (p.srcRegs ++ p.reads w).any (fun r => s.poison.contains (.vreg c.g.key l r)))

/-- The checks from step 9 on that all L-set instructions share, and the operand draws. -/
def LSpec.enter (p : LSpec) (falls : Bool) (c : Ctx) (s : State) : Except Stop Issue := do
  let hw ← p.step9 c
  if falls then c.fallOk else .ok ()
  demandNone (p.softLanes c s hw.2) cSoft 1
  demand (p.dists.all (fun r => (dsOf c.g r).isSome)) cOperand 6
  softDraws s c.w.uid (c.act.map (fun l => (l, match c.g.lane? l with | some x => srcReads s c.g l p.srcs x | none => [])))
  let ins := c.act.filterMap (fun l =>
    match c.g.lane? l with
    | none => none
    | some x => let r := readSrcs s c.g l p.srcs x
                some ⟨l, r.2, r.1⟩)
  .ok ⟨c, s, hw.1, hw.2, ins⟩

/-- The issue of an L-set instruction; `falls` says that every lane goes on to the next word. -/
def perLaneAt (falls : Bool) (p : LSpec) (body : Issue → Except Stop State) (s : State) : Result :=
  match focusCtx s p.len with
  | none => .fault .noGroup
  | some c =>
      match p.ready c s with
      | .error e => c.settle s (.error e)
      | .ok () =>
          let acc := p.accepting c s
          let s1 := p.spend c s
          if acc.isEmpty then .next (markFocus s1 3)
          else
            let c1 := { c with act := acc }
            c1.settleFrom s s1 (do
              let x ← p.enter falls c1 s1
              let s2 ← body x
              .ok (if falls then c1.advance s2 else s2))

/-- The issue of an L-set instruction whose lanes go on to the next word. -/
def perLane (p : LSpec) (body : Issue → Except Stop State) (s : State) : Result := perLaneAt true p body s

/-! ## Commit (R146, R187) -/

/-- What an instruction leaves in one lane: the lane with its positions, masks and key, and register writes. -/
structure LaneOut where
  idx : Nat
  lane : Lane
  writes : List (Nat × Word)
  deriving DecidableEq, Repr

/-- A lane with its register writes. -/
def LaneOut.apply (o : LaneOut) : Lane := o.writes.foldl (fun x w => x.setV w.1 w.2) o.lane

/-- A lane that only commits its draws. -/
def LaneIn.keep (x : LaneIn) : LaneOut := ⟨x.idx, x.lane, []⟩

/-- A lane that writes one register. -/
def LaneIn.write (x : LaneIn) (r : Nat) (w : Word) : LaneOut := ⟨x.idx, x.lane, [(r, w)]⟩

/-- Commits lanes to a group, and the FP status bits that they set (R159). -/
def commitLanes (s : State) (k : GKey) (outs : List LaneOut) (fl : FpStatus) : State :=
  let s := clearRegPoison s k (outs.flatMap (fun o => o.writes.map (fun w => (o.idx, w.1))))
  updGroup s k (fun g =>
    { g with
      lanes := g.lanes.mapIdx (fun i x => match outs.find? (fun o => o.idx = i) with | some o => o.apply | none => x)
      fps := g.fps ||| fl })

/-- Commits the lanes of an issue. -/
def Issue.commit (x : Issue) (s : State) (outs : List LaneOut) (fl : FpStatus) : State :=
  commitLanes s x.c.g.key outs fl

/-- An operand that must be uniform (R149): source number n in the lanes of an issue. -/
def Issue.uniformArg (x : Issue) (n : Nat) : Except Stop Word := do
  demandNone (differing (x.ins.map (fun i => (i.idx, i.arg n)))) cNonuniform 0
  match x.ins with
  | i :: _ => .ok (i.arg n)
  | [] => .ok 0

/-- An instruction whose result in each lane depends on its sources in that lane and its old destination, and whose
status bits are ORed together. -/
def lanewise (p : LSpec) (d : VReg) (f : Word → Word → Word → FRes) (s : State) : Result :=
  perLane p (fun x =>
    let rs := x.ins.map (fun i => (i, f (i.arg 0) (i.arg 1) (i.lane.vreg d.val)))
    .ok (x.commit x.s (rs.map (fun r => r.1.write d.val (BitVec.ofNat 32 r.2.code)))
      (rs.foldl (fun fl r => fl ||| r.2.fl) 0))) s

/-- A result that sets no status. -/
def plainRes (w : Word) : FRes := ⟨w.toNat, 0⟩

end Sys2Proof.Machine
end

