-- ==== Sys2Proof/Machine/Fifo.lean ====
section
/-! DEFINITION. Outstanding operations and the way from a group's store FIFO to memory: acceptance (R139), collector
operations taking effect (R293), joins that watches mark (R348), stores leaving the FIFO (R254–R256), and atomics at its
head (R263). -/

namespace Sys2Proof.Machine

/-! ## Acceptance (R139) -/

/-- The number of a class: its place in R139, as EOPID holds it (R337). -/
def classCode : OpClass → Nat
  | .load => 0 | .store => 1 | .copy => 2 | .tile => 3 | .none => 4

/-- The join-time slots of a workgroup, in force for an operation issued now; none in trap mode (R339, R348). -/
def armedSlots (c : Ctx) : SMap (BitVec 256) :=
  if c.g.trapMode then [] else c.w.watch.filter (fun e => bit e.2 39 && bit e.2 38)

/-- Accepts an operation of the group: it joins its class, and its identity is the second result. -/
def acceptOp (s : State) (c : Ctx) (cls : OpClass) (kind : OpKind) : State × Nat :=
  let id := s.seq
  let g := (findGroup s c.g.key).getD c.g
  let n := mapGet 0 g.issued (classCode cls) + 1
  let s := updGroup s c.g.key (fun g => { g with issued := mapPut g.issued (classCode cls) n })
  let op : Op := ⟨id, c.g.key, cls, kind, g.eop, n, false, armedSlots c, none, [], g.era⟩
  ({ s with seq := id + 1, ops := s.ops ++ [op] }, id)

/-- The EOPID of an operation (R337, R380). -/
def eopidOf (eop : Nat) (cls : OpClass) : DWord :=
  BitVec.ofNat 64 (eop % 4294967296 + 4294967296 * (classCode cls % 16))

/-- Whether an operation is the oldest unretired one of its class. -/
def headsClass (s : State) (o : Op) : Bool :=
  match classOps s o.grp o.cls with
  | x :: _ => x.id == o.id
  | [] => false

/-- The FIFO entry's operation. -/
def FifoEntry.op : FifoEntry → Nat
  | .store op _ _ _ => op
  | .atomic op => op

/-- Engine work of an operation waits behind what its group's FIFO held at issue (R273). -/
def fifoPassed (s : State) (o : Op) : Bool :=
  match findGroup s o.grp with
  | none => true
  | some g => g.fifo.all (fun e => decide (o.id < e.op))

/-! ## Engine accesses and outstanding SCATs (R273, R293, R297) -/

/-- One byte as an engine of a core reads it: from the core's own L1 where that holds the line dirty, else at home. -/
def engineByte (s : State) (core owner : Nat) (l : Loc) : Byte :=
  match l with
  | .scr uid off => scratchByte s uid off
  | .mem pa _ =>
      match l1Find (coreOf s core) (lineOf pa) with
      | some x => if x.dirty ≠ 0 ∧ x.owner = owner then mapGet 0 x.data (pa % 256) else homeByte s (keyOr s owner) pa
      | none => homeByte s (keyOr s owner) pa

/-- The location n bytes further on. -/
def Loc.plus (l : Loc) (n : Nat) : Loc :=
  match l with
  | .mem pa ca => .mem (pa + n) ca
  | .scr uid off => .scr uid (off + n)

/-- Consecutive bytes for an engine. -/
def engineBytes (s : State) (core owner : Nat) (l : Loc) (n : Nat) : List Byte :=
  (List.range n).map (fun i => engineByte s core owner (l.plus i))

/-- The poison that an engine finds at a location. -/
def locPoison : Loc → PoisonLoc
  | .mem pa _ => .line (lineOf pa)
  | .scr uid off => .scratch uid (off / 128)

/-- Clears the poison of lines that a store overwrites whole (R358). -/
def clearPoisonFor (s : State) (bs : List StoreByte) : State :=
  if s.poison.isEmpty then s
  else
    let whole (p : PoisonLoc) : Bool :=
      match p with
      | .line pa => (List.range 256).all (fun i => bs.any (fun b => b.loc.same (.mem (pa + i) 0)))
      | .scratch wg l => (List.range 128).all (fun i => bs.any (fun b => b.loc == .scr wg (128 * l + i)))
      | _ => false
    { s with poison := s.poison.filter (fun p => !whole p) }

/-- The unit in which accesses of a group wait for each other: a 256-byte line of memory or a 128-byte line of a
scratchpad allocation. -/
def Loc.unit : Loc → Nat × Nat
  | .mem pa _ => (0, pa / 256)
  | .scr uid off => (uid + 1, off / 128)

/-- The units that a collector operation reads or writes and has not yet reached. -/
def collUnits (o : Op) : List (Nat × Nat) :=
  if o.done then []
  else
    match o.kind with
    | .scat bs => bs.map (fun b => b.loc.unit)
    | .gath fills none => fills.filterMap (fun f => f.src.map Loc.unit)
    | _ => []

/-! ## The lines of SISECT (R292, R293) -/

/-- The elements that a lane of SISECT can reach, as a handle, what it asks of it, the first element and their number: at most
4,096 of a stream (R300). -/
def SiLane.spans (si : SiOp) (l : SiLane) : List (Handle × Need × Nat × Nat) :=
  let a := min 4096 (l.ie - l.i)
  let b := min 4096 (l.je - l.j)
  if a = 0 ∨ b = 0 then []
  else
    [(si.ha, .r, l.i, a), (si.hb, .r, l.j, b)]
      ++ (match si.oh with | some h => [(h, .w, l.o, min (min a b) (hExt h 0 - l.o))] | none => [])

/-- A location of each line of a span that translates. -/
def spanLocs (s : State) (w : Wg) (ln : Launch) (p : Handle × Need × Nat × Nat) : List Loc :=
  let va := hBase p.1 + 4 * p.2.2.1
  let n := 4 * p.2.2.2
  if n = 0 then []
  else if hScratch p.1 then
    (List.range ((va + n + 127) / 128 - va / 128)).map (fun i => .scr w.uid (128 * (va / 128 + i)))
  else (linesOf va n).filterMap (fun l =>
    match translate s ln p.2.1 l with
    | .ok pa ca _ => some (.mem pa ca)
    | _ => none)

/-- The lines that a SISECT can reach: those of its lanes' ranges (log entry 58). -/
def siLocs (s : State) (w : Wg) (ln : Launch) (si : SiOp) : List Loc :=
  dedup (si.lanes.flatMap (fun l => (l.spans si).flatMap (spanLocs s w ln)))

/-- The units that an unfinished collector operation has still to reach. -/
def opUnits (s : State) (o : Op) : List (Nat × Nat) :=
  match o.kind, findCtx s o.grp with
  | .sisect si, some (_, w, ln) => if o.done then [] else (siLocs s w ln si).map Loc.unit
  | _, _ => collUnits o

/-- Whether an older collector operation of the group has still to reach a unit of this one (R293). -/
def collOlder (s : State) (o : Op) : Bool :=
  s.ops.any (fun x => x.grp == o.grp && decide (x.id < o.id) && (opUnits s x).any (opUnits s o).contains)

/-- The collector operations of a group that a SISECT keeps from taking effect: itself, and what stands behind such a one on a
unit of it (R293). -/
def siBehind (s : State) (k : GKey) : List Op :=
  (s.ops.filter (fun o => o.grp == k && !o.done)).foldl (fun st o =>
    match o.kind with
    | .sisect _ => st ++ [o]
    | _ => if st.any (fun x => (opUnits s x).any (collUnits o).contains) then st ++ [o] else st) []

/-- Whether a SCAT of a group waits for an older SISECT of it that can reach its lines. The group issues nothing until that
SISECT has run, since its accesses may have to wait for the SCAT (R293, R297, log entry 58). -/
def scatStuck (s : State) (k : GKey) : Bool :=
  (siBehind s k).any (fun o => match o.kind with | .scat _ => true | _ => false)

/-! ## Collector operations taking effect (R293, R296, R297) -/

/-- Whether an operation is a SCAT with a write outstanding on one of some units. -/
def scatOn (us : List (Nat × Nat)) (o : Op) : Bool :=
  match o.kind with
  | .scat _ => (collUnits o).any us.contains
  | _ => false

/-- A core's lanes that a full collector has kept from issuing go on once every line of their operation has an entry
(R292). -/
def collRelease (s : State) (core : Nat) : State :=
  let behind := ((coreOf s core).coll.drop 64).flatMap (·.waiting)
  let keeps (h : Hold) : Bool := match h.why with | .collector op => behind.contains op | _ => true
  let here (g : Group) : Bool := match findWg s g.key.wg with | some w => w.core == core | none => false
  { s with groups := updateIf here (fun g => { g with holds := g.holds.filter keeps }) s.groups }

/-- An operation leaves the request collector. -/
def collDrop (s : State) (core id : Nat) : State :=
  let c := coreOf s core
  let left := c.coll.map (fun e => { e with waiting := e.waiting.filter (fun n => n ≠ id) })
  collRelease (setCore s core { c with coll := left.filter (fun e => !e.waiting.isEmpty) }) core

/-- The values of the registers that a GATH fills, and the registers whose data is poisoned. -/
def gathRead (s : State) (core owner : Nat) (fills : List LocFill) : List Fill × List (Nat × Nat) :=
  (fills.map (fun f =>
    ⟨f.lane, f.reg, match f.src with
      | some l => BitVec.ofNat 32 (ofBytes (engineBytes s core owner l 4))
      | none => 0⟩),
   (fills.filter (fun f => match f.src with | some l => s.poison.contains (locPoison l) | none => false)).map
     (fun f => (f.lane, f.reg)))

/-- A collector operation takes its effect on memory: a SCAT writes its bytes and completes, a GATH binds its values. -/
def collPerform (s : State) (w : Wg) (o : Op) : State :=
  match o.kind with
  | .scat bs =>
      finishOp (collDrop (engineSetAll (clearPoisonFor s bs) (w.core / 4) w.owner bs) w.core o.id) o.id []
  | .gath fills none =>
      let s := touchHome s w.core w.owner (fills.filterMap (·.src))
      updOp (collDrop s w.core o.id) o.id (fun x => { x with kind := .gath fills (some (gathRead s w.core w.owner fills)) })
  | _ => s

/-- The outstanding collector operations of a group older than `upto` take effect, in issue order, but for those that wait
behind a SISECT (R293). -/
def flushScats (s : State) (k : GKey) (upto : Nat) : State :=
  match findWg s k.wg with
  | none => s
  | some w =>
      (s.ops.filter (fun o => o.grp == k && decide (o.id < upto) && !o.done)).foldl
        (fun s o => if collOlder s o then s else collPerform s w o) s

/-- The units that an entry of a FIFO touches. -/
def entryUnits (s : State) (e : FifoEntry) : List (Nat × Nat) :=
  match e with
  | .store _ _ _ bs => bs.map (fun b => b.loc.unit)
  | .atomic op =>
      match findOp s op with
      | some o => match o.kind with
        | .atomic a => a.reqs.map (fun q => q.loc.unit)
        | _ => []
      | none => []

/-- Whether an older SCAT of the group still has to write a line that this entry touches (R297). -/
def scatBlocks (s : State) (k : GKey) (e : FifoEntry) : Bool :=
  s.ops.any (fun o => o.grp == k && decide (o.id < e.op) && scatOn (entryUnits s e) o)

/-! ## Watch elements (R346, R347) -/

/-- Kinds of access that a slot can watch (R347). -/
inductive WKind where
  | lr | lw | er | ew
  deriving DecidableEq, Repr

/-- The KINDS bit of a kind. -/
def WKind.bit : WKind → Nat
  | .lr => 32 | .lw => 33 | .er => 34 | .ew => 35

/-- An element that an instruction or operation reaches: the lanes it stands for, tag, kind and coordinates. -/
structure WatchEl where
  lanes : List Nat
  tag : Nat
  kind : WKind
  coord : List Nat
  deriving DecidableEq, Repr

/-- Whether an element matches an enabled slot; c2 and c3 are compared after they saturate (R346, R347). -/
def slotMatches (w : BitVec 256) (e : WatchEl) : Bool :=
  bit w 39 && bits w 31 0 == e.tag && bit w e.kind.bit &&
    (List.range 4).all (fun k =>
      let c := if k < 2 then nth e.coord k else min (nth e.coord k) 0xFFFF
      decide (watchLo w k ≤ c) && decide (c ≤ watchHi w k))

/-- The coordinates of an element as the frame holds them. -/
def coordWords (c : List Nat) : List Word := (List.range 4).map (fun k => BitVec.ofNat 32 (nth c k))

/-- The hit that an element gives on the armed slots of an operation: the lowest slot that it matches (R348). -/
def hitOf (slots : SMap (BitVec 256)) (e : WatchEl) : Option Hit :=
  match slots.find? (fun p => slotMatches p.2 e) with
  | none => none
  | some p =>
      some ⟨p.1, BitVec.ofNat 32 e.tag, BitVec.ofNat 32 (nth e.coord 0), BitVec.ofNat 32 (nth e.coord 1),
        BitVec.ofNat 32 (nth e.coord 2), BitVec.ofNat 32 (nth e.coord 3)⟩

/-- The hit of the lower slot; of equal slots the earlier (R348). -/
def lowerHit (a b : Option Hit) : Option Hit :=
  match a, b with
  | none, x => x
  | x, none => x
  | some x, some y => if y.slot < x.slot then some y else some x

/-- Marks an operation with the elements that it performs (R348). -/
def markHits (s : State) (id : Nat) (els : List WatchEl) : State :=
  match findOp s id with
  | none => s
  | some o =>
      if o.watch.isEmpty then s
      else
        let h := els.foldl (fun h e => lowerHit h (hitOf o.watch e)) o.hit
        updOp s id (fun x => { x with hit := h })

/-! ## Observing joins (R348) -/

/-- The trap that delivers a hit. -/
def hitTrap (j : JoinHit) : TrapInfo :=
  { mkTrap cWatch (j.hit.slot + 8) with
    coord := [j.hit.c0, j.hit.c1, j.hit.c2, j.hit.c3], tag := j.hit.tag, eopid := eopidOf j.eop j.cls }

/-- The older of two hit operations. -/
def olderHit (a : Option JoinHit) (b : JoinHit) : Option JoinHit :=
  match a with
  | none => some b
  | some x => if b.op < x.op then some b else some x

/-- The hit of a copy that is still in flight, observable where it has landed (R127, R132, R273). -/
def Op.early (o : Op) : Option JoinHit :=
  match o.kind, o.hit with
  | .copy k, some h => if o.done then none else some ⟨o.id, o.eop, o.ord, o.cls, h, k.vias, o.seen⟩
  | _, _ => none

/-- Every hit that some instruction can observe: of operations that have completed, and of copies in flight. -/
def openHits (s : State) : List JoinHit := s.hits ++ s.ops.filterMap Op.early

/-- A group has observed the hits that satisfy `q`. -/
def seeHits (s : State) (k : GKey) (q : JoinHit → Bool) : State :=
  { s with
    hits := updateIf (fun j => q j && !j.seen.contains k) (fun j => { j with seen := k :: j.seen }) s.hits
    ops := updateIf (fun o => o.early.any (fun j => q j && !j.seen.contains k)) (fun o => { o with seen := k :: o.seen }) s.ops }

/-- The group observes the joins that `p` names: in trap mode their hits are discarded (R339); otherwise the oldest
is delivered, and the instruction traps before it completes. -/
def observe (s : State) (g : Group) (p : JoinHit → Bool) : Except Stop State :=
  let mine := (openHits s).filter (fun j => p j && !j.seen.contains g.key)
  if mine.isEmpty then .ok s
  else
    let see (q : JoinHit → Bool) : State := seeHits s g.key (fun j => p j && q j)
    if g.trapMode then .ok (see (fun _ => true))
    else
      match mine.foldl olderHit none with
      | none => .ok s
      | some j => .error (.trapIn (hitTrap j) (see (fun x => x.op == j.op)))

/-- Whether a WAITC of threshold n covers a completed operation: it is not among the n most recent of its class. -/
def covers (g : Group) (n : Nat) (cls : OpClass) (j : JoinHit) : Bool :=
  j.cls = cls && j.via.contains (.counter g.key cls) && decide (n ≤ mapGet 0 g.issued (classCode cls) - j.ord)

/-! ## Stores leaving the FIFO (R254–R256) -/

/-- A scope whose accesses meet at the home L2 (R270). -/
def wideScope : Scope → Bool
  | .group | .workgroup => false
  | _ => true

/-- A scope of CLUSTER or wider, if there is one. -/
def wideOpt : Option Scope → Bool
  | some sc => wideScope sc
  | none => false

/-- A byte written at the point of a wide release: the home L2 (R270). -/
def releaseByteOut (s : State) (core owner : Nat) (b : StoreByte) : State :=
  match b.loc with
  | .scr uid off => scratchSet s uid off b.val
  | .mem pa ca =>
      homeSet (l1Drop (wcOutRange s core pa (pa + 1)) core (lineOf pa)) (keyOr s owner) ca pa b.val

/-- The bytes of an entry as they leave the FIFO: into the write-combining buffer, to the home L2 after the write-back
of a wide release, or into L1 and scratchpad. A wide release takes nothing out of the write-combining buffer, also no store that another
group's NTDRAIN has gathered: the model's choice of log entry 134. -/
def entryOut (s : State) (k : GKey) (w : Wg) (op : Nat) (nt : Bool) (rel : Option Scope) (bs : List StoreByte) : State :=
  if nt then
    let s := (memLines bs).foldl (fun s l => l1Drop s w.core l) s
    let c := coreOf s w.core
    setCore s w.core { c with wc := c.wc ++ [⟨k, op, w.owner, bs⟩] }
  else if wideOpt rel then
    l2TouchAll (bs.foldl (fun s b => releaseByteOut s w.core w.owner b) (l1WriteBackAll s w.core)) w.owner (memLines bs)
  else bs.foldl (fun s b => storeByteOut s w.core w.owner b) s

/-- One half or whole of a store has been written; the last one completes it (R104, R259). -/
def storeHalf (s : State) (op : Nat) : State :=
  match findOp s op with
  | some o =>
      match o.kind with
      | .store n => if n ≤ 1 then finishOp s op [] else updOp s op (fun x => { x with kind := .store (n - 1) })
      | _ => s
  | none => s

/-- What an entry of the FIFO wrote has left it: a store's half or whole, or the second halves of some PSTs (R104, R259). -/
def storeLeft (s : State) (op : Nat) : State :=
  match findOp s op with
  | some o =>
      match o.kind with
      | .second ids => ids.foldl storeHalf (finishOp s op [])
      | _ => storeHalf s op
  | none => s

/-! ## Atomics (R261–R265) -/

/-- One step of an atomic on a value of w bytes (R263). -/
def atomStep (op : AtomOp) (w m v : Nat) : Nat :=
  let top := 256 ^ w
  match op with
  | .add => (m + v) % top
  | .min => if toSigned (8 * w) v < toSigned (8 * w) m then v else m
  | .max => if toSigned (8 * w) m < toSigned (8 * w) v then v else m
  | .umin => min m v
  | .umax => max m v
  | .and => m &&& v
  | .or => m ||| v
  | .xor => m ^^^ v
  | .exch => v
  | .fadd => (addF .fp32 m v).code
  | .fmin => (minMaxF false m v).code
  | .fmax => (minMaxF true m v).code
  | .incw => if v ≤ m then 0 else (m + 1) % top

/-- What an atomic leaves of a value for one lane (R263). -/
def atomApply (k : AtomKind) (w : Nat) (m : Nat) (l : AtomLane) : Nat :=
  match k with
  | .rmw op => atomStep op w m l.val
  | .cas => if m = l.cmp then l.val else m

/-- Serial execution in ascending lane order: each lane's old value, and the final value (R263). -/
def atomSerial (k : AtomKind) (w : Nat) : Nat → List AtomLane → List (Nat × Nat) × Nat
  | m, [] => ([], m)
  | m, l :: ls =>
      let r := atomSerial k w (atomApply k w m l) ls
      ((l.lane, m) :: r.1, r.2)

/-- The fills of a lane's returning registers: an old value of w bytes, low word first. -/
def oldFills (d w : Nat) (lane old : Nat) : List Fill :=
  (List.range (w / 4)).map (fun j => ⟨lane, d + j, BitVec.ofNat 32 (old / 4294967296 ^ j)⟩)

/-- Consecutive bytes of a location. -/
def locBytes (s : State) (owner : Nat) (l : Loc) (n : Nat) : List Byte :=
  match l with
  | .scr uid off => (List.range n).map (fun i => scratchByte s uid (off + i))
  | .mem pa _ => homeBytes s (keyOr s owner) pa n

/-- Writes consecutive bytes at a location's home. -/
def locSetBytes (s : State) (owner : Nat) (l : Loc) (bs : List Byte) : State :=
  match l with
  | .scr uid off => (bs.mapIdx (fun i b => (i, b))).foldl (fun s p => scratchSet s uid (off + p.1) p.2) s
  | .mem pa ca => ownSetBytes s owner ca pa bs

/-- Makes the home the one holder of an atomic's bytes: the core's write-combined and dirty bytes of the line go
home, and the line leaves L1 (R255, R265) and is the owner's in L2 (R70). -/
def atomReady (s : State) (core owner : Nat) (rel : Option Scope) (l : Loc) : State :=
  let s := if wideOpt rel then l1WriteBackAll s core else s
  match l with
  | .scr _ _ => s
  | .mem pa ca =>
      let s := l1Drop (wcOutRange s core (lineOf pa) (lineOf pa + 256)) core (lineOf pa)
      l2Touch (readThrough s ca pa) owner (lineOf pa)

/-- The home performs one request of the atomic at the head of a FIFO (R263). Between the sending of one and its performance
a group of the core may have filled the line again; its clean copy of the atomic's own bytes takes the result (R255). -/
def performReq (s : State) (w : Wg) (op : Nat) (a : Atomic) (r : Nat) : State :=
  match a.reqs[r]? with
  | none => s
  | some q =>
      let s := if q.sent then s else atomReady s w.core w.owner a.relScope q.loc
      let m := ofBytes (locBytes s w.owner q.loc a.width)
      let res := atomSerial a.kind a.width m q.lanes
      let bs := leBytes a.width res.2
      let s := (bs.mapIdx (fun i b => (⟨q.loc.plus i, b⟩ : StoreByte))).foldl (fun s b => l1Note s w.core w.owner b)
        (locSetBytes s w.owner q.loc bs)
      let fills := match a.dest with
        | none => []
        | some d => res.1.flatMap (fun p => oldFills d a.width p.1 p.2)
      updOp s op (fun o => { o with
        kind := .atomic { a with reqs := setAt a.reqs r { q with done := true }, fills := a.fills ++ fills } })

/-- All requests of an atomic are performed: it leaves the FIFO, an acquire drops the L1 of its core, and it goes on as
a load whose registers are to be written, or completes (R262, R265). -/
def atomicDone (s : State) (k : GKey) (w : Wg) (op : Nat) (a : Atomic) : State :=
  let s := updGroup s k (fun g => { g with fifo := g.fifo.filter (fun e => e ≠ .atomic op) })
  let s := if wideOpt a.acqScope then l1DropAll s w.core else s
  match a.dest with
  | some _ => updOp s op (fun o => { o with kind := .load a.fills })
  | none => finishOp s op []

/-- Settles an atomic once its last request is performed. -/
def atomicSettle (s : State) (k : GKey) (w : Wg) (op : Nat) : State :=
  match findOp s op with
  | some o =>
      match o.kind with
      | .atomic a => if a.reqs.all (·.done) then atomicDone s k w op a else s
      | _ => s
  | none => s

/-- The home performs a request of an atomic that it has not performed. -/
def performOne (s : State) (op r : Nat) : State :=
  match findOp s op with
  | none => s
  | some o =>
      match findWg s o.grp.wg, o.kind with
      | some w, .atomic a =>
          if (a.reqs[r]?).any (fun q => !q.done) then
            atomicSettle (performReq s w op a r) o.grp w op
          else s
      | _, _ => s

/-- The requests of an atomic below number n are performed. -/
def performAll (s : State) (op : Nat) : Nat → State
  | 0 => s
  | n + 1 => performOne (performAll s op n) op n

/-- What an operation has still to do as an atomic, if it is one. -/
def atomicOf (s : State) (op : Nat) : Option Atomic :=
  match findOp s op with
  | none => none
  | some o => match o.kind with
    | .atomic a => some a
    | _ => none

/-- The number of requests of an atomic. -/
def reqCount (s : State) (op : Nat) : Nat :=
  match atomicOf s op with
  | some a => a.reqs.length
  | none => 0

/-- An atomic of a group taken to its end, after the older SCATs of its lines (R297). -/
def drainAtomic (s : State) (k : GKey) (op : Nat) : State :=
  let s := if scatBlocks s k (.atomic op) then flushScats s k op else s
  performAll s op (reqCount s op)

/-! ## Atomics that later ones have passed (R263, R278) -/

/-- Whether a request of an access of w bytes touches one of some locations. -/
def AtomReq.touches (q : AtomReq) (w : Nat) (ls : List Loc) : Bool :=
  (List.range w).any (fun i => ls.any (Loc.same (q.loc.plus i)))

/-- The bytes of a request of w bytes. -/
def AtomReq.locs (q : AtomReq) (w : Nat) : List Loc := (List.range w).map q.loc.plus

/-- Whether an operation is an atomic that a later one has passed, with a request outstanding on some locations, or any
request outstanding where a release that passed it wrote one of them. -/
def Op.passedOn (o : Op) (ls : List Loc) : Bool :=
  match o.kind with
  | .atomic a => a.passed && a.reqs.any (fun q => !q.done && (q.touches a.width ls || a.gates.any (fun x => ls.any x.same)))
  | _ => false

/-- Before a group of a core reaches some locations, the passed atomics of the core's other groups that touch them are
performed, with all that stand before them: the groups of one core see each other in one order (R278). The same where a
release that has passed them wrote one of the locations: whoever reads it follows them (R275, R280). -/
def settlePassed (s : State) (core : Nat) (k : GKey) (ls : List Loc) : State :=
  (s.ops.filter (fun o => o.passedOn ls && o.grp != k && (match findWg s o.grp.wg with | some w => w.core == core | none => false))).foldl
    (fun s o =>
      match findGroup s o.grp with
      | none => s
      | some g => ((g.fifo.map FifoEntry.op).filter (fun n => decide (n ≤ o.id))).foldl (fun s n => drainAtomic s o.grp n) s) s

/-- The atomics of a FIFO that stand before an operation; none where something else stands there. -/
def atomicsBefore (s : State) (op : Nat) : List FifoEntry → Option (List (Nat × Atomic))
  | [] => none
  | .store _ _ _ _ :: _ => none
  | .atomic n :: es =>
      if n = op then some []
      else
        match atomicOf s n with
        | some a => (atomicsBefore s op es).map ((n, a) :: ·)
        | none => none

/-- Whether request q of an atomic may be performed though some older atomics of its group are not: requests for different
addresses are independent of one another (R263), unless an acquire or a release orders them (R265, R275). Those of GROUP and
WORKGROUP scope order them for the groups of the core alone, which see no difference, since such a group's access to what
the release wrote performs them first (R272, R275, R365). -/
def mayPass (a : Atomic) (q : AtomReq) (before : List (Nat × Atomic)) : Bool :=
  before.isEmpty || (!wideOpt a.relScope && before.all (fun p =>
    !wideOpt p.2.acqScope && p.2.reqs.all (fun x => x.done || !x.touches p.2.width (q.locs a.width))))

/-- Notes that a later atomic has been performed before some atomics, and what it wrote if it is a release. -/
def markPassed (s : State) (ids : List Nat) (gates : List Loc) : State :=
  { s with
    ops := updateIf (fun o => ids.contains o.id)
      (fun o => { o with kind := match o.kind with | .atomic a => .atomic { a with passed := true, gates := a.gates ++ gates } | x => x }) s.ops }

/-- A request of an atomic that may be sent or performed now: its workgroup, the atomic, the request, and the atomics of the
group that it passes. -/
structure AtomTurn where
  w : Wg
  grp : GKey
  a : Atomic
  q : AtomReq
  before : List (Nat × Atomic)
  deriving DecidableEq, Repr

/-- Request r of an atomic, which heads its group's FIFO or may pass those before it (R263), no SCAT holding any of them back
(R297). -/
def atomTurn (s : State) (op r : Nat) : Option AtomTurn :=
  match findOp s op with
  | none => none
  | some o =>
      match findGroup s o.grp, findWg s o.grp.wg, o.kind with
      | some g, some w, .atomic a =>
          match atomicsBefore s op g.fifo, a.reqs[r]? with
          | some before, some q =>
              if mayPass a q before && !q.done && ((op, a) :: before).all (fun p => !scatBlocks s o.grp (.atomic p.1)) then
                some ⟨w, o.grp, a, q, before⟩
              else none
          | _, _ => none
      | _, _, _ => none

/-- ATOMIC_PERFORM. -/
def performAtomic (s : State) (op r : Nat) : Option State :=
  match atomTurn s op r with
  | none => none
  | some t =>
      let ls := t.q.locs t.a.width ++ t.before.flatMap (fun p => p.2.reqs.flatMap (fun x => x.locs p.2.width))
      let gates := if t.a.relScope.isSome then t.q.locs t.a.width else []
      some (performOne (markPassed (settlePassed s t.w.core t.grp ls) (t.before.map (·.1)) gates) op r)

/-- A request leaves the core: the write-back of a wide release and of its own line, which leaves L1, come first (R255, R265). -/
def sendAtomic (s : State) (op r : Nat) : Option State :=
  match atomTurn s op r with
  | none => none
  | some t =>
      if t.q.sent then none
      else
        some (updOp (atomReady s t.w.core t.w.owner t.a.relScope t.q.loc) op (fun o => { o with
          kind := .atomic { t.a with reqs := setAt t.a.reqs r { t.q with sent := true } } }))

/-! ## Draining a FIFO -/

/-- The store at the head of a group's FIFO leaves it: STORE_RETIRE. -/
def retireStore (s : State) (k : GKey) : Option State :=
  match findGroup s k, findWg s k.wg with
  | some g, some w =>
      match g.fifo with
      | .store op nt rel bs :: rest =>
          if scatBlocks s k (.store op nt rel bs) then none
          else
            let s := updGroup (settlePassed s w.core k (bs.map (·.loc))) k (fun g => { g with fifo := rest })
            some (storeLeft (entryOut s k w op nt rel bs) op)
      | _ => none
  | _, _ => none

/-- The locations that an atomic's requests touch. -/
def atomicLocs (s : State) (op : Nat) : List Loc :=
  match atomicOf s op with
  | some a => a.reqs.flatMap (fun q => q.locs a.width)
  | none => []

/-- One entry of a FIFO taken to its end. -/
def drainOne (s : State) (k : GKey) : State :=
  match findGroup s k, findWg s k.wg with
  | some g, some w =>
      match g.fifo with
      | [] => s
      | .store op nt rel bs :: _ =>
          let s := if scatBlocks s k (.store op nt rel bs) then flushScats s k op else s
          (retireStore s k).getD s
      | .atomic op :: _ => drainAtomic (settlePassed s w.core k (atomicLocs s op)) k op
  | _, _ => s

/-- Entries of a FIFO taken to their end, oldest first. -/
def drainN (s : State) (k : GKey) : Nat → State
  | 0 => s
  | n + 1 => drainN (drainOne s k) k n

/-- Entries older than an operation taken to their end. -/
def drainBelow (s : State) (k : GKey) (upto : Nat) : State :=
  match findGroup s k with
  | none => s
  | some g => drainN s k (g.fifo.filter (fun e => decide (e.op < upto))).length

/-- The group's outstanding SCATs that write some units, and what stands before them, are performed (R297). -/
def settleScats (s : State) (k : GKey) (us : List (Nat × Nat)) : State :=
  match (s.ops.filter (fun o => o.grp == k && scatOn us o)).getLast? with
  | none => s
  | some o => flushScats (drainBelow s k o.id) k (o.id + 1)

/-- A group's FIFO empties: its earlier accesses are performed before the access that waits for them (R254, R275). -/
def drainFifo (s : State) (k : GKey) : State :=
  match findGroup s k with
  | none => s
  | some g => drainN s k g.fifo.length

end Sys2Proof.Machine
end

