-- ==== Sys2Proof/Machine/LanePath.lean ====
section
/-! DEFINITION. The path of a lane's access to memory (R101): handle, bounds, scratchpad, alignment, translation or
presence (R58, R127), soft errors (R358), trailers (R108), issue-time watches (R348), and the launch digest (R324). -/

namespace Sys2Proof.Machine

/-! ## Handles at issue (R73, R74) -/

/-- The image of a slot in the workgroup's copy of the table as the instruction reads it; zero when unloaded. -/
def Ctx.slot (c : Ctx) (n : Nat) : Handle := mapGet 0 c.slots n

/-- A loaded slot, or HANDLE subcode 1. -/
def Ctx.handle (c : Ctx) (n : Nat) : Except Stop Handle := do
  demand (loaded (c.slot n)) cHandle 1
  .ok (c.slot n)

/-- A format among those accepted and no PROFILE flag, or HANDLE subcode 2 (R105, R106). -/
def acceptFmt (h : Handle) (fmts : List Nat) : Except Stop Unit :=
  demand (fmts.contains (hFmt h) && !hProfile h) cHandle 2

/-- Formats 0 to 10. -/
def anyFmt : List Nat := [0, 1, 2, 3, 4, 5, 6, 7, 8, 9, 10]

/-! ## Runs: what each in-bounds lane reaches -/

/-- The bytes that a lane reaches: its address (an offset where SPACE is 1), their number and its linear index. -/
structure Run where
  lane : Nat
  va : Nat
  n : Nat
  idx : Nat
  deriving DecidableEq, Repr

/-- An OOB trap with the coordinates of the lowest lane's index (R77, R337). -/
def oobTrap {α : Type} (h : Handle) (bad : List (Nat × Nat)) : Except Stop α :=
  .error (.trap { mkTrap cOob 0 with
    mask := maskOf (bad.map (·.1))
    coord := match bad with | (_, i) :: _ => coordWords (coords h i) | [] => [] })

/-- The scratchpad size of the workgroup. -/
def Ctx.scratchSize (c : Ctx) : Nat := c.w.scratchSize

/-- SPBOUND for the runs that leave the allocation (R124). -/
def spCheck (c : Ctx) (runs : List Run) : Except Stop Unit :=
  match runs.filter (fun r => decide (c.scratchSize < r.va + r.n)) with
  | [] => .ok ()
  | r :: rs =>
      .error (.trap { mkTrap cSpbound 1 with mask := maskOf ((r :: rs).map (·.lane)), addr := BitVec.ofNat 64 r.va })

/-- The runs of lanes with their indices through a handle, n bytes each: OOB, SPBOUND, ALIGN (R75–R77). Lanes that are
out of bounds with TRAPOOB clear give no run. -/
def laneRuns (c : Ctx) (h : Handle) (n align : Nat) (idx : List (Nat × Nat)) : Except Stop (List Run) := do
  let out := idx.filter (fun p => (laneAddr h p.2 n).isNone)
  if hTrapOob h && !out.isEmpty then oobTrap h out
  else
    let runs := idx.filterMap (fun p =>
      match laneAddr h p.2 n with
      | some a => some (Run.mk p.1 a n p.2)
      | none => none)
    if hScratch h then spCheck c runs else .ok ()
    demandNone ((runs.filter (fun r =>
      r.va % align != 0 || (hFmt h == 8 && nth (coords h r.idx) 0 % 2 == 1))).map (·.lane)) cAlign 0
    .ok runs

/-! ## Translation of lines (R58) and presence (R127) -/

/-- A line that an access of a lane touches, with its translation. -/
structure XLine where
  lane : Nat
  line : Nat
  x : Xl
  deriving DecidableEq, Repr

/-- The translations of the lines of some runs. -/
def xlLines (s : State) (ln : Launch) (need : Need) (runs : List Run) : List XLine :=
  runs.flatMap (fun r => (linesOf r.va r.n).map (fun l => ⟨r.lane, l, translate s ln need l⟩))

/-- Cause and subcode of a failing translation. -/
def xlFault : Xl → Option (Nat × Nat)
  | .ok _ _ _ => none
  | .page k => some (cPage, k)
  | .prot k => some (cProt, k)

/-- The fault that R58 chooses: PAGE before PROT, then the lowest subcode. -/
def worstFault (fs : List (Nat × Nat)) : Option (Nat × Nat) :=
  fs.foldl (fun b f =>
    match b with
    | none => some f
    | some g => if f.1 < g.1 ∨ (f.1 = g.1 ∧ f.2 < g.2) then some f else some g) none

/-- A migrating line. -/
def XLine.mig (x : XLine) : Bool :=
  match x.x with
  | .ok _ _ m => m
  | _ => false

/-- The lines of one cause and subcode. -/
def linesWith (xs : List XLine) (f : Nat × Nat) : List XLine := xs.filter (fun x => xlFault x.x == some f)

/-- The trap of R58 for failing lines, in ascending lane order. -/
def xlTrap (xs : List XLine) (f : Nat × Nat) : TrapInfo :=
  { mkTrap f.1 f.2 with
    mask := maskOf ((linesWith xs f).map (·.lane))
    addr := match linesWith xs f with | x :: _ => BitVec.ofNat 64 x.line | [] => 0 }

/-- Whether an access writes. -/
def Need.writes : Need → Bool
  | .w | .rw => true
  | _ => false

/-- Passes when no line fails; traps as R58 states; parks where `parks` lines migrate (R65). -/
def xlCheck (xs parks : List XLine) : Except Stop Unit :=
  match worstFault (xs.filterMap (fun x => xlFault x.x)) with
  | some f => .error (.trap (xlTrap xs f))
  | none =>
      match parks.filter XLine.mig with
      | x :: _ => .error (.park (.migration x.line))
      | [] => .ok ()

/-- The location of a virtual byte whose line translates. -/
def locOf (s : State) (ln : Launch) (need : Need) (va : Nat) : Loc :=
  match translate s ln need va with
  | .ok pa ca _ => .mem pa ca
  | _ => .mem 0 0

/-- The bytes of a run, its lines having been translated. -/
def runLocs (c : Ctx) (s : State) (h : Handle) (need : Need) (va n : Nat) : List Loc :=
  if hScratch h then (List.range n).map (fun i => .scr c.w.uid (va + i))
  else
    (linesOf va n).flatMap (fun l =>
      match translate s c.ln need l with
      | .ok pa ca _ =>
          ((List.range 256).filter (fun i => decide (va ≤ l + i) && decide (l + i < va + n))).map
            (fun i => Loc.mem (pa + i) ca)
      | _ => [])

/-- The absent scratchpad lines that some runs touch (R126, R127). -/
def absentLines (w : Wg) (runs : List Run) : List Nat :=
  dedup ((runs.flatMap (fun r => (List.range ((r.va + r.n + 127) / 128 - r.va / 128)).map (r.va / 128 + ·))).filter
    (fun l => w.absent.contains l))

/-- Parks until every line that the runs touch is present (R127). -/
def presenceCheck (c : Ctx) (runs : List Run) : Except Stop Unit :=
  match absentLines c.w runs with
  | [] => .ok ()
  | ls => .error (.park (.presence c.w.uid ls))

/-- SOFT for lanes that read a poisoned scratchpad or cache line (R358). -/
def softCheck (c : Ctx) (s : State) (h : Handle) (runs : List Run) : Except Stop Unit :=
  if s.poison.isEmpty then .ok ()
  else
    let bad := runs.filter (fun r =>
      if hScratch h then
        (List.range ((r.va + r.n + 127) / 128 - r.va / 128)).any (fun i =>
          s.poison.contains (.scratch c.w.uid (r.va / 128 + i)))
      else (linesOf r.va r.n).any (fun l =>
        match translate s c.ln .r l with
        | .ok pa _ _ => s.poison.contains (.line (lineOf pa))
        | _ => false))
    match bad with
    | [] => .ok ()
    | r :: rs =>
        .error (.trap { mkTrap cSoft (if hScratch h then 2 else 5) with
          mask := maskOf ((r :: rs).map (·.lane)), addr := BitVec.ofNat 64 r.va })

/-- Translation or presence of the runs of one handle. `tolerate` lists the subcode 2 lines that do not trap (LDNR, R63). -/
def reachLines (c : Ctx) (s : State) (h : Handle) (need : Need) (tolerate : Bool) (runs : List Run) :
    Except Stop Unit :=
  if hScratch h then presenceCheck c runs
  else
    let xs := xlLines s c.ln need runs
    let xs := if tolerate then xs.filter (fun x => x.x ≠ .page 2) else xs
    xlCheck xs (if need.writes then xs else [])

/-- The same, and the soft errors that a lane's read meets (R358). -/
def reach (c : Ctx) (s : State) (h : Handle) (need : Need) (tolerate : Bool) (runs : List Run) :
    Except Stop Unit := do
  reachLines c s h need tolerate runs
  if need = .w then .ok () else softCheck c s h runs

/-- Whether a run's line is non-resident (R109). -/
def nonResident (c : Ctx) (s : State) (h : Handle) (r : Run) : Bool :=
  !hScratch h && translate s c.ln .r (lineOf r.va) == .page 2

/-! ## Watches at issue (R348) -/

/-- The elements that a lane reaches with n elements from its index. -/
def laneEls (h : Handle) (k : WKind) (lane : Nat) (i n : Nat) : List WatchEl :=
  let c := coords h i
  (List.range n).map (fun j => ⟨[lane], hTag h, k, [nth c 0 + j, nth c 1, nth c 2, nth c 3]⟩)

/-- The elements of some runs. -/
def runEls (h : Handle) (k : WKind) (runs : List Run) : List WatchEl :=
  runs.flatMap (fun r => laneEls h k r.lane r.idx (elemsOf h r.n))

/-- Whether a slot acts at issue on an element (R348). -/
def actsAtIssue (w : BitVec 256) (e : WatchEl) : Bool := !bit w 38 || e.kind = .lr || e.kind = .lw

/-- The lanes whose elements pass the watches of this issue under WSKIP (R343). -/
def skipLanes (c : Ctx) : List Nat :=
  c.act.filter (fun l => c.g.wskip.any (fun e => e.tpc == c.pc && e.mask.toNat / 2 ^ l % 2 == 1))

/-- What follows in an issue that has come as far as `s` with an effect that stands though a later check traps or parks: the
WSKIP that its watch step has used up (R343), or an older access of the group that it waited for (R297). -/
def thereafter {α : Type} (s : State) (r : Except Stop α) : Except Stop α :=
  match r with
  | .error (.trap t) => .error (.trapIn t s)
  | .error (.park why) => .error (.parkIn why s)
  | r => r

/-- The watch step of R45: the WSKIP of the issuing lanes is used up, and the lowest slot that an element matches
traps. Elements come in ascending lane order. -/
def watchStep (c : Ctx) (s : State) (els : List WatchEl) : Except Stop State :=
  if c.g.trapMode then .ok s
  else
    let skip := skipLanes c
    let s := updGroup s c.g.key (fun g => dropSkips g c.pc c.act)
    let els := els.filter (fun e => !e.lanes.all (fun l => skip.contains l))
    let hitSlot (k : Nat) (w : BitVec 256) : Option (Nat × List WatchEl) :=
      match els.filter (fun e => slotMatches w e && actsAtIssue w e) with
      | [] => none
      | es => some (k, es)
    match firstSome (c.w.watch.map (fun p => hitSlot p.1 p.2)) with
    | none => .ok s
    | some (k, es) =>
        let e := es.headD ⟨[], 0, .lr, []⟩
        .error (.trapIn { mkTrap cWatch k with
          mask := maskOf (es.flatMap (·.lanes)), coord := coordWords e.coord, tag := BitVec.ofNat 32 e.tag
          wskip := true } s)

/-- The scratchpad lines of some runs. -/
def scratchLines (runs : List Run) : List Nat :=
  runs.flatMap (fun r => (List.range ((r.va + r.n + 127) / 128 - r.va / 128)).map (r.va / 128 + ·))

/-- An access that has parked on presence is accepted: it observes every copy that landed bytes in the scratchpad lines
that it reaches (R127, R273, R348). -/
def observeLines (c : Ctx) (s : State) (ls : List Nat) : Except Stop State :=
  if c.g.waited.contains c.pc then observe s c.g (fun j => ls.any (fun l => j.via.contains (.line c.w.uid l))) else .ok s

/-- The same for the lines that some runs through a handle reach. -/
def observeParked (c : Ctx) (s : State) (h : Handle) (runs : List Run) : Except Stop State :=
  observeLines c s (if hScratch h then scratchLines runs else [])

/-! ## Bytes -/

/-- The group as the state now has it. -/
def Ctx.now (c : Ctx) (s : State) : Group := (findGroup s c.g.key).getD c.g

/-- Whether a queued atomic must be performed before a load of these bytes binds: it touches them, or it is an acquire
(R255, R265). -/
def waitsOnAtomic (s : State) (g : Group) (ls : List Loc) : Bool :=
  g.fifo.any (fun e =>
    match e with
    | .store _ _ _ _ => false
    | .atomic op =>
        match findOp s op with
        | some o =>
            match o.kind with
            | .atomic a => a.acqScope.isSome || a.reqs.any (fun q => q.touches a.width ls)
            | _ => false
        | none => false)

/-- The state in which an access of the group reaches these bytes: its outstanding SCATs and queued atomics that it
must follow, and atomics of the core that others have passed, are performed (R255, R265, R278, R297). -/
def settleFor (c : Ctx) (s : State) (ls : List Loc) : State :=
  let s := settlePassed (settleScats s c.g.key (ls.map Loc.unit)) c.w.core c.g.key ls
  if waitsOnAtomic s (c.now s) ls then drainFifo s c.g.key else s

/-- The checks of the lines that an access reads in the state in which what it waits for has been performed (R58, R127,
R358). -/
def reachIn (c : Ctx) (s : State) (h : Handle) (need : Need) (tolerate : Bool) (runs : List Run) : Except Stop State :=
  thereafter s (do
    reach c s h need tolerate runs
    .ok s)

/-- The same for a load, which waits for all outstanding writes of its bytes (R255, R297). -/
def reachRead (c : Ctx) (s : State) (h : Handle) (tolerate : Bool) (runs : List Run) : Except Stop State :=
  reachIn c (settleFor c s (runs.flatMap (fun r => runLocs c s h .r r.va r.n))) h .r tolerate runs

/-- The same for an access that reads and writes and takes its place behind the group's stores: its checks wait for the
outstanding SCATs of its lines (R297). -/
def reachRw (c : Ctx) (s : State) (h : Handle) (runs : List Run) : Except Stop State :=
  reachIn c (settleScats s c.g.key ((runs.flatMap (fun r => runLocs c s h .rw r.va r.n)).map Loc.unit)) h .rw false runs

/-- The state in which a load of these bytes binds its values, its lines being in the core's L1. -/
def bindState (c : Ctx) (s : State) (ls : List Loc) : State :=
  touchLocs (settleFor c s ls) c.w.core c.w.owner ls

/-- The same where each access is `wide`, of more than a word: what it reads of 16 aligned bytes is of one age (R264). -/
def bindWide (c : Ctx) (s : State) (wide : Bool) (ls : List Loc) : State :=
  let s := bindState c s ls
  if wide then l1Mend s c.w.core ls else s

/-- The bytes at some locations as the group reads them. -/
def readLocs (c : Ctx) (s : State) (ls : List Loc) : List Byte :=
  let g := c.now s
  ls.map (readLoc s c.w.core c.w.owner g)

/-- The words of some bytes, low word first. -/
def wordsOf (bs : List Byte) : List Word :=
  (List.range (bs.length / 4)).map (fun j => BitVec.ofNat 32 (ofBytes ((bs.drop (4 * j)).take 4)))

/-- The codes of n elements held in the bytes that a lane's run covers (R76, R81). -/
def elemCodes (h : Handle) (n : Nat) (bs : List Byte) : List Nat :=
  if hFmt h = 8 then (tileCodes 8 bs).take n
  else (List.range n).map (fun j => ofBytes ((bs.drop (elemSize (hFmt h) * j)).take (elemSize (hFmt h))))

/-! ## The digest (R324) -/

/-- The digest address of a byte written through a handle. -/
def digestAddr (h : Handle) (a : Nat) : DWord := if hScratch h then BitVec.ofNat 64 (2 ^ 60 + a) else BitVec.ofNat 64 a

/-- What one byte adds to the digest. -/
def digestTerm (a : DWord) (b : Byte) : DWord := streamF 0 0 (streamF 0 0 a ^^^ b.setWidth 64)

/-- Adds bytes written at virtual addresses through a handle, if it has DIGEST set. -/
def addDigest (s : State) (ln : Launch) (h : Handle) (bs : List (Nat × Byte)) : State :=
  if hDigest h then
    updLaunch s ln.uid (fun l =>
      { l with digest := bs.foldl (fun d b => d + digestTerm (digestAddr h b.1) b.2) l.digest })
  else s

/-! ## Trailers (R93–R95, R108) -/

/-- The number of the quantised tile that holds an address; no tile holds one below BASE, which R93 does not name and a
negative stride reaches (log entry 83). -/
def tileOf (h : Handle) (a : Nat) : Option Nat := if a < hBase h then none else some ((a - hBase h) / 4096)

/-- The runs that a check of some tiles adds to a lane's own: the tile and its trailer (R95). -/
def tileRuns (h : Handle) (runs : List Run) : List Run :=
  runs.flatMap (fun r =>
    match tileOf h r.va with
    | some t => [⟨r.lane, hBase h + 4096 * t, 4096, r.idx⟩, ⟨r.lane, hTrb h + 16 * t, 16, r.idx⟩]
    | none => [])

/-- The subcode of the failed check of a tile, if it fails, its bytes being as `rd` reads them. -/
def tileFault (c : Ctx) (s : State) (h : Handle) (rd : List Loc → List Byte) (t : Nat) : Option Nat :=
  trailerFault (hFmt h) (rd (runLocs c s h .r (hBase h + 4096 * t) 4096)) (rd (runLocs c s h .r (hTrb h + 16 * t) 16))

/-- The trailer checks of the tiles of an access (R108): BPOISON for the lanes that touch a failing tile, with the address of
the lowest failing tile and, where several fail, its subcode (log entry 82). -/
def tilesPass (c : Ctx) (s : State) (h : Handle) (rd : List Loc → List Byte) (runs : List Run) : Except Stop Unit :=
  let ts := dedup (runs.filterMap (fun r => tileOf h r.va))
  let bad := ts.filterMap (fun t => (tileFault c s h rd t).map (fun k => (t, k)))
  match bad with
  | [] => .ok ()
  | b :: bs =>
      let low := bs.foldl (fun m x => if x.1 < m.1 then x else m) b
      .error (.trap { mkTrap cBpoison low.2 with
        mask := maskOf ((runs.filter (fun r => bad.any (fun x => some x.1 == tileOf h r.va))).map (·.lane))
        addr := BitVec.ofNat 64 (hBase h + 4096 * low.1) })

/-- The locations that the checks of some tiles read: all of each tile, and its trailer (R95). -/
def tileLocs (c : Ctx) (s : State) (h : Handle) (runs : List Run) : List Loc :=
  dedup ((tileRuns h runs).flatMap (fun r => runLocs c s h .r r.va r.n))

/-- The checks of the tiles of a lane load, and the state that their reads leave: as those of any load they go through the core's
L1 (R51, R70, R108). -/
def tileCheck (c : Ctx) (s : State) (h : Handle) (runs : List Run) : Except Stop State :=
  let s := bindWide c s true (tileLocs c s h runs)
  thereafter s (do
    tilesPass c s h (readLocs c s) runs
    .ok s)

end Sys2Proof.Machine
end

