-- ==== Sys2Proof/Machine/KsLayout.lean ====
section
/-! DEFINITION. The layout of a key store (R236–R238): header, bucket table and pool, how the key-store unit reaches their
bytes, and the footprint that they form (R78). -/

namespace Sys2Proof.Machine

/-! ## Layout (R236–R238) -/

/-- A key-store header. -/
abbrev KsHead := BitVec 2048

def ksKbase (h : KsHead) : Nat := bits h 63 0
def ksPoolcap (h : KsHead) : Nat := bits h 95 64
def ksPooln (h : KsHead) : Nat := bits h 127 96
def ksSeedLo (h : KsHead) : DWord := BitVec.ofNat 64 (bits h 191 128)
def ksSeedHi (h : KsHead) : DWord := BitVec.ofNat 64 (bits h 255 192)
def ksBits (h : KsHead) : Nat := bits h 263 260
def ksPscope (h : KsHead) : Nat := bits h 268 266
def ksOvf (h : KsHead) : Bool := bit h 272
def ksFlt (h : KsHead) : Bool := bit h 273
def ksLost (h : KsHead) : Nat := bits h 319 288

/-- The head dimension d. -/
def ksDim (h : KsHead) : Nat := if bit h 256 then 128 else 64
/-- The block capacity C. -/
def ksC (h : KsHead) : Nat := 4 * 2 ^ bits h 265 264
/-- The size Z of a block. -/
def ksZ (h : KsHead) : Nat := 16 + 4 * ksC h
/-- Whether PSCOPE is CLUSTER or wider. -/
def ksWide (h : KsHead) : Bool := decide (2 ≤ ksPscope h)

/-- The magic number of a header. -/
def ksMagic : Nat := 0x4B530001

/-- A valid header under its handle (R237). -/
def ksValid (k : Handle) (h : KsHead) : Bool :=
  bits h 351 320 == ksMagic && bits h 2047 352 == 0 && bits h 287 274 == 0 && bits h 271 269 == 0
    && bits h 259 257 == 0 && decide (4 ≤ ksBits h) && decide (ksBits h ≤ 12) && decide (bits h 265 264 ≤ 2)
    && decide (ksPscope h ≤ 5) && ksKbase h % 256 == 0 && decide (ksKbase h < 2 ^ 60)
    && decide (ksPooln h ≤ ksPoolcap h) && decide (ksPoolcap h ≤ 2 ^ 24) && decide (hExt k 0 ≤ 2 ^ 31)

/-- The virtual address of a bucket's entry. -/
def ksEntryVa (k : Handle) (b : Nat) : Nat := hBase k + 256 + 8 * b
/-- The virtual address of a block. -/
def ksBlockVa (k : Handle) (h : KsHead) (n : Nat) : Nat := hBase k + 256 + 8 * 2 ^ ksBits h + ksZ h * n

/-! ## The footprint as the key-store unit reaches it (R244, R251) -/

/-- Whether every line of n bytes translates. -/
def ksOk (s : State) (ln : Launch) (need : Need) (va n : Nat) : Bool :=
  (linesOf va n).all (fun l => (xlFault (translate s ln need l)).isNone)

/-- Whether a line of n bytes migrates, so that a write of it waits (R65). -/
def ksMig (s : State) (ln : Launch) (va n : Nat) : Bool :=
  (linesOf va n).any (fun l => match translate s ln .w l with | .ok _ _ m => m | _ => false)

/-- The locations of n bytes whose lines translate, line by line. -/
def ksLocs (s : State) (ln : Launch) (need : Need) (va n : Nat) : List Loc :=
  (linesOf va n).flatMap (fun l =>
    let at0 := locOf s ln need l
    ((List.range 256).filter (fun i => decide (va ≤ l + i) && decide (l + i < va + n))).map at0.plus)

/-- A number of n bytes of the footprint, at its home. -/
def ksNum (s : State) (w : Wg) (ln : Launch) (va n : Nat) : Nat :=
  ofBytes ((ksLocs s ln .r va n).map (engineByte s w.core w.owner))

/-- The header at its home. -/
def ksHeadNow (s : State) (w : Wg) (ln : Launch) (k : Handle) : KsHead := BitVec.ofNat 2048 (ksNum s w ln (hBase k) 256)


/-! ## The footprint (R78, R236) -/

/-- The bytes of the header, the bucket table and the pool of blocks. -/
def ksFootprint (h : KsHead) : Nat := 256 + 8 * 2 ^ ksBits h + ksZ h * ksPoolcap h

/-- Whether a byte address lies in the footprint of a handle as a workgroup reaches it. That of a key store is what its
header lays out; where the header cannot be read or is not valid, the header's own 256 bytes (log entry 80). -/
def inReach (s : State) (w : Wg) (ln : Launch) (k : Handle) (a : Nat) : Bool :=
  if hFmt k = 11 then
    let size :=
      if ksOk s ln .r (hBase k) 256 && ksValid k (ksHeadNow s w ln k) then ksFootprint (ksHeadNow s w ln k) else 256
    decide (hBase k ≤ a) && decide (a < hBase k + size) && !beyondVa k a
  else inFootprint k a

end Sys2Proof.Machine
end

