-- ==== Sys2Proof/Machine/Flags.lean ====
section
/-! DEFINITION. Every status computation of the lanes: the condition codes (R36), the conversions with the status bits
they set (R92, R158), and the group's FP status word (R159, R160). -/

namespace Sys2Proof.Machine

/-- An integer condition on 32-bit values (R36, R152). -/
def condI (c : ICond) (a b : Word) : Bool :=
  match c with
  | .eq => a == b
  | .ne => a != b
  | .lt => a.slt b
  | .le => a.sle b
  | .gt => b.slt a
  | .ge => b.sle a
  | .ltu => a.ult b
  | .leu => a.ule b
  | .gtu => b.ult a
  | .geu => b.ule a

/-- FSTAT's clear: the status without the named bits (R160). -/
def clearStatus (fps : FpStatus) (v : Word) : FpStatus := fps &&& ~~~ v.setWidth 6

/-- A conversion to a floating-point format with its status (R92). -/
def cvtFloat (f : FFmt) (mode : RMode) (sat : Bool) (v : FVal) : FRes :=
  let r := encodeF f mode sat v
  ⟨r.code, fpsOf r.invalid false r.overflow r.underflow (decodeF f r.code).nonFinite v.nonFinite⟩

/-- A conversion to an integer with its status (R91, R92): a value in range that rounds to zero is an underflow. -/
def cvtInt (mode : RMode) (sat : Bool) (w : Nat) (lo hi : Int) (bad : Nat) (v : FVal) : FRes :=
  let r := toIntF mode sat w lo hi bad v
  let tiny := !r.2 && r.1 == 0 && (match v with | .fin _ _ _ => true | _ => false)
  ⟨r.1, fpsOf r.2 false false tiny false v.nonFinite⟩

/-- FCVT's result (R35, R158). -/
def fcvtF (p : FcvtPair) (mode : RMode) (sat : Bool) (a : Nat) : FRes :=
  match p with
  | .bf16F32 => cvtFloat .bf16 mode sat (decodeF .fp32 a)
  | .fp16F32 => cvtFloat .fp16 mode sat (decodeF .fp32 a)
  | .e4m3F32 => cvtFloat .e4m3 mode sat (decodeF .fp32 a)
  | .e5m2F32 => cvtFloat .e5m2 mode sat (decodeF .fp32 a)
  | .f32Bf16 => cvtFloat .fp32 mode sat (decodeF .bf16 (a % 65536))
  | .f32Fp16 => cvtFloat .fp32 mode sat (decodeF .fp16 (a % 65536))
  | .f32E4m3 => cvtFloat .fp32 mode sat (decodeF .e4m3 (a % 256))
  | .f32E5m2 => cvtFloat .fp32 mode sat (decodeF .e5m2 (a % 256))
  | .i32F32 => cvtInt mode sat 32 (-2147483648) 2147483647 0x80000000 (decodeF .fp32 a)
  | .u32F32 => cvtInt mode sat 32 0 4294967295 0xFFFFFFFF (decodeF .fp32 a)
  | .i8F32 => cvtInt mode sat 8 (-128) 127 0x80 (decodeF .fp32 a)
  | .f32I32 => cvtFloat .fp32 mode sat (ofInt (toSigned 32 a))
  | .f32U32 => cvtFloat .fp32 mode sat (ofInt a)
  | .f32I8 => cvtFloat .fp32 mode sat (ofInt (toSigned 8 (a % 256)))
  | .e4m3Bf16 => cvtFloat .e4m3 mode sat (decodeF .bf16 (a % 65536))
  | .e5m2Bf16 => cvtFloat .e5m2 mode sat (decodeF .bf16 (a % 65536))

/-- The position type of FCVT's source (R158). -/
def fcvtSrcTy (p : FcvtPair) : SrcTy :=
  match p with
  | .bf16F32 | .fp16F32 | .e4m3F32 | .e5m2F32 | .i32F32 | .u32F32 | .i8F32 => .fp32
  | .f32Bf16 | .e4m3Bf16 | .e5m2Bf16 => .bf16
  | .f32Fp16 => .fp16
  | .f32E4m3 | .f32E5m2 | .f32I32 | .f32U32 | .f32I8 => .int

/-- Writes s(sd) and clears status bits: FSTAT's single step (R160). Where sb is sd, the status bits are cleared by the old
value of the register, which the model reads before it writes (log entry 89). -/
def execFstat (sd : SReg) (sb : USrc) (s : State) : Result :=
  uniform (.fstat sd sb) (fun c s =>
    .ok (updGroup s c.g.key (fun g =>
      { g.setS sd.val (g.fps.setWidth 32) with fps := clearStatus g.fps (readU g sb) }))) s

end Sys2Proof.Machine
end

