-- ==== Sys2Proof/Machine/LaneInt.lean ====
section
/-! DEFINITION. Integer arithmetic of the lanes (R150–R152). -/

namespace Sys2Proof.Machine

/-- A three-operand integer instruction (R150). -/
def intOp (i : Instr) (d : VReg) (a b : LSrc) (f : Word → Word → Word) (s : State) : Result :=
  lanewise (LSpec.mk0 i [(.int, a), (.int, b)] [d.val]) d (fun x y _ => plainRes (f x y)) s

/-- An accumulating integer instruction, which reads the old destination (R17, R150). -/
def intAcc (i : Instr) (d : VReg) (a b : LSrc) (f : Word → Word → Word → Word) (s : State) : Result :=
  lanewise { LSpec.mk0 i [(.int, a), (.int, b)] [d.val] with reads := fun _ => [d.val] } d
    (fun x y z => plainRes (f x y z)) s

/-- Bits [63:32] of the signed product. -/
def mulHigh (a b : Word) : Word := ((a.signExtend 64 * b.signExtend 64) >>> 32).setWidth 32
/-- Bits [63:32] of the unsigned product. -/
def mulHighU (a b : Word) : Word := ((a.setWidth 64 * b.setWidth 64) >>> 32).setWidth 32
/-- Signed minimum and maximum. -/
def sminW (a b : Word) : Word := if b.slt a then b else a
def smaxW (a b : Word) : Word := if a.slt b then b else a
/-- Shifts by an unsigned count; a count of 32 or more gives 0, or 32 copies of the sign (R150). -/
def shlW (a b : Word) : Word := if b.toNat < 32 then a <<< b.toNat else 0
def shrW (a b : Word) : Word := if b.toNat < 32 then a >>> b.toNat else 0
def sarW (a b : Word) : Word := a.sshiftRight (min b.toNat 31)

/-- The number of leading zeros among the low n bits. -/
def clzN : Nat → Nat → Nat
  | 0, _ => 0
  | n + 1, x => if x / 2 ^ n % 2 = 1 then 0 else 1 + clzN n x
/-- The low n bits in reverse order. -/
def brevN : Nat → Nat → Nat
  | 0, _ => 0
  | n + 1, x => (x % 2) * 2 ^ n + brevN n (x / 2)

/-- IUNY's sub-operations (R151). -/
def iunyW (op : IunyOp) (a : Word) : Word :=
  match op with
  | .popc => BitVec.ofNat 32 (popcount 32 a.toNat)
  | .clz => BitVec.ofNat 32 (clzN 32 a.toNat)
  | .brev => BitVec.ofNat 32 (brevN 32 a.toNat)
  | .abs => if a.slt 0 then 0 - a else a
  | .neg => 0 - a
  | .not => ~~~ a

def execIadd (d : VReg) (a b : LSrc) (s : State) : Result := intOp (.iadd d a b) d a b (fun x y => x + y) s
def execIsub (d : VReg) (a b : LSrc) (s : State) : Result := intOp (.isub d a b) d a b (fun x y => x - y) s
def execImul (d : VReg) (a b : LSrc) (s : State) : Result := intOp (.imul d a b) d a b (fun x y => x * y) s
def execImulh (d : VReg) (a b : LSrc) (s : State) : Result := intOp (.imulh d a b) d a b mulHigh s
def execImulhu (d : VReg) (a b : LSrc) (s : State) : Result := intOp (.imulhu d a b) d a b mulHighU s
def execImad (d : VReg) (a b : LSrc) (s : State) : Result := intAcc (.imad d a b) d a b (fun x y z => x * y + z) s
def execImin (d : VReg) (a b : LSrc) (s : State) : Result := intOp (.imin d a b) d a b sminW s
def execImax (d : VReg) (a b : LSrc) (s : State) : Result := intOp (.imax d a b) d a b smaxW s
def execAnd (d : VReg) (a b : LSrc) (s : State) : Result := intOp (.and d a b) d a b (fun x y => x &&& y) s
def execOr (d : VReg) (a b : LSrc) (s : State) : Result := intOp (.or d a b) d a b (fun x y => x ||| y) s
def execXor (d : VReg) (a b : LSrc) (s : State) : Result := intOp (.xor d a b) d a b (fun x y => x ^^^ y) s
def execShl (d : VReg) (a b : LSrc) (s : State) : Result := intOp (.shl d a b) d a b shlW s
def execShr (d : VReg) (a b : LSrc) (s : State) : Result := intOp (.shr d a b) d a b shrW s
def execSar (d : VReg) (a b : LSrc) (s : State) : Result := intOp (.sar d a b) d a b sarW s

def execIuny (op : IunyOp) (d : VReg) (a : LSrc) (s : State) : Result :=
  lanewise (LSpec.mk0 (.iuny op d a) [(.int, a)] [d.val]) d (fun x _ _ => plainRes (iunyW op x)) s

/-- A comparison that writes a mask bit in each active lane (R152, R156). -/
def maskSet (i : Instr) (t : SrcTy) (m : MReg) (a b : LSrc) (f : Word → Word → Bool) (s : State) : Result :=
  perLane (LSpec.mk0 i [(t, a), (t, b)] []) (fun x =>
    .ok (x.commit x.s (x.ins.map (fun i => ⟨i.idx, i.lane.setM m.val (f (i.arg 0) (i.arg 1)), []⟩)) 0)) s

def execIset (c : ICond) (m : MReg) (a b : LSrc) (s : State) : Result :=
  maskSet (.iset c m a b) .int m a b (condI c) s

end Sys2Proof.Machine
end

