-- ==== Sys2Proof/Machine/LaneFloat.lean ====
section
/-! DEFINITION. Floating-point arithmetic and conversion of the lanes (R153–R158). -/

namespace Sys2Proof.Machine

/-- A three-operand floating-point instruction (R154). -/
def fpOp (i : Instr) (d : VReg) (a b : LSrc) (f : Nat → Nat → FRes) (s : State) : Result :=
  lanewise (LSpec.mk0 i [(.fp32, a), (.fp32, b)] [d.val]) d (fun x y _ => f x.toNat y.toNat) s

/-- An accumulating floating-point instruction on positions of a type (R154, R157). -/
def fpAcc (i : Instr) (t : SrcTy) (d : VReg) (a b : LSrc) (f : Nat → Nat → Nat → FRes) (s : State) : Result :=
  lanewise { LSpec.mk0 i [(t, a), (t, b)] [d.val] with reads := fun _ => [d.val] } d
    (fun x y z => f x.toNat y.toNat z.toNat) s

def execFadd (d : VReg) (a b : LSrc) (s : State) : Result := fpOp (.fadd d a b) d a b (addF .fp32) s
def execFsub (d : VReg) (a b : LSrc) (s : State) : Result := fpOp (.fsub d a b) d a b (subF .fp32) s
def execFmul (d : VReg) (a b : LSrc) (s : State) : Result := fpOp (.fmul d a b) d a b (mulF .fp32) s
def execFfma (d : VReg) (a b : LSrc) (s : State) : Result := fpAcc (.ffma d a b) .fp32 d a b (fmaF .fp32) s
def execFmin (d : VReg) (a b : LSrc) (s : State) : Result := fpOp (.fmin d a b) d a b (minMaxF false) s
def execFmax (d : VReg) (a b : LSrc) (s : State) : Result := fpOp (.fmax d a b) d a b (minMaxF true) s

def execFset (c : FCond) (m : MReg) (a b : LSrc) (s : State) : Result :=
  maskSet (.fset c m a b) .fp32 m a b (fun x y => condF c x.toNat y.toNat) s

def execFuny (op : FunyOp) (d : VReg) (a : LSrc) (s : State) : Result :=
  lanewise (LSpec.mk0 (.funy op d a) [(.fp32, a)] [d.val]) d (fun x _ _ => funyF op x.toNat) s

/-- FCVT (R158): under SR each lane's rounding word is the next of stream 3, after its operand draws (R192). -/
def execFcvt (p : FcvtPair) (r : Rnd) (sat : Bool) (d : VReg) (a : LSrc) (s : State) : Result :=
  perLane { LSpec.mk0 (.fcvt p r sat d a) [(fcvtSrcTy p, a)] [d.val] with own := r == .sr } (fun x =>
    let rs := x.ins.map (fun i => (i, fcvtF p (rmodeOf r (i.lane.word 3 0).toNat) sat (i.arg 0).toNat))
    let lane (i : LaneIn) : Lane := if r = .sr then i.lane.skip 3 1 else i.lane
    .ok (x.commit x.s (rs.map (fun q => ⟨q.1.idx, lane q.1, [(d.val, BitVec.ofNat 32 q.2.code)]⟩))
      (rs.foldl (fun fl q => fl ||| q.2.fl) 0))) s

def execHfma2 (d : VReg) (a b : LSrc) (s : State) : Result := fpAcc (.hfma2 d a b) .fp16 d a b (fma2 .fp16) s
def execBfma2 (d : VReg) (a b : LSrc) (s : State) : Result := fpAcc (.bfma2 d a b) .bf16 d a b (fma2 .bf16) s

end Sys2Proof.Machine
end

