-- ==== Sys2Proof/Machine/LaneMove.lean ====
section
/-! DEFINITION. Moves, masks and lane exchange (R161–R166). -/

namespace Sys2Proof.Machine

/-- An instruction that computes each lane's register writes from all lanes of the issue. -/
def crossLane (p : LSpec) (f : List LaneIn → LaneIn → List (Nat × Word)) (s : State) : Result :=
  perLane p (fun x => .ok (x.commit x.s (x.ins.map (fun i => ⟨i.idx, i.lane, f x.ins i⟩)) 0)) s

def execMov (d : VReg) (a : LSrc) (s : State) : Result :=
  lanewise (LSpec.mk0 (.mov d a) [(.int, a)] [d.val]) d (fun x _ _ => plainRes x) s

def execCmov (d : VReg) (a : LSrc) (m : MReg) (s : State) : Result :=
  crossLane (LSpec.mk0 (.cmov d a m) [(.int, a)] [d.val])
    (fun _ i => if i.lane.mbit m.val then [(d.val, i.arg 0)] else []) s

/-- The value that lane p of the issue supplies as its first source; none where p is not active. -/
def partnerArg (ins : List LaneIn) (p : Nat) : Option Word :=
  match ins.find? (fun j => j.idx = p) with
  | some j => some (j.arg 0)
  | none => none

/-- LXOR (R163): the distance is uniform. -/
def execLxor (d : VReg) (a b : LSrc) (s : State) : Result :=
  perLane (LSpec.mk0 (.lxor d a b) [(.int, a), (.int, b)] [d.val]) (fun x => do
    let k ← x.uniformArg 1
    .ok (x.commit x.s (x.ins.map (fun i =>
      i.write d.val ((partnerArg x.ins (i.idx ^^^ k.toNat)).getD (i.arg 0)))) 0)) s

def execLshf (d : VReg) (a b : LSrc) (s : State) : Result :=
  crossLane (LSpec.mk0 (.lshf d a b) [(.int, a), (.int, b)] [d.val])
    (fun ins i => [(d.val, (partnerArg ins (i.arg 1).toNat).getD (i.arg 0))]) s

/-- One step of a fold (R37, R164). -/
def redStep (op : RedOp) (x y : Word) : FRes :=
  match op with
  | .iadd => plainRes (x + y)
  | .imin => plainRes (sminW x y)
  | .imax => plainRes (smaxW x y)
  | .umin => plainRes (if y.ult x then y else x)
  | .umax => plainRes (if x.ult y then y else x)
  | .and => plainRes (x &&& y)
  | .or => plainRes (x ||| y)
  | .xor => plainRes (x ^^^ y)
  | .fadd => addF .fp32 x.toNat y.toNat
  | .fmin => minMaxF false x.toNat y.toNat
  | .fmax => minMaxF true x.toNat y.toNat

/-- The identity of an operation (R164). -/
def redIdentity (op : RedOp) : Word :=
  match op with
  | .iadd | .or | .xor | .umax => 0
  | .umin | .and => 0xFFFFFFFF
  | .imin => 0x7FFFFFFF
  | .imax => 0x80000000
  | .fadd => 0x80000000
  | .fmin => 0x7F800000
  | .fmax => 0xFF800000

/-- The running folds of a list of values: after the first, after the second, and so on, with the status of every
step performed (R164). -/
def redScan (op : RedOp) : Word → List Word → List Word × FpStatus
  | acc, [] => ([acc], 0)
  | acc, y :: ys =>
      let r := redStep op acc y
      let q := redScan op (BitVec.ofNat 32 r.code) ys
      (acc :: q.1, r.fl ||| q.2)

/-- The running folds of a list that may be empty. -/
def redFolds (op : RedOp) : List Word → List Word × FpStatus
  | [] => ([], 0)
  | x :: xs => redScan op x xs

/-- The position type of a reduction's source (R164). -/
def redTy (op : RedOp) : SrcTy := if op.isFloat then .fp32 else .int

def execLred (op : RedOp) (d : VReg) (a : LSrc) (s : State) : Result :=
  perLane (LSpec.mk0 (.lred op d a) [(redTy op, a)] [d.val]) (fun x =>
    let r := redFolds op (x.ins.map (fun i => i.arg 0))
    .ok (x.commit x.s (x.ins.map (fun i => i.write d.val (r.1.getLastD 0))) r.2)) s

/-- LSCAN (R164): the exclusive form gives the lowest lane the identity and stops before the highest operand. -/
def execLscan (excl : Bool) (op : RedOp) (d : VReg) (a : LSrc) (s : State) : Result :=
  perLane (LSpec.mk0 (.lscan excl op d a) [(redTy op, a)] [d.val]) (fun x =>
    let vs := x.ins.map (fun i => i.arg 0)
    let r := redFolds op (if excl then vs.dropLast else vs)
    let ws := if excl then redIdentity op :: r.1 else r.1
    .ok (x.commit x.s ((x.ins.zip ws).map (fun p => p.1.write d.val p.2)) r.2)) s

/-- The writes of a lane set to D, and to D + 1 for width 64 (R165). -/
def laneSetWrites (width : Nat) (d : VReg) (m : DWord) : List (Nat × Word) :=
  (d.val, m.setWidth 32) :: (if width = 64 then [(d.val + 1, (m >>> 32).setWidth 32)] else [])

/-- The specification of MATCH and BALLOT: for width 64 the pair D, D + 1 (R161). -/
def laneSetSpec (i : Instr) (d : VReg) (a : LSrc) (s : State) : LSpec :=
  let wide := match findGroup s s.focus.grp with | some g => g.width == 64 | none => false
  LSpec.mk0 i [(.int, a)] (if wide then [d.val, d.val + 1, if d.val % 2 = 0 then d.val else 192] else [d.val])

def execMatchv (d : VReg) (a : LSrc) (s : State) : Result :=
  perLane (laneSetSpec (.matchv d a) d a s) (fun x =>
    .ok (x.commit x.s (x.ins.map (fun i =>
      ⟨i.idx, i.lane, laneSetWrites x.c.g.width d
        (maskOf ((x.ins.filter (fun j => j.arg 0 == i.arg 0)).map (·.idx)))⟩)) 0)) s

def execBallot (d : VReg) (a : LSrc) (s : State) : Result :=
  perLane (laneSetSpec (.ballot d a) d a s) (fun x =>
    let m := maskOf ((x.ins.filter (fun j => j.arg 0 != 0)).map (·.idx))
    .ok (x.commit x.s (x.ins.map (fun i => ⟨i.idx, i.lane, laneSetWrites x.c.g.width d m⟩)) 0)) s

/-- CMPCT (R166): the lane of rank r receives the r-th selected lane's value. -/
def execCmpct (d : VReg) (a : LSrc) (m : MReg) (s : State) : Result :=
  perLane (LSpec.mk0 (.cmpct d a m) [(.int, a)] [d.val]) (fun x =>
    let sel := (x.ins.filter (fun i => i.lane.mbit m.val)).map (fun i => i.arg 0)
    .ok (x.commit x.s (x.ins.mapIdx (fun r i =>
      ⟨i.idx, i.lane, match sel[r]? with | some v => [(d.val, v)] | none => []⟩)) 0)) s

/-- MSKOP's result from two mask bits (R38). -/
def mskBit (op : MskOp) (p q : Bool) : Bool :=
  match op with
  | .and => p && q
  | .or => p || q
  | .xor => p != q
  | .andn => p && !q
  | .not => !p
  | .mov => p
  | .set => true
  | .clr => false

def execMskop (op : MskOp) (m p q : MReg) (s : State) : Result :=
  perLane (LSpec.mk0 (.mskop op m p q) [] []) (fun x =>
    .ok (x.commit x.s (x.ins.map (fun i =>
      ⟨i.idx, i.lane.setM m.val (mskBit op (i.lane.mbit p.val) (i.lane.mbit q.val)), []⟩)) 0)) s

def execMpopc (pre : Bool) (d : VReg) (m : MReg) (s : State) : Result :=
  crossLane (LSpec.mk0 (.mpopc pre d m) [] [d.val])
    (fun ins i => [(d.val, BitVec.ofNat 32
      (ins.filter (fun j => j.lane.mbit m.val && (!pre || decide (j.idx < i.idx)))).length)]) s

end Sys2Proof.Machine
end

