-- ==== Sys2Proof/Machine/Streams.lean ====
section
/-! DEFINITION. Instructions on streams: DRAW, CATD, DSSKIP, DSSETP, DSFORK and DSPOS (R190–R192). -/

namespace Sys2Proof.Machine

/-- DRAW (R190): one word, or two into D and D + 1. -/
def execDraw (n : Fin 4) (w2 : Bool) (d : VReg) (s : State) : Result :=
  perLane { LSpec.mk0 (.draw n w2 d) [] (regRange d.val (if w2 then 2 else 1)) with own := true } (fun x =>
    .ok (x.commit x.s (x.ins.map (fun i =>
      ⟨i.idx, i.lane.skip n.val (if w2 then 2 else 1),
       (d.val, i.lane.word n.val 0) :: (if w2 then [(d.val + 1, i.lane.word n.val 1)] else [])⟩)) 0)) s

/-- The Gumbel key of a lane's score and its word (R191). -/
def gumbelKey (score : Word) (w : Word) : Nat :=
  let u := rne .fp32 (.fin false (2 * (w.toNat / 512) + 1) (-24))
  let t := lnF u
  let g := lnF (t ^^^ 0x80000000) ^^^ 0x80000000
  (addF .fp32 score.toNat g).code

/-- Whether key b beats key a: a NaN is lower than every other key (R191). -/
def beats (a b : Nat) : Bool :=
  match decodeF .fp32 a, decodeF .fp32 b with
  | _, .nan => false
  | .nan, _ => true
  | _, _ => condF .gt b a

/-- The lane of the greatest key, the lowest among equals (R191). -/
def bestLane : Nat → Nat → List (Nat × Nat) → Nat
  | l, _, [] => l
  | l, k, (l', k') :: rest => if beats k k' then bestLane l' k' rest else bestLane l k rest

def execCatd (n : Fin 4) (d : VReg) (a : LSrc) (s : State) : Result :=
  perLane { LSpec.mk0 (.catd n d a) [(.fp32, a)] [d.val] with own := true } (fun x =>
    let keys := x.ins.map (fun i => (i.idx, gumbelKey (i.arg 0) (i.lane.word n.val 0)))
    let best := match keys with | (l, k) :: rest => bestLane l k rest | [] => 0
    .ok (x.commit x.s (x.ins.map (fun i => ⟨i.idx, i.lane.skip n.val 1, [(d.val, BitVec.ofNat 32 best)]⟩)) 0)) s

/-- The 56-bit number of DSSKIP and DSSETP (R190). -/
def posOperand (i : LaneIn) : BitVec 56 :=
  BitVec.ofNat 56 ((i.arg 1).toNat % 16777216 * 4294967296 + (i.arg 0).toNat)

def execDsskip (n : Fin 4) (a b : LSrc) (s : State) : Result :=
  perLane (LSpec.mk0 (.dsskip n a b) [(.int, a), (.int, b)] []) (fun x =>
    .ok (x.commit x.s (x.ins.map (fun i =>
      ⟨i.idx, i.lane.setPos n.val (i.lane.pos n.val + posOperand i), []⟩)) 0)) s

def execDssetp (n : Fin 4) (a b : LSrc) (s : State) : Result :=
  perLane (LSpec.mk0 (.dssetp n a b) [(.int, a), (.int, b)] []) (fun x =>
    .ok (x.commit x.s (x.ins.map (fun i => ⟨i.idx, i.lane.setPos n.val (posOperand i), []⟩)) 0)) s

/-- A lane with the key of its fork f and its positions at 0 (R190). -/
def forkLane (x : Lane) (f : Word) : Lane :=
  let c : DWord := 0x8000000000000000 + 2 * f.setWidth 64
  { x with ka := streamF x.ka x.kb c, kb := streamF x.ka x.kb (c + 1), pos0 := 0, pos1 := 0, pos2 := 0, pos3 := 0 }

def execDsfork (a : LSrc) (s : State) : Result :=
  perLane (LSpec.mk0 (.dsfork a) [(.int, a)] []) (fun x =>
    .ok (x.commit x.s (x.ins.map (fun i => ⟨i.idx, forkLane i.lane (i.arg 0), []⟩)) 0)) s

/-- Bits [55:32] of a position, zero-extended (R190). -/
def posHigh (p : BitVec 56) : Word := BitVec.ofNat 32 (p.toNat / 4294967296)

def execDspos (n : Fin 4) (d : VReg) (s : State) : Result :=
  perLane (LSpec.mk0 (.dspos n d) [] (regRange d.val 2)) (fun x =>
    .ok (x.commit x.s (x.ins.map (fun i =>
      ⟨i.idx, i.lane, [(d.val, (i.lane.pos n.val).setWidth 32), (d.val + 1, posHigh (i.lane.pos n.val))]⟩)) 0)) s

end Sys2Proof.Machine
end

