-- ==== Sys2Proof/Machine/Branch.lean ====
section
/-! DEFINITION. Control flow of the lanes and of the population: branches, CALL and RET, TRAP (R20, R167–R172). -/

namespace Sys2Proof.Machine

/-- The target of a relative branch: the branch's own PC + 4 × disp (R20). -/
def relTarget (pc : DWord) (disp : BitVec 16) : DWord := pc + 4 * disp.signExtend 64

/-- The lanes whose target lies outside the code (R168). -/
def badTargets (c : Ctx) (ts : List (Nat × DWord)) : List Nat :=
  (ts.filter (fun t => !inCode c.ln c.g t.2)).map (·.1)

/-- The target of a lane in a list of targets. -/
def targetOf (c : Ctx) (ts : List (Nat × DWord)) (l : Nat) : DWord :=
  match ts.find? (fun t => t.1 = l) with
  | some t => t.2
  | none => c.pc

/-- A per-lane branch (R167, R168): each lane's next PC is checked, the link or draws are committed, and the lanes
move. -/
def branch (p : LSpec) (next : Ctx → LaneIn → DWord) (link : Ctx → List (Nat × Word)) (s : State) : Result :=
  perLaneAt false p (fun x => do
    let ts := x.ins.map (fun i => (i.idx, next x.c i))
    demandNone (badTargets x.c ts) cOperand 3
    let s := x.commit x.s (x.ins.map (fun i => ⟨i.idx, i.lane, link x.c⟩)) 0
    .ok (moveLanes s x.c.g.key x.c.pc x.c.act (targetOf x.c ts))) s

/-- A branch without a link. -/
def plainBranch (i : Instr) (srcs : List (SrcTy × LSrc)) (next : Ctx → LaneIn → DWord) (s : State) : Result :=
  branch (LSpec.mk0 i srcs []) next (fun _ => []) s

/-- CALL's link: the offset of the next instruction, in the highest declared register (R169). -/
def callLink (c : Ctx) : List (Nat × Word) :=
  [(declared c.ln c.g - 1, (c.nextPc - kernelBase c.ln c.g).setWidth 32)]

/-- A kernel-absolute target (R20): header + offset. -/
def absTarget (c : Ctx) (off : Word) : DWord := kernelBase c.ln c.g + off.setWidth 64

def execBra (disp : BitVec 16) (s : State) : Result :=
  plainBranch (.bra disp) [] (fun c _ => relTarget c.pc disp) s
def execBraKernelAbsolute (off : Word) (s : State) : Result :=
  plainBranch (.braKernelAbsolute off) [] (fun c _ => absTarget c off) s
def execBrm (m : MReg) (disp : BitVec 16) (s : State) : Result :=
  plainBranch (.brm m disp) [] (fun c i => if i.lane.mbit m.val then relTarget c.pc disp else c.nextPc) s
def execBrmn (m : MReg) (disp : BitVec 16) (s : State) : Result :=
  plainBranch (.brmn m disp) [] (fun c i => if i.lane.mbit m.val then c.nextPc else relTarget c.pc disp) s
def execBrz (d : LSrc) (disp : BitVec 16) (s : State) : Result :=
  plainBranch (.brz d disp) [(.int, d)] (fun c i => if i.arg 0 = 0 then relTarget c.pc disp else c.nextPc) s
def execBrnz (d : LSrc) (disp : BitVec 16) (s : State) : Result :=
  plainBranch (.brnz d disp) [(.int, d)] (fun c i => if i.arg 0 = 0 then c.nextPc else relTarget c.pc disp) s
def execCall (disp : BitVec 16) (s : State) : Result :=
  branch (LSpec.mk0 (.call disp) [] []) (fun c _ => relTarget c.pc disp) callLink s
def execCallKernelAbsolute (off : Word) (s : State) : Result :=
  branch (LSpec.mk0 (.callKernelAbsolute off) [] []) (fun c _ => absTarget c off) callLink s
def execRet (a : LSrc) (s : State) : Result :=
  plainBranch (.ret a) [(.int, a)] (fun c i => absTarget c (i.arg 0)) s

/-- TRAP (R171): ILLEGAL subcode 8 with the code in the frame. -/
def execTrap (code : BitVec 16) (s : State) : Result :=
  perLaneAt false (LSpec.mk0 (.trap code) [] []) (fun _ =>
    .error (.trap { mkTrap cIllegal 8 with code := code })) s

/-- A U-set branch (R172): the whole population moves to the target, or to the next word. -/
def uniformBranch (i : Instr) (disp : BitVec 15) (taken : Ctx → Bool) (s : State) : Result :=
  match focusCtx s i.len with
  | none => .fault .noGroup
  | some c =>
      let t := if taken c then c.pc + 4 * disp.signExtend 64 else c.nextPc
      c.settle s (do
        demand (inCode c.ln c.g t) cOperand 3
        .ok (moveLanes s c.g.key c.pc c.act (fun _ => t)))

def execSbra (disp : BitVec 15) (s : State) : Result := uniformBranch (.sbra disp) disp (fun _ => true) s
def execSbz (r : SReg) (disp : BitVec 15) (s : State) : Result :=
  uniformBranch (.sbz r disp) disp (fun c => c.g.sreg r.val == 0) s
def execSbnz (r : SReg) (disp : BitVec 15) (s : State) : Result :=
  uniformBranch (.sbnz r disp) disp (fun c => c.g.sreg r.val != 0) s

end Sys2Proof.Machine
end

