-- ==== Sys2Proof/Machine/Scalar.lean ====
section
/-! DEFINITION. The scalar set (R173–R175), NOP (R29), IDRD and QRD (R326, R327). -/

namespace Sys2Proof.Machine

/-- A scalar instruction: s(sd) := s(sd) op value(sb) (R173). -/
def scalarOp (i : Instr) (sd : SReg) (sb : USrc) (f : Word → Word → Word) (s : State) : Result :=
  uniform i (fun c s =>
    .ok (updGroup s c.g.key (fun g => g.setS sd.val (f (g.sreg sd.val) (readU g sb))))) s

def execSadd (sd : SReg) (sb : USrc) (s : State) : Result := scalarOp (.sadd sd sb) sd sb (fun x y => x + y) s
def execSsub (sd : SReg) (sb : USrc) (s : State) : Result := scalarOp (.ssub sd sb) sd sb (fun x y => x - y) s
def execSmul (sd : SReg) (sb : USrc) (s : State) : Result := scalarOp (.smul sd sb) sd sb (fun x y => x * y) s
def execSand (sd : SReg) (sb : USrc) (s : State) : Result := scalarOp (.sand sd sb) sd sb (fun x y => x &&& y) s
def execSor (sd : SReg) (sb : USrc) (s : State) : Result := scalarOp (.sor sd sb) sd sb (fun x y => x ||| y) s
def execSxor (sd : SReg) (sb : USrc) (s : State) : Result := scalarOp (.sxor sd sb) sd sb (fun x y => x ^^^ y) s
def execSshl (sd : SReg) (sb : USrc) (s : State) : Result := scalarOp (.sshl sd sb) sd sb shlW s
def execSshr (sd : SReg) (sb : USrc) (s : State) : Result := scalarOp (.sshr sd sb) sd sb shrW s
def execSsar (sd : SReg) (sb : USrc) (s : State) : Result := scalarOp (.ssar sd sb) sd sb sarW s
def execSmin (sd : SReg) (sb : USrc) (s : State) : Result := scalarOp (.smin sd sb) sd sb sminW s
def execSmax (sd : SReg) (sb : USrc) (s : State) : Result := scalarOp (.smax sd sb) sd sb smaxW s
def execSmov (sd : SReg) (sb : USrc) (s : State) : Result := scalarOp (.smov sd sb) sd sb (fun _ y => y) s
def execSset (c : ICond) (sd : SReg) (sb : USrc) (s : State) : Result :=
  scalarOp (.sset c sd sb) sd sb (fun x y => if condI c x y then 1 else 0) s

def execSmovi (sd : SReg) (imm : BitVec 15) (s : State) : Result :=
  uniform (.smovi sd imm) (fun c s =>
    .ok (updGroup s c.g.key (fun g => g.setS sd.val (imm.signExtend 32)))) s

/-- SLUI (R174): bits [31:17] are set and the rest kept. -/
def execSlui (sd : SReg) (imm : BitVec 15) (s : State) : Result :=
  uniform (.slui sd imm) (fun c s =>
    .ok (updGroup s c.g.key (fun g =>
      g.setS sd.val ((imm.setWidth 32 <<< 17) ||| (g.sreg sd.val &&& 0x0001FFFF))))) s

/-- V2S (R175): a named lane's register, or one that is uniform over the population. -/
def execV2s (sd : SReg) (lane : Bool) (v : VReg) (x : Fin 64) (s : State) : Result :=
  match focusCtx s 1 with
  | none => .fault .noGroup
  | some c =>
      let named := lane || x.val != 63
      let rd (l : Nat) : Word := match c.g.lane? l with | some y => y.vreg v.val | none => 0
      c.settle s (do
        demand (decide (v.val < declared c.ln c.g)) cOperand 2
        demand (!named || decide (x.val < c.g.width)) cOperand 3
        c.fallOk
        demand (!named || c.act.contains x.val) cOperand 3
        if named then
          demandNone (if s.poison.contains (.vreg c.g.key x.val v.val) then [x.val] else []) cSoft 1
        else do
          demandNone (differing (c.vregs v.val)) cNonuniform 0
          demandNone (c.act.filter (fun l => s.poison.contains (.vreg c.g.key l v.val))) cSoft 1
        let w := if named then rd x.val else rd (c.act.headD 0)
        .ok (c.advance (updGroup s c.g.key (fun g => g.setS sd.val w))))

/-- NOP (R29). -/
def execNop (s : State) : Result := uniform .nop (fun _ s => .ok s) s

/-- NOP with its literal word, which is ignored (R29). -/
def execNopLiteral (inSd inSb : Bool) (w : Word) (s : State) : Result :=
  uniform (.nopLiteral inSd inSb w) (fun _ s => .ok s) s

/-! ## Identifiers (R326, R327) -/

/-- The item that IDRD's selector names (R326). -/
def idItem (c : Ctx) (sel : Nat) : Except Stop Word :=
  let base := kernelBase c.ln c.g
  match sel with
  | 0 => .ok c.ln.lidx
  | 1 => .ok (BitVec.ofNat 32 c.w.index)
  | 2 => .ok (BitVec.ofNat 32 c.ln.nwg)
  | 3 => .ok (BitVec.ofNat 32 c.g.key.g)
  | 4 => .ok (BitVec.ofNat 32 c.ln.gpw)
  | 5 => .ok (BitVec.ofNat 32 c.g.width)
  | 6 => .ok (BitVec.ofNat 32 (declared c.ln c.g))
  | 7 => if c.ln.det then trapAll cDeterm 2 else .ok (BitVec.ofNat 32 c.w.core)
  | 8 => if c.ln.det then trapAll cDeterm 2 else .ok (BitVec.ofNat 32 (c.w.core / 4))
  | 9 => .ok (BitVec.ofNat 32 c.ln.prio)
  | 10 => .ok (if c.ln.det then 1 else 0)
  | 11 => .ok (base.setWidth 32)
  | 12 => .ok ((base >>> 32).setWidth 32)
  | _ => trapAll cOperand 3

def execIdrd (sd : SReg) (sb : USrc) (s : State) : Result :=
  uniform (.idrd sd sb) (fun c s => do
    let v ← idItem c (readU c.g sb).toNat
    .ok (updGroup s c.g.key (fun g => g.setS sd.val v))) s

/-- The physical cluster, 0–16, of a logical cluster on its die (R323). -/
def physCluster (s : State) (cl : Nat) : Nat := mapGet (cl % 16) s.boot.clusterMap cl

/-- QRD selector 1 (R327): die, physical cluster, core, partition and slot. -/
def placeItem (s : State) (c : Ctx) : Nat :=
  let cl := c.w.core / 4
  cl / 16 + 4 * physCluster s cl + 128 * (c.w.core % 4) + 512 * c.g.part + 8192 * c.g.slot

/-- QRD (R327). The cycle count is that of the clocks since the start, at which every core leaves reset (log entry 84). -/
def execQrd (q : Fin 8) (sb : USrc) (s : State) : Result :=
  uniform (.qrd q sb) (fun c s =>
    let put (s : State) (v : DWord) : Except Stop State :=
      .ok (updGroup s c.g.key (fun g => { g with qt := mapSet 0 g.qt q.val v }))
    match (readU c.g sb).toNat with
    | 0 => put s (BitVec.ofNat 64 s.clock)
    | 1 => put s (BitVec.ofNat 64 (placeItem s c))
    | 2 => put s (BitVec.ofNat 64 s.mcb.hats)
    | 3 => put s (clusterOf s (c.w.core / 4)).drops
    | _ => trapAll cOperand 3) s

end Sys2Proof.Machine
end

