-- ==== Sys2Proof/Machine/LoadStore.lean ====
section
/-! DEFINITION. Loads and stores of the lanes and of the population, the paired store, fences and drains (R101–R111,
R254–R259, R267), and the events of their path. -/

namespace Sys2Proof.Machine

/-! ## Register groups (R18, R19) -/

/-- A group of n registers from v(d): aligned to its size and within the declared count (R18, R45 step 9). -/
def groupOk (d n : Nat) (c : Ctx) : Except Stop Unit :=
  demand (d % n == 0 && decide (d + n ≤ declared c.ln c.g)) cOperand 2

/-- The data register of a store for a width: any source for 4 bytes, an aligned group of vector registers for more. -/
def dataOk (d : LSrc) (w : Width) (c : Ctx) : Except Stop Unit :=
  if w.regs = 1 then .ok ()
  else
    match d with
    | .v r => groupOk r.val w.regs c
    | _ => trapAll cOperand 1

/-- The registers of a source's group. -/
def srcGroup (d : LSrc) (n : Nat) : List Nat :=
  match d with
  | .v r => regRange r.val n
  | _ => []

/-- The words that a lane stores: the source's value for 4 bytes, the register group for more. -/
def storeWords (d : LSrc) (w : Width) (dpos : Nat) (i : LaneIn) : List Word :=
  if w.regs = 1 then [i.arg dpos] else (srcGroup d w.regs).map i.lane.vreg

/-! ## Lane loads (R101–R109) -/

/-- The kinds of lane load. -/
inductive LoadMode where
  | plain | convert | tolerant
  deriving DecidableEq, Repr

/-- The specification of a lane load. -/
def loadSpec (i : Instr) (d : VReg) (a : LSrc) (h : HSel) : LSpec :=
  { LSpec.mk0 i [(.int, a)] (regRange d.val h.regs) with
    cls := .load, hsel := some h, widthOk := fun w c => groupOk d.val w.regs c }

/-- Formats that LDE accepts at a register width (R106). -/
def ldeFmts (w : Width) : List Nat := [1, 3, 4, 5, 6, 7] ++ (if w.regs = 1 then [] else [8])

/-- The memory bytes of n converted elements (R106). -/
def elemBytes (h : Handle) (n : Nat) : Nat := if hFmt h = 8 then n / 2 else n * elemSize (hFmt h)

/-- The registers' words and the status bits of a loaded run (R107). -/
def loadWords (mode : LoadMode) (h : Handle) (n : Nat) (bs : List Byte) : List Word × FpStatus :=
  match mode with
  | .convert =>
      let rs := (elemCodes h n bs).map (fun e => cvtFloat .fp32 .rne false (elemValue h e))
      (rs.map (fun r => BitVec.ofNat 32 r.code), rs.foldl (fun fl r => fl ||| r.fl) 0)
  | _ => (wordsOf bs, 0)

/-- What one lane of a load receives: zeros when it is out of bounds or its line is non-resident. -/
def laneLoad (mode : LoadMode) (c : Ctx) (s : State) (h : Handle) (n : Nat) (run : Option Run) : List Word × FpStatus :=
  match run with
  | none => (List.replicate n 0, 0)
  | some r =>
      if mode = .tolerant ∧ nonResident c s h r then (List.replicate n 0, 0)
      else loadWords mode h n (readLocs c s (runLocs c s h .r r.va r.n))

/-- The register fills of words for a lane. -/
def fillsOf (d lane : Nat) (ws : List Word) : List Fill := ws.mapIdx (fun j w => ⟨lane, d + j, w⟩)

/-- A lane load after its draws (R101, R103, R107–R109). -/
def loadBody (mode : LoadMode) (d : VReg) (x : Issue) : Except Stop State := do
  let c := x.c
  let n := x.width.regs
  let h ← c.handle x.slot
  acceptFmt h (if mode = .convert then ldeFmts x.width else anyFmt)
  let mb := if mode = .convert then elemBytes h n else 4 * n
  let runs ← laneRuns c h mb mb (x.ins.map (fun i => (i.idx, (i.arg 0).toNat)))
  let extra := if mode = .convert ∧ hTrb h ≠ 0 then tileRuns h runs else []
  if hScratch h then spCheck c extra else .ok ()
  let s0 ← reachRead c x.s h (mode == .tolerant) (runs ++ extra)
  let s0 ← if extra.isEmpty then .ok s0 else tileCheck c s0 h runs
  let s ← thereafter s0 (watchStep c s0 (runEls h .lr runs))
  let s ← observeParked c s h (runs ++ extra)
  let s := bindWide c s (decide (4 < mb)) (runs.flatMap (fun r => runLocs c s h .r r.va r.n))
  let got := x.ins.map (fun i => (i, laneLoad mode c s h n (runs.find? (fun r => r.lane = i.idx))))
  let fills := got.flatMap (fun p => fillsOf d.val p.1.idx p.2.1)
  let s := (acceptOp s c .load (.load fills)).1
  let m15 (i : LaneIn) : Lane :=
    if mode = .tolerant then
      i.lane.setM 15 (match runs.find? (fun r => r.lane = i.idx) with
        | some r => nonResident c s h r
        | none => false)
    else i.lane
  .ok (x.commit s (got.map (fun p => ⟨p.1.idx, m15 p.1, []⟩)) (got.foldl (fun fl p => fl ||| p.2.2) 0))

def execLd (d : VReg) (a : LSrc) (h : HSel) (s : State) : Result :=
  perLane (loadSpec (.ld d a h) d a h) (loadBody .plain d) s
def execLde (d : VReg) (a : LSrc) (h : HSel) (s : State) : Result :=
  perLane (loadSpec (.lde d a h) d a h) (loadBody .convert d) s
def execLdnr (d : VReg) (a : LSrc) (h : HSel) (s : State) : Result :=
  perLane (loadSpec (.ldnr d a h) d a h) (loadBody .tolerant d) s

/-! ## Lane stores (R104–R107, R256) -/

/-- The specification of a lane store: D is a source, drawn after A (R23). -/
def storeSpec (i : Instr) (t : SrcTy) (d a : LSrc) (h : HSel) : LSpec :=
  { LSpec.mk0 i [(.int, a), (t, d)] (srcGroup d h.regs) with
    cls := .store, hsel := some h, widthOk := dataOk d, reads := fun w => srcGroup d w.regs }

/-- Formats that STE accepts (R106). -/
def steFmts : List Nat := [1, 3, 4, 5, 6, 7]

/-- An FP32 word as an element of a handle, with its status (R92, R107). -/
def steElem (h : Handle) (w : Word) : FRes :=
  let v := (decodeF .fp32 w.toNat).scale (-hScale h)
  match ffmtOf (hFmt h) with
  | some f => cvtFloat f .rne false v
  | none => cvtInt .rne false 8 (-128) 127 0x80 v

/-- The bytes that a lane stores, and the status bits of their conversion. -/
def laneStore (conv : Bool) (h : Handle) (ws : List Word) : List Byte × FpStatus :=
  if conv then
    let rs := ws.map (steElem h)
    (rs.flatMap (fun r => leBytes (elemSize (hFmt h)) r.code), rs.foldl (fun fl r => fl ||| r.fl) 0)
  else (ws.flatMap (fun w => leBytes 4 w.toNat), 0)

/-- The written bytes of runs with their data, ascending by lane, and the same by virtual address. -/
def storeBytes (c : Ctx) (s : State) (h : Handle) (ps : List (Run × List Byte)) : List StoreByte :=
  ps.flatMap (fun p => ((runLocs c s h .w p.1.va p.1.n).zip p.2).map (fun q => ⟨q.1, q.2⟩))
def storeAddrs (ps : List (Run × List Byte)) : List (Nat × Byte) :=
  ps.flatMap (fun p => p.2.mapIdx (fun i b => (p.1.va + i, b)))

/-- Puts an entry at the tail of the group's FIFO. -/
def pushFifo (s : State) (k : GKey) (e : FifoEntry) : State := updGroup s k (fun g => { g with fifo := g.fifo ++ [e] })

/-- Whether stores through a handle are non-temporal (R105, R256). -/
def ntOf (nt : Bool) (h : Handle) : Bool := !hScratch h && (nt || hNtDef h)

/-- Accepts a store of one entry: counter, digest, FIFO (R104, R324). -/
def acceptStore (c : Ctx) (s : State) (h : Handle) (nt : Bool) (rel : Option Scope) (ps : List (Run × List Byte)) : State :=
  let bs := storeBytes c s h ps
  let s := addDigest (clearPoisonFor s bs) c.ln h (storeAddrs ps)
  let a := acceptOp s c .store (.store 1)
  pushFifo a.1 c.g.key (.store a.2 (ntOf nt h) rel bs)

/-- The data of each run. -/
def runData (runs : List Run) (data : Nat → List Byte) : List (Run × List Byte) := runs.map (fun r => (r, data r.lane))

/-- A lane store after its draws (R101, R104–R107). -/
def storeBody (conv nt : Bool) (d : LSrc) (x : Issue) : Except Stop State := do
  let c := x.c
  let n := x.width.regs
  let h ← c.handle x.slot
  acceptFmt h (if conv then steFmts else anyFmt)
  let mb := if conv then elemBytes h n else 4 * n
  let runs ← laneRuns c h mb mb (x.ins.map (fun i => (i.idx, (i.arg 0).toNat)))
  reach c x.s h .w false runs
  let s ← watchStep c x.s (runEls h .lw runs)
  let s ← observeParked c s h runs
  let data := x.ins.map (fun i => (i.idx, laneStore conv h (storeWords d x.width 1 i)))
  let get (l : Nat) : List Byte × FpStatus := match data.find? (fun p => p.1 = l) with | some p => p.2 | none => ([], 0)
  let s := acceptStore c s h nt none (runData runs (fun l => (get l).1))
  .ok (x.commit s (x.ins.map LaneIn.keep) (runs.foldl (fun fl r => fl ||| (get r.lane).2) 0))

def execSt (d a : LSrc) (h : HSel) (s : State) : Result :=
  perLane (storeSpec (.st d a h) .int d a h) (storeBody false false d) s
def execSte (d a : LSrc) (h : HSel) (s : State) : Result :=
  perLane (storeSpec (.ste d a h) .fp32 d a h) (storeBody true false d) s
def execStnt (d a : LSrc) (h : HSel) (s : State) : Result :=
  perLane (storeSpec (.stnt d a h) .int d a h) (storeBody false true d) s

/-! ## PST (R258, R259) -/

/-- An element of a second half: its lane, coordinates, address and number in the lane's run. -/
structure HalfElem where
  lane : Nat
  coord : List Nat
  va : Nat
  j : Nat
  deriving DecidableEq, Repr

/-- The address of coordinates that lie within a handle's extents (R75, R76). -/
def coordAddr (h : Handle) (c : List Nat) : Option Nat :=
  if nth c 0 < hExt h 0 ∧ nth c 1 < hExt h 1 ∧ nth c 2 < hExt h 2 ∧ nth c 3 < hExt h 3 then
    let a := addrAt h (nth c 0) (nth c 1) (nth c 2) (nth c 3)
    if beyondVa h a then none else some a
  else none

/-- The coordinates of the transposed elements of a lane (R258). -/
def transposed (h : Handle) (i n : Nat) : List (List Nat) :=
  let c := coords h i
  (List.range n).map (fun j => [nth c 1, nth c 0 + j, nth c 2, nth c 3])

/-- The second half's elements through H2: OOB, SPBOUND, ALIGN (R259). -/
def halfElems (c : Ctx) (h h2 : Handle) (n : Nat) (idx : List (Nat × Nat)) : Except Stop (List HalfElem) := do
  let all := idx.flatMap (fun p => (transposed h p.2 n).mapIdx (fun j q => (p.1, j, q)))
  let out := all.filter (fun e => (coordAddr h2 e.2.2).isNone)
  if hTrapOob h2 && !out.isEmpty then
    .error (.trap { mkTrap cOob 0 with
      mask := maskOf (out.map (·.1)), coord := match out with | e :: _ => coordWords e.2.2 | [] => [] })
  else
    let es := all.filterMap (fun e => match coordAddr h2 e.2.2 with | some a => some (HalfElem.mk e.1 e.2.2 a e.2.1) | none => none)
    if hScratch h2 then spCheck c (es.map (fun e => ⟨e.lane, e.va, elemSize (hFmt h2), 0⟩)) else .ok ()
    demandNone ((es.filter (fun e => e.va % elemSize (hFmt h2) != 0)).map (·.lane)) cAlign 0
    .ok es

/-- The runs of second-half elements. -/
def halfRuns (h2 : Handle) (es : List HalfElem) : List Run := es.map (fun e => ⟨e.lane, e.va, elemSize (hFmt h2), 0⟩)

/-- The watch elements of second halves. -/
def halfEls (h2 : Handle) (es : List HalfElem) : List WatchEl := es.map (fun e => ⟨[e.lane], hTag h2, .lw, e.coord⟩)

/-- The data of the second halves: element j of each lane's stored bytes. -/
def halfData (h2 : Handle) (es : List HalfElem) (data : Nat → List Byte) : List (Run × List Byte) :=
  es.map (fun e =>
    let z := elemSize (hFmt h2)
    (⟨e.lane, e.va, z, 0⟩, ((data e.lane).drop (z * e.j)).take z))

/-- The lanes at a PC whose first halves are done (R259). -/
def halfLanes (g : Group) (pc : DWord) : List Nat :=
  (g.half.filter (fun e => e.pc == pc)).flatMap (fun e => setBitsOf 64 e.mask.toNat)

/-- Drops the half-done note of a PC. -/
def clearHalf (s : State) (k : GKey) (pc : DWord) : State :=
  updGroup s k (fun g => { g with half := g.half.filter (fun e => e.pc ≠ pc) })

/-- A failing second half as the PAIRHALF trap (R259); a migrating line parks with the half-done mask noted. -/
def secondFails (c : Ctx) (s : State) (e : Stop) : Stop :=
  let pair (t : TrapInfo) : TrapInfo :=
    { t with cause := cPairhalf, sub := t.cause, half := c.mask, wskip := false }
  match e with
  | .trap t => .trapIn (pair t) (clearHalf s c.g.key c.pc)
  | .trapIn t s' => .trapIn (pair t) (clearHalf s' c.g.key c.pc)
  | .park why =>
      .parkIn why (updGroup s c.g.key (fun g => { g with half := g.half.filter (fun e => e.pc ≠ c.pc) ++ [⟨c.pc, c.mask⟩] }))
  | e => e

/-- The second half's translation and watches, first halves having been accepted. -/
def secondHalf (c : Ctx) (s : State) (h2 : Handle) (es : List HalfElem) : Except Stop State :=
  let r : Except Stop State := do
    if hScratch h2 then .ok ()
    else let xs := xlLines s c.ln .w (halfRuns h2 es)
         xlCheck xs xs
    watchStep c s (halfEls h2 es)
  match r with
  | .ok s' => .ok s'
  | .error e => .error (secondFails c s e)

/-- The operations of the PSTs at a PC whose second halves are still to come. -/
def openPsts (g : Group) (pc : DWord) : List Nat := (g.openPst.filter (fun p => p.pc == pc)).map (·.op)

/-- The second halves enter the FIFO after every first half. Where `ids` is the one operation of this issue's first halves
(`new`), they are its second half; where they belong to operations of earlier issues, their write is ordered as of this issue
(R255) and completes those operations; lanes whose first halves no operation holds any more make one of their own (R259). -/
def pushSecond (c : Ctx) (s : State) (nt : Bool) (new : Option Nat) (ids : List Nat) (bs : List StoreByte) : State :=
  let s := updGroup s c.g.key (fun g => { g with openPst := g.openPst.filter (fun p => p.pc ≠ c.pc) })
  let put (a : State × Nat) : State := pushFifo a.1 c.g.key (.store a.2 nt none bs)
  if new.toList = ids then put (match new with | some n => (s, n) | none => acceptOp s c .store (.store 1))
  else put (acceptOp s c .none (.second ids))

/-- Closes the PSTs of a group that satisfy `p`: their second halves will not come. -/
def closePst (s : State) (k : GKey) (p : OpenPst → Bool) : State :=
  match findGroup s k with
  | none => s
  | some g =>
      ((g.openPst.filter p).map (·.op)).foldl storeLeft
        (updGroup s k (fun g => { g with openPst := g.openPst.filter (fun x => !p x) }))

/-- Closes the PSTs at PCs where no half-done lane stands, after a return from a trap (R343). -/
def closeStale (s : State) (k : GKey) : State :=
  match findGroup s k with
  | none => s
  | some g => if g.trapMode then s else closePst s k (fun p => !g.half.any (fun h => h.pc == p.pc))

/-- PST after its draws (R258, R259). Lanes whose first half is done perform their second half only. A second half that meets an
absent scratchpad line parks the instruction before its first half is accepted: the model's choice of log entry 120. -/
def pstBody (h2n : Slot) (d : LSrc) (x : Issue) : Except Stop State := do
  let c := x.c
  let n := x.width.regs
  let h ← c.handle x.slot
  let h2 ← c.handle h2n.val
  let okF (k : Handle) : Bool := decide (1 ≤ hFmt k) && decide (hFmt k ≤ 7) && !hProfile k
  demand (okF h && okF h2 && elemSize (hFmt h) == elemSize (hFmt h2)) cHandle 2
  let done := halfLanes c.g c.pc
  let all := x.ins.map (fun i => (i.idx, (i.arg 0).toNat))
  let first := all.filter (fun p => !done.contains p.1)
  let runs ← laneRuns c h (4 * n) (4 * n) first
  let es ← halfElems c h h2 (elemsOf h (4 * n)) all
  if hScratch h2 then presenceCheck c (halfRuns h2 es) else .ok ()
  reach c x.s h .w false runs
  let s ← watchStep c x.s (runEls h .lw runs)
  let s ← observeParked c s h runs
  let s ← observeParked c s h2 (halfRuns h2 es)
  let data (l : Nat) : List Byte :=
    match x.ins.find? (fun i => i.idx = l) with
    | some i => (laneStore false h (storeWords d x.width 1 i)).1
    | none => []
  let ps := runData runs data
  let bs := storeBytes c s h ps
  let a := acceptOp s c .store (.store 2)
  let s1 := if first.isEmpty then s
    else updGroup (pushFifo (addDigest (clearPoisonFor a.1 bs) c.ln h (storeAddrs ps)) c.g.key
        (.store a.2 (ntOf false h) none bs)) c.g.key
      (fun g => { g with openPst := g.openPst ++ [⟨c.pc, a.2⟩] })
  let s2 ← secondHalf c s1 h2 es
  let qs := halfData h2 es data
  let bs2 := storeBytes c s2 h2 qs
  let s3 := addDigest (clearPoisonFor (clearHalf s2 c.g.key c.pc) bs2) c.ln h2 (storeAddrs qs)
  let new := if first.isEmpty then none else some a.2
  .ok (x.commit (pushSecond c s3 (ntOf false h2) new (openPsts (c.now s3) c.pc) bs2) (x.ins.map LaneIn.keep) 0)

/-- A PST waits at issue while the store counter is full, unless all its lanes perform only second halves of operations that
it has counted (R139, R259, R318). -/
def pstBusy (c : Ctx) (s : State) : Bool :=
  counterFull s c.g.key .store
    && !(c.act.all (fun l => (halfLanes c.g c.pc).contains l) && !(openPsts c.g c.pc).isEmpty)

def execPst (h2 : Slot) (d a : LSrc) (h : HSel) (s : State) : Result :=
  perLane { storeSpec (.pst h2 d a h) .int d a h with cls := .none, busy := pstBusy } (pstBody h2 d) s

/-! ## LDU and STU (R110, R111) -/

/-- Traps of a population's single access name the whole population. -/
def wholePop {α : Type} (r : Except Stop α) : Except Stop α :=
  match r with
  | .error (.trap t) => .error (.trap { t with mask := 0 })
  | .error (.trapIn t s) => .error (.trapIn { t with mask := 0 } s)
  | r => r

/-- Slot and index of a U-set memory operand (R110). -/
def uSlot (v : Word) : Nat := v.toNat / 67108864
def uIndex (v : Word) : Nat := v.toNat % 67108864

/-- The one run of a population's access; none when it is out of bounds (R111). -/
def popRun (c : Ctx) (s : State) (h : Handle) (need : Need) (kinds : List WKind) (i n : Nat) :
    Except Stop (Option Run × State) :=
  wholePop (do
    let runs ← laneRuns c h n n [(c.act.headD 0, i)]
    let s ← if need = .r then reachRead c s h false runs else do { reach c s h need false runs; .ok s }
    let els := kinds.flatMap (fun k => (runEls h k runs).map (fun e => { e with lanes := c.act }))
    let s ← thereafter s (watchStep c s els)
    .ok (runs.head?, s))

/-- Writes consecutive scalar registers. -/
def setSregs (s : State) (k : GKey) (r : Nat) (ws : List Word) : State :=
  updGroup s k (fun g => (ws.mapIdx (fun j w => (j, w))).foldl (fun g p => g.setS (r + p.1) p.2) g)

/-- Consecutive scalar registers. -/
def sregs (g : Group) (r n : Nat) : List Word := (regRange r n).map g.sreg

/-- The bytes that a load of the population binds; a wide acquire reads at the home and empties L1 (R270). -/
def popRead (c : Ctx) (s : State) (acq : Option Scope) (ls : List Loc) : List Byte × State :=
  if wideOpt acq then
    let s := settleFor c s ls
    let s := touchHome s c.w.core c.w.owner ls
    let g := c.now s
    (ls.map (readLocHome s c.w.core c.w.owner g), l1DropAll s c.w.core)
  else
    let s := bindWide c s (decide (4 < ls.length)) ls
    (readLocs c s ls, s)

/-- LDU (R111). -/
def lduBody (acq : Option Scope) (wide : Bool) (sd : SReg) (v : Word) (c : Ctx) (s : State) : Except Stop State := do
  let n := if wide then 8 else 4
  let h ← c.handle (uSlot v)
  acceptFmt h [0, 2, 3]
  let r ← popRun c s h .r [.lr] (uIndex v) n
  let s ← observeParked c r.2 h r.1.toList
  match r.1 with
  | none => .ok (setSregs s c.g.key sd.val (List.replicate (n / 4) 0))
  | some run =>
      let q := popRead c s acq (runLocs c s h .r run.va run.n)
      .ok (setSregs q.2 c.g.key sd.val (wordsOf q.1))

def execLdu (acq : Option Scope) (wide : Bool) (sd : SReg) (sb : USrc) (s : State) : Result :=
  uniform (.ldu acq wide sd sb) (fun c s => lduBody acq wide sd (readU c.g sb) c s) s

/-- A U-set store of words (R111, R328): nothing is written when it is out of bounds. -/
def popStore (c : Ctx) (s : State) (h : Handle) (rel : Option Scope) (fold : Bool) (run : Option Run) (ws : List Word) :
    State :=
  let ps := match run with
    | some r => [(r, ws.flatMap (fun w => leBytes 4 w.toNat))]
    | none => []
  let bs := storeBytes c s h ps
  let s := clearPoisonFor s bs
  let s := if fold then addDigest s c.ln h (storeAddrs ps) else s
  let a := acceptOp s c .store (.store 1)
  pushFifo a.1 c.g.key (.store a.2 false rel bs)

/-- A U-set instruction that would raise a counter waits while it is full (R139, R318). -/
def classRoom (c : Ctx) (s : State) (cls : OpClass) : Except Stop Unit :=
  if counterFull s c.g.key cls then .error .notReady else .ok ()

def execStu (rel : Option Scope) (wide : Bool) (sd : SReg) (sb : USrc) (s : State) : Result :=
  uniform (.stu rel wide sd sb) (fun c s => do
    classRoom c s .store
    let n := if wide then 8 else 4
    let v := readU c.g sb
    let h ← c.handle (uSlot v)
    acceptFmt h [0, 2, 3]
    let r ← popRun c s h .w [.lw] (uIndex v) n
    let s ← observeParked c r.2 h r.1.toList
    .ok (popStore c s h rel true r.1 (sregs c.g sd.val (n / 4)))) s

/-- QST (R328): the one way out of a qt register. -/
def execQst (q : Fin 8) (sb : USrc) (s : State) : Result :=
  uniform (.qst q sb) (fun c s => do
    classRoom c s .store
    let v := readU c.g sb
    let h ← c.handle (uSlot v)
    demand (hProfile h && (hFmt h == 0 || hFmt h == 2)) cHandle 2
    let r ← popRun c s h .w [.lw] (uIndex v) 8
    let s ← observeParked c r.2 h r.1.toList
    let x := mapGet 0 c.g.qt q.val
    .ok (popStore c s h none false r.1 [x.setWidth 32, (x >>> 32).setWidth 32])) s

/-! ## FENCE and NTDRAIN (R257, R267) -/

/-- Whether what a FENCE waits for has happened: atomics performed, and for WORKGROUP and wider the stores written
(R267). Values of loads are bound at acceptance. A non-temporal store that is still queued is one that no NTDRAIN has
gathered, and it is outside the FENCE (R256, R257). -/
def fenceReady (g : Group) (sc : Scope) (upto : Nat) : Bool :=
  g.fifo.all (fun e =>
    decide (upto < e.op) ||
      (match e with
       | .store _ nt _ _ => nt || sc == .group
       | .atomic _ => false))

/-- What a FENCE does as it completes: for CLUSTER and wider, L1 is written back and dropped (R267). -/
def fenceEffect (s : State) (core : Nat) (sc : Scope) : State := if wideScope sc then l1DropAll s core else s

/-- Whether the non-temporal stores that an NTDRAIN covers have come as far as its scope asks (R257). -/
def drainReady (s : State) (g : Group) (core : Nat) (sc : Scope) (upto : Nat) : Bool :=
  g.fifo.all (fun e =>
    match e with
    | .store op nt _ _ => !nt || decide (upto < op)
    | .atomic _ => true)
  && (!wideScope sc || (coreOf s core).wc.all (fun e => e.grp != g.key || decide (upto < e.op)))

/-- FENCE (R267). While it holds its population, what other lanes of the group issue is not ordered after it: the model's choice of
log entry 121. -/
def execFence (sc : Scope) (s : State) : Result :=
  uniform (.fence sc) (fun c s =>
    if fenceReady c.g sc (s.seq - 1) then .ok (fenceEffect s c.w.core sc)
    else .error (.hold (.fence sc (s.seq - 1)) s)) s

def execNtdrain (sc : Scope) (s : State) : Result :=
  uniform (.ntdrain sc) (fun c s =>
    if drainReady s c.g c.w.core sc (s.seq - 1) then .ok s
    else .error (.hold (.ntdrain sc (s.seq - 1)) s)) s

/-! ## Events of the path -/

/-- An event whose conditions the state does not meet. -/
def notEnabled (name : String) : Result := .refused (.notEnabled name)

/-- An event that the state allows, or not. -/
def eventOf (name : String) (r : Option State) : Result :=
  match r with
  | some s => .next s
  | none => notEnabled name

/-- A hold of an instruction that has not completed. -/
def Hold.waits (h : Hold) : Bool :=
  match h.why with
  | .collector _ => false
  | _ => true

/-- The oldest hold of a group at a PC whose wait is over: two populations may wait at one PC, each for a condition of its own
(R138). -/
def holdAt (s : State) (k : GKey) (pc : DWord) (done : Group → Wg → HoldWhy → Bool) : Option (Group × Wg × Hold) :=
  match findGroup s k, findWg s k.wg with
  | some g, some w =>
      match g.holds.find? (fun h => h.pc == pc && h.waits && done g w h.why) with
      | some h => if g.frozen || w.status ≠ .resident then none else some (g, w, h)
      | none => none
  | _, _ => none

/-- A held population goes on to the next word, its instruction having completed (R318, R380). -/
def releaseHold (s : State) (k : GKey) (h : Hold) : State :=
  let s := updGroup s k (fun g => { g with holds := g.holds.filter (fun x => x ≠ h), eop := g.eop + 1 })
  moveLanes s k h.pc (setBitsOf 64 h.mask.toNat) (fun _ => h.pc + BitVec.ofNat 64 (4 * h.len))

/-- A load's data is written, in issue order within its class (R103, R139). -/
def completeLoad (s : State) (id : Nat) : Option State :=
  match findOp s id with
  | none => none
  | some o =>
      match o.kind with
      | .load fills =>
          if !o.done && headsClass s o then some (finishOp (landRegs s o fills []) id []) else none
      | _ => none

def execLoadComplete (op : Nat) (s : State) : Result := eventOf "LOAD_COMPLETE" (completeLoad s op)

def execStoreRetire (g : GKey) (s : State) : Result := eventOf "STORE_RETIRE" (retireStore s g)

/-- A held non-temporal store is written to its home, not before an older one of the same byte (R255, R256). -/
def writeNt (s : State) (core idx : Nat) : Option State :=
  match (coreOf s core).wc[idx]? with
  | none => none
  | some e =>
      let older := (coreOf s core).wc.take idx
      if older.any e.overlaps then none
      else some (wcEntryOut s core e)

def execNtStoreWrite (core idx : Nat) (s : State) : Result := eventOf "NT_STORE_WRITE" (writeNt s core idx)

def execAtomicPerform (op req : Nat) (s : State) : Result := eventOf "ATOMIC_PERFORM" (performAtomic s op req)

/-- Whether a hold is a FENCE's, or an NTDRAIN's, whose wait is over. -/
def fenceOver (g : Group) (_ : Wg) (y : HoldWhy) : Bool := match y with | .fence sc upto => fenceReady g sc upto | _ => false
def drainOver (s : State) (g : Group) (w : Wg) (y : HoldWhy) : Bool :=
  match y with
  | .ntdrain sc upto => drainReady s g w.core sc upto
  | _ => false

/-- A FENCE completes. -/
def completeFence (s : State) (k : GKey) (pc : DWord) : Option State :=
  match holdAt s k pc fenceOver with
  | some (_, w, h) =>
      match h.why with
      | .fence sc _ => some (releaseHold (fenceEffect s w.core sc) k h)
      | _ => none
  | none => none

def execFenceComplete (g : GKey) (pc : DWord) (s : State) : Result := eventOf "FENCE_COMPLETE" (completeFence s g pc)

/-- An NTDRAIN returns. -/
def returnDrain (s : State) (k : GKey) (pc : DWord) : Option State :=
  (holdAt s k pc (drainOver s)).map (fun p => releaseHold s k p.2.2)

def execNtdrainReturn (g : GKey) (pc : DWord) (s : State) : Result := eventOf "NTDRAIN_RETURN" (returnDrain s g pc)

/-- The park of a group at a PC that still waits. -/
def parkOf (s : State) (k : GKey) (pc : DWord) : Option Park :=
  match findGroup s k with
  | some g => g.parks.find? (fun p => p.pc == pc && !p.woken)
  | none => none

/-- The lanes parked at a PC may issue again. -/
def wake (s : State) (k : GKey) (pc : DWord) : State :=
  updGroup s k (fun g => { g with parks := updateIf (fun p => p.pc == pc) (fun p => { p with woken := true }) g.parks })

/-- Every line that a parked access waits for is present (R127). -/
def unparkPresence (s : State) (k : GKey) (pc : DWord) : Option State :=
  match parkOf s k pc with
  | some p =>
      match p.why with
      | .presence wg ls =>
          match findWg s wg with
          | some w => if ls.any (fun l => w.absent.contains l) then none else some (wake s k pc)
          | none => some (wake s k pc)
      | _ => none
  | none => none

def execPresenceUnpark (g : GKey) (pc : DWord) (s : State) : Result :=
  eventOf "PRESENCE_UNPARK" (unparkPresence s g pc)

/-- The leaf of an address no longer has MIG set (R65). -/
def migOver (s : State) (root va : Nat) : Bool :=
  match walk s root va with
  | .leaf _ _ e => !ebit e 1
  | _ => true

def unparkMigration (s : State) (k : GKey) (pc : DWord) : Option State :=
  match parkOf s k pc, findCtx s k with
  | some p, some (_, _, ln) =>
      match p.why with
      | .migration va => if migOver s ln.ptroot va then some (wake s k pc) else none
      | .fetchMig va => if migOver s ln.ptroot va then some (wake s k pc) else none
      | _ => none
  | _, _ => none

def execMigrationUnpark (g : GKey) (pc : DWord) (s : State) : Result :=
  eventOf "MIGRATION_UNPARK" (unparkMigration s g pc)

end Sys2Proof.Machine
end

