-- ==== Sys2Proof/Machine/Atomic.lean ====
section
/-! DEFINITION. The atomics of the lanes: ATOM, ATOMR, CAS and CAS128 (R260–R266). -/

namespace Sys2Proof.Machine

/-- What an atomic instruction is: its step, its first data register or source, the registers of its operand and of
its comparand for a width, the widths it allows, whether it returns, and its ordering. -/
structure AtomSpec where
  kind : AtomKind
  data : LSrc
  cas : Bool
  widths : List Width
  returns : Bool
  ord : MemOrd

/-- Whether the operation is one of the FP32 operations (R261). -/
def AtomSpec.isFloat (p : AtomSpec) : Bool :=
  match p.kind with
  | .rmw op => op.isFloat
  | .cas => false

/-- The number of registers from v(D) (R261). -/
def AtomSpec.regs (p : AtomSpec) (w : Width) : Nat := if p.cas then 2 * w.regs else w.regs

/-- The check of a register-held width (R261): the widths allowed, then the group. -/
def AtomSpec.widthOk (p : AtomSpec) (w : Width) (c : Ctx) : Except Stop Unit := do
  demand (p.widths.contains w) cOperand 3
  if p.returns || p.cas || p.regs w != 1 then
    match p.data with
    | .v r => groupOk r.val (p.regs w) c
    | _ => trapAll cOperand 1
  else .ok ()

/-- The scopes of an ordering (R260). -/
def acqOf : MemOrd → Option Scope
  | .acq sc | .acqRel sc => some sc
  | _ => none
def relOf : MemOrd → Option Scope
  | .rel sc | .acqRel sc => some sc
  | _ => none

/-- The issue specification of an atomic. Where v(H) gives the width, D is checked beforehand as for 4 bytes (R19); CAS128 has
no 4-byte access, and only v(D) itself is then checked (log entry 92). -/
def AtomSpec.issue (p : AtomSpec) (i : Instr) (a : LSrc) (h : HSel) : LSpec :=
  let n := match h.width? with
    | some w => p.regs w
    | none => if p.widths.contains .w4 then p.regs .w4 else 1
  { LSpec.mk0 i [(.int, a), (.int, p.data)] (srcGroup p.data n) with
    cls := .load, hsel := some h, widthOk := p.widthOk, reads := fun w => srcGroup p.data (p.regs w) }

/-- A number from registers, low word first. -/
def wordsNum (ws : List Word) : Nat := ws.foldr (fun w n => w.toNat + 4294967296 * n) 0

/-- What a lane brings to the atomic: comparand and operand (R261). -/
def AtomSpec.lane (p : AtomSpec) (w : Width) (i : LaneIn) : AtomLane :=
  let ws := if p.cas || w.regs != 1 then (srcGroup p.data (p.regs w)).map i.lane.vreg else [i.arg 1]
  if p.cas then ⟨i.idx, wordsNum (ws.take w.regs), wordsNum (ws.drop w.regs)⟩ else ⟨i.idx, 0, wordsNum ws⟩

/-- One request for each address that runs name, its lanes ascending (R263). -/
def atomReqs (c : Ctx) (s : State) (h : Handle) (runs : List Run) (lane : Nat → AtomLane) : List AtomReq :=
  (dedup (runs.map (·.va))).filterMap (fun a =>
    match runLocs c s h .rw a 1 with
    | l :: _ => some ⟨l, ((runs.filter (fun r => r.va = a)).map (fun r => lane r.lane)), false, false⟩
    | [] => none)

/-- The destination register of a returning atomic. -/
def AtomSpec.dest (p : AtomSpec) : Option Nat :=
  match p.returns, p.data with
  | true, .v r => some r.val
  | _, _ => none

/-- Accepts an atomic: it counts as a load and enters the FIFO, unless no lane takes part (R262). -/
def acceptAtomic (c : Ctx) (s : State) (a : Atomic) : State :=
  if a.reqs.isEmpty then
    match a.dest with
    | some _ => (acceptOp s c .load (.load a.fills)).1
    | none => let r := acceptOp s c .load (.atomic a)
              finishOp r.1 r.2 []
  else
    let r := acceptOp s c .load (.atomic a)
    pushFifo r.1 c.g.key (.atomic r.2)

/-- An atomic after its draws (R261–R263). -/
def atomBody (p : AtomSpec) (x : Issue) : Except Stop State := do
  let c := x.c
  let n := 4 * x.width.regs
  let h ← c.handle x.slot
  demand ((if p.isFloat then hFmt h == 3 else hFmt h == 0 || hFmt h == 2 || hFmt h == 3) && !hProfile h && !hDigest h)
    cHandle 2
  demand (!(p.isFloat && c.ln.det)) cDeterm 1
  let runs ← laneRuns c h n n (x.ins.map (fun i => (i.idx, (i.arg 0).toNat)))
  let s ← reachRw c x.s h runs
  let els := runs.flatMap (fun r => runEls h .lr [r] ++ runEls h .lw [r])
  let s ← watchStep c s els
  let s ← observeParked c s h runs
  let lane (l : Nat) : AtomLane :=
    match x.ins.find? (fun i => i.idx = l) with
    | some i => p.lane x.width i
    | none => ⟨l, 0, 0⟩
  let out := x.ins.filter (fun i => !runs.any (fun r => r.lane = i.idx))
  let fills := match p.dest with
    | some d => out.flatMap (fun i => oldFills d n i.idx 0)
    | none => []
  let s := acceptAtomic c s
    ⟨p.kind, n, p.dest, acqOf p.ord, relOf p.ord, atomReqs c s h runs lane, fills, false, []⟩
  .ok (x.commit s (x.ins.map LaneIn.keep) 0)

/-- The widths of an operation of ATOM and ATOMR (R261). -/
def rmwWidths (op : AtomOp) : List Width := if op.isFloat then [.w4] else [.w4, .w8]

def execAtom (op : AtomOp) (ord : MemOrd) (d : VReg) (a : LSrc) (h : HSel) (s : State) : Result :=
  let p : AtomSpec := ⟨.rmw op, .v d, false, rmwWidths op, true, ord⟩
  perLane (p.issue (.atom op ord d a h) a h) (atomBody p) s

def execAtomr (op : AtomOp) (d a : LSrc) (h : HSel) (s : State) : Result :=
  let p : AtomSpec := ⟨.rmw op, d, false, rmwWidths op, false, .plain⟩
  perLane (p.issue (.atomr op d a h) a h) (atomBody p) s

def execCas (ord : MemOrd) (d : VReg) (a : LSrc) (h : HSel) (s : State) : Result :=
  let p : AtomSpec := ⟨.cas, .v d, true, [.w4, .w8], true, ord⟩
  perLane (p.issue (.cas ord d a h) a h) (atomBody p) s

def execCas128 (ord : MemOrd) (d : VReg) (a : LSrc) (h : HSel) (s : State) : Result :=
  let p : AtomSpec := ⟨.cas, .v d, true, [.w16], true, ord⟩
  perLane (p.issue (.cas128 ord d a h) a h) (atomBody p) s

end Sys2Proof.Machine
end

