-- ==== Sys2Proof/Machine/Barrier.lean ====
section
/-! DEFINITION. Transaction barriers and stage rings (R128–R138), WAITC (R140), and ring queues (R141, R142). -/

namespace Sys2Proof.Machine

/-! ## The barrier object (R128, R129) -/

/-- The 16 bytes of a barrier. -/
abbrev Bar := BitVec 128

def barPhase (b : Bar) : Nat := bits b 3 0
def barArrp (b : Bar) : Nat := bits b 23 4
def barQuadp (b : Bar) : Nat := bits b 49 24
def barArri (b : Bar) : Nat := bits b 69 50
def barErr (b : Bar) : Nat := bits b 72 70
def barRing (b : Bar) : Nat := bits b 81 74

/-- A reserved bit is set (R133). -/
def barBad (b : Bar) : Bool := bits b 127 82 != 0 || bit b 73

/-- The end of every update (R129). -/
def barSettle (b : Bar) : Bar :=
  if barArrp b = 0 ∧ barQuadp b = 0 then setBits (setBits b 3 0 (barPhase b + 1)) 23 4 (barArri b) else b

/-- Arrive and ArriveExp with q quads (R129): excess arrivals are discarded. -/
def barArrive (k q : Nat) (b : Bar) : Bar :=
  barSettle (setBits (setBits b 49 24 (barQuadp b + q)) 23 4 (barArrp b - k))

/-- Expect (R129), modulo 2^26. -/
def barExpect (q : Nat) (b : Bar) : Bar := barSettle (setBits b 49 24 (barQuadp b + q))

/-- Land: one quad (R129). -/
def barLand (b : Bar) : Bar := barSettle (setBits b 49 24 (barQuadp b + (2 ^ 26 - 1)))

/-- Flag: error bits, without Settle (R129). -/
def barFlag (e : Nat) (b : Bar) : Bar := setBits b 72 70 (barErr b ||| e)

/-- The ERR bits (R128). -/
def errOob : Nat := 1
def errNres : Nat := 2
def errSat : Nat := 4

/-- A barrier of an allocation. -/
def barGet (s : State) (uid off : Nat) : Bar :=
  BitVec.ofNat 128 (ofBytes ((List.range 16).map (fun i => scratchByte s uid (off + i))))

/-- Whether a barrier's phase lies 1 to 8 completions past p (R137, R138). -/
def phasePast (phase p : Nat) : Bool :=
  let d := (phase + 16 - p % 16) % 16
  decide (1 ≤ d) && decide (d ≤ 8)

/-- The condition of a BWAIT is evaluated at an update that leaves its barrier at a phase (R138). -/
def HoldWhy.retest (off phase : Nat) : HoldWhy → HoldWhy
  | .bwait b p none => if b = off && phasePast phase p then .bwait b p (some phase) else .bwait b p none
  | w => w

/-- Writes a barrier, at whose new phase the BWAITs on it evaluate their condition. -/
def barPut (s : State) (uid off : Nat) (b : Bar) : State :=
  let s := locSetBytes s 0 (.scr uid off) (leBytes 16 b.toNat)
  { s with
    groups := updateIf (fun g => g.key.wg == uid && !g.holds.isEmpty)
      (fun g => { g with holds := g.holds.map (fun h => { h with why := h.why.retest off (barPhase b) }) }) s.groups }

/-- One indivisible update of a barrier (R129). -/
def barUpdate (s : State) (uid off : Nat) (f : Bar → Bar) : State := barPut s uid off (f (barGet s uid off))

/-! ## Locating a barrier (R136) -/

/-- Parks until the line of a barrier is present; traps SOFT where it is poisoned (R127, R358). -/
def barLine (c : Ctx) (s : State) (off n : Nat) : Except Stop Unit := do
  presenceCheck c [⟨0, off, n, 0⟩]
  if (List.range ((off + n + 127) / 128 - off / 128)).any (fun i => s.poison.contains (.scratch c.w.uid (off / 128 + i))) then
    .error (.trap { mkTrap cSoft 2 with addr := BitVec.ofNat 64 off })
  else .ok ()

/-- SPBOUND with the offset in ADDR (R124, R337). -/
def spTrap {α : Type} (sub off : Nat) : Except Stop α :=
  .error (.trap { mkTrap cSpbound sub with addr := BitVec.ofNat 64 off })

/-- The barrier that a non-ring operand names: inside the allocation and aligned. -/
def barAt (c : Ctx) (b : Nat) : Except Stop Nat := do
  if c.scratchSize < b + 16 then spTrap 2 b else .ok ()
  demand (b % 16 == 0) cAlign 0
  .ok b

/-- The slot and phase that a ring form acts on (R134, R136). The head's reserved bits are tested as its RING is read, before the
bounds and the presence of the slot (log entry 97). -/
def ringAt (c : Ctx) (s : State) (h q : Nat) : Except Stop (Nat × Nat) := do
  if c.scratchSize < h + 16 then spTrap 2 h else .ok ()
  demand (h % 16 == 0) cAlign 0
  barLine c s h 16
  let n := barRing (barGet s c.w.uid h)
  demand (n != 0 && !barBad (barGet s c.w.uid h)) cOperand 4
  let b := h + 16 * (q % n)
  if c.scratchSize < b + 16 then spTrap 3 b else .ok ()
  .ok (b, q / n % 16)

/-- The barrier and phase of an operand: ring form or not. `p` is the phase that a non-ring form names. -/
def locateBar (c : Ctx) (s : State) (ring : Bool) (sd : USrc) (p : Nat) : Except Stop (Nat × Nat) := do
  let r ← (if ring then
      (match sd with
       | .s r => ringAt c s (c.g.sreg r.val).toNat (c.g.sreg (r.val + 1)).toNat
       | _ => ringAt c s (readU c.g sd).toNat 0)
    else do
      let b ← barAt c (readU c.g sd).toNat
      .ok (b, p))
  barLine c s r.1 16
  demand (!barBad (barGet s c.w.uid r.1)) cOperand 4
  .ok r

/-- A barrier instruction that has parked on presence is accepted: it observes the copies that landed in the lines of its
barrier and of its ring's head (R127, R273). -/
def observeBar (c : Ctx) (s : State) (ring : Bool) (sd : USrc) (off : Nat) : Except Stop State :=
  observeLines c s (off / 128 :: if ring then [(readU c.g sd).toNat / 128] else [])

/-! ## The barrier instructions (R135–R138) -/

/-- BINIT's value of a slot: PHASE 0, ARRP and ARRI a, RING n. -/
def barInit (a n : Nat) : Bar := setBits (setBits (setBits 0 23 4 a) 69 50 a) 81 74 n

/-- Slots k to k + m − 1 of a new ring, the head holding RING n. -/
def initSlots (s : State) (uid b a n : Nat) : Nat → State
  | 0 => s
  | m + 1 => barPut (initSlots s uid b a n m) uid (b + 16 * m) (barInit a (if m = 0 then n else 0))

def execBinit (sd sb : USrc) (s : State) : Result :=
  uniform (.binit sd sb) (fun c s => do
    let v := readU c.g sb
    let a := bits v 19 0
    let n := bits v 27 20
    demand (a != 0 && bits v 31 28 == 0) cOperand 3
    let b ← barAt c (readU c.g sd).toNat
    let m := max n 1
    presenceCheck c [⟨0, b, 16, 0⟩]
    if c.scratchSize < b + 16 * m then spTrap 3 (b + 16 * (m - 1)) else .ok ()
    presenceCheck c [⟨0, b, 16 * m, 0⟩]
    let s' ← observeLines c (drainFifo s c.g.key) (scratchLines [⟨0, b, 16 * m, 0⟩])
    .ok (initSlots s' c.w.uid b a n m)) s

/-- BARRIVE (R137): a release at WORKGROUP scope, so what the group's FIFO holds is performed first (R132). -/
def execBarrive (ring exp : Bool) (sd sb : USrc) (s : State) : Result :=
  uniform (.barrive ring exp sd sb) (fun c s => do
    let q := if exp then (readU c.g sb).toNat else 0
    demand (decide (q < 2 ^ 25)) cOperand 3
    let s' := drainFifo s c.g.key
    let r ← locateBar c s' ring sd 0
    let s' ← observeBar c s' ring sd r.1
    .ok (barUpdate s' c.w.uid r.1 (barArrive c.act.length q))) s

def execBexpect (ring : Bool) (sd sb : USrc) (s : State) : Result :=
  uniform (.bexpect ring sd sb) (fun c s => do
    let q := (readU c.g sb).toNat
    demand (decide (q < 2 ^ 25)) cOperand 3
    let s' := drainFifo s c.g.key
    let r ← locateBar c s' ring sd 0
    let s' ← observeBar c s' ring sd r.1
    .ok (barUpdate s' c.w.uid r.1 (barExpect q))) s

/-- The hits that a return on a barrier observes: operations that contributed to a phase now past (R132, R348). -/
def barHits (uid off phase : Nat) (j : JoinHit) : Bool :=
  j.via.any (fun v => match v with | .barrier u o q => u == uid && o == off && phasePast phase q | _ => false)

/-- BWAIT (R138): it returns, or its population is held. Either way what the group's FIFO held is performed first, so that every
test of the wait follows the group's own stores (R276). -/
def execBwait (ring : Bool) (sd sb : USrc) (s : State) : Result :=
  uniform (.bwait ring sd sb) (fun c s => do
    let p := if ring then 0 else (readU c.g sb).toNat
    demand (decide (p < 16)) cOperand 3
    let s' := drainFifo s c.g.key
    let r ← locateBar c s' ring sd p
    let s' ← observeBar c s' ring sd r.1
    let ph := barPhase (barGet s' c.w.uid r.1)
    if phasePast ph r.2 then observe s' c.g (barHits c.w.uid r.1 ph)
    else .error (.hold (.bwait r.1 r.2 none) s')) s

/-- What BTEST's read modes report (R137). -/
def barReport (b : Bar) : Word :=
  BitVec.ofNat 32 (barPhase b + 16 * barErr b + 256 * barRing b + 65536 * bitOf (barArrp b == 0)
    + 131072 * bitOf (barQuadp b == 0))

def execBtest (mode : BtMode) (ring : Bool) (sd : SReg) (sb : USrc) (s : State) : Result :=
  uniform (.btest mode ring sd sb) (fun c s => do
    let p := if mode = .test ∧ !ring then (readU c.g sb).toNat else 0
    demand (decide (p < 16)) cOperand 3
    let s' := drainFifo s c.g.key
    let r ← locateBar c s' ring (.s sd) p
    let s' ← observeBar c s' ring (.s sd) r.1
    let b := barGet s' c.w.uid r.1
    let put (s : State) (w : Word) : State := updGroup s c.g.key (fun g => g.setS sd.val w)
    match mode with
    | .test =>
        if phasePast (barPhase b) r.2 then do
          let s2 ← observe s' c.g (barHits c.w.uid r.1 (barPhase b))
          .ok (put s2 1)
        else .ok (put s' 0)
    | .read => .ok (put s' (barReport b))
    | .errc => .ok (put (barPut s' c.w.uid r.1 (setBits b 72 70 0)) (barReport b))) s

/-! ## WAITC (R140) -/

/-- Whether the counters are at or below the thresholds. -/
def countersLow (s : State) (k : GKey) (nld nst ncp ntl : Nat) : Bool :=
  let low (n : Nat) (c : OpClass) : Bool := decide (63 ≤ n) || decide (counter s k c ≤ n)
  low nld .load && low nst .store && low ncp .copy && low ntl .tile

/-- The hits that a returning WAITC observes (R140, R348). -/
def waitcHits (g : Group) (nld nst ncp ntl : Nat) (j : JoinHit) : Bool :=
  covers g nld .load j || covers g nst .store j || covers g ncp .copy j || covers g ntl .tile j

def execWaitc (nld nst ncp ntl : Fin 64) (s : State) : Result :=
  uniform (.waitc nld nst ncp ntl) (fun c s =>
    if countersLow s c.g.key nld.val nst.val ncp.val ntl.val then
      observe s c.g (waitcHits c.g nld.val nst.val ncp.val ntl.val)
    else .error (.hold (.waitc nld.val nst.val ncp.val ntl.val) s)) s

/-! ## Returns of held populations -/

/-- A held population whose condition has come: it completes, or traps a join-time watch first (R348). -/
def finishHold (s : State) (k : GKey) (h : Hold) (r : Except Stop State) : State :=
  match r with
  | .ok s' => releaseHold s' k h
  | .error (.trapIn t s') =>
      takeTrap (updGroup s' k (fun g => { g with holds := g.holds.filter (fun x => x ≠ h) })) k h.pc
        { t with mask := h.mask, len := h.len } none 0
  | .error _ => s

/-- The phase at which a BWAIT's condition is tested (R138). -/
def bwaitPhase (s : State) (w : Wg) (off : Nat) (met : Option Nat) : Nat := met.getD (barPhase (barGet s w.uid off))

/-- Whether a hold is a BWAIT's, or a WAITC's, whose wait is over. -/
def bwaitOver (s : State) (_ : Group) (w : Wg) (y : HoldWhy) : Bool :=
  match y with
  | .bwait off p met => phasePast (bwaitPhase s w off met) p
  | _ => false
def waitcOver (s : State) (g : Group) (_ : Wg) (y : HoldWhy) : Bool :=
  match y with
  | .waitc a b c d => countersLow s g.key a b c d
  | _ => false

def returnBwait (s : State) (k : GKey) (pc : DWord) : Option State :=
  match holdAt s k pc (bwaitOver s) with
  | some (g, w, h) =>
      match h.why with
      | .bwait off _ met => some (finishHold s k h (observe s g (barHits w.uid off (bwaitPhase s w off met))))
      | _ => none
  | none => none

def execBwaitReturn (g : GKey) (pc : DWord) (s : State) : Result := eventOf "BWAIT_RETURN" (returnBwait s g pc)

def returnWaitc (s : State) (k : GKey) (pc : DWord) : Option State :=
  match holdAt s k pc (waitcOver s) with
  | some (g, _, h) =>
      match h.why with
      | .waitc a b c d => some (finishHold s k h (observe s g (waitcHits g a b c d)))
      | _ => none
  | none => none

def execWaitcReturn (g : GKey) (pc : DWord) (s : State) : Result := eventOf "WAITC_RETURN" (returnWaitc s g pc)

/-! ## Ring queues (R141, R142) -/

/-- The control block of a ring queue. -/
structure RingCb where
  head : Nat
  tail : Nat
  logn : Nat
  esz : Bool
  bad : Bool
  deriving DecidableEq, Repr

/-- The fields of a control block (R141). -/
def ringCb (bs : List Byte) : RingCb :=
  let v : BitVec 128 := BitVec.ofNat 128 (ofBytes bs)
  ⟨bits v 31 0, bits v 63 32, bits v 68 64, bit v 72, bits v 71 69 != 0 || bit v 73 || bits v 127 74 != 0⟩

/-- The state in which the home holds the line of 16 bytes at a location alone (R142, R255), the atomics of the core that
others have passed there being performed (R278). -/
def homeReady (c : Ctx) (s : State) (rel : Option Scope) (l : Loc) : State :=
  atomReady (settlePassed s c.w.core c.g.key ((List.range 16).map l.plus)) c.w.core c.w.owner rel l

/-- A control block outside the allocation is subcode 2 of SPBOUND (R124). -/
def asControl {α : Type} (r : Except Stop α) : Except Stop α :=
  match r with
  | .error (.trap t) => .error (.trap (if t.cause = cSpbound then { t with sub := 2 } else t))
  | r => r

/-- The addresses of the entries of a queue of n-byte entries whose block stands at an index (R142). -/
def ringEntries (h : Handle) (i n logn : Nat) : List Nat := (List.range (2 ^ logn)).map (fun k => addrOf h (i + 16 + n * k))

/-- A queue operation up to its control block: the checks of one access, the block, and the bounds of the whole queue: each
entry lies below 2^60 (R53), or inside the allocation, wherever the swizzle puts it. `none` is a queue out of bounds with
TRAPOOB clear (R142). A queue whose entries leave the allocation, for which R124 lists no subcode, traps SPBOUND with
subcode 1 (log entry 86). -/
def ringOpen (c : Ctx) (s : State) (wide : Bool) (rel : Option Scope) (v : Word) :
    Except Stop (Option (Handle × RingCb × State)) := do
  let h ← c.handle (uSlot v)
  acceptFmt h [0]
  let i := uIndex v
  let runs ← asControl (wholePop (laneRuns c h 16 16 [(0, i)]))
  let s ← wholePop (reachRw c s h runs)
  match runs with
  | [] => .ok none
  | r :: _ =>
      match runLocs c s h .rw r.va 16 with
      | [] => .ok none
      | l :: _ => do
          let s1 ← observeParked c (homeReady c (flushScats (drainFifo s c.g.key) c.g.key s.seq) rel l) h runs
          let cb := ringCb (locBytes s1 c.w.owner l 16)
          demand (!cb.bad && decide (cb.logn ≤ 16) && cb.esz == wide) cOperand 4
          let n := if wide then 8 else 4
          let at' := ringEntries h i n cb.logn
          if (laneAddr h i (16 + n * 2 ^ cb.logn)).isSome && !at'.any (beyondVa h) then do
            if hScratch h && at'.any (fun a => decide (c.scratchSize < a + n)) then
              .error (.trap { mkTrap cSpbound 1 with addr := BitVec.ofNat 64 r.va })
            else .ok ()
            .ok (some (h, cb, s1))
          else if hTrapOob h then wholePop (oobTrap h [(0, i)])
          else .ok none

/-- The location of an entry, its line translated or present, and the state after the joins that it observes. -/
def ringEntry (c : Ctx) (s : State) (h : Handle) (i n k logn : Nat) : Except Stop (Option Loc × State) := do
  let va := addrOf h (i + 16 + n * (k % 2 ^ logn))
  wholePop (reach c s h .rw false [⟨0, va, n, i⟩])
  let s ← observeParked c s h [⟨0, va, n, i⟩]
  .ok ((runLocs c s h .rw va n).head?, s)

/-- The control block's own location again, for the counter update. -/
def ringHead (c : Ctx) (s : State) (h : Handle) (i : Nat) : Option Loc := (runLocs c s h .rw (addrOf h i) 16).head?

/-- RQENQ (R142). -/
def enqBody (rel : Option Scope) (wide : Bool) (sd : SReg) (v : Word) (c : Ctx) (s : State) : Except Stop State := do
  let n := if wide then 8 else 4
  let w := if wide then 2 else 1
  let status (s : State) (x : Word) : State := updGroup s c.g.key (fun g => g.setS (sd.val + w) x)
  let o ← ringOpen c s wide rel v
  match o with
  | none => .ok (status s 0)
  | some (h, cb, s1) =>
      if (cb.tail + 4294967296 - cb.head) % 4294967296 = 2 ^ cb.logn then .ok (status s1 0)
      else do
        let (e, s1) ← ringEntry c s1 h (uIndex v) n cb.tail cb.logn
        match e, ringHead c s1 h (uIndex v) with
        | some le, some l => do
            let s2 := homeReady c s1 none le
            let s3 := locSetBytes s2 c.w.owner le ((sregs c.g sd.val w).flatMap (fun x => leBytes 4 x.toNat))
            .ok (status (locSetBytes s3 c.w.owner (l.plus 4) (leBytes 4 (cb.tail + 1))) 1)
        | _, _ => .ok (status s1 0)

def execRqenq (rel : Option Scope) (wide : Bool) (sd : SReg) (sb : USrc) (s : State) : Result :=
  uniform (.rqenq rel wide sd sb) (fun c s => enqBody rel wide sd (readU c.g sb) c s) s

/-- RQDEQ (R142): an acquire of CLUSTER or wider empties L1 after its reads. -/
def deqBody (acq : Option Scope) (wide : Bool) (sd : SReg) (v : Word) (c : Ctx) (s : State) : Except Stop State := do
  let n := if wide then 8 else 4
  let w := if wide then 2 else 1
  let status (s : State) (x : Word) : State := updGroup s c.g.key (fun g => g.setS (sd.val + w) x)
  let acquire (s : State) : State := if wideOpt acq then l1DropAll s c.w.core else s
  let o ← ringOpen c s wide none v
  match o with
  | none => .ok (status s 0)
  | some (h, cb, s1) =>
      if cb.tail = cb.head then .ok (acquire (status s1 0))
      else do
        let (e, s1) ← ringEntry c s1 h (uIndex v) n cb.head cb.logn
        match e, ringHead c s1 h (uIndex v) with
        | some le, some l => do
            let s2 := homeReady c s1 none le
            let data := wordsOf (locBytes s2 c.w.owner le n)
            let s3 := locSetBytes s2 c.w.owner l (leBytes 4 (cb.head + 1))
            .ok (acquire (status (setSregs s3 c.g.key sd.val data) 1))
        | _, _ => .ok (status s1 0)

def execRqdeq (acq : Option Scope) (wide : Bool) (sd : SReg) (sb : USrc) (s : State) : Result :=
  uniform (.rqdeq acq wide sd sb) (fun c s => deqBody acq wide sd (readU c.g sb) c s) s

end Sys2Proof.Machine
end

