-- ==== Sys2Proof/Machine/Tables.lean ====
section
/-! DEFINITION. The instructions of the handle table (R97–R100), distribution registers (R184), generator registers and
their values (R224–R232), and the requests PGREQ and PFH (R66, R67). -/

namespace Sys2Proof.Machine

/-! ## Reading a run for the population (R97, R184, R231) -/

/-- A run of n bytes at an index, aligned, with the checks of a load; TRAPOOB is ignored. The elements are those that
issue-time watches see. -/
def tableRun (c : Ctx) (s : State) (h : Handle) (i n align : Nat) : Except Stop (Nat × State) :=
  wholePop (do
    match laneAddr h i n with
    | none => oobTrap h [(0, i)]
    | some a => do
        demand (a % align == 0) cAlign 0
        let run : Run := ⟨0, a, n, i⟩
        if hScratch h then spCheck c [run] else .ok ()
        let s ← reachRead c s h false [run]
        let s ← thereafter s (watchStep c s ((laneEls h .lr 0 i n).map (fun e => { e with lanes := c.act })))
        let s ← observeParked c s h [run]
        .ok (a, s))

/-- The bytes of such a run, as the group's own load reads them. -/
def tableBytes (c : Ctx) (s : State) (h : Handle) (a n : Nat) : List Byte × State :=
  let ls := runLocs c s h .r a n
  let s := bindWide c s true ls
  (readLocs c s ls, s)

/-- The source slot of a descriptor: numbered in range, loaded, RAW and not swizzled; DSLD and GNLD refuse a PROFILE
handle as well. -/
def tableSource (c : Ctx) (src : Nat) (profileOk : Bool) : Except Stop Handle := do
  demand (decide (src ≤ 63)) cOperand 3
  let h ← c.handle src
  demand (hFmt h == 0 && hSwz h == 0 && (profileOk || !hProfile h)) cHandle 2
  .ok h

/-- Writes a slot of the workgroup's handle table. -/
def setSlot (s : State) (uid x : Nat) (h : Handle) : State :=
  updWg s uid (fun w => { w with handles := mapSet 0 w.handles x h })

/-! ## HLOAD, HADJ, HQRY -/

/-- HLOAD (R97). -/
def hloadBody (sd : SReg) (x : Slot) (src : Word) (c : Ctx) (s : State) : Except Stop State := do
  let h ← tableSource c src.toNat true
  let r ← tableRun c s h (c.g.sreg sd.val).toNat 128 128
  let q := tableBytes c r.2 h r.1 128
  let d : Handle := BitVec.ofNat 1024 (ofBytes q.1)
  if loaded d then
    match handleFault d with
    | some k => thereafter q.2 (trapAll cHandle k)
    | none => .ok (setSlot q.2 c.w.uid x.val d)
  else .ok (setSlot q.2 c.w.uid x.val 0)

def execHload (sd : SReg) (sb : USrc) (x : Slot) (s : State) : Result :=
  uniform (.hload sd sb x) (fun c s => hloadBody sd x (readU c.g sb) c s) s

/-- The descriptor with the field that a selector names changed (R98); none for a selector or value out of range. -/
def adjusted (h : Handle) (sel : Nat) (v hi : Word) : Option Handle :=
  match sel with
  | 0 => some (setBits h 63 0 (bits h 63 0 + (hi.toNat * 4294967296 + v.toNat)))
  | 1 | 2 | 3 | 4 => some (setBits h (127 + 32 * sel) (96 + 32 * sel) v.toNat)
  | 5 => if v.toNat < 256 then some (setBits h 95 88 v.toNat) else none
  | 6 => some (setBits h 127 96 v.toNat)
  | 7 => if v.toNat < 16 then some (setBits h 83 80 v.toNat) else none
  | _ => none

/-- HADJ (R98): values first, then the slot (R45). -/
def hadjBody (sd : SReg) (x : Slot) (sel : Word) (c : Ctx) (s : State) : Except Stop State := do
  demand (!(sel == 0 && sd.val % 2 == 1)) cOperand 2
  match adjusted (c.slot x.val) sel.toNat (c.g.sreg sd.val) (c.g.sreg (sd.val + 1)) with
  | none => trapAll cOperand 3
  | some d => do
      let _ ← c.handle x.val
      match handleFault d with
      | some k => trapAll cHandle k
      | none => .ok (setSlot s c.w.uid x.val d)

def execHadj (sd : SReg) (sb : USrc) (x : Slot) (s : State) : Result :=
  uniform (.hadj sd sb x) (fun c s => hadjBody sd x (readU c.g sb) c s) s

/-- The item of a slot that a selector names (R99). -/
def hqryItem (h : Handle) (sel : Nat) : Option Nat :=
  match sel with
  | 0 => some (bits h 31 0)
  | 1 => some (bits h 63 32)
  | 2 => some (hControl h)
  | 3 => some (hTag h)
  | 4 | 5 | 6 | 7 => some (hExt h (sel - 4))
  | 8 | 9 | 10 | 11 | 12 | 13 => some (bits h (287 + 32 * (sel - 8)) (256 + 32 * (sel - 8)))
  | 14 => some (bits h 479 448)
  | 15 => some (bits h 511 480)
  | 16 => some (bitOf (loaded h))
  | _ => none

def execHqry (sd : SReg) (sb : USrc) (x : Slot) (s : State) : Result :=
  uniform (.hqry sd sb x) (fun c s =>
    match hqryItem (c.slot x.val) (readU c.g sb).toNat with
    | none => trapAll cOperand 3
    | some n => .ok (updGroup s c.g.key (fun g => g.setS sd.val (BitVec.ofNat 32 n)))) s

/-! ## DSLD (R182–R184) -/

/-- A distribution descriptor (R182). -/
abbrev DsDesc := BitVec 2048

/-- The kind that TYPE names. -/
def dsKind : Nat → Option DsType
  | 1 => some .uniform | 2 => some .inverse | 3 => some .aliased | 4 => some .reject | _ => none

def dsHandle (d : DsDesc) : Nat := bits d 13 8
def dsToff (d : DsDesc) : Nat := bits d 63 32
def dsN (d : DsDesc) : Nat := bits d 25 16 + 1

/-- RNE(HI − LO, FP32) (R184). -/
def dsWidth (d : DsDesc) : Nat := (subF .fp32 (bits d 127 96) (bits d 95 64)).code

/-- Whether an FP32 code is finite. -/
def finite32 (c : Nat) : Bool := !(decodeF .fp32 c).nonFinite

/-- The fields of a descriptor agree with its type (R182, R184). -/
def dsValid (d : DsDesc) (k : DsType) : Bool :=
  bits d 2047 128 == 0 && bits d 31 26 == 0 && bits d 15 14 == 0 && bits d 7 6 == 0 && bits d 3 3 == 0
    && (k == .uniform || bits d 127 64 == 0)
    && (k == .aliased || bits d 25 16 == 0)
    && (k != .uniform
        || (dsToff d == 0 && dsHandle d == 0 && finite32 (bits d 95 64) && finite32 (bits d 127 96)
            && condF .lt (bits d 95 64) (bits d 127 96) && finite32 (dsWidth d)))

/-- The size of a type's table (R183). -/
def dsTableSize (k : DsType) (n : Nat) : Nat :=
  match k with
  | .uniform => 0 | .inverse => 2048 | .reject => 4096 | .aliased => 4 * n

/-- An entry of an ALIAS table that R184 refuses. -/
def aliasBad (n e : Nat) : Bool := e / 67108864 != 0 || decide (n ≤ e / 65536 % 1024)

/-- The table checks of DSLD: the offset of the table in the allocation, and the state after its reads. Its lines must be present;
only an ALIAS table is read, after the group's earlier writes of it (R255, R297), so only there poison traps (R184, R358). -/
def dsTable (c : Ctx) (s : State) (d : DsDesc) (k : DsType) : Except Stop (Nat × State) :=
  if k = .uniform then .ok (0, s)
  else do
    let ht ← c.handle (dsHandle d)
    demand (hFmt ht == 0 && hScratch ht) cHandle 2
    let o := hBase ht + dsToff d
    let n := dsTableSize k (dsN d)
    demand (o % 16 == 0) cAlign 0
    if c.scratchSize < o + n then spTrap 4 o else .ok ()
    presenceCheck c [⟨0, o, n, 0⟩]
    if k = .aliased then
      let s := settleFor c s ((List.range n).map (fun i => .scr c.w.uid (o + i)))
      thereafter s (do
        barLine c s o n
        demand ((List.range (dsN d)).all (fun j => !aliasBad (dsN d) (ownWord s (c.now s) (o + 4 * j)))) cOperand 7
        .ok (o, s))
    else .ok (o, s)

/-- DSLD (R184). -/
def dsldBody (sd : SReg) (x : Fin 16) (src : Word) (c : Ctx) (s : State) : Except Stop State := do
  let h ← tableSource c src.toNat false
  let r ← tableRun c s h (c.g.sreg sd.val).toNat 256 256
  let q := tableBytes c r.2 h r.1 256
  let d : DsDesc := BitVec.ofNat 2048 (ofBytes q.1)
  let clear := updGroup q.2 c.g.key (fun g => { g with ds := mapErase g.ds x.val })
  if d = 0 then .ok clear
  else thereafter q.2 (
    match dsKind (bits d 2 0) with
    | none => trapAll cOperand 7
    | some k => do
        demand (dsValid d k) cOperand 7
        let t ← dsTable c q.2 d k
        let s ← observeLines c t.2 (scratchLines [⟨0, t.1, dsTableSize k (dsN d), 0⟩])
        let im : DsImage :=
          { kind := k, stream := ⟨bits d 5 4 % 4, Nat.mod_lt _ (by decide)⟩, n := dsN d, toff := t.1,
            lo := BitVec.ofNat 32 (bits d 95 64),
            width := if k = .uniform then BitVec.ofNat 32 (dsWidth d) else 0 }
        .ok (updGroup s c.g.key (fun g => { g with ds := mapPut g.ds x.val im })))

def execDsld (sd : SReg) (sb : USrc) (x : Fin 16) (s : State) : Result :=
  uniform (.dsld sd sb x) (fun c s => dsldBody sd x (readU c.g sb) c s) s

/-! ## Generators (R225–R230) -/

/-- A generator descriptor (R225). -/
abbrev GnDesc := BitVec 1024

def gnKind (d : GnDesc) : Nat := bits d 3 0
def gnOfmt (d : GnDesc) : Nat := bits d 7 4
def gnScope (d : GnDesc) : Bool := bit d 8
def gnMval (d : GnDesc) : Bool := bit d 9
def gnScale (d : GnDesc) : Nat := bits d 63 32
def gnP0 (d : GnDesc) : Int := toSigned 32 (bits d 95 64)
def gnP1 (d : GnDesc) : Int := toSigned 32 (bits d 127 96)
def gnTidx (d : GnDesc) : Nat := bits d 159 128

/-- An FP32 value that a format holds exactly. -/
def exactIn (f : FFmt) (c : Nat) : Bool :=
  let v := decodeF .fp32 c
  let w := decodeF f (rne f v)
  !w.nonFinite && decide (cmpV v w = 0)

/-- The conditions of R226. -/
def gnValid (d : GnDesc) : Bool :=
  let k := gnKind d
  let mask := decide (4 ≤ k)
  let draws := k == 1 || k == 2
  let table := k == 2 || k == 3
  bits d 1023 320 == 0 && bits d 191 160 == 0 && bits d 31 10 == 0 && decide (1 ≤ k) && decide (k ≤ 6)
    && [3, 4, 6, 7].contains (gnOfmt d)
    && (draws || (bits d 319 192 == 0 && !gnScope d))
    && (table || gnTidx d == 0)
    && (k == 5 || k == 6 || bits d 127 96 == 0)
    && (mask || (bits d 95 64 == 0 && !gnMval d))
    && (!mask || gnScale d == 0)
    && (mask || finite32 (gnScale d))
    && (k != 1 || (gnScale d % 2147483648 != 0 &&
          (match ffmtOf (gnOfmt d) with | some f => exactIn f (gnScale d) | none => false)))
    && (!table || gnTidx d % 16 == 0)
    && (k != 5 || decide (gnP0 d ≤ gnP1 d))
    && (k != 6 || (decide (1 ≤ gnP0 d) && decide (1 ≤ gnP1 d)))
    && !(mask && gnMval d && gnOfmt d == 6)

/-- The generator key (R227). -/
def gnKey (ln : Launch) (d : GnDesc) : DWord × DWord :=
  let a := ln.seedA ^^^ BitVec.ofNat 64 (bits d 255 192)
  let b := ln.seedB ^^^ BitVec.ofNat 64 (bits d 319 256)
  if gnScope d then (a, b)
  else (a ^^^ streamF ln.seedA ln.seedB (BitVec.ofNat 64 (2 ^ 63 + ln.lidx.toNat % 2 ^ 22)), b)

/-- The counter of a coordinate (R228). -/
def gnCounter (d : GnDesc) (i j : Nat) : DWord := BitVec.ofNat 64 (gnKind d * 2 ^ 56 + i * 2 ^ 28 + j)

/-- Word n of a captured table. -/
def gnTable (im : GnImage) (n : Nat) : Nat := bits im.tbl (32 * n + 31) (32 * n)

/-- The value of a mask position (R229). -/
def maskValue (mval on : Bool) : FVal :=
  match mval, on with
  | false, true => .fin false 1 0
  | true, false => .inf true
  | _, _ => .zero false

/-- Whether a mask is on at reduced coordinates (R229). -/
def maskOn (d : GnDesc) (i j : Nat) : Bool :=
  let diff : Int := (j : Int) - i
  match gnKind d with
  | 4 => decide (diff ≤ gnP0 d)
  | 5 => decide (gnP0 d ≤ diff) && decide (diff ≤ gnP1 d)
  | _ => decide (j / (gnP1 d).toNat ≤ i / (gnP0 d).toNat)

/-- The FP32 value of a drawing or table kind at reduced coordinates (R229). -/
def gnDraw (im : GnImage) (i j : Nat) : Nat :=
  let d := im.desc
  match gnKind d with
  | 1 =>
      if bit (streamF im.ka im.kb (gnCounter d i j)) 0 then gnScale d ^^^ 0x80000000 else gnScale d
  | 2 =>
      let w := bits (streamF im.ka im.kb (gnCounter d i j)) 31 0
      let f := w % 67108864
      let fv : FVal := if f = 0 then .zero false else .fin false f (-26)
      let seg := w / 67108864
      let t := (finishF .fp32
        (fmaV fv (decodeF .fp32 (gnTable im (2 * seg + 1))) (decodeF .fp32 (gnTable im (2 * seg)))) false false).code
      (mulF .fp32 t (gnScale d)).code
  | _ =>
      let p := rne .fp32 (ofInt i)
      let theta := (mulF .fp32 p (gnTable im (j / 2 % 128))).code
      let r := (funyF (if j % 2 = 0 then .cosp else .sinp) theta).code
      (mulF .fp32 r (gnScale d)).code

/-- G(i, j): the code of the element in OFMT (R228, R229). -/
def gnValue (im : GnImage) (i j : Nat) : Nat :=
  let i := i % 2 ^ 28
  let j := j % 2 ^ 28
  let f := (ffmtOf (gnOfmt im.desc)).getD .fp32
  rne f (if 4 ≤ gnKind im.desc then maskValue (gnMval im.desc) (maskOn im.desc i j) else decodeF .fp32 (gnDraw im i j))

/-- GNLD (R231). -/
def gnldBody (sd : SReg) (x : Fin 8) (src : Word) (c : Ctx) (s : State) : Except Stop State := do
  let h ← tableSource c src.toNat false
  let r ← tableRun c s h (c.g.sreg sd.val).toNat 128 128
  let q := tableBytes c r.2 h r.1 128
  let d : GnDesc := BitVec.ofNat 1024 (ofBytes q.1)
  if d = 0 then .ok (updGroup q.2 c.g.key (fun g => { g with gn := mapErase g.gn x.val }))
  else thereafter q.2 (do
    demand (gnValid d) cOperand 7
    let put (s : State) (tbl : BitVec 4096) : State :=
      let im : GnImage := { desc := d, tbl := tbl, ka := (gnKey c.ln d).1, kb := (gnKey c.ln d).2 }
      updGroup s c.g.key (fun g => { g with gn := mapPut g.gn x.val im })
    if gnKind d = 2 ∨ gnKind d = 3 then do
      let r2 ← tableRun c q.2 h (gnTidx d) 512 16
      let q2 := tableBytes c r2.2 h r2.1 512
      .ok (put q2.2 (BitVec.ofNat 4096 (ofBytes q2.1)))
    else .ok (put q.2 0))

def execGnld (sd : SReg) (sb : USrc) (x : Fin 8) (s : State) : Result :=
  uniform (.gnld sd sb x) (fun c s => gnldBody sd x (readU c.g sb) c s) s

/-- GNEVAL (R232): the row from A, the column from the old D. -/
def execGneval (t : Bool) (g : Fin 8) (d : VReg) (a : LSrc) (s : State) : Result :=
  perLane (LSpec.mk0 (.gneval t g d a) [(.int, a), (.int, .v d)] [d.val]) (fun x =>
    match mapFind x.c.g.gn g.val with
    | none => trapAll cOperand 6
    | some im =>
        let val (i : LaneIn) : Nat :=
          if t then gnValue im (i.arg 1).toNat (i.arg 0).toNat else gnValue im (i.arg 0).toNat (i.arg 1).toNat
        .ok (x.commit x.s (x.ins.map (fun i => i.write d.val (BitVec.ofNat 32 (val i)))) 0)) s

/-! ## PGREQ and PFH (R66, R67) -/

/-- The 64-bit offset of a register pair. -/
def pairOffset (g : Group) (sd : SReg) : Nat := (g.sreg sd.val).toNat + 4294967296 * (g.sreg (sd.val + 1)).toNat

/-- One arrival of an engine at a barrier, with error bits (R66, R129); of a saved workgroup, at the barrier in its image
(R356). -/
def engineArrive (s : State) (uid off err : Nat) : State :=
  syncLines (barUpdate s uid off (fun b => barArrive 1 0 (if err = 0 then b else barFlag err b))) uid [off / 128]

/-- PGREQ up to the start of its engine operation (R66). -/
def pgreqBody (sd : SReg) (x : Slot) (b : Nat) (c : Ctx) (s : State) : Except Stop State := do
  let h ← c.handle x.val
  let off ← barAt c b
  let a := (hBase h + pairOffset c.g sd) % 2 ^ 64
  if !inReach s c.w c.ln h a then
    if hTrapOob h then trapAll cOob 0
    else .ok (engineArrive s c.w.uid off errOob)
  else if hScratch h then .ok (engineArrive s c.w.uid off 0)
  else .ok (acceptOp s c .none (.pgreq ⟨a, off, c.ln.ptroot, c.ln.owner, none⟩)).1

def execPgreq (sd : SReg) (sb : USrc) (x : Slot) (s : State) : Result :=
  uniform (.pgreq sd sb x) (fun c s => pgreqBody sd x (readU c.g sb).toNat c s) s

/-- The lines that a prefetch covers, clipped to the footprint, by their virtual bases. -/
def pfhLines (c : Ctx) (s : State) (h : Handle) (a n : Nat) : List Nat :=
  (linesOf a n).filter (fun l =>
    (List.range 256).any (fun i => decide (a ≤ l + i) && decide (l + i < a + n) && inReach s c.w c.ln h (l + i)))

/-- A prefetch of one line for a workgroup toward a target (R67): the L2 of its home die, the memory-side cache, or the core's L1. A fetch
toward L2 or L1 uses the memory-side cache as any read of the page does (R51); one toward that cache alone reads nothing of an
uncached page, of which the cache holds no line. Lines that R67 skips are left alone. -/
def pfhLine (w : Wg) (ln : Launch) (target : Nat) (s : State) (va : Nat) : State :=
  match translate s ln .r va with
  | .ok pa ca mig =>
      if mig then s
      else
        match target with
        | 0 => l2Touch (readThrough s ca pa) w.owner (lineOf pa)
        | 1 => if ca = 2 then s else readThrough s ca pa
        | 2 => l1Fill s w.core w.owner ca (lineOf pa)
        | _ => s
  | _ => s

/-- PFH (R67). The L1 copy that it fetches holds what the line has at its home. -/
def execPfh (sd : SReg) (sb : USrc) (x : Slot) (s : State) : Result :=
  uniform (.pfh sd sb x) (fun c s =>
    let v := (readU c.g sb).toNat
    let h := c.slot x.val
    if loaded h && !hScratch h then
      .ok ((pfhLines c s h ((hBase h + pairOffset c.g sd) % 2 ^ 64) (v % 2 ^ 24)).foldl (pfhLine c.w c.ln (v / 2 ^ 24 % 4)) s)
    else .ok s) s

end Sys2Proof.Machine
end

