-- ==== Sys2Proof/Machine/Copy.lean ====
section
/-! DEFINITION. The copy engine (R112–R122): CPL and CPM up to their acceptance, and the landing of their sectors. -/

namespace Sys2Proof.Machine

/-! ## Engine accesses (R273) -/

/-- An engine that read poisoned data writes poison into its destination (R358). -/
def poisonLocs (s : State) (src dst : List Loc) : State :=
  if src.any (fun l => s.poison.contains (locPoison l)) then
    { s with poison := dedup (dst.map locPoison ++ s.poison) }
  else s

/-! ## Shape and formats (R114, R115) -/

/-- Twice the element size in bytes, CB4's half byte included. -/
def halfSize (h : Handle) : Nat := if hFmt h = 8 then 1 else 2 * elemSize (hFmt h)

/-- The converting pairs to which rounding applies. -/
def roundedPair (f g : Nat) : Bool := (f == 3 && [4, 6, 7].contains g) || (f == 4 && [6, 7].contains g)

/-- The exact converting pairs. -/
def exactPair (f g : Nat) : Bool := (f == 4 && g == 3) || ([6, 7, 8].contains f && [3, 4].contains g)

/-- The formats that a copy accepts. -/
def copyFmts (w : CopyWord) (multi : Bool) (hs hd : Handle) : Bool :=
  !hProfile hs && !hProfile hd && (!multi || hScratch hd)
    && (if w.cvt then roundedPair (hFmt hs) (hFmt hd) || exactPair (hFmt hs) (hFmt hd)
        else anyFmt.contains (hFmt hs) && anyFmt.contains (hFmt hd))

/-- A lane of a copy whose runs are both in bounds: its two indices, the source address and the destination pieces. -/
structure CopyLane where
  lane : Nat
  sIdx : Nat
  dIdx : Nat
  sVa : Nat
  pieces : List (Nat × Nat)
  deriving DecidableEq, Repr

/-- The 16-byte pieces of a destination run of db bytes; none where it is out of bounds (R75, R115). -/
def dstPieces (h : Handle) (i db : Nat) : Option (List (Nat × Nat)) :=
  if inBounds h i (elemsOf h db) then
    let q := coords h i
    let ps := (List.range ((db + 15) / 16)).map (fun p =>
      (addrAt h (nth q 0 + p * elemsOf h 16) (nth q 1) (nth q 2) (nth q 3), min 16 (db - 16 * p)))
    if ps.any (fun p => beyondVa h p.1) then none else some ps
  else none

/-- The bytes from `lo` on that some pieces cover, as bits. -/
def coverage (lo : Nat) (ps : List (Nat × Nat)) : Nat :=
  ps.foldl (fun m p => if lo ≤ p.1 then m ||| ((2 ^ p.2 - 1) * 2 ^ (p.1 - lo)) else m) 0

/-- The tiles of the destination that some pieces fill; none where they do not fill whole tiles (R115). -/
def wholeTiles (h : Handle) (ps : List (Nat × Nat)) : Option (List Nat) :=
  if hTrb h = 0 then some []
  else
    let ts := dedup (ps.filterMap (fun p => tileOf h p.1))
    let full (t : Nat) : Bool :=
      coverage (hBase h + 4096 * t) (ps.filter (fun p => tileOf h p.1 = some t)) % 2 ^ 4096 == 2 ^ 4096 - 1
    if ps.all (fun p => decide (hBase h ≤ p.1)) && ts.all full then some ts else none

/-- Everything that a copy's issue finds about its shape: the handles, the bytes of each run, and the lanes. -/
structure CopyShape where
  hs : Handle
  hd : Handle
  size : Nat
  n : Nat
  db : Nat
  inb : List CopyLane
  tiles : List Nat
  deriving DecidableEq, Repr

/-- Bytes of a SIZE code. -/
def copySize (w : CopyWord) : Nat := 4 * w.size.regs

/-- The lanes that copy (R116). -/
def copyAct (w : CopyWord) (x : Issue) : List LaneIn :=
  match w.men with
  | none => x.ins
  | some m => x.ins.filter (fun i => i.lane.mbit m.val)

/-- A lane with its runs, if both are in bounds. -/
def copyLaneOf (hs hd : Handle) (size db : Nat) (i : LaneIn) : Option CopyLane :=
  match laneAddr hs (i.arg 0).toNat size, dstPieces hd (i.arg 2).toNat db with
  | some a, some ps => some ⟨i.idx, (i.arg 0).toNat, (i.arg 2).toNat, a, ps⟩
  | _, _ => none

/-- Formats and shape (R114, R115). -/
def copyShape (w : CopyWord) (multi : Bool) (x : Issue) : Except Stop CopyShape := do
  let hs ← x.c.handle w.src.val
  let hd ← x.c.handle w.dst.val
  demand (copyFmts w multi hs hd) cHandle 2
  let size := copySize w
  let n := elemsOf hs size
  let db := n * halfSize hd / 2
  demand (decide (4 ≤ db)) cCopyshape 1
  demand (w.cvt || halfSize hs == halfSize hd) cCopyshape 2
  let inb := (copyAct w x).filterMap (copyLaneOf hs hd size db)
  match wholeTiles hd (inb.flatMap (·.pieces)) with
  | none => trapAll cCopyshape 3
  | some ts => .ok ⟨hs, hd, size, n, db, inb, ts⟩

/-- OOB of either side with its TRAPOOB set (R77); where both runs of the lowest trapping lane are out of bounds, COORD records the
source's: the model's choice of log entry 129. -/
def copyOob (k : CopyShape) (act : List LaneIn) : Except Stop Unit :=
  let bad := act.filterMap (fun i =>
    if hTrapOob k.hs && (laneAddr k.hs (i.arg 0).toNat k.size).isNone then some (i.idx, coords k.hs (i.arg 0).toNat)
    else if hTrapOob k.hd && (dstPieces k.hd (i.arg 2).toNat k.db).isNone then some (i.idx, coords k.hd (i.arg 2).toNat)
    else none)
  match bad with
  | [] => .ok ()
  | b :: bs =>
      .error (.trap { mkTrap cOob 0 with mask := maskOf ((b :: bs).map (·.1)), coord := coordWords b.2 })

/-- The source runs of a lane: its own, and the tile and trailer that a check reads. -/
def srcRuns (k : CopyShape) (l : CopyLane) : List Run :=
  let own : Run := ⟨l.lane, l.sVa, k.size, l.sIdx⟩
  own :: (if hTrb k.hs = 0 then [] else tileRuns k.hs [own])

/-- The destination runs of a lane: its pieces, and the trailers of their tiles. -/
def dstRuns (k : CopyShape) (l : CopyLane) : List Run :=
  l.pieces.map (fun p => ⟨l.lane, p.1, p.2, l.dIdx⟩)
    ++ (if hTrb k.hd = 0 then []
        else (dedup (l.pieces.filterMap (fun p => tileOf k.hd p.1))).map (fun t => ⟨l.lane, hTrb k.hd + 16 * t, 16, l.dIdx⟩))

/-- The lanes of a copy that are misaligned (R115). -/
def copyMisaligned (k : CopyShape) (l : CopyLane) : Bool :=
  l.sVa % k.size != 0 || (hFmt k.hs == 8 && nth (coords k.hs l.sIdx) 0 % 2 == 1)
    || (hFmt k.hd == 8 && nth (coords k.hd l.dIdx) 0 % 2 == 1)
    || l.pieces.any (fun p => p.1 % min k.db 16 != 0)

/-- Whether a lane's source bytes touch a non-resident line (R117). -/
def srcNonRes (c : Ctx) (s : State) (k : CopyShape) (l : CopyLane) : Bool :=
  !hScratch k.hs && (srcRuns k l).any (fun r => (linesOf r.va r.n).any (fun v => translate s c.ln .r v == .page 2))

/-- The checks of the source tiles of a copy at its acceptance, and the state that their reads leave: an engine's, they wait
behind what the group's FIFO holds and bypass L1 (R119, R273). -/
def copyTiles (c : Ctx) (s : State) (k : CopyShape) (runs : List Run) : Except Stop State :=
  let s := drainFifo s c.g.key
  let s := touchHome s c.w.core c.w.owner (tileLocs c s k.hs runs)
  thereafter s (do
    tilesPass c s k.hs (fun ls => ls.map (engineByte s c.w.core c.w.owner)) runs
    .ok s)

/-- The runs of the lanes whose source tiles a copy checks: those that meet no non-resident line (R117, R119). -/
def checkedRuns (c : Ctx) (s : State) (k : CopyShape) : List Run :=
  if hTrb k.hs = 0 then []
  else (k.inb.filter (fun l => !srcNonRes c s k l)).map (fun l => Run.mk l.lane l.sVa k.size l.sIdx)

/-- The scratchpad lines that the checks of source tiles read at acceptance. -/
def checkedLines (c : Ctx) (s : State) (k : CopyShape) : List Nat :=
  if hScratch k.hs then scratchLines (tileRuns k.hs (checkedRuns c s k)) else []

/-- Bounds, alignment, translation and trailers of a copy, and the state after the reads of these (R116, R117). -/
def copyReach (c : Ctx) (s : State) (k : CopyShape) (act : List LaneIn) : Except Stop State := do
  copyOob k act
  spCheck c (k.inb.flatMap (fun l =>
    (if hScratch k.hs then srcRuns k l else []) ++ (if hScratch k.hd then dstRuns k l else [])))
  demandNone ((k.inb.filter (copyMisaligned k)).map (·.lane)) cAlign 0
  let src (l : CopyLane) : List XLine :=
    if hScratch k.hs then [] else (xlLines s c.ln .r (srcRuns k l)).filter (fun x => x.x ≠ .page 2)
  let dst (l : CopyLane) : List XLine := if hScratch k.hd then [] else xlLines s c.ln .w (dstRuns k l)
  xlCheck (k.inb.flatMap (fun l => src l ++ dst l)) (k.inb.flatMap dst)
  let checked := checkedRuns c s k
  if hScratch k.hs then presenceCheck c (tileRuns k.hs checked) else .ok ()
  if (tileRuns k.hs checked).isEmpty then .ok s else copyTiles c s k checked

/-- The elements of a copy in lane order (R347). -/
def copyEls (k : CopyShape) : List WatchEl :=
  k.inb.flatMap (fun l => laneEls k.hs .er l.lane l.sIdx k.n ++ laneEls k.hd .ew l.lane l.dIdx k.n)

/-! ## Quads and sectors (R116, R121) -/

/-- The source references of a lane, one list for each destination quad. -/
def laneRefs (c : Ctx) (s : State) (w : CopyWord) (k : CopyShape) (l : CopyLane) : List (List ElemRef) :=
  let locs := runLocs c s k.hs .r l.sVa k.size
  let at' (i : Nat) : Loc := locs.getD i (.mem 0 0)
  if w.cvt then
    let per := 8 / halfSize k.hd
    (List.range (k.db / 4)).map (fun q => (List.range per).map (fun e =>
      let j := per * q + e
      if hFmt k.hs = 8 then ⟨at' (j / 2), j % 2 == 1, l.dIdx + j⟩ else ⟨at' (elemSize (hFmt k.hs) * j), false, l.dIdx + j⟩))
  else (List.range (k.db / 4)).map (fun q => (List.range 4).map (fun e => ⟨at' (4 * q + e), false, 0⟩))

/-- The quads of a lane for the issuing workgroup. -/
def laneQuads (c : Ctx) (s : State) (w : CopyWord) (k : CopyShape) (l : CopyLane) : List Quad :=
  let zero := srcNonRes c s k l
  let dsts := l.pieces.flatMap (fun p =>
    let locs := runLocs c s k.hd .w p.1 p.2
    (List.range (p.2 / 4)).map (fun q => (locs.getD (4 * q) (.mem 0 0), p.1 + 4 * q - hBase k.hd)))
  if zero then dsts.map (fun d => ⟨d.1, d.2, none⟩)
  else (dsts.zip (laneRefs c s w k l)).map (fun p => ⟨p.1.1, p.1.2, some p.2⟩)

/-- The unit that lands at once: a 256-byte line of memory or a 128-byte line of a scratchpad. -/
def landUnit : Loc → Nat
  | .mem pa _ => pa / 256
  | .scr _ off => off / 128

/-- A quad at the same offset of another workgroup's allocation. -/
def Quad.to (uid : Nat) (q : Quad) : Quad :=
  match q.dst with
  | .scr _ off => { q with dst := .scr uid off }
  | .mem _ _ => q

/-- The trailer quads of a tile. -/
def trailerQuads (c : Ctx) (s : State) (h : Handle) (t : Nat) : List Quad :=
  let locs := runLocs c s h .w (hTrb h + 16 * t) 16
  (List.range 4).map (fun q => ⟨locs.getD (4 * q) (.mem 0 0), 0, none⟩)

/-- The sectors of a copy for its receivers, one for each line of the destination and receiver, whatever lines its bytes come from: the
model's choice of log entry 128. -/
def copySectors (c : Ctx) (s : State) (w : CopyWord) (k : CopyShape) (rcv : List Nat) : List Sector :=
  let quads := k.inb.flatMap (laneQuads c s w k)
  let units := dedup (quads.map (fun q => landUnit q.dst))
  let parts := units.mapIdx (fun n u => (n, quads.filter (fun q => landUnit q.dst == u), (none : Option Nat)))
    ++ k.tiles.mapIdx (fun n t => (units.length + n, trailerQuads c s k.hd t, some t))
  rcv.flatMap (fun uid => parts.map (fun p => ⟨uid, p.1, p.2.1.map (Quad.to uid), p.2.2, [], false, false⟩))

/-- The scratchpad lines that some quads write. -/
def quadLines (qs : List Quad) : List Nat :=
  dedup (qs.filterMap (fun q => match q.dst with | .scr _ off => some (off / 128) | .mem _ _ => none))

/-! ## Acceptance (R116, R120) -/

/-- The receiving workgroups: the issuer, or the members of its quartet at the positions of TGT; 0 where the launch
has no such workgroup (R120, R121). -/
def receivers (s : State) (w : Wg) (tgt : Option (Fin 16)) : List Nat :=
  match tgt with
  | none => [w.uid]
  | some t =>
      (setBitsOf 4 t.val).map (fun p =>
        match s.wgs.find? (fun x => x.launch = w.launch && x.index = w.index / 4 * 4 + p) with
        | some x => x.uid
        | none => 0)

/-- Clears presence bits of a workgroup. -/
def clearPresence (s : State) (uid : Nat) (lines : List Nat) : State :=
  updWg s uid (fun w => { w with absent := dedup (lines ++ w.absent) })

/-- The barrier of a receiver, where the receiver exists. -/
def barOn (s : State) (uid off : Nat) (f : Bar → Bar) : State :=
  match findWg s uid with
  | some _ => barUpdate s uid off f
  | none => s

/-- What acceptance does at one receiver (R116, R117): error bits, presence, expectation; of a saved one, in its image. -/
def acceptAt (w : CopyWord) (bar err q : Nat) (secs : List Sector) (s : State) (uid : Nat) : State :=
  let lines := (secs.filter (fun x => x.target = uid)).flatMap (fun x => quadLines x.quads)
  let s := if err = 0 then s else barOn s uid bar (barFlag err)
  let s := clearPresence s uid lines
  let s := if w.exp then barOn s uid bar (barExpect q) else s
  syncLines s uid (bar / 128 :: lines)

/-- A copy whose sectors have all landed completes (R139). -/
def copyEnd (s : State) (id : Nat) : State :=
  match findOp s id with
  | some o =>
      match o.kind with
      | .copy cp => if cp.sectors.all (·.landed) then finishOp s id cp.vias else s
      | _ => s
  | none => s

/-- A copy after its draws. An exact pair whose SCALEs make a value inexact or too large for the destination rounds to nearest
even and does not saturate: the model's choice of log entry 115. -/
def copyBody (w : CopyWord) (tgt : Option (Fin 16)) (x : Issue) : Except Stop State := do
  let c := x.c
  let b ← x.uniformArg 1
  let k ← copyShape w tgt.isSome x
  let bar ← barAt c b.toNat
  let act := copyAct w x
  let s0 ← copyReach c x.s k act
  let s ← thereafter s0 (watchStep c s0 (copyEls k))
  let s ← observeLines c s (checkedLines c x.s k)
  let rcv := receivers s c.w tgt
  let secs := copySectors c s w k rcv
  let err := (if k.inb.length < act.length then errOob else 0) + (if k.inb.any (srcNonRes c s k) then errNres else 0)
  let q := k.inb.length * k.db / 4 + 4 * k.tiles.length
  let s := x.commit (if w.arr then drainFifo s c.g.key else s) (x.ins.map LaneIn.keep) 0
  let s := rcv.foldl (acceptAt w bar err q secs) s
  let via : List Via := if w.arr then [.barrier c.w.uid bar (barPhase (barGet s c.w.uid bar))] else []
  let s := if w.arr then barUpdate s c.w.uid bar (barArrive c.act.length 0) else s
  let cp : CopyOp :=
    { src := k.hs, dst := k.hd, cvt := w.cvt, rnd := if exactPair (hFmt k.hs) (hFmt k.hd) then .rne else w.rnd,
      sat := w.sat && !exactPair (hFmt k.hs) (hFmt k.hd), bar := bar, sectors := secs, vias := via, satTiles := [] }
  let a := acceptOp s c .copy (.copy cp)
  .ok (copyEnd (markHits a.1 a.2 (copyEls k)) a.2)

/-- The specification of a copy: D, A and B are sources (R112). -/
def copySpec (i : Instr) (d a b : LSrc) : LSpec :=
  { LSpec.mk0 i [(.int, a), (.int, b), (.int, d)] [] with cls := .copy }

def execCpl (w : CopyWord) (d a b : LSrc) (s : State) : Result :=
  perLane (copySpec (.cpl w d a b) d a b) (copyBody w none) s
def execCpm (w : CopyWord) (tgt : Fin 16) (d a b : LSrc) (s : State) : Result :=
  perLane (copySpec (.cpm w tgt d a b) d a b) (copyBody w (some tgt)) s

/-! ## Landing (R116–R121, R126, R127) -/

/-- Whether an unfinished operation still has bytes of a scratchpad line to land (R126, R250). -/
def opHolds (uid line : Nat) (o : Op) : Bool :=
  match o.kind with
  | .copy cp => cp.sectors.any (fun x => !x.landed && x.target == uid && (quadLines x.quads).contains line)
  | .kgath k => !o.done && o.grp.wg == uid && k.lines.contains line
  | _ => false

/-- Sets the presence bits of lines that no accepted operation still has to land (R126). -/
def restorePresence (s : State) (uid : Nat) (lines : List Nat) : State :=
  let free := lines.filter (fun l => !s.ops.any (opHolds uid l))
  updWg s uid (fun w => { w with absent := w.absent.filter (fun l => !free.contains l) })

/-- The source locations of some quads. -/
def quadSrcs (src : Handle) (cvt : Bool) (qs : List Quad) : List Loc :=
  qs.flatMap (fun q =>
    match q.src with
    | none => []
    | some rs => rs.flatMap (fun r => (List.range (if cvt then elemSize (hFmt src) else 1)).map r.loc.plus))

/-- Whether a scratchpad source line is one that this copy may read: present, or absent only for its own bytes
(R127). -/
def srcReady (s : State) (id : Nat) (l : Loc) : Bool :=
  match l with
  | .mem _ _ => true
  | .scr uid off =>
      match findWg s uid with
      | none => true
      | some w =>
          !w.absent.contains (off / 128) || !s.ops.any (fun o => o.id != id && opHolds uid (off / 128) o)

/-- Whether a sector can land now. -/
def sectorReady (s : State) (o : Op) (cp : CopyOp) (x : Sector) : Bool :=
  !x.landed && fifoPassed s o
    && (if x.trailer.isSome then cp.sectors.all (fun y => y.landed || y.target != x.target || y.trailer.isSome)
        else !x.bound.isEmpty || (quadSrcs cp.src cp.cvt x.quads).all (srcReady s o.id))

/-- The rounding word of an engine conversion (R118). -/
def roundWord (ln : Launch) (tag i : Nat) : Nat :=
  let ka := streamF ln.seedA ln.seedB 0xFFFFFFFFFFFFFFFE
  let kb := streamF ln.seedA ln.seedB 0xFFFFFFFFFFFFFFFF
  bits (streamF ka kb (BitVec.ofNat 64 (tag * 2 ^ 32 + i % 2 ^ 32))) 31 0

/-- The bytes of one destination element and whether saturation changed it (R114, R118). -/
def convElem (s : State) (core : Nat) (ln : Launch) (cp : CopyOp) (r : ElemRef) : List Byte × Bool :=
  let raw := ofBytes (engineBytes s core ln.owner r.loc (elemSize (hFmt cp.src)))
  let code := if hFmt cp.src = 8 then (if r.hi then raw / 16 else raw % 16) else raw
  let e := encodeElem cp.dst (rmodeOf cp.rnd (roundWord ln (hTag cp.dst) r.idx)) cp.sat (elemValue cp.src code)
  (leBytes (elemSize (hFmt cp.dst)) e.code, e.saturated)

/-- The bytes of a quad and the number of elements that saturation changed. -/
def quadBytes (s : State) (core : Nat) (ln : Launch) (cp : CopyOp) (q : Quad) : List Byte × Nat :=
  match q.src with
  | none => ([0, 0, 0, 0], 0)
  | some rs =>
      if cp.cvt then
        let es := rs.map (convElem s core ln cp)
        (es.flatMap (·.1), (es.filter (·.2)).length)
      else (rs.map (fun r => engineByte s core ln.owner r.loc), 0)

/-- The bytes of a tile that a receiver's quads have filled, in address order. -/
def tileFilled (s : State) (core owner : Nat) (cp : CopyOp) (target t : Nat) : List Byte :=
  let qs := (cp.sectors.filter (fun x => x.target == target && x.trailer.isNone)).flatMap (·.quads)
  (List.range 1024).flatMap (fun i =>
    match qs.find? (fun q => q.off == 4096 * t + 4 * i) with
    | some q => engineBytes s core owner q.dst 4
    | none => [0, 0, 0, 0])

/-- The data of a sector, one list for each quad, with the tiles in which saturation changed elements. -/
def sectorData (s : State) (core : Nat) (ln : Launch) (cp : CopyOp) (x : Sector) : List (List Byte) × List (Nat × Nat) :=
  match x.trailer with
  | some t =>
      let bs := trailerBytes cp.dst (tileFilled s core ln.owner cp x.target t) (mapGet 0 cp.satTiles t)
      ((List.range 4).map (fun q => (bs.drop (4 * q)).take 4), [])
  | none =>
      if x.bound.isEmpty then
        let ds := x.quads.map (fun q => (q, quadBytes s core ln cp q))
        (ds.map (fun d => d.2.1), (ds.filter (fun d => d.2.2 != 0)).map (fun d => (d.1.off / 4096, d.2.2)))
      else (x.bound, [])

/-- The bytes that a sector writes. -/
def sectorBytes (x : Sector) (data : List (List Byte)) : List StoreByte :=
  (x.quads.zip data).flatMap (fun p => p.2.mapIdx (fun i b => ⟨p.1.dst.plus i, b⟩))

/-- One quad after another lands at a barrier; the phases to which they contribute (R129). -/
def landQuads (s : State) (uid bar : Nat) : Nat → State × List Via
  | 0 => (s, [])
  | n + 1 =>
      let r := landQuads s uid bar n
      (barUpdate r.1 uid bar barLand, .barrier uid bar (barPhase (barGet r.1 uid bar)) :: r.2)

/-- A sector is written at its receiver (R121); at a saved one into its image, where quads, presence and phase follow. -/
def writeSector (s : State) (w : Wg) (cp : CopyOp) (x : Sector) (data : List (List Byte)) (satd : Bool) :
    State × List Via :=
  let bs := sectorBytes x data
  let s := engineSetAll (clearPoisonFor s bs) (w.core / 4) w.owner bs
  let s := if x.trailer.isSome then s else poisonLocs s (quadSrcs cp.src cp.cvt x.quads) (bs.map (·.loc))
  let s := if satd then barUpdate s x.target cp.bar (barFlag errSat) else s
  let lines := quadLines x.quads
  let s := restorePresence s x.target lines
  let r := landQuads s x.target cp.bar x.quads.length
  (syncLines r.1 x.target (cp.bar / 128 :: lines), dedup (r.2 ++ lines.map (fun l => Via.line x.target l)))

/-- The copy with a sector landed and its data bound for the other receivers of its part (R120). -/
def bindPart (cp : CopyOp) (n : Nat) (x : Sector) (data : List (List Byte)) (sats : List (Nat × Nat)) (satd : Bool) :
    CopyOp :=
  { cp with
    sectors := cp.sectors.mapIdx (fun i y =>
      let y := if y.part == x.part && x.trailer.isNone then { y with bound := data, satd := satd } else y
      if i = n then { y with landed := true } else y)
    satTiles := sats.foldl (fun m p => mapPut m p.1 (mapGet 0 m p.1 + p.2)) cp.satTiles }

/-- COPY_SECTOR_LAND. -/
def landSector (s : State) (id n : Nat) : Option State :=
  match findOp s id with
  | none => none
  | some o =>
      match o.kind, findCtx s o.grp with
      | .copy cp, some (_, w, ln) =>
          match cp.sectors[n]? with
          | none => none
          | some x =>
              if sectorReady s o cp x then
                let s := if x.trailer.isNone && x.bound.isEmpty
                  then touchHome s w.core w.owner (quadSrcs cp.src cp.cvt x.quads) else s
                let d := sectorData s w.core ln cp x
                let satd := x.satd || !d.2.isEmpty
                let cp' := bindPart cp n x d.1 d.2 satd
                let s1 := updOp s id (fun o => { o with kind := .copy cp' })
                match findWg s x.target with
                | none =>
                    let cl := clusterOf s1 (w.core / 4)
                    some (copyEnd (setCluster s1 (w.core / 4) { cl with drops := cl.drops + 1 }) id)
                | some _ =>
                    let r := writeSector s1 w cp' x d.1 satd
                    let cp2 := { cp' with vias := dedup (cp'.vias ++ r.2) }
                    some (copyEnd (updOp r.1 id (fun o => { o with kind := .copy cp2 })) id)
              else none
      | _, _ => none

def execCopySectorLand (op sector : Nat) (s : State) : Result := eventOf "COPY_SECTOR_LAND" (landSector s op sector)

end Sys2Proof.Machine
end

