-- ==== Sys2Proof/Machine/Accum.lean ====
section
/-! DEFINITION. The accumulator store (R214–R221): ACCRD, ACCWR, ACCPATCH, ACCZ, ACCST, and their completions. -/

namespace Sys2Proof.Machine

/-! ## Elements (R214) -/

/-- Element (row, col) of an allotment. -/
def accGet (w : Wg) (row col : Nat) : Word := mapGet 0 w.acc (256 * row + col)

/-- Writes an element of a workgroup's allotment; a full write clears its poison (R358). -/
def accSet (s : State) (uid row col : Nat) (v : Word) : State :=
  let s := updWg s uid (fun w => { w with acc := mapSet 0 w.acc (256 * row + col) v })
  if s.poison.isEmpty then s else { s with poison := s.poison.filter (fun p => p ≠ .acc uid row col) }

/-- Whether an element is poisoned. -/
def accPoisoned (s : State) (uid row col : Nat) : Bool := s.poison.contains (.acc uid row col)

/-- ACCBOUND with the row and column of the lowest lane's first element beyond the allotment (R337). -/
def accTrap {α : Type} (ls : List Nat) (row col : Nat) : Except Stop α :=
  .error (.trap { mkTrap cAccbound 0 with mask := maskOf ls, coord := coordWords [row, col, 0, 0] })

/-! ## ACCRD, ACCWR, ACCPATCH (R217, R218) -/

/-- The elements that a lane moves from or to v(D + m). -/
def laneAcc (row0 col0 m d lane : Nat) (val : Nat → Word) : List AccElem :=
  (List.range m).map (fun j => ⟨lane, d + j, row0 + lane / 8, col0 + lane % 8 + 8 * j, val j⟩)

/-- Whether an element lies beyond an allotment. -/
def accBeyond (w : Wg) (e : AccElem) : Bool := decide (w.accRows ≤ e.row) || decide (255 < e.col)

/-- ACCBOUND, then SOFT where the elements are read (R217, R358). -/
def accCheck (c : Ctx) (s : State) (reads : Bool) (els : List AccElem) : Except Stop Unit :=
  match els.filter (accBeyond c.w) with
  | e :: es => accTrap ((e :: es).map (·.lane)) e.row e.col
  | [] =>
      match els.filter (fun e => reads && accPoisoned s c.w.uid e.row e.col) with
      | e :: es =>
          .error (.trap { mkTrap cSoft 3 with
            mask := maskOf ((e :: es).map (·.lane)), coord := coordWords [e.row, e.col, 0, 0] })
      | [] => .ok ()

/-- ACCRD (R217). -/
def execAccrd (mm1 : Fin 32) (d : VReg) (a b : LSrc) (s : State) : Result :=
  let m := mm1.val + 1
  perLane { LSpec.mk0 (.accrd mm1 d a b) [(.int, a), (.int, b)] (regRange d.val m) with cls := .tile } (fun x => do
    let r ← x.uniformArg 0
    let k ← x.uniformArg 1
    let els := x.ins.flatMap (fun i => laneAcc r.toNat k.toNat m d.val i.idx (fun _ => 0))
    accCheck x.c x.s true els
    .ok (x.commit (acceptOp x.s x.c .tile (.accrd els)).1 (x.ins.map LaneIn.keep) 0)) s

/-- ACCWR (R217): its sources are captured at acceptance. -/
def execAccwr (mm1 : Fin 32) (d a b : LSrc) (s : State) : Result :=
  let m := mm1.val + 1
  perLane { LSpec.mk0 (.accwr mm1 d a b) [(.int, a), (.int, b), (.int, d)] (srcGroup d m) with
      cls := .tile, reads := fun _ => srcGroup d m } (fun x => do
    let r ← x.uniformArg 0
    let k ← x.uniformArg 1
    let val (i : LaneIn) (j : Nat) : Word := if m = 1 then i.arg 2 else ((srcGroup d m).map i.lane.vreg).getD j 0
    let els := x.ins.flatMap (fun i => laneAcc r.toNat k.toNat m 0 i.idx (val i))
    accCheck x.c x.s false els
    .ok (x.commit (acceptOp x.s x.c .tile (.accwr els)).1 (x.ins.map LaneIn.keep) 0)) s

/-- The element that a lane of ACCPATCH names, its row beyond any allotment where a reserved bit is set. -/
def patchElem (i : LaneIn) : AccElem :=
  let v := i.arg 0
  ⟨i.idx, 0, bits v 10 0, bits v 23 16, i.arg 1⟩

/-- Whether a lane's position word has a bit that must be zero (R218). -/
def patchBad (i : LaneIn) : Bool := bits (i.arg 0) 31 24 != 0 || bits (i.arg 0) 15 11 != 0

/-- ACCPATCH (R218). -/
def execAccpatch (add : Bool) (d a : LSrc) (m : MReg) (s : State) : Result :=
  perLane { LSpec.mk0 (.accpatch add d a m) [(.int, a), (.fp32, d)] [] with cls := .tile } (fun x => do
    let part := x.ins.filter (fun i => i.lane.mbit m.val)
    match part.filter (fun i => patchBad i || accBeyond x.c.w (patchElem i)) with
    | i :: is => accTrap ((i :: is).map (·.idx)) (patchElem i).row (patchElem i).col
    | [] => .ok ()
    accCheck x.c x.s add (part.map patchElem)
    .ok (x.commit (acceptOp x.s x.c .tile (.accpatch add (part.map patchElem))).1 (x.ins.map LaneIn.keep) 0)) s

/-- ACCRD's registers are written (R217); poison goes with the data (R358). -/
def runAccrd (s : State) (o : Op) (els : List AccElem) : State :=
  match findWg s o.grp.wg with
  | none => s
  | some w =>
      landRegs s o (els.map (fun e => ⟨e.lane, e.reg, accGet w e.row e.col⟩))
        ((els.filter (fun e => accPoisoned s o.grp.wg e.row e.col)).map (fun e => (e.lane, e.reg)))

/-- ACCPATCH's elements are written or added to, in ascending lane order (R218). -/
def runPatch (s : State) (uid : Nat) (add : Bool) (els : List AccElem) : State :=
  els.foldl (fun s e =>
    match findWg s uid with
    | none => s
    | some w =>
        if add then
          let poisoned := accPoisoned s uid e.row e.col
          let s' := accSet s uid e.row e.col (BitVec.ofNat 32 (addF .fp32 (accGet w e.row e.col).toNat e.val.toNat).code)
          if poisoned then { s' with poison := .acc uid e.row e.col :: s'.poison } else s'
        else accSet s uid e.row e.col e.val) s

/-- ACC_OP_COMPLETE. -/
def completeAcc (s : State) (id : Nat) : Option State :=
  match findOp s id with
  | none => none
  | some o =>
      if accReady s o then
        match o.kind with
        | .accrd els => some (finishTile (runAccrd s o els) id [])
        | .accwr els => some (finishTile (els.foldl (fun s e => accSet s o.grp.wg e.row e.col e.val) s) id [])
        | .accpatch add els => some (finishTile (runPatch s o.grp.wg add els) id [])
        | _ => none
      else none

def execAccOpComplete (op : Nat) (s : State) : Result := eventOf "ACC_OP_COMPLETE" (completeAcc s op)

/-! ## ACCZ (R219) -/

def execAccz (sd sb : USrc) (s : State) : Result :=
  uniform (.accz sd sb) (fun c s => do
    let r := (readU c.g sd).toNat
    let n := (readU c.g sb).toNat
    if c.w.accRows < r + n then accTrap [] (max r c.w.accRows) 0 else .ok ()
    let a := acceptOp s c .none (.accz r n)
    .ok (tryAccz a.1 a.2)) s

/-! ## Translated lines of an engine operation -/

/-- The locations of the lines of some addresses. -/
def lineLocs (s : State) (ln : Launch) (need : Need) (lines : List Nat) : List (Nat × Loc) :=
  lines.map (fun l => (l, locOf s ln need l))

/-- The location of a virtual address, or of a scratchpad offset, by the lines that were translated. -/
def locVia (uid : Nat) (h : Handle) (xl : List (Nat × Loc)) (va : Nat) : Loc :=
  if hScratch h then .scr uid va
  else
    match xl.find? (fun p => p.1 = lineOf va) with
    | some p => p.2.plus (va % 256)
    | none => .mem 0 0

/-- A list without the repeats that stand side by side. -/
def squeeze : List Nat → List Nat
  | a :: b :: l => if a = b then squeeze (b :: l) else a :: squeeze (b :: l)
  | l => l

/-- The lines of some runs of the population, each once. -/
def runLines (runs : List Run) : List Nat := dedup (squeeze (runs.flatMap (fun r => linesOf r.va r.n)))

/-! ## ACCST (R220) -/

/-- An element that ACCST stores: its accumulator row, its column, its address and its linear index. -/
structure StElem where
  row : Nat
  col : Nat
  va : Nat
  idx : Nat
  deriving DecidableEq, Repr

/-- The coordinates of the handle element for row r and column n. -/
def accstCoord (h : Handle) (i r n : Nat) : List Nat :=
  let q := elemCoords h i
  [nth q 0 + n, nth q 1 + r, nth q 2, nth q 3]

/-- The linear index of coordinates (R75). -/
def linearIndex (h : Handle) (q : List Nat) : Nat :=
  nth q 0 + hExt h 0 * (nth q 1 + hExt h 1 * (nth q 2 + hExt h 2 * nth q 3))

/-- The in-bounds elements, row by row. -/
def accstElems (h : Handle) (row0 rows i : Nat) : List StElem :=
  (List.range rows).flatMap (fun r =>
    let q := elemCoords h i
    if nth q 1 + r < hExt h 1 then
      (List.range (min 256 (hExt h 0 - nth q 0))).filterMap (fun n =>
        match coordAddr h (accstCoord h i r n) with
        | some a => some ⟨row0 + r, n, a, linearIndex h (accstCoord h i r n)⟩
        | none => none)
    else [])

/-- The first element that is out of bounds, if any. -/
def accstOut (h : Handle) (rows i : Nat) : Option (List Nat) :=
  firstSome ((List.range rows).flatMap (fun r => (List.range 256).map (fun n =>
    if (coordAddr h (accstCoord h i r n)).isNone then some (accstCoord h i r n) else none)))

/-- The tiles that the stored bytes fill; none where they are not whole tiles (R220). -/
def accstTiles (h : Handle) (els : List StElem) : Option (List Nat) :=
  wholeTiles h (els.map (fun e => (e.va, elemSize (hFmt h))))

/-- Every run that an ACCST writes: its elements and its trailers. -/
def accstRuns (h : Handle) (els : List StElem) (tiles : List Nat) : List Run :=
  els.map (fun e => ⟨0, e.va, elemSize (hFmt h), 0⟩) ++ tiles.map (fun t => ⟨0, hTrb h + 16 * t, 16, 0⟩)

/-- Whether any slot of the workgroup is enabled, so that elements need be formed for it. -/
def anyWatch (c : Ctx) : Bool := c.w.watch.any (fun e => bit e.2 39)

/-- The watch elements of an ACCST. -/
def accstEls (c : Ctx) (h : Handle) (els : List StElem) (row0 i : Nat) : List WatchEl :=
  if anyWatch c then els.map (fun e => ⟨c.act, hTag h, .ew, accstCoord h i (e.row - row0) e.col⟩) else []

/-- Translation or allocation bounds of an engine's runs for the population. -/
def engineReach (c : Ctx) (s : State) (h : Handle) (need : Need) (runs : List Run) : Except Stop (List (Nat × Loc)) :=
  wholePop (do
    if hScratch h then do
      spCheck c runs
      .ok []
    else do
      let lines := runLines runs
      let xs := lines.map (fun l => (⟨0, l, translate s c.ln need l⟩ : XLine))
      xlCheck xs (if need.writes then xs else [])
      .ok (lineLocs s c.ln need lines))

/-- ACCST up to its acceptance (R220). -/
def accstBody (rowsm1 : Fin 2048) (r : Rnd) (sat : Bool) (row0 i : Nat) (x : Slot) (c : Ctx) (s : State) :
    Except Stop State := do
  classRoom c s .tile
  let rows := rowsm1.val + 1
  let h ← c.handle x.val
  acceptFmt h [3, 4, 6, 7]
  if c.w.accRows < row0 + rows then accTrap [] (max row0 c.w.accRows) 0 else .ok ()
  let els := accstElems h row0 rows i
  match accstTiles h els with
  | none => trapAll cCopyshape 3
  | some tiles => do
      (match accstOut h rows i with
       | some q => if hTrapOob h then .error (.trap { mkTrap cOob 0 with coord := coordWords q }) else .ok ()
       | none => .ok ())
      demand (els.all (fun e => e.col != 0 || e.va % 16 == 0)) cAlign 0
      let xl ← engineReach c s h .w (accstRuns h els tiles)
      let ws := accstEls c h els row0 i
      let s ← wholePop (watchStep c s ws)
      let a := acceptOp s c .tile (.accst h row0 rows i r sat xl)
      .ok (markHits a.1 a.2 ws)

def execAccst (rowsm1 : Fin 2048) (r : Rnd) (sat : Bool) (sd sb : USrc) (x : Slot) (s : State) : Result :=
  uniform (.accst rowsm1 r sat sd sb x) (fun c s =>
    accstBody rowsm1 r sat (readU c.g sd).toNat (readU c.g sb).toNat x c s) s

/-- What an ACCST writes for one element, and whether saturation changed it. -/
def accstElem (w : Wg) (ln : Launch) (h : Handle) (r : Rnd) (sat : Bool) (e : StElem) : List Byte × Bool :=
  let v := decodeF .fp32 (accGet w e.row e.col).toNat
  let x := encodeElem h (rmodeOf r (roundWord ln (hTag h) e.idx)) sat v
  (leBytes (elemSize (hFmt h)) x.code, x.saturated)

/-- The trailers of an ACCST, its tiles having been written (R119). -/
def accstTrailers (s : State) (w : Wg) (h : Handle) (xl : List (Nat × Loc)) (out : List (StElem × List Byte × Bool))
    (tiles : List Nat) : State :=
  tiles.foldl (fun s t =>
    let ls := (List.range 4096).map (fun i => locVia w.uid h xl (hBase h + 4096 * t + i))
    let s := touchHome s w.core w.owner ls
    let bs := ls.map (engineByte s w.core w.owner)
    let sats := (out.filter (fun p => tileOf h p.1.va == some t && p.2.2)).length
    let tr := trailerBytes h bs sats
    engineSetAll s (w.core / 4) w.owner (tr.mapIdx (fun i b => ⟨locVia w.uid h xl (hTrb h + 16 * t + i), b⟩))) s

/-- ACCST_COMPLETE: every byte is written. The bytes of elements add to the launch digest (R220, R324), those of trailers do not:
the model's choice of log entry 124. -/
def completeAccst (s : State) (id : Nat) : Option State :=
  match findOp s id with
  | none => none
  | some o =>
      match o.kind, findCtx s o.grp with
      | .accst h row0 rows i r sat xl, some (_, w, ln) =>
          if accReady s o && fifoPassed s o then
            let els := accstElems h row0 rows i
            let out := els.map (fun e => (e, accstElem w ln h r sat e))
            let bs := out.flatMap (fun p => p.2.1.mapIdx (fun j b => (⟨locVia w.uid h xl (p.1.va + j), b⟩ : StoreByte)))
            let dirty := (els.filter (fun e => accPoisoned s w.uid e.row e.col)).map (fun e => locPoison (locVia w.uid h xl e.va))
            let s1 := engineSetAll (clearPoisonFor s bs) (w.core / 4) w.owner bs
            let s1 := if dirty.isEmpty then s1 else { s1 with poison := dedup (dirty ++ s1.poison) }
            let s2 := accstTrailers s1 w h xl out ((accstTiles h els).getD [])
            let s3 := addDigest s2 ln h (out.flatMap (fun p => p.2.1.mapIdx (fun j b => (p.1.va + j, b))))
            some (finishTile s3 id [])
          else none
      | _, _ => none

def execAccstComplete (op : Nat) (s : State) : Result := eventOf "ACCST_COMPLETE" (completeAccst s op)

end Sys2Proof.Machine
end

