-- ==== Sys2Proof/Machine/Tile.lean ====
section
/-! DEFINITION. B-stack slots (R195–R200): BLD with what it reads and checks, BFREE, and the completion of a load. -/

namespace Sys2Proof.Machine

/-! ## What BLD reads (R198, R86) -/

/-- A stretch of the source: its row, its first element in the row, its elements, and its bytes. -/
structure BldChunk where
  row : Nat
  e0 : Nat
  n : Nat
  va : Nat
  len : Nat
  deriving DecidableEq, Repr

/-- Whether a handle is bitmap-sparse. -/
def isSparse (h : Handle) : Bool := hFmt h == 9 || hFmt h == 10

/-- The in-bounds rows along dimension 0 that a load reads. -/
def bldRows (h : Handle) (i : Nat) (t : Bool) : Nat :=
  let q := elemCoords h i
  if nth q 2 < hExt h 2 ∧ nth q 3 < hExt h 3 then min (if t then 256 else tileK (hFmt h)) (hExt h 1 - nth q 1) else 0

/-- The in-bounds elements of a row. -/
def bldLen (h : Handle) (i : Nat) (t : Bool) : Nat :=
  min (if t then tileK (hFmt h) else 256) (hExt h 0 - nth (elemCoords h i) 0)

/-- The elements of one stretch: sixteen bytes, or one sparse block. -/
def chunkElems (h : Handle) : Nat := if isSparse h then 64 else elemsOf h 16

/-- The stretches of row r; a stretch whose address is beyond the virtual space is left out (R53, R198). -/
def rowChunks (h : Handle) (i : Nat) (t : Bool) (r : Nat) : List BldChunk :=
  let q := elemCoords h i
  let m := bldLen h i t
  let ce := chunkElems h
  (List.range ((m + ce - 1) / ce)).filterMap (fun j =>
    let n := min ce (m - ce * j)
    let va :=
      if isSparse h then
        (hBase h + sparseBlock h * blockIndex h (nth q 0 + 64 * j) (nth q 1 + r) (nth q 2) (nth q 3)) % 2 ^ 64
      else addrAt h (nth q 0 + ce * j) (nth q 1 + r) (nth q 2) (nth q 3)
    let len := if isSparse h then sparseBlock h else if hFmt h = 8 then (n + 1) / 2 else n * elemSize (hFmt h)
    if beyondVa h va then none else some ⟨r, ce * j, n, va, len⟩)

/-- All stretches of a load. -/
def bldChunks (h : Handle) (i : Nat) (t : Bool) : List BldChunk :=
  (List.range (bldRows h i t)).flatMap (rowChunks h i t)

/-- The quantised tiles that a load checks (R199). -/
def bldTiles (h : Handle) (cs : List BldChunk) : List Nat :=
  if hTrb h = 0 then [] else dedup (squeeze (cs.filterMap (fun k => tileOf h k.va)))

/-- The runs that a load reads: its stretches, and the tiles and trailers that it checks (R199). -/
def bldRuns (h : Handle) (cs : List BldChunk) : List Run :=
  let own : List Run := cs.map (fun k => ⟨0, k.va, k.len, 0⟩)
  own ++ (bldTiles h cs).flatMap (fun t => [⟨0, hBase h + 4096 * t, 4096, 0⟩, ⟨0, hTrb h + 16 * t, 16, 0⟩])

/-- Whether the first stretch of a row is misaligned (R198, R204); a tile that has no byte within the extents is not: the model's choice
of log entry 131. -/
def bldMisaligned (h : Handle) (i : Nat) (cs : List BldChunk) : Bool :=
  let c0 := nth (elemCoords h i) 0
  !cs.isEmpty && ((hFmt h == 8 && c0 % 2 == 1) || (isSparse h && c0 % 64 != 0)
    || cs.any (fun k => k.e0 == 0 && k.va % 16 != 0))

/-- The elements that watches see: byte indices for the sparse formats (R347). -/
def bldEls (c : Ctx) (h : Handle) (i : Nat) (cs : List BldChunk) : List WatchEl :=
  if anyWatch c then
    let q := elemCoords h i
    cs.flatMap (fun k =>
      if isSparse h then (List.range k.len).map (fun b => ⟨c.act, hTag h, .er, [k.va - hBase h + b, 0, 0, 0]⟩)
      else (List.range k.n).map (fun j => ⟨c.act, hTag h, .er, [nth q 0 + k.e0 + j, nth q 1 + k.row, nth q 2, nth q 3]⟩))
  else []

/-- BLD up to its acceptance (R198); after a park on presence it observes the copies that landed in its lines (R127, R273). -/
def bldBody (t nt : Bool) (i n : Nat) (x : Slot) (c : Ctx) (s : State) : Except Stop State := do
  classRoom c s .tile
  demand (decide (n < c.ln.bslots)) cOperand 3
  let h ← c.handle x.val
  demand ([4, 6, 7, 8, 9, 10].contains (hFmt h) && !hProfile h && !(t && isSparse h)) cHandle 2
  let inb := decide (i < hExt h 0 * hExt h 1 * hExt h 2 * hExt h 3)
  if !inb && hTrapOob h then .error (.trap { mkTrap cOob 0 with coord := coordWords (elemCoords h i) }) else .ok ()
  let cs := bldChunks h i t
  demand (!bldMisaligned h i cs) cAlign 0
  if hScratch h then wholePop (do spCheck c (bldRuns h cs); presenceCheck c (bldRuns h cs)) else .ok ()
  let xl ← engineReach c s h .r (bldRuns h cs)
  let ws := bldEls c h i cs
  let s ← wholePop (watchStep c s ws)
  let s ← observeLines c s (if hScratch h then scratchLines (bldRuns h cs) else [])
  let cl := c.w.core / 4
  let a := acceptOp s c .tile (.bld ⟨cl, c.ln.uid, n, h, i, t, nt, xl⟩)
  let s := markHits a.1 a.2 ws
  let b := bslotGet s cl c.ln.uid n
  .ok (slotStep s cl { b with lgen := b.lgen + 1, ordFmt := BitVec.ofNat 4 (hFmt h), ordState := .loading } (.load a.2))

def execBld (t nt : Bool) (sd : SReg) (sb : USrc) (x : Slot) (s : State) : Result :=
  uniform (.bld t nt sd sb x) (fun c s => bldBody t nt (c.g.sreg sd.val).toNat (readU c.g sb).toNat x c s) s

/-- BFREE (R200). -/
def execBfree (sb : USrc) (s : State) : Result :=
  uniform (.bfree sb) (fun c s => do
    let n := (readU c.g sb).toNat
    demand (decide (n < c.ln.bslots)) cOperand 3
    let cl := c.w.core / 4
    let b := bslotGet s cl c.ln.uid n
    .ok (slotStep s cl { b with lgen := b.lgen + 1, ordState := .empty } .free)) s

/-! ## Completion of a load (R198, R199) -/

/-- The bytes of a stretch as the tile unit reads them. -/
def viaBytes (s : State) (core owner uid : Nat) (h : Handle) (xl : List (Nat × Loc)) (va n : Nat) : List Byte :=
  (List.range n).map (fun i => engineByte s core owner (locVia uid h xl (va + i)))

/-- The codes of a stretch. -/
def chunkCodes (h : Handle) (n : Nat) (bs : List Byte) : List Nat :=
  if isSparse h then (List.range n).map (blockElem h bs) else elemCodes h n bs

/-- The codes of a row of m elements; none where a stretch is left out. -/
def rowCodes (m : Nat) (parts : List (Nat × List Nat)) : List (Option Nat) :=
  (List.range m).map (fun e =>
    (parts.find? (fun p => decide (p.1 ≤ e) && decide (e < p.1 + p.2.length))).map (fun p => p.2.getD (e - p.1) 0))

/-- The tile of some source rows, by 256 k + n. An element that it does not list is +0; code 0 is listed for a codebook
format (`cb`), where it need not be +0 (R82, R198). -/
def tileOfRows (t cb : Bool) (rows : List (List (Option Nat))) : SMap Nat :=
  let put (k n : Nat) (v : Option Nat) : Option (Nat × Nat) :=
    match v with
    | some x => if x = 0 ∧ cb = false then none else some (256 * k + n, x)
    | none => none
  if t then
    (List.range ((rows.map List.length).foldl max 0)).flatMap (fun k =>
      (rows.mapIdx (fun n row => put k n (row.getD k none))).filterMap id)
  else (rows.mapIdx (fun k row => (row.mapIdx (fun n v => put k n v)).filterMap id)).flatten

/-- What a load finds: the tile and the poison subcode, 0 when sound (R199). It reads the lines of the tiles and trailers
that it checks too, and poison in any of them poisons the slot (R358). -/
def bldRead (s : State) (w : Wg) (b : BldOp) : SMap Nat × Nat :=
  let h := b.h
  let cs := bldChunks h b.idx b.t
  let bytes := cs.map (fun k => (k, viaBytes s w.core w.owner w.uid h b.xl k.va k.len))
  let m := bldLen h b.idx b.t
  let rows := (List.range (bldRows h b.idx b.t)).map (fun r =>
    rowCodes m ((bytes.filter (fun p => p.1.row = r)).map (fun p => (p.1.e0, chunkCodes h p.1.n p.2))))
  let soft := !s.poison.isEmpty && (bldRuns h cs).any (fun r => (List.range ((r.n + 127) / 128 + 1)).any (fun i =>
    s.poison.contains (locPoison (locVia w.uid h b.xl (r.va + min (128 * i) (r.n - 1))))))
  let faults : List (Nat × Nat) :=
    if isSparse h then bytes.filterMap (fun p => (blockFault h p.2).map (fun f => (p.1.va, f)))
    else (bldTiles h cs).filterMap (fun t =>
      (trailerFault (hFmt h) (viaBytes s w.core w.owner w.uid h b.xl (hBase h + 4096 * t) 4096)
        (viaBytes s w.core w.owner w.uid h b.xl (hTrb h + 16 * t) 16)).map (fun f => (t, f)))
  let first := faults.foldl (fun (m : Option (Nat × Nat)) f =>
    match m with
    | none => some f
    | some g => if f.1 < g.1 then some f else some g) none
  (tileOfRows b.t (hFmt h == 8) rows, match first with | some f => f.2 | none => if soft then 15 else 0)

/-- BLD_LOAD_COMPLETE: the slot becomes READY or POISONED. -/
def completeBld (s : State) (id : Nat) : Option State :=
  match findOp s id with
  | none => none
  | some o =>
      match o.kind, findWg s o.grp.wg with
      | .bld p, some w =>
          let b := bslotGet s p.cluster p.launch p.slot
          if b.steps.head? = some (.load id) ∧ b.state = .loading ∧ fifoPassed s o then
            let s := touchHomeAs (!p.nt) s w.core w.owner (p.xl.map (·.2))
            let r := bldRead s w p
            let st : BState := if r.2 = 0 then .ready else .poisoned
            let rest := b.steps.drop 1
            let ord := if rest.any SlotStep.changes then b.ordState else st
            let b' := { b with tile := r.1, psub := BitVec.ofNat 4 r.2, state := st, steps := rest, ordState := ord }
            let s := bslotSet s p.cluster (slotPump s (rest.length + 1) b')
            some (finishTile s id [.bslot p.cluster p.launch p.slot])
          else none
      | _, _ => none

def execBldLoadComplete (op : Nat) (s : State) : Result := eventOf "BLD_LOAD_COMPLETE" (completeBld s op)

end Sys2Proof.Machine
end

