-- ==== Sys2Proof/Machine/Matrix.lean ====
section
/-! DEFINITION. The matrix engine (R194, R201–R212): the sum of a pass, MMQ and MMT up to their acceptance, team rounds,
the reservation table, grants, hats and passes, and EXIT, which can fail a round. -/

namespace Sys2Proof.Machine

/-! ## The sum of a pass (R209) -/

/-- A BF16 code that is a subnormal. -/
def bf16Sub (c : Nat) : Bool := c / 128 % 256 == 0 && c % 128 != 0

/-- An operand element of the engine under its handle: BF16 subnormals, and codebook entries that are, are flushed. -/
def matVal (h : Handle) (c : Nat) : FVal :=
  let code := if hFmt h = 8 then hCode h (c % 16) else c
  if (hFmt h == 4 || hFmt h == 10 || hFmt h == 8) && bf16Sub code then .zero (code / 32768 % 2 == 1)
  else elemValue h c

/-- A generator's element as an operand: no handle scale, BF16 subnormals flushed. -/
def genVal (im : GnImage) (i j : Nat) : FVal :=
  let c := gnValue im i j
  if gnOfmt im.desc = 4 ∧ bf16Sub c = true then .zero (c / 32768 % 2 == 1)
  else decodeF ((ffmtOf (gnOfmt im.desc)).getD .fp32) c

/-- What the products of a pass have shown so far: NaN, the two infinities, that each product was −0, and the nonzero
finite products. -/
structure Prods where
  nan : Bool
  pinf : Bool
  ninf : Bool
  negZero : Bool
  terms : List (Bool × Nat × Int)
  deriving DecidableEq, Repr

/-- Adds the product of two operands. -/
def Prods.add (p : Prods) (a b : FVal) : Prods :=
  match mulV a b with
  | none | some .nan => { p with nan := true }
  | some (.inf s) => if s then { p with ninf := true, negZero := false } else { p with pinf := true, negZero := false }
  | some (.zero s) => { p with negZero := p.negZero && s }
  | some (.fin s m e) => { p with terms := (s, m, e) :: p.terms, negZero := false }

/-- The exponent of a nonzero product: floor(log2 |m × 2^e|). -/
def topExp (m : Nat) (e : Int) : Int := (Nat.log2 m : Int) + e

/-- A term truncated toward zero to a multiple of 2^q, as that multiple. -/
def alignTerm (q : Int) (t : Bool × Nat × Int) : Int :=
  let n : Nat := if q ≤ t.2.2 then t.2.1 * 2 ^ (t.2.2 - q).toNat else t.2.1 / 2 ^ (q - t.2.2).toNat
  if t.1 then -(n : Int) else n

/-- The aligned exact sum of nonzero terms: each truncated to a multiple of 2^(E − 48) (R209, R239). -/
def alignedSum (ts : List (Bool × Nat × Int)) : FVal :=
  match ts with
  | [] => .zero false
  | t :: rest =>
      let q := rest.foldl (fun m u => max m (topExp u.2.1 u.2.2)) (topExp t.2.1 t.2.2) - 48
      let n := (ts.map (alignTerm q)).foldl (· + ·) 0
      if n = 0 then .zero false else .fin (decide (n < 0)) n.natAbs q

/-- PassSum (R209): the FP32 code of one output element. -/
def passSum (as bs : List FVal) : Nat :=
  let p := (as.zip bs).foldl (fun (p : Prods) x => p.add x.1 x.2) ⟨false, false, false, true, []⟩
  if p.nan || (p.pinf && p.ninf) then canonNaN .fp32
  else if p.pinf then infCode .fp32
  else if p.ninf then signBit .fp32 + infCode .fp32
  else if p.terms.isEmpty then (if p.negZero then signBit .fp32 else 0)
  else rne .fp32 (alignedSum p.terms)

/-! ## A rows and B columns (R204, R206) -/

/-- Element k of row r of an octet's A operand, as the pass reads it. -/
def aElem (s : State) (uid : Nat) (h : Handle) (org r k : Nat) : FVal :=
  let q := elemCoords h org
  match coordAddr h [nth q 0 + k, nth q 1 + r, nth q 2, nth q 3] with
  | none => .zero false
  | some a =>
      let raw := ofBytes (locBytes s 0 (.scr uid a) (elemSize (hFmt h)))
      matVal h (if hFmt h = 8 then (if (nth q 0 + k) % 2 = 1 then raw / 16 else raw % 16) else raw)

/-- The columns that a B operand supplies. -/
def bCols (s : State) (cl launch : Nat) (b : BRef) : Nat :=
  match b with
  | .slot n _ => (bslotGet s cl launch n).ncol
  | .gen _ => 256

/-- Element (k, n) of the B operand. -/
def bElem (slot : BSlot) (o : OctetOp) (k n : Nat) : FVal :=
  match o.b with
  | .slot _ _ =>
      match mapFind slot.tile (256 * k + n) with
      | some x => matVal slot.image x
      | none => .zero false
  | .gen im => if o.t then genVal im (256 * o.j + n) (o.k0 + k) else genVal im (o.k0 + k) (256 * o.j + n)

/-- Whether an octet multiplies a BF16 operand by a BF16 BAND stencil with MVAL = 1 (R235). -/
def bandMask (o : OctetOp) : Bool :=
  match o.b with
  | .gen im => hFmt o.ah == 4 && gnKind im.desc == 5 && gnMval im.desc && gnOfmt im.desc == 4
  | .slot _ _ => false

/-- One output element of an octet: the sum of R209. R235 decides one case apart from it: a column of a BF16 BAND mask with an off
position is NaN where any element of the A row is infinite (log entry 102). -/
def octetSum (o : OctetOp) (as bs : List FVal) : Nat :=
  if bandMask o && bs.contains (.inf true) && as.any (fun a => a == .inf false || a == .inf true) then canonNaN .fp32 else passSum as bs

/-- The slot of an octet's operand; a fresh one for a generator. -/
def octetSlot (s : State) (cl launch : Nat) (o : OctetOp) : BSlot :=
  match o.b with
  | .slot n _ => bslotGet s cl launch n
  | .gen _ => BSlot.fresh launch 0

/-- Whether row r of the A operand touches a poisoned scratchpad line. -/
def aPoisoned (s : State) (uid : Nat) (o : OctetOp) (r : Nat) : Bool :=
  !s.poison.isEmpty && (rowChunks o.ah o.org true r).any (fun k => s.poison.contains (.scratch uid (k.va / 128)))

/-- One row of a pass is written (R206): columns at or above NCOL are left alone. A slot whose load failed its checks since
the operation's acceptance is read as that load left it (R197, R199); data from one poisoned by a soft error is a free value
(log entry 9). -/
def passRow (s : State) (uid cl launch : Nat) (o : OctetOp) (r : Nat) : State :=
  let slot := octetSlot s cl launch o
  let bad := slot.state == .poisoned && slot.psub == 15
  let soft := bad || aPoisoned s uid o r
  let ks := List.range (tileK (hFmt o.ah))
  let as := ks.map (aElem s uid o.ah o.org r)
  (List.range (bCols s cl launch o.b)).foldl (fun s n =>
    match findWg s uid with
    | none => s
    | some w =>
        let row := o.row0 + r
        let old := accGet w row n
        let dirty := soft || (o.acc && accPoisoned s uid row n)
        let s' := if bad then (freshFree s).2 else s
        let sum := if bad then (Config.poisonedValue s.free).toNat else octetSum o as (ks.map (fun k => bElem slot o k n))
        let v := if o.acc then (addF .fp32 old.toNat sum).code else sum
        let s' := accSet s' uid row n (BitVec.ofNat 32 v)
        if dirty then { s' with poison := .acc uid row n :: s'.poison } else s') s

/-- The eight rows of an octet. -/
def passOctet (uid cl launch : Nat) (s : State) (o : OctetOp) : State :=
  (List.range 8).foldl (fun s r => passRow s uid cl launch o r) s

/-! ## Octets of an issue (R206) -/

/-- An issuing octet: its number in the group, its lanes, and its operands. -/
structure OctetIn where
  oct : Nat
  lanes : List Nat
  row0 : Nat
  org : Nat
  bc : Word
  breg : Nat
  deriving DecidableEq, Repr

/-- The value of the B source register in a lane, if B names one. -/
def bregOf (b : BSrc) (i : LaneIn) : Word :=
  match b with
  | .reg r => i.lane.vreg r.val
  | _ => 0

/-- The lanes of an octet that differ from its lowest. -/
def octetDiffer (b : BSrc) (ls : List LaneIn) : List Nat :=
  match ls with
  | [] => []
  | q :: rest =>
      (rest.filter (fun i => i.arg 0 != q.arg 0 || i.arg 1 != q.arg 1 || i.arg 2 != q.arg 2 || bregOf b i != bregOf b q)).map
        (·.idx)

/-- The octets of the group that have active lanes. -/
def octetNums (lanes : List Nat) : List Nat := dedup (lanes.map (· / 8))

/-- The issuing octets, or NONUNIFORM with the differing lanes. -/
def octetsOf (b : BSrc) (x : Issue) : Except Stop (List OctetIn) := do
  let os := (octetNums (x.ins.map (·.idx))).map (fun o => (o, x.ins.filter (fun i => i.idx / 8 = o)))
  demandNone (os.flatMap (fun p => octetDiffer b p.2)) cNonuniform 0
  .ok (os.filterMap (fun p =>
    match p.2 with
    | [] => none
    | q :: _ => some ⟨p.1, p.2.map (·.idx), (q.arg 2).toNat, (q.arg 0).toNat, q.arg 1, (bregOf b q).toNat⟩))

/-- The B operand of an octet (R201). -/
def bRefOf (c : Ctx) (s : State) (b : BSrc) (o : OctetIn) : Except Stop BRef :=
  let slot (n : Nat) : BRef := .slot n (bslotGet s (c.w.core / 4) c.ln.uid n).lgen.toNat
  match b with
  | .slot n => .ok (slot n.val)
  | .reg _ => do
      demand (decide (o.breg < c.ln.bslots)) cOperand 3
      .ok (slot o.breg)
  | .gen g =>
      match mapFind c.g.gn g.val with
      | some im => .ok (.gen im)
      | none => trapAll cOperand 6

/-- Whether the formats of A and of a B slot combine (R205). -/
def slotFmtOk (a b : Nat) : Bool :=
  ((a == 6 || a == 7) && (b == 6 || b == 7 || b == 9)) || (a == 4 && (b == 4 || b == 10)) || (a == 8 && b == 8)

/-- Whether the format of A and a generator's output combine (R205). -/
def genFmtOk (a f : Nat) : Bool := ((a == 6 || a == 7) && (f == 6 || f == 7)) || (a == 4 && f == 4)

/-- The MMFMT subcodes that apply to an octet (R205). -/
def mmfmtSubs (s : State) (cl launch : Nat) (h : Handle) (t : Bool) (b : BRef) : List Nat :=
  match b with
  | .gen im => if genFmtOk (hFmt h) (gnOfmt im.desc) then [] else [2]
  | .slot n _ =>
      let k := bslotGet s cl launch n
      (if k.ordState != .empty && !slotFmtOk (hFmt h) k.ordFmt.toNat then [1] else [])
        ++ (if t then [3] else []) ++ (if k.ordState == .empty then [4] else [])

/-- The formats, the lowest subcode first, then the poison of a slot (R199, R205). -/
def formatCheck (s : State) (cl launch : Nat) (h : Handle) (t : Bool) (bs : List BRef) : Except Stop Unit :=
  match bs.flatMap (mmfmtSubs s cl launch h t) with
  | k :: ks => trapAll cMmfmt (ks.foldl min k)
  | [] =>
      match bs.filterMap (fun b => match b with
        | .slot n _ => let k := bslotGet s cl launch n
                       if k.ordState = .poisoned then some k.psub.toNat else none
        | .gen _ => none) with
      | 15 :: _ => trapAll cSoft 4
      | p :: _ => trapAll cBpoison p
      | [] => .ok ()

/-- The stretches of the rows of A that lie in bounds (R204). -/
def aChunks (h : Handle) (org : Nat) : List BldChunk :=
  let q := elemCoords h org
  if nth q 2 < hExt h 2 ∧ nth q 3 < hExt h 3 then
    ((List.range 8).filter (fun r => decide (nth q 1 + r < hExt h 1))).flatMap (rowChunks h org true)
  else []

/-- The first element of the rows of A that lies outside the extents, if any. -/
def aOutside (h : Handle) (org : Nat) : Option (List Nat) :=
  let q := elemCoords h org
  let k := tileK (hFmt h)
  firstSome ((List.range 8).map (fun r =>
    if nth q 2 < hExt h 2 ∧ nth q 3 < hExt h 3 ∧ nth q 1 + r < hExt h 1 then
      (if nth q 0 + k ≤ hExt h 0 then none else some [hExt h 0, nth q 1 + r, nth q 2, nth q 3])
    else some [nth q 0, nth q 1 + r, nth q 2, nth q 3]))

/-- The runs of the A rows of the issuing octets. -/
def aRuns (h : Handle) (os : List OctetIn) : List Run :=
  os.flatMap (fun o => (aChunks h o.org).flatMap (fun k => o.lanes.map (fun l => Run.mk l k.va k.len 0)))

/-- The A rows of the issuing octets: SPBOUND, OOB, ALIGN, then presence (R204, R206). -/
def aCheck (c : Ctx) (h : Handle) (os : List OctetIn) : Except Stop Unit := do
  let runs := aRuns h os
  spCheck c runs
  match os.filterMap (fun o => (aOutside h o.org).map (fun q => (o.lanes, q))) with
  | [] => .ok ()
  | p :: ps =>
      if hTrapOob h then
        .error (.trap { mkTrap cOob 0 with mask := maskOf ((p :: ps).flatMap (·.1)), coord := coordWords p.2 })
      else .ok ()
  demandNone ((os.filter (fun o => bldMisaligned h o.org (aChunks h o.org))).flatMap (·.lanes)) cAlign 0
  presenceCheck c runs

/-- The columns that a B operand will supply, in slot order. -/
def ordCols (s : State) (cl launch : Nat) (b : BRef) : Nat :=
  match b with
  | .gen _ => 256
  | .slot n _ =>
      let k := bslotGet s cl launch n
      match (k.steps.filter SlotStep.changes).getLast? with
      | some (.load op) =>
          (match findOp s op with
           | some o => (match o.kind with | .bld p => tileCols p.h p.idx p.t | _ => k.ncol)
           | none => k.ncol)
      | _ => k.ncol

/-- The accumulator writes of octets as watch elements (R347). -/
def matEls (c : Ctx) (s : State) (h : Handle) (os : List (OctetIn × BRef)) : List WatchEl :=
  if anyWatch c then
    os.flatMap (fun p => (List.range 8).flatMap (fun r =>
      (List.range (ordCols s (c.w.core / 4) c.ln.uid p.2)).map (fun n => ⟨p.1.lanes, hTag h, .ew, [p.1.row0 + r, n, 0, 0]⟩)))
  else []

/-- The joins of loads that a matrix operation observes (R348). -/
def bldHits (cl launch : Nat) (bs : List BRef) (j : JoinHit) : Bool :=
  bs.any (fun b => match b with | .slot n _ => j.via.contains (.bslot cl launch n) | .gen _ => false)

/-- The checks that MMQ and MMT share (R206): the A handle, and each octet with its B operand. Accepted after a park on presence, the
operation observes the copies that landed in its A rows (R127, R273). -/
def matCheck (w : MatWord) (x : Issue) (os : List OctetIn) :
    Except Stop (Handle × List (OctetIn × BRef) × State × List WatchEl) := do
  let c := x.c
  let s := x.s
  let cl := c.w.core / 4
  let h ← c.handle w.ah.val
  demand (hScratch h && [4, 6, 7, 8].contains (hFmt h)) cHandle 2
  let bs ← mapE (fun o => (bRefOf c s w.bsrc o).map (fun b => (o, b))) os
  formatCheck s cl c.ln.uid h w.t (bs.map (·.2))
  match os.filter (fun o => decide (c.w.accRows < o.row0 + 8)) with
  | [] => .ok ()
  | o :: rest => accTrap ((o :: rest).flatMap (·.lanes)) (max o.row0 c.w.accRows) 0
  aCheck c h os
  let ws := matEls c s h bs
  let s ← watchStep c s ws
  let s ← observeLines c s (scratchLines (aRuns h os))
  let s ← observe s c.g (bldHits cl c.ln.uid (bs.map (·.2)))
  .ok (h, bs, s, ws)

/-- The specification of a matrix operation (R203). -/
def matSpec (i : Instr) (w : MatWord) (d a b : LSrc) (busy : Ctx → State → Bool) (decl : Ctx → Except Stop Unit) : LSpec :=
  let r := match w.bsrc with | .reg r => [r.val] | _ => []
  { LSpec.mk0 i [(.int, a), (.int, b), (.int, d)] r with
    cls := .tile, reads := fun _ => r, busy := busy
    decl := fun c => do
      demand (match w.bsrc with | .slot n => decide (n.val < c.ln.bslots) | _ => true) cOperand 2
      decl c }

/-! ## MMQ (R206) -/

/-- The reservation entries that a cluster has left (R211). -/
def tableRoom (c : Ctx) (s : State) : Nat := 32 - (clusterOf s (c.w.core / 4)).resv.length

/-- An octet of an operation. -/
def octetOp (op : Nat) (h : Handle) (w : MatWord) (o : OctetIn) (b : BRef) : OctetOp :=
  { op := op, ah := h, org := o.org, row0 := o.row0, b := b, k0 := bits o.bc 19 0, j := bits o.bc 31 20, t := w.t, acc := w.acc }

/-- Puts an entry into the reservation table and, for a slot, takes its place in slot order (R197, R211). -/
def reserve (s : State) (cl : Nat) (e : Resv) (b : BRef) : State :=
  let c := clusterOf s cl
  let s := setCluster s cl { c with resv := c.resv ++ [e] }
  match b with
  | .slot n _ => slotStep s cl (bslotGet s cl e.launch n) (.read e.id)
  | .gen _ => s

/-- One octet of an accepted MMQ takes its entry. -/
def reserveOctet (c : Ctx) (op : Nat) (h : Handle) (w : MatWord) (s : State) (p : OctetIn × BRef) : State :=
  let i := freshId s
  reserve i.2 (c.w.core / 4)
    { id := i.1, wg := c.w.uid, launch := c.ln.uid, prio := c.ln.prio, octets := [octetOp op h w p.1 p.2], team := none,
      complete := true, wait := 0, aged := false } p.2

def execMmq (w : MatWord) (d a b : LSrc) (s : State) : Result :=
  perLane (matSpec (.mmq w d a b) w d a b (fun c s => decide (tableRoom c s < (octetNums c.act).length)) (fun _ => .ok ()))
    (fun x => do
      let os ← octetsOf w.bsrc x
      let r ← matCheck w x os
      let a := acceptOp r.2.2.1 x.c .tile (.matrix (os.map (·.row0)))
      let s := markHits a.1 a.2 r.2.2.2
      let s := r.2.1.foldl (reserveOctet x.c a.2 r.1 w) s
      .ok (x.commit s (x.ins.map LaneIn.keep) 0)) s

/-! ## Teams (R207, R208) -/

/-- The number in the workgroup of an octet of a group. -/
def octetIndex (g : Group) (o : Nat) : Nat := g.key.g * (g.width / 8) + o

/-- The member of a team that an octet is, if it is one. -/
def memberOf (ln : Launch) (g : Group) (t o : Nat) : Option Nat :=
  let n := octetIndex g o
  if teamFirst ln t ≤ n ∧ n < teamFirst ln t + teamSize ln t then some (n - teamFirst ln t) else none

/-- What the members of a round must agree on (R208, R233). -/
def agrees (a b : TeamArrival) : Bool :=
  a.word == b.word && a.row0 == b.row0 && a.bc == b.bc
    && (match a.o.b, b.o.b with
        | .slot m _, .slot n _ => m == n
        | .gen x, .gen y => x == y
        | _, _ => false)

/-- The octet operations of a complete round: member i writes rows row0 + 8i to row0 + 8i + 7. -/
def teamOctets (as : List (Op × TeamArrival)) (size : Nat) : List OctetOp :=
  (List.range size).filterMap (fun i => (as.find? (fun p => p.2.member = i)).map (fun p => p.2.o))

/-- A round after an arrival: complete, failed, or still open. -/
def settleRound (s : State) (cl wg t m size : Nat) : State :=
  let as := arrivalsOf s wg t m
  let c := clusterOf s cl
  match c.resv.find? (fun e => e.wg == wg && e.team == some (t, m)), as with
  | some e, (_, a0) :: _ =>
      if as.length < size then s
      else if as.all (fun p => agrees a0 p.2) then
        setCluster s cl { c with
          resv := updateIf (fun x => x.id == e.id) (fun x => { x with octets := teamOctets as size, complete := true }) c.resv }
      else failRound s cl e t m 2
  | _, _ => s

/-- One member's arrival (R208). The first one gives the round its place in slot order (log entry 101); the rounds of a member are
counted from 0 (log entry 132). -/
def arrive (c : Ctx) (h : Handle) (w : MatWord) (t : Nat) (ws : List WatchEl) (s : State) (p : OctetIn × BRef) : State :=
  match memberOf c.ln c.g t p.1.oct with
  | none => s
  | some i =>
      let cl := c.w.core / 4
      let size := teamSize c.ln t
      let m := mapGet 0 (c.now s).rounds p.1.oct
      let o := { octetOp s.seq h w p.1 p.2 with row0 := p.1.row0 }
      let arr : TeamArrival :=
        { team := t, size := size, member := i, round := m, word := w, row0 := p.1.row0 - 8 * i, bc := p.1.bc,
          mask := maskOf p.1.lanes, o := o }
      let a := acceptOp s c .tile (.team arr)
      let s := markHits a.1 a.2 (ws.filter (fun e => e.lanes == p.1.lanes))
      let s := updGroup s c.g.key (fun g => { g with rounds := mapPut g.rounds p.1.oct (m + 1) })
      let s :=
        if (clusterOf s cl).resv.any (fun e => e.wg == c.w.uid && e.team == some (t, m)) then s
        else
          let f := freshId s
          reserve f.2 cl
            { id := f.1, wg := c.w.uid, launch := c.ln.uid, prio := c.ln.prio, octets := [o], team := some (t, m),
              complete := false, wait := 0, aged := false } p.2
      settleRound s cl c.w.uid t m size

/-- The octets of an MMT with the rows that each writes as member i: row0 + 8i (R208); an octet that is no member of the
team traps (log entry 99). -/
def memberOctets (c : Ctx) (t : Nat) (os : List OctetIn) : Except Stop (List OctetIn) := do
  demandNone ((os.filter (fun o => (memberOf c.ln c.g t o.oct).isNone)).flatMap (·.lanes)) cOperand 2
  .ok (os.map (fun o => { o with row0 := o.row0 + 8 * (memberOf c.ln c.g t o.oct).getD 0 }))

/-- The entries that an issue of MMT takes: one for each round that none of its members finds open (R211). -/
def newRounds (c : Ctx) (s : State) (t : Nat) : List Nat :=
  let rounds := ((octetNums c.act).filter (fun o => (memberOf c.ln c.g t o).isSome)).map (mapGet 0 c.g.rounds)
  dedup (rounds.filter (fun m =>
    !(clusterOf s (c.w.core / 4)).resv.any (fun e => e.wg == c.w.uid && e.team == some (t, m))))

/-- The members of one issue whose slot register differs from the first's (R201); members that issue apart are compared when
the round is complete (log entry 100). -/
def teamDiffer (os : List OctetIn) : List Nat :=
  match os with
  | [] => []
  | o :: rest => (rest.filter (fun p => p.breg ≠ o.breg)).flatMap (·.lanes)

def execMmt (w : MatWord) (team : Fin 8) (d a b : LSrc) (s : State) : Result :=
  let t := team.val
  perLane (matSpec (.mmt w team d a b) w d a b
      (fun c s => decide (tableRoom c s < (newRounds c s t).length)
        || decide (63 < counter s c.g.key .tile + (octetNums c.act).length))
      (fun c => demand (teamSize c.ln t != 0) cOperand 2))
    (fun x => do
      let os0 ← octetsOf w.bsrc x
      demandNone (teamDiffer os0) cNonuniform 0
      let os ← memberOctets x.c t os0
      let r ← matCheck w x os
      let s := r.2.1.foldl (arrive x.c r.1 w t r.2.2.2) r.2.2.1
      .ok (failTeamRounds (x.commit s (x.ins.map LaneIn.keep) 0))) s

/-- Whether a TEAM trap is due: one that waits behind the handler of another is not (R208). -/
def Group.dueFail (g : Group) (f : TeamFail) : Bool := !(g.trapMode && f.waits)

/-- A TEAM trap at a group's instruction boundary (R208). -/
def teamTrap (s : State) (k : GKey) (f : TeamFail) : State :=
  let s := updGroup s k (fun g => { g with teamFails := g.teamFails.erase f })
  match findGroup s k with
  | none => s
  | some g =>
      let ls := (setBitsOf 64 f.mask.toNat).filter (fun l => g.live.contains l)
      match g.live with
      | [] => s
      | l0 :: _ =>
          let l := ls.headD l0
          let pc := match g.lane? l with | some x => x.pc | none => 0
          takeTrap s k pc { mkTrap cTeam f.sub with mask := maskOf ls, aux := BitVec.ofNat 32 f.round, eopid := eopidOf f.eop .tile }
            none 0

/-- TEAM_TRAP: rounds that can no longer be completed fail, and an arrived member of the group takes its trap. -/
def runTeamTrap (s : State) (k : GKey) : Option State :=
  let s1 := failTeamRounds s
  match findGroup s1 k with
  | none => none
  | some g =>
      match g.teamFails.filter g.dueFail with
      | [] => none
      | f :: _ => if g.frozen then none else some (teamTrap s1 k f)

def execTeamTrap (g : GKey) (s : State) : Result := eventOf "TEAM_TRAP" (runTeamTrap s g)

/-- EXIT (R170): the active lanes end; a team round that waits for one of them fails (R208). -/
def execExit (s : State) : Result :=
  perLaneAt false (LSpec.mk0 .exit [] []) (fun x =>
    let s := x.commit x.s (x.ins.map (fun i => ⟨i.idx, { i.lane with exited := true }, []⟩)) 0
    .ok (failTeamRounds (updGroup s x.c.g.key (fun g => dropSkips g x.c.pc x.c.act)))) s

/-! ## Grants (R211) -/

/-- The first arrival of an operation's group for its round, which gives the whole round its place in the group's order (the model's
choice of log entry 133); the operation itself if it is no arrival (R208, R215). -/
def turnOf (s : State) (p : Op) : Nat :=
  match p.kind with
  | .team a =>
      match (arrivalsOf s p.grp.wg a.team a.round).filter (fun q => q.1.grp == p.grp) with
      | q :: qs => (qs.map (·.1.id)).foldl min q.1.id
      | [] => p.id
  | _ => p.id

/-- The rows that the operation of an octet has its turn on: its own, or those of its whole round. -/
def octetSpans (p : Op) (o : OctetOp) : List (Nat × Nat) := match p.kind with | .team _ => accSpans p | _ => [(o.row0, 8)]

/-- Whether the operation of an octet may act now: its group's stores have left the FIFO, and it is its turn on its
rows. -/
def octetTurn (s : State) (o : OctetOp) : Bool :=
  match findOp s o.op with
  | none => false
  | some p => fifoPassed s p && accTurn s p.grp (turnOf s p) (octetSpans p o)

/-- Whether an entry is an older one of the same operation and writes rows that another writes (R211). -/
def sharesOctet (x e : Resv) : Bool :=
  decide (x.id < e.id) && x.octets.any (fun p => e.octets.any (fun q => p.op == q.op && spansMeet [(p.row0, 8)] [(q.row0, 8)]))

/-- Whether an older entry of the same operation writes rows that an entry writes. -/
def behindOctet (s : State) (cl : Nat) (e : Resv) : Bool := (clusterOf s cl).resv.any (fun x => sharesOctet x e)

/-- Whether an octet's B operand can be read now (R197). -/
def octetB (s : State) (cl : Nat) (e : Resv) (o : OctetOp) : Bool :=
  match o.b with
  | .gen _ => true
  | .slot n _ =>
      let b := bslotGet s cl e.launch n
      (readsReady b.steps).contains e.id && (b.state == .ready || b.state == .poisoned)

/-- Whether an entry can be granted. -/
def entryReady (s : State) (cl : Nat) (e : Resv) : Bool :=
  e.complete && e.octets.all (octetTurn s) && !behindOctet s cl e && (e.octets.take 1).all (octetB s cl e)

/-- Whether two entries name the same B source (R211). -/
def sameB (a b : Resv) : Bool :=
  match a.octets, b.octets with
  | x :: _, y :: _ =>
      a.launch == b.launch &&
        (match x.b, y.b with
         | .slot m g, .slot n h => m == n && g == h
         | .gen p, .gen q => p == q && x.t == y.t && x.k0 == y.k0 && x.j == y.j
         | _, _ => false)
  | _, _ => false

/-- An entry is aged from its 1,984th clock on, whether or not the event that marks it has come. -/
def Resv.isAged (e : Resv) : Bool := e.aged || decide (1984 ≤ e.wait)

/-- The better of two entries for the arbiter: aged before others, aged ones oldest first; then priority, then age. -/
def betterEntry (a b : Resv) : Resv :=
  if a.isAged && b.isAged then (if b.id < a.id then b else a)
  else if a.isAged then a
  else if b.isAged then b
  else if a.prio < b.prio then b
  else if b.prio < a.prio then a
  else if b.id < a.id then b else a

/-- The entry that the arbiter picks. -/
def pickEntry (s : State) (cl : Nat) : Option Resv :=
  match (clusterOf s cl).resv.filter (entryReady s cl) with
  | [] => none
  | e :: es => some (es.foldl betterEntry e)

/-- The rows of some entries. -/
def entryRows (es : List Resv) : Nat := 8 * (es.map (fun e => e.octets.length)).foldl (· + ·) 0

/-- RESERVATION_GRANT: the arbiter's pick with the entries fused with it starts a pass. -/
def grant (s : State) (cl : Nat) (fused : List Nat) : Option State :=
  let c := clusterOf s cl
  match pickEntry s cl with
  | none => none
  | some e =>
      let others := c.resv.filter (fun x => fused.contains x.id)
      let all := e :: others
      let ok := c.hat && c.pass.isEmpty && others.length == fused.length && !fused.contains e.id
        && others.all (fun x => entryReady s cl x && sameB e x)
        && decide (entryRows all ≤ 64) && decide (c.burst + entryRows all ≤ 256)
      if ok then
        some (setCluster s cl { c with
          resv := c.resv.filter (fun x => x.id != e.id && !fused.contains x.id), pass := all
          burst := c.burst + entryRows all })
      else none

def execReservationGrant (cluster : Nat) (fused : List Nat) (s : State) : Result :=
  eventOf "RESERVATION_GRANT" (grant s cluster fused)

/-- RESERVATION_AGED. -/
def ageEntry (s : State) (cl id : Nat) : Option State :=
  let c := clusterOf s cl
  if c.resv.any (fun e => e.id == id && decide (1984 ≤ e.wait) && !e.aged) then
    some (setCluster s cl { c with resv := updateIf (fun e => e.id == id) (fun e => { e with aged := true }) c.resv })
  else none

def execReservationAged (cluster entry : Nat) (s : State) : Result :=
  eventOf "RESERVATION_AGED" (ageEntry s cluster entry)

/-! ## Hats (R212) -/

/-- The clusters of a die hold this many hats. -/
def hatsHeld (s : State) (die : Nat) : Nat := (s.clusters.filter (fun p => decide (p.1 / 16 = die) && p.2.hat)).length

/-- HAT_ARRIVE: a cluster with work takes a hat of its die's ring. -/
def takeHat (s : State) (cl : Nat) : Option State :=
  let c := clusterOf s cl
  if !c.hat && (pickEntry s cl).isSome && decide (hatsHeld s (cl / 16) < s.mcb.hats) then
    some (setCluster s cl { c with hat := true, burst := 0 })
  else none

def execHatArrive (cluster : Nat) (s : State) : Result := eventOf "HAT_ARRIVE" (takeHat s cluster)

/-- BURST_END: the cluster puts its hat back when nothing more fits into its burst. -/
def endBurst (s : State) (cl : Nat) : Option State :=
  let c := clusterOf s cl
  let more := match pickEntry s cl with
    | some e => decide (c.burst + entryRows [e] ≤ 256)
    | none => false
  if c.hat && c.pass.isEmpty && !more then some (setCluster s cl { c with hat := false, burst := 0 }) else none

def execBurstEnd (cluster : Nat) (s : State) : Result := eventOf "BURST_END" (endBurst s cluster)

/-! ## Passes (R206, R208) -/

/-- An octet's operation has written its rows; the last octet completes it. -/
def octetDone (s : State) (o : OctetOp) : State :=
  match findOp s o.op with
  | none => s
  | some p =>
      match p.kind with
      | .matrix rows =>
          let rest := rows.erase o.row0
          let s := updOp s p.id (fun q => { q with kind := .matrix rest })
          if rest.isEmpty then finishTile s p.id [] else runAccz s p.grp
      | .team _ => finishTile s p.id []
      | _ => s

/-- MATRIX_PASS_COMPLETE: the pass in progress writes its rows. Every byte of A is read here, between acceptance and completion
(R204): the model's choice of log entry 14. -/
def completePass (s : State) (cl : Nat) : Option State :=
  let c := clusterOf s cl
  match c.pass with
  | [] => none
  | es =>
      let s := es.foldl (fun s e => e.octets.foldl (passOctet e.wg cl e.launch) s) s
      let s := setCluster s cl { clusterOf s cl with pass := [] }
      let s := es.foldl (fun s e => entryRead s cl e) s
      some (es.foldl (fun s e => e.octets.foldl octetDone s) s)

def execMatrixPassComplete (cluster : Nat) (s : State) : Result :=
  eventOf "MATRIX_PASS_COMPLETE" (completePass s cluster)

end Sys2Proof.Machine
end

