-- ==== Sys2Proof/Machine/KeyStore.lean ====
section
/-! DEFINITION. The key store (R236–R252): header, buckets and blocks, the signature, KSINIT, KST, KSIG and KGATH, and
the events that write a row, claim an entry, publish it and walk a snapshot. -/

namespace Sys2Proof.Machine

/-! ## The unit's writes (R244, R251) -/

/-- Writes a number of n bytes of the footprint. -/
def ksPut (s : State) (w : Wg) (ln : Launch) (va n v : Nat) : State :=
  let bs := ((ksLocs s ln .w va n).zip (leBytes n v)).map (fun p => (⟨p.1, p.2⟩ : StoreByte))
  engineSetAll (clearPoisonFor s bs) (w.core / 4) w.owner bs

/-- The unit is about to read n bytes of the footprint past the core's L1 (R51, R70, R273). -/
def ksTouch (s : State) (w : Wg) (ln : Launch) (va n : Nat) : State :=
  touchHome s w.core w.owner ((linesOf va n).filterMap (fun l =>
    match translate s ln .r l with
    | .ok pa ca _ => some (.mem pa ca)
    | _ => none))

/-- An instruction of a group is about to reach n bytes of the footprint at its issue: what its FIFO holds, its SCATs outstanding
on their lines, and passed atomics of the core are performed first (R241, R273, R278, R297, log entry 31). -/
def ksSettle (c : Ctx) (s : State) (need : Need) (va n : Nat) : State :=
  let ls := ksLocs s c.ln need va n
  settlePassed (settleScats (drainFifo s c.g.key) c.g.key (ls.map Loc.unit)) c.w.core c.g.key ls

/-- An instruction of a group reads n bytes of the footprint at its issue past the core's L1: its copy of their lines leaves L1,
so that no later load of the group reads an older value (R277). -/
def ksIssueRead (c : Ctx) (s : State) (va n : Nat) : State :=
  let s := ksSettle c s .r va n
  (memLines ((ksLocs s c.ln .r va n).map (fun l => ⟨l, 0⟩))).foldl (fun s l => l1Drop s c.w.core l) (ksTouch s c.w c.ln va n)

/-- The header that an instruction reads at its issue (R237), behind the group's earlier writes of it, and the state in which it has
been read. -/
def ksHeader (c : Ctx) (s : State) (k : Handle) : Except Stop (KsHead × State) :=
  wholePop (do
    demand (hBase k % 256 == 0) cAlign 0
    let s := ksSettle c s .r (hBase k) 256
    reach c s k .r false [⟨0, hBase k, 256, 0⟩]
    let s := ksIssueRead c s (hBase k) 256
    let h := ksHeadNow s c.w c.ln k
    demand (ksValid k h) cHandle 7
    .ok (h, s))

/-- The handle of a store: loaded, FMT 11, not a PROFILE handle. -/
def ksHandle (c : Ctx) (x : Nat) : Except Stop Handle := do
  let k ← c.handle x
  acceptFmt k [11]
  .ok k

/-! ## The signature (R239) -/

/-- A key element: BF16 subnormals are zeros of their sign. -/
def ksElem (c : Nat) : FVal := if bf16Sub c then .zero (c / 32768 % 2 == 1) else decodeF .bf16 c

/-- A value with its sign changed where the stencil is negative. -/
def ksSigned (neg : Bool) (v : FVal) : FVal :=
  match v with
  | .zero s => .zero (s != neg)
  | .inf s => .inf (s != neg)
  | .fin s m e => .fin (s != neg) m e
  | .nan => .nan

/-- What the terms of a bit have shown so far. -/
structure KsSum where
  nan : Bool
  pinf : Bool
  ninf : Bool
  terms : List (Bool × Nat × Int)
  deriving DecidableEq, Repr

/-- Adds a term. -/
def KsSum.add (p : KsSum) (v : FVal) : KsSum :=
  match v with
  | .nan => { p with nan := true }
  | .inf s => if s then { p with ninf := true } else { p with pinf := true }
  | .zero _ => p
  | .fin s m e => { p with terms := (s, m, e) :: p.terms }

/-- The stencil key (R239). -/
def ksKey (ln : Launch) (h : KsHead) : DWord × DWord := (ln.seedA ^^^ ksSeedLo h, ln.seedB ^^^ ksSeedHi h)

/-- Whether the stencil is negative at element e and bit q. -/
def ksNeg (key : DWord × DWord) (e q : Nat) : Bool :=
  bit (streamF key.1 key.2 (BitVec.ofNat 64 (2 ^ 56 + e * 2 ^ 28 + q))) 0

/-- Bit q of the signature and its margin. -/
def ksBit (key : DWord × DWord) (xs : List FVal) (q : Nat) : Bool × Nat :=
  let p := (xs.mapIdx (fun e v => ksSigned (ksNeg key e q) v)).foldl KsSum.add ⟨false, false, false, []⟩
  if p.nan || (p.pinf && p.ninf) then (false, 0)
  else if p.pinf then (true, 0x7F800000)
  else if p.ninf then (false, 0x7F800000)
  else
    match alignedSum p.terms with
    | .fin s m e => (!s, rne .fp32 (.fin false m e))
    | _ => (true, 0)

/-- Sig(x): the signature and the margins of its bits. -/
def ksSig (ln : Launch) (h : KsHead) (codes : List Nat) : Nat × List Nat :=
  let xs := codes.map ksElem
  let bs := (List.range (ksBits h)).map (ksBit (ksKey ln h) xs)
  ((bs.mapIdx (fun q b => bitOf b.1 * 2 ^ q)).foldl (· + ·) 0, bs.map (·.2))

/-- The BF16 codes of some words. -/
def bf16Codes (ws : List Word) : List Nat := ws.flatMap (fun w => [w.toNat % 65536, w.toNat / 65536])

/-- Bytes per lane (R240). -/
def ksBpl (h : KsHead) (width : Nat) : Nat := if 2 * ksDim h ≤ 4 * width then 4 else 8

/-- The number of lanes that supply the row. -/
def ksLanes (h : KsHead) (width : Nat) : Nat := 2 * ksDim h / ksBpl h width

/-- Every supplying lane is active, or OPERAND subcode 8 (R240). -/
def ksSupplied (h : KsHead) (c : Ctx) : Except Stop Unit :=
  demand ((List.range (ksLanes h c.g.width)).all (fun l => c.act.contains l)) cOperand 8

/-- The group's width is 32 or 64 (R240). -/
def ksWidthOk (c : Ctx) : Except Stop Unit := demand (c.g.width == 32 || c.g.width == 64) cOperand 3

/-- The words of the row, from the supplying lanes' words in ascending order. -/
def ksRow (h : KsHead) (x : Issue) (words : LaneIn → List Word) : List Word :=
  (x.ins.filter (fun i => decide (i.idx < ksLanes h x.c.g.width))).flatMap words

/-! ## KSINIT (R241) -/

/-- Whether the group has key-store operations outstanding on a store that a KSINIT of it must follow (R246). -/
def ksBusy (s : State) (g : GKey) (base : Nat) : Bool :=
  s.ops.any (fun o => o.grp == g && !o.done &&
    (match o.kind with
     | .kst k => hBase k.store == base
     | .kgath k => hBase k.store == base
     | _ => false))

/-- Whether the group has links on a store of which something holds. -/
def ksOwn (s : State) (g : GKey) (base : Nat) (p : KstOp → Bool) : Bool :=
  s.ops.any (fun o => o.grp == g && !o.done &&
    (match o.kind with
     | .kst k => hBase k.store == base && p k
     | _ => false))

/-- Whether the group has claims on a store that are not yet made, which the snapshot of a KGATH of it follows (R246). -/
def ksClaiming (s : State) (g : GKey) (base : Nat) : Bool := ksOwn s g base (fun k => k.stage == .claim)

/-- Whether the group has links in some buckets of a store that are not yet published, which the list of a KGATH of it waits
for (R246). No other KST, and none whose row alone is not yet written, keeps a KGATH waiting (R253, log entry 59). -/
def ksLinking (s : State) (g : GKey) (base : Nat) (bs : List Nat) : Bool :=
  ksOwn s g base (fun k => k.stage != .linked && bs.contains k.sigma)

/-- The header that KSINIT writes. -/
def ksFresh (kbase cap : Nat) (d : GnDesc) (psc clog bb : Nat) (d128 : Bool) : KsHead :=
  BitVec.ofNat 2048 (kbase + 2 ^ 64 * cap + 2 ^ 128 * bits d 255 192 + 2 ^ 192 * bits d 319 256 + 2 ^ 256 * bitOf d128
    + 2 ^ 260 * bb + 2 ^ 264 * clog + 2 ^ 266 * psc + 2 ^ 320 * ksMagic)

/-- The bytes of a fresh header and an empty bucket table. -/
def ksInitBytes (h : KsHead) : List Byte := leBytes 256 h.toNat ++ List.replicate (8 * 2 ^ ksBits h) 0

/-- KSINIT (R241). -/
def ksinitBody (gn : Fin 8) (fresh : Nat → Nat → GnDesc → KsHead) (sd : SReg) (cap : Nat) (x : Slot) (c : Ctx)
    (s : State) : Except Stop State := do
  if ksBusy s c.g.key (hBase (c.slot x.val)) then .error .notReady else .ok ()
  let k ← ksHandle c x.val
  demand (decide (hExt k 0 ≤ 2 ^ 31)) cHandle 7
  demand (hBase k % 256 == 0) cAlign 0
  match mapFind c.g.gn gn.val with
  | none => trapAll cOperand 6
  | some im => do
      demand (gnKind im.desc == 1 && gnScope im.desc) cOperand 9
      let kbase := pairOffset c.g sd
      demand (kbase % 256 == 0 && decide (kbase < 2 ^ 60) && decide (cap ≤ 2 ^ 24)) cOperand 3
      let bs := ksInitBytes (fresh kbase cap im.desc)
      let run : Run := ⟨0, hBase k, bs.length, 0⟩
      wholePop (reach c s k .w false [run])
      let s := ksSettle c s .w run.va run.n
      let out := ((ksLocs s c.ln .w run.va run.n).zip bs).map (fun p => (⟨p.1, p.2⟩ : StoreByte))
      .ok (engineSetAll (clearPoisonFor s out) (c.w.core / 4) c.w.owner out)

/-- The code of a scope (R40). -/
def scopeCode : Scope → Nat
  | .group => 0 | .workgroup => 1 | .cluster => 2 | .die => 3 | .module => 4 | .system => 5

def execKsinit (gn : Fin 8) (psc : Scope) (clog : Fin 3) (bb : Fin 9) (d128 : Bool) (sd : SReg) (sb : USrc) (x : Slot)
    (s : State) : Result :=
  uniform (.ksinit gn psc clog bb d128 sd sb x) (fun c s =>
    ksinitBody gn (fun kb cap d => ksFresh kb cap d (scopeCode psc) clog.val (bb.val + 4) d128) sd (readU c.g sb).toNat x c s) s

/-! ## KST (R242, R243) -/

/-- The width of KST's data. -/
def kstWidth (wide : Bool) : Width := if wide then .w8 else .w4

/-- Token t exists, and its row lies in the virtual space (R53, R236). -/
def tokenOk (k : Handle) (h : KsHead) (t : Nat) : Bool :=
  decide (t < hExt k 0) && decide (ksKbase h + 2 * ksDim h * (t + 1) ≤ 2 ^ 60)

/-- The watch elements of a row write: element e of token t, which the lane that brings its bytes reaches (R240, R348), so that
a trap names supplying lanes only: the model's choice of log entry 118. -/
def kstEls (c : Ctx) (k : Handle) (h : KsHead) (t : Nat) : List WatchEl :=
  (List.range (ksDim h)).map (fun e => ⟨[2 * e / ksBpl h c.g.width], hTag k, .ew, [e, t, 0, 0]⟩)

/-- The bytes of a row that each supplying lane brings (R58, R240). -/
def kstRuns (c : Ctx) (h : KsHead) (t : Nat) : List Run :=
  let n := ksBpl h c.g.width
  (List.range (ksLanes h c.g.width)).map (fun l => ⟨l, ksKbase h + 2 * ksDim h * t + n * l, n, 0⟩)

/-- KST after its draws (R243). -/
def kstBody (nl wide : Bool) (d : LSrc) (x : Slot) (i : Issue) : Except Stop State := do
  let c := i.c
  ksWidthOk c
  let t ← i.uniformArg 0
  let k ← ksHandle c x.val
  let (h, s) ← ksHeader c i.s k
  demand (wide == (ksBpl h c.g.width == 8)) cOperand 3
  ksSupplied h c
  let n := 2 * ksDim h
  let mk (sigma : Nat) (row : List StoreByte) : OpKind :=
    .kst { store := k, hdr := h, t := t.toNat, sigma := sigma, row := row, rowDone := false,
           stage := if nl then .linked else .claim }
  if tokenOk k h t.toNat then do
    thereafter s (reach c s k .w false (kstRuns c h t.toNat))
    let els := kstEls c k h t.toNat
    let s ← thereafter s (watchStep c s els)
    let ws := ksRow h i (storeWords d (kstWidth wide) 1)
    let row := ((runLocs c s k .w (ksKbase h + n * t.toNat) n).zip (ws.flatMap (fun w => leBytes 4 w.toNat))).map
      (fun p => (⟨p.1, p.2⟩ : StoreByte))
    let a := acceptOp s c .tile (mk (ksSig c.ln h (bf16Codes ws)).1 row)
    .ok (i.commit (markHits a.1 a.2 els) (i.ins.map LaneIn.keep) 0)
  else if hTrapOob k then
    .error (.trap { mkTrap cOob 0 with coord := coordWords [t.toNat, 0, 0, 0] })
  else
    let a := acceptOp s c .tile (mk 0 [])
    .ok (i.commit (finishTile a.1 a.2 []) (i.ins.map LaneIn.keep) 0)

def execKst (nl wide : Bool) (d a : LSrc) (h : Slot) (s : State) : Result :=
  let n := (kstWidth wide).regs
  perLane { LSpec.mk0 (.kst nl wide d a h) [(.int, a), (.int, d)] (srcGroup d n) with
      cls := .tile, reads := fun _ => srcGroup d n } (kstBody nl wide d h) s

/-! ## KSIG (R247) -/

/-- KSIG after the checks of its operands; with 8 bytes in a lane the register pair of A is checked before the lanes that supply the
row: the model's choice of log entry 127. -/
def ksigBody (d a : VReg) (x : Slot) (i : Issue) : Except Stop State := do
  let c := i.c
  ksWidthOk c
  let k ← ksHandle c x.val
  let (h, s) ← ksHeader c i.s k
  let wide := ksBpl h c.g.width == 8
  demand (!wide || (a.val % 2 == 0 && decide (a.val + 1 < declared c.ln c.g))) cOperand 2
  ksSupplied h c
  demandNone (if wide then c.act.filter (fun l => s.poison.contains (.vreg c.g.key l (a.val + 1))) else []) cSoft 1
  let words (n : LaneIn) : List Word := if wide then [n.lane.vreg a.val, n.lane.vreg (a.val + 1)] else [n.lane.vreg a.val]
  let r := ksSig c.ln h (bf16Codes (ksRow h i words))
  .ok (i.commit s (i.ins.map (fun n => ⟨n.idx, n.lane,
    [(d.val, BitVec.ofNat 32 r.1), (d.val + 1, BitVec.ofNat 32 (r.2.getD n.idx 0x7F800000))]⟩)) 0)

def execKsig (d a : VReg) (h : Slot) (s : State) : Result :=
  perLane { LSpec.mk0 (.ksig d a h) [] [a.val, d.val, d.val + 1] with reads := fun _ => [a.val] } (ksigBody d a h) s

/-! ## KGATH (R248, R249) -/

/-- The lesser of two margins, the lower bit on a tie; a NaN counts as infinity. -/
def lesserMargin (a b : Nat × Nat) : Nat × Nat :=
  let v (m : Nat) : Nat := match decodeF .fp32 m with | .nan => 0x7F800000 | _ => m
  if condF .lt (v b.2) (v a.2) then b else a

/-- The n bits with the smallest margins, in order. -/
def probeBits : Nat → List (Nat × Nat) → List Nat
  | 0, _ => []
  | _, [] => []
  | n + 1, m :: ms =>
      let b := ms.foldl lesserMargin m
      b.1 :: probeBits n ((m :: ms).filter (fun x => x.1 ≠ b.1))

/-- The buckets of a query. -/
def ksBuckets (sigma : Nat) (probes : List Nat) : List Nat := sigma :: probes.map (fun l => sigma ^^^ 2 ^ l)

/-- The snapshot of some buckets (R249). -/
def ksSnap (s : State) (w : Wg) (ln : Launch) (k : Handle) (bs : List Nat) : List SnapBucket :=
  bs.map (fun b => ⟨b, ksNum s w ln (ksEntryVa k b) 4, ksNum s w ln (ksEntryVa k b + 4) 4⟩)

/-- The runs of the output elements o to o + n. -/
def kgathRuns (h : Handle) (o n : Nat) : List Run := (List.range (n + 1)).map (fun i => ⟨0, addrOf h (o + i), 4, o + i⟩)

/-- The scratchpad lines of output elements o to o + n. -/
def kgathLines (h : Handle) (o n : Nat) : List Nat :=
  dedup (squeeze ((kgathRuns h o n).flatMap (fun r => [r.va / 128, (r.va + 3) / 128])))

/-- The output handle's checks: every element of the cap in bounds and inside the allocation. -/
def kgathOut (c : Ctx) (oh : Slot) (o cap : Nat) : Except Stop Handle := do
  let h ← c.handle oh.val
  acceptFmt h [2]
  demand (hScratch h) cHandle 2
  match (List.range (cap + 1)).find? (fun i => (laneAddr h (o + i) 4).isNone) with
  | some i => .error (.trap { mkTrap cOob 0 with coord := coordWords (coords h (o + i)) })
  | none => .ok ()
  wholePop (spCheck c (kgathRuns h o cap))
  .ok h

/-- The cause of a fallback, 0 for none (R249). -/
def fallCause (h : KsHead) (n cap : Nat) : Nat := if ksOvf h then 1 else if ksFlt h then 3 else if cap < n then 2 else 0

/-- KGATH after its draws (R249). One that will list tokens is not issued before its group's links in its buckets are published
(R246); a fallback waits for none of them. -/
def kgathBody (kh oh : Slot) (p : Nat) (msk : Option MReg) (cap : Nat) (i : Issue) : Except Stop State := do
  let c := i.c
  let o ← i.uniformArg 2
  let sigma ← i.uniformArg 0
  let k ← ksHandle c kh.val
  let (h, s) ← ksHeader c i.s k
  demand (decide (sigma.toNat < 2 ^ ksBits h) && decide (p ≤ ksBits h)) cOperand 3
  demand (p == 0 || (List.range (ksBits h)).all (fun l => c.act.contains l)) cOperand 8
  let out ← kgathOut c oh o.toNat cap
  let margins := (i.ins.filter (fun n => decide (n.idx < ksBits h))).map (fun n => (n.idx, (n.arg 1).toNat))
  let bs := ksBuckets sigma.toNat (probeBits p margins)
  wholePop (reach c s k .r false (bs.map (fun b => ⟨0, ksEntryVa k b, 8, 0⟩)))
  let s ← wholePop (watchStep c s [])
  let s := bs.foldl (fun s b => ksIssueRead c s (ksEntryVa k b) 8) s
  let snap := ksSnap s c.w c.ln k bs
  let n := (snap.map (·.nclm)).foldl (· + ·) 0
  let cause := fallCause h n cap
  if cause = 0 ∧ ksLinking s c.g.key (hBase k) bs = true then .error .notReady else .ok ()
  match msk with
  | none =>
      if cause = 0 then .ok ()
      else .error (.trap { mkTrap cKsfallback cause with aux := BitVec.ofNat 32 n })
  | some _ => .ok ()
  let lines := kgathLines out o.toNat (if cause = 0 then n else 0)
  let s := clearPresence s c.w.uid lines
  let op : KgathOp :=
    { store := k, hdr := h, out := out, o := o.toNat, n := n, fallbk := cause != 0, snap := snap, lines := lines }
  let s := (acceptOp s c .copy (.kgath op)).1
  let put (x : Lane) : Lane := match msk with | some m => x.setM m.val (cause != 0) | none => x
  .ok (i.commit s (i.ins.map (fun n => ⟨n.idx, put n.lane, []⟩)) 0)

def execKgath (kh oh : Slot) (p : Fin 13) (msk : Option MReg) (capm1 : Fin 2048) (d a b : LSrc) (s : State) : Result :=
  perLane { LSpec.mk0 (.kgath kh oh p msk capm1 d a b) [(.int, a), (.fp32, b), (.int, d)] [] with
      cls := .copy, busy := fun c s => ksClaiming s c.g.key (hBase (c.slot kh.val)) }
    (kgathBody kh oh p.val msk (capm1.val + 1)) s

/-! ## Rows, claims and publications (R243–R246) -/

/-- Whether an older KST of the same group on the same store has still to do what `p` asks (R246). -/
def olderKst (s : State) (o : Op) (k : KstOp) (p : KstOp → Bool) : Bool :=
  s.ops.any (fun x => x.grp == o.grp && decide (x.id < o.id) && !x.done &&
    (match x.kind with
     | .kst y => hBase y.store == hBase k.store && p y
     | _ => false))

/-- The KST as it now stands; it completes when its row is written and nothing is left to link (R243). -/
def kstPut (s : State) (id : Nat) (k : KstOp) : State :=
  let s := updOp s id (fun o => { o with kind := .kst k })
  if k.rowDone && k.stage == .linked then finishTile s id [] else s

/-- KST_ROW_PERFORMED. -/
def kstRow (s : State) (id : Nat) : Option State :=
  match findOp s id with
  | none => none
  | some o =>
      match o.kind, findWg s o.grp.wg with
      | .kst k, some w =>
          if !o.done && !k.rowDone && fifoPassed s o && !olderKst s o k (fun y => !y.rowDone) then
            let s := engineSetAll (clearPoisonFor s k.row) (w.core / 4) w.owner k.row
            some (kstPut s id { k with rowDone := true })
          else none
      | _, _ => none

def execKstRowPerformed (op : Nat) (s : State) : Result := eventOf "KST_ROW_PERFORMED" (kstRow s op)

/-- LOST adds one, saturating, with OVF or FLT set (R244). -/
def ksLose (s : State) (w : Wg) (ln : Launch) (k : Handle) (h : KsHead) (flag : Nat) : State :=
  ksPut s w ln (hBase k) 256 (setBits (setBits h flag flag 1) 319 288 (min 0xFFFFFFFF (ksLost h + 1))).toNat

/-- A new block at the head of a bucket (R238, R244). -/
def ksNewBlock (s : State) (w : Wg) (ln : Launch) (k : Handle) (h : KsHead) (sigma head : Nat) : State :=
  let n := ksPooln h
  let s := ksPut s w ln (ksBlockVa k h n) (ksZ h) (head + 2 ^ 32 * sigma)
  let s := ksPut s w ln (hBase k) 256 (setBits h 127 96 (n + 1)).toNat
  ksPut s w ln (ksEntryVa k sigma) 4 (n + 1)

/-- A claim (R244), the lines of header and bucket entry giving RD and W: the state and the claimed entry's address. -/
def ksClaimIn (s : State) (w : Wg) (ln : Launch) (k : Handle) (sigma : Nat) : State × Option Nat :=
  let h := ksHeadNow s w ln k
  let ent := ksEntryVa k sigma
  let head := ksNum s w ln ent 4
  let n := ksNum s w ln (ent + 4) 4
  if n % ksC h = 0 then
    if ksPooln h = ksPoolcap h then (ksLose s w ln k h 272, none)
    else if !ksOk s ln .rw (ksBlockVa k h (ksPooln h)) (ksZ h) then (ksLose s w ln k h 273, none)
    else
      let s := ksNewBlock s w ln k h sigma head
      (ksPut s w ln (ent + 4) 4 (n + 1), some (ksBlockVa k h (ksPooln h) + 16))
  else (ksPut s w ln (ent + 4) 4 (n + 1), some (ksBlockVa k h (head - 1) + 16 + 4 * (n % ksC h)))

/-- A claim with the translation of the lines that it needs (R244): header, bucket entry and new block must give both RD and
W, since a line that lacks either counts as failing (log entry 59). -/
def ksClaimStep (s : State) (w : Wg) (ln : Launch) (k : Handle) (sigma : Nat) : State × Option Nat :=
  if !ksOk s ln .rw (hBase k) 256 then (s, none)
  else if !ksOk s ln .rw (ksEntryVa k sigma) 8 then (ksLose s w ln k (ksHeadNow s w ln k) 273, none)
  else ksClaimIn s w ln k sigma

/-- Whether a claim would write a migrating line, and so waits (R65): the header where it allocates or fails, the bucket
entry, or the new block. -/
def ksClaimMig (s : State) (w : Wg) (ln : Launch) (k : Handle) (sigma : Nat) : Bool :=
  let h := ksHeadNow s w ln k
  let ent := ksEntryVa k sigma
  if !ksOk s ln .rw (hBase k) 256 then false
  else if !ksOk s ln .rw ent 8 then ksMig s ln (hBase k) 256
  else
    let full := ksNum s w ln (ent + 4) 4 % ksC h == 0
    ksMig s ln ent 8 || (full && (ksMig s ln (hBase k) 256
      || (ksPooln h != ksPoolcap h && ksMig s ln (ksBlockVa k h (ksPooln h)) (ksZ h))))

/-- Poison that a claim read goes into what it writes from it (R358): `s` is the state before the claim, `claimed` the entry
that it claimed. -/
def ksClaimSoft (s s' : State) (w : Wg) (ln : Launch) (k : Handle) (sigma : Nat) (claimed : Option Nat) : State :=
  let bad (ls : List Loc) : Bool := ls.any (fun l => s.poison.contains (locPoison l))
  let hdr := ksLocs s ln .r (hBase k) 256
  let ent := ksLocs s ln .r (ksEntryVa k sigma) 8
  let h := ksHeadNow s w ln k
  let block :=
    if ksNum s w ln (ksEntryVa k sigma + 4) 4 % ksC h = 0 then ksLocs s ln .r (ksBlockVa k h (ksPooln h)) (ksZ h) else []
  let out := (if bad hdr then hdr else []) ++ (if claimed.isSome && (bad hdr || bad ent) then ent ++ block else [])
  if out.isEmpty then s' else { s' with poison := dedup (out.map locPoison ++ s'.poison) }

/-- KS_CLAIM. -/
def ksClaim (s : State) (id : Nat) : Option State :=
  match findOp s id with
  | none => none
  | some o =>
      match o.kind, findCtx s o.grp with
      | .kst k, some (_, w, ln) =>
          if !o.done && k.stage == .claim && fifoPassed s o && !olderKst s o k (fun y => y.stage == .claim)
              && !ksClaimMig s w ln k.store k.sigma then
            let s := ksTouch (ksTouch s w ln (hBase k.store) 256) w ln (ksEntryVa k.store k.sigma) 8
            let r := ksClaimStep s w ln k.store k.sigma
            let st : KstStage := match r.2 with | some va => .publish va | none => .linked
            some (kstPut (ksClaimSoft s r.1 w ln k.store k.sigma r.2) id { k with stage := st })
          else none
      | _, _ => none

def execKsClaim (op : Nat) (s : State) : Result := eventOf "KS_CLAIM" (ksClaim s op)

/-- The write of a publication, or what its failure leaves (R245). -/
def ksPublishAt (s : State) (w : Wg) (ln : Launch) (k : KstOp) (va : Nat) : State :=
  let s := if ksWide k.hdr then l1WriteBackAll s w.core else s
  if ksOk s ln .w va 4 then ksPut s w ln va 4 (2 ^ 31 + k.t)
  else if ksOk s ln .rw (hBase k.store) 256 then ksLose s w ln k.store (ksHeadNow s w ln k.store) 273
  else s

/-- Whether a publication would write a migrating line, and so waits (R65): the entry's, or the header's where the entry's
fails translation. -/
def ksPublishMig (s : State) (ln : Launch) (k : KstOp) (va : Nat) : Bool :=
  if ksOk s ln .w va 4 then ksMig s ln va 4
  else ksOk s ln .rw (hBase k.store) 256 && ksMig s ln (hBase k.store) 256

/-- KS_PUBLISH. -/
def ksPublish (s : State) (id : Nat) : Option State :=
  match findOp s id with
  | none => none
  | some o =>
      match o.kind, findCtx s o.grp with
      | .kst k, some (_, w, ln) =>
          match k.stage with
          | .publish va =>
              if !o.done && k.rowDone && fifoPassed s o && !ksPublishMig s ln k va then
                some (kstPut (ksPublishAt s w ln k va) id { k with stage := .linked })
              else none
          | _ => none
      | _, _ => none

def execKsPublish (op : Nat) (s : State) : Result := eventOf "KS_PUBLISH" (ksPublish s op)

/-! ## The walk (R250) -/

/-- How the chase of a bucket's blocks ended: every block reached, a chain that ends early or leaves the pool, a block of another
bucket, which has been read, or a block line that fails translation. -/
inductive Chase where
  | whole | broken | failed
  | stray (block : Nat)
  deriving DecidableEq, Repr

/-- The blocks of a bucket from its head back, newest first. Each is tested whole, over both lines where it straddles two, before
any of its words is read: the model's choice of log entry 119. -/
def ksChase (s : State) (w : Wg) (ln : Launch) (k : KgathOp) (bucket : Nat) : Nat → Nat → List Nat × Chase
  | 0, _ => ([], .whole)
  | n + 1, head =>
      if head = 0 ∨ ksPooln k.hdr < head then ([], .broken)
      else
        let va := ksBlockVa k.store k.hdr (head - 1)
        if !ksOk s ln .r va (ksZ k.hdr) then ([], .failed)
        else if ksNum s w ln (va + 4) 4 ≠ bucket then ([], .stray (head - 1))
        else
          let r := ksChase s w ln k bucket n (ksNum s w ln va 4)
          ((head - 1) :: r.1, r.2)

/-- The published tokens among the first n entries of a block. -/
def ksEntries (s : State) (w : Wg) (ln : Launch) (k : KgathOp) (block n : Nat) : List Nat :=
  (List.range n).filterMap (fun j =>
    let e := ksNum s w ln (ksBlockVa k.store k.hdr block + 16 + 4 * j) 4
    if 2 ^ 31 ≤ e then some (e % 2 ^ 31) else none)

/-- The tokens of one bucket, and whether the walk ends there with INC. -/
def ksBucketWalk (s : State) (w : Wg) (ln : Launch) (k : KgathOp) (b : SnapBucket) : List Nat × Bool :=
  let cap := ksC k.hdr
  let need := (b.nclm + cap - 1) / cap
  let r := ksChase s w ln k b.bucket need b.head
  let lists := r.1.mapIdx (fun p blk => ksEntries s w ln k blk (if p = 0 then b.nclm - cap * (need - 1) else cap))
  match r.2 with
  | .whole => (lists.reverse.flatten, false)
  | .broken | .stray _ => (lists.reverse.flatten, true)
  | .failed => ([], true)

/-- The tokens of the snapshot, and INC. -/
def ksWalk (s : State) (w : Wg) (ln : Launch) (k : KgathOp) : List SnapBucket → List Nat × Bool
  | [] => ([], false)
  | b :: bs =>
      let r := ksBucketWalk s w ln k b
      if r.2 then r
      else
        let q := ksWalk s w ln k bs
        (r.1 ++ q.1, q.2)

/-- The words that a KGATH writes, from element o on. -/
def kgathWords (s : State) (w : Wg) (ln : Launch) (k : KgathOp) : List Nat :=
  if k.fallbk then [0]
  else
    let r := ksWalk s w ln k k.snap
    (r.1.length + bitOf r.2 * 2 ^ 31) :: r.1

/-- The blocks of a bucket that a walk reads: those of its chain, and one of another bucket that ends the chain. -/
def ksChased (s : State) (w : Wg) (ln : Launch) (k : KgathOp) (b : SnapBucket) : List Nat :=
  let r := ksChase s w ln k b.bucket ((b.nclm + ksC k.hdr - 1) / ksC k.hdr) b.head
  r.1 ++ (match r.2 with | .stray n => [n] | _ => [])

/-- The buckets that a walk comes to: it ends in the first with INC. -/
def ksWalked (s : State) (w : Wg) (ln : Launch) (k : KgathOp) : List SnapBucket → List SnapBucket
  | [] => []
  | b :: bs => b :: (if (ksBucketWalk s w ln k b).2 then [] else ksWalked s w ln k bs)

/-- The locations of the blocks that a walk reads. -/
def kgathReads (s : State) (w : Wg) (ln : Launch) (k : KgathOp) : List Loc :=
  if k.fallbk then []
  else (ksWalked s w ln k k.snap).flatMap (fun b => (ksChased s w ln k b).flatMap (fun n => ksLocs s ln .r (ksBlockVa k.store k.hdr n) (ksZ k.hdr)))

/-- A walk is about to read: the write-combining buffer empties, other owners' lines leave the core's L1, which may drop a
line at any time, and what PSCOPE makes an acquire drops the rest (R70, R250, R281). -/
def kgathOpen (s : State) (w : Wg) (ln : Launch) (k : KgathOp) : State :=
  let s := wcOut s w.core (fun _ => true)
  let s :=
    if ksWide k.hdr then l1DropAll s w.core
    else ((coreOf s w.core).l1.filter (fun l => l.owner ≠ w.owner)).foldl (fun s l => l1Drop s w.core l.base) s
  touchHome s w.core w.owner (kgathReads s w ln k)

/-- KGATH_WALK: the walk, its output, and the completion; poison that it reads goes into its output (R358). -/
def kgathWalk (s : State) (id : Nat) : Option State :=
  match findOp s id with
  | none => none
  | some o =>
      match o.kind, findCtx s o.grp with
      | .kgath k, some (_, w, ln) =>
          if !o.done && fifoPassed s o then
            let s := kgathOpen s w ln k
            let ws := kgathWords s w ln k
            let bs := (ws.mapIdx (fun i v => (leBytes 4 v).mapIdx (fun j b =>
              (⟨.scr w.uid (addrOf k.out (k.o + i) + j), b⟩ : StoreByte)))).flatten
            let soft := poisonLocs (clearPoisonFor s bs) (kgathReads s w ln k) (bs.map (·.loc))
            let s := finishOp (engineSetAll soft (w.core / 4) w.owner bs) id (k.lines.map (fun l => Via.line w.uid l))
            some (restorePresence (updOp s id (fun o => { o with done := true })) w.uid k.lines)
          else none
      | _, _ => none

def execKgathWalk (op : Nat) (s : State) : Result := eventOf "KGATH_WALK" (kgathWalk s op)

end Sys2Proof.Machine
end

