-- ==== Sys2Proof/Machine/Collector.lean ====
section
/-! DEFINITION. The request collector (R292–R303): GATH, SCAT and SISECT up to their acceptance, the collector's line
entries, and the completions. -/

namespace Sys2Proof.Machine

/-! ## Line entries (R292) -/

/-- A request for a line joins its entry, or opens one behind the others. -/
def collJoin (op : Nat) (es : List CollEntry) (line : Nat) : List CollEntry :=
  if es.any (fun e => e.line == line && !e.dispatched) then
    updateIf (fun e => e.line == line && !e.dispatched) (fun e => { e with waiting := e.waiting ++ [op], idle := 0 }) es
  else es ++ [⟨line, [op], 0, 0, false⟩]

/-- The memory lines of some locations, by their physical base. -/
def physLines (ls : List Loc) : List Nat :=
  dedup (ls.filterMap (fun l => match l with | .mem pa _ => some (lineOf pa) | .scr _ _ => none))

/-- The line requests of an accepted operation enter the core's collector. Where it is full, the lanes that issued the
operation issue nothing until every request has an entry. -/
def collEnter (c : Ctx) (s : State) (op : Nat) (lines : List Nat) : State :=
  let k := coreOf s c.w.core
  let s := setCore s c.w.core { k with coll := lines.foldl (collJoin op) k.coll }
  if ((coreOf s c.w.core).coll.drop 64).any (fun e => e.waiting.contains op) then
    updGroup s c.g.key (fun g => { g with holds := g.holds ++ [⟨c.nextPc, c.mask, 0, .collector op⟩] })
  else s

/-- Every line request of an operation has been served. -/
def collServed (s : State) (core id : Nat) : Bool := !(coreOf s core).coll.any (fun e => e.waiting.contains id)

/-- COLLECTOR_DISPATCH: the entry's window has ended, or no request has joined it for 4 clocks. -/
def collDispatch (s : State) (core line : Nat) : Option State :=
  let c := coreOf s core
  let can (e : CollEntry) : Bool := e.line == line && !e.dispatched && (decide (32 ≤ e.opened) || decide (4 ≤ e.idle))
  if (c.coll.take 64).any can then
    some (setCore s core { c with coll := updateIf can (fun e => { e with dispatched := true }) (c.coll.take 64) ++ c.coll.drop 64 })
  else none

def execCollectorDispatch (core line : Nat) (s : State) : Result :=
  eventOf "COLLECTOR_DISPATCH" (collDispatch s core line)

/-- COLLECTOR_LINE_SERVED: a dispatched entry frees, and what waits behind a full collector moves up. -/
def collLineServed (s : State) (core line : Nat) : Option State :=
  let c := coreOf s core
  match c.coll.find? (fun e => e.line == line && e.dispatched) with
  | none => none
  | some e => some (collRelease (setCore s core { c with coll := c.coll.erase e }) core)

def execCollectorLineServed (core line : Nat) (s : State) : Result :=
  eventOf "COLLECTOR_LINE_SERVED" (collLineServed s core line)

/-! ## GATH and SCAT (R295, R296) -/

/-- The registers of a lane's indices, where there are several. -/
def indexRegs (a : LSrc) (n : Nat) : List Nat := if n = 1 then [] else srcGroup a n

/-- A data group of n elements of a width: aligned to the width and within the declared count (R295). -/
def collGroupOk (d n : Nat) (w : Width) (c : Ctx) : Except Stop Unit :=
  demand (d % w.regs == 0 && decide (d + n * w.regs ≤ declared c.ln c.g)) cOperand 2

/-- The data group of a SCAT for a width known at issue. -/
def scatGroupOk (d : LSrc) (n : Nat) (w : Width) (c : Ctx) : Except Stop Unit :=
  if n * w.regs = 1 then .ok ()
  else
    match d with
    | .v r => collGroupOk r.val n w c
    | _ => trapAll cOperand 1

/-- The participating lanes. -/
def collAct (men : Option MReg) (x : Issue) : List LaneIn :=
  match men with
  | none => x.ins
  | some m => x.ins.filter (fun i => i.lane.mbit m.val)

/-- One element of a GATH or SCAT: its lane, its number in the lane, its index. -/
structure CollElem where
  lane : Nat
  j : Nat
  idx : Nat
  deriving DecidableEq, Repr

/-- The elements in ascending lane order, and within a lane in order. -/
def collElems (a : LSrc) (n : Nat) (act : List LaneIn) : List CollElem :=
  act.flatMap (fun i => (List.range n).map (fun j =>
    ⟨i.idx, j, (if n = 1 then i.arg 0 else i.lane.vreg ((indexRegs a n).getD j 0)).toNat⟩))

/-- What the issue of a GATH or SCAT checks, to the handle and the in-bounds elements with their addresses. Poison is none
of it: as an engine's, the read passes it on to its registers (R296, R358). -/
def collCheck (need : Need) (kind : WKind) (men : Option MReg) (a : LSrc) (n : Nat) (x : Issue) :
    Except Stop (Handle × List CollElem × State) := do
  let c := x.c
  let h ← c.handle x.slot
  acceptFmt h anyFmt
  let mb := 4 * x.width.regs
  let els := collElems a n (collAct men x)
  let runs ← laneRuns c h mb mb (els.map (fun e => (e.lane, e.idx)))
  reachLines c x.s h need false runs
  let s ← watchStep c x.s (runEls h kind runs)
  let s ← observeParked c s h runs
  .ok (h, els, s)

/-- The run of an element, if it is in bounds. -/
def CollElem.run (h : Handle) (mb : Nat) (e : CollElem) : Option Run :=
  (laneAddr h e.idx mb).map (fun a => ⟨e.lane, a, mb, e.idx⟩)

/-- The register fills of an element of a GATH. -/
def gathFills (c : Ctx) (s : State) (h : Handle) (d regs : Nat) (e : CollElem) : List LocFill :=
  let locs := match e.run h (4 * regs) with
    | some r => runLocs c s h .r r.va r.n
    | none => []
  (List.range regs).map (fun k => ⟨e.lane, d + regs * e.j + k, locs[4 * k]?⟩)

/-- GATH after its draws. -/
def gathBody (nm1 : Fin 8) (men : Option MReg) (d : VReg) (a : LSrc) (x : Issue) : Except Stop State := do
  let c := x.c
  let r ← collCheck .r .lr men a (nm1.val + 1) x
  let s := r.2.2
  let fills := r.2.1.flatMap (gathFills c s r.1 d.val x.width.regs)
  let acc := acceptOp s c .load (.gath fills none)
  let s := collEnter c acc.1 acc.2 (physLines (fills.filterMap (·.src)))
  .ok (x.commit s (x.ins.map LaneIn.keep) 0)

def execGath (nm1 : Fin 8) (men : Option MReg) (d : VReg) (a : LSrc) (h : HSel) (s : State) : Result :=
  let n := nm1.val + 1
  perLane { LSpec.mk0 (.gath nm1 men d a h) [(.int, a)] (regRange d.val (n * h.regs) ++ indexRegs a n) with
      cls := .load, hsel := some h, widthOk := collGroupOk d.val n, reads := fun _ => indexRegs a n }
    (gathBody nm1 men d a) s

/-- The words that a lane scatters as element j. -/
def scatWords (d : LSrc) (n : Nat) (w : Width) (j : Nat) (i : LaneIn) : List Word :=
  if n * w.regs = 1 then [i.arg 1] else (((srcGroup d (n * w.regs)).map i.lane.vreg).drop (w.regs * j)).take w.regs

/-- The run and bytes of each in-bounds element of a SCAT. -/
def scatData (h : Handle) (d : LSrc) (n : Nat) (w : Width) (x : Issue) (els : List CollElem) : List (Run × List Byte) :=
  els.filterMap (fun e =>
    match e.run h (4 * w.regs), x.ins.find? (fun i => i.idx = e.lane) with
    | some r, some i => some (r, (scatWords d n w e.j i).flatMap (fun v => leBytes 4 v.toNat))
    | _, _ => none)

/-- SCAT after its draws. -/
def scatBody (nm1 : Fin 8) (men : Option MReg) (d a : LSrc) (x : Issue) : Except Stop State := do
  let c := x.c
  let n := nm1.val + 1
  let r ← collCheck .w .lw men a n x
  let ps := scatData r.1 d n x.width x r.2.1
  let bs := storeBytes c r.2.2 r.1 ps
  let s := addDigest r.2.2 c.ln r.1 (storeAddrs ps)
  let acc := acceptOp s c .store (.scat bs)
  let s := collEnter c acc.1 acc.2 (physLines (bs.map (·.loc)))
  .ok (x.commit s (x.ins.map LaneIn.keep) 0)

def execScat (nm1 : Fin 8) (men : Option MReg) (d a : LSrc) (h : HSel) (s : State) : Result :=
  let n := nm1.val + 1
  perLane { LSpec.mk0 (.scat nm1 men d a h) [(.int, a), (.int, d)] (srcGroup d (n * h.regs) ++ indexRegs a n) with
      cls := .store, hsel := some h, widthOk := scatGroupOk d n,
      reads := fun w => indexRegs a n ++ srcGroup d (n * w.regs) }
    (scatBody nm1 men d a) s

/-! ## Completions (R297) -/

/-- Whether a collector operation can take its effect on memory now. -/
def collReady (s : State) (w : Wg) (o : Op) : Bool :=
  !o.done && collServed s w.core o.id && fifoPassed s o && !collOlder s o

/-- GATH_COMPLETE: every register is written, in issue order within the load class. -/
def gathComplete (s : State) (id : Nat) : Option State :=
  match findOp s id with
  | none => none
  | some o =>
      match o.kind, findWg s o.grp.wg with
      | .gath _ (some r), some _ =>
          if !o.done && headsClass s o then some (finishOp (landRegs s o r.1 r.2) id []) else none
      | .gath fills none, some w =>
          if collReady s w o && headsClass s o then
            let s := touchHome s w.core w.owner (fills.filterMap (·.src))
            let r := gathRead s w.core w.owner fills
            some (finishOp (landRegs s o r.1 r.2) id [])
          else none
      | _, _ => none

def execGathComplete (op : Nat) (s : State) : Result := eventOf "GATH_COMPLETE" (gathComplete s op)

/-- SCAT_WRITE: every byte is written. -/
def scatWrite (s : State) (id : Nat) : Option State :=
  match findOp s id with
  | none => none
  | some o =>
      match o.kind, findWg s o.grp.wg with
      | .scat _, some w => if collReady s w o then some (collPerform s w o) else none
      | _, _ => none

def execScatWrite (op : Nat) (s : State) : Result := eventOf "SCAT_WRITE" (scatWrite s op)

/-! ## SISECT (R298–R302) -/

/-- The formats and shape of a stream or output handle (R299). -/
def streamOk (h : Handle) : Bool := hFmt h == 2 && hRank h == 0 && hSwz h == 0 && !hProfile h

/-- A lane of SISECT with its ends clipped to the extents. -/
def siLane (ha hb : Handle) (d : Nat) (i : LaneIn) : SiLane :=
  let r (k : Nat) : Nat := (i.lane.vreg (d + k)).toNat
  ⟨i.idx, r 0, min (r 1) (hExt ha 0), r 2, min (r 3) (hExt hb 0), (i.arg 0).toNat⟩

/-- SISECT after its draws (R299). Its OOB trap names as c0 the end position that lies past the extent: the model's choice of log
entry 123. -/
def sisectBody (ha hb : Slot) (out : Option Slot) (men : Option MReg) (d b : VReg) (x : Issue) : Except Stop State := do
  let c := x.c
  let a1 ← c.handle ha.val
  let b1 ← c.handle hb.val
  let o1 ← match out with
    | some o => Except.map some (c.handle o.val)
    | none => Except.ok (ε := Stop) none
  demand (streamOk a1 && streamOk b1 && (match o1 with | some o => streamOk o | none => true)) cHandle 2
  let act := collAct men x
  let past (i : LaneIn) : Option Nat :=
    let ie := (i.lane.vreg (d.val + 1)).toNat
    let je := (i.lane.vreg (d.val + 3)).toNat
    if hTrapOob a1 && decide (hExt a1 0 < ie) then some ie
    else if hTrapOob b1 && decide (hExt b1 0 < je) then some je
    else none
  match act.filterMap (fun i => (past i).map (fun e => (i.idx, e))) with
  | [] => .ok ()
  | p :: ps =>
      .error (.trap { mkTrap cOob 0 with mask := maskOf ((p :: ps).map (·.1)), coord := coordWords [p.2, 0, 0, 0] })
  let s ← watchStep c x.s []
  let si : SiOp := { ha := a1, hb := b1, oh := o1, d := d.val, b := b.val, lanes := act.map (siLane a1 b1 d.val) }
  let acc := acceptOp s c .load (.sisect si)
  let s := collEnter c acc.1 acc.2 (physLines (siLocs s c.w c.ln si))
  .ok (x.commit s (x.ins.map LaneIn.keep) 0)

def execSisect (ha hb : Slot) (out : Option Slot) (men : Option MReg) (d : VReg) (a : LSrc) (b : VReg) (s : State) :
    Result :=
  perLane { LSpec.mk0 (.sisect ha hb out men d a b) [(.int, a)] (regRange d.val 4 ++ [b.val]) with
      cls := .load, reads := fun _ => regRange d.val 4 } (sisectBody ha hb out men d b) s

/-- What a step of the loop finds at an element (R301): the location, a stop code, or a line to wait for. -/
inductive SiAt where
  | at' (l : Loc)
  | stop (code : Nat)
  | wait
  deriving DecidableEq, Repr

/-- Element n of a stream or output handle. -/
def siAt (s : State) (w : Wg) (ln : Launch) (need : Need) (h : Handle) (n : Nat) : SiAt :=
  let va := hBase h + 4 * n
  if hScratch h then
    if w.scratchSize < va + 4 then .stop 4
    else if !need.writes && w.absent.contains (va / 128) then .wait
    else .at' (.scr w.uid va)
  else
    match translate s ln need (lineOf va) with
    | .ok pa ca mig => if mig && need.writes then .wait else .at' (.mem (pa + va % 256) ca)
    | .page 2 => .stop 2
    | _ => .stop 4

/-- Where the intersection of a lane stands. -/
structure SiPos where
  i : Nat
  j : Nat
  n : Nat
  soft : Bool
  deriving DecidableEq, Repr

/-- One match is written out (R300): the state, or a stop or wait. -/
def siOut (s : State) (w : Wg) (ln : Launch) (oh : Option Handle) (o n x : Nat) (src : List Loc) : State × Option SiAt :=
  match oh with
  | none => (s, none)
  | some h =>
      if hExt h 0 ≤ o + n then (s, some (.stop 3))
      else
        match siAt s w ln .w h (o + n) with
        | .at' l =>
            let bs := (leBytes 4 x).mapIdx (fun k b => (⟨l.plus k, b⟩ : StoreByte))
            (poisonLocs (engineSetAll (clearPoisonFor s bs) (w.core / 4) w.owner bs) src [l], none)
        | r => (s, some r)

/-- The loop of a lane (R300), with the steps that are left: none where a line must be waited for. -/
def siLoop (w : Wg) (ln : Launch) (si : SiOp) (l : SiLane) : Nat → State → SiPos → Option (State × SiPos × Nat)
  | left, s, p =>
      if l.ie ≤ p.i ∨ l.je ≤ p.j then some (s, p, 0)
      else
        match left with
        | 0 => some (s, p, 1)
        | left + 1 =>
            match siAt s w ln .r si.ha p.i with
            | .wait => none
            | .stop c => some (s, p, c)
            | .at' la =>
                match siAt s w ln .r si.hb p.j with
                | .wait => none
                | .stop c => some (s, p, c)
                | .at' lb =>
                    let s := touchHome s w.core w.owner [la, lb]
                    let x := ofBytes (engineBytes s w.core w.owner la 4)
                    let y := ofBytes (engineBytes s w.core w.owner lb 4)
                    let p := { p with soft := p.soft || s.poison.contains (locPoison la) || s.poison.contains (locPoison lb) }
                    if x < y then siLoop w ln si l left s { p with i := p.i + 1 }
                    else if y < x then siLoop w ln si l left s { p with j := p.j + 1 }
                    else
                      match siOut s w ln si.oh l.o p.n x [la, lb] with
                      | (s', none) => siLoop w ln si l left s' { p with i := p.i + 1, j := p.j + 1, n := p.n + 1 }
                      | (_, some (.stop c)) => some (s, p, c)
                      | (_, some _) => none

/-- A lane has stopped: its registers are written (R300). -/
def siWrite (s : State) (o : Op) (si : SiOp) (l : SiLane) (p : SiPos) (stop : Nat) : State :=
  let fs : List Fill :=
    [⟨l.lane, si.d, BitVec.ofNat 32 p.i⟩, ⟨l.lane, si.d + 2, BitVec.ofNat 32 p.j⟩,
      ⟨l.lane, si.b, BitVec.ofNat 32 (stop * 2 ^ 29 + p.n)⟩]
  landRegs s o fs (if p.soft then fs.map (fun f => (f.lane, f.reg)) else [])

/-- The lanes of a SISECT run one after another in ascending order. -/
def siLanes (w : Wg) (ln : Launch) (o : Op) (si : SiOp) : List SiLane → State → Option State
  | [], s => some s
  | l :: ls, s =>
      match siLoop w ln si l 4096 s ⟨l.i, l.j, 0, false⟩ with
      | none => none
      | some (s', p, stop) => siLanes w ln o si ls (siWrite s' o si l p stop)

/-- SISECT_RUN. -/
def sisectRun (s : State) (id : Nat) : Option State :=
  match findOp s id with
  | none => none
  | some o =>
      match o.kind, findCtx s o.grp with
      | .sisect si, some (_, w, ln) =>
          if collReady s w o && headsClass s o then
            match siLanes w ln o si si.lanes s with
            | some s' => some (finishOp s' id [])
            | none => none
          else none
      | _, _ => none

def execSisectRun (op : Nat) (s : State) : Result := eventOf "SISECT_RUN" (sisectRun s op)

end Sys2Proof.Machine
end

