-- ==== Sys2Proof/Machine/TrapOps.lean ====
section
/-! DEFINITION. The instructions of trap mode, TRET, TFRD, TFWR and GEND (R341–R345), and WATCH (R349). -/

namespace Sys2Proof.Machine

/-! ## TRET and GEND (R343, R344) -/

/-- A load's data is written though it does not yet retire. -/
def landLoad (s : State) (o : Op) : State :=
  match o.kind with
  | .load fills => updOp (landRegs s o fills []) o.id (fun o => { o with kind := .load [] })
  | _ => s

/-- The earlier accesses of a group are complete in program order, as they are before the first instruction that it issues after
TRET (R343): the model completes them at once (log entry 126). -/
def completeAccesses (s : State) (k : GKey) : State :=
  let s := drainFifo s k
  (s.ops.filter (fun o => o.grp == k && !o.done)).foldl landLoad s

/-- A group goes back to the code that trapped: its accesses and those of its handler are complete, and the frame is restored. A
team round that waits for a lane that ends here fails (R208); a PST whose second halves no lane will perform is over (R259). -/
def resumeGroup (s : State) (k : GKey) (skip : Bool) (pc : DWord) : State :=
  failTeamRounds (closeStale (returnFromTrap (completeAccesses s k) k skip pc) k)

/-- TRET leaves trap mode; outside it PRIV. Its lanes go where the frame says, so no next word is asked for. -/
def execTret (skip : Bool) (s : State) : Result :=
  match focusCtx s 1 with
  | none => .fault .noGroup
  | some c =>
      c.settle s (do
        demand c.g.trapMode cPriv 1
        .ok (resumeGroup s c.g.key skip c.pc))

/-- GEND ends the group. GEND.REC records the frame's trap as unhandled, with what the policy ends besides. -/
def execGend (rcd : Bool) (s : State) : Result :=
  match focusCtx s 1 with
  | none => .fault .noGroup
  | some c =>
      c.settle s (do
        demand (!rcd || c.g.trapMode) cPriv 1
        let csw := frameGet s c.w c.g.key.g 0 4
        let tpc := c.ln.kernel + BitVec.ofNat 64 (frameGet s c.w c.g.key.g 8 4)
        let s := if rcd then unhandled s c.g.key (csw % 64) (csw / 256 % 256) tpc else s
        .ok (failTeamRounds (endGroupsWhere s (fun k => k == c.g.key))))

/-! ## TFRD and TFWR (R342) -/

/-- An instruction that only trap mode permits. -/
def trapOnly (i : Instr) (body : Ctx → State → Except Stop State) (s : State) : Result :=
  match focusCtx s i.len with
  | none => .fault .noGroup
  | some c =>
      c.settle s (do
        demand c.g.trapMode cPriv 1
        c.fallOk
        let s' ← body c s
        .ok (c.advance s'))

def execTfrd (sd : SReg) (sb : USrc) (s : State) : Result :=
  trapOnly (.tfrd sd sb) (fun c s => do
    let n := (readU c.g sb).toNat
    demand (decide (n < 1024)) cOperand 3
    .ok (updGroup s c.g.key (fun g => g.setS sd.val (BitVec.ofNat 32 (frameGet s c.w c.g.key.g (4 * n) 4))))) s

/-- What a write leaves in frame word n, given its old value (R337, R342): only its RW bits change. -/
def frameWordAfter (g : Group) (n old v : Nat) : Nat :=
  if n = 0 then old - old / 1048576 % 2 * 1048576 + v / 1048576 % 2 * 1048576
  else if n = 8 ∨ n = 9 then v
  else if 64 ≤ n ∧ n < 128 then (if g.live.contains (n - 64) then v else old)
  else if 128 ≤ n ∧ n < 648 then v
  else if n = 648 then v % 64
  else if 656 ≤ n ∧ n < 688 then v
  else old

/-- A write of a saved word of v0–v7 makes it whole (R345, R358). -/
def clearFramePoison (s : State) (k : GKey) (n : Nat) : State :=
  updGroup s k (fun g => { g with vpoison := g.vpoison.filter (fun p => n ≠ 128 + 64 * p.2 + p.1) })

def execTfwr (sd : SReg) (sb : USrc) (s : State) : Result :=
  trapOnly (.tfwr sd sb) (fun c s => do
    let n := (readU c.g sb).toNat
    demand (decide (n < 1024)) cOperand 3
    let old := frameGet s c.w c.g.key.g (4 * n) 4
    let s := clearFramePoison s c.g.key n
    .ok (frameSet s c.w c.g.key.g (4 * n) 4 (frameWordAfter c.g n old (c.g.sreg sd.val).toNat))) s

/-! ## WATCH (R349) -/

/-- The RAW handle of a WATCH operand. -/
def watchHandle (c : Ctx) (v : Word) : Except Stop Handle := do
  let h ← c.handle (uSlot v)
  acceptFmt h [0]
  .ok h

/-- Puts a watch slot of a workgroup, in the workgroup and in its save record, whose watch slots are current while it is
resident (R349, R354); a zero slot is not listed. -/
def setWatch (s : State) (uid n : Nat) (d : BitVec 256) : State :=
  let s := updWg s uid (fun w => { w with watch := mapSet 0 w.watch n d })
  match findWg s uid with
  | some w => keyedSetNum s w.owner (recordBase s w + 256 + 32 * n) 32 d.toNat
  | none => s

def execWatchLoad (n : Fin 8) (sb : USrc) (s : State) : Result :=
  uniform (.watchLoad n sb) (fun c s => do
    let v := readU c.g sb
    let h ← watchHandle c v
    let r ← tableRun c s h (uIndex v) 32 32
    let q := tableBytes c r.2 h r.1 32
    let d : BitVec 256 := BitVec.ofNat 256 (ofBytes q.1)
    thereafter r.2 (demand (watchValid d) cOperand 7)
    .ok (setWatch q.2 c.w.uid n.val d)) s

/-- A run of n bytes at an index that the population writes, aligned; TRAPOOB is ignored and no watch acts. -/
def tableStoreRun (c : Ctx) (s : State) (h : Handle) (i n align : Nat) (need : Need) : Except Stop (Run × State) :=
  wholePop (do
    match laneAddr h i n with
    | none => oobTrap h [(0, i)]
    | some a => do
        demand (a % align == 0) cAlign 0
        let run : Run := ⟨0, a, n, i⟩
        if hScratch h then spCheck c [run] else .ok ()
        reach c s h need false [run]
        let s ← watchStep c s []
        let s ← observeParked c s h [run]
        .ok (run, s))

def execWatchStore (n : Fin 8) (sb : USrc) (s : State) : Result :=
  uniform (.watchStore n sb) (fun c s => do
    classRoom c s .store
    let v := readU c.g sb
    let h ← watchHandle c v
    let r ← tableStoreRun c s h (uIndex v) 32 32 .w
    .ok (popStore c r.2 h none false (some r.1) (wordsOf (leBytes 32 (mapGet 0 c.w.watch n.val).toNat)))) s

def execWatchClr (n : Fin 8) (s : State) : Result :=
  uniform (.watchClr n) (fun c s => .ok (setWatch s c.w.uid n.val 0)) s

end Sys2Proof.Machine
end

