-- ==== Sys2Proof/Machine/Queue.lean ====
section
/-! DEFINITION. Launch queues (R310, R311), the instructions LAUNCH and TAPEPUSH (R329–R331), tape runs (R332), taking a
launch for dispatch (R312), and its completion (R311, R325). -/

namespace Sys2Proof.Machine

/-! ## Launch records (R310) -/

def recNext (s : State) (pa : Nat) : Nat := plainNum s pa 8
def recKernel (s : State) (pa : Nat) : Nat := plainNum s (pa + 8) 8
def recHtab (s : State) (pa : Nat) : Nat := plainNum s (pa + 16) 8
def recRegion (s : State) (pa : Nat) : Nat := plainNum s (pa + 24) 8
def recNwg (s : State) (pa : Nat) : Nat := plainNum s (pa + 32) 4
def recGpw (s : State) (pa : Nat) : Nat := plainNum s (pa + 36) 1
def recLidx (s : State) (pa : Nat) : Nat := plainNum s (pa + 40) 4

/-- Writes STATE of a record, bits [307:304] of it; REASON and the reserved bits keep what they hold. -/
def recSetState (s : State) (pa st : Nat) : State :=
  plainSetNum s (pa + 38) 1 (plainNum s (pa + 38) 1 / 16 * 16 + st)

/-- Writes STATE := REFUSED and REASON, bits [315:308], of a record (R312). -/
def recRefuse (s : State) (pa reason : Nat) : State :=
  plainSetNum s (pa + 38) 2 (plainNum s (pa + 38) 2 / 4096 * 4096 + 16 * reason + 4)

/-- A reserved bit of a record is set. -/
def recReserved (s : State) (pa : Nat) : Bool :=
  plainNum s (pa + 37) 1 != 0 || plainNum s (pa + 39) 1 / 16 != 0 || plainNum s (pa + 44) 4 != 0
    || plainNum s (pa + 56) 8 != 0

/-- The completion record of a launch, KIND 1 (R372). -/
def completionNotif (rcd st lidx reason digest : Nat) : Notif :=
  { notif 1 rcd digest (lidx + 2 ^ 32 * reason) with status := st }

/-- Whether the module owns a record: from enqueue to completion (R310). -/
def recOwned (s : State) (pa : Nat) : Bool := s.queued.any (fun q => q.recPa == pa) || s.launches.any (fun l => l.recPa == pa)

/-! ## Queues (R311) -/

def rcbSetHead (s : State) (region v : Nat) : State := plainSetNum s (region + 64) 8 v
def rcbSetTail (s : State) (region v : Nat) : State := plainSetNum s (region + 72) 8 v
def rcbSetTapesp (s : State) (region v : Nat) : State := plainSetNum s (region + 52) 4 v

/-- Links a record after QTAIL, or at the queue's head. -/
def linkRecord (s : State) (region pa : Nat) (atHead : Bool) : State :=
  let h := rcbQhead s region
  let t := rcbQtail s region
  if h = 0 ∨ t = 0 then rcbSetTail (rcbSetHead s region pa) region pa
  else if atHead then rcbSetHead (plainSetNum s pa 8 h) region pa
  else rcbSetTail (plainSetNum s t 8 pa) region pa

/-- Enqueueing (R311): the state and the launch index. -/
def enqueue (s : State) (region pa : Nat) (after : Option Nat) (tape : Bool) : State × Nat :=
  let lidx := rcbLcount s region
  let s := plainSetNum s pa 8 0
  let s := recSetState s pa 0
  let s := plainSetNum s (pa + 40) 4 lidx
  let s := plainSetNum s (region + 80) 4 ((lidx + 1) % 2 ^ 32)
  let s := linkRecord s region pa tape
  ({ s with seq := s.seq + 1, queued := s.queued ++ [⟨pa, region, s.seq, after, tape⟩] }, lidx)

/-- A record leaves its region's queue. -/
def unlinkRecord (s : State) (region pa : Nat) : State :=
  let next := recNext s pa
  let recs := (s.queued.filter (fun q => q.region = region)).map (·.recPa)
    ++ (s.launches.filter (fun l => l.region = region)).map (·.recPa)
  let prev := recs.find? (fun p => p != pa && recNext s p == pa)
  let s := if rcbQhead s region = pa then rcbSetHead s region next
    else match prev with
      | some p => plainSetNum s p 8 next
      | none => s
  if rcbQtail s region = pa then rcbSetTail s region (prev.getD 0) else s

/-- Whether a region or an ancestor is STOPPED. -/
def chainStopped (s : State) (chain : List Nat) : Bool := chain.any (rcbStopped s)

/-- A host's launch post (R311, R371). -/
def postLaunch (s : State) (a : Nat) : State :=
  if a % 128 ≠ 0 ∨ inNear s a 128 = false then post s (completionNotif a 4 0 2 0)
  else
    match rcbChain s (recRegion s a) with
    | none =>
        let s := recRefuse s a 1
        let s := plainSetNum s (a + 40) 4 0xFFFFFFFF
        post s (completionNotif a 4 0xFFFFFFFF 1 0)
    | some _ => (enqueue s (recRegion s a) a none false).1

/-- Whether a host's transactions reach memory and the doorbell: the module is in service and a port of the link is up (R4,
R366, R377). -/
def linkUp (s : State) : Bool := s.boot.step == 10 && s.mcb.portup != 0

/-- LAUNCH_POST. Before the module is in service the doorbell drops the write (R377), and where no port is up no post reaches
the module. -/
def execLaunchPost (addr : DWord) (s : State) : Result :=
  if linkUp s then
    if recOwned s addr.toNat then .refused .recordOwned else .next (postLaunch s addr.toNat)
  else .next s

/-! ## LAUNCH (R329) -/

/-- A release at SYSTEM scope of the group's earlier accesses (R268): its FIFO empties, and its core's L1 is written
back. -/
def releaseSystem (c : Ctx) (s : State) : State := l1WriteBackAll (drainFifo s c.g.key) c.w.core

/-- The handle, run and translation of a record operand of n bytes. -/
def recordRun (c : Ctx) (s : State) (v : Word) (n : Nat) : Except Stop (Handle × Run × State) := do
  let h ← c.handle (uSlot v)
  acceptFmt h [0]
  demand (!hScratch h) cHandle 2
  let r ← tableStoreRun c s h (uIndex v) n n .rw
  .ok (h, r.1, r.2)

/-- The RCBs met from a region upward: up to 8, each valid in itself (R329). -/
def metRcbs (s : State) : Nat → Nat → List Nat
  | 0, _ => []
  | n + 1, pa => if rcbOk s pa then pa :: (if rcbParent s pa = 0 then [] else metRcbs s n (rcbParent s pa)) else []

/-- LAUNCH up to its acceptance: the physical address of the record, its region, and the state, in which the non-temporal stores
of the record that the core still held are at their home, so that the group reads its own (R256), and its line is out of L1
(R277). A record whose page lies in
the pool, where R379 wants none and R329 names no trap, is enqueued at its pool address (log entry 122). -/
def launchCheck (v : Word) (c : Ctx) (s : State) : Except Stop (Nat × Nat × State) := do
  let r ← recordRun c s v 128
  let pa := match locOf r.2.2 c.ln .rw r.2.1.va with | .mem p _ => p | .scr _ _ => 0
  let s1 := l1Drop (wcOutRange (releaseSystem c r.2.2) c.w.core pa (pa + 128)) c.w.core (lineOf pa)
  let g := recRegion s1 pa
  thereafter s1 (demand ((metRcbs s1 8 g).contains c.ln.region) cPriv 2)
  .ok (pa, g, s1)

/-- LAUNCH after its acceptance. -/
def launchBody (after : Bool) (sd : SReg) (v : Word) (c : Ctx) (s : State) : Except Stop State := do
  let r ← launchCheck v c s
  let put (s : State) (n : Nat) : State := updGroup s c.g.key (fun g => g.setS sd.val (BitVec.ofNat 32 n))
  if chainStopped r.2.2 (metRcbs r.2.2 8 r.2.1) then .ok (put r.2.2 0xFFFFFFFF)
  else
    let s2 := clusterDrop r.2.2 (c.w.core / 4) (lineOf r.1)
    let e := enqueue s2 r.2.1 r.1 (if after then some c.ln.uid else none) false
    .ok (put e.1 e.2)

/-- Whether a LAUNCH at the focus would enqueue a record that the module owns: no outcome is defined (R310). With the chain
STOPPED it writes no record (R329). -/
def launchOwned (i : Instr) (v : Ctx → Word) (s : State) : Bool :=
  match focusCtx s i.len with
  | none => false
  | some c =>
      match c.fallOk, launchCheck (v c) c s with
      | .ok (), .ok r => recOwned s r.1 && !chainStopped r.2.2 (metRcbs r.2.2 8 r.2.1)
      | _, _ => false

def execLaunch (after : Bool) (sd : SReg) (sb : USrc) (s : State) : Result :=
  if launchOwned (.launch after sd sb) (fun c => readU c.g sb) s then .refused .recordOwned
  else uniform (.launch after sd sb) (fun c s => launchBody after sd (readU c.g sb) c s) s

/-! ## TAPEPUSH (R331) -/

/-- TAPEPUSH. The stack line is translated where the stack has room for the record; the push is a store of the group, behind its
earlier ones of that line (R255, R297). -/
def tapepushBody (endF : Bool) (sd : SReg) (v : Word) (c : Ctx) (s : State) : Except Stop State := do
  let r ← recordRun c s v 64
  let s := r.2.2
  let sp := rcbTapesp s c.ln.region
  let room := decide (sp < c.ln.tapecap)
  let va := c.ln.tapeb.toNat + 64 * sp
  if room then
    let x : XLine := ⟨c.act.headD 0, lineOf va, translate s c.ln .w (lineOf va)⟩
    thereafter s (wholePop (xlCheck [x] [x]))
  else .ok ()
  thereafter s (demand (!rcbTapeRun s c.ln.region) cPriv 3)
  let q := tableBytes c s r.1 r.2.1.va 64
  let to' := runLocs c s r.1 .w va 64
  let s := drainFifo (if room then settleFor c q.2 to' else q.2) c.g.key
  let push (s : State) : State :=
    let bs := (to'.zip q.1).map (fun p => (⟨p.1, p.2⟩ : StoreByte))
    rcbSetTapesp (bs.foldl (fun s b => storeByteOut s c.w.core c.w.owner b) (clearPoisonFor s bs)) c.ln.region (sp + 1)
  let s := if room then push s else s
  let s := if endF then updLaunch s c.ln.uid (fun l => { l with endFwd := true }) else s
  .ok (updGroup s c.g.key (fun g => g.setS sd.val (BitVec.ofNat 32 (bitOf room))))

def execTapepush (endF : Bool) (sd : SReg) (sb : USrc) (s : State) : Result :=
  uniform (.tapepush endF sd sb) (fun c s => tapepushBody endF sd (readU c.g sb) c s) s

/-! ## Taking a launch (R312) -/

/-- A launch with nothing in it, for translations of a region (R379). -/
def Launch.blank (root owner : Nat) : Launch :=
  { uid := 0, recPa := 0, region := 0, chain := [], caps := [], order := 0, tape := false, ptroot := root, seedA := 0,
    seedB := 0, traph := 0, tapeb := 0, tapecap := 0, prio := 0, det := false, fdp := 0, owner := owner, watch := [],
    kernel := 0, width := 0, nregs := 0, scratch := 0, accRows := 0, bslots := 0, teams := [], codeLen := 0, dataOfs := 0,
    nwg := 0, gpw := 0, lidx := 0, params := [], handles := [], unplaced := [], live := 0, faulted := false, digest := 0,
    endFwd := false, slice := 0, sliceLeft := none, behind := none }

/-- The translation context of a region. -/
def regionLaunch (s : State) (chain : List Nat) : Launch :=
  Launch.blank (resolved s chain 0 127 64) (resolved s chain 7 461 456)

/-- The bytes of a virtual run as the module reads them; none where a line fails. -/
def virtBytes (s : State) (ln : Launch) (va n : Nat) : Option (List Byte) :=
  if ksOk s ln .r va n then
    some ((ksLocs s ln .r va n).map (fun l => match l with
      | .mem pa _ => homeByte s (keyOr s ln.owner) pa
      | .scr _ _ => 0))
  else none

/-- Copies the entries of a table that cover a virtual range from memory to the walk's view, and the tables below. The
table maps addresses from `va0` on. -/
def syncTable (lo hi : Nat) : Nat → Nat → Nat → State → State
  | l, table, va0, s =>
      let listed := dedup ((cellsIn s.mem table (tableSize l) ++ cellsIn s.xmem table (tableSize l)).map (fun c => c.1 / 8))
      let hit := listed.filter (fun i => decide (va0 + levelSpan l * i < hi) && decide (lo < va0 + levelSpan l * (i + 1)))
      hit.foldl (fun s i =>
        let e := memNum s.mem (table + 8 * i) 8
        let s := { s with xmem := memPutBlock s.xmem (table + 8 * i) 8 (cellsIn s.mem (table + 8 * i) 8) }
        match l with
        | 0 => s
        | l' + 1 =>
            if ebit e 0 && !ebit e 2 then syncTable lo hi l' (entryAddr e) (va0 + levelSpan (l' + 1) * i) s else s) s

/-- The walk's view takes the tables of a root as memory now holds them, for a virtual range (R62). -/
def syncRange (s : State) (root lo hi : Nat) : State := syncTable lo hi 3 root 0 s

/-- Whether the walk's view lists an entry of a root table: the root has been in use before. -/
def rootSeen (s : State) (root : Nat) : Bool := !(cellsIn s.xmem root (tableSize 3)).isEmpty

/-- The launch that a record asks for, with its region's fields resolved (R308, R310). -/
def resolveLaunch (s : State) (q : Queued) (chain : List Nat) (uid : Nat) : Launch :=
  let r := fun k hi lo => resolved s chain k hi lo
  { Launch.blank (r 0 127 64) (r 7 461 456) with
    uid := uid, recPa := q.recPa, region := q.region, chain := chain
    caps := chain.mapIdx (fun i _ => resolved s (chain.drop i) 8 472 464)
    order := q.order, tape := q.tape
    seedA := BitVec.ofNat 64 (r 1 191 128), seedB := BitVec.ofNat 64 (r 1 255 192), traph := BitVec.ofNat 64 (r 2 319 256)
    tapeb := BitVec.ofNat 64 (r 3 383 320), tapecap := r 3 415 384, prio := r 4 450 448, det := r 5 451 451 == 1
    fdp := r 6 453 452, watch := resolvedWatch s chain
    slice := 1024 * rcbField s (chain.getLastD 0) (1055 + 32 * r 4 450 448) (1024 + 32 * r 4 450 448)
    kernel := BitVec.ofNat 64 (recKernel s q.recPa), nwg := recNwg s q.recPa, gpw := recGpw s q.recPa
    lidx := BitVec.ofNat 32 (recLidx s q.recPa)
    params := (List.range 16).map (fun i => BitVec.ofNat 32 (plainNum s (q.recPa + 64 + 4 * i) 4))
    live := recNwg s q.recPa }

/-- The launch with the fields of its kernel header (R31). -/
def Launch.withHeader (l : Launch) (h : Nat) : Launch :=
  { l with
    width := hdWidth h, nregs := hdRegs h, scratch := hdScratch h, accRows := hdAccRows h, bslots := hdBslots h
    teams := hdTeams h, codeLen := hdCodeLen h, dataOfs := hdDataOfs h }

/-- The slots of a handle table, zero ones unlisted. -/
def htabSlots (bs : List Byte) : SMap Handle :=
  (List.range 64).foldl (fun m n => mapSet 0 m n (BitVec.ofNat 1024 (ofBytes ((bs.drop (128 * n)).take 128)))) []

/-- The groups of one launch that an empty partition takes (R314). -/
def partRoom (width nregs : Nat) : Nat := min 32 (min 8 (256 / nregs) * (64 / width))

/-- The conditions of R312 beyond the chain, each with its code, given the header and the handle table as read. -/
def refusals (s : State) (l : Launch) (kOk tOk : Bool) (hd : Option Nat) (tab : Option (List Byte)) : List (Nat × Bool) :=
  let w := l.withHeader (hd.getD 0)
  let known := hd.isSome && headerOk (hd.getD 0)
  [(2, (kOk && hd.isNone) || (tOk && tab.isNone)),
   (3, hd.isSome && !headerOk (hd.getD 0)),
   (4, match tab with | some bs => (htabSlots bs).any (fun p => (handleFault p.2).isSome) | none => false),
   (5, l.gpw == 0 || decide (64 < l.gpw) || recReserved s l.recPa || !kOk || !tOk),
   (6, known && decide (2 ^ 40 ≤ l.nwg * l.gpw * w.width)),
   (7, known && decide (l.gpw * (w.width / 8) < w.teams.foldl (· + ·) 0)),
   (8, known && (decide (16 * partRoom w.width w.nregs < l.gpw) || decide (s.mcb.saven < recordUnits w))),
   (9, l.watch.any (fun p => !watchValid p.2))]

/-- The lowest failing code and the launch with all its fields (R312). -/
def judge (s : State) (l : Launch) : Option Nat × Launch :=
  let kOk := l.kernel.toNat % 256 == 0
  let htab := recHtab s l.recPa
  let tOk := htab % 128 == 0
  let hd := if kOk then (virtBytes s l l.kernel.toNat 64).map ofBytes else none
  let tab := if tOk then (if htab = 0 then some [] else virtBytes s l htab 8192) else none
  (((refusals s l kOk tOk hd tab).find? (fun p => p.2)).map (·.1),
   { l.withHeader (hd.getD 0) with handles := htabSlots (tab.getD []) })

/-- The dispatcher reads the kernel header of a launch and its handle table, as far as they stand where they may (R31, R51,
R310). -/
def touchLaunch (s : State) (l : Launch) : State :=
  let htab := recHtab s l.recPa
  let s := if l.kernel.toNat % 256 = 0 ∧ ksOk s l .r l.kernel.toNat 64 = true then virtTouch s l .r l.kernel.toNat 64 else s
  if htab % 128 = 0 ∧ htab ≠ 0 ∧ ksOk s l .r htab 8192 = true then virtTouch s l .r htab 8192 else s

/-- A launch that is refused: STATE, REASON and the completion record (R312). -/
def refuseLaunch (s : State) (q : Queued) (reason : Nat) : State :=
  let s := recRefuse s q.recPa reason
  let s := post s (completionNotif q.recPa 4 (recLidx s q.recPa) reason 0)
  let s := unlinkRecord s q.region q.recPa
  { s with queued := s.queued.filter (fun x => x ≠ q) }

/-- Whether a launch of a deterministic region would be taken before an earlier one of its region (R322). -/
def overtakes (s : State) (q : Queued) : Bool :=
  (rcbChain s q.region).any (fun c =>
    resolved s c 5 451 451 == 1 && s.queued.any (fun x => x.region == q.region && decide (x.order < q.order)))

/-- Whether a queued launch can be taken: what it comes after has completed, its region's tape run lets it (R313), and
its region is not deterministic with an earlier one queued. -/
def takeable (s : State) (q : Queued) : Bool :=
  (match q.after with
   | some uid => (findLaunch s uid).isNone
   | none => true)
  && (q.tape || (!rcbTapeRun s q.region && !overtakes s q))

/-- The priority of a queued launch's region; 0 where its chain is not valid. -/
def queuedPrio (s : State) (q : Queued) : Nat :=
  ((rcbChain s q.region).map (fun c => resolved s c 4 450 448)).getD 0

/-- The queued launch that is served next (R313). -/
def nextQueued (s : State) : Option Queued :=
  (s.queued.filter (takeable s)).foldl (fun b q =>
    match b with
    | none => some q
    | some x => if queuedPrio s x < queuedPrio s q ∨ (queuedPrio s x = queuedPrio s q ∧ q.order < x.order) then some q else some x) none

/-! ## Tape runs (R332) -/

/-- The completion of a tape run: KIND 7, and the same entry at TCOMPL. -/
def tapeEnd (s : State) (region failing : Nat) : State :=
  let s := rcbSetBit s region 1 false
  let n := notif 7 region failing (rcbTapesp s region)
  let s := match rcbChain s region with
    | none => s
    | some c =>
        let ln := regionLaunch s c
        let va := rcbTcompl s region
        if va ≠ 0 ∧ ksOk s ln .w va 32 = true then
          engineOut s ln.owner (((ksLocs s ln .w va 32).zip n.bytes).map (fun p => ⟨p.1, p.2⟩))
        else s
  post s n

/-- The 128 bytes of the record that a tape run forms at TAREA. -/
def tapeRecord (region : Nat) (t : List Byte) : List Byte :=
  let at' (lo n : Nat) : List Byte := (t.drop lo).take n
  leBytes 8 0 ++ at' 0 8 ++ at' 8 8 ++ leBytes 8 region ++ at' 16 4 ++ at' 20 1 ++ List.replicate 27 0 ++ at' 32 32
    ++ List.replicate 32 0

/-- The physical address of TAREA and the cache attribute of its page, where it can be written (R51, R332). -/
def tapeArea (s : State) (ln : Launch) (region : Nat) : Option (Nat × Nat) :=
  let va := rcbTarea s region
  if va = 0 ∨ va % 128 ≠ 0 then none
  else
    match translate s ln .w (lineOf va) with
    | .ok pa ca _ => some (pa + va % 256, ca)
    | _ => none

/-- The next turn of a tape run of a region with this chain: a record is popped and enqueued, or the run ends. -/
def tapeTurn (s : State) (region : Nat) : Option (List Nat) → State
  | none => tapeEnd s region 0
  | some c =>
      let ln := regionLaunch s c
      let sp := rcbTapesp s region
      if sp = 0 then tapeEnd s region 0
      else
        let at' := resolved s c 3 383 320 + 64 * (sp - 1)
        match tapeArea s ln region, virtBytes s ln at' 64 with
        | some (pa, ca), some t =>
            let s := rcbSetTapesp (virtTouch s ln .r at' 64) region (sp - 1)
            let s := ownSetBytes s ln.owner ca pa (tapeRecord region t)
            (enqueue s region pa none true).1
        | _, _ => tapeEnd s region 0

/-- The next turn of a tape run. -/
def tapeNext (s : State) (region : Nat) : State := tapeTurn s region (rcbChain s region)

/-- A tape run starts, unless one is in progress; TAREA is checked before the first pop. -/
def tapeStart (s : State) (region : Nat) : State :=
  if rcbTapeRun s region then s
  else
    let s := rcbSetBit s region 1 true
    match rcbChain s region with
    | none => tapeEnd s region 0
    | some c => if (tapeArea s (regionLaunch s c) region).isNone then tapeEnd s region 0 else tapeNext s region

/-- LAUNCH_TAKE: the launch served next is taken, and refused or made ready for placement. -/
def takeLaunch (s : State) : Option State :=
  match nextQueued s with
  | none => none
  | some q =>
      let refuse (s : State) (r : Nat) : State :=
        let s := refuseLaunch s q r
        if q.tape then tapeEnd s q.region q.recPa else s
      match rcbChain s q.region with
      | none => some (refuse s 1)
      | some chain =>
          if chainStopped s chain then some (refuse s 1)
          else
            let f := freshId s
            let l0 := resolveLaunch f.2 q chain f.1
            let s := if rootSeen f.2 l0.ptroot then f.2 else syncRange f.2 l0.ptroot 0 (2 ^ 60)
            let j := judge s l0
            let s := touchLaunch s l0
            match j with
            | (some r, _) => some (refuse s r)
            | (none, l) =>
                let s := recSetState s q.recPa 1
                some { s with
                  queued := s.queued.filter (fun x => x ≠ q)
                  launches := s.launches ++ [{ l with unplaced := List.range l.nwg }] }

def execLaunchTake (s : State) : Result := eventOf "LAUNCH_TAKE" (takeLaunch s)

/-! ## Completion (R311, R325, R332) -/

/-- Every L1 is written back and every write-combining buffer emptied. -/
def flushCores (s : State) : State :=
  (s.cores.map (·.1)).foldl (fun s c => l1WriteBackAll (wcOut s c (fun _ => true)) c) s

/-- What follows a completed launch: its tape run goes on or stops, or its own mark starts one. -/
def afterLaunch (s : State) (l : Launch) : State :=
  if l.tape then (if l.faulted then tapeEnd s l.region l.recPa else tapeNext s l.region)
  else if l.endFwd then
    (if bit s.mcb.mode 2 then post s (notif 4 l.region l.recPa 0) else tapeStart s l.region)
  else s

/-- LAUNCH_COMPLETE: every workgroup has ended. A completion that finds the notification ring full is held, and the launch
stays RUNNING meanwhile (R372). -/
def completeLaunch (s : State) (uid : Nat) : Option State :=
  match findLaunch s uid with
  | none => none
  | some l =>
      if l.live = 0 ∧ l.unplaced = [] ∧ ¬(queueNamed s.mcb = true ∧ (queueFull s.mcb = true ∨ s.held ≠ [])) then
        let s := flushCores s
        let s := plainSetNum s (l.recPa + 48) 8 l.digest.toNat
        let st := if l.faulted then 3 else 2
        let s := recSetState s l.recPa st
        let s := post s (completionNotif l.recPa st l.lidx.toNat 0 l.digest.toNat)
        let s := unlinkRecord s l.region l.recPa
        some (afterLaunch { s with launches := s.launches.filter (fun x => x.uid ≠ uid) } l)
      else none

def execLaunchComplete (launch : Nat) (s : State) : Result := eventOf "LAUNCH_COMPLETE" (completeLaunch s launch)

end Sys2Proof.Machine
end

