-- ==== Sys2Proof/Machine/Place.lean ====
section
/-! DEFINITION. Placement of workgroups (R313–R315), pre-emption, save and restore (R316, R317, R351–R355), the end of
groups and workgroups (R170), soft errors (R358), and promotions (R319, R321). -/

namespace Sys2Proof.Machine

/-! ## What is resident -/

/-- The workgroups that occupy a core: resident or stopping. -/
def residents (s : State) : List Wg := s.wgs.filter (fun w => w.status != .saved)
def onCore (s : State) (core : Nat) : List Wg := (residents s).filter (fun w => w.core = core)
def onCluster (s : State) (cl : Nat) : List Wg := (residents s).filter (fun w => w.core / 4 = cl)

/-- The sum of a measure over a list. -/
def sumOf {α : Type} (f : α → Nat) (l : List α) : Nat := (l.map f).foldl (· + ·) 0

/-- The launches resident on a cluster, with one more. -/
def clusterLaunches (s : State) (cl uid : Nat) : List Nat := dedup (uid :: (onCluster s cl).map (·.launch))

/-- The distinct cores that launches of a region's subtree occupy (R313). -/
def coresOf (s : State) (region : Nat) : List Nat :=
  dedup ((residents s).filterMap (fun w =>
    match findLaunch s w.launch with
    | some l => if l.chain.contains region then some w.core else none
    | none => none))

/-- The conditions of R313 beside the groups' places and the save record. -/
def roomOn (s : State) (l : Launch) (core : Nat) : Bool :=
  let cl := core / 4
  decide ((onCore s core).length < 16)
    && decide (sumOf (·.scratchSize) (onCore s core) + 128 * l.scratch ≤ 1048576)
    && decide (sumOf (·.accRows) (onCluster s cl) + l.accRows ≤ 2048)
    && decide (sumOf (fun u => match findLaunch s u with | some x => x.bslots | none => 0) (clusterLaunches s cl l.uid) ≤ 256)
    && (l.chain.zip l.caps).all (fun p => decide ((dedup (core :: coresOf s p.1)).length ≤ p.2))

/-! ## Slots of the partitions (R314) -/

/-- A group's place: partition, slot and lane offset. -/
structure GPlace where
  launch : Nat
  nregs : Nat
  part : Nat
  slot : Nat
  off : Nat
  deriving DecidableEq, Repr

/-- The places taken on a core. -/
def placesOn (s : State) (core : Nat) : List GPlace :=
  (onCore s core).flatMap (fun w => (groupsOf s w.uid).map (fun g =>
    ⟨w.launch, match findLaunch s w.launch with | some l => l.nregs | none => 0, g.part, g.slot, g.laneOff⟩))

/-- The occupied slots of a partition, each with its registers. -/
def slotsIn (ps : List GPlace) (p : Nat) : List (Nat × Nat) :=
  dedup ((ps.filter (fun x => x.part = p)).map (fun x => (x.slot, x.nregs)))

/-- A free lane offset of a slot. -/
def freeOff (ps : List GPlace) (width p sl : Nat) : Option Nat :=
  ((List.range (64 / width)).map (· * width)).find? (fun o => !ps.any (fun x => x.part == p && x.slot == sl && x.off == o))

/-- A free place in an open slot of the launch: the lowest partition, slot and offset that has one, the model's choice of log entry
136. -/
def openPlace (ps : List GPlace) (l : Launch) : Option GPlace :=
  firstSome ((List.range 16).flatMap (fun p => (List.range 8).map (fun sl =>
    if ps.any (fun x => x.part == p && x.slot == sl && x.launch == l.uid)
        && decide ((ps.filter (fun x => x.part = p)).length < 32) then
      (freeOff ps l.width p sl).map (fun o => ⟨l.uid, l.nregs, p, sl, o⟩)
    else none)))

/-- A new slot, in the partition with the fewest occupied slots. -/
def newPlace (ps : List GPlace) (l : Launch) : Option GPlace :=
  let can := (List.range 16).filter (fun p =>
    decide ((slotsIn ps p).length < 8) && decide (sumOf (·.2) (slotsIn ps p) + l.nregs ≤ 256)
      && decide ((ps.filter (fun x => x.part = p)).length < 32))
  let best := can.foldl (fun (b : Option Nat) p =>
    match b with
    | none => some p
    | some q => if (slotsIn ps p).length < (slotsIn ps q).length then some p else some q) none
  match best with
  | none => none
  | some p =>
      ((List.range 8).find? (fun sl => !(slotsIn ps p).any (fun x => x.1 == sl))).map (fun sl => ⟨l.uid, l.nregs, p, sl, 0⟩)

/-- Places for n groups, one after another. -/
def placesFor (l : Launch) : Nat → List GPlace → Option (List GPlace)
  | 0, _ => some []
  | n + 1, ps =>
      match (match openPlace ps l with | some x => some x | none => newPlace ps l) with
      | none => none
      | some x => (placesFor l n (ps ++ [x])).map (x :: ·)

/-! ## Save records (R354) -/

/-- The first unit of a free run of n units. -/
def freeRun (s : State) (n : Nat) : Option Nat :=
  (List.range (s.mcb.saven + 1)).find? (fun u =>
    decide (u + n ≤ s.mcb.saven) && s.wgs.all (fun w => decide (u + n ≤ w.recUnit) || decide (w.recUnit + w.recUnits ≤ u)))

/-- The header and watch slots of a save record, which are current while the workgroup is resident. -/
def recordHead (l : Launch) (w : Wg) (st : Nat) : SMap Byte :=
  let h := [(0, 8, l.recPa), (8, 4, w.index), (12, 4, l.gpw), (16, 4, l.width), (20, 4, l.nregs), (24, 4, l.scratch),
    (28, 4, l.accRows), (32, 4, l.bslots), (36, 4, st), (40, 8, w.uid)]
  let ws := w.watch.map (fun p => (256 + 32 * p.1, 32, p.2.toNat))
  (h ++ ws).foldl (fun b f => blockPut b f.1 f.2.1 f.2.2) []

/-- Writes the header and watch slots of a workgroup's record, and the zeros up to its handle table. -/
def writeHead (s : State) (l : Launch) (w : Wg) (st : Nat) : State :=
  putBlockKeyed s (keyOr s w.owner) (recordBase s w) 0x2000 (recordHead l w st)

/-! ## Placing a workgroup (R144, R180, R315) -/

/-- The key of a thread (R180). -/
def threadKey (l : Launch) (wgIndex g lane : Nat) : DWord × DWord :=
  let t := (wgIndex * l.gpw + g) * l.width + lane
  let n := l.lidx.toNat % 2 ^ 22 * 2 ^ 40 + t
  (streamF l.seedA l.seedB (BitVec.ofNat 64 (2 * n)), streamF l.seedA l.seedB (BitVec.ofNat 64 (2 * n + 1)))

/-- A lane at its start. -/
def freshLane (l : Launch) (wgIndex g lane : Nat) : Lane :=
  let k := threadKey l wgIndex g lane
  { pc := l.kernel + 64, exited := false, v := [], m := 0, ka := k.1, kb := k.2, pos0 := 0, pos1 := 0, pos2 := 0, pos3 := 0 }

/-- The parameter words in s0–s15, zero ones unlisted. -/
def paramRegs (ps : List Word) : SMap Word :=
  (ps.mapIdx (fun i v => (i, v))).foldl (fun m p => mapSet 0 m p.1 p.2) []

/-- A group at its start (R144). -/
def freshGroup (l : Launch) (uid wgIndex g : Nat) (p : GPlace) : Group :=
  { key := ⟨uid, g⟩, launch := l.uid, lanes := (List.range l.width).map (freshLane l wgIndex g), s := paramRegs l.params
    fps := 0, ds := [], gn := [], qt := [], trapMode := false, handler := 0, handlerN := 0, handlerLen := 0, frozen := false
    eop := 0, issued := [], fifo := [], wskip := [], half := [], openPst := [], vpoison := [], era := 0, waited := [], parks := [], holds := [], teamFails := []
    rounds := [], part := p.part, slot := p.slot, laneOff := p.off }

/-- Drops the lines of a core's L1 that an owner could read, dirty bytes written back (R315). -/
def dropOwned (s : State) (core owner : Nat) : State :=
  (((coreOf s core).l1.filter (fun x => x.owner = owner)).map (·.base)).foldl (fun s b => l1Drop s core b) s

/-- The issue slots that some places open are listed. -/
def openSlots (s : State) (core : Nat) (l : Launch) (ps : List GPlace) : State :=
  ps.foldl (fun s p =>
    if s.issueSlots.any (fun x => x.core == core && x.part == p.part && x.slot == p.slot) then s
    else { s with issueSlots := s.issueSlots ++ [⟨core, p.part, p.slot, l.uid, 0, 0, none, none⟩] }) s

/-- The watch slots of a new workgroup; one that is invalid is placed as zero (R346). -/
def placedWatch (s : State) (l : Launch) : SMap (BitVec 256) :=
  (resolvedWatch s l.chain).filter (fun p => watchValid p.2)

/-- The slice that begins when a launch becomes resident, or when it is placed where another's slice has expired for it; that
one waits for it no longer. One whose own slice has expired begins another with the first of its workgroups that returns, though
others may still be stopping (R317). -/
def beginSlice (s : State) (l : Launch) : State :=
  let awaited := s.launches.any (fun x => x.behind == some l.uid)
  let expired := l.slice != 0 && l.sliceLeft.isNone
  if (residents s).any (fun w => w.launch == l.uid) && !awaited && !expired then s
  else
    let s := updLaunch s l.uid (fun l => { l with sliceLeft := if l.slice = 0 then none else some l.slice })
    { s with launches := updateIf (fun x => x.behind == some l.uid) (fun x => { x with behind := none }) s.launches }

/-- Places workgroup `index` of a launch on a core, where it fits there (R313–R315). -/
def placeWg (s : State) (l : Launch) (index core : Nat) : Option State :=
  if roomOn s l core then
    match freeRun s (recordUnits l), placesFor l l.gpw (placesOn s core) with
    | some u, some ps =>
        let f := freshId s
        let w : Wg :=
          { uid := f.1, launch := l.uid, index := index, core := core, status := .resident, owner := l.owner,
            scratchSize := 128 * l.scratch, scratch := [], absent := [], accRows := l.accRows, acc := [],
            handles := l.handles, watch := placedWatch s l, recUnit := u, recUnits := recordUnits l, placedSeq := f.1,
            slots := [], resv := [] }
        let s := beginSlice f.2 l
        let s := dropOwned s core l.owner
        let s := openSlots s core l ps
        let s := updLaunch s l.uid (fun x => { x with unplaced := x.unplaced.filter (fun i => i ≠ index) })
        let s := writeHead s l w 0
        some { s with
          wgs := s.wgs ++ [w]
          groups := s.groups ++ ps.mapIdx (fun g p => freshGroup l w.uid index g p) }
    | _, _ => none
  else none

/-- Places some workgroups of a quartet on cores that take them all: of the ways to do so the first, where each in turn takes the
lowest core that leaves room for the rest. -/
def placeOn (l : Launch) (cores : List Nat) : List Nat → State → Option State
  | [], s => some s
  | i :: is, s => cores.findSome? (fun c => (placeWg s l i c).bind (fun s' => placeOn l cores is s'))

/-- The workgroups of the next quartet of a launch, ascending (R120). -/
def nextQuartet (l : Launch) : List Nat :=
  match l.unplaced with
  | [] => []
  | i :: _ => l.unplaced.filter (fun j => j / 4 = i / 4)

/-- Places the next quartet, its first workgroup on a core and the others on cores of that cluster. -/
def placeQuartet (s : State) (l : Launch) (core : Nat) : Option State :=
  match nextQuartet l with
  | [] => none
  | i :: is =>
      match placeWg s l i core with
      | none => none
      | some s' => placeOn l (clusterCores (core / 4)) is s'

/-! ## Save and restore (R222, R352–R355) -/

/-- Of a launch's workgroups that satisfy `p`, the one of the lowest index. -/
def lowestWg (s : State) (uid : Nat) (p : Wg → Bool) : Option Wg :=
  (s.wgs.filter (fun w => w.launch = uid && p w)).foldl (fun b w =>
    match b with
    | none => some w
    | some x => if w.index < x.index then some w else some x) none

/-- The saved workgroup of a launch that returns first. -/
def savedOf (s : State) (uid : Nat) : Option Wg := lowestWg s uid (fun w => w.status == .saved)

/-- The pre-empted workgroup of a launch, saved or still stopping, that stands at the front of what it has to place (R316). -/
def awaited (s : State) (uid : Nat) : Option Wg := lowestWg s uid (fun w => w.status != .resident)

/-- Whether a launch stands on a cluster, and so holds its B slots there (R195). -/
def standsOn (s : State) (cl uid : Nat) : Bool := (onCluster s cl).any (fun x => x.launch == uid)

/-- Whether a cluster is one that a saved workgroup may return to: the former one while the launch holds B slots there, and
the one on which others of its quartet stand (R355). -/
def mayReturn (s : State) (w : Wg) (l : Launch) (core : Nat) : Bool :=
  let holds := decide (l.bslots ≠ 0) && standsOn s (w.core / 4) l.uid
  (!holds || core / 4 == w.core / 4)
    && (residents s).all (fun x => x.launch != w.launch || x.index / 4 != w.index / 4 || x.core / 4 == core / 4)

/-- The control word of a B slot (R196). -/
def bslotWord (b : BSlot) : Nat :=
  let st := match b.state with | .empty => 0 | .loading => 1 | .ready => 2 | .poisoned => 3
  st + 2 ^ 13 * b.psub.toNat + 2 ^ 17 * b.fmt.toNat + 2 ^ 21 * bitOf b.t + 2 ^ 22 * bitOf b.nt + 2 ^ 23 * b.ncol
    + 2 ^ 64 * b.lgen.toNat + 2 ^ 96 * b.idx.toNat

/-- A saved slot is loaded again, or is as it was when it held nothing (R222); what waits in its slot order stays (log entry
107). A source in the scratchpad is read from that of the workgroup whose return loads the slot (log entry 108); one whose
lines do not translate leaves the slot poisoned and empty (log entry 109). -/
def reloadSlot (s : State) (w : Wg) (ln : Launch) (b : BSlot) : State :=
  let cl := w.core / 4
  if b.state = .ready ∨ b.state = .poisoned then
    let lines := if hScratch b.image then [] else runLines (bldRuns b.image (bldChunks b.image b.idx.toNat b.t))
    let ok := lines.all (fun l => (xlFault (translate s ln .r l)).isNone)
    let p : BldOp := ⟨cl, ln.uid, b.slot, b.image, b.idx.toNat, b.t, b.nt, lineLocs s ln .r lines⟩
    let s := if ok then touchHomeAs (!b.nt) s w.core w.owner (p.xl.map (·.2)) else s
    let r := if ok then bldRead s w p else ([], 15)
    let st : BState := if r.2 = 0 then .ready else .poisoned
    let ord := if b.steps.any SlotStep.changes then b.ordState else st
    bslotSet s cl { b with tile := r.1, psub := BitVec.ofNat 4 r.2, state := st, ordState := ord }
  else bslotSet s cl b

/-- The image of slot descriptors in a save record, and their place in it (R196, R354). -/
def recSlots (ln : Launch) : Nat := recPresence ln + 128 * ((ln.scratch + 1023) / 1024) + 1024 * ln.accRows
def slotFields (o : Nat) (bs : List BSlot) : List (Nat × Nat × Nat) :=
  bs.flatMap (fun b => [(o + 256 * b.slot, 128, b.image.toNat), (o + 256 * b.slot + 128, 16, bslotWord b)])

/-- A saved workgroup's record takes the slot descriptors of its launch (R222). -/
def giveSlots (s : State) (ln : Launch) (w : Wg) (bs : List BSlot) : State :=
  let s := updWg s w.uid (fun w => { w with slots := bs })
  (slotFields (recSlots ln) bs).foldl (fun s f =>
    keyedSetNum s w.owner (recordBase s w + f.1) f.2.1 f.2.2) s

/-- The slots of a launch leave a cluster. -/
def takeSlots (s : State) (cl uid : Nat) : State :=
  let c := clusterOf s cl
  setCluster s cl { c with bslots := c.bslots.filter (fun b => b.launch ≠ uid) }

/-- The saved workgroups of a launch that stood on a cluster. -/
def savedFrom (s : State) (cl uid : Nat) : List Wg :=
  s.wgs.filter (fun w => w.status = .saved && w.launch = uid && w.core / 4 = cl)

/-- Once no workgroup of a launch stands on a cluster, its slots leave it: into the record of a workgroup saved there, if there
is one (R222, log entry 88). -/
def leaveCluster (s : State) (ln : Launch) (cl : Nat) : State :=
  if standsOn s cl ln.uid then s
  else
    let bs := (clusterOf s cl).bslots.filter (fun b => b.launch = ln.uid)
    let s := takeSlots s cl ln.uid
    match bs, savedFrom s cl ln.uid with
    | _ :: _, w :: _ => giveSlots s ln w bs
    | _, _ => s

/-- The saved slots of a launch's former cluster are loaded again on the cluster that its first workgroup returns to, unless
the launch stands there already with slots of its own; while others saved there have still to return, the descriptors stay
saved (R222, R355, log entry 88). `s` is the state before the return of `w` as `w'`. -/
def returnSlots (s : State) (ln : Launch) (w w' : Wg) (s' : State) : State :=
  let mates := savedFrom s (w.core / 4) ln.uid
  let bs := ((mates.find? (fun x => !x.slots.isEmpty)).map (·.slots)).getD []
  let s' := if standsOn s (w'.core / 4) ln.uid then s' else bs.foldl (fun s b => reloadSlot s w' ln b) s'
  if w.slots.isEmpty then s'
  else
    match mates.filter (fun x => x.uid ≠ w.uid) with
    | x :: _ => giveSlots s' ln x w.slots
    | [] => s'

/-- The steps that a workgroup has in the slot orders of its cluster, each as its slot and itself in the order of acceptance:
the reads of its saved entries and the loads of its operations. -/
def wgSteps (s : State) (w : Wg) : List (Nat × SlotStep) :=
  let reads := w.resv.filterMap (fun e => match entryB e with
    | some (.slot n _) => some (e.id, n, SlotStep.read e.id)
    | _ => none)
  let loads := s.ops.filterMap (fun o => match o.kind with
    | .bld p => if o.done || o.grp.wg != w.uid then none else some (o.id, p.slot, SlotStep.load o.id)
    | _ => none)
  let rec put (x : Nat × Nat × SlotStep) : List (Nat × Nat × SlotStep) → List (Nat × Nat × SlotStep)
    | [] => [x]
    | y :: ys => if x.1 < y.1 then x :: y :: ys else y :: put x ys
  ((reads ++ loads).foldl (fun xs x => put x xs) []).map (·.2)

/-- A step stands in the slot order of a slot: where it stood, or at the end of it where the slot has not been saved with it. -/
def reStep (ln : Launch) (cl : Nat) (s : State) (p : Nat × SlotStep) : State :=
  let b := bslotGet s cl ln.uid p.1
  if b.steps.contains p.2 then s
  else
    match p.2 with
    | .load op =>
        let fmt := match (findOp s op).map (·.kind) with | some (.bld o) => hFmt o.h | _ => 0
        slotStep s cl { b with ordFmt := BitVec.ofNat 4 fmt, ordState := .loading } p.2
    | _ => slotStep s cl b p.2

/-- The entries of a workgroup's open rounds, and of what stands behind them, stand in the reservation table of the cluster it
returns to, and its operations are that cluster's (R355). They come back to a full table too, which then holds more than 32:
the model's choice of log entry 117. `w` is the workgroup as it was saved. -/
def reopenRounds (s : State) (w : Wg) (ln : Launch) (cl : Nat) : State :=
  let move (o : Op) : Op := match o.kind with
    | .bld p => { o with kind := .bld { p with cluster := cl } }
    | _ => o
  let s := { s with ops := updateIf (fun o => o.grp.wg == w.uid) move s.ops }
  let c := clusterOf s cl
  let s := setCluster s cl { c with resv := c.resv ++ w.resv.map (fun e => { e with wait := 0, aged := false }) }
  (wgSteps s w).foldl (reStep ln cl) s

/-- Restores a saved workgroup on a core, where it fits. -/
def restoreWg (s : State) (w : Wg) (core : Nat) : Option State :=
  match findLaunch s w.launch with
  | none => none
  | some l =>
      if roomOn s l core && mayReturn s w l core then
        match placesFor l l.gpw (placesOn s core) with
        | none => none
        | some ps =>
            let f := freshId s
            let w' := { w with core := core, status := .resident, placedSeq := f.1, slots := [], resv := [] }
            let s0 := s
            let s := dropOwned (openSlots (beginSlice f.2 l) core l ps) core l.owner
            let s := writeHead s l w' 0
            let s := updWg s w.uid (fun _ => w')
            let at' (g : Group) : Group :=
              match ps[g.key.g]? with
              | some p => { g with part := p.part, slot := p.slot, laneOff := p.off }
              | none => g
            let s := { s with groups := updateIf (fun g => g.key.wg == w.uid) at' s.groups }
            some (reopenRounds (returnSlots s0 l w w' s) w l (core / 4))
      else none

/-- Restores the other saved workgroups of a quartet on cores that take them all, chosen as for a placement. -/
def restoreOn (cores : List Nat) : List Nat → State → Option State
  | [], s => some s
  | u :: us, s =>
      match findWg s u with
      | none => none
      | some w => cores.findSome? (fun c => (restoreWg s w c).bind (fun s' => restoreOn cores us s'))

/-- Restores a saved workgroup on a core, with the saved workgroups of its quartet on cores of that cluster (R120, R355). -/
def restoreQuartet (s : State) (w : Wg) (core : Nat) : Option State :=
  match restoreWg s w core with
  | none => none
  | some s' =>
      let mates := s'.wgs.filter (fun x => x.status = .saved && x.launch = w.launch && x.index / 4 = w.index / 4)
      restoreOn (clusterCores (core / 4)) (mates.map (·.uid)) s'

/-! ## The order of launches (R313) -/

/-- The next workgroup or quartet of a launch on a core: the lowest pre-empted one returns before any is placed, once it has
been saved (R316, R322). -/
def nextOn (s : State) (l : Launch) (core : Nat) : Option State :=
  match awaited s l.uid with
  | some w => if w.status = .saved then restoreQuartet s w core else none
  | none => placeQuartet s l core

/-- Whether a launch's next fits on some core of a list. -/
def fitsOn (s : State) (l : Launch) (cores : List Nat) : Bool := cores.any (fun c => (nextOn s l c).isSome)

/-- The logical cores of a die, and of the module (R323). -/
def dieCores (d : Nat) : List Nat := (List.range 64).map (64 * d + ·)
def allCores : List Nat := List.range 256

/-- The state without some workgroups, for asking what would fit. -/
def without (s : State) (uids : List Nat) : State :=
  { s with
    wgs := updateIf (fun w => uids.contains w.uid) (fun w => { w with status := .saved, launch := 0 }) s.wgs
    groups := s.groups.filter (fun g => !uids.contains g.key.wg) }

/-- The workgroups that are stopping. -/
def stoppingIds (s : State) : List Nat := (s.wgs.filter (fun w => w.status = .stopping)).map (·.uid)

/-- The state in which a launch's pre-empted workgroups have been saved. -/
def asSaved (s : State) (uid : Nat) : State :=
  { s with wgs := updateIf (fun w => w.status == .stopping && w.launch == uid) (fun w => { w with status := .saved }) s.wgs }

/-- Whether a launch's next has room somewhere (R313), though it is a pre-empted workgroup that has still to be saved; that one
counts as gone from where it stands (log entry 125). -/
def fitsNow (s : State) (l : Launch) : Bool := fitsOn (asSaved s l.uid) l allCores

/-- The same once every workgroup that is stopping has gone. -/
def fitsSoon (s : State) (l : Launch) : Bool :=
  let t := asSaved s l.uid
  fitsOn (without t (stoppingIds t)) l allCores

/-- Whether a taken launch has workgroups to place or restore, is not STOPPED, and no tape run stands before it. -/
def wantsPlace (s : State) (l : Launch) : Bool :=
  (!l.unplaced.isEmpty || (savedOf s l.uid).isSome) && !chainStopped s l.chain && (l.tape || !rcbTapeRun s l.region)

/-- Whether a launch whose slice has expired waits for the launch that begins the next slice: that one fits, or will when what
is stopping has gone (R317). -/
def yields (s : State) (l : Launch) : Bool :=
  match l.behind with
  | none => false
  | some u =>
      match findLaunch s u with
      | some x => wantsPlace s x && fitsSoon s x
      | none => false

/-- Whether a taken launch is eligible (R313). -/
def eligible (s : State) (l : Launch) : Bool := wantsPlace s l && !yields s l

/-- Whether launch a is served before launch b. -/
def servedBefore (a b : Launch) : Bool := decide (b.prio < a.prio) || (a.prio == b.prio && decide (a.order < b.order))

/-- Puts a launch into a list in serving order. -/
def serveInsert (l : Launch) : List Launch → List Launch
  | [] => [l]
  | x :: xs => if servedBefore l x then l :: x :: xs else x :: serveInsert l xs

/-- The eligible launches in serving order. -/
def eligibles (s : State) : List Launch := (s.launches.filter (eligible s)).foldl (fun ls l => serveInsert l ls) []

/-- Whether a queued launch that can be taken stands before a taken one in the order that all launches share: it is taken
before that one is served (R313). -/
def queuedBefore (s : State) (l : Launch) : Bool :=
  s.queued.any (fun q => takeable s q && (rcbChain s q.region).any (fun c => !chainStopped s c)
    && (decide (l.prio < queuedPrio s q) || (l.prio == queuedPrio s q && decide (q.order < l.order))))

/-- The launch that a die's dispatcher serves: the first eligible one that fits there. -/
def served (s : State) (die : Nat) : Option Launch :=
  match (eligibles s).find? (fun l => fitsOn s l (dieCores die)) with
  | some l => if queuedBefore s l then none else some l
  | none => none

/-- WORKGROUP_PLACE: a core's dispatcher places the next workgroups of the launch that it serves. -/
def placeStep (s : State) (core : Nat) : Option State :=
  if 256 ≤ core then none
  else
    match served s (core / 64) with
    | none => none
    | some l => if (awaited s l.uid).isSome then none else placeQuartet s l core

def execWorkgroupPlace (core : Nat) (s : State) : Result := eventOf "WORKGROUP_PLACE" (placeStep s core)

/-- RESTORE. -/
def restoreStep (s : State) (uid core : Nat) : Option State :=
  if 256 ≤ core then none
  else
    match served s (core / 64) with
    | none => none
    | some l =>
        match awaited s l.uid with
        | none => none
        | some w => if w.uid = uid ∧ w.status = .saved then restoreQuartet s w core else none

def execRestore (wg core : Nat) (s : State) : Result := eventOf "RESTORE" (restoreStep s wg core)

/-! ## Pre-emption (R316, R317, R351) -/

/-- The workgroups that a launch may pre-empt among some: of lower priority, the lowest first, the latest placed first
among equals. -/
def victims (s : State) (l : Launch) (ws : List Wg) : List Wg :=
  let prio (w : Wg) : Nat := match findLaunch s w.launch with | some x => x.prio | none => 8
  let before (a b : Wg) : Bool := decide (prio a < prio b) || (prio a == prio b && decide (b.placedSeq < a.placedSeq))
  let rec insert (w : Wg) : List Wg → List Wg
    | [] => [w]
    | x :: xs => if before w x then w :: x :: xs else x :: insert w xs
  (ws.filter (fun w => decide (prio w < l.prio))).foldl (fun vs w => insert w vs) []

/-- The fewest of some victims whose removal lets a launch's next fit on some cores. -/
def removalFor (s : State) (l : Launch) (cores : List Nat) (vs : List Wg) : Option (List Nat) :=
  firstSome ((List.range vs.length).map (fun n =>
    let out := (vs.take (n + 1)).map (·.uid)
    if fitsOn (without s out) l cores then some out else none))

/-- The candidates of R316: each core, and each cluster. -/
def removals (s : State) (l : Launch) : List (List Nat) :=
  (allCores.filterMap (fun c => removalFor s l [c] (victims s l (onCore s c))))
    ++ ((List.range 64).filterMap (fun c => removalFor s l (clusterCores c) (victims s l (onCluster s c))))

/-- Stops workgroups at their groups' next boundary (R351). -/
def stopWgs (s : State) (uids : List Nat) : State :=
  { s with wgs := updateIf (fun w => uids.contains w.uid && w.status == .resident) (fun w => { w with status := .stopping }) s.wgs }

/-- PREEMPT: the first eligible launch fits nowhere, even where workgroups are already stopping. Of equally short removals it takes the
first, which is that of the lowest core, or of single cores before a cluster: the model's choice of log entry 135. -/
def preempt (s : State) : Option State :=
  match eligibles s with
  | [] => none
  | l :: _ =>
      if queuedBefore s l || fitsSoon s l then none
      else
        match removals s l with
        | [] => none
        | r :: rs => some (stopWgs s (rs.foldl (fun b x => if x.length < b.length then x else b) r))

def execPreempt (s : State) : Result := eventOf "PREEMPT" (preempt s)

/-- What of a cluster cannot act before an open round is complete: operations and reservation entries. -/
structure Stuck where
  ops : List Nat
  ents : List Nat
  deriving DecidableEq, Repr

/-- The steps of a slot order that wait behind the read of a stuck entry or behind a stuck load, given whether a stuck read
(`r`) or a stuck load or free (`c`) stands before them. An entry that is not `here` has been saved with its workgroup. -/
def stuckSteps (st : Stuck) (here : Nat → Bool) : Bool → Bool → List SlotStep → List SlotStep
  | _, _, [] => []
  | r, c, .read e :: rest =>
      if c || st.ents.contains e || !here e then .read e :: stuckSteps st here true c rest else stuckSteps st here r c rest
  | r, c, .load op :: rest =>
      if r || c || st.ops.contains op then .load op :: stuckSteps st here r true rest else stuckSteps st here r c rest
  | r, c, .free :: rest => stuckSteps st here r (r || c) rest

/-- What stands behind something stuck is stuck: in its group's order on accumulator rows (R215), in slot order (R197), and
among the octets of one operation (R211). An open round is. -/
def stuckMore (s : State) (cl : Nat) (st : Stuck) : Stuck :=
  let c := clusterOf s cl
  let steps := c.bslots.flatMap (fun b =>
    stuckSteps st (fun e => c.resv.any (fun x => x.id == e) || c.pass.any (fun x => x.id == e)) false false b.steps)
  let behind (k : GKey) (turn : Nat) (spans : List (Nat × Nat)) : Bool :=
    s.ops.any (fun x => x.grp == k && decide (x.id < turn) && st.ops.contains x.id && spansMeet (accSpans x) spans)
  let octet (o : OctetOp) : Bool := (findOp s o.op).any (fun p => behind p.grp (turnOf s p) (octetSpans p o))
  let ents := c.resv.filter (fun e => !e.complete || steps.contains (.read e.id) || e.octets.any octet
    || c.resv.any (fun x => st.ents.contains x.id && sharesOctet x e))
  let op (o : Op) : Bool :=
    !o.done && (match o.kind with
      | .team a => ents.any (fun e => e.wg == o.grp.wg && e.team == some (a.team, a.round))
      | .matrix _ => ents.any (fun e => e.octets.any (fun q => q.op == o.id))
      | .bld _ => steps.contains (.load o.id)
      | _ => behind o.grp o.id (accSpans o))
  ⟨(s.ops.filter op).map (·.id), ents.map (·.id)⟩

/-- What is stuck on a cluster after some rounds of the search for it. -/
def stuckN (s : State) (cl : Nat) : Nat → Stuck
  | 0 => ⟨[], []⟩
  | n + 1 => stuckMore s cl (stuckN s cl n)

/-- What of a cluster cannot be granted, or cannot act, before an open round is complete. -/
def stuckOn (s : State) (cl : Nat) : Stuck := stuckN s cl (s.ops.length + (clusterOf s cl).resv.length + 1)

/-- Whether the drain of R352 has come to its end: only PGREQs, arrivals of open rounds with what stands behind them, and stores
that wait for the second halves of a parked PST are outstanding (R222, log entry 107). -/
def drained (s : State) (w : Wg) : Bool :=
  let c := clusterOf s (w.core / 4)
  let st := stuckOn s (w.core / 4)
  s.ops.all (fun o => o.grp.wg != w.uid || o.done || st.ops.contains o.id ||
    (match o.kind with
     | .pgreq _ => true
     | .store n => decide (n ≤ 1) && (findGroup s o.grp).any (fun g => g.openPst.any (fun p => p.op == o.id))
     | _ => false))
  && c.resv.all (fun e => e.wg != w.uid || st.ents.contains e.id) && c.pass.all (fun e => e.wg != w.uid)
  && (groupsOf s w.uid).all (fun g => g.fifo.isEmpty)

/-- The part of a save record after the lane blocks: registers, scratchpad, presence bits, accumulator rows and slots, by
offset from its own start. -/
def imageTail (s : State) (l : Launch) (w : Wg) : SMap Byte :=
  let vregs := (groupsOf s w.uid).flatMap (fun g => (g.lanes.mapIdx (fun i x => x.v.map (fun p =>
    (4 * l.nregs * l.width * g.key.g + 4 * (l.width * p.1 + i), 4, p.2.toNat)))).flatten)
  let o := recVregs l
  let scr := w.scratch.map (fun p => (recScratch l - o + p.1, 1, p.2.toNat))
  let pres := (List.range ((l.scratch + 7) / 8)).map (fun i => (recPresence l - o + i, 1, presenceByte l w i))
  let acc := w.acc.map (fun p => (recSlots l - 1024 * l.accRows - o + 4 * p.1, 4, p.2.toNat))
  (vregs ++ scr ++ pres ++ acc ++ slotFields (recSlots l - o) w.slots).foldl (fun m f => blockPut m f.1 f.2.1 f.2.2) []

/-- The handle table of a save record. -/
def imageHandles (w : Wg) : SMap Byte := w.handles.foldl (fun m p => blockPut m (128 * p.1) 128 p.2.toNat) []

/-- Writes the image of a workgroup that has drained (R353, R354). -/
def writeImage (s : State) (l : Launch) (w : Wg) : State :=
  let k := keyOr s w.owner
  let base := recordBase s w
  let tail := recVregs l
  let s := writeHead s l w 1
  let s := putBlockKeyed s k (base + 0x2000) 8192 (imageHandles w)
  putBlockKeyed s k (base + tail) (65536 * w.recUnits - tail) (imageTail s l w)

/-- The entries of a workgroup leave the reservation table of its cluster, to be saved with it: its open rounds and what stands
behind them. They keep their places in slot order (log entry 107). -/
def takeRounds (s : State) (w : Wg) : List Resv × State :=
  let cl := w.core / 4
  let c := clusterOf s cl
  (c.resv.filter (fun e => e.wg = w.uid), setCluster s cl { c with resv := c.resv.filter (fun e => e.wg ≠ w.uid) })

/-- The issue slots of a core that no group occupies are closed. -/
def closeSlots (s : State) (core : Nat) : State :=
  let ps := placesOn s core
  { s with issueSlots := s.issueSlots.filter (fun x =>
      x.core != core || ps.any (fun p => p.part == x.part && p.slot == x.slot)) }

/-- What of a drained workgroup's outstanding operations is saved: arrivals of open rounds with what stands behind them, and
PGREQs. A PST whose second halves
are still to come leaves its half-done mask, and tile operations that have completed behind an arrival count no more (R353). -/
def savedOps (s : State) (uid : Nat) : State :=
  let s := ((groupsOf s uid).map (·.key)).foldl (fun s k => closePst s k (fun _ => true)) s
  { s with ops := s.ops.filter (fun o => o.grp.wg != uid || !o.done) }

/-- PREEMPT_SAVE. -/
def saveWg (s : State) (uid : Nat) : Option State :=
  match findWg s uid with
  | none => none
  | some w =>
      match findLaunch s w.launch with
      | none => none
      | some l =>
          if w.status = .stopping ∧ drained s w = true then
            let cl := w.core / 4
            let s := l1WriteBackAll (wcOut s w.core (fun _ => true)) w.core
            let r := takeRounds (savedOps s uid) w
            let s := r.2
            let last := (onCluster s cl).all (fun x => x.launch != w.launch || x.uid == uid)
            let slots := if last then (clusterOf s cl).bslots.filter (fun b => b.launch = w.launch) else []
            let s := if last then takeSlots s cl w.launch else s
            let w' := { w with status := .saved, slots := slots, resv := r.1 }
            let s := updWg s uid (fun _ => w')
            let rest (g : Group) : Group := { g with holds := [], parks := updateIf (fun _ => true) (fun p => { p with woken := true }) g.parks }
            let s := { s with groups := updateIf (fun g => g.key.wg == uid) rest s.groups }
            some (closeSlots (writeImage s l w') w.core)
          else none

def execPreemptSave (wg : Nat) (s : State) : Result := eventOf "PREEMPT_SAVE" (saveWg s wg)

/-! ## The end of groups and workgroups (R170) -/

/-- A workgroup whose groups have all ended leaves its core; its save record is free again. -/
def endWg (s : State) (w : Wg) : State :=
  let s := dropWg s w.uid
  let s := match findLaunch s w.launch with
    | some l => leaveCluster s l (w.core / 4)
    | none => takeSlots s (w.core / 4) w.launch
  closeSlots (updLaunch s w.launch (fun l => { l with live := l.live - 1 })) w.core

/-- A group whose lanes have all exited; no second half of its PSTs will come (R259). -/
def quietGroup (s : State) (g : Group) : State := if g.live.isEmpty then closePst s g.key (fun _ => true) else s

/-- Whether a group has ended: every lane has exited and the counters are zero (R170). -/
def groupDue (s : State) (g : Group) : Bool :=
  g.live.isEmpty && g.fifo.isEmpty && (quietGroup s g).ops.all (fun o => o.grp != g.key || o.cls == .none)

/-- GROUP_END. -/
def endGroup (s : State) (k : GKey) : Option State :=
  match findGroup s k, findWg s k.wg with
  | some g, some w =>
      if groupDue s g then
        let s := quietGroup s g
        let s := { s with groups := s.groups.filter (fun x => x.key ≠ k) }
        let s := failTeamRounds s
        some (if (groupsOf s k.wg).isEmpty then endWg s w else closeSlots s w.core)
      else none
  | _, _ => none

def execGroupEnd (g : GKey) (s : State) : Result := eventOf "GROUP_END" (endGroup s g)

/-! ## Slices (R317) -/

/-- SLICE_EXPIRY: the slice of a launch has elapsed, and one of equal priority is eligible but fits nowhere: that one begins the
next slice. Where the last of the launch's resident workgroups can retire now, they retire first. -/
def sliceExpiry (s : State) (uid : Nat) : Option State :=
  match findLaunch s uid with
  | none => none
  | some l =>
      let here := (residents s).filter (fun w => w.launch = uid)
      let mine := (here.filter (fun w => w.status = .resident)).map (·.uid)
      let retires := here.all (fun w => (groupsOf s w.uid).all (groupDue s))
      match (eligibles s).find? (fun x => x.uid != uid && x.prio == l.prio && !fitsNow s x) with
      | none => none
      | some x =>
          if l.sliceLeft = some 0 ∧ mine ≠ [] ∧ retires = false then
            some (stopWgs (updLaunch s uid (fun l => { l with sliceLeft := none, behind := some x.uid })) mine)
          else none

def execSliceExpiry (launch : Nat) (s : State) : Result := eventOf "SLICE_EXPIRY" (sliceExpiry s launch)

/-! ## Promotions (R319, R321) -/

/-- ISSUE_SLOT_PROMOTE. -/
def promoteSlot (s : State) (core part slot : Nat) : Option State :=
  let p (x : IssueSlot) : Bool :=
    x.core == core && x.part == part && x.slot == slot && decide (56 ≤ x.wait) && x.promoted.isNone
  if s.issueSlots.any p then
    some { s with seq := s.seq + 1, issueSlots := updateIf p (fun x => { x with promoted := some s.seq }) s.issueSlots }
  else none

def execIssueSlotPromote (core part slot : Nat) (s : State) : Result :=
  eventOf "ISSUE_SLOT_PROMOTE" (promoteSlot s core part slot)

/-- The bound of a class of the die L2's bank ports, in clocks (R321). -/
def portBound (cls : Nat) : Nat :=
  match cls with
  | 1 => 8 | 2 => 16 | 3 => 32 | 4 => 48 | _ => 64

/-- L2_PORT_PROMOTE. -/
def promotePort (s : State) (id : Nat) : Option State :=
  let p (x : PortReq) : Bool := x.id == id && decide (portBound x.cls ≤ x.wait + 8) && x.promoted.isNone
  if s.ports.any p then
    some { s with seq := s.seq + 1, ports := updateIf p (fun x => { x with promoted := some s.seq }) s.ports }
  else none

def execL2PortPromote (req : Nat) (s : State) : Result := eventOf "L2_PORT_PROMOTE" (promotePort s req)

/-! ## Soft errors (R358) -/

/-- Whether a piece of storage exists that an error can fall into. -/
def poisonable (s : State) (p : PoisonLoc) : Bool :=
  match p with
  | .vreg k l r =>
      match findCtx s k with
      | some (g, _, ln) => decide (l < g.width) && decide (r < ln.nregs)
      | none => false
  | .scratch wg n => match findWg s wg with | some w => decide (128 * n < w.scratchSize) | none => false
  | .acc wg r c => match findWg s wg with | some w => decide (r < w.accRows) && decide (c < 256) | none => false
  | .bslot cl l n => (clusterOf s cl).bslots.any (fun b => b.launch == l && b.slot == n && b.state == .ready)
  | .line pa => pa % 256 == 0 && inMemory s pa 256

/-- A READY slot with an error becomes POISONED, PSUB 15 (R199). -/
def poisonSlot (s : State) (cl l n : Nat) : State :=
  let b := bslotGet s cl l n
  let ord := if b.steps.any SlotStep.changes then b.ordState else .poisoned
  bslotSet s cl { b with state := .poisoned, psub := 15, ordState := ord }

/-- SOFT_ERROR. -/
def softError (s : State) (p : PoisonLoc) : Option State :=
  if poisonable s p then
    match p with
    | .bslot cl l n => some (poisonSlot s cl l n)
    | _ => some { s with poison := dedup (p :: s.poison) }
  else none

def execSoftError (p : PoisonLoc) (s : State) : Result := eventOf "SOFT_ERROR" (softError s p)

end Sys2Proof.Machine
end

