-- ==== Sys2Proof/Machine/Fetch.lean ====
section
/-! DEFINITION. Instruction fetch (R14, R357), the decode traps (R43–R46), and the requests for pages that fetch and
PGREQ make of the residency service (R61, R64, R66). -/

namespace Sys2Proof.Machine

/-! ## The words of an instruction (R12, R14, R357) -/

/-- How a fetch can end without its words, with the virtual address of the word that fails. -/
inductive FetchStop where
  | fault (sub va : Nat)
  | migrating (va : Nat)
  | nonres (va : Nat)
  deriving DecidableEq, Repr

/-- One word at a virtual address, or what its page does to the fetch. Where another party writes the code while the launch
runs, R15 lets a line be wholly old or wholly new: the model reads what stands at home at that issue, so that no stale line is
fetched (log entry 103). -/
def fetchWord (s : State) (ln : Launch) (va : Nat) : Except FetchStop Nat :=
  if 2 ^ 60 ≤ va then .error (.fault 3 va)
  else
    match walk s ln.ptroot va with
    | .unmapped => .error (.fault 3 va)
    | .malformed => .error (.fault 4 va)
    | .nonres _ _ _ => .error (.nonres va)
    | .leaf l _ e =>
        if ebit e 1 then .error (.migrating va)
        else if !ebit e 5 then .error (.fault 1 va)
        else
          match keyVal s ln.owner with
          | none => .error (.fault 4 va)
          | some k => .ok (ofBytes (homeBytes s k (leafPa l e va) 4))

/-- Consecutive words. -/
def fetchWords (s : State) (ln : Launch) : Nat → Nat → Except FetchStop (List Nat)
  | 0, _ => .ok []
  | n + 1, va => do
      let w ← fetchWord s ln va
      let ws ← fetchWords s ln n (va + 4)
      .ok (w :: ws)

/-- The words of the instruction at a PC (R12): the base word says whether a command word and a literal follow. -/
def fetch (s : State) (ln : Launch) (pc : DWord) : Except FetchStop (List Nat) := do
  let va := pc.toNat
  let w ← fetchWord s ln va
  let cmd ← if hasCommand w then fetchWord s ln (va + 4) else .ok 0
  fetchWords s ln (wordCount w cmd) va

/-! ## Requests for pages (R61, R64, R66) -/

/-- Whether a request in flight asks for the page that the walk of an address met. -/
def ResReq.covers (r : ResReq) (root l va : Nat) : Bool :=
  r.ptroot == root && r.va / levelSpan l == va / levelSpan l

/-- The level whose span two requests must share to be for one page: below a missing subtree the smallest page. -/
def pageLevel (l e : Nat) : Nat := if ebit e 2 then l else 0

/-- Requests the page of an address whose walk met a non-resident entry: it joins a request in flight, or makes one, of
which the host is told in host-assisted mode (R64, R372). The result is the request's identity. -/
def requestPage (s : State) (root owner l e va : Nat) (w : ReqWait) : Nat × State :=
  match s.reqs.find? (fun r => r.covers root (pageLevel l e) va) with
  | some r =>
      (r.id, { s with reqs := updateIf (fun x => x.id == r.id) (fun x => { x with waits := x.waits ++ [w] }) s.reqs })
  | none =>
      let f := freshId s
      let host := bit s.mcb.mode 0
      let s := { f.2 with reqs := s.reqs ++ [⟨f.1, root, owner, va, [w], host, none⟩] }
      (f.1, if host then post s (notif 2 f.1 root va) else s)

/-! ## FETCH_FAULT and ILLEGAL_ENCODING -/

/-- A FETCH trap of the lanes whose PC is an instruction (R46, R357): no format is known, so the length is 0. -/
def fetchTrap (g : Group) (pc : DWord) (sub va : Nat) : TrapInfo :=
  { mkTrap cFetch sub with mask := maskOf (g.activeAt pc), addr := BitVec.ofNat 64 va }

/-- What a failed fetch does to the lanes at the PC (R357). The instruction has not been issued, since its words have not been
fetched, and so it is no partner of another (R318, R319). -/
def fetchStop (c : Ctx) (s : State) (f : FetchStop) : State :=
  let s := unpair s
  match f with
  | .fault sub va => raiseTrap s s (fetchTrap c.g c.pc sub va)
  | .migrating va => parkFetch s c.g.key c.pc (.fetchMig va)
  | .nonres va =>
      if bit s.mcb.mode 0 then raiseTrap s s (fetchTrap c.g c.pc 2 va)
      else
        match walk s c.ln.ptroot va with
        | .nonres l _ e =>
            let r := requestPage s c.ln.ptroot c.ln.owner l e va (.fetch c.g.key)
            parkFetch r.2 c.g.key c.pc (.fetchReq r.1)
        | _ => s

/-- FETCH_FAULT: the fetch of the instruction at the focus fails or parks. -/
def execFetchFault (s : State) : Result :=
  match focusCtx s 1 with
  | none => .fault .noGroup
  | some c =>
      match fetch s c.ln c.pc with
      | .ok _ => notEnabled "FETCH_FAULT"
      | .error f => .next (fetchStop c s f)

/-- A decode trap at the focus with the length that the words imply (R46). -/
def decodeTrap (t : DecodeTrap) (len : Nat) (s : State) : Result :=
  match focusCtx s len with
  | none => .fault .noGroup
  | some c =>
      match t with
      | .illegal sub => c.settle s (trapAll cIllegal sub)
      | .operand sub => c.settle s (trapAll cOperand sub)

/-- The subcode of a word that is no instruction (R45, steps 2 and 3). -/
def illegalSub (w : Word) : Nat := if w = 0 ∨ w = 0xFFFFFFFF then 1 else 2

/-- ILLEGAL_ENCODING (R43): the word at the focus is no instruction. -/
def execIllegalEncoding (w : Word) (s : State) : Result :=
  if noInstr w.toNat then decodeTrap (.illegal (illegalSub w)) 1 s else notEnabled "ILLEGAL_ENCODING"

end Sys2Proof.Machine
end

