-- ==== Sys2Proof/Machine/Residency.lean ====
section
/-! DEFINITION. The residency service (R64, R66) and the end of translation updates (R62). -/

namespace Sys2Proof.Machine

/-- The arrival of a PGREQ, with its error bit, and its end; at a workgroup that has ended it is dropped (R66). -/
def pgreqArrive (s : State) (o : Op) (bar err : Nat) : State := finishOp (engineArrive s o.grp.wg bar err) o.id []

/-- The PGREQ with this identity. -/
def findPgreq (s : State) (id : Nat) : Option (Op × PgreqOp) :=
  match findOp s id with
  | none => none
  | some o =>
      match o.kind with
      | .pgreq p => some (o, p)
      | _ => none

/-- PGREQ_WALK (R66): the walk of a PGREQ ends it or makes it wait for its page. -/
def walkPgreq (s : State) (id : Nat) : Option State :=
  match findPgreq s id with
  | none => none
  | some (o, p) =>
      if p.req.isSome || !fifoPassed s o then none
      else if 2 ^ 60 ≤ p.va then some (pgreqArrive s o p.bar errNres)
      else
        match walk s p.root p.va with
        | .unmapped => some (pgreqArrive s o p.bar errNres)
        | .malformed => some (pgreqArrive s o p.bar errNres)
        | .leaf _ _ e => if ebit e 1 then none else some (pgreqArrive s o p.bar 0)
        | .nonres l _ e =>
            let r := requestPage s p.root p.owner l e p.va (.op id)
            some (updOp r.2 id (fun x => { x with kind := .pgreq { p with req := some r.1 } }))

def execPgreqWalk (op : Nat) (s : State) : Result := eventOf "PGREQ_WALK" (walkPgreq s op)

/-! ## The service in hardware mode (R64, R370) -/

/-- The free list's record for the pages that a missing page or table needs, and the bytes that it needs: a leaf's own
page size; for a table the smallest page that holds it. -/
def serviceSize (l e : Nat) : Nat × Nat :=
  if ebit e 2 then (l, levelSpan l)
  else (if tableSize (l - 1) ≤ 65536 then 0 else 1, tableSize (l - 1))

/-- COUNT of a record of the free list. -/
def freeCount (s : State) (z : Nat) : Nat := plainNum s (s.mcb.freel + 16 * z + 8) 4

/-- The page that the service would take from a record: entry COUNT − 1 (R370). -/
def freePage (s : State) (z : Nat) : Nat := plainNum s (plainNum s (s.mcb.freel + 16 * z) 8 + 8 * (freeCount s z - 1)) 8

/-- Copies one line of a page, read through the memory-side cache, under the owner's key, and drops the cached line. -/
def copyLine (key : BitVec 512) (src dst : Nat) (s : State) : State :=
  let d := homeLine s key src
  let bad := s.poison.contains (.line src)
  let s := mscDrop s src
  let s := putBlockKeyed s key dst 256 d
  { s with
    poison := if bad then dedup (.line dst :: s.poison) else s.poison.filter (fun p => p ≠ PoisonLoc.line dst) }

/-- Copies n bytes of whole lines. -/
def copyLines (key : BitVec 512) (src dst n : Nat) (s : State) : State :=
  (List.range (n / 256)).foldl (fun s i => copyLine key (src + 256 * i) (dst + 256 * i) s) s

/-- The entry that the service writes: P, LEAF and the permissions of the old one, CA = 00, MIG = 0 (R64). -/
def residentEntry (e page : Nat) : Nat := page + bitOf (ebit e 2) * 4 + e / 8 % 8 * 8 + 1

/-- Writes an entry to memory and to the walk's view. -/
def writeEntry (s : State) (epa e : Nat) : State :=
  let s := plainSetNum s epa 8 e
  { s with xmem := memSetBytes s.xmem epa (leBytes 8 e) }

/-- What a core still holds of a range of near memory goes home and leaves its L1, so that no access through the range's new
entry meets it (R64). -/
def dropRange (s : State) (core lo n : Nat) : State :=
  let s := wcOutRange s core lo (lo + n)
  (((coreOf s core).l1.map (·.base)).filter (fun b => decide (lo ≤ b) && decide (b < lo + n))).foldl (fun s b => l1Drop s core b) s

/-- The same of every core. -/
def dropRangeAll (s : State) (lo n : Nat) : State := (s.cores.map (·.1)).foldl (fun s c => dropRange s c lo n) s

/-- Makes what a non-resident entry stands for resident; none where the request fails (R64). -/
def makeResident (s : State) (owner l epa e : Nat) : Option State :=
  let z := serviceSize l e
  let page := freePage s z.1
  let back := entryAddr e
  if freeCount s z.1 = 0 ∨ inPool s back z.2 = false ∨ page % levelSpan z.1 ≠ 0 ∨ inNear s page (levelSpan z.1) = false then none
  else
    let s := plainSetNum (dropRangeAll s page z.2) (s.mcb.freel + 16 * z.1 + 8) 4 (freeCount s z.1 - 1)
    let s := copyLines (keyOr s owner) back page z.2 s
    let s := writeEntry s epa (residentEntry e page)
    some (if ebit e 2 then s
      else { s with xmem := memPutBlock s.xmem page z.2 (cellsIn s.mem page z.2) })

/-! ## What follows an answered request -/

/-- What a waiting PGREQ does: an arrival, or another walk where the page is migrating (R66). -/
def answerOp (s : State) (ok : Bool) (id : Nat) : State :=
  match findPgreq s id with
  | none => s
  | some (o, p) =>
      if !ok then pgreqArrive s o p.bar errNres
      else if migOver s p.root p.va then pgreqArrive s o p.bar 0
      else updOp s id (fun x => { x with kind := .pgreq { p with req := none } })

/-- The address at which a fetch found its page missing. -/
def missingAt (s : State) (ln : Launch) (pc : DWord) (va : Nat) : Nat :=
  match fetch s ln pc with
  | .error (.nonres x) => x
  | _ => va

/-- What lanes of a group parked for a request do: they fetch again, or trap FETCH 5 (R357). The lanes of a stopped or saved workgroup
fetch again in any case. -/
def answerFetch (s : State) (ok : Bool) (req va : Nat) (k : GKey) : State :=
  match findCtx s k with
  | none => s
  | some (g, w, ln) =>
      let mine := g.parks.filter (fun p => p.why == .fetchReq req && !p.woken)
      if ok || w.status != .resident then mine.foldl (fun s p => wake s k p.pc) s
      else
        match mine with
        | [] => s
        | p :: _ =>
            takeTrap s k p.pc (fetchTrap g p.pc 5 (missingAt s ln p.pc va)) none 0

/-- Answers every waiter of a request and forgets it. -/
def answerReq (s : State) (r : ResReq) (ok : Bool) : State :=
  let s := { s with reqs := s.reqs.filter (fun x => x.id ≠ r.id) }
  r.waits.foldl (fun s w =>
    match w with
    | .op id => answerOp s ok id
    | .fetch k => answerFetch s ok r.id r.va k) s

/-- Whether a translation update that covers an address is still incomplete (R62). -/
def updPending (s : State) (root va : Nat) : Bool :=
  s.xupds.any (fun u => u.ptroot == root && decide (u.base < (va / 65536 + 1) * 65536) && decide (va / 65536 * 65536 < u.base + u.len))

/-- The command-done notification (R372). -/
def commandDone (s : State) (slot : Nat) (tag : BitVec 16) (status : Nat) : State :=
  post s { notif 5 slot 0 0 with tag := tag, status := status }

/-- RESIDENCY_COMPLETE (R64): the service makes one page or table resident, or fails; in host-assisted mode the host has
answered and the change of the entry is complete. -/
def completeResidency (s : State) (id : Nat) : Option State :=
  match s.reqs.find? (fun r => r.id = id) with
  | none => none
  | some r =>
      match r.verdict with
      | some (ok, slot, tag) =>
          if ok && updPending s r.ptroot r.va then none
          else some (commandDone (answerReq s r ok) slot tag 0)
      | none =>
          if bit s.mcb.mode 0 then none
          else
            match walk s r.ptroot r.va with
            | .unmapped => some (answerReq s r false)
            | .malformed => some (answerReq s r false)
            | .leaf _ _ _ => some (answerReq s r true)
            | .nonres l epa e =>
                match makeResident s r.owner l epa e with
                | none => some (answerReq s r false)
                | some s' => some (if ebit e 2 then answerReq s' r true else s')

def execResidencyComplete (req : Nat) (s : State) : Result := eventOf "RESIDENCY_COMPLETE" (completeResidency s req)

/-! ## Translation updates (R62) -/

/-- TRANSLATION_UPDATE_COMPLETE: every translation from now on uses the entries as memory holds them. -/
def completeUpdate (s : State) (id : Nat) : Option State :=
  match s.xupds.find? (fun u => u.id = id) with
  | none => none
  | some u =>
      let s := syncRange { s with xupds := s.xupds.filter (fun x => x.id ≠ id) } u.ptroot u.base (u.base + u.len)
      some (match u.cmd with
        | some (slot, tag) => commandDone s slot tag 0
        | none => s)

def execTranslationUpdateComplete (upd : Nat) (s : State) : Result :=
  eventOf "TRANSLATION_UPDATE_COMPLETE" (completeUpdate s upd)

end Sys2Proof.Machine
end

