-- ==== Sys2Proof/Machine/Boot.lean ====
section
/-! DEFINITION. The start of the module (R323, R375–R377), the ports of the link as the start uses them, the module's
temperature and its hats (R378). -/

namespace Sys2Proof.Machine

/-! ## The start record (R375) -/

def outDone : Nat := 1
def outAlternate : Nat := 2
def outSkipped : Nat := 3
def outFailed : Nat := 4

/-- The last recorded entry of a step in flash. -/
def lastEntry (s : State) (step : Nat) : Nat × DWord := s.boot.flash.getD (step - 1) (0, 0)

/-- Records the outcome of a step, in flash and in the window's copy. -/
def recordStep (s : State) (step out : Nat) (detail : DWord) : State :=
  { s with
    boot := { s.boot with
      record := setAt s.boot.record (step - 1) (out, detail), flash := setAt s.boot.flash (step - 1) (out, detail) } }

/-- How a step is run. -/
inductive StepBy where
  | primary | alternate | skip
  deriving DecidableEq, Repr

/-- Steps 4 and 5 have an alternate; steps 7 and 8 are optional (R376). -/
def hasAlternate (step : Nat) : Bool := step == 4 || step == 5
def isOptional (step : Nat) : Bool := step == 7 || step == 8

/-- How a step runs in hardware bring-up, from its last recorded outcome (R376). -/
def stepMethod (s : State) (step : Nat) : StepBy :=
  let o := (lastEntry s step).1
  if o = outSkipped then .skip
  else if (o = outAlternate ∨ o = outFailed) ∧ hasAlternate step = true then .alternate
  else .primary

/-! ## Fuses (R323, R376) -/

/-- The physical clusters that a die's fuse map sets, ascending, and its spare. -/
def fusedClusters (m : BitVec 17) : List Nat := setBitsOf 17 m.toNat
def spareCluster (m : BitVec 17) : Nat := ((List.range 17).find? (fun i => !bit m i)).getD 16

/-- The map from logical to physical clusters: the fuse maps, then the replacements of a mask. -/
def clusterMapOf (fuses : List (BitVec 17)) (replaced : DWord) : SMap Nat :=
  (List.range 64).map (fun c =>
    let m := fuses.getD (c / 16) 0
    (c, if bit replaced c then spareCluster m else (fusedClusters m).getD (c % 16) 0))

/-- Every die's map has 16 of its 17 bits set. -/
def fusesOk (fuses : List (BitVec 17)) : Bool := fuses.length == 4 && fuses.all (fun m => (fusedClusters m).length == 16)

/-- The clusters that the record has replaced. -/
def replacedClusters (s : State) : DWord := if (lastEntry s 5).1 = outAlternate then (lastEntry s 5).2 else 0

/-- At most one cluster of each die is replaced. -/
def oneSpareEach (m : DWord) : Bool := (List.range 4).all (fun d => decide ((setBitsOf 16 (bits m (16 * d + 15) (16 * d))).length ≤ 1))

/-! ## Hats (R378) -/

/-- H for a power cap and a thermal limit. -/
def hatsFor (capw thermal : Nat) : Nat := min (max 1 (16 * capw / 3800)) thermal

/-! ## The ports of the link (R366, R377) -/

/-- A port with nothing under way. -/
def Port.quiet : Port := ⟨0, [], [], List.replicate 4 ⟨0, false⟩⟩

def portOf (s : State) (p : Nat) : Port := mapGet Port.quiet s.link p
def setPort (s : State) (p : Nat) (x : Port) : State := { s with link := mapSet Port.quiet s.link p x }

/-- Whether a port is up. -/
def portUp (s : State) (p : Nat) : Bool := bit s.mcb.portup p

/-- The port that takes the traffic of a downed one: the lowest that is up. -/
def takeover (s : State) : Option Nat := (List.range 18).find? (portUp s)

/-- What a downed port had to send is sent again on a port still up; where none is, it waits (R366). -/
def resend (s : State) (p : Nat) : State :=
  let x := portOf s p
  let again := (x.replay ++ x.queue).map (fun f => { f with wait := 0, promoted := none })
  match takeover s with
  | none => setPort s p { x with fails := 0, replay := [], queue := again }
  | some q =>
      let y := portOf s q
      setPort (setPort s p { x with fails := 0, replay := [], queue := [] }) q { y with queue := y.queue ++ again }

/-! ## The steps (R376) -/

/-- A step that can only be done or fail. -/
def plainStep (s : State) (env : StartEnv) (step : Nat) (detail : DWord) : State :=
  recordStep s step (if env.primaryFails.contains step then outFailed else outDone) detail

/-- Step 2 records a thermal trip before this start in its DETAIL, whether it is done or fails. -/
def stepRails (s : State) (env : StartEnv) : State :=
  let s := plainStep s env 2 (BitVec.ofNat 64 (bitOf s.boot.tripped))
  { s with boot := { s.boot with tripped := false } }

/-- Step 3 loads the fuses and applies the record's replacements. -/
def stepFuses (s : State) (env : StartEnv) : State :=
  if env.primaryFails.contains 3 || !fusesOk env.fuses then recordStep s 3 outFailed 0
  else
    let s := recordStep s 3 outDone 0
    { s with boot := { s.boot with clusterMap := clusterMapOf env.fuses (replacedClusters s) } }

/-- Step 4: the stacks that do not train at full rate run at half rate; the alternate begins with those recorded. -/
def stepTraining (s : State) (env : StartEnv) (byAlt : Bool) : State :=
  let known : DWord := if byAlt then (lastEntry s 4).2 else 0
  let half := known ||| env.halfRate.setWidth 64
  if env.alternateFails.contains 4 then recordStep s 4 outFailed half
  else if byAlt || half != 0 || env.primaryFails.contains 4 then recordStep s 4 outAlternate half
  else recordStep s 4 outDone 0

/-- Step 5: bad clusters are replaced by their die's spare; the alternate keeps the recorded replacements untested. A
spare that is itself bad is the second bad cluster of its die. -/
def stepClusters (s : State) (env : StartEnv) (byAlt : Bool) : State :=
  let known : DWord := if byAlt then (lastEntry s 5).2 else 0
  let found := maskOf (env.badClusters.filter (fun c => decide (c < 64)))
  let bad := known ||| found
  if env.alternateFails.contains 5 || known &&& found != 0 || !oneSpareEach bad then recordStep s 5 outFailed bad
  else
    let s := if byAlt || bad != 0 then recordStep s 5 outAlternate bad else recordStep s 5 outDone 0
    { s with boot := { s.boot with clusterMap := clusterMapOf env.fuses bad } }

/-- The key slots that the Vonor controller loads from its sealed store. -/
def sealedSlots (ks : List (Option (BitVec 512))) : SMap (BitVec 512) :=
  ((ks.take 64).mapIdx (fun i k => (i, k))).filterMap (fun p => p.2.map (fun k => (p.1, k)))

/-- Step 6: near memory and cache split, and the key slots are loaded or emptied (R374). -/
def stepSplit (s : State) (env : StartEnv) : State :=
  let s := plainStep s env 6 0
  { s with
    mcb := { s.mcb with hbma := s.boot.flashHbmn }
    keys := if bit s.boot.flashMode 3 then [] else sealedSlots env.sealedKeys }

/-- Step 7: the CXL ports that train, and the pool on them (R50). -/
def stepCxl (s : State) (env : StartEnv) (skip : Bool) : State :=
  if skip || env.primaryFails.contains 7 then
    let s := recordStep s 7 outSkipped 0xFFFF
    { s with mcb := { s.mcb with cxlup := 0 }, boot := { s.boot with poolBytes := 0 } }
  else
    let s := recordStep s 7 outDone (env.cxlDown.setWidth 64)
    let pool := if env.cxlDown = 0xFFFF then 0 else min env.poolBytes (2 ^ 44)
    { s with mcb := { s.mcb with cxlup := ~~~ env.cxlDown }, boot := { s.boot with poolBytes := pool } }

/-- Step 8: the Tsuzel ports that train at full rate, port 0 included, which may have been down. -/
def stepLink (s : State) (env : StartEnv) (skip : Bool) : State :=
  if skip || env.primaryFails.contains 8 then
    let s := recordStep s 8 outSkipped 0x3FFFF
    { s with mcb := { s.mcb with portup := 0 } }
  else
    let s := recordStep s 8 outDone (env.portDown.setWidth 64)
    { s with
      mcb := { s.mcb with portup := ~~~ env.portDown }
      boot := { s.boot with portLost := s.boot.portLost && bit env.portDown 0 } }

/-- The steps recorded with an outcome, as a mask. -/
def stepsWith (s : State) (out : Nat) : Nat :=
  ((List.range 9).map (fun i => if (s.boot.record.getD i (0, 0)).1 = out then 2 ^ i else 0)).foldl (· + ·) 0

/-- Step 9: the MCB is loaded from flash, the window opens in full, and the start is reported (R372, R376). The bring-up port is
one of the 18 from now on: if step 8 has left it down, its traffic goes to the ports that are up (R366). -/
def stepMcb (s : State) (env : StartEnv) : State :=
  let s := plainStep s env 9 0
  if env.primaryFails.contains 9 then s
  else
    let m := { Mcb.reset with
      cxlup := s.mcb.cxlup, portup := s.mcb.portup, hbma := s.mcb.hbma, mode := s.boot.flashMode, hbmn := s.boot.flashHbmn
      nqbase := s.boot.flashNqbase, nqlog := s.boot.flashNqlog, hats := hatsFor Mcb.reset.capw s.thermal }
    let s := { s with mcb := m, boot := { s.boot with step := 10, waiting := false } }
    let s := if s.boot.hostUp && !portUp s 0 then resend s 0 else s
    post s (notif 6 (stepsWith s outAlternate) (stepsWith s outSkipped) (bitOf s.boot.hostUp))

/-- Runs one step by a method; the state afterwards stands at the next step, in service, or failed for good. -/
def runStep (s : State) (env : StartEnv) (step : Nat) (m : StepBy) : State :=
  let s :=
    match step with
    | 1 => plainStep s env 1 0
    | 2 => stepRails s env
    | 3 => stepFuses s env
    | 4 => stepTraining s env (m == .alternate)
    | 5 => stepClusters s env (m == .alternate)
    | 6 => stepSplit s env
    | 7 => stepCxl s env (m == .skip)
    | 8 => stepLink s env (m == .skip)
    | _ => stepMcb s env
  if (s.boot.record.getD (step - 1) (0, 0)).1 = outFailed then { s with boot := { s.boot with dead := true, waiting := false } }
  else if step = 9 then s
  else { s with boot := { s.boot with step := step + 1, waiting := s.boot.hostUp } }

/-- The steps from one on in hardware bring-up, while none fails. -/
def runSteps (env : StartEnv) : Nat → State → State
  | 0, s => s
  | n + 1, s => if s.boot.dead then s else runSteps env n (runStep s env s.boot.step (stepMethod s s.boot.step))

/-! ## START (R376, R377) -/

/-- The state with all volatile state lost: flash keeps the start record and the image of the control block, and the
pool's devices keep their bytes (R378). The turns and counters are the model's own; the clocks count anew, as every core
leaves reset (R327). -/
def powerOff (s : State) : State :=
  { State.reset with
    turns := s.turns, free := s.free, seq := s.seq
    mem := s.mem.filter (fun c => decide (poolBase ≤ c.1))
    lineKeys := s.lineKeys.filter (fun c => decide (poolBase ≤ c.1))
    boot := { Boot.reset with
      flash := s.boot.flash, record := s.boot.flash, flashMode := s.boot.flashMode, flashHbmn := s.boot.flashHbmn
      flashNqbase := s.boot.flashNqbase, flashNqlog := s.boot.flashNqlog, tripped := s.boot.tripped } }

/-- START: power comes up and the steps run, in host-assisted bring-up only the first. -/
def startModule (s : State) (env : StartEnv) : State :=
  let s := powerOff s
  let s := { s with
    boot := { s.boot with step := 1, env := some env, hostUp := bit s.boot.flashMode 4 } }
  let s := runStep s env 1 .primary
  if s.boot.hostUp then s else runSteps env 8 s

def execStart (env : StartEnv) (s : State) : Result := .next (startModule s env)

/-! ## STEPGO during bring-up (R377) -/

/-- The answer of the host to the waiting step: invalid, refused, or the step is run. -/
def stepGo (s : State) (arg0 arg1 : Nat) : State :=
  let last (n : Nat) : State := { s with boot := { s.boot with last := n } }
  let step := s.boot.step
  if arg0 ≠ step ∨ 2 < arg1 then last 2
  else if (arg1 = 1 ∧ hasAlternate step = false) ∨ (arg1 = 2 ∧ isOptional step = false) then last 1
  else
    match s.boot.env with
    | none => s
    | some env =>
        let m : StepBy := match arg1 with | 0 => .primary | 1 => .alternate | _ => .skip
        runStep { s with boot := { s.boot with last := 0, waiting := false } } env step m

/-- Whether a host-assisted start is under way, after step 1 and before the module is in service (R377). -/
def bringingUp (s : State) : Bool := s.boot.hostUp && decide (1 < s.boot.step) && decide (s.boot.step < 10) && !s.boot.dead

/-- Whether the bring-up port is in use: in host-assisted bring-up from step 1 until the module is in service, whatever step 8
makes of port 0, unless its replays have failed (R366, R377, log entries 87 and 111). -/
def bringUpPort (s : State) : Bool := bringingUp s && !s.boot.portLost

/-- The port that the traffic of the bring-up goes over: the bring-up port, or where it has been lost the one that takes its
traffic, which step 8 has trained (R366, R377, log entry 111). -/
def bringUpVia (s : State) : Option Nat :=
  if bringingUp s then (if s.boot.portLost then takeover s else some 0) else none

/-- The bring-up status word (R377): zero throughout in hardware mode and after the start. -/
def statusWord (s : State) : Nat :=
  if s.boot.hostUp && s.boot.waiting then
    s.boot.step + 256 * (lastEntry s s.boot.step).1 + 65536 * s.boot.last + 2 ^ 31
  else if s.boot.hostUp then 65536 * s.boot.last
  else 0

/-! ## Temperature (R378) -/

/-- The thermal limit after a millisecond. -/
def thermalNext (t : Nat) (junctions : List Nat) : Nat :=
  if junctions.any (fun j => decide (100 < j)) then max 1 (t - 1)
  else if junctions.all (fun j => decide (j < 95)) then min 16 (t + 1)
  else t

/-- THERMAL_TICK: a millisecond with no junction above 110 °C. -/
def thermalTick (s : State) (junctions : List Nat) : Option State :=
  if junctions.any (fun j => decide (110 < j)) then none
  else
    let t := thermalNext s.thermal junctions
    some { s with thermal := t, mcb := { s.mcb with hats := hatsFor s.mcb.capw t } }

def execThermalTick (junctions : List Nat) (s : State) : Result := eventOf "THERMAL_TICK" (thermalTick s junctions)

/-- THERMAL_TRIP: a junction above 110 °C cuts the power. -/
def thermalTrip (s : State) (junctions : List Nat) : Option State :=
  if junctions.any (fun j => decide (110 < j)) then
    let s := powerOff s
    some { s with powered := false, boot := { s.boot with tripped := true } }
  else none

def execThermalTrip (junctions : List Nat) (s : State) : Result := eventOf "THERMAL_TRIP" (thermalTrip s junctions)

end Sys2Proof.Machine
end

