-- ==== Sys2Proof/Machine/HostOps.lean ====
section
/-! DEFINITION. The host at the module control window and over the link: window reads and writes, the control block's
fields (R368, R369, R372), host accesses (R69, R373), and the commands (R371, R374, R377). -/

namespace Sys2Proof.Machine

/-! ## The window (R368, R369) -/

/-- The base of the module control window. -/
def windowBase : Nat := 0x003F000000000000

/-- Whether an access lies in the window's range of addresses. -/
def inWindow (pa : Nat) : Bool := decide (windowBase ≤ pa) && decide (pa < windowBase + 2 ^ 48)

/-- The module control block as a number of 2048 bits. -/
def mcbNum (m : Mcb) : Nat :=
  m.nqbase % 2 ^ 64 + 2 ^ 64 * (m.nqlog % 2 ^ 8) + 2 ^ 96 * m.nqtail.toNat + 2 ^ 128 * m.nqhead.toNat
    + 2 ^ 192 * (m.freel % 2 ^ 64) + 2 ^ 256 * (m.saveb % 2 ^ 64) + 2 ^ 320 * (m.saven % 2 ^ 32)
    + 2 ^ 384 * (m.hbmn % 16) + 2 ^ 388 * (m.hbma % 16) + 2 ^ 400 * m.mode.toNat + 2 ^ 416 * (m.capw % 2 ^ 16)
    + 2 ^ 432 * (m.hats % 32) + 2 ^ 448 * m.portup.toNat + 2 ^ 480 * m.cxlup.toNat

/-- An entry of the start record as a number of 128 bits (R375). -/
def entryNum (step : Nat) (e : Nat × DWord) : Nat := step + 256 * (e.1 % 256) + 2 ^ 64 * e.2.toNat

/-- Byte `i` of a number. -/
def byteAt (n i : Nat) : Byte := BitVec.ofNat 8 (n / 256 ^ i)

/-- What a host reads of one byte of the window. Until the module is in service the reduced window answers (R377). -/
def windowByte (s : State) (off : Nat) : Byte :=
  if off < 256 then (if s.boot.step = 10 then byteAt (mcbNum s.mcb) off else 0)
  else if 0x300 ≤ off ∧ off < 0x304 then byteAt (statusWord s) (off - 0x300)
  else if 0x10000 ≤ off ∧ off < 0x10090 then
    let k := (off - 0x10000) / 16
    byteAt (entryNum (k + 1) (s.boot.record.getD k (0, 0))) (off % 16)
  else 0

/-- Idle: no launch is queued or running (R369). -/
def idle (s : State) : Bool := s.queued.isEmpty && s.launches.isEmpty

/-- A write of NQHEAD releases held notifications (R372). -/
def setNqhead (s : State) (v : Word) : State := drainHeld { s with mcb := { s.mcb with nqhead := v } }

/-- A write of NQBASE and NQLOG: idle-only unless no valid queue is named (R369). -/
def setNq (s : State) (base log : Nat) : State :=
  if (queueNamed s.mcb = true ∧ idle s = false) ∨ base % 4096 ≠ 0 ∨ inNear s base 4096 = false then s
  else drainHeld { s with mcb := { s.mcb with nqbase := base, nqlog := log } }

/-- A write of CAPW is clamped and sets H (R369, R378). -/
def setCapw (s : State) (v : Nat) : State :=
  let c := min (max v 1200) 3800
  { s with mcb := { s.mcb with capw := c, hats := hatsFor c s.thermal } }

/-- A write of MODE also reaches the flash image; it is idle-only (R369). -/
def setMode (s : State) (v : BitVec 5) : State :=
  if idle s then { s with mcb := { s.mcb with mode := v }, boot := { s.boot with flashMode := v } } else s

/-- A write of another field (R369). -/
def setField (s : State) (f : McbField) (v : Nat) : State :=
  match f with
  | .hbmn =>
      if 1 ≤ v ∧ v ≤ 9 then { s with mcb := { s.mcb with hbmn := v }, boot := { s.boot with flashHbmn := v } } else s
  | .saven => if idle s then { s with mcb := { s.mcb with saven := v % 2 ^ 32 } } else s
  | .saveb => if idle s && v % 65536 == 0 && inNear s v 65536 then { s with mcb := { s.mcb with saveb := v } } else s
  | .freel => if idle s && v % 64 == 0 && inNear s v 64 then { s with mcb := { s.mcb with freel := v } } else s

/-- A host's write of the control block: only the link carries it, and only in service does the window answer in full; until
then the write is dropped (R4, R48, R377). -/
def inService (s : State) (f : State → State) : Result := .next (if linkUp s then f s else s)

def execNqheadWrite (v : Word) (s : State) : Result := inService s (fun s => setNqhead s v)
def execNqConfigWrite (base : DWord) (log : BitVec 8) (s : State) : Result :=
  inService s (fun s => setNq s base.toNat log.toNat)
def execCapwWrite (v : BitVec 16) (s : State) : Result := inService s (fun s => setCapw s v.toNat)
def execModeWrite (v : BitVec 5) (s : State) : Result := inService s (fun s => setMode s v)
def execMcbWrite (f : McbField) (v : DWord) (s : State) : Result := inService s (fun s => setField s f v.toNat)

/-- The bits [hi:lo] of the block with some of its bytes replaced; none where none of them is written. -/
def writtenField (s : State) (off : Nat) (bs : List Byte) (hi lo : Nat) : Option Nat :=
  if off + bs.length ≤ lo / 8 ∨ hi / 8 < off then none
  else
    let n := ofBytes ((List.range 256).map (fun i =>
      if off ≤ i ∧ i < off + bs.length then bs.getD (i - off) 0 else byteAt (mcbNum s.mcb) i))
    some (nbits n hi lo)

/-- Applies a write to a field if the access reaches it. -/
def onField (v : Option Nat) (f : State → Nat → State) (s : State) : State :=
  match v with
  | none => s
  | some n => f s n

/-- A write of bytes of the control block acts on each field that it reaches. -/
def writeMcb (s : State) (off : Nat) (bs : List Byte) : State :=
  let v (hi lo : Nat) : Option Nat := writtenField s off bs hi lo
  let nq (s : State) : State :=
    if (v 63 0).isNone && (v 71 64).isNone then s
    else setNq s ((v 63 0).getD s.mcb.nqbase) ((v 71 64).getD s.mcb.nqlog)
  let s := onField (v 431 416) setCapw (nq s)
  let s := onField (v 404 400) (fun s n => setMode s (BitVec.ofNat 5 n)) s
  let s := onField (v 387 384) (fun s n => setField s .hbmn n) s
  let s := onField (v 351 320) (fun s n => setField s .saven n) s
  let s := onField (v 319 256) (fun s n => setField s .saveb n) s
  let s := onField (v 255 192) (fun s n => setField s .freel n) s
  onField (v 159 128) (fun s n => setNqhead s (BitVec.ofNat 32 n)) s

/-! ## Command slots (R371) -/

def cmdNum (s : State) (slot hi lo : Nat) : Nat := bits (mapGet 0 s.cmds slot) hi lo
def cmdCode (s : State) (slot : Nat) : Nat := cmdNum s slot 7 0
def cmdTag (s : State) (slot : Nat) : BitVec 16 := BitVec.ofNat 16 (cmdNum s slot 31 16)
def cmdArg (s : State) (slot k : Nat) : Nat := cmdNum s slot (127 + 64 * k) (64 + 64 * k)

/-- Writes bytes of a free slot: bytes 0–7 in one write, the doorbell, or bytes behind them. -/
def writeSlot (s : State) (slot at' : Nat) (bs : List Byte) : State :=
  if (at' = 0 ∧ bs.length = 8) ∨ (8 ≤ at' ∧ at' + bs.length ≤ 64) then
    let v := bits (mapGet 0 s.cmds slot) 511 0
    let n := bs.length
    let w := v - v / 256 ^ at' % 256 ^ n * 256 ^ at' + ofBytes bs * 256 ^ at'
    { s with cmds := mapSet 0 s.cmds slot (BitVec.ofNat 512 w) }
  else s

/-- The module accepts a command: CODE is cleared. -/
def acceptCmd (s : State) (slot : Nat) : State :=
  { s with cmds := mapSet 0 s.cmds slot (setBits (mapGet 0 s.cmds slot) 7 0 0) }

/-- The MODE bit of a command's function (R374). -/
def cmdMode (code : Nat) : Option Nat :=
  match code with
  | 3 => some 0 | 4 => some 1 | 5 => some 3 | 6 => some 3 | 7 => some 2 | 8 => some 4 | _ => none

/-- The mode of a command's function that is in force; bring-up mode is that of this start (R377). -/
def cmdAllowed (s : State) (code : Nat) : Bool :=
  match cmdMode code with
  | none => true
  | some 4 => s.boot.hostUp
  | some b => bit s.mcb.mode b

/-- The group that TRAPGO names, if it is frozen for the host (R340). -/
def frozenGroup (s : State) (id : Nat) : Option Group :=
  match findGroup s (groupOfId id) with
  | some g => if g.frozen then some g else none
  | none => none

/-- The operands of a command keep their limits (R371). -/
def operandsOk (s : State) (slot : Nat) : Bool :=
  let a := cmdArg s slot
  match cmdCode s slot with
  | 1 => a 0 % 256 == 0 && a 1 % 256 == 0
  | 2 => a 0 % tableSize 3 == 0 && inNear s (a 0) (tableSize 3) && decide (a 1 + a 2 ≤ 2 ^ 60)
  | 3 => s.reqs.any (fun r => r.id == a 0 && r.verdict.isNone) && decide (a 1 ≤ 1)
  | 4 => (frozenGroup s (a 0)).isSome && decide (a 1 ≤ 2)
  | 5 => decide (a 0 < 64) && inMemory s (a 1) 64
  | 6 => decide (a 0 < 64)
  | 7 => a 0 % 512 == 0 && inNear s (a 0) 512
  | _ => true

/-- Whether a command of this code waits in a slot of the module in service. -/
def cmdWaits (s : State) (slot code : Nat) : Bool := s.boot.step == 10 && cmdCode s slot == code

/-- Accepts a command: refused in hardware mode, or carried out by `f`, which posts its completion. -/
def command (name : String) (code slot : Nat) (f : State → State) (s : State) : Result :=
  if cmdWaits s slot code = true ∧ (cmdAllowed s code = false ∨ operandsOk s slot = true) then
    .next (if cmdAllowed s code then f (acceptCmd s slot) else commandDone (acceptCmd s slot) slot (cmdTag s slot) 1)
  else notEnabled name

/-- A command that is done as soon as it is accepted. -/
def commandNow (name : String) (code slot : Nat) (f : State → State) (s : State) : Result :=
  command name code slot (fun s' => commandDone (f s') slot (cmdTag s slot) 0) s

/-! ## The commands (R371) -/

/-- FLUSH: the memory-side cache lines of a range are written back if dirty, and dropped (R52). -/
def flushRange (s : State) (base n : Nat) : State :=
  ((s.msc.filter (fun l => decide (base ≤ l.base) && decide (l.base < base + n))).map (·.base)).foldl mscDrop s

def execFlush (slot : Slot) (s : State) : Result :=
  commandNow "FLUSH" 1 slot.val (fun s' => flushRange s' (cmdArg s slot.val 0) (cmdArg s slot.val 1)) s

/-- XUPD: the update is in progress until TRANSLATION_UPDATE_COMPLETE (R62). -/
def execXupd (slot : Slot) (s : State) : Result :=
  command "XUPD" 2 slot.val (fun s' =>
    let f := freshId s'
    { f.2 with
      xupds := s'.xupds ++
        [⟨f.1, cmdArg s slot.val 0, cmdArg s slot.val 1, cmdArg s slot.val 2, some (slot.val, cmdTag s slot.val)⟩] }) s

/-- RESOLVE: the host's answer to a residency request (R64). -/
def execResolve (slot : Slot) (s : State) : Result :=
  command "RESOLVE" 3 slot.val (fun s' =>
    { s' with
      reqs := updateIf (fun r => r.id == cmdArg s slot.val 0)
        (fun r => { r with verdict := some (cmdArg s slot.val 1 == 0, slot.val, cmdTag s slot.val) }) s'.reqs }) s

/-- TRAPGO on a frozen group: enter the handler, resume, or end (R340). -/
def trapGo (s : State) (g : Group) (how : Nat) (skip : Bool) : State :=
  match findCtx s g.key with
  | none => s
  | some (_, w, ln) =>
      let csw := frameGet s w g.key.g 0 4
      let tpc := ln.kernel + BitVec.ofNat 64 (frameGet s w g.key.g 8 4)
      let cause := csw % 64
      let sub := csw / 256 % 256
      match how with
      | 0 => enterHandler s g.key cause sub tpc
      | 1 => resumeGroup s g.key skip tpc
      | _ => failTeamRounds (endGroupsWhere (unhandled s g.key cause sub tpc) (fun k => k == g.key))

def execTrapgo (slot : Slot) (s : State) : Result :=
  commandNow "TRAPGO" 4 slot.val (fun s' =>
    match frozenGroup s' (cmdArg s slot.val 0) with
    | none => s'
    | some g => trapGo s' g (cmdArg s slot.val 1) (cmdArg s slot.val 2 % 2 == 1)) s

/-- KEYLD: the slot takes the key of a 64-byte block, which is zeroed. -/
def execKeyld (slot : Slot) (s : State) : Result :=
  commandNow "KEYLD" 5 slot.val (fun s' =>
    let k : BitVec 512 := BitVec.ofNat 512 (plainNum s' (cmdArg s slot.val 1) 64)
    plainSetNum { s' with keys := mapPut s'.keys (cmdArg s slot.val 0) k } (cmdArg s slot.val 1) 64 0) s

/-- KEYCLR: the slot is empty (R69). -/
def execKeyclr (slot : Slot) (s : State) : Result :=
  commandNow "KEYCLR" 6 slot.val (fun s' => { s' with keys := mapErase s'.keys (cmdArg s slot.val 0) }) s

/-- TAPEGO: a tape run starts as the hardware would start it (R332). -/
def execTapego (slot : Slot) (s : State) : Result :=
  commandNow "TAPEGO" 7 slot.val (fun s' => tapeStart s' (cmdArg s slot.val 0)) s

/-- STEPGO: during bring-up the answer to the waiting step, in slot 0 (R377). In service no step waits, so the command is
refused in hardware mode and invalid otherwise. -/
def execStepgo (slot : Slot) (s : State) : Result :=
  if s.boot.waiting = true ∧ slot.val = 0 ∧ cmdCode s 0 = 8 then
    .next (stepGo (acceptCmd s 0) (cmdArg s 0 0) (cmdArg s 0 1))
  else
    command "STEPGO" 8 slot.val (fun s' => commandDone s' slot.val (cmdTag s slot.val) 2) s

/-- RECCLR: the flash copy of the start record is cleared; the window's copy stays. -/
def execRecclr (slot : Slot) (s : State) : Result :=
  commandNow "RECCLR" 9 slot.val (fun s' => { s' with boot := { s'.boot with flash := List.replicate 9 (0, 0) } }) s

/-- COMMAND_INVALID: an unlisted code, or operands that break their limits. During bring-up only STEPGO is a command. -/
def execCommandInvalid (slot : Slot) (s : State) : Result :=
  let code := cmdCode s slot.val
  let bad := if s.boot.step = 10 then decide (9 < code) || (cmdAllowed s code && !operandsOk s slot.val) else code != 8
  if code ≠ 0 ∧ bad = true then .next (commandDone (acceptCmd s slot.val) slot.val (cmdTag s slot.val) 2)
  else notEnabled "COMMAND_INVALID"

/-! ## Host accesses (R69, R373) -/

/-- Whether a host access of memory is performed: memory throughout, and a key in the slot. -/
def hostReaches (s : State) (pa n key : Nat) : Bool := inMemory s pa n && (keyVal s key).isSome

/-- A host's access that needs the link. Where nothing carries it, it reaches nothing and has no answer (R4, R366, R377). -/
def carried (s : State) (up : Bool) (r : Result) : Result := if up then r else .next { s with reply := none }

/-- A host's access of memory. -/
def overLink (s : State) (r : Result) : Result := carried s (linkUp s) r

/-- Whether a host reaches the window (R48, R377): over the link, or before the module is in service over the port of the
bring-up. -/
def windowUp (s : State) : Bool := linkUp s || (bringUpVia s).isSome

/-- Whether a host's read of the window is answered. The start record of a module whose start has failed stays readable (R376),
and no port of it may be up: the model answers the read then, as through the Vonor controller (R368, log entry 110). -/
def windowReads (s : State) : Bool := windowUp s || s.boot.dead

/-- HOST_READ: through the window, or at the home under the slot's key, or zeros. A read of the pool leaves the memory-side
cache as it is (log entry 104). -/
def execHostRead (pa len key : Nat) (s : State) : Result :=
  if inWindow pa then
    carried s (windowReads s) <| .next { s with reply := some ⟨(List.range len).map (fun i => windowByte s (pa - windowBase + i)), false⟩ }
  else
    overLink s (
      if hostReaches s pa len key then .next { s with reply := some ⟨homeBytes s (keyOr s key) pa len, false⟩ }
      else .next { s with reply := some ⟨List.replicate len 0, (keyVal s key).isNone⟩ })

/-- A doorbell with code 0 is a command whose code is unlisted: it is answered at once (R371). -/
def answerCodeZero (s : State) (slot at' n : Nat) : State :=
  if at' = 0 ∧ n = 8 ∧ cmdCode s slot = 0 then commandDone s slot (cmdTag s slot) 2 else s

/-- A host's write of the window. The launch-post doorbell is the event LAUNCH_POST. -/
def windowWrite (s : State) (off : Nat) (bs : List Byte) : State :=
  let slot := (off - 0x1000) / 64
  if 0x1000 ≤ off ∧ off < 0x2000 ∧ (s.boot.step = 10 ∨ (s.boot.hostUp = true ∧ slot = 0)) then
    answerCodeZero (writeSlot s slot (off % 64) bs) slot (off % 64) bs.length
  else if off < 256 ∧ s.boot.step = 10 then writeMcb s off bs
  else s

/-- Whether a host write reaches a slot whose command the module has not accepted yet. A command is written to a free slot (R371): the
write finds none and is dropped, the model's choice of log entry 45. -/
def slotBusy (s : State) (pa : Nat) : Bool :=
  let off := pa - windowBase
  inWindow pa && decide (0x1000 ≤ off) && decide (off < 0x2000) && cmdCode s ((off - 0x1000) / 64) != 0

/-- Whether a host write reaches a launch record that the module owns (R310). -/
def hitsOwned (s : State) (pa n : Nat) : Bool :=
  let hit (r : Nat) : Bool := decide (pa < r + 128) && decide (r < pa + n)
  s.queued.any (fun q => hit q.recPa) || s.launches.any (fun l => hit l.recPa)

/-- The bytes of a host access with their locations. -/
def hostBytes (pa : Nat) (bs : List Byte) : List StoreByte := bs.mapIdx (fun i b => ⟨.mem (pa + i) 0, b⟩)

/-- HOST_WRITE. No leaf entry gives the cache attribute of a host's access to a pool line: the model writes as under CA 0, into
the memory-side cache, so that the line is dirty there until it leaves (R52, log entry 104). -/
def execHostWrite (pa : Nat) (bytes : List Byte) (key : Nat) (s : State) : Result :=
  if inWindow pa then
    carried s (windowUp s) (
      if pa = windowBase + 0x200 ∧ bytes.length = 8 then execLaunchPost (BitVec.ofNat 64 (ofBytes bytes)) s
      else if slotBusy s pa then .next { s with reply := some ⟨[], false⟩ }
      else .next { windowWrite s (pa - windowBase) bytes with reply := some ⟨[], false⟩ })
  else
    overLink s (
      if !hostReaches s pa bytes.length key then .next { s with reply := some ⟨[], (keyVal s key).isNone⟩ }
      else if hitsOwned s pa bytes.length then .refused .recordOwned
      else
        let s := ownSetBytes (clearPoisonFor s (hostBytes pa bytes)) key 0 pa bytes
        .next { s with reply := some ⟨[], false⟩ })

/-- HOST_ATOMIC: an atomic at the home; a window or other range reads zero and takes nothing (R368, R370). Of an address that is not
aligned it takes the bytes from there on in the same way: the model's choice of log entry 46. -/
def execHostAtomic (a : HostAtomic) (s : State) : Result :=
  let n := if a.wide then 8 else 4
  if inWindow a.pa then carried s (windowReads s) (.next { s with reply := some ⟨List.replicate n 0, false⟩ })
  else
    overLink s (
      if !hostReaches s a.pa n a.key then .next { s with reply := some ⟨List.replicate n 0, (keyVal s a.key).isNone⟩ }
      else if hitsOwned s a.pa n then .refused .recordOwned
      else
        let old := ofBytes (homeBytes s (keyOr s a.key) a.pa n)
        let s := ownSetBytes s a.key 0 a.pa (leBytes n (atomStep a.op n old (a.operand.toNat % 256 ^ n)))
        .next { s with reply := some ⟨leBytes n old, false⟩ })

end Sys2Proof.Machine
end

