-- ==== Sys2Proof/Machine/Fabric.lean ====
section
/-! DEFINITION. The ports of the Tsuzel link: flits, replay, ports that go down, pauses and promotion (R366, R367). -/

namespace Sys2Proof.Machine

/-- Whether a port is in use: before the module is in service only that of the bring-up is (R377). -/
def portLive (s : State) (p : Nat) : Bool := if s.boot.step = 10 then portUp s p else bringUpVia s == some p

/-- Whether a port carries a virtual channel: that of the bring-up only VC0 and VC3 (R377). -/
def portCarries (s : State) (p v : Nat) : Bool := portLive s p && (s.boot.step == 10 || v == 0 || v == 3)

/-- A virtual channel of a port. -/
def Port.vc (x : Port) (v : Nat) : VChan := x.vcs.getD v ⟨0, false⟩
def Port.setVc (x : Port) (v : Nat) (c : VChan) : Port := { x with vcs := setAt x.vcs v c }

/-! ## Replay (R366) -/

/-- FLIT_CRC_FAIL: the flit stays in the sender's replay buffer and is sent again. A first failure is no replay's. -/
def flitFail (s : State) (p : Nat) : Option State :=
  let x := portOf s p
  match x.replay with
  | [] => none
  | f :: _ => if portCarries s p f.vc && decide (x.fails ≤ 16) then some (setPort s p { x with fails := x.fails + 1 }) else none

def execFlitCrcFail (port : Fin 18) (s : State) : Result := eventOf "FLIT_CRC_FAIL" (flitFail s port.val)

/-- PORT_DOWN: 16 replays in a row have failed. The port is taken down, the bring-up port for the rest of the start, and its
traffic is sent again on a port still up (log entry 111). -/
def portDown (s : State) (p : Nat) : Option State :=
  if portLive s p && decide (16 < (portOf s p).fails) then
    some (resend { s with
      mcb := { s.mcb with portup := setBits s.mcb.portup p p 0 }
      boot := { s.boot with portLost := s.boot.portLost || s.boot.step != 10 } } p)
  else none

def execPortDown (port : Fin 18) (s : State) : Result := eventOf "PORT_DOWN" (portDown s port.val)

/-! ## Pauses (R367) -/

/-- VC_PAUSE: the buffer has risen past the high threshold. VC0 is never paused. -/
def vcPause (s : State) (p v : Nat) : Option State :=
  let x := portOf s p
  if v ≠ 0 ∧ (x.vc v).paused = false ∧ Config.vcHigh < (x.vc v).fill then
    some (setPort s p (x.setVc v { x.vc v with paused := true }))
  else none

def execVcPause (port : Fin 18) (vc : Fin 4) (s : State) : Result := eventOf "VC_PAUSE" (vcPause s port.val vc.val)

/-- VC_RELEASE: the buffer has fallen below the low threshold. -/
def vcRelease (s : State) (p v : Nat) : Option State :=
  let x := portOf s p
  if (x.vc v).paused = true ∧ (x.vc v).fill ≤ Config.vcLow then
    some (setPort s p (x.setVc v { x.vc v with paused := false }))
  else none

def execVcRelease (port : Fin 18) (vc : Fin 4) (s : State) : Result := eventOf "VC_RELEASE" (vcRelease s port.val vc.val)

/-! ## The sender's grants (R367) -/

/-- Rank and bound of a virtual channel. -/
def vcRank : Nat → Nat
  | 0 => 1 | 3 => 2 | 1 => 3 | _ => 4
def vcBound : Nat → Nat
  | 0 => 4 | 3 => 16 | _ => 64

/-- FLIT_PROMOTE: a flit has waited its bound minus 2 flit times. -/
def flitPromote (s : State) (p id : Nat) : Option State :=
  let x := portOf s p
  let due (f : Flit) : Bool := f.id == id && decide (vcBound f.vc ≤ f.wait + 2) && f.promoted.isNone
  if x.queue.any due then
    let s' := setPort s p { x with queue := updateIf due (fun f => { f with promoted := some s.seq }) x.queue }
    some { s' with seq := s.seq + 1 }
  else none

def execFlitPromote (port : Fin 18) (flit : Nat) (s : State) : Result := eventOf "FLIT_PROMOTE" (flitPromote s port.val flit)

/-- A flit stands above others once it has waited its bound less 2 flit times, whether or not the event that promotes it has come. -/
def Flit.due (f : Flit) : Bool := f.promoted.isSome || decide (vcBound f.vc ≤ f.wait + 2)

/-- The better of two waiting flits: promoted before unpromoted, promoted ones in their order, others by rank and then
by age. -/
def betterFlit (a b : Flit) : Flit :=
  if a.due && b.due then
    match a.promoted, b.promoted with
    | some m, some n => if n < m then b else a
    | some _, none => a
    | none, some _ => b
    | none, none => if a.wait + 2 - vcBound a.vc < b.wait + 2 - vcBound b.vc then b else a
  else if a.due then a
  else if b.due then b
  else if vcRank b.vc < vcRank a.vc then b else a

/-- The flit that the sender grants next: none of a paused channel. -/
def nextFlit (x : Port) : Option Flit :=
  match x.queue.filter (fun f => !(x.vc f.vc).paused) with
  | [] => none
  | f :: fs => some (fs.foldl betterFlit f)

/-- 256 bytes of a flit: those given, and zeros behind them. -/
def flitBytes (bs : List Byte) : List Byte := (bs ++ List.replicate 256 0).take 256

/-- A flit joins the queue of a sender whose port carries its channel. -/
def flitSend (s : State) (p v : Nat) (bs : List Byte) : State :=
  if portCarries s p v then
    let x := portOf s p
    let f := freshId s
    setPort f.2 p { x with queue := x.queue ++ [⟨f.1, v, flitBytes bs, 0, none⟩] }
  else s

/-- The sender grants a flit: it is under way and in the replay buffer. -/
def flitGrant (s : State) (p : Nat) : State :=
  let x := portOf s p
  match nextFlit x with
  | none => s
  | some f =>
      if portCarries s p f.vc then setPort s p { x with queue := x.queue.erase f, replay := x.replay ++ [f] } else s

/-- The oldest flit under way has arrived. After 16 failed replays it has not: the port goes down (R366). -/
def flitAck (s : State) (p : Nat) : State :=
  let x := portOf s p
  match x.replay with
  | [] => s
  | f :: fs => if portCarries s p f.vc && decide (x.fails ≤ 16) then setPort s p { x with replay := fs, fails := 0 } else s

/-- A receiver's buffer takes or gives one flit. -/
def flitIn (s : State) (p v : Nat) : State :=
  let x := portOf s p
  if portCarries s p v then setPort s p (x.setVc v { x.vc v with fill := (x.vc v).fill + 1 }) else s
def flitOut (s : State) (p v : Nat) : State :=
  let x := portOf s p
  setPort s p (x.setVc v { x.vc v with fill := (x.vc v).fill - 1 })

/-- Waiting flits grow older; time paused does not count. -/
def flitTimes (n : Nat) (x : Port) : Port :=
  { x with queue := updateIf (fun f => !(x.vc f.vc).paused) (fun f => { f with wait := f.wait + n }) x.queue }

end Sys2Proof.Machine
end

