-- ==== Sys2Proof/Machine/Dispatch.lean ====
section
/-! DEFINITION. The one dispatch of the machine: each instruction and event to its meaning. -/

namespace Sys2Proof.Machine

def exec (i : Instr) (s : State) : Host.Outcome State Fault Refusal :=
  match i with
  | .iadd d a b => Sys2Proof.Machine.execIadd d a b s
  | .isub d a b => Sys2Proof.Machine.execIsub d a b s
  | .imul d a b => Sys2Proof.Machine.execImul d a b s
  | .imulh d a b => Sys2Proof.Machine.execImulh d a b s
  | .imulhu d a b => Sys2Proof.Machine.execImulhu d a b s
  | .imad d a b => Sys2Proof.Machine.execImad d a b s
  | .imin d a b => Sys2Proof.Machine.execImin d a b s
  | .imax d a b => Sys2Proof.Machine.execImax d a b s
  | .and d a b => Sys2Proof.Machine.execAnd d a b s
  | .or d a b => Sys2Proof.Machine.execOr d a b s
  | .xor d a b => Sys2Proof.Machine.execXor d a b s
  | .shl d a b => Sys2Proof.Machine.execShl d a b s
  | .shr d a b => Sys2Proof.Machine.execShr d a b s
  | .sar d a b => Sys2Proof.Machine.execSar d a b s
  | .iuny op d a => Sys2Proof.Machine.execIuny op d a s
  | .iset c m a b => Sys2Proof.Machine.execIset c m a b s
  | .fadd d a b => Sys2Proof.Machine.execFadd d a b s
  | .fsub d a b => Sys2Proof.Machine.execFsub d a b s
  | .fmul d a b => Sys2Proof.Machine.execFmul d a b s
  | .ffma d a b => Sys2Proof.Machine.execFfma d a b s
  | .fmin d a b => Sys2Proof.Machine.execFmin d a b s
  | .fmax d a b => Sys2Proof.Machine.execFmax d a b s
  | .fset c m a b => Sys2Proof.Machine.execFset c m a b s
  | .funy op d a => Sys2Proof.Machine.execFuny op d a s
  | .fcvt p r sat d a => Sys2Proof.Machine.execFcvt p r sat d a s
  | .hfma2 d a b => Sys2Proof.Machine.execHfma2 d a b s
  | .bfma2 d a b => Sys2Proof.Machine.execBfma2 d a b s
  | .mov d a => Sys2Proof.Machine.execMov d a s
  | .cmov d a m => Sys2Proof.Machine.execCmov d a m s
  | .lxor d a b => Sys2Proof.Machine.execLxor d a b s
  | .lshf d a b => Sys2Proof.Machine.execLshf d a b s
  | .lred op d a => Sys2Proof.Machine.execLred op d a s
  | .lscan excl op d a => Sys2Proof.Machine.execLscan excl op d a s
  | .matchv d a => Sys2Proof.Machine.execMatchv d a s
  | .cmpct d a m => Sys2Proof.Machine.execCmpct d a m s
  | .ballot d a => Sys2Proof.Machine.execBallot d a s
  | .mskop op m p q => Sys2Proof.Machine.execMskop op m p q s
  | .mpopc pre d m => Sys2Proof.Machine.execMpopc pre d m s
  | .draw n w2 d => Sys2Proof.Machine.execDraw n w2 d s
  | .catd n d a => Sys2Proof.Machine.execCatd n d a s
  | .dsskip n a b => Sys2Proof.Machine.execDsskip n a b s
  | .dsfork a => Sys2Proof.Machine.execDsfork a s
  | .dssetp n a b => Sys2Proof.Machine.execDssetp n a b s
  | .dspos n d => Sys2Proof.Machine.execDspos n d s
  | .gneval t g d a => Sys2Proof.Machine.execGneval t g d a s
  | .ksig d a h => Sys2Proof.Machine.execKsig d a h s
  | .ld d a h => Sys2Proof.Machine.execLd d a h s
  | .lde d a h => Sys2Proof.Machine.execLde d a h s
  | .ldnr d a h => Sys2Proof.Machine.execLdnr d a h s
  | .st d a h => Sys2Proof.Machine.execSt d a h s
  | .ste d a h => Sys2Proof.Machine.execSte d a h s
  | .stnt d a h => Sys2Proof.Machine.execStnt d a h s
  | .pst h2 d a h => Sys2Proof.Machine.execPst h2 d a h s
  | .atom op ord d a h => Sys2Proof.Machine.execAtom op ord d a h s
  | .atomr op d a h => Sys2Proof.Machine.execAtomr op d a h s
  | .cas ord d a h => Sys2Proof.Machine.execCas ord d a h s
  | .cas128 ord d a h => Sys2Proof.Machine.execCas128 ord d a h s
  | .gath nm1 men d a h => Sys2Proof.Machine.execGath nm1 men d a h s
  | .scat nm1 men d a h => Sys2Proof.Machine.execScat nm1 men d a h s
  | .sisect ha hb out men d a b => Sys2Proof.Machine.execSisect ha hb out men d a b s
  | .kst nl wide d a h => Sys2Proof.Machine.execKst nl wide d a h s
  | .cpl c d a b => Sys2Proof.Machine.execCpl c d a b s
  | .cpm c tgt d a b => Sys2Proof.Machine.execCpm c tgt d a b s
  | .mmq w d a b => Sys2Proof.Machine.execMmq w d a b s
  | .mmt w team d a b => Sys2Proof.Machine.execMmt w team d a b s
  | .accrd mm1 d a b => Sys2Proof.Machine.execAccrd mm1 d a b s
  | .accwr mm1 d a b => Sys2Proof.Machine.execAccwr mm1 d a b s
  | .accpatch add d a m => Sys2Proof.Machine.execAccpatch add d a m s
  | .kgath kh oh p msk capm1 d a b => Sys2Proof.Machine.execKgath kh oh p msk capm1 d a b s
  | .bra disp => Sys2Proof.Machine.execBra disp s
  | .braKernelAbsolute off => Sys2Proof.Machine.execBraKernelAbsolute off s
  | .brm m disp => Sys2Proof.Machine.execBrm m disp s
  | .brmn m disp => Sys2Proof.Machine.execBrmn m disp s
  | .brz d disp => Sys2Proof.Machine.execBrz d disp s
  | .brnz d disp => Sys2Proof.Machine.execBrnz d disp s
  | .call disp => Sys2Proof.Machine.execCall disp s
  | .callKernelAbsolute off => Sys2Proof.Machine.execCallKernelAbsolute off s
  | .ret a => Sys2Proof.Machine.execRet a s
  | .exit => Sys2Proof.Machine.execExit s
  | .trap code => Sys2Proof.Machine.execTrap code s
  | .sadd sd sb => Sys2Proof.Machine.execSadd sd sb s
  | .ssub sd sb => Sys2Proof.Machine.execSsub sd sb s
  | .smul sd sb => Sys2Proof.Machine.execSmul sd sb s
  | .sand sd sb => Sys2Proof.Machine.execSand sd sb s
  | .sor sd sb => Sys2Proof.Machine.execSor sd sb s
  | .sxor sd sb => Sys2Proof.Machine.execSxor sd sb s
  | .sshl sd sb => Sys2Proof.Machine.execSshl sd sb s
  | .sshr sd sb => Sys2Proof.Machine.execSshr sd sb s
  | .ssar sd sb => Sys2Proof.Machine.execSsar sd sb s
  | .smin sd sb => Sys2Proof.Machine.execSmin sd sb s
  | .smax sd sb => Sys2Proof.Machine.execSmax sd sb s
  | .smov sd sb => Sys2Proof.Machine.execSmov sd sb s
  | .sset c sd sb => Sys2Proof.Machine.execSset c sd sb s
  | .smovi sd imm => Sys2Proof.Machine.execSmovi sd imm s
  | .slui sd imm => Sys2Proof.Machine.execSlui sd imm s
  | .v2s sd lane v x => Sys2Proof.Machine.execV2s sd lane v x s
  | .sbra disp => Sys2Proof.Machine.execSbra disp s
  | .sbz c disp => Sys2Proof.Machine.execSbz c disp s
  | .sbnz c disp => Sys2Proof.Machine.execSbnz c disp s
  | .qrd q sb => Sys2Proof.Machine.execQrd q sb s
  | .qst q sb => Sys2Proof.Machine.execQst q sb s
  | .idrd sd sb => Sys2Proof.Machine.execIdrd sd sb s
  | .waitc nld nst ncp ntl => Sys2Proof.Machine.execWaitc nld nst ncp ntl s
  | .fence sc => Sys2Proof.Machine.execFence sc s
  | .ntdrain sc => Sys2Proof.Machine.execNtdrain sc s
  | .ldu acq wide sd sb => Sys2Proof.Machine.execLdu acq wide sd sb s
  | .stu rel wide sd sb => Sys2Proof.Machine.execStu rel wide sd sb s
  | .fstat sd sb => Sys2Proof.Machine.execFstat sd sb s
  | .nop => Sys2Proof.Machine.execNop s
  | .nopLiteral inSd inSb w => Sys2Proof.Machine.execNopLiteral inSd inSb w s
  | .hload sd sb x => Sys2Proof.Machine.execHload sd sb x s
  | .hadj sd sb x => Sys2Proof.Machine.execHadj sd sb x s
  | .hqry sd sb x => Sys2Proof.Machine.execHqry sd sb x s
  | .binit sd sb => Sys2Proof.Machine.execBinit sd sb s
  | .barrive ring exp sd sb => Sys2Proof.Machine.execBarrive ring exp sd sb s
  | .bexpect ring sd sb => Sys2Proof.Machine.execBexpect ring sd sb s
  | .bwait ring sd sb => Sys2Proof.Machine.execBwait ring sd sb s
  | .btest mode ring sd sb => Sys2Proof.Machine.execBtest mode ring sd sb s
  | .rqenq rel wide sd sb => Sys2Proof.Machine.execRqenq rel wide sd sb s
  | .rqdeq acq wide sd sb => Sys2Proof.Machine.execRqdeq acq wide sd sb s
  | .pgreq sd sb x => Sys2Proof.Machine.execPgreq sd sb x s
  | .pfh sd sb x => Sys2Proof.Machine.execPfh sd sb x s
  | .dsld sd sb d => Sys2Proof.Machine.execDsld sd sb d s
  | .gnld sd sb g => Sys2Proof.Machine.execGnld sd sb g s
  | .bld t nt sd sb x => Sys2Proof.Machine.execBld t nt sd sb x s
  | .bfree sb => Sys2Proof.Machine.execBfree sb s
  | .accz sd sb => Sys2Proof.Machine.execAccz sd sb s
  | .accst rowsm1 r sat sd sb x => Sys2Proof.Machine.execAccst rowsm1 r sat sd sb x s
  | .ksinit gn psc clog bb d128 sd sb x => Sys2Proof.Machine.execKsinit gn psc clog bb d128 sd sb x s
  | .launch after sd sb => Sys2Proof.Machine.execLaunch after sd sb s
  | .tapepush endF sd sb => Sys2Proof.Machine.execTapepush endF sd sb s
  | .tret skip => Sys2Proof.Machine.execTret skip s
  | .tfrd sd sb => Sys2Proof.Machine.execTfrd sd sb s
  | .tfwr sd sb => Sys2Proof.Machine.execTfwr sd sb s
  | .watchLoad w sb => Sys2Proof.Machine.execWatchLoad w sb s
  | .watchStore w sb => Sys2Proof.Machine.execWatchStore w sb s
  | .watchClr w => Sys2Proof.Machine.execWatchClr w s
  | .gend rcd => Sys2Proof.Machine.execGend rcd s
  | .teamTrap g => Sys2Proof.Machine.execTeamTrap g s
  | .loadComplete op => Sys2Proof.Machine.execLoadComplete op s
  | .storeRetire g => Sys2Proof.Machine.execStoreRetire g s
  | .ntStoreWrite core idx => Sys2Proof.Machine.execNtStoreWrite core idx s
  | .atomicPerform op req => Sys2Proof.Machine.execAtomicPerform op req s
  | .copySectorLand op sector => Sys2Proof.Machine.execCopySectorLand op sector s
  | .presenceUnpark g pc => Sys2Proof.Machine.execPresenceUnpark g pc s
  | .migrationUnpark g pc => Sys2Proof.Machine.execMigrationUnpark g pc s
  | .bwaitReturn g pc => Sys2Proof.Machine.execBwaitReturn g pc s
  | .waitcReturn g pc => Sys2Proof.Machine.execWaitcReturn g pc s
  | .ntdrainReturn g pc => Sys2Proof.Machine.execNtdrainReturn g pc s
  | .fenceComplete g pc => Sys2Proof.Machine.execFenceComplete g pc s
  | .bldLoadComplete op => Sys2Proof.Machine.execBldLoadComplete op s
  | .reservationGrant cluster fused => Sys2Proof.Machine.execReservationGrant cluster fused s
  | .reservationAged cluster entry => Sys2Proof.Machine.execReservationAged cluster entry s
  | .matrixPassComplete cluster => Sys2Proof.Machine.execMatrixPassComplete cluster s
  | .hatArrive cluster => Sys2Proof.Machine.execHatArrive cluster s
  | .burstEnd cluster => Sys2Proof.Machine.execBurstEnd cluster s
  | .accOpComplete op => Sys2Proof.Machine.execAccOpComplete op s
  | .accstComplete op => Sys2Proof.Machine.execAccstComplete op s
  | .kstRowPerformed op => Sys2Proof.Machine.execKstRowPerformed op s
  | .ksClaim op => Sys2Proof.Machine.execKsClaim op s
  | .ksPublish op => Sys2Proof.Machine.execKsPublish op s
  | .kgathWalk op => Sys2Proof.Machine.execKgathWalk op s
  | .gathComplete op => Sys2Proof.Machine.execGathComplete op s
  | .scatWrite op => Sys2Proof.Machine.execScatWrite op s
  | .sisectRun op => Sys2Proof.Machine.execSisectRun op s
  | .collectorDispatch core line => Sys2Proof.Machine.execCollectorDispatch core line s
  | .collectorLineServed core line => Sys2Proof.Machine.execCollectorLineServed core line s
  | .pgreqWalk op => Sys2Proof.Machine.execPgreqWalk op s
  | .residencyComplete req => Sys2Proof.Machine.execResidencyComplete req s
  | .translationUpdateComplete upd => Sys2Proof.Machine.execTranslationUpdateComplete upd s
  | .launchPost addr => Sys2Proof.Machine.execLaunchPost addr s
  | .launchTake => Sys2Proof.Machine.execLaunchTake s
  | .workgroupPlace core => Sys2Proof.Machine.execWorkgroupPlace core s
  | .preempt => Sys2Proof.Machine.execPreempt s
  | .sliceExpiry launch => Sys2Proof.Machine.execSliceExpiry launch s
  | .preemptSave wg => Sys2Proof.Machine.execPreemptSave wg s
  | .restore wg core => Sys2Proof.Machine.execRestore wg core s
  | .groupEnd g => Sys2Proof.Machine.execGroupEnd g s
  | .launchComplete launch => Sys2Proof.Machine.execLaunchComplete launch s
  | .issueSlotPromote core part slot => Sys2Proof.Machine.execIssueSlotPromote core part slot s
  | .l2PortPromote req => Sys2Proof.Machine.execL2PortPromote req s
  | .softError at0 => Sys2Proof.Machine.execSoftError at0 s
  | .hostRead pa len key => Sys2Proof.Machine.execHostRead pa len key s
  | .hostWrite pa bytes key => Sys2Proof.Machine.execHostWrite pa bytes key s
  | .hostAtomic a => Sys2Proof.Machine.execHostAtomic a s
  | .flush slot => Sys2Proof.Machine.execFlush slot s
  | .xupd slot => Sys2Proof.Machine.execXupd slot s
  | .resolve slot => Sys2Proof.Machine.execResolve slot s
  | .trapgo slot => Sys2Proof.Machine.execTrapgo slot s
  | .keyld slot => Sys2Proof.Machine.execKeyld slot s
  | .keyclr slot => Sys2Proof.Machine.execKeyclr slot s
  | .tapego slot => Sys2Proof.Machine.execTapego slot s
  | .stepgo slot => Sys2Proof.Machine.execStepgo slot s
  | .recclr slot => Sys2Proof.Machine.execRecclr slot s
  | .commandInvalid slot => Sys2Proof.Machine.execCommandInvalid slot s
  | .nqheadWrite v => Sys2Proof.Machine.execNqheadWrite v s
  | .nqConfigWrite base log => Sys2Proof.Machine.execNqConfigWrite base log s
  | .capwWrite v => Sys2Proof.Machine.execCapwWrite v s
  | .modeWrite v => Sys2Proof.Machine.execModeWrite v s
  | .mcbWrite f v => Sys2Proof.Machine.execMcbWrite f v s
  | .flitCrcFail port => Sys2Proof.Machine.execFlitCrcFail port s
  | .portDown port => Sys2Proof.Machine.execPortDown port s
  | .vcPause port vc => Sys2Proof.Machine.execVcPause port vc s
  | .vcRelease port vc => Sys2Proof.Machine.execVcRelease port vc s
  | .flitPromote port flit => Sys2Proof.Machine.execFlitPromote port flit s
  | .start env => Sys2Proof.Machine.execStart env s
  | .thermalTick junctions => Sys2Proof.Machine.execThermalTick junctions s
  | .thermalTrip junctions => Sys2Proof.Machine.execThermalTrip junctions s
  | .illegalEncoding w => Sys2Proof.Machine.execIllegalEncoding w s
  | .fetchFault => Sys2Proof.Machine.execFetchFault s

end Sys2Proof.Machine
end

