-- ==== Sys2Proof/Machine/Turns.lean ====
section
/-! DEFINITION. Who moves next, and what a turn does: issue of one instruction or of a pair (R148, R318, R319, R334),
events of the module, clocks, and the order taken where the list of turns names nobody. -/

namespace Sys2Proof.Machine

/-- The rows that a turn can name: the events, but for the two that only an issue meets. -/
def isEvent (i : Instr) : Bool :=
  match i with
  | .teamTrap .. | .loadComplete .. | .storeRetire .. | .ntStoreWrite .. | .atomicPerform ..
  | .copySectorLand .. | .presenceUnpark .. | .migrationUnpark .. | .bwaitReturn .. | .waitcReturn ..
  | .ntdrainReturn .. | .fenceComplete .. | .bldLoadComplete .. | .reservationGrant .. | .reservationAged ..
  | .matrixPassComplete .. | .hatArrive .. | .burstEnd .. | .accOpComplete .. | .accstComplete ..
  | .kstRowPerformed .. | .ksClaim .. | .ksPublish .. | .kgathWalk .. | .gathComplete .. | .scatWrite ..
  | .sisectRun .. | .collectorDispatch .. | .collectorLineServed .. | .pgreqWalk .. | .residencyComplete ..
  | .translationUpdateComplete .. | .launchPost .. | .launchTake | .workgroupPlace .. | .preempt
  | .sliceExpiry .. | .preemptSave .. | .restore .. | .groupEnd .. | .launchComplete .. | .issueSlotPromote ..
  | .l2PortPromote .. | .softError .. | .hostRead .. | .hostWrite .. | .hostAtomic .. | .flush .. | .xupd ..
  | .resolve .. | .trapgo .. | .keyld .. | .keyclr .. | .tapego .. | .stepgo .. | .recclr ..
  | .commandInvalid .. | .nqheadWrite .. | .nqConfigWrite .. | .capwWrite .. | .modeWrite .. | .mcbWrite ..
  | .flitCrcFail .. | .portDown .. | .vcPause .. | .vcRelease .. | .flitPromote .. | .start .. | .thermalTick ..
  | .thermalTrip .. => true
  | .iadd .. | .isub .. | .imul .. | .imulh .. | .imulhu .. | .imad .. | .imin .. | .imax .. | .and .. | .or ..
  | .xor .. | .shl .. | .shr .. | .sar .. | .iuny .. | .iset .. | .fadd .. | .fsub .. | .fmul .. | .ffma ..
  | .fmin .. | .fmax .. | .fset .. | .funy .. | .fcvt .. | .hfma2 .. | .bfma2 .. | .mov .. | .cmov .. | .lxor ..
  | .lshf .. | .lred .. | .lscan .. | .matchv .. | .cmpct .. | .ballot .. | .mskop .. | .mpopc .. | .draw ..
  | .catd .. | .dsskip .. | .dsfork .. | .dssetp .. | .dspos .. | .gneval .. | .ksig .. | .ld .. | .lde .. | .ldnr ..
  | .st .. | .ste .. | .stnt .. | .pst .. | .atom .. | .atomr .. | .cas .. | .cas128 .. | .gath .. | .scat ..
  | .sisect .. | .kst .. | .cpl .. | .cpm .. | .mmq .. | .mmt .. | .accrd .. | .accwr .. | .accpatch .. | .kgath ..
  | .bra .. | .braKernelAbsolute .. | .brm .. | .brmn .. | .brz .. | .brnz .. | .call .. | .callKernelAbsolute ..
  | .ret .. | .exit | .trap .. | .sadd .. | .ssub .. | .smul .. | .sand .. | .sor .. | .sxor .. | .sshl .. | .sshr ..
  | .ssar .. | .smin .. | .smax .. | .smov .. | .sset .. | .smovi .. | .slui .. | .v2s .. | .sbra .. | .sbz ..
  | .sbnz .. | .qrd .. | .qst .. | .idrd .. | .waitc .. | .fence .. | .ntdrain .. | .ldu .. | .stu .. | .fstat ..
  | .nop | .nopLiteral .. | .hload .. | .hadj .. | .hqry .. | .binit .. | .barrive .. | .bexpect .. | .bwait ..
  | .btest .. | .rqenq .. | .rqdeq .. | .pgreq .. | .pfh .. | .dsld .. | .gnld .. | .bld .. | .bfree .. | .accz ..
  | .accst .. | .ksinit .. | .launch .. | .tapepush .. | .tret .. | .tfrd .. | .tfwr .. | .watchLoad ..
  | .watchStore .. | .watchClr .. | .gend .. | .illegalEncoding .. | .fetchFault => false

/-! ## Issue -/

/-- Whether lanes of a group at a PC can issue (R318): the group is not frozen, saved, stopping or about to take a TEAM
trap, no SCAT of it waits for a SISECT, and the lanes are neither parked nor held. -/
def issuable (s : State) (k : GKey) (pc : DWord) : Bool :=
  match findCtx s k with
  | none => false
  | some (g, w, _) =>
      !g.frozen && w.status == .resident && !g.teamFails.any g.dueFail && !(g.population pc).isEmpty
        && !g.parks.any (fun p => p.pc == pc && !p.woken) && !scatStuck s k

/-- The focus of an issue at a PC. -/
def focusAt (s : State) (k : GKey) (pc : DWord) (partner : Option DWord) : State :=
  { s with focus := ⟨k, pc, BitVec.allOnes 64, partner, false, none, 0, false⟩ }

/-- A slot has been picked (R319): it begins to wait anew in the next clock. -/
def pickSlot (s : State) (core part slot : Nat) : State :=
  { s with
    seq := s.seq + 1
    issueSlots := updateIf (fun x => x.core == core && x.part == part && x.slot == slot)
      (fun x => { x with lastPick := s.seq, wait := 0, promoted := none, grows := some false }) s.issueSlots }

/-- The lines of an instruction of n words are fetched (R15, R51). -/
def touchCode (s : State) (ln : Launch) (n : Nat) : State := virtTouch s ln .x s.focus.pc.toNat (4 * n)

/-- The instruction at the focus is fetched, decoded and executed. -/
def runFocus (s : State) : Result :=
  match findCtx s s.focus.grp with
  | none => .fault .noGroup
  | some (_, _, ln) =>
      match fetch s ln s.focus.pc with
      | .error _ => exec .fetchFault s
      | .ok ws =>
          let s := touchCode s ln ws.length
          match decodeWords ws with
          | .ok i => exec i s
          | .error t =>
              if noInstr (ws.headD 0) then exec (.illegalEncoding (BitVec.ofNat 32 (ws.headD 0))) s
              else decodeTrap t ws.length s

/-- Whether the first PC of two has its instruction first in the pair: more lanes hold it, or it is lower (R148). The lanes counted
are those that would issue: the model's choice of log entry 130. -/
def goesFirst (s : State) (k : GKey) (a b : DWord) : Bool :=
  match findGroup s k with
  | none => true
  | some g =>
      let m := (g.population a).length
      let n := (g.population b).length
      decide (n < m) || (m == n && decide (a.toNat < b.toNat))

/-- The state before the second of a pair issues: the lanes `ls` execute it, which stood at its PC when the pair was
picked. -/
def toSecond (s : State) (p q ls : DWord) : State :=
  { s with focus := { s.focus with pc := q, lanes := ls, partner := s.focus.partner.map (fun _ => p), second := true } }

/-- The lanes of a group at a PC, as a mask. -/
def lanesAt (s : State) (k : GKey) (pc : DWord) : DWord :=
  match findGroup s k with
  | none => 0
  | some g => maskOf (g.population pc)

/-- Whether a group is in trap mode. -/
def inTrap (s : State) (k : GKey) : Bool :=
  match findGroup s k with
  | none => false
  | some g => g.trapMode

/-- The trap of a pair's first instruction is delivered when the second has run (R148, R334, R337). `tm` says whether the
group was in trap mode when the pair issued (R339). -/
def deliver (s : State) (tm : Bool) (k : GKey) (p q : DWord) : State :=
  match s.focus.stash with
  | none => s
  | some t =>
      if s.focus.partner.isSome then takeTrapIn s tm k p t (some q) s.focus.ostate else takeTrapIn s tm k p t none 0

/-- A pair of one group (R148). No lane executes both (R2, R319). -/
def runPair (s : State) (k : GKey) (p q : DWord) : Result :=
  match runFocus (focusAt s k p (some q)) with
  | .next s1 =>
      let s2 := toSecond s1 p q (lanesAt s k q)
      match (if issuable s2 k q && (focusCtx s2 1).isSome then runFocus s2 else .next (unpair s2)) with
      | .next s3 => .next (deliver s3 (inTrap s k) k p q)
      | r => r
  | r => r

/-- Two PCs of one group issue as a pair, in the order of R148. -/
def runBoth (s : State) (k : GKey) (p q : DWord) : Result :=
  if goesFirst s k p q then runPair s k p q else runPair s k q p

/-! ## Candidates and picks (R318, R319) -/

/-- The words of the instruction of a group at a PC; none where their fetch fails (R357). -/
def wordsAt (s : State) (k : GKey) (pc : DWord) : Option (List Nat) :=
  match findCtx s k with
  | none => none
  | some (_, _, ln) => (fetch (focusAt s k pc none) ln pc).toOption

/-- Whether the instruction at a PC is of the lane set: bit 31 of its word is clear. -/
def lsetAt (s : State) (k : GKey) (pc : DWord) : Bool :=
  match wordsAt s k pc with
  | some (w :: _) => w / 2 ^ 31 % 2 == 0
  | _ => false

/-- Whether the instruction of a group at a PC is ready: it can issue, its words have been fetched, and nothing full or busy
holds it. -/
def ready (s : State) (k : GKey) (pc : DWord) : Bool :=
  issuable s k pc
    && (match runFocus (focusAt s k pc none) with
        | .next t => !t.focus.waits
        | _ => true)

/-- A ready candidate: its slot, its PC, whether it is of the uniform set, its lanes, and its groups by index. A candidate of
the lane set holds every ready group of the slot at its PC. -/
structure Cand where
  slot : Nat
  pc : DWord
  uset : Bool
  lanes : Nat
  groups : List GKey
  deriving DecidableEq, Repr

/-- The index of the first group of a candidate. -/
def Cand.index (c : Cand) : Nat := (c.groups.headD GKey.none).g

/-- Whether a candidate is taken before another: by more lanes, then by the lower PC, then by slot and group index. -/
def Cand.before (a b : Cand) : Bool :=
  decide (b.lanes < a.lanes)
    || (a.lanes == b.lanes && (decide (a.pc.toNat < b.pc.toNat)
      || (a.pc == b.pc && (decide (a.slot < b.slot) || (a.slot == b.slot && decide (a.index < b.index))))))

/-- The candidate of a list that is taken first. -/
def bestCand (cs : List Cand) : Option Cand :=
  cs.foldl (fun b c =>
    match b with
    | none => some c
    | some x => if c.before x then some c else b) none

/-- A candidate joins the list: one of the lane set is merged with that of its PC. -/
def addCand (cs : List Cand) (c : Cand) : List Cand :=
  if !c.uset && cs.any (fun x => !x.uset && x.pc == c.pc) then
    updateIf (fun x => !x.uset && x.pc == c.pc) (fun x => { x with lanes := x.lanes + c.lanes, groups := x.groups ++ c.groups }) cs
  else cs ++ [c]

/-- Whether a group stands in a slot. -/
def inSlot (s : State) (x : IssueSlot) (g : Group) : Bool :=
  g.part == x.part && g.slot == x.slot && (match findWg s g.key.wg with | some w => w.core == x.core | none => false)

/-- A group takes its place in a list by index. -/
def placeGroup (g : Group) : List Group → List Group
  | [] => [g]
  | x :: xs => if g.key.g ≤ x.key.g then g :: x :: xs else x :: placeGroup g xs

/-- The groups of a slot, by index. -/
def slotGroups (s : State) (x : IssueSlot) : List Group := (s.groups.filter (inSlot s x)).foldr placeGroup []

/-- The PCs at which lanes of a group stand. -/
def Group.pcs (g : Group) : List DWord := dedup (g.live.filterMap (fun l => (g.lane? l).map (·.pc)))

/-- The ready candidates of a slot, without those that the turn says are stalled. -/
def slotCands (s : State) (stalled : List (GKey × DWord)) (x : IssueSlot) : List Cand :=
  ((slotGroups s x).flatMap (fun g => (g.pcs.filter (fun pc => ready s g.key pc && !stalled.contains (g.key, pc))).map
    (fun pc => (⟨x.slot, pc, !lsetAt s g.key pc, (g.population pc).length, [g.key]⟩ : Cand)))).foldl addCand []

/-- A slot stands above others from its 56th clock on, whether or not the event that promotes it has come. -/
def IssueSlot.due (x : IssueSlot) : Bool := x.promoted.isSome || decide (56 ≤ x.wait)

/-- Whether a slot is picked before another. -/
def IssueSlot.before (s : State) (a b : IssueSlot) : Bool :=
  let prio (x : IssueSlot) : Nat := match findLaunch s x.launch with | some l => l.prio | none => 0
  if a.due != b.due then a.due
  else if a.due then
    match a.promoted, b.promoted with
    | some m, some n => decide (m < n)
    | some _, none => true
    | none, some _ => false
    | none, none => decide (b.wait < a.wait)
  else decide (prio b < prio a) || (prio a == prio b && decide (a.lastPick < b.lastPick))

/-- The slot that a partition picks among those with a ready candidate, and the candidates that issue: the first two of that
slot, or its one with the first of the uniform set of another slot. -/
def pickOf (s : State) (core part : Nat) (stalled : List (GKey × DWord)) : Option (Nat × List Cand) :=
  let xs := ((s.issueSlots.filter (fun x => x.core == core && x.part == part)).map
    (fun x => (x, slotCands s stalled x))).filter (fun p => !p.2.isEmpty)
  let best := xs.foldl (fun (b : Option (IssueSlot × List Cand)) p =>
    match b with
    | none => some p
    | some y => if p.1.before s y.1 then some p else b) none
  match best with
  | none => none
  | some (x, cs) =>
      match bestCand cs with
      | none => none
      | some a =>
          match bestCand (cs.filter (fun c => c ≠ a)) with
          | some b => some (x.slot, [a, b])
          | none =>
              let us := (xs.filter (fun p => p.1.slot ≠ x.slot)).flatMap (fun p => p.2.filter (·.uset))
              some (x.slot, a :: (bestCand us).toList)

/-- The candidates issue, each group taking its own part of them: one instruction or a pair. -/
def issueCands (cs : List Cand) (r : Result) (k : GKey) : Result :=
  match r with
  | .next s =>
      match cs.filter (fun c => c.groups.contains k && issuable s k c.pc) with
      | [] => r
      | [a] => runFocus (focusAt s k a.pc none)
      | a :: b :: _ => runBoth s k a.pc b.pc
  | _ => r

/-- Of the slots of a partition, but for `but`, it is noted in `t` whether they have a ready candidate in `s` (R319). -/
def noteReady (s : State) (core part : Nat) (but : Option Nat) (stalled : List (GKey × DWord)) (t : State) : State :=
  { t with
    issueSlots := updateIf (fun x => x.core == core && x.part == part && but != some x.slot)
      (fun x => { x with grows := some (!(slotCands s stalled x).isEmpty) }) t.issueSlots }

/-- The slot that a group stands in has been picked (R319): `t` comes after the issue, `s` before it. -/
def pickedIn (s : State) (k : GKey) (t : State) : State :=
  match findCtx s k with
  | none => t
  | some (g, w, _) => pickSlot (noteReady s w.core g.part (some g.slot) [] t) w.core g.part g.slot

/-- The slot of a group has been picked. -/
def picked (s : State) (k : GKey) : State := pickedIn s k s

/-- The outcome of an issue of one instruction: the slot has been picked, unless the instruction was not ready. -/
def afterIssue (s : State) (k : GKey) (r : Result) : Result :=
  match r with
  | .next t => .next (if t.focus.waits then t else pickedIn s k t)
  | r => r

/-- The fetch of the instruction of a group at a PC where lanes could issue: where it fails, the lanes trap or park, and
no candidate has been issued (R318, R357). -/
def fetchAt (s : State) (k : GKey) (pc : DWord) : State :=
  if issuable s k pc && (wordsAt s k pc).isNone then
    match exec .fetchFault (focusAt s k pc none) with
    | .next t => t
    | _ => s
  else s

/-- The fetches of a partition before its pick, but for those that the turn says are stalled. -/
def fetchAll (s : State) (core part : Nat) (stalled : List (GKey × DWord)) : State :=
  let xs := s.issueSlots.filter (fun x => x.core == core && x.part == part)
  let ps := xs.flatMap (fun x => (slotGroups s x).flatMap (fun g => g.pcs.map (fun pc => (g.key, pc))))
  (ps.filter (fun p => !stalled.contains p)).foldl (fun s p => fetchAt s p.1 p.2) s

/-- The pick of a partition in one clock, its words having been fetched. With no ready candidate nothing issues. -/
def takePick (s : State) (core part : Nat) (stalled : List (GKey × DWord)) : Result :=
  let s' := noteReady s core part none stalled s
  match pickOf s core part stalled with
  | none => .next s'
  | some (slot, cs) => (dedup (cs.flatMap (·.groups))).foldl (issueCands cs) (.next (pickSlot s' core part slot))

/-- A pick of a partition in one clock. -/
def runPick (s : State) (core part : Nat) (stalled : List (GKey × DWord)) : Result :=
  takePick (fetchAll s core part stalled) core part stalled

/-- Whether a group stands alone at a PC: no other group of its slot can issue the same instruction of the lane set there,
which would be merged with it. -/
def alone (s : State) (k : GKey) (pc : DWord) : Bool :=
  match findCtx s k with
  | none => false
  | some (g, w, _) =>
      !s.groups.any (fun x => x.key != k && inSlot s ⟨w.core, g.part, g.slot, 0, 0, 0, none, none⟩ x && issuable s x.key pc)
        || !lsetAt s k pc

/-- An issue turn: the candidates that it names are the ready ones of their slot. A slot whose candidates prove not ready has
not been picked (R319). Only an instruction that has been fetched is one of a pair (R318). -/
def runIssue (s : State) (k : GKey) (pc : DWord) (partner : Option DWord) : Result :=
  if issuable s k pc && alone s k pc then
    match partner with
    | none => afterIssue s k (runFocus (focusAt s k pc none))
    | some q =>
        if q ≠ pc ∧ issuable s k q = true ∧ alone s k q = true ∧ (wordsAt s k pc).isSome = true
            ∧ (wordsAt s k q).isSome = true then
          runBoth (if ready s k pc || ready s k q then picked s k else s) k pc q
        else notEnabled "ISSUE"
  else notEnabled "ISSUE"

/-! ## Clocks -/

/-- Whether a slot has a ready candidate (R319). -/
def slotReady (s : State) (x : IssueSlot) : Bool := !(slotCands s [] x).isEmpty

/-- A slot after n clocks: it grows older in a clock in which it has a ready candidate and is not picked (R319). Of a clock
without a pick `rdy` says whether it has one. -/
def IssueSlot.older (x : IssueSlot) (rdy : Bool) : Nat → IssueSlot
  | 0 => x
  | n + 1 =>
      let first := if x.grows.getD rdy then x.wait + 1 else 0
      { x with wait := if n = 0 then first else if rdy then first + n else 0, grows := none }

/-- n clocks pass: everything that waits has waited longer. -/
def tick (s : State) (n : Nat) : State :=
  let cluster (c : Cluster) : Cluster := { c with resv := updateIf (fun _ => true) (fun e => { e with wait := e.wait + n }) c.resv }
  let core (c : Core) : Core :=
    { c with coll := updateIf (fun _ => true) (fun e => { e with opened := e.opened + n, idle := e.idle + n }) c.coll }
  { s with
    clock := s.clock + n
    clusters := s.clusters.map (fun p => (p.1, cluster p.2))
    cores := s.cores.map (fun p => (p.1, core p.2))
    issueSlots := s.issueSlots.map (fun x => x.older (slotReady s x) n)
    launches := updateIf (fun _ => true) (fun l => { l with sliceLeft := l.sliceLeft.map (fun x => x - n) }) s.launches
    ports := updateIf (fun _ => true) (fun x => { x with wait := x.wait + n }) s.ports
    link := s.link.map (fun p => (p.1, flitTimes ((s.clock + n) / 2 - s.clock / 2) p.2)) }

/-! ## The bank ports of the die L2s (R321) -/

/-- A request arrives at a bank port. -/
def portReq (s : State) (die bank cls : Nat) : State :=
  let f := freshId s
  { f.2 with ports := s.ports ++ [⟨f.1, die, bank, cls, 0, none⟩] }

/-- A request stands above others once it has waited its bound less 8 clocks, whether or not the event that promotes it has come. -/
def PortReq.due (x : PortReq) : Bool := x.promoted.isSome || decide (portBound x.cls ≤ x.wait + 8)

/-- The better of two requests: promoted ones first, the oldest of them first; else by class and age. -/
def betterReq (a b : PortReq) : PortReq :=
  if a.due && b.due then (if b.id < a.id then b else a)
  else if a.due then a
  else if b.due then b
  else if b.cls < a.cls ∨ (b.cls = a.cls ∧ b.id < a.id) then b else a

/-- A bank port grants one request. -/
def portGrant (s : State) (die bank : Nat) : State :=
  match s.ports.filter (fun x => x.die = die && x.bank = bank) with
  | [] => s
  | x :: xs => { s with ports := s.ports.erase (xs.foldl betterReq x) }

/-! ## Turns -/

/-- The line of an address comes into the L1 of a group's core before any access reaches it: when a line that some load may fill
is read is left open (R288, R363; log entry 93). -/
def fillAhead (s : State) (k : GKey) (va : Nat) : State :=
  match findCtx s k with
  | some (_, w, ln) => if w.status = .saved then s else pfhLine w ln 2 s va
  | none => s

/-- What a turn does. -/
def runTurn (s : State) (t : Turn) : Result :=
  match t with
  | .event i => if isEvent i then exec i s else notEnabled "EVENT"
  | .issue k pc partner => runIssue s k pc partner
  | .pick core part stalled => runPick s core part stalled
  | .evict core base => .next (l1Drop s core base)
  | .fill k va => .next (fillAhead s k va)
  | .refresh core pa => .next (l1Refresh s core pa)
  | .send op r => eventOf "SEND" (sendAtomic s op r)
  | .clocks n => .next (tick s n)
  | .portReq die bank cls => .next (portReq s die bank cls)
  | .portGrant die bank => .next (portGrant s die bank)
  | .flitIn p v => .next (flitIn s p v)
  | .flitOut p v => .next (flitOut s p v)
  | .flitSend p v bs => .next (flitSend s p v bs)
  | .flitGrant p => .next (flitGrant s p)
  | .flitAck p => .next (flitAck s p)

/-! ## The order where no turn is named -/

/-- The events of an outstanding operation. -/
def opEvents (o : Op) : List Instr :=
  match o.kind with
  | .load _ => [.loadComplete o.id]
  | .store _ => []
  | .second _ => []
  | .atomic a => (List.range a.reqs.length).map (fun i => .atomicPerform o.id i)
  | .copy c => (List.range c.sectors.length).map (fun i => .copySectorLand o.id i)
  | .gath _ _ => [.gathComplete o.id]
  | .scat _ => [.scatWrite o.id]
  | .sisect _ => [.sisectRun o.id]
  | .bld _ => [.bldLoadComplete o.id]
  | .matrix _ => []
  | .team _ => []
  | .accrd _ => [.accOpComplete o.id]
  | .accwr _ => [.accOpComplete o.id]
  | .accpatch _ _ => [.accOpComplete o.id]
  | .accz _ _ => [.accOpComplete o.id]
  | .accst .. => [.accstComplete o.id]
  | .kst _ => [.kstRowPerformed o.id, .ksClaim o.id, .ksPublish o.id]
  | .kgath _ => [.kgathWalk o.id]
  | .pgreq _ => [.pgreqWalk o.id]

/-- The events of a group. -/
def groupEvents (g : Group) : List Instr :=
  [.teamTrap g.key, .storeRetire g.key]
    ++ g.parks.flatMap (fun p => [.presenceUnpark g.key p.pc, .migrationUnpark g.key p.pc])
    ++ g.holds.flatMap (fun h =>
      [.bwaitReturn g.key h.pc, .waitcReturn g.key h.pc, .ntdrainReturn g.key h.pc, .fenceComplete g.key h.pc])
    ++ [.groupEnd g.key]

/-- The events of a cluster. -/
def clusterEvents (p : Nat × Cluster) : List Instr :=
  p.2.resv.map (fun e => .reservationAged p.1 e.id)
    ++ [.matrixPassComplete p.1, .reservationGrant p.1 [], .hatArrive p.1, .burstEnd p.1]

/-- The events of a core. -/
def coreEvents (p : Nat × Core) : List Instr :=
  (if p.2.wc.isEmpty then [] else [.ntStoreWrite p.1 0])
    ++ p.2.coll.flatMap (fun e => [.collectorDispatch p.1 e.line, .collectorLineServed p.1 e.line])

/-- The events of dispatch. -/
def dispatchEvents (s : State) : List Instr :=
  s.launches.map (fun l => .launchComplete l.uid)
    ++ (if s.queued.isEmpty then [] else [.launchTake])
    ++ (s.wgs.filter (fun w => w.status = .stopping)).map (fun w => .preemptSave w.uid)
    ++ (if (eligibles s).isEmpty then []
        else
          (s.wgs.filter (fun w => w.status = .saved)).flatMap (fun w => allCores.map (fun c => .restore w.uid c))
            ++ allCores.map (fun c => .workgroupPlace c) ++ [.preempt])
    ++ (s.launches.filter (fun l => l.sliceLeft = some 0)).map (fun l => .sliceExpiry l.uid)

/-- The commands that wait in a slot. -/
def commandEvents (p : Nat × BitVec 512) : List Instr :=
  if h : p.1 < 64 then
    let k : Slot := ⟨p.1, h⟩
    [.flush k, .xupd k, .resolve k, .trapgo k, .keyld k, .keyclr k, .tapego k, .stepgo k, .recclr k, .commandInvalid k]
  else []

/-- The promotions that are due. -/
def promotionEvents (s : State) : List Instr :=
  (s.issueSlots.filter (fun x => decide (56 ≤ x.wait))).map (fun x => .issueSlotPromote x.core x.part x.slot)
    ++ s.ports.map (fun x => .l2PortPromote x.id)

/-- The events that the module can make for itself, in the order in which they are tried. -/
def ownEvents (s : State) : List Instr :=
  s.ops.flatMap opEvents ++ s.groups.flatMap groupEvents ++ s.clusters.flatMap clusterEvents ++ s.cores.flatMap coreEvents
    ++ s.reqs.map (fun r => .residencyComplete r.id) ++ s.xupds.map (fun u => .translationUpdateComplete u.id)
    ++ dispatchEvents s ++ s.cmds.flatMap commandEvents ++ promotionEvents s

/-- The first event of a list that the state allows. -/
def firstEvent (s : State) : List Instr → Option State
  | [] => none
  | i :: is =>
      match exec i s with
      | .next s' => some s'
      | _ => firstEvent s is

/-- Every partition that holds a slot picks once, with nothing stalled, and the clock passes. -/
def runClock (s : State) : Result :=
  let pick (r : Result) (p : Nat × Nat) : Result :=
    match r with
    | .next t => runPick t p.1 p.2 []
    | r => r
  match (dedup (s.issueSlots.map (fun x => (x.core, x.part)))).foldl pick (.next s) with
  | .next t => .next (tick t 1)
  | r => r

/-- The world in which a start meets no failure: every die's spare is its last cluster, no pool, no sealed key. -/
def StartEnv.fair : StartEnv :=
  { primaryFails := [], alternateFails := [], cxlDown := 0, portDown := 0, halfRate := 0, badClusters := []
    fuses := List.replicate 4 0xFFFF, poolBytes := 0, sealedKeys := [] }

/-- What happens where no turn is named: a powered module starts; then its own events come first, then a clock in which
every partition issues what R319 takes. -/
def runDefault (s : State) : Result :=
  if s.boot.step = 0 ∧ s.powered = true then exec (.start StartEnv.fair) s
  else
    match firstEvent s (ownEvents s) with
    | some s' => .next s'
    | none => runClock s

/-- One step of the machine. -/
def runNext (s : State) : Result :=
  match s.turns with
  | [] => runDefault s
  | t :: ts => runTurn { s with turns := ts } t

/-! ## A state that runs a given instruction -/

/-- Where the tables and the code page of the probe kernel stand in near memory. -/
def probeRoot : Nat := 0x40000
def probeCode : Nat := 0x100000

/-- The probe's launch: one workgroup of one group of width 8 with 16 registers, 64 code words at virtual address 0. -/
def probeLaunch (uid : Nat) : Launch :=
  { Launch.blank probeRoot 0 with
    uid := uid, recPa := 0x200000, region := 0x200200, chain := [0x200200], caps := [256], kernel := 0, width := 8
    nregs := 16, scratch := 8, accRows := 8, bslots := 1, teams := List.replicate 8 0, codeLen := 64, nwg := 1, gpw := 1
    params := List.replicate 16 0, live := 1 }

/-- The probe's workgroup. -/
def probeWg (uid launch : Nat) : Wg :=
  { uid := uid, launch := launch, index := 0, core := 0, status := .resident, owner := 0, scratchSize := 1024, scratch := []
    absent := [], accRows := 8, acc := [], handles := [], watch := [], recUnit := 0, recUnits := 1, placedSeq := uid, slots := [], resv := [] }

/-- Writes the probe's tables: virtual page 0 is the code page, readable and executable. -/
def probeTables (m : List Host.Cell) : List Host.Cell :=
  let put (m : List Host.Cell) (pa e : Nat) : List Host.Cell := memSetBytes m pa (leBytes 8 e)
  put (put (put (put m probeRoot 0x80001) 0x80000 0xC0001) 0xC0000 0xD0001) 0xD0000 (probeCode + 0x2D)

/-- Stores an instruction where the next step fetches it: the module is in service, a kernel is loaded and placed, and the
next turn issues its first instruction. -/
def placeProbe (s : State) (bs : List Byte) : State :=
  let uid := s.seq
  let l := probeLaunch uid
  let w := probeWg (uid + 1) uid
  let m := memSetBytes (probeTables s.mem) (probeCode + 64) bs
  { s with
    turns := .issue ⟨uid + 1, 0⟩ 64 none :: s.turns
    seq := uid + 2, mem := m, xmem := probeTables s.xmem
    keys := mapPut s.keys 0 (keyOr s 0)
    groups := s.groups ++ [freshGroup l (uid + 1) 0 0 ⟨uid, 16, 0, 0, 0⟩]
    wgs := s.wgs ++ [w]
    issueSlots := s.issueSlots ++ [⟨0, 0, 0, uid, 0, 0, none, none⟩]
    launches := s.launches ++ [l]
    mcb := { s.mcb with hbma := 8, saveb := 0x300000, saven := 64 }
    boot := { s.boot with step := 10 } }

end Sys2Proof.Machine
end

