-- ==== Sys2Proof/Machine/Step.lean ====
section
/-! DEFINITION. The step function, and a state whose next step runs a given instruction. -/

namespace Sys2Proof.Machine

/-- One step: the next turn, or what follows by itself. -/
def step (s : State) : Host.Outcome State Fault Refusal := runNext s

/-- The state with an instruction of the opcode table stored where the next step fetches it. -/
def State.withFetchWord (s : State) (nbits w : Nat) : State := placeProbe s (leBytes 12 (w % 2 ^ nbits))

end Sys2Proof.Machine
end

