-- ==== Sys2Proof/Safety.lean ====
section
/-! DEFINITION. The terms in which claims about the machine are stated: what a run reaches, which runs are safe, the
invariant that every step keeps, and views of a state through which results and frames are read. -/

namespace Sys2Proof.Machine

/-! ## Runs -/

/-- The states that steps lead to. -/
inductive Reaches : State → State → Prop
  | refl (s : State) : Reaches s s
  | tail {s t u : State} : Reaches s t → step t = .next u → Reaches s u

/-- A run from this state never stops: every state that it reaches has a next state. -/
def SafeRun (s : State) : Prop := ∀ t, Reaches s t → ∃ u, step t = .next u

/-! ## The invariant -/

/-- The memory list, and the view of it that table walks read, keep their canonical form. -/
def Inv (s : State) : Prop := Memory.wf s.mem = true ∧ Memory.wf s.xmem = true

/-! ## Views -/

/-- Lane `l` of the group with this key. -/
def laneAt (s : State) (k : GKey) (l : Nat) : Option Lane :=
  match findGroup s k with
  | some g => g.lane? l
  | none => none

/-- The focus is where an instruction of `n` words finds the population of `c`, and its lanes may go on to the next word
(R146, R168). -/
structure Stands (s : State) (c : Ctx) (n : Nat) : Prop where
  ctx : focusCtx s n = some c
  falls : inCode c.ln c.g c.nextPc = true

/-- No register of a list is poisoned in a lane of a list (R358). -/
def Clean (s : State) (c : Ctx) (ls rs : List Nat) : Prop :=
  ∀ l ∈ ls, ∀ r ∈ rs, PoisonLoc.vreg c.g.key l r ∉ s.poison

/-- Everything of a state other than its groups, the focus and the notes of poisoned registers is unchanged: memory and
its caches, scratchpads, outstanding operations, engines, launches, the control block and the link. -/
def SameElsewhere (s t : State) : Prop := { t with groups := s.groups, focus := s.focus, poison := s.poison } = s

/-- The groups other than one are unchanged. -/
def SameOthers (s t : State) (k : GKey) : Prop := ∀ k', k' ≠ k → findGroup t k' = findGroup s k'

/-- Of a group, everything but its lanes, scalar registers, FP status, count of accepted instructions, notes of parks and
WSKIP state is unchanged: the distribution and generator registers, the query registers, the queues and the trap state. -/
def SameGroup (g g' : Group) : Prop :=
  { g' with
    lanes := g.lanes, s := g.s, fps := g.fps, eop := g.eop, parks := g.parks, waited := g.waited, wskip := g.wskip } = g

/-- Only poison of registers that an instruction writes is cleared, and none is added. -/
def PoisonKept (s t : State) (k : GKey) (ls rs : List Nat) : Prop :=
  ∀ p, p ∈ t.poison ↔ p ∈ s.poison ∧ ¬ ∃ l ∈ ls, ∃ r ∈ rs, p = .vreg k l r

/-- Every byte of physical memory and of every scratchpad reads as before, at its home and through any core. -/
def SameBytes (s t : State) : Prop :=
  (∀ pa, plainByte t pa = plainByte s pa) ∧ (∀ uid off, scratchByte t uid off = scratchByte s uid off) ∧
    (∀ key pa, homeByte t key pa = homeByte s key pa)

/-! ## The issue of an L-set instruction as claims see it -/

/-- An L-set instruction as its rules give it: its source operands with their position types, the registers that it
names beside them, those that it reads beside them, and whether it draws stream words of its own (R22, R23, R192); the
counter that it raises (R139); its H and W fields, and the handle slot and width that they come to (R19). -/
structure LIssue where
  instr : Instr
  srcs : List (SrcTy × LSrc)
  named : List Nat
  reads : List Nat
  own : Bool
  cls : OpClass := .none
  hsel : Option HSel := none
  slot : Nat := 0
  width : Width := .w4

/-- The vector registers that the sources name. -/
def LIssue.vregs (q : LIssue) : List Nat :=
  q.srcs.flatMap (fun x => LSrc.vregs x.2) ++ (match q.hsel with | some (.reg r) => [r.val] | _ => [])

/-- The distribution registers that the sources name. -/
def LIssue.dists (q : LIssue) : List Nat := q.srcs.flatMap (fun x => LSrc.dists x.2)

/-- The image of a REJECT register that it names (R188). -/
def LIssue.reject (q : LIssue) (g : Group) : Option DsImage :=
  firstSome (q.dists.map (fun r =>
    match dsOf g r with
    | some im => if im.kind = .reject then some im else none
    | none => none))

/-- The lanes that take part: the population, or with a REJECT register those whose attempt is accepted (R188). -/
def LIssue.acting (q : LIssue) (s : State) (c : Ctx) : List Nat :=
  match q.reject c.g with
  | none => c.act
  | some im => c.act.filter (fun l => match c.g.lane? l with | some x => drawAccepts s c.g im x | none => false)

/-- A lane that does not take part: an attempt that was rejected has used two words (R188). -/
def LIssue.spent (q : LIssue) (c : Ctx) (l : Nat) (x : Lane) : Lane :=
  match q.reject c.g with
  | some im => if l ∈ c.act then x.skip im.stream.val 2 else x
  | none => x

/-- The value of v(H) that gives a slot and a width (R19). -/
def hValue (slot : Nat) (w : Width) : Word :=
  BitVec.ofNat 32 (slot + 256 * (match w with | .w4 => 0 | .w8 => 1 | .w16 => 2))

/-- None of these scratchpad offsets lies in a poisoned line (R358). -/
def NoSoft (s : State) (wg : Nat) (offs : List Nat) : Prop := ∀ off ∈ offs, PoisonLoc.scratch wg (off / 128) ∉ s.poison

/-- What H and W come to: nothing, a slot and a width in the word, or those of v(H), the same in every lane that takes
part (R19, R149). -/
def LIssue.Picks (q : LIssue) (s : State) (c : Ctx) : Prop :=
  match q.hsel with
  | none => q.slot = 0 ∧ q.width = .w4
  | some (.slot h w) => q.slot = h.val ∧ q.width = w
  | some (.reg r) => q.slot < 64 ∧
      ∀ l ∈ q.acting s c, ∀ x, c.g.lane? l = some x → x.vreg r.val = hValue q.slot q.width

/-- The conditions under which it is issued and executes: it stands at the focus, its registers are declared (R22), its
distribution registers are loaded (R183) and a REJECT register is alone (R189), a lane takes part, no register and no table
word that it reads is poisoned (R358), its counter is not full (R139), and H and W come to its slot and width (R19). -/
structure LIssue.Enters (q : LIssue) (s : State) (c : Ctx) : Prop where
  ctx : focusCtx s q.instr.len = some c
  declares : ∀ r ∈ q.named ++ q.vregs, r < declared c.ln c.g
  loaded : ∀ r ∈ q.dists, (dsOf c.g r).isSome = true
  alone : (q.reject c.g).isSome = true → q.dists.length = 1 ∧ q.own = false
  acts : q.acting s c ≠ []
  tries : ∀ im, q.reject c.g = some im → ∀ l ∈ c.act, ∀ x, c.g.lane? l = some x → NoSoft s c.w.uid (drawReads im x)
  clean : Clean s c (q.acting s c) (q.vregs ++ q.reads)
  tables : ∀ l ∈ q.acting s c, ∀ x, c.g.lane? l = some x → NoSoft s c.w.uid (srcReads s c.g l q.srcs x)
  room : q.cls ≠ .none → counter s c.g.key q.cls < 63
  picks : q.Picks s c

/-- The same for an instruction whose lanes go on to the next word, which lies in the code (R168). -/
structure LIssue.Ready (q : LIssue) (s : State) (c : Ctx) : Prop extends q.Enters s c where
  falls : inCode c.ln c.g c.nextPc = true

/-- The values of the sources in a lane, and the lane after their draws (R21, R186). -/
def LIssue.operands (q : LIssue) (s : State) (c : Ctx) (l : Nat) (x : Lane) : List Word × Lane :=
  readSrcs s c.g l q.srcs x

/-- Operand `n` of a lane. -/
def LIssue.operand (q : LIssue) (s : State) (c : Ctx) (l : Nat) (x : Lane) (n : Nat) : Word :=
  (q.operands s c l x).1.getD n 0

/-- The lane after its operand draws. -/
def LIssue.drawn (q : LIssue) (s : State) (c : Ctx) (l : Nat) (x : Lane) : Lane := (q.operands s c l x).2

/-- The first operand of lane `p`, if `p` takes part (R163). -/
def LIssue.supplied (q : LIssue) (s : State) (c : Ctx) (p : Nat) : Option Word :=
  if p ∈ q.acting s c then (c.g.lane? p).map (fun x => q.operand s c p x 0) else none

/-- The rank of a lane: how many acting lanes lie below it (R166). -/
def LIssue.rank (q : LIssue) (s : State) (c : Ctx) (l : Nat) : Nat := ((q.acting s c).filter (fun j => j < l)).length

/-- The acting lanes of which something holds. -/
def LIssue.lanesWith (q : LIssue) (s : State) (c : Ctx) (f : Nat → Lane → Bool) : List Nat :=
  (q.acting s c).filter (fun l => match c.g.lane? l with | some x => f l x | none => false)

/-- A list computed from the acting lanes, ascending. -/
def LIssue.over {α : Type} (q : LIssue) (s : State) (c : Ctx) (f : Nat → Lane → α) : List α :=
  (q.acting s c).filterMap (fun l => (c.g.lane? l).map (f l))

/-- The instruction at the focus completes: exec answers a next state in which the group has accepted one instruction
more, its scalar registers and FP status are as given, each lane is as `lane` says, and nothing else has changed. -/
def Completes (i : Instr) (s : State) (c : Ctx) (sregs : SMap Word) (fps : BitVec 6) (lanes regs : List Nat)
    (lane : Nat → Lane → Lane) : Prop :=
  ∃ t, exec i s = .next t ∧ SameElsewhere s t ∧ SameBytes s t ∧ SameOthers s t c.g.key ∧
    PoisonKept s t c.g.key lanes regs ∧
    ∃ g, findGroup t c.g.key = some g ∧ SameGroup c.g g ∧ g.s = sregs ∧ g.fps = fps ∧ g.eop = c.g.eop + 1 ∧
      ∀ l, g.lane? l = (c.g.lane? l).map (lane l)

/-- An L-set instruction completes: the FP status takes `fl`, the lanes `wl` write the registers `regs`, and each acting
lane is as `out` says and stands at the next word. -/
def LIssue.Done (q : LIssue) (s : State) (c : Ctx) (fl : BitVec 6) (wl regs : List Nat) (out : Nat → Lane → Lane) :
    Prop :=
  Completes q.instr s c c.g.s (c.g.fps ||| fl) wl regs
    (fun l x => if l ∈ q.acting s c then { out l x with pc := c.nextPc } else q.spent c l x)

/-- A U-set instruction completes: its effect on the scalar registers, FP status and population is as given. -/
def UDone (i : Instr) (s : State) (c : Ctx) (sregs : SMap Word) (fps : BitVec 6) (target : DWord) : Prop :=
  Completes i s c sregs fps [] [] (fun l x => if l ∈ c.act then { x with pc := target } else x)

/-! ## Instructions whose effect reaches beyond the registers of their group -/

/-- A group after such an instruction: what `g₀` says of its scalar registers, FP status, distribution, generator and
query registers and trap state; lanes, counts, queues and notes of waiting are said apart. -/
def SameBut (g₀ g : Group) : Prop :=
  { g with
    lanes := g₀.lanes, eop := g₀.eop, parks := g₀.parks, waited := g₀.waited, wskip := g₀.wskip, fifo := g₀.fifo
    issued := g₀.issued, holds := g₀.holds, half := g₀.half, openPst := g₀.openPst } = g₀

/-- The other groups keep their lanes, scalar registers, FP status and counts of accepted instructions. -/
def OthersKeep (s t : State) (k : GKey) : Prop :=
  ∀ k', k' ≠ k → (findGroup t k').map (fun g => (g.lanes, g.s, g.fps, g.eop)) =
    (findGroup s k').map (fun g => (g.lanes, g.s, g.fps, g.eop))

/-- The instruction at the focus completes by its own effect: exec answers a next state in which the group has accepted
one instruction more, its registers are as `gf` leaves them, each lane is as `lane` says, the registers of no other group
have changed, and `post` holds. -/
def Accepts (i : Instr) (s : State) (c : Ctx) (gf : Group → Group) (lane : Nat → Lane → Lane) (post : State → Prop) :
    Prop :=
  ∃ t g, exec i s = .next t ∧ findGroup t c.g.key = some g ∧ SameBut (gf c.g) g ∧ g.eop = c.g.eop + 1 ∧
    (∀ l, g.lane? l = (c.g.lane? l).map (lane l)) ∧ OthersKeep s t c.g.key ∧ post t

/-- A U-set instruction completes: its population stands at the next word. -/
def UAccepts (i : Instr) (s : State) (c : Ctx) (gf : Group → Group) (post : State → Prop) : Prop :=
  Accepts i s c gf (fun l x => if l ∈ c.act then { x with pc := c.nextPc } else x) post

/-- The issue narrowed to the lanes that take part. -/
def LIssue.on (q : LIssue) (s : State) (c : Ctx) : Ctx := { c with act := q.acting s c }

/-- The state in which those lanes act: rejected attempts have used their words (R188). -/
def LIssue.after (q : LIssue) (s : State) (c : Ctx) : State :=
  match q.reject c.g with
  | none => s
  | some im =>
      updGroup s c.g.key (fun g =>
        g.mapLanes (c.act.filter (fun l => !(q.acting s c).contains l)) (fun _ x => x.skip im.stream.val 2))

/-- The first operands of the acting lanes with their lanes: the element indices of an access (R101). -/
def LIssue.indices (q : LIssue) (s : State) (c : Ctx) : List (Nat × Nat) :=
  q.over s c (fun l x => (l, (q.operand s c l x 0).toNat))

/-- An L-set instruction is accepted: each acting lane has used its draws, is as `lane` says and stands at the next word;
no register that the operation will write has changed yet. -/
def LIssue.Accepted (q : LIssue) (s : State) (c : Ctx) (fl : BitVec 6) (lane : Nat → Lane → Lane) (post : State → Prop) :
    Prop :=
  Accepts q.instr s c (fun g => { g with fps := g.fps ||| fl })
    (fun l x => if l ∈ q.acting s c then { lane l x with pc := c.nextPc } else q.spent c l x) post

/-- The acting lanes with their operands and draws (R21, R186). -/
def LIssue.ins (q : LIssue) (s : State) (c : Ctx) : List LaneIn :=
  q.over s c (fun l x => ⟨l, q.drawn s c l x, (q.operands s c l x).1⟩)

/-- The issue as the instruction's own checks see it. -/
def LIssue.issue (q : LIssue) (s : State) (c : Ctx) : Issue := ⟨q.on s c, q.after s c, q.slot, q.width, q.ins s c⟩

/-- The access of the acting lanes through a handle passes its checks (R101): the slot is loaded with a format that the
instruction takes and without PROFILE, and `runs` are the bytes that the lanes in bounds reach, aligned to their size. -/
structure LIssue.Aims (q : LIssue) (s : State) (c : Ctx) (h : Handle) (fmts : List Nat) (n : Nat) (runs : List Run) :
    Prop where
  slot : c.slot q.slot = h
  isLoaded : loaded h = true
  format : fmts.contains (hFmt h) = true
  noProfile : hProfile h = false
  lanes : laneRuns (q.on s c) h n n (q.indices s c) = .ok runs

/-- Such an access that writes: the pages of its runs translate, or their scratchpad lines are present (R58, R127); no watch of
this issue matches (R348); and what a wait for presence has joined is observed. `s₁` is the state that these leave. -/
structure LIssue.Reaches (q : LIssue) (s : State) (c : Ctx) (h : Handle) (fmts : List Nat) (need : Need) (n : Nat)
    (runs : List Run) (els : List WatchEl) (s₁ : State) : Prop extends q.Aims s c h fmts n runs where
  pages : reach (q.on s c) (q.after s c) h need false runs = .ok ()
  seen : ∃ s₀, watchStep (q.on s c) (q.after s c) els = .ok s₀ ∧ observeParked (q.on s c) s₀ h runs = .ok s₁

/-- Such an access that reads. The writes of its group that it must follow are performed first and leave `s₀`; in `s₀` its pages
translate or its lines are present, and so do those of the `extra` runs, the tiles and trailers whose checks pass (R108); then
the reads of these, the watches and the joins leave `s₁`. -/
structure LIssue.Loads (q : LIssue) (s : State) (c : Ctx) (h : Handle) (fmts : List Nat) (tolerant : Bool) (n : Nat)
    (runs extra : List Run) (s₀ s₁ : State) : Prop extends q.Aims s c h fmts n runs where
  inside : hScratch h = true → spCheck (q.on s c) extra = .ok ()
  pages : reachRead (q.on s c) (q.after s c) h tolerant (runs ++ extra) = .ok s₀
  seen : ∃ s₂ s₃, (if extra = [] then .ok s₀ else tileCheck (q.on s c) s₀ h runs) = .ok s₂ ∧
    watchStep (q.on s c) s₂ (runEls h .lr runs) = .ok s₃ ∧ observeParked (q.on s c) s₃ h (runs ++ extra) = .ok s₁

/-- Such an access that reads and writes behind the group's stores: the outstanding SCATs of its lines are performed first (R297),
then its pages translate or its lines are present; no watch of this issue matches, and the joins leave `s₁`. -/
structure LIssue.Updates (q : LIssue) (s : State) (c : Ctx) (h : Handle) (fmts : List Nat) (n : Nat) (runs : List Run)
    (els : List WatchEl) (s₁ : State) : Prop extends q.Aims s c h fmts n runs where
  seen : ∃ s₀ s₂, reachRw (q.on s c) (q.after s c) h runs = .ok s₀ ∧ watchStep (q.on s c) s₀ els = .ok s₂ ∧
    observeParked (q.on s c) s₂ h runs = .ok s₁

/-- No two entries of the tables of the state are one: no two operations and no two workgroups share an identity, and the next
identity is given to none; an entry of a group's FIFO names an operation of that group; cores and clusters are listed in canonical form, and so are the scratchpad and accumulator contents of
every workgroup. -/
structure Canon (s : State) : Prop where
  ids : ∀ o ∈ s.ops, o.id < s.seq
  apart : (s.ops.map (·.id)).Nodup
  uids : ∀ w ∈ s.wgs, w.uid < s.seq
  wgsApart : (s.wgs.map (·.uid)).Nodup
  fifos : ∀ g ∈ s.groups, ∀ e ∈ g.fifo, e.op < s.seq ∧ ∀ o ∈ s.ops, o.id = e.op → o.grp = g.key
  cores : mapWf Core.empty s.cores = true
  clusters : mapWf Cluster.empty s.clusters = true
  stores : ∀ w ∈ s.wgs, mapWf 0 w.scratch = true ∧ mapWf 0 w.acc = true

/-- An operation of a group that has been accepted last in its class and still has everything to do. -/
def Outstanding (t : State) (k : GKey) (cls : OpClass) (kind : OpKind) : Prop :=
  ∃ o ∈ t.ops, o.grp = k ∧ o.cls = cls ∧ o.kind = kind ∧ o.done = false

/-- The same for the operation of a given identity: the one that an entry of its group's FIFO names. -/
def OutstandingAs (t : State) (id : Nat) (k : GKey) (cls : OpClass) (kind : OpKind) : Prop :=
  ∃ o ∈ t.ops, o.id = id ∧ o.grp = k ∧ o.cls = cls ∧ o.kind = kind ∧ o.done = false

end Sys2Proof.Machine
end

