-- ==== Sys2Proof/Rules.lean ====
section
/-! DEFINITION. What single rules of the manual give, written from their words for the claims and apart from the
machine's own functions: results over integers, comparisons as relations, folds over lists. -/

namespace Sys2Proof.Rules

open Sys2Proof.Machine

/-! ## Integer instructions (R150, R151, R152) -/

/-- IUNY's sub-operations (R151). -/
def iuny (op : IunyOp) (x : Word) : Word :=
  match op with
  | .popc => BitVec.ofNat 32 ((List.range 32).countP (fun i => x.getLsbD i))
  | .clz => if x = 0 then 32 else BitVec.ofNat 32 (31 - Nat.log2 x.toNat)
  | .brev => x.reverse
  | .abs => BitVec.ofInt 32 (if x.toInt < 0 then -x.toInt else x.toInt)
  | .neg => BitVec.ofInt 32 (-x.toInt)
  | .not => BitVec.ofInt 32 (-x.toInt - 1)

/-- An instruction that computes one register from its sources: the sources with their position types, the
destination, whether it reads the old destination, and the result from a, b and d. -/
structure DstRule where
  srcs : List (SrcTy × LSrc)
  dst : VReg
  acc : Bool
  f : Word → Word → Word → Word

/-- The issue of an instruction with such a rule. -/
def DstRule.issue (u : DstRule) (i : Instr) : LIssue :=
  { instr := i, srcs := u.srcs, named := [u.dst.val], reads := if u.acc then [u.dst.val] else [], own := false }

/-- The integer instructions: results wrap to 32 bits, and shift counts are unsigned and unbounded (R150, R151); MOV
(R162). -/
def intRule : Instr → Option DstRule
  | .iadd d a b => some ⟨[(.int, a), (.int, b)], d, false, fun x y _ => BitVec.ofInt 32 (x.toInt + y.toInt)⟩
  | .isub d a b => some ⟨[(.int, a), (.int, b)], d, false, fun x y _ => BitVec.ofInt 32 (x.toInt - y.toInt)⟩
  | .imul d a b => some ⟨[(.int, a), (.int, b)], d, false, fun x y _ => BitVec.ofInt 32 (x.toInt * y.toInt)⟩
  | .imulh d a b => some ⟨[(.int, a), (.int, b)], d, false, fun x y _ => BitVec.ofInt 32 (x.toInt * y.toInt / 2 ^ 32)⟩
  | .imulhu d a b => some ⟨[(.int, a), (.int, b)], d, false, fun x y _ => BitVec.ofNat 32 (x.toNat * y.toNat / 2 ^ 32)⟩
  | .imad d a b => some ⟨[(.int, a), (.int, b)], d, true, fun x y z => BitVec.ofInt 32 (x.toInt * y.toInt + z.toInt)⟩
  | .imin d a b => some ⟨[(.int, a), (.int, b)], d, false, fun x y _ => if y.toInt < x.toInt then y else x⟩
  | .imax d a b => some ⟨[(.int, a), (.int, b)], d, false, fun x y _ => if x.toInt < y.toInt then y else x⟩
  | .and d a b => some ⟨[(.int, a), (.int, b)], d, false, fun x y _ => x &&& y⟩
  | .or d a b => some ⟨[(.int, a), (.int, b)], d, false, fun x y _ => x ||| y⟩
  | .xor d a b => some ⟨[(.int, a), (.int, b)], d, false, fun x y _ => x ^^^ y⟩
  | .shl d a b => some ⟨[(.int, a), (.int, b)], d, false, fun x y _ => BitVec.ofNat 32 (x.toNat * 2 ^ y.toNat)⟩
  | .shr d a b => some ⟨[(.int, a), (.int, b)], d, false, fun x y _ => BitVec.ofNat 32 (x.toNat / 2 ^ y.toNat)⟩
  | .sar d a b => some ⟨[(.int, a), (.int, b)], d, false, fun x y _ => BitVec.ofInt 32 (x.toInt / 2 ^ y.toNat)⟩
  | .iuny op d a => some ⟨[(.int, a)], d, false, fun x _ _ => iuny op x⟩
  | .mov d a => some ⟨[(.int, a)], d, false, fun x _ _ => x⟩
  | _ => none

/-- The integer conditions: LTU, LEU, GTU and GEU compare unsigned, the others signed (R36, R152). -/
def icond (c : ICond) (x y : Word) : Bool :=
  match c with
  | .eq => decide (x = y)
  | .ne => decide (x ≠ y)
  | .lt => decide (x.toInt < y.toInt)
  | .le => decide (x.toInt ≤ y.toInt)
  | .gt => decide (y.toInt < x.toInt)
  | .ge => decide (y.toInt ≤ x.toInt)
  | .ltu => decide (x.toNat < y.toNat)
  | .leu => decide (x.toNat ≤ y.toNat)
  | .gtu => decide (y.toNat < x.toNat)
  | .geu => decide (y.toNat ≤ x.toNat)

/-- The comparisons that write a mask bit: position type, sources, mask and condition (R152, R156). -/
structure MaskRule where
  srcs : List (SrcTy × LSrc)
  m : MReg
  f : Word → Word → Bool

/-- ISET and FSET (R152, R156). -/
def maskRule : Instr → Option MaskRule
  | .iset c m a b => some ⟨[(.int, a), (.int, b)], m, icond c⟩
  | .fset c m a b => some ⟨[(.fp32, a), (.fp32, b)], m, fun x y => condF c x.toNat y.toNat⟩
  | _ => none

/-- The issue of an instruction that names no vector register but its sources. -/
def maskIssue (i : Instr) (srcs : List (SrcTy × LSrc)) : LIssue :=
  { instr := i, srcs := srcs, named := [], reads := [], own := false }

/-! ## Floating-point instructions (R154–R157) -/

/-- An instruction that computes one register and status bits from its sources. -/
structure FpRule where
  srcs : List (SrcTy × LSrc)
  dst : VReg
  acc : Bool
  f : Word → Word → Word → FRes

/-- The issue of an instruction with such a rule. -/
def FpRule.issue (u : FpRule) (i : Instr) : LIssue :=
  { instr := i, srcs := u.srcs, named := [u.dst.val], reads := if u.acc then [u.dst.val] else [], own := false }

/-- One 16-bit half of a packed multiply-add: d + a × b, rounded once, in the upper or the lower half (R157). -/
def half (f : FFmt) (k : Nat) (x y z : Word) : FRes :=
  fmaF f (x.toNat / 65536 ^ k % 65536) (y.toNat / 65536 ^ k % 65536) (z.toNat / 65536 ^ k % 65536)

/-- Two halves side by side, their status bits ORed (R157). -/
def packed (f : FFmt) (x y z : Word) : FRes :=
  ⟨(half f 0 x y z).code + 65536 * (half f 1 x y z).code, (half f 0 x y z).fl ||| (half f 1 x y z).fl⟩

/-- The floating-point instructions: a sum, difference or product rounded once; the fused forms round a × b + d once
(R154, R155, R157). -/
def fpRule : Instr → Option FpRule
  | .fadd d a b => some ⟨[(.fp32, a), (.fp32, b)], d, false, fun x y _ => addF .fp32 x.toNat y.toNat⟩
  | .fsub d a b => some ⟨[(.fp32, a), (.fp32, b)], d, false, fun x y _ => subF .fp32 x.toNat y.toNat⟩
  | .fmul d a b => some ⟨[(.fp32, a), (.fp32, b)], d, false, fun x y _ => mulF .fp32 x.toNat y.toNat⟩
  | .ffma d a b => some ⟨[(.fp32, a), (.fp32, b)], d, true, fun x y z => fmaF .fp32 x.toNat y.toNat z.toNat⟩
  | .fmin d a b => some ⟨[(.fp32, a), (.fp32, b)], d, false, fun x y _ => minMaxF false x.toNat y.toNat⟩
  | .fmax d a b => some ⟨[(.fp32, a), (.fp32, b)], d, false, fun x y _ => minMaxF true x.toNat y.toNat⟩
  | .hfma2 d a b => some ⟨[(.fp16, a), (.fp16, b)], d, true, packed .fp16⟩
  | .bfma2 d a b => some ⟨[(.bf16, a), (.bf16, b)], d, true, packed .bf16⟩
  | .funy op d a => some ⟨[(.fp32, a)], d, false, fun x _ _ => funyF op x.toNat⟩
  | _ => none

/-! ## Rounding (R80, R88–R91, R153) -/

/-- The magnitude of a code without its sign, the exponent range having no upper limit (R80, R88). -/
def magnitude (f : FFmt) (c : Nat) : ℚ :=
  if c < 2 ^ fracBits f then c * 2 ^ (1 - expBias f - fracBits f)
  else (2 ^ fracBits f + c % 2 ^ fracBits f : Nat) * 2 ^ ((c / 2 ^ fracBits f : Nat) - expBias f - fracBits f)

/-- A value as a rational number; infinities and NaN are none. -/
def rational : FVal → Option ℚ
  | .zero _ => some 0
  | .fin neg m e => some ((if neg then -1 else 1) * m * 2 ^ e)
  | _ => none

/-- Code c is the greatest of a rising grid that does not lie above a. -/
def Below (grid : Nat → ℚ) (a : ℚ) (c : Nat) : Prop := grid c ≤ a ∧ a < grid (c + 1)

/-- Code c is the least of a rising grid that does not lie below a. -/
def Above (grid : Nat → ℚ) (a : ℚ) (c : Nat) : Prop := a ≤ grid c ∧ ∀ b < c, grid b < a

/-- SR rounds a up from code t of the grid (R90): k bits of the source, whose least significant bit stands for 2^lsb, lie below
the grid's place there, and d is what they hold. -/
def Carries (grid : Nat → ℚ) (lsb : Int) (word : Nat) (a : ℚ) (t : Nat) : Prop :=
  ∃ k d : Nat, grid (t + 1) - grid t = 2 ^ (lsb + k) ∧ a - grid t = d * 2 ^ lsb ∧
    if k ≤ 32 then 2 ^ k ≤ word % 2 ^ k + d else 2 ^ 32 ≤ word + d / 2 ^ (k - 32)

/-- Code c is what a magnitude rounds to on a grid (R88, R90): under RNE the nearest, the even one of two that are equally near. -/
def RoundsTo (grid : Nat → ℚ) (mode : RMode) (neg : Bool) (lsb : Int) (a : ℚ) (c : Nat) : Prop :=
  match mode with
  | .rne => ∀ b, b ≠ c → |a - grid c| < |a - grid b| ∨ (|a - grid c| = |a - grid b| ∧ c % 2 = 0)
  | .rz => Below grid a c
  | .rdn => if neg then Above grid a c else Below grid a c
  | .rup => if neg then Below grid a c else Above grid a c
  | .sr word => word < 2 ^ 32 → ∃ t, Below grid a t ∧ (Carries grid lsb word a t → c = t + 1) ∧ (¬ Carries grid lsb word a t → c = t)

/-- The encoding of a rounded magnitude with its sign; one above max finite gives what R89's table says. -/
def outcome (f : FFmt) (mode : RMode) (sat neg : Bool) (c : Nat) : Nat :=
  let away := if f = .e4m3 then 0x7F else infCode f
  (if neg then signBit f else 0) +
    (if c ≤ maxCode f then c
     else if sat then maxCode f
     else match mode with
       | .rne => away
       | .sr _ => away
       | .rz => maxCode f
       | .rdn => if neg then away else maxCode f
       | .rup => if neg then maxCode f else away)

/-- An encoding is the exact nonzero value q rounded once by RNE, with saturation off (R88, R89, R153). -/
def RoundedOnce (f : FFmt) (q : ℚ) (code : Nat) : Prop :=
  ∃ c, RoundsTo (magnitude f) .rne (decide (q < 0)) 0 |q| c ∧ code = outcome f .rne false (decide (q < 0)) c

/-- What the arithmetic of a format gives (R153, R154): exact results rounded once; an exact zero sum is +0, but −0 where both are
negative zeros; a zero product takes the exclusive OR of the signs; and a NaN operand gives the canonical NaN. -/
structure Arithmetic (f : FFmt) (a b d : Nat) : Prop where
  add : ∀ x y, rational (decodeF f a) = some x → rational (decodeF f b) = some y →
    (x + y ≠ 0 → RoundedOnce f (x + y) (addF f a b).code) ∧
    (x + y = 0 → (addF f a b).code = if decodeF f a = .zero true ∧ decodeF f b = .zero true then signBit f else 0)
  sub : ∀ x y, rational (decodeF f a) = some x → rational (decodeF f b) = some y →
    (x - y ≠ 0 → RoundedOnce f (x - y) (subF f a b).code) ∧
    (x - y = 0 → (subF f a b).code = if decodeF f a = .zero true ∧ decodeF f b = .zero false then signBit f else 0)
  mul : ∀ x y, rational (decodeF f a) = some x → rational (decodeF f b) = some y →
    (x * y ≠ 0 → RoundedOnce f (x * y) (mulF f a b).code) ∧
    (x * y = 0 → (mulF f a b).code = if (decodeF f a).neg ≠ (decodeF f b).neg then signBit f else 0)
  fma : ∀ x y z, rational (decodeF f a) = some x → rational (decodeF f b) = some y → rational (decodeF f d) = some z →
    x * y + z ≠ 0 → RoundedOnce f (x * y + z) (fmaF f a b d).code
  nans : (decodeF f a = .nan ∨ decodeF f b = .nan → (addF f a b).code = canonNaN f ∧ (subF f a b).code = canonNaN f ∧
    (mulF f a b).code = canonNaN f) ∧
    (decodeF f a = .nan ∨ decodeF f b = .nan ∨ decodeF f d = .nan → (fmaF f a b d).code = canonNaN f)

/-- The value of an encoding is what R80's table gives it: its magnitude with its sign; above max finite it is no number. -/
def Decodes (f : FFmt) (c : Nat) : Prop :=
  rational (decodeF f c) = if maxCode f < c % signBit f then none
    else some ((if c / signBit f % 2 = 1 then -1 else 1) * magnitude f (c % signBit f))

/-- The source and the target of an FCVT pair (R35, R158): the value that it reads, and the floating-point format, or the bits and
the range of the integers with what stands for a value outside it, that it writes. -/
structure FcvtRule where
  source : Nat → FVal
  float : Option FFmt
  bits : Nat := 0
  least : Int := 0
  greatest : Int := 0
  outside : Nat := 0

/-- The pairs of FCVT (R35, R91, R158). -/
def fcvtRule : FcvtPair → FcvtRule
  | .bf16F32 => ⟨decodeF .fp32, some .bf16, 0, 0, 0, 0⟩
  | .fp16F32 => ⟨decodeF .fp32, some .fp16, 0, 0, 0, 0⟩
  | .e4m3F32 => ⟨decodeF .fp32, some .e4m3, 0, 0, 0, 0⟩
  | .e5m2F32 => ⟨decodeF .fp32, some .e5m2, 0, 0, 0, 0⟩
  | .f32Bf16 => ⟨fun a => decodeF .bf16 (a % 2 ^ 16), some .fp32, 0, 0, 0, 0⟩
  | .f32Fp16 => ⟨fun a => decodeF .fp16 (a % 2 ^ 16), some .fp32, 0, 0, 0, 0⟩
  | .f32E4m3 => ⟨fun a => decodeF .e4m3 (a % 2 ^ 8), some .fp32, 0, 0, 0, 0⟩
  | .f32E5m2 => ⟨fun a => decodeF .e5m2 (a % 2 ^ 8), some .fp32, 0, 0, 0, 0⟩
  | .e4m3Bf16 => ⟨fun a => decodeF .bf16 (a % 2 ^ 16), some .e4m3, 0, 0, 0, 0⟩
  | .e5m2Bf16 => ⟨fun a => decodeF .bf16 (a % 2 ^ 16), some .e5m2, 0, 0, 0, 0⟩
  | .f32I32 => ⟨fun a => ofInt (BitVec.ofNat 32 a).toInt, some .fp32, 0, 0, 0, 0⟩
  | .f32U32 => ⟨fun a => ofInt a, some .fp32, 0, 0, 0, 0⟩
  | .f32I8 => ⟨fun a => ofInt (BitVec.ofNat 8 a).toInt, some .fp32, 0, 0, 0, 0⟩
  | .i32F32 => ⟨decodeF .fp32, none, 32, -2 ^ 31, 2 ^ 31 - 1, 0x80000000⟩
  | .u32F32 => ⟨decodeF .fp32, none, 32, 0, 2 ^ 32 - 1, 0xFFFFFFFF⟩
  | .i8F32 => ⟨decodeF .fp32, none, 8, -128, 127, 0x80⟩

/-- What FCVT writes for a source (R83, R88–R91). -/
structure Conversion (p : FcvtPair) (mode : RMode) (sat : Bool) (a : Nat) : Prop where
  finite : ∀ f neg m e, (fcvtRule p).float = some f → (fcvtRule p).source a = .fin neg m e →
    ∃ c, RoundsTo (magnitude f) mode neg e (m * 2 ^ e) c ∧ (fcvtF p mode sat a).code = outcome f mode sat neg c
  zero : ∀ f neg, (fcvtRule p).float = some f → (fcvtRule p).source a = .zero neg →
    (fcvtF p mode sat a).code = if neg then signBit f else 0
  infinite : ∀ f neg, (fcvtRule p).float = some f → (fcvtRule p).source a = .inf neg →
    (fcvtF p mode sat a).code = (if neg then signBit f else 0) +
      (if sat then maxCode f else if f = .e4m3 then 0x7F else infCode f)
  nan : ∀ f, (fcvtRule p).float = some f → (fcvtRule p).source a = .nan → (fcvtF p mode sat a).code = canonNaN f
  integer : ∀ neg m e, (fcvtRule p).float = none → (fcvtRule p).source a = .fin neg m e →
    ∃ c : Nat, RoundsTo (fun n => (n : ℚ)) mode neg e (m * 2 ^ e) c ∧
      let i : Int := if neg then -c else c
      (fcvtF p mode sat a).code =
        if (fcvtRule p).least ≤ i ∧ i ≤ (fcvtRule p).greatest then (i % 2 ^ (fcvtRule p).bits).toNat
        else if sat then ((if i < 0 then (fcvtRule p).least else (fcvtRule p).greatest) % 2 ^ (fcvtRule p).bits).toNat
        else (fcvtRule p).outside
  noNumber : (fcvtRule p).float = none →
    ((fcvtRule p).source a = .nan → (fcvtF p mode sat a).code = if sat then 0 else (fcvtRule p).outside) ∧
    (∀ neg, (fcvtRule p).source a = .inf neg → (fcvtF p mode sat a).code =
      if sat then ((if neg then (fcvtRule p).least else (fcvtRule p).greatest) % 2 ^ (fcvtRule p).bits).toNat
      else (fcvtRule p).outside)

/-- What STE stores of a word, and LDE delivers of an element, through a handle of a floating-point format (R82, R88, R89): the
value divided by 2^SCALE, and the value times 2^SCALE, rounded once by RNE. -/
structure Elements (h : Handle) (f : FFmt) : Prop where
  store : ∀ (w : Word) neg m e, decodeF .fp32 w.toNat = .fin neg m e →
    ∃ c, RoundsTo (magnitude f) .rne neg (e - hScale h) (m * 2 ^ (e - hScale h)) c ∧
      (laneStore true h [w]).1 = leBytes (elemSize (hFmt h)) (outcome f .rne false neg c)
  load : ∀ x neg m e, x < 256 ^ elemSize (hFmt h) → decodeF f x = .fin neg m e →
    ∃ c, RoundsTo (magnitude .fp32) .rne neg (e + hScale h) (m * 2 ^ (e + hScale h)) c ∧
      (loadWords .convert h 1 (leBytes (elemSize (hFmt h)) x)).1 = [BitVec.ofNat 32 (outcome .fp32 .rne false neg c)]
  each : ∀ (v w : Word) ws, (laneStore true h (v :: w :: ws)).1 = (laneStore true h [v]).1 ++ (laneStore true h (w :: ws)).1

/-! ## Folds over the lanes (R164) -/

/-- One step of a fold: the integer operations wrap, FADD rounds, FMIN and FMAX are those of R154 (R37, R164). -/
def foldStep (op : RedOp) (x y : Word) : FRes :=
  match op with
  | .iadd => ⟨(BitVec.ofInt 32 (x.toInt + y.toInt)).toNat, 0⟩
  | .imin => ⟨(if y.toInt < x.toInt then y else x).toNat, 0⟩
  | .imax => ⟨(if x.toInt < y.toInt then y else x).toNat, 0⟩
  | .umin => ⟨min x.toNat y.toNat, 0⟩
  | .umax => ⟨max x.toNat y.toNat, 0⟩
  | .and => ⟨(x &&& y).toNat, 0⟩
  | .or => ⟨(x ||| y).toNat, 0⟩
  | .xor => ⟨(x ^^^ y).toNat, 0⟩
  | .fadd => addF .fp32 x.toNat y.toNat
  | .fmin => minMaxF false x.toNat y.toNat
  | .fmax => minMaxF true x.toNat y.toNat

/-- The fold of a list from its first element on, in order (R164). -/
def foldOf (op : RedOp) : List Word → Word
  | [] => 0
  | x :: xs => xs.foldl (fun a y => BitVec.ofNat 32 (foldStep op a y).code) x

/-- The status bits of every step of a fold (R159, R164). -/
def foldStatus (op : RedOp) (vs : List Word) : BitVec 6 :=
  ((List.range (vs.length - 1)).map (fun i => (foldStep op (foldOf op (vs.take (i + 1))) (vs.getD (i + 1) 0)).fl)).foldl
    (fun a b => a ||| b) 0

/-- The value that leaves every other operand unchanged (R164). -/
def foldUnit : RedOp → Word
  | .iadd | .or | .xor | .umax => 0
  | .umin | .and => 0xFFFFFFFF
  | .imin => 0x7FFFFFFF
  | .imax => 0x80000000
  | .fadd => 0x80000000
  | .fmin => 0x7F800000
  | .fmax => 0xFF800000

/-- LRED and LSCAN read FP32 positions under a floating-point operation (R164). -/
def foldIssue (i : Instr) (op : RedOp) (d : VReg) (a : LSrc) : LIssue :=
  { instr := i, srcs := [(if op.isFloat then .fp32 else .int, a)], named := [d.val], reads := [], own := false }

/-! ## Sets of lanes (R165) -/

/-- Bit j is 1 exactly when lane lo + j is in the set (R165). -/
def laneWord (ls : List Nat) (lo : Nat) : Word := BitVec.ofFnLE (fun j : Fin 32 => decide (lo + j.val ∈ ls))

/-- The registers that MATCH and BALLOT write: D, and D + 1 in a group of width 64 (R165). -/
def laneSetRegs (c : Ctx) (d : VReg) : List Nat := if c.g.width = 64 then [d.val, d.val + 1] else [d.val]

/-- A lane with a set of lanes written (R165). -/
def putLaneSet (c : Ctx) (d : VReg) (ls : List Nat) (x : Lane) : Lane :=
  if c.g.width = 64 then (x.setV d.val (laneWord ls 0)).setV (d.val + 1) (laneWord ls 32) else x.setV d.val (laneWord ls 0)

/-- The operations on mask bits (R38). -/
def mskBit (op : MskOp) (p q : Bool) : Bool :=
  match op with
  | .and => p && q
  | .or => p || q
  | .xor => p ^^ q
  | .andn => p && !q
  | .not => !p
  | .mov => p
  | .set => true
  | .clr => false

/-! ## Streams (R177, R179, R190) -/

/-- The stream function of R177: two multiplications between three folds, under the key (ka, kb). -/
def stream (ka kb c : DWord) : DWord :=
  let a := c + ka
  let b := (a ^^^ (a >>> 29)) * 0x9C3F52E7A1D46B29
  let d := (b ^^^ (b >>> 32)) * 0xE5A70C934B1FD86D
  (d ^^^ (d >>> 29)) ^^^ kb

/-- The 56-bit number of DSSKIP and DSSETP: value(B)[23:0] above value(A) (R190). -/
def number56 (lo hi : Word) : BitVec 56 := (hi.setWidth 24 : BitVec 24) ++ lo

/-- A lane with stream position n at p (R178). -/
def atPos (x : Lane) (n : Fin 4) (p : BitVec 56) : Lane :=
  { x with
    pos0 := if n = 0 then p else x.pos0, pos1 := if n = 1 then p else x.pos1
    pos2 := if n = 2 then p else x.pos2, pos3 := if n = 3 then p else x.pos3 }

/-! ## Branches of the lanes (R20, R167, R169) -/

/-- A branch: its source, whether it writes a link, and the PC that a lane goes to, from its operand and itself. -/
structure BranchRule where
  srcs : List (SrcTy × LSrc)
  link : Bool
  target : Ctx → Word → Lane → DWord

/-- PC + 4 × disp, with a signed displacement in words (R20). -/
def relative (c : Ctx) (disp : BitVec 16) : DWord := BitVec.ofInt 64 (c.pc.toNat + 4 * disp.toInt)

/-- Kernel header + byte offset (R20, R169). -/
def absolute (c : Ctx) (off : Word) : DWord := BitVec.ofNat 64 ((kernelBase c.ln c.g).toNat + off.toNat)

/-- Where the lanes of a branch go (R167). -/
def branchRule : Instr → Option BranchRule
  | .bra d => some ⟨[], false, fun c _ _ => relative c d⟩
  | .braKernelAbsolute off => some ⟨[], false, fun c _ _ => absolute c off⟩
  | .brm m d => some ⟨[], false, fun c _ x => if x.mbit m.val = true then relative c d else c.nextPc⟩
  | .brmn m d => some ⟨[], false, fun c _ x => if x.mbit m.val = true then c.nextPc else relative c d⟩
  | .brz a d => some ⟨[(.int, a)], false, fun c v _ => if v = 0 then relative c d else c.nextPc⟩
  | .brnz a d => some ⟨[(.int, a)], false, fun c v _ => if v ≠ 0 then relative c d else c.nextPc⟩
  | .call d => some ⟨[], true, fun c _ _ => relative c d⟩
  | .callKernelAbsolute off => some ⟨[], true, fun c _ _ => absolute c off⟩
  | .ret a => some ⟨[(.int, a)], false, fun c v _ => absolute c v⟩
  | _ => none

/-- The link of CALL: the offset of the next instruction from the kernel header, in the highest declared register
(R169). -/
def linked (link : Bool) (c : Ctx) (x : Lane) : Lane :=
  if link then x.setV (declared c.ln c.g - 1) ((c.nextPc - kernelBase c.ln c.g).setWidth 32) else x

/-- The register of the link. -/
def linkRegs (link : Bool) (c : Ctx) : List Nat := if link then [declared c.ln c.g - 1] else []

/-! ## The scalar set (R172–R174) -/

/-- A scalar instruction: its destination and the new value from the group. -/
structure ScalarRule where
  sd : SReg
  val : Group → Word

/-- The scalar arithmetic, immediate and status instructions (R173, R174, R160): s(sd) := s(sd) op value(sb). -/
def scalarRule : Instr → Option ScalarRule
  | .sadd d b => some ⟨d, fun g => BitVec.ofInt 32 ((g.sreg d.val).toInt + (readU g b).toInt)⟩
  | .ssub d b => some ⟨d, fun g => BitVec.ofInt 32 ((g.sreg d.val).toInt - (readU g b).toInt)⟩
  | .smul d b => some ⟨d, fun g => BitVec.ofInt 32 ((g.sreg d.val).toInt * (readU g b).toInt)⟩
  | .sand d b => some ⟨d, fun g => g.sreg d.val &&& readU g b⟩
  | .sor d b => some ⟨d, fun g => g.sreg d.val ||| readU g b⟩
  | .sxor d b => some ⟨d, fun g => g.sreg d.val ^^^ readU g b⟩
  | .sshl d b => some ⟨d, fun g => BitVec.ofNat 32 ((g.sreg d.val).toNat * 2 ^ (readU g b).toNat)⟩
  | .sshr d b => some ⟨d, fun g => BitVec.ofNat 32 ((g.sreg d.val).toNat / 2 ^ (readU g b).toNat)⟩
  | .ssar d b => some ⟨d, fun g => BitVec.ofInt 32 ((g.sreg d.val).toInt / 2 ^ (readU g b).toNat)⟩
  | .smin d b => some ⟨d, fun g => if (readU g b).toInt < (g.sreg d.val).toInt then readU g b else g.sreg d.val⟩
  | .smax d b => some ⟨d, fun g => if (g.sreg d.val).toInt < (readU g b).toInt then readU g b else g.sreg d.val⟩
  | .smov d b => some ⟨d, fun g => readU g b⟩
  | .sset c d b => some ⟨d, fun g => if icond c (g.sreg d.val) (readU g b) = true then 1 else 0⟩
  | .smovi d imm => some ⟨d, fun _ => BitVec.ofInt 32 imm.toInt⟩
  | .slui d imm => some ⟨d, fun g => BitVec.ofNat 32 (imm.toNat * 2 ^ 17 + (g.sreg d.val).toNat % 2 ^ 17)⟩
  | .fstat d _ => some ⟨d, fun g => g.fps.setWidth 32⟩
  | _ => none

/-- The FP status after a scalar instruction: FSTAT clears the bits that value(sb) names (R160). -/
def statusAfter : Instr → Group → BitVec 6
  | .fstat _ b, g => g.fps &&& ~~~(readU g b).setWidth 6
  | _, g => g.fps

/-! ## Barriers (R128, R129) -/

/-- The fields of a barrier (R128). -/
structure Barrier where
  phase : Nat
  arrp : Nat
  quadp : Nat
  arri : Nat
  err : Nat
  ring : Nat
  rest : Nat
  deriving DecidableEq, Repr

/-- The barrier that 16 bytes hold (R128); `rest` are the bits that must be zero. -/
def Barrier.of (b : BitVec 128) : Barrier :=
  let n := b.toNat
  ⟨n % 2 ^ 4, n / 2 ^ 4 % 2 ^ 20, n / 2 ^ 24 % 2 ^ 26, n / 2 ^ 50 % 2 ^ 20, n / 2 ^ 70 % 2 ^ 3, n / 2 ^ 74 % 2 ^ 8,
   n / 2 ^ 73 % 2 + 2 * (n / 2 ^ 82)⟩

/-- Settle: a phase in which nothing is pending completes (R129). -/
def Barrier.settle (b : Barrier) : Barrier :=
  if b.arrp = 0 ∧ b.quadp = 0 then { b with phase := (b.phase + 1) % 16, arrp := b.arri } else b

/-- k arrivals with an expectation of q quads; arrivals in excess are discarded (R129). -/
def Barrier.arrive (k q : Nat) (b : Barrier) : Barrier :=
  Barrier.settle { b with arrp := b.arrp - k, quadp := (b.quadp + q) % 2 ^ 26 }

/-- An expectation of q quads (R129). -/
def Barrier.expect (q : Nat) (b : Barrier) : Barrier := Barrier.settle { b with quadp := (b.quadp + q) % 2 ^ 26 }

/-- A quad lands (R129). -/
def Barrier.land (b : Barrier) : Barrier :=
  Barrier.settle { b with quadp := if b.quadp = 0 then 2 ^ 26 - 1 else b.quadp - 1 }

/-- Error bits are set; nothing settles (R129). -/
def Barrier.flag (e : Nat) (b : Barrier) : Barrier := { b with err := b.err ||| e }

end Sys2Proof.Rules
end

