-- ==== Sys2Proof/Claims.lean ====
section
/-! DEFINITION. Terms that single claims use: how an instruction stands as an issue, what its rule gives, and what a
claim asks of the state that follows. -/

namespace Sys2Proof.Claims

open Sys2Proof.Machine

/-! ## Lane instructions -/

/-- The issue of FCVT: under SR it uses a word of stream 3 of its own (R158, R192). -/
def fcvtIssue (p : FcvtPair) (r : Rnd) (sat : Bool) (d : VReg) (a : LSrc) : LIssue :=
  { instr := .fcvt p r sat d a, srcs := [(fcvtSrcTy p, a)], named := [d.val], reads := [], own := r == .sr }

/-- FCVT's result in a lane: its source converted with the rounding of the pair; under SR the rounding word is the next
word of the lane's stream 3 (R158). -/
def fcvtOf (p : FcvtPair) (r : Rnd) (sat : Bool) (d : VReg) (a : LSrc) (s : State) (c : Ctx) (l : Nat) (x : Lane) :
    FRes :=
  fcvtF p (rmodeOf r (((fcvtIssue p r sat d a).drawn s c l x).word 3 0).toNat) sat
    ((fcvtIssue p r sat d a).operand s c l x 0).toNat

/-- The issue of an instruction that reads integer positions and writes D. -/
def moveIssue (i : Instr) (d : VReg) (srcs : List LSrc) : LIssue :=
  { instr := i, srcs := srcs.map (fun a => (.int, a)), named := [d.val], reads := [], own := false }

/-- The first operands of the acting lanes, ascending. -/
def firstsOf (q : LIssue) (s : State) (c : Ctx) : List Word := q.over s c (fun l x => q.operand s c l x 0)

/-- What LSCAN gives the lane of a rank (R164): the fold up to its own operand, or before it; the lowest lane of the
exclusive form receives the identity. -/
def scanOf (excl : Bool) (op : RedOp) (vs : List Word) (rank : Nat) : Word :=
  if excl then (if rank = 0 then Rules.foldUnit op else Rules.foldOf op (vs.take rank)) else Rules.foldOf op (vs.take (rank + 1))

/-- The issue of MATCH or BALLOT: a group of width 64 writes the pair D, D + 1 (R161, R165). -/
def laneSetIssue (i : Instr) (c : Ctx) (d : VReg) (a : LSrc) : LIssue :=
  { instr := i, srcs := [(.int, a)], named := Rules.laneSetRegs c d, reads := [], own := false }

/-- The operands of the acting lanes whose mask bit is 1, ascending. -/
def chosen (q : LIssue) (m : MReg) (s : State) (c : Ctx) : List Word :=
  ((q.over s c (fun l x => (x.mbit m.val, q.operand s c l x 0))).filter (·.1)).map (·.2)

/-- The issue of an instruction on streams. -/
def streamIssue (i : Instr) (srcs : List LSrc) (named : List Nat) (own : Bool) : LIssue :=
  { instr := i, srcs := srcs.map (fun a => (.int, a)), named := named, reads := [], own := own }

/-- The issue of CATD. -/
def catdIssue (n : Fin 4) (d : VReg) (a : LSrc) : LIssue :=
  { instr := .catd n d a, srcs := [(.fp32, a)], named := [d.val], reads := [], own := true }

/-- The key of a lane in CATD: its score plus the Gumbel value of its next word of stream n (R191). -/
def catdKey (n : Fin 4) (d : VReg) (a : LSrc) (s : State) (c : Ctx) (l : Nat) : Nat :=
  match c.g.lane? l with
  | some x => gumbelKey ((catdIssue n d a).operand s c l x 0) (((catdIssue n d a).drawn s c l x).word n.val 0)
  | none => 0

/-- The issue of GNEVAL, which reads the old D as its column, or its row in the transposed form (R232). -/
def gnevalIssue (t : Bool) (g : Fin 8) (d : VReg) (a : LSrc) : LIssue :=
  { instr := .gneval t g d a, srcs := [(.int, a), (.int, .v d)], named := [d.val], reads := [], own := false }

/-- The issue of a branch. -/
def branchIssue (i : Instr) (u : Rules.BranchRule) : LIssue :=
  { instr := i, srcs := u.srcs, named := [], reads := [], own := false }

/-- Where a U-set branch takes its population (R172). -/
def uniformMove : Instr → Option (Ctx → DWord)
  | .sbra d => some (fun c => BitVec.ofInt 64 (c.pc.toNat + 4 * d.toInt))
  | .sbz r d => some (fun c => if c.g.sreg r.val = 0 then BitVec.ofInt 64 (c.pc.toNat + 4 * d.toInt) else c.nextPc)
  | .sbnz r d => some (fun c => if c.g.sreg r.val ≠ 0 then BitVec.ofInt 64 (c.pc.toNat + 4 * d.toInt) else c.nextPc)
  | _ => none

/-- The two forms of NOP (R172). -/
def isNop : Instr → Bool
  | .nop => true
  | .nopLiteral _ _ _ => true
  | _ => false

/-- The PC to which a U-set branch or NOP takes its population. -/
def uniformTarget (c : Ctx) (i : Instr) : Option DWord :=
  if isNop i then some c.nextPc else (uniformMove i).map (fun f => f c)

/-- The issue of a lane load of a width through a slot. -/
def loadIssue (i : Instr) (d : VReg) (a : LSrc) (h : HSel) (slot : Nat) (w : Width) : LIssue :=
  { instr := i, srcs := [(.int, a)], named := regRange d.val w.regs, reads := [], own := false, cls := .load
    hsel := some h, slot := slot, width := w }

/-- The register writes that a lane load brings (R103, R107): the words that each acting lane's run holds when the load
binds them, zeros in a lane out of bounds. -/
def loadFills (q : LIssue) (mode : LoadMode) (d : VReg) (s : State) (c : Ctx) (h : Handle) (runs : List Run) (sb : State) :
    List Fill :=
  (q.over s c (fun l _ =>
    fillsOf d.val l (laneLoad mode (q.on s c) sb h q.width.regs (runs.find? (fun r => r.lane = l))).1)).flatten

/-- The locations that runs reach. -/
def runsLocs (c : Ctx) (s : State) (h : Handle) (need : Need) (runs : List Run) : List Loc :=
  runs.flatMap (fun r => runLocs c s h need r.va r.n)

/-- The issue of a lane store of a width through a slot. -/
def storeIssue (i : Instr) (ty : SrcTy) (d a : LSrc) (h : HSel) (slot : Nat) (w : Width) : LIssue :=
  { instr := i, srcs := [(.int, a), (ty, d)], named := srcGroup d w.regs, reads := srcGroup d w.regs, own := false
    cls := .store, hsel := some h, slot := slot, width := w }

/-- The data of a store: a source for 4 bytes, an aligned group of vector registers for more (R18). -/
def storeGroupOk (d : LSrc) (w : Width) : Prop := w.regs = 1 ∨ ∃ r : VReg, d = .v r ∧ r.val % w.regs = 0

/-- The words that a lane stores (R18). -/
def storedWords (q : LIssue) (d : LSrc) (w : Width) (s : State) (c : Ctx) (l : Nat) (x : Lane) : List Word :=
  if w.regs = 1 then [q.operand s c l x 1] else (srcGroup d w.regs).map (q.drawn s c l x).vreg

/-- The bytes that the acting lanes store, of the run of each lane in bounds. -/
def storedData (q : LIssue) (conv : Bool) (d : LSrc) (h : Handle) (s : State) (c : Ctx) (l : Nat) : List Byte × BitVec 6 :=
  if l ∈ q.acting s c then
    match c.g.lane? l with
    | some x => laneStore conv h (storedWords q d q.width s c l x)
    | none => ([], 0)
  else ([], 0)

/-- A store is accepted (R104): it takes one entry at the tail of its group's FIFO, which holds its bytes, and counts in
the store class; no byte of memory or scratchpad has changed. -/
def StoreAccepted (q : LIssue) (conv nt : Bool) (d : LSrc) (s : State) (c : Ctx) (h : Handle) (runs : List Run)
    (s₁ : State) : Prop :=
  q.Accepted s c (runs.foldl (fun fl r => fl ||| (storedData q conv d h s c r.lane).2) 0) (fun l x => q.drawn s c l x)
    (fun t => SameBytes s t ∧ ∃ g op, OutstandingAs t op c.g.key .store (.store 1) ∧ findGroup t c.g.key = some g ∧
      g.fifo = c.g.fifo ++ [.store op (!hScratch h && (nt || hNtDef h)) none
        (storeBytes (q.on s c) s₁ h (runs.map (fun r => (r, (storedData q conv d h s c r.lane).1))))])

/-- The issue of an atomic: `ty` of the operand is an integer position; the registers are those of R261. -/
def atomIssue (p : AtomSpec) (i : Instr) (a : LSrc) (h : HSel) (slot : Nat) (w : Width) : LIssue :=
  { instr := i, srcs := [(.int, a), (.int, p.data)], named := srcGroup p.data (p.regs w)
    reads := srcGroup p.data (p.regs w), own := false, cls := .load, hsel := some h, slot := slot, width := w }

/-- The four atomics (R261): their step, data, widths and ordering. -/
def atomRule : Instr → Option (AtomSpec × LSrc × HSel)
  | .atom op ord d a h => some (⟨.rmw op, .v d, false, if op.isFloat then [.w4] else [.w4, .w8], true, ord⟩, a, h)
  | .atomr op d a h => some (⟨.rmw op, d, false, if op.isFloat then [.w4] else [.w4, .w8], false, .plain⟩, a, h)
  | .cas ord d a h => some (⟨.cas, .v d, true, [.w4, .w8], true, ord⟩, a, h)
  | .cas128 ord d a h => some (⟨.cas, .v d, true, [.w16], true, ord⟩, a, h)
  | _ => none

/-- What a lane brings to an atomic (R261): the operand in its source or registers, low word first, behind the comparand of a
compare-and-swap. -/
def atomLaneOf (p : AtomSpec) (q : LIssue) (s : State) (c : Ctx) (l : Nat) : AtomLane :=
  match c.g.lane? l with
  | none => ⟨l, 0, 0⟩
  | some x =>
      let ws := if p.cas = false ∧ q.width = .w4 then [q.operand s c l x 1]
        else (srcGroup p.data (p.regs q.width)).map (q.drawn s c l x).vreg
      let num := fun (vs : List Word) => vs.foldr (fun v n => v.toNat + 2 ^ 32 * n) 0
      if p.cas then ⟨l, num (ws.take q.width.regs), num (ws.drop q.width.regs)⟩ else ⟨l, 0, num ws⟩

/-- The access of a population through a packed slot and index passes its checks (R110, R111): `r` is its one run, none
out of bounds, and `s₁` the state that the watch step leaves. -/
structure PopReaches (s : State) (c : Ctx) (v : Word) (fmts : List Nat) (need : Need) (kinds : List WKind) (n : Nat)
    (h : Handle) (r : Option Run) (s₁ : State) : Prop where
  slot : c.slot (v.toNat / 2 ^ 26) = h
  isLoaded : loaded h = true
  format : fmts.contains (hFmt h) = true
  run : popRun c s h need kinds (v.toNat % 2 ^ 26) n = .ok (r, s₁)

/-- What IDRD's selectors name (R326): launch index, workgroup index and count, group index and count, width, declared
registers, priority, determinism, and the header's address; 7 and 8 are the core and cluster, which a deterministic
launch must not read. -/
def identifier (c : Ctx) (sel : Nat) : Option Nat :=
  match sel with
  | 0 => some c.ln.lidx.toNat
  | 1 => some c.w.index
  | 2 => some c.ln.nwg
  | 3 => some c.g.key.g
  | 4 => some c.ln.gpw
  | 5 => some c.g.width
  | 6 => some (declared c.ln c.g)
  | 7 => if c.ln.det then none else some c.w.core
  | 8 => if c.ln.det then none else some (c.w.core / 4)
  | 9 => some c.ln.prio
  | 10 => some (if c.ln.det then 1 else 0)
  | 11 => some ((kernelBase c.ln c.g).toNat % 2 ^ 32)
  | 12 => some ((kernelBase c.ln c.g).toNat / 2 ^ 32)
  | _ => none

/-- A wait that cannot return in `u` holds its population at its PC and has not completed (R318). -/
def HoldsIn (i : Instr) (s u : State) (c : Ctx) (why : HoldWhy) : Prop :=
  ∃ t g, exec i s = .next t ∧ SameBytes u t ∧ findGroup t c.g.key = some g ∧ g.eop = c.g.eop ∧ g.lanes = c.g.lanes ∧
    g.s = c.g.s ∧ g.holds = c.g.holds ++ [⟨c.pc, c.mask, c.len, why⟩]

/-- The same where nothing is performed first. -/
def Holds (i : Instr) (s : State) (c : Ctx) (why : HoldWhy) : Prop := HoldsIn i s s c why

/-! ## Barriers and ring queues -/

/-- The result of an instruction whose group writes consecutive scalar registers. -/
def putSregs (sd : Nat) (ws : List Word) (g : Group) : Group :=
  (ws.mapIdx (fun j w => (j, w))).foldl (fun g p => g.setS (sd + p.1) p.2) g

/-- The slots of a new stage ring from b on: the head holds RING n (R135). -/
def ringSlots (s : State) (uid b a n : Nat) : State :=
  (List.range (max n 1)).foldl (fun s k => barPut s uid (b + 16 * k) (barInit a (if k = 0 then n else 0))) s

/-- The word that BTEST's read modes give (R137). -/
def testWord (b : Rules.Barrier) : Word :=
  BitVec.ofNat 32 (b.phase + 2 ^ 4 * b.err + 2 ^ 8 * b.ring + (if b.arrp = 0 then 2 ^ 16 else 0)
    + (if b.quadp = 0 then 2 ^ 17 else 0))

/-- A barrier's phase has been passed: it lies 1 to 8 completions on (R137). -/
def passed (now p : Nat) : Prop := ∃ d, 1 ≤ d ∧ d ≤ 8 ∧ (p + d) % 16 = now

/-! ## Engines -/

/-- The workgroup of an issue keeps everything but one part of itself. -/
def WgIs (t : State) (uid : Nat) (p : Wg → Prop) : Prop := ∃ w, findWg t uid = some w ∧ p w

/-- The group of an issue, after it. -/
def GroupIs (t : State) (k : GKey) (p : Group → Prop) : Prop := ∃ g, findGroup t k = some g ∧ p g

/-- Physical memory, its cache and its keys, the cores and the workgroups of `t` are those of `u`. -/
def MemAs (t u : State) : Prop :=
  t.mem = u.mem ∧ t.msc = u.msc ∧ t.lineKeys = u.lineKeys ∧ t.cores = u.cores ∧ t.wgs = u.wgs

/-- Physical memory, its cache and its keys are those of `u`. -/
def HomeAs (t u : State) : Prop := t.mem = u.mem ∧ t.msc = u.msc ∧ t.lineKeys = u.lineKeys

/-- The scratchpad of a workgroup is that of `u`. -/
def ScratchAs (t u : State) (uid : Nat) : Prop := (findWg t uid).map (·.scratch) = (findWg u uid).map (·.scratch)

/-- Nothing unfinished of this identity is left. -/
def Finished (t : State) (id : Nat) : Prop := ∀ o ∈ t.ops, o.id = id → o.done = true

/-- An outstanding operation with this identity still has this to do. -/
def Stage (t : State) (id : Nat) (kind : OpKind) : Prop := ∃ o, findOp t id = some o ∧ o.kind = kind ∧ o.done = false

/-- An instruction or event ends in a next state of which something holds. -/
def Ends (i : Instr) (s : State) (post : State → Prop) : Prop := ∃ t, exec i s = .next t ∧ post t

/-- The group has no ACCZ that waits for its turn (R219). -/
def NoAccz (s : State) (k : GKey) : Prop := ∀ o ∈ s.ops, o.grp = k → ∀ r n, o.kind ≠ .accz r n

/-- What an operation brings to registers of its group stands there, each lane's words in order, but for those of v0–v7 that the
TRET of the handler that issued it has restored; the words of v0–v7 of an operation from before the group's trap stand in its frame
too, for TRET to restore (R103, R345; the model's choice of log entry 126). -/
structure Landed (t v : State) (o : Op) (g : Group) (fs : List Fill) : Prop where
  group : GroupIs t o.grp (fun g' => SameGroup { g with vpoison := g'.vpoison } g' ∧ g'.s = g.s ∧ g'.eop = g.eop ∧
    ∀ l, g'.lane? l = (g.lane? l).map (fun x =>
      ((fs.filter (fun f => o.lands g f.reg)).filter (fun f => f.lane = l)).foldl (fun x f => x.setV f.reg f.val) x))
  saved : let u := saveWords v o.grp (fs.filter (fun f => o.lands g f.reg && o.saves g f.reg))
    HomeAs t u ∧ t.cores = u.cores ∧ ∀ uid, ScratchAs t u uid

/-! ## Traps -/

/-- A trap of group k with this data enters the handler (R338): the group is not in trap mode, traps are not sent to the
host, the frame lies in near memory on a line and only pool lines in the memory-side cache, and a valid header stands at TRAPH, outside the frame. -/
structure Handled (s : State) (k : GKey) (g : Group) (w : Wg) (ln : Launch) : Prop where
  found : findCtx s k = some (g, w, ln)
  user : g.trapMode = false
  here : bit s.mcb.mode 1 = false
  near : frameBase s w k.g + 4096 ≤ poolBase ∧ frameBase s w k.g % 256 = 0
  cache : ∀ l ∈ s.msc, poolBase ≤ l.base
  header : ∀ b, mapWf 0 b = true → (∀ x ∈ b, x.1 < 4096) →
    (handlerHeader (putBlockKeyed s (keyOr s w.owner) (frameBase s w k.g) 4096 b) ln).isSome = true
  single : s.focus.partner = none
  width : g.width ≤ 64

/-- The group has entered its handler, and its frame holds the trap (R336–R338): CSW, code, PC, lanes, address, the PCs,
v0–v7 and mask bits of the lanes, s0–s7 and the FP status. -/
structure Trapped (t : State) (k : GKey) (g : Group) (w : Wg) (ln : Launch) (pc : DWord) (x : TrapInfo) : Prop where
  group : GroupIs t k (fun g' => g'.trapMode = true ∧ g'.handler = ln.traph ∧ g'.frozen = false ∧ g'.eop = g.eop ∧
    g'.s = g.s ∧ g'.fps = g.fps ∧
    ∀ l, g'.lane? l = (g.lane? l).map (fun y => if y.exited then y else { y with pc := ln.traph + 64 }))
  csw : frameGet t w k.g 0 4 = x.cause % 64 + 2 ^ 8 * (x.sub % 256) + 2 ^ 16 * (x.len % 4) + (if x.wskip then 2 ^ 20 else 0)
  code : frameGet t w k.g 4 4 = x.code.toNat
  pc : frameGet t w k.g 8 4 = (pc - ln.kernel).toNat % 2 ^ 32
  alone : frameGet t w k.g 12 4 = 2 ^ 32 - 1
  lanes : frameGet t w k.g 0x10 8 = x.mask.toNat
  live : frameGet t w k.g 0x18 8 = (maskOf g.live).toNat
  addr : frameGet t w k.g 0x28 8 = x.addr.toNat
  pcs : ∀ l < 64, frameGet t w k.g (0x100 + 4 * l) 4 =
    (if l ∈ g.live then match g.lane? l with | some y => (y.pc - ln.kernel).toNat % 2 ^ 32 | none => 0 else 2 ^ 32 - 1)
  regs : ∀ l ∈ g.live, ∀ y, g.lane? l = some y → ∀ r < 8, frameGet t w k.g (0x200 + 256 * r + 4 * l) 4 = (y.vreg r).toNat
  sregs : ∀ r < 8, frameGet t w k.g (0xA00 + 4 * r) 4 = (g.sreg r).toNat
  fps : frameGet t w k.g 0xA20 4 = g.fps.toNat
  masks : ∀ b < 16, frameGet t w k.g (0xA40 + 8 * b) 8 =
    (maskOf (g.live.filter (fun l => match g.lane? l with | some y => y.mbit b | none => false))).toNat

/-- A lane as the frame of its group gives it back (R343): its PC, v0–v7 and mask bits; it ends where the frame's PC word is
all ones. -/
structure Restored (s : State) (w : Wg) (ln : Launch) (g skip l : Nat) (x y : Lane) : Prop where
  ends : y.exited = decide (frameGet s w g (0x100 + 4 * l) 4 = 2 ^ 32 - 1)
  pc : y.exited = false → y.pc = ln.kernel + BitVec.ofNat 64 (frameGet s w g (0x100 + 4 * l) 4 +
    (if frameGet s w g 0x10 8 / 2 ^ l % 2 = 1 then skip else 0))
  regs : y.exited = false → y.v = (List.range 8).foldl (fun v r =>
    mapSet 0 v r (BitVec.ofNat 32 (frameGet s w g (0x200 + 256 * r + 4 * l) 4))) x.v
  masks : y.exited = false → ∀ b < 16, y.mbit b = decide (frameGet s w g (0xA40 + 8 * b + l / 8) 1 / 2 ^ (l % 8) % 2 = 1)


/-! ## The key store, the collector, copies and the matrix engine -/

/-- The issue of an instruction that only reads registers and is accepted in a class. -/
def engineIssue (i : Instr) (srcs : List (SrcTy × LSrc)) (named reads : List Nat) (cls : OpClass) : LIssue :=
  { instr := i, srcs := srcs, named := named, reads := reads, own := false, cls := cls }

/-- The issue of a collector access through a handle (R295). -/
def collIssue (i : Instr) (srcs : List (SrcTy × LSrc)) (data index : List Nat) (cls : OpClass) (readsData : Bool)
    (hs : HSel) (slot : Nat) (w : Width) : LIssue :=
  { instr := i, srcs := srcs, named := data ++ index, reads := if readsData then index ++ data else index, own := false
    cls := cls, hsel := some hs, slot := slot, width := w }

/-- The elements of a GATH or SCAT: those of the participating lanes, in lane order and within a lane in order (R295). -/
def collList (q : LIssue) (s : State) (c : Ctx) (men : Option MReg) (a : LSrc) (n : Nat) : List CollElem :=
  collElems a n (collAct men (q.issue s c))

/-- The words of a row, from the lanes that supply it (R240). -/
def rowWords (c : Ctx) (h : KsHead) (f : Nat → Lane → List Word) : List Word :=
  ((c.act.filter (fun l => decide (l < ksLanes h c.g.width))).filterMap (fun l => (c.g.lane? l).map (f l))).flatten

/-- The header and bucket table that KSINIT writes, as bytes at their locations (R241). -/
def ksInitStores (s : State) (c : Ctx) (k : Handle) (h : KsHead) : List StoreByte :=
  ((ksLocs s c.ln .w (hBase k) (256 + 8 * 2 ^ ksBits h)).zip (leBytes 256 h.toNat ++ List.replicate (8 * 2 ^ ksBits h) 0)).map
    (fun p => ⟨p.1, p.2⟩)

/-- The fields of a header (R237). -/
structure HeaderIs (h : KsHead) (kbase cap : Nat) (seedLo seedHi : DWord) (bits dim blk scope : Nat) : Prop where
  kbase : ksKbase h = kbase
  cap : ksPoolcap h = cap
  used : ksPooln h = 0
  lo : ksSeedLo h = seedLo
  hi : ksSeedHi h = seedHi
  bits : ksBits h = bits
  dim : ksDim h = dim
  blk : ksC h = blk
  scope : ksPscope h = scope
  clean : ksOvf h = false ∧ ksFlt h = false ∧ ksLost h = 0

/-- The registers of B of a matrix operation (R201). -/
def bReads (w : MatWord) : List Nat := match w.bsrc with | .reg r => [r.val] | _ => []

/-- The issue of a matrix operation (R203). -/
def matIssue (i : Instr) (w : MatWord) (d a b : LSrc) : LIssue :=
  engineIssue i [(.int, a), (.int, b), (.int, d)] (bReads w) (bReads w) .tile

/-- The arrival that an octet makes as a member of its team (R208). -/
def arrivalFor (c : Ctx) (w : MatWord) (team : Nat) (h : Handle) (id : Nat) (p : OctetIn × BRef) (i : Nat) : TeamArrival :=
  { team := team, size := teamSize c.ln team, member := i, round := mapGet 0 c.g.rounds p.1.oct, word := w
    row0 := p.1.row0 - 8 * i, bc := p.1.bc, mask := maskOf p.1.lanes, o := octetOp id h w p.1 p.2 }

/-- Every member that an open round still waits for can arrive: in the rounds of the table, and in those that this issue opens
(R208). -/
def AllCanArrive (s : State) (c : Ctx) (team : Nat) : Prop :=
  (∀ p ∈ s.clusters, ∀ e ∈ p.2.resv, e.complete = false → ∀ t m ln, e.team = some (t, m) → findLaunch s e.launch = some ln →
    ∀ i < teamSize ln t, cannotArrive s ln e.wg t m i = false) ∧
  (∀ m ∈ newRounds c s team, ∀ i < teamSize c.ln team, cannotArrive s c.ln c.w.uid team m i = false)

/-- The arrivals of this issue agree with each other and with those that their rounds hold (R208). -/
def AllAgree (s : State) (c : Ctx) (w : MatWord) (team : Nat) (h : Handle) (bs : List (OctetIn × BRef)) : Prop :=
  ∀ p ∈ bs, ∀ i, memberOf c.ln c.g team p.1.oct = some i →
    let held := arrivalsOf s c.w.uid team (mapGet 0 c.g.rounds p.1.oct)
    (∀ x ∈ held, agrees x.2 (arrivalFor c w team h 0 p i) = true ∧ ∀ y ∈ held, agrees x.2 y.2 = true) ∧
    ∀ q ∈ bs, ∀ j, memberOf c.ln c.g team q.1.oct = some j → mapGet 0 c.g.rounds q.1.oct = mapGet 0 c.g.rounds p.1.oct →
      agrees (arrivalFor c w team h 0 p i) (arrivalFor c w team h 0 q j) = true

/-- A B slot that the instruction names directly is one of the launch's (R201). -/
def slotNamed (w : MatWord) (c : Ctx) : Prop := match w.bsrc with | .slot n => n.val < c.ln.bslots | _ => True

/-- The elements that lanes move from or to an accumulator (R217): register j of lane l is element
(row + l ÷ 8, column + l mod 8 + 8j). -/
def accList (q : LIssue) (s : State) (c : Ctx) (row col m d : Nat) (val : Nat → Lane → Nat → Word) : List AccElem :=
  (q.over s c (fun l x => (List.range m).map (fun j => (⟨l, d + j, row + l / 8, col + l % 8 + 8 * j, val l x j⟩ : AccElem)))).flatten

/-- An operand is the same in every acting lane (R149). -/
def Uniform (q : LIssue) (s : State) (c : Ctx) (n : Nat) (v : Word) : Prop :=
  ∀ l ∈ q.acting s c, ∀ x, c.g.lane? l = some x → q.operand s c l x n = v

/-- The code of a small whole number, exact, in a binary format of bias `bias` and `m` stored bits of significand (R21). -/
def codeOf (bias m n : Nat) : Nat :=
  if n = 0 then 0 else (bias + n.log2) * 2 ^ m + (n - 2 ^ n.log2) * 2 ^ (m - n.log2)

/-! ## Parked and held populations -/

/-- The fetch of the instruction at the focus has parked in group `g`; what an earlier issue of the lanes there read of the
handle slots is kept (R100, R357). -/
def FetchParked (c : Ctx) (g : Group) (why : ParkWhy) : Prop :=
  ∃ p ∈ g.parks, p.pc = c.pc ∧ p.why = why ∧ p.woken = false ∧
    ∀ q, c.g.begun c.pc = some q → p.mask = q.mask ∧ p.handles = q.handles

/-- A held population of group k has gone on: its instruction is accepted, its lanes stand at the next word, and its hold is
gone. -/
def Released (t : State) (k : GKey) (g : Group) (h : Hold) : Prop :=
  GroupIs t k (fun g' => g'.eop = g.eop + 1 ∧ g'.s = g.s ∧ g'.holds = g.holds.filter (fun x => x ≠ h) ∧
    ∀ l, g'.lane? l = (g.lane? l).map (fun x =>
      if l ∈ setBitsOf 64 h.mask.toNat then { x with pc := h.pc + BitVec.ofNat 64 (4 * h.len) } else x))

/-! ## The module and the host -/

/-- Only pool lines stand in the memory-side cache, and their contents are in canonical form (R51). -/
structure PoolCache (s : State) : Prop where
  pool : ∀ l ∈ s.msc, poolBase ≤ l.base
  canon : ∀ l ∈ s.msc, mapWf 0 l.data = true

/-- The lines of the memory-side cache are whole lines, and a clean one agrees with the pool (R51). -/
structure CacheAgrees (s : State) : Prop where
  aligned : ∀ l ∈ s.msc, l.base % 256 = 0
  inside : ∀ l ∈ s.msc, ∀ c ∈ l.data, c.1 < 256
  clean : ∀ l ∈ s.msc, l.dirty = false → l.data = cellsIn s.mem l.base 256

/-- Cores are listed in canonical form, and the lines of one core's L1 are whole lines of pages with a legal cache attribute
(R51, R254). -/
structure CoreCache (s : State) (core : Nat) : Prop where
  canon : mapWf Core.empty s.cores = true
  aligned : ∀ x ∈ (coreOf s core).l1, x.base % 256 = 0
  attr : ∀ x ∈ (coreOf s core).l1, x.ca < 3

/-- What a core's L1 has of a byte, if anything, was filled for this owner and is dirty or as at the byte's home. -/
def UpToDate (s : State) (core owner pa : Nat) : Prop :=
  ∀ x, l1Find (coreOf s core) (lineOf pa) = some x →
    x.owner = owner ∧ (bit x.dirty (pa % 256) = true ∨ mapGet 0 x.data (pa % 256) = homeByte s (keyOr s owner) pa)

/-- A notification is posted (R372): written at NQTAIL where there is room and none is held; held behind a full queue; with no
queue named held if it waits for a host answer, and else discarded. -/
structure Posted (u t : State) (n : Notif) : Prop where
  written : queueNamed u.mcb = true → queueFull u.mcb = false → u.held = [] →
    let q := u.mcb.nqbase + 32 * (u.mcb.nqtail.toNat % 2 ^ u.mcb.nqlog)
    t.mcb = { u.mcb with nqtail := u.mcb.nqtail + 1 } ∧ t.held = [] ∧
      (q + 32 ≤ poolBase → (∀ i < 32, plainByte t (q + i) = n.bytes.getD i 0) ∧
        ∀ pa, (pa < q ∨ q + 32 ≤ pa) → plainByte t pa = plainByte u pa)
  full : queueNamed u.mcb = true → (queueFull u.mcb = true ∨ u.held ≠ []) → t = { u with held := u.held ++ [n] }
  unnamed : queueNamed u.mcb = false →
    t = if n.kind = 2 ∨ n.kind = 3 ∨ n.kind = 4 then { u with held := u.held ++ [n] } else u

/-- The command-done notification of a slot (R372). -/
def doneNotif (s : State) (slot status : Nat) : Notif := { notif 5 slot 0 0 with tag := cmdTag s slot, status := status }

/-- A command waits in a slot of the module in service, its function is in force and its operands keep their limits
(R371). -/
def CmdReady (s : State) (slot code : Nat) : Prop :=
  s.boot.step = 10 ∧ cmdCode s slot = code ∧ cmdAllowed s code = true ∧ operandsOk s slot = true ∧ mapWf 0 s.cmds = true

/-- A command is done as soon as it is accepted: its slot is free, what it does holds, and its completion is posted with
STATUS 0 (R371). -/
def Done (i : Instr) (s : State) (slot : Nat) (p : State → Prop) : Prop :=
  ∃ u, exec i s = .next (post u (doneNotif s slot 0)) ∧ cmdCode u slot = 0 ∧ p u

/-- The link is listed in canonical form. -/
def LinkCanon (s : State) : Prop := mapWf Port.quiet s.link = true

/-- Everything but the ports of the link, the control block and the counter of identities is unchanged. -/
def OnlyLink (s t : State) : Prop := { t with link := s.link, mcb := s.mcb, seq := s.seq } = s

end Sys2Proof.Claims
end

