-- ==== Sys2Proof/Certificates/Slice0/Obligations.lean ====
section
/-! DEFINITION. The claims about the machine, each with the rules of the manual that it formalises. -/

open Sys2Proof Sys2Proof.Machine Sys2Proof.Claims

/-- R150, R151, R162: in every acting lane an integer instruction or MOV writes its result, wrapped to 32 bits, into D;
it sets no status, and nothing else changes but the PC. Holds for every operand form. -/
def Obligations.IntegerResultInEveryActingLane : Prop :=
  ∀ i u, Rules.intRule i = some u → ∀ s c, (u.issue i).Ready s c →
    (u.issue i).Done s c 0 ((u.issue i).acting s c) [u.dst.val] (fun l x =>
      ((u.issue i).drawn s c l x).setV u.dst.val
        (u.f ((u.issue i).operand s c l x 0) ((u.issue i).operand s c l x 1)
          (((u.issue i).drawn s c l x).vreg u.dst.val)))

/-- R154, R155, R157, R159: a floating-point instruction writes D in every acting lane, and the group's FP status takes the OR
of the bits that the lanes set; nothing else changes but the PC. The values of FUNY, FMIN and FMAX and the status bits stand in
it as the machine's own functions.
R80, R88, R89, R153: what addition, subtraction, multiplication and the fused form give is the exact result on the values of
their codes, rounded once to nearest, ties to even.
Where the manual leaves it open, the model's choice of log entries 12 and 90. -/
def Obligations.FloatResultAndStatus : Prop :=
  (∀ i u, Rules.fpRule i = some u → ∀ s c, (u.issue i).Ready s c →
    (u.issue i).Done s c
      (((u.issue i).over s c (fun l x => (u.f ((u.issue i).operand s c l x 0) ((u.issue i).operand s c l x 1)
        (((u.issue i).drawn s c l x).vreg u.dst.val)).fl)).foldl (fun a b => a ||| b) 0)
      ((u.issue i).acting s c) [u.dst.val] (fun l x =>
        ((u.issue i).drawn s c l x).setV u.dst.val (BitVec.ofNat 32
          (u.f ((u.issue i).operand s c l x 0) ((u.issue i).operand s c l x 1)
            (((u.issue i).drawn s c l x).vreg u.dst.val)).code))) ∧
  ∀ f a b d, Rules.Arithmetic f a b d ∧ Rules.Decodes f a

/-- R152, R156: ISET and FSET write the outcome of the comparison into the named mask bit of every acting lane; no
vector register, status bit or other mask bit changes. -/
def Obligations.ComparisonWritesMaskBit : Prop :=
  ∀ i u, Rules.maskRule i = some u → ∀ s c, (Rules.maskIssue i u.srcs).Ready s c →
    (Rules.maskIssue i u.srcs).Done s c 0 [] [] (fun l x =>
      ((Rules.maskIssue i u.srcs).drawn s c l x).setM u.m.val
        (u.f ((Rules.maskIssue i u.srcs).operand s c l x 0) ((Rules.maskIssue i u.srcs).operand s c l x 1)))

/-- R158, R192: FCVT writes the converted element into D in every acting lane and ORs the status bits; under SR, and
only then, each acting lane's stream 3 advances by one word.
R83, R88, R89, R90, R91: the converted element is the value of the source rounded once as the mode says, or what stands for a
value beyond the target's range. R82, R107: the elements that STE stores and LDE delivers are rounded once, to nearest.
Where the manual leaves it open, the model's choice of log entry 70. -/
def Obligations.ConversionResultAndStreamUse : Prop :=
  (∀ (p : FcvtPair) (r : Rnd) (sat : Bool) (d : VReg) (a : LSrc) s c, (fcvtIssue p r sat d a).Ready s c →
    (fcvtIssue p r sat d a).Done s c
      (((fcvtIssue p r sat d a).over s c (fun l x => (fcvtOf p r sat d a s c l x).fl)).foldl (fun a b => a ||| b) 0)
      ((fcvtIssue p r sat d a).acting s c) [d.val]
      (fun l x =>
        (if r = .sr then ((fcvtIssue p r sat d a).drawn s c l x).skip 3 1 else (fcvtIssue p r sat d a).drawn s c l x).setV
          d.val (BitVec.ofNat 32 (fcvtOf p r sat d a s c l x).code))) ∧
  (∀ p mode sat a, a < 2 ^ 32 → Rules.Conversion p mode sat a) ∧
  (∀ h f, ffmtOf (hFmt h) = some f → Rules.Elements h f)

/-- R162: CMOV writes D where the selected mask bit is 1 and nothing in the other lanes; a distribution source draws in
every acting lane. R38, R162: MSKOP writes the selected mask bit of every acting lane. -/
def Obligations.ConditionalMoveAndMaskOperation : Prop :=
  (∀ (d : VReg) (a : LSrc) (m : MReg) s c, (moveIssue (.cmov d a m) d [a]).Ready s c →
    (moveIssue (.cmov d a m) d [a]).Done s c 0
      ((moveIssue (.cmov d a m) d [a]).lanesWith s c (fun _ x => x.mbit m.val)) [d.val] (fun l x =>
        if x.mbit m.val = true then
          ((moveIssue (.cmov d a m) d [a]).drawn s c l x).setV d.val ((moveIssue (.cmov d a m) d [a]).operand s c l x 0)
        else (moveIssue (.cmov d a m) d [a]).drawn s c l x)) ∧
  (∀ (op : MskOp) (m p q : MReg) s c, (Rules.maskIssue (.mskop op m p q) []).Ready s c →
    (Rules.maskIssue (.mskop op m p q) []).Done s c 0 [] []
      (fun _ x => x.setM m.val (Rules.mskBit op (x.mbit p.val) (x.mbit q.val))))

/-- R163: the butterfly and the shuffle. Each acting lane receives the first operand of its partner where the partner is
active, and its own where it is not. LXOR asks for one distance k in all lanes. -/
def Obligations.LaneExchange : Prop :=
  (∀ (d : VReg) (a b : LSrc) s c (k : Word), (moveIssue (.lxor d a b) d [a, b]).Ready s c →
    (∀ l ∈ (moveIssue (.lxor d a b) d [a, b]).acting s c, ∀ x, c.g.lane? l = some x →
      (moveIssue (.lxor d a b) d [a, b]).operand s c l x 1 = k) →
    (moveIssue (.lxor d a b) d [a, b]).Done s c 0 ((moveIssue (.lxor d a b) d [a, b]).acting s c) [d.val] (fun l x =>
      ((moveIssue (.lxor d a b) d [a, b]).drawn s c l x).setV d.val
        (((moveIssue (.lxor d a b) d [a, b]).supplied s c (l ^^^ k.toNat)).getD
          ((moveIssue (.lxor d a b) d [a, b]).operand s c l x 0)))) ∧
  (∀ (d : VReg) (a b : LSrc) s c, (moveIssue (.lshf d a b) d [a, b]).Ready s c →
    (moveIssue (.lshf d a b) d [a, b]).Done s c 0 ((moveIssue (.lshf d a b) d [a, b]).acting s c) [d.val] (fun l x =>
      ((moveIssue (.lshf d a b) d [a, b]).drawn s c l x).setV d.val
        (((moveIssue (.lshf d a b) d [a, b]).supplied s c
            ((moveIssue (.lshf d a b) d [a, b]).operand s c l x 1).toNat).getD
          ((moveIssue (.lshf d a b) d [a, b]).operand s c l x 0))))

/-- R164: LRED writes the fold of the acting lanes' operands, in ascending lane order, into D of every acting lane, and
sets the status of every step.
R164: LSCAN writes the running folds; the exclusive form never performs the step that would combine the highest
lane's operand. -/
def Obligations.ReductionAndScanFoldInLaneOrder : Prop :=
  (∀ (op : RedOp) (d : VReg) (a : LSrc) s c, (Rules.foldIssue (.lred op d a) op d a).Ready s c →
    (Rules.foldIssue (.lred op d a) op d a).Done s c
      (Rules.foldStatus op (firstsOf (Rules.foldIssue (.lred op d a) op d a) s c))
      ((Rules.foldIssue (.lred op d a) op d a).acting s c) [d.val] (fun l x =>
        ((Rules.foldIssue (.lred op d a) op d a).drawn s c l x).setV d.val
          (Rules.foldOf op (firstsOf (Rules.foldIssue (.lred op d a) op d a) s c)))) ∧
  (∀ (excl : Bool) (op : RedOp) (d : VReg) (a : LSrc) s c, (Rules.foldIssue (.lscan excl op d a) op d a).Ready s c →
    (Rules.foldIssue (.lscan excl op d a) op d a).Done s c
      (Rules.foldStatus op
        (let vs := firstsOf (Rules.foldIssue (.lscan excl op d a) op d a) s c
         if excl then vs.dropLast else vs))
      ((Rules.foldIssue (.lscan excl op d a) op d a).acting s c) [d.val] (fun l x =>
        ((Rules.foldIssue (.lscan excl op d a) op d a).drawn s c l x).setV d.val
          (scanOf excl op (firstsOf (Rules.foldIssue (.lscan excl op d a) op d a) s c)
            ((Rules.foldIssue (.lscan excl op d a) op d a).rank s c l))))

/-- R165: MATCH gives each acting lane the set of acting lanes whose operand equals its own; BALLOT gives every acting
lane the set of acting lanes whose operand is not zero. In a group of width 64 the pair D, D + 1 takes it, D even. -/
def Obligations.MatchAndBallotWriteLaneSets : Prop :=
  ∀ (d : VReg) (a : LSrc) s c, (c.g.width = 64 → d.val % 2 = 0) →
    ((laneSetIssue (.matchv d a) c d a).Ready s c →
      (laneSetIssue (.matchv d a) c d a).Done s c 0 ((laneSetIssue (.matchv d a) c d a).acting s c)
        (Rules.laneSetRegs c d) (fun l x => Rules.putLaneSet c d
          ((laneSetIssue (.matchv d a) c d a).lanesWith s c (fun j y =>
            (laneSetIssue (.matchv d a) c d a).operand s c j y 0 = (laneSetIssue (.matchv d a) c d a).operand s c l x 0))
          ((laneSetIssue (.matchv d a) c d a).drawn s c l x))) ∧
    ((laneSetIssue (.ballot d a) c d a).Ready s c →
      (laneSetIssue (.ballot d a) c d a).Done s c 0 ((laneSetIssue (.ballot d a) c d a).acting s c)
        (Rules.laneSetRegs c d) (fun l x => Rules.putLaneSet c d
          ((laneSetIssue (.ballot d a) c d a).lanesWith s c (fun j y =>
            (laneSetIssue (.ballot d a) c d a).operand s c j y 0 ≠ 0))
          ((laneSetIssue (.ballot d a) c d a).drawn s c l x)))

/-- R166: CMPCT gives the lane of rank r the r-th chosen lane's operand, and lanes beyond their number keep D; MPOPC
counts the acting lanes whose mask bit is 1, and its prefix form those below the lane. -/
def Obligations.CompactionAndMaskCount : Prop :=
  (∀ (d : VReg) (a : LSrc) (m : MReg) s c, (moveIssue (.cmpct d a m) d [a]).Ready s c →
    (moveIssue (.cmpct d a m) d [a]).Done s c 0
      (((moveIssue (.cmpct d a m) d [a]).acting s c).take (chosen (moveIssue (.cmpct d a m) d [a]) m s c).length) [d.val]
      (fun l x =>
        match (chosen (moveIssue (.cmpct d a m) d [a]) m s c)[(moveIssue (.cmpct d a m) d [a]).rank s c l]? with
        | some v => ((moveIssue (.cmpct d a m) d [a]).drawn s c l x).setV d.val v
        | none => (moveIssue (.cmpct d a m) d [a]).drawn s c l x)) ∧
  (∀ (pre : Bool) (d : VReg) (m : MReg) s c, (moveIssue (.mpopc pre d m) d []).Ready s c →
    (moveIssue (.mpopc pre d m) d []).Done s c 0 ((moveIssue (.mpopc pre d m) d []).acting s c) [d.val] (fun l x =>
      x.setV d.val (BitVec.ofNat 32
        ((moveIssue (.mpopc pre d m) d []).lanesWith s c (fun j y =>
          y.mbit m.val && (!pre || decide (j < l)))).length)))

/-- R179: words 2j and 2j + 1 of stream n are the halves of the stream function at n × 2^56 + j. R178: positions wrap at
2^56. -/
def Obligations.StreamWordsComeFromTheStreamFunction : Prop :=
  ∀ (x : Lane) (n : Fin 4) (k : Nat),
    let w := (x.pos n.val).toNat + k
    x.word n.val k =
      (Rules.stream x.ka x.kb (BitVec.ofNat 64 (n.val * 2 ^ 56 + w % 2 ^ 56 / 2)) >>> (if w % 2 = 0 then 0 else 32)).setWidth 32 ∧
    x.skip n.val k = Rules.atPos x n (x.pos n.val + BitVec.ofNat 56 k)

/-- R190: DRAW writes the next word of stream n, or the next two into D and D + 1, and advances the position by as many;
DSPOS writes the position into D and D + 1.
R190: DSSKIP adds a 56-bit number to a position, DSSETP sets it, and DSFORK replaces the key by its fork and sets
every position to 0. -/
def Obligations.StreamInstructions : Prop :=
  (∀ (n : Fin 4) (d : VReg) s c, (streamIssue (.draw n false d) [] [d.val] true).Ready s c →
    (streamIssue (.draw n false d) [] [d.val] true).Done s c 0
      ((streamIssue (.draw n false d) [] [d.val] true).acting s c) [d.val]
      (fun _ x => (Rules.atPos x n (x.pos n.val + 1)).setV d.val (x.word n.val 0))) ∧
  (∀ (n : Fin 4) (d : VReg) s c, (streamIssue (.draw n true d) [] [d.val, d.val + 1] true).Ready s c →
    (streamIssue (.draw n true d) [] [d.val, d.val + 1] true).Done s c 0
      ((streamIssue (.draw n true d) [] [d.val, d.val + 1] true).acting s c) [d.val, d.val + 1]
      (fun _ x => ((Rules.atPos x n (x.pos n.val + 2)).setV d.val (x.word n.val 0)).setV (d.val + 1) (x.word n.val 1))) ∧
  (∀ (n : Fin 4) (d : VReg) s c, (streamIssue (.dspos n d) [] [d.val, d.val + 1] false).Ready s c →
    (streamIssue (.dspos n d) [] [d.val, d.val + 1] false).Done s c 0
      ((streamIssue (.dspos n d) [] [d.val, d.val + 1] false).acting s c) [d.val, d.val + 1]
      (fun _ x => (x.setV d.val ((x.pos n.val).setWidth 32)).setV (d.val + 1) (((x.pos n.val) >>> 32).setWidth 32))) ∧
  (∀ (n : Fin 4) (a b : LSrc) s c, (streamIssue (.dsskip n a b) [a, b] [] false).Ready s c →
    (streamIssue (.dsskip n a b) [a, b] [] false).Done s c 0 [] [] (fun l x =>
      Rules.atPos ((streamIssue (.dsskip n a b) [a, b] [] false).drawn s c l x) n
        (((streamIssue (.dsskip n a b) [a, b] [] false).drawn s c l x).pos n.val +
          Rules.number56 ((streamIssue (.dsskip n a b) [a, b] [] false).operand s c l x 0)
            ((streamIssue (.dsskip n a b) [a, b] [] false).operand s c l x 1)))) ∧
  (∀ (n : Fin 4) (a b : LSrc) s c, (streamIssue (.dssetp n a b) [a, b] [] false).Ready s c →
    (streamIssue (.dssetp n a b) [a, b] [] false).Done s c 0 [] [] (fun l x =>
      Rules.atPos ((streamIssue (.dssetp n a b) [a, b] [] false).drawn s c l x) n
        (Rules.number56 ((streamIssue (.dssetp n a b) [a, b] [] false).operand s c l x 0)
          ((streamIssue (.dssetp n a b) [a, b] [] false).operand s c l x 1)))) ∧
  (∀ (a : LSrc) s c, (streamIssue (.dsfork a) [a] [] false).Ready s c →
    (streamIssue (.dsfork a) [a] [] false).Done s c 0 [] [] (fun l x =>
      let f := ((streamIssue (.dsfork a) [a] [] false).operand s c l x 0).toNat
      { (streamIssue (.dsfork a) [a] [] false).drawn s c l x with
        ka := Rules.stream x.ka x.kb (BitVec.ofNat 64 (2 ^ 63 + 2 * f))
        kb := Rules.stream x.ka x.kb (BitVec.ofNat 64 (2 ^ 63 + 2 * f + 1))
        pos0 := 0, pos1 := 0, pos2 := 0, pos3 := 0 }))

/-- R191: CATD uses one word of stream n in every acting lane and writes into all of them the number of the lane whose
key is greatest, the lowest among equals; a NaN key is below every other.
Where the manual leaves it open, the model's choice of log entry 12. -/
def Obligations.CategoricalDrawPicksTheGreatestKey : Prop :=
  ∀ (n : Fin 4) (d : VReg) (a : LSrc) s c, (catdIssue n d a).Ready s c →
    ∃ b ∈ (catdIssue n d a).acting s c,
      (∀ j ∈ (catdIssue n d a).acting s c, j < b → beats (catdKey n d a s c j) (catdKey n d a s c b) = true) ∧
      (∀ j ∈ (catdIssue n d a).acting s c, b < j → beats (catdKey n d a s c b) (catdKey n d a s c j) = false) ∧
      (catdIssue n d a).Done s c 0 ((catdIssue n d a).acting s c) [d.val] (fun l x =>
        (((catdIssue n d a).drawn s c l x).skip n.val 1).setV d.val (BitVec.ofNat 32 b))

/-- R232: GNEVAL writes the element of the captured generator at (value(A), D), or at (D, value(A)) with T. -/
def Obligations.GeneratorEvaluation : Prop :=
  ∀ (t : Bool) (g : Fin 8) (d : VReg) (a : LSrc) s c im, (gnevalIssue t g d a).Ready s c →
    mapFind c.g.gn g.val = some im →
    (gnevalIssue t g d a).Done s c 0 ((gnevalIssue t g d a).acting s c) [d.val] (fun l x =>
      ((gnevalIssue t g d a).drawn s c l x).setV d.val (BitVec.ofNat 32
        (if t then gnValue im ((gnevalIssue t g d a).operand s c l x 1).toNat ((gnevalIssue t g d a).operand s c l x 0).toNat
         else gnValue im ((gnevalIssue t g d a).operand s c l x 0).toNat ((gnevalIssue t g d a).operand s c l x 1).toNat)))

/-- R20, R167, R169: each acting lane of a branch goes to its target, whose place in the code is checked; CALL writes its
link first. Nothing else changes. -/
def Obligations.BranchMovesEachLane : Prop :=
  ∀ i u, Rules.branchRule i = some u → ∀ s c, (branchIssue i u).Enters s c →
    (∀ l ∈ (branchIssue i u).acting s c, ∀ x, c.g.lane? l = some x →
      inCode c.ln c.g (u.target c ((branchIssue i u).operand s c l x 0) ((branchIssue i u).drawn s c l x)) = true) →
    Completes i s c c.g.s c.g.fps ((branchIssue i u).acting s c) (Rules.linkRegs u.link c) (fun l x =>
      if l ∈ (branchIssue i u).acting s c then
        { Rules.linked u.link c ((branchIssue i u).drawn s c l x) with
          pc := u.target c ((branchIssue i u).operand s c l x 0) ((branchIssue i u).drawn s c l x) }
      else (branchIssue i u).spent c l x)

/-- R172, R173, R174, R160: a scalar instruction executes once for its population: s(sd) takes its result, FSTAT clears the
status bits that it names, and the population goes on to the next word. Every other scalar register, every vector register,
mask, stream and all of memory are unchanged.
R29, R172: SBRA, SBZ and SBNZ take the whole population to the target or to the next word, and NOP, with or without its
literal, to the next word; nothing else changes.
R175: V2S copies the register of the named lane, which must be of the population, or with X = 63 and LANE clear the register
that is the same in the whole population.
Where the manual leaves it open, the model's choice of log entry 89. -/
def Obligations.ScalarInstructions : Prop :=
  (∀ i u, Rules.scalarRule i = some u → ∀ s c, Stands s c i.len →
    UDone i s c (mapSet 0 c.g.s u.sd.val (u.val c.g)) (Rules.statusAfter i c.g) c.nextPc) ∧
  (∀ i s c t, focusCtx s i.len = some c → uniformTarget c i = some t → inCode c.ln c.g t = true →
    UDone i s c c.g.s c.g.fps t) ∧
  (∀ (sd : SReg) (lane : Bool) (v : VReg) (x : Fin 64) s c (w : Word), Stands s c 1 → v.val < declared c.ln c.g →
    ((lane = true ∨ x.val ≠ 63) → x.val ∈ c.act ∧ Clean s c [x.val] [v.val] ∧
      ∃ y, c.g.lane? x.val = some y ∧ y.vreg v.val = w) →
    (lane = false → x.val = 63 → Clean s c c.act [v.val] ∧ ∀ l ∈ c.act, ∀ y, c.g.lane? l = some y → y.vreg v.val = w) →
    UDone (.v2s sd lane v x) s c (mapSet 0 c.g.s sd.val w) c.g.fps c.nextPc)

/-- R101, R103, R106: LD is accepted as an operation of the load class that will write, for each acting lane, the words its
bytes held; it writes no register at acceptance.
R106, R107, R108: LDE converts the elements of its handle to FP32 and sets the status at acceptance, the trailers of the tiles
that it touches having been checked where the handle has them.
R109: LDNR takes non-resident lines as zeros and writes m15 with which lanes met one. Both are accepted as LD is.
Where the manual leaves it open, the model's choice of log entries 13 and 83. -/
def Obligations.LaneLoadsAreAcceptedAndBound : Prop :=
  (∀ (d : VReg) (a : LSrc) (hs : HSel) (slot : Nat) (w : Width) s c h runs s₀ s₁,
    let q := loadIssue (.ld d a hs) d a hs slot w
    q.Ready s c → d.val % w.regs = 0 →
    q.Loads s c h [0, 1, 2, 3, 4, 5, 6, 7, 8, 9, 10] false (4 * w.regs) runs [] s₀ s₁ →
    q.Accepted s c 0 (fun l x => q.drawn s c l x) (fun t =>
      Outstanding t c.g.key .load (.load (loadFills q .plain d s c h runs
        (bindWide (q.on s c) s₁ (decide (4 < 4 * w.regs)) (runsLocs (q.on s c) s₁ h .r runs)))))) ∧
  (∀ (d : VReg) (a : LSrc) (hs : HSel) (slot : Nat) (w : Width) s c h runs s₀ s₁,
    let q := loadIssue (.lde d a hs) d a hs slot w
    q.Ready s c → d.val % w.regs = 0 →
    q.Loads s c h (ldeFmts w) false (elemBytes h w.regs) runs (if hTrb h = 0 then [] else tileRuns h runs) s₀ s₁ →
    let sb := bindWide (q.on s c) s₁ (decide (4 < elemBytes h w.regs)) (runsLocs (q.on s c) s₁ h .r runs)
    q.Accepted s c
      ((q.over s c (fun l _ => (laneLoad .convert (q.on s c) sb h w.regs (runs.find? (fun r => r.lane = l))).2)).foldl
        (fun a b => a ||| b) 0)
      (fun l x => q.drawn s c l x)
      (fun t => Outstanding t c.g.key .load (.load (loadFills q .convert d s c h runs sb)))) ∧
  (∀ (d : VReg) (a : LSrc) (hs : HSel) (slot : Nat) (w : Width) s c h runs s₀ s₁,
    let q := loadIssue (.ldnr d a hs) d a hs slot w
    q.Ready s c → d.val % w.regs = 0 →
    q.Loads s c h [0, 1, 2, 3, 4, 5, 6, 7, 8, 9, 10] true (4 * w.regs) runs [] s₀ s₁ →
    let sb := bindWide (q.on s c) s₁ (decide (4 < 4 * w.regs)) (runsLocs (q.on s c) s₁ h .r runs)
    q.Accepted s c 0
      (fun l x => (q.drawn s c l x).setM 15
        (match runs.find? (fun r => r.lane = l) with | some r => nonResident (q.on s c) sb h r | none => false))
      (fun t => Outstanding t c.g.key .load (.load (loadFills q .tolerant d s c h runs sb))))

/-- R101, R104, R106, R107, R256: ST, STE and STNT are accepted into the FIFO; STE converts FP32 words to elements and
sets their status; STNT, and a store through a handle with NTDEF, is non-temporal where its target is memory.
R258, R259: PST is accepted with both halves: one operation of two entries, which hold the lanes' elements through
the first handle and the same elements through the second at transposed coordinates; no byte of memory changes yet.
Where the manual leaves it open, the model's choice of log entry 28. -/
def Obligations.LaneStoresEnterTheFifo : Prop :=
  (∀ (d a : LSrc) (hs : HSel) (slot : Nat) (w : Width) s c h runs s₁, storeGroupOk d w →
    (let q := storeIssue (.st d a hs) .int d a hs slot w
     q.Ready s c → q.Reaches s c h [0, 1, 2, 3, 4, 5, 6, 7, 8, 9, 10] .w (4 * w.regs) runs (runEls h .lw runs) s₁ →
     StoreAccepted q false false d s c h runs s₁) ∧
    (let q := storeIssue (.ste d a hs) .fp32 d a hs slot w
     q.Ready s c → q.Reaches s c h [1, 3, 4, 5, 6, 7] .w (elemBytes h w.regs) runs (runEls h .lw runs) s₁ →
     StoreAccepted q true false d s c h runs s₁) ∧
    (let q := storeIssue (.stnt d a hs) .int d a hs slot w
     q.Ready s c → q.Reaches s c h [0, 1, 2, 3, 4, 5, 6, 7, 8, 9, 10] .w (4 * w.regs) runs (runEls h .lw runs) s₁ →
     StoreAccepted q false true d s c h runs s₁)) ∧
  (∀ (h2 : Slot) (d a : LSrc) (hs : HSel) (slot : Nat) (w : Width) s c h k runs es s₀ s₁ s₂,
    let q := storeIssue (.pst h2 d a hs) .int d a hs slot w
    let n := 4 * w.regs
    let data := fun l => (storedData q false d h s c l).1
    let bs := storeBytes (q.on s c) s₂ h (runs.map (fun r => (r, data r.lane)))
    q.Ready s c → storeGroupOk d w → halfLanes c.g c.pc = [] → openPsts c.g c.pc = [] → c.w.watch = [] →
    c.slot slot = h → c.slot h2.val = k → loaded h = true → loaded k = true →
    (1 ≤ hFmt h ∧ hFmt h ≤ 7) → (1 ≤ hFmt k ∧ hFmt k ≤ 7) → hProfile h = false → hProfile k = false →
    elemSize (hFmt h) = elemSize (hFmt k) →
    laneRuns (q.on s c) h n n (q.indices s c) = .ok runs →
    halfElems (q.on s c) h k (elemsOf h n) (q.indices s c) = .ok es →
    (hScratch k = true → presenceCheck (q.on s c) (halfRuns k es) = .ok ()) →
    reach (q.on s c) (q.after s c) h .w false runs = .ok () →
    watchStep (q.on s c) (q.after s c) (runEls h .lw runs) = .ok s₀ →
    observeParked (q.on s c) s₀ h runs = .ok s₁ → observeParked (q.on s c) s₁ k (halfRuns k es) = .ok s₂ →
    (hScratch k = false → xlCheck (xlLines s₂ c.ln .w (halfRuns k es)) (xlLines s₂ c.ln .w (halfRuns k es)) = .ok ()) →
    q.Accepted s c 0 (fun l x => q.drawn s c l x) (fun t =>
      SameBytes s t ∧ ∃ g op, OutstandingAs t op c.g.key .store (.store 2) ∧ findGroup t c.g.key = some g ∧
      g.fifo = c.g.fifo ++
        [.store op (!hScratch h && hNtDef h) none bs,
         .store op (!hScratch k && hNtDef k) none (storeBytes (q.on s c) s₂ k (halfData k es data))]))

/-- R261, R262: an atomic whose lanes reach memory is accepted in the load class and enters the FIFO of its group as one
request for each address, the lanes of an address in ascending order; no byte of memory changes by it yet. The group's SCATs of its
lines are performed before its checks (R297), which leaves `s₁`.
Where the manual leaves it open, the model's choice of log entries 29 and 85. -/
def Obligations.AtomicEntersTheFifo : Prop :=
  ∀ i p a hs, atomRule i = some (p, a, hs) → ∀ (slot : Nat) (w : Width) s c h runs s₁,
    let q := atomIssue p i a hs slot w
    q.Ready s c → w ∈ p.widths → (p.regs w = 1 ∨ ∃ r : VReg, p.data = .v r ∧ r.val % p.regs w = 0) →
    q.Updates s c h (if p.isFloat then [3] else [0, 2, 3]) (4 * w.regs) runs
      (runs.flatMap (fun r => runEls h .lr [r] ++ runEls h .lw [r])) s₁ →
    hDigest h = false → (p.isFloat = true → c.ln.det = false) →
    atomReqs (q.on s c) s₁ h runs (fun l => ⟨l, 0, 0⟩) ≠ [] →
    q.Accepted s c 0 (fun l x => q.drawn s c l x) (fun t =>
      SameBytes s₁ t ∧ ∃ at' op g, OutstandingAs t op c.g.key .load (.atomic at') ∧ at'.kind = p.kind ∧
        at'.width = 4 * w.regs ∧ at'.passed = false ∧ at'.gates = [] ∧
        at'.dest = p.dest ∧ at'.acqScope = acqOf p.ord ∧ at'.relScope = relOf p.ord ∧
        at'.reqs = atomReqs (q.on s c) s₁ h runs (atomLaneOf p q s c) ∧
        at'.fills = (match p.dest with
          | none => []
          | some d => (q.over s c (fun l _ => if runs.any (fun r => decide (r.lane = l)) then []
              else oldFills d (4 * w.regs) l 0)).flatten) ∧
        findGroup t c.g.key = some g ∧ g.fifo = ((q.on s c).now s₁).fifo ++ [.atomic op])

/-- R110, R111: LDU writes the words that its run holds into s(sd), and into s(sd + 1) in the wide form, before the next
instruction; zeros where it is out of bounds. A wide acquire reads at the home and empties the core's L1.
R111, R328: STU and QST are accepted into the FIFO of their group with the words of s(sd), or of a query register; QST asks
for a PROFILE handle, STU for one without; no byte of memory changes yet.
Where the manual leaves it open, the model's choice of log entry 96. -/
def Obligations.UniformLoadsAndStores : Prop :=
  (∀ (acq : Option Scope) (wide : Bool) (sd : SReg) (sb : USrc) s c h r s₁ s₂,
    Stands s c (Instr.len (.ldu acq wide sd sb)) →
    PopReaches s c (readU c.g sb) [0, 2, 3] .r [.lr] (if wide then 8 else 4) h r s₁ → hProfile h = false →
    observeParked c s₁ h r.toList = .ok s₂ →
    let ws := match r with
      | none => List.replicate (if wide then 2 else 1) (0 : Word)
      | some run => wordsOf (popRead c s₂ acq (runLocs c s₂ h .r run.va run.n)).1
    UAccepts (.ldu acq wide sd sb) s c
      (fun g => { g with s := (ws.mapIdx (fun j w => (j, w))).foldl (fun m p => mapSet 0 m (sd.val + p.1) p.2) g.s })
      (fun t => (r = none → SameBytes s t) ∧
        MemAs t (match r with | none => s₂ | some run => (popRead c s₂ acq (runLocs c s₂ h .r run.va run.n)).2) ∧
        (Canon s → wideOpt acq = true → r ≠ none → (coreOf t c.w.core).l1 = []))) ∧
  (∀ (rel : Option Scope) (wide : Bool) (sd : SReg) (sb : USrc) s c h r s₁ s₂,
    Stands s c (Instr.len (.stu rel wide sd sb)) → counter s c.g.key .store < 63 →
    PopReaches s c (readU c.g sb) [0, 2, 3] .w [.lw] (if wide then 8 else 4) h r s₁ → hProfile h = false →
    observeParked c s₁ h r.toList = .ok s₂ →
    UAccepts (.stu rel wide sd sb) s c id (fun t =>
      SameBytes s t ∧ ∃ g op, OutstandingAs t op c.g.key .store (.store 1) ∧ findGroup t c.g.key = some g ∧
        g.fifo = c.g.fifo ++ [.store op false rel (storeBytes c s₂ h (r.toList.map (fun x =>
          (x, (if wide then [c.g.sreg sd.val, c.g.sreg (sd.val + 1)] else [c.g.sreg sd.val]).flatMap
            (fun w => leBytes 4 w.toNat)))))])) ∧
  (∀ (q : Fin 8) (sb : USrc) s c h r s₁ s₂,
    Stands s c (Instr.len (.qst q sb)) → counter s c.g.key .store < 63 →
    PopReaches s c (readU c.g sb) [0, 2] .w [.lw] 8 h r s₁ → hProfile h = true →
    observeParked c s₁ h r.toList = .ok s₂ →
    UAccepts (.qst q sb) s c id (fun t =>
      SameBytes s t ∧ ∃ g op, OutstandingAs t op c.g.key .store (.store 1) ∧ findGroup t c.g.key = some g ∧
        g.fifo = c.g.fifo ++ [.store op false none (storeBytes c s₂ h (r.toList.map (fun x =>
          (x, leBytes 4 (mapGet 0 c.g.qt q.val).toNat ++ leBytes 4 ((mapGet 0 c.g.qt q.val).toNat / 2 ^ 32)))))]))

/-- R326: IDRD writes the item that its selector names into s(sd).
R327: QRD writes a query register, and no scalar register: the clocks of the core, the place of the group, the active hat
target, or the cluster's drop counter.
Where the manual leaves it open, the model's choice of log entries 8 and 84. -/
def Obligations.IdentifierAndQueryReads : Prop :=
  (∀ (sd : SReg) (sb : USrc) s c n, Stands s c (Instr.len (.idrd sd sb)) → identifier c (readU c.g sb).toNat = some n →
    UDone (.idrd sd sb) s c (mapSet 0 c.g.s sd.val (BitVec.ofNat 32 n)) c.g.fps c.nextPc) ∧
  (∀ (q : Fin 8) (sb : USrc) s c, Stands s c (Instr.len (.qrd q sb)) → (readU c.g sb).toNat < 4 →
    ∃ v : DWord,
      UAccepts (.qrd q sb) s c (fun g => { g with qt := mapSet 0 g.qt q.val v }) (fun t => SameBytes s t) ∧
      ((readU c.g sb).toNat = 0 → v = BitVec.ofNat 64 s.clock) ∧
      ((readU c.g sb).toNat = 1 → v = BitVec.ofNat 64
        (c.w.core / 4 / 16 + 4 * physCluster s (c.w.core / 4) + 128 * (c.w.core % 4) + 512 * c.g.part + 8192 * c.g.slot)) ∧
      ((readU c.g sb).toNat = 2 → v = BitVec.ofNat 64 s.mcb.hats) ∧
      ((readU c.g sb).toNat = 3 → v = (clusterOf s (c.w.core / 4)).drops))

/-- R140: WAITC returns when no counter is above its threshold and no hit is to be observed; otherwise it holds its
population. A threshold of 63 does not test.
R267, R257: FENCE returns when its group has nothing left to perform before it, and NTDRAIN when the non-temporal
stores are out; otherwise they hold their population. A FENCE of GROUP or WORKGROUP scope and NTDRAIN change no byte.
Where the manual leaves it open, the model's choice of log entry 31. -/
def Obligations.WaitsAndFences : Prop :=
  (∀ (a b d e : Fin 64) s c, Stands s c 1 →
    let low := fun (n : Fin 64) cls => n.val = 63 ∨ counter s c.g.key cls ≤ n.val
    let all := low a .load ∧ low b .store ∧ low d .copy ∧ low e .tile
    (all → (∀ j ∈ openHits s, waitcHits c.g a.val b.val d.val e.val j = false) →
      UAccepts (.waitc a b d e) s c id (fun t => SameBytes s t)) ∧
    (¬ all → Holds (.waitc a b d e) s c (.waitc a.val b.val d.val e.val))) ∧
  (∀ (sc : Scope) s c, Stands s c 1 →
    (fenceReady c.g sc (s.seq - 1) = true →
      UAccepts (.fence sc) s c id (fun t => wideScope sc = false → SameBytes s t)) ∧
    (fenceReady c.g sc (s.seq - 1) = false → Holds (.fence sc) s c (.fence sc (s.seq - 1))) ∧
    (drainReady s c.g c.w.core sc (s.seq - 1) = true → UAccepts (.ntdrain sc) s c id (fun t => SameBytes s t)) ∧
    (drainReady s c.g c.w.core sc (s.seq - 1) = false → Holds (.ntdrain sc) s c (.ntdrain sc (s.seq - 1))))

/-! ## Barriers and ring queues -/

/-- R128, R129: on the fields of a barrier the updates are Arrive with an expectation, Expect, Land and Flag, each but the
last ended by Settle; no update touches ARRI, RING or the reserved bits. -/
def Obligations.BarrierUpdates : Prop :=
  ∀ (b : Bar) (k q e : Nat), e < 8 →
    Rules.Barrier.of (barArrive k q b) = (Rules.Barrier.of b).arrive k q ∧
    Rules.Barrier.of (barExpect q b) = (Rules.Barrier.of b).expect q ∧
    Rules.Barrier.of (barLand b) = (Rules.Barrier.of b).land ∧
    Rules.Barrier.of (barFlag e b) = (Rules.Barrier.of b).flag e

/-- R132, R135, R136, R137: BINIT writes its ring whole, whatever it held; BARRIVE adds one arrival for each lane of its
population, with an expectation in the EXP form, and BEXPECT its expectation, in one update of the located barrier. What
the group's FIFO held is performed first. Nothing else changes.
Where the manual leaves it open, the model's choice of log entries 31 and 36. -/
def Obligations.BarrierInstructionsUpdateTheirBarrier : Prop :=
  (∀ (sd sb : USrc) s c u, Stands s c (Instr.len (.binit sd sb)) →
    let a := (readU c.g sb).toNat % 2 ^ 20
    let n := (readU c.g sb).toNat / 2 ^ 20 % 2 ^ 8
    let b := (readU c.g sd).toNat
    (readU c.g sb).toNat / 2 ^ 28 = 0 → a ≠ 0 → b % 16 = 0 → b + 16 * max n 1 ≤ c.scratchSize →
    (∀ i < 16 * max n 1, (b + i) / 128 ∉ c.w.absent) →
    observeLines c (drainFifo s c.g.key) (scratchLines [⟨0, b, 16 * max n 1, 0⟩]) = .ok u →
    UAccepts (.binit sd sb) s c id (SameElsewhere (ringSlots u c.w.uid b a n)) ∧
    Rules.Barrier.of (barInit a n) = ⟨0, a, 0, a, 0, n, 0⟩) ∧
  (∀ (ring exp : Bool) (sd sb : USrc) s c off ph u, Stands s c (Instr.len (.barrive ring exp sd sb)) →
    (exp = true → (readU c.g sb).toNat < 2 ^ 25) → locateBar c (drainFifo s c.g.key) ring sd 0 = .ok (off, ph) →
    observeBar c (drainFifo s c.g.key) ring sd off = .ok u →
    UAccepts (.barrive ring exp sd sb) s c id (SameElsewhere (barUpdate u c.w.uid off
      (barArrive c.act.length (if exp = true then (readU c.g sb).toNat else 0))))) ∧
  (∀ (ring : Bool) (sd sb : USrc) s c off ph u, Stands s c (Instr.len (.bexpect ring sd sb)) →
    (readU c.g sb).toNat < 2 ^ 25 → locateBar c (drainFifo s c.g.key) ring sd 0 = .ok (off, ph) →
    observeBar c (drainFifo s c.g.key) ring sd off = .ok u →
    UAccepts (.bexpect ring sd sb) s c id
      (SameElsewhere (barUpdate u c.w.uid off (barExpect (readU c.g sb).toNat))))

/-- R137, R138: BWAIT returns when the phase it names has been passed by 1 to 8 completions and holds its population
otherwise; BTEST writes whether it has, or the barrier's state, and in the ERRC form clears the error bits.
What the group's FIFO held is performed first, and joins are observed: the model's choice of log entries 31, 36 and 91. -/
def Obligations.BarrierWaitAndTest : Prop :=
  (∀ (ring : Bool) (sd sb : USrc) s c off ph u, Stands s c (Instr.len (.bwait ring sd sb)) →
    (ring = false → (readU c.g sb).toNat < 16) →
    locateBar c (drainFifo s c.g.key) ring sd (if ring = true then 0 else (readU c.g sb).toNat) = .ok (off, ph) → ph < 16 →
    observeBar c (drainFifo s c.g.key) ring sd off = .ok u →
    let now := (Rules.Barrier.of (barGet u c.w.uid off)).phase
    (passed now ph → (∀ j ∈ openHits u, barHits c.w.uid off now j = false) →
      UAccepts (.bwait ring sd sb) s c id (SameElsewhere u)) ∧
    (¬ passed now ph → HoldsIn (.bwait ring sd sb) s u c (.bwait off ph none))) ∧
  (∀ (ring : Bool) (sd : SReg) (sb : USrc) s c off ph u,
    observeBar c (drainFifo s c.g.key) ring (.s sd) off = .ok u →
    let bar := barGet u c.w.uid off
    (Stands s c (Instr.len (.btest .test ring sd sb)) → (ring = false → (readU c.g sb).toNat < 16) →
      locateBar c (drainFifo s c.g.key) ring (.s sd) (if ring = true then 0 else (readU c.g sb).toNat) = .ok (off, ph) →
      ph < 16 →
      (passed (Rules.Barrier.of bar).phase ph →
        (∀ j ∈ openHits u, barHits c.w.uid off (Rules.Barrier.of bar).phase j = false) →
        UAccepts (.btest .test ring sd sb) s c (fun g => g.setS sd.val 1) (SameElsewhere u)) ∧
      (¬ passed (Rules.Barrier.of bar).phase ph →
        UAccepts (.btest .test ring sd sb) s c (fun g => g.setS sd.val 0) (SameElsewhere u))) ∧
    (Stands s c (Instr.len (.btest .read ring sd sb)) → locateBar c (drainFifo s c.g.key) ring (.s sd) 0 = .ok (off, ph) →
      UAccepts (.btest .read ring sd sb) s c (fun g => g.setS sd.val (testWord (Rules.Barrier.of bar))) (SameElsewhere u)) ∧
    (Stands s c (Instr.len (.btest .errc ring sd sb)) → locateBar c (drainFifo s c.g.key) ring (.s sd) 0 = .ok (off, ph) →
      UAccepts (.btest .errc ring sd sb) s c (fun g => g.setS sd.val (testWord (Rules.Barrier.of bar)))
        (SameElsewhere (barUpdate u c.w.uid off (fun b => setBits b 72 70 0)))))

/-- R141, R142: RQENQ puts its words into entry TAIL mod 2^LOGN and raises TAIL, with status 1, unless the queue is full;
RQDEQ takes those of entry HEAD mod 2^LOGN and raises HEAD, unless it is empty; else, and out of bounds, the status is 0 and
the queue is unchanged. The entry and the counter are written at their homes. R270: RQDEQ with a wide acquire empties the L1 of
its core after its reads.
Where the manual leaves it open, the model's choice of log entries 31 and 36. -/
def Obligations.RingQueueOperations : Prop :=
  (∀ (rel : Option Scope) (wide : Bool) (sd : SReg) (sb : USrc) s c, Stands s c (Instr.len (.rqenq rel wide sd sb)) →
    let w := if wide then 2 else 1
    (ringOpen c s wide rel (readU c.g sb) = .ok none →
      UAccepts (.rqenq rel wide sd sb) s c (fun g => g.setS (sd.val + w) 0) (SameElsewhere s)) ∧
    (∀ h cb s₁, ringOpen c s wide rel (readU c.g sb) = .ok (some (h, cb, s₁)) →
      (cb.tail = (cb.head + 2 ^ cb.logn) % 2 ^ 32 →
        UAccepts (.rqenq rel wide sd sb) s c (fun g => g.setS (sd.val + w) 0) (SameElsewhere s₁)) ∧
      (∀ e l s₂, cb.tail ≠ (cb.head + 2 ^ cb.logn) % 2 ^ 32 →
        ringEntry c s₁ h ((readU c.g sb).toNat % 2 ^ 26) (4 * w) cb.tail cb.logn = .ok (some e, s₂) →
        ringHead c s₂ h ((readU c.g sb).toNat % 2 ^ 26) = some l →
        UAccepts (.rqenq rel wide sd sb) s c (fun g => g.setS (sd.val + w) 1)
          (SameElsewhere (locSetBytes
            (locSetBytes (homeReady c s₂ none e) c.w.owner e ((sregs c.g sd.val w).flatMap (fun x => leBytes 4 x.toNat)))
            c.w.owner (l.plus 4) (leBytes 4 (cb.tail + 1))))))) ∧
  (∀ (acq : Option Scope) (wide : Bool) (sd : SReg) (sb : USrc) s c, Stands s c (Instr.len (.rqdeq acq wide sd sb)) →
    let w := if wide then 2 else 1
    let acquire := fun (x : State) => if wideOpt acq = true then l1DropAll x c.w.core else x
    (ringOpen c s wide none (readU c.g sb) = .ok none →
      UAccepts (.rqdeq acq wide sd sb) s c (fun g => g.setS (sd.val + w) 0) (SameElsewhere s)) ∧
    (∀ h cb s₁, ringOpen c s wide none (readU c.g sb) = .ok (some (h, cb, s₁)) →
      (cb.tail = cb.head →
        UAccepts (.rqdeq acq wide sd sb) s c (fun g => g.setS (sd.val + w) 0) (SameElsewhere (acquire s₁))) ∧
      (∀ e l s₂, cb.tail ≠ cb.head →
        ringEntry c s₁ h ((readU c.g sb).toNat % 2 ^ 26) (4 * w) cb.head cb.logn = .ok (some e, s₂) →
        ringHead c s₂ h ((readU c.g sb).toNat % 2 ^ 26) = some l →
        let u := homeReady c s₂ none e
        UAccepts (.rqdeq acq wide sd sb) s c
          (fun g => (putSregs sd.val (wordsOf (locBytes u c.w.owner e (4 * w))) g).setS (sd.val + w) 1)
          (SameElsewhere (acquire (locSetBytes u c.w.owner l (leBytes 4 (cb.head + 1))))))))

/-! ## The handle table, distribution and generator registers, and requests -/

/-- R97, R98, R99: HLOAD writes the 128 bytes that it reads into slot X, an unloaded one as zeros; HADJ changes one field of
a loaded slot; HQRY writes one item of a slot into s(sd). No other slot changes.
Where the manual leaves it open, the model's choice of log entry 61. -/
def Obligations.HandleTableInstructions : Prop :=
  (∀ (sd : SReg) (sb : USrc) (x : Slot) s c h a s₁, Stands s c (Instr.len (.hload sd sb x)) →
    tableSource c (readU c.g sb).toNat true = .ok h → tableRun c s h (c.g.sreg sd.val).toNat 128 128 = .ok (a, s₁) →
    let d : Handle := BitVec.ofNat 1024 (ofBytes (tableBytes c s₁ h a 128).1)
    (loaded d = true → handleFault d = none) →
    UAccepts (.hload sd sb x) s c id (fun t => WgIs t c.w.uid (fun w =>
      w.handles = mapSet 0 c.w.handles x.val (if loaded d = true then d else 0)))) ∧
  (∀ (sd : SReg) (sb : USrc) (x : Slot) s c d, Stands s c (Instr.len (.hadj sd sb x)) →
    ((readU c.g sb).toNat = 0 → sd.val % 2 = 0) →
    adjusted (c.slot x.val) (readU c.g sb).toNat (c.g.sreg sd.val) (c.g.sreg (sd.val + 1)) = some d →
    loaded (c.slot x.val) = true → handleFault d = none →
    UAccepts (.hadj sd sb x) s c id (SameElsewhere
      (updWg s c.w.uid (fun w => { w with handles := mapSet 0 w.handles x.val d })))) ∧
  (∀ (sd : SReg) (sb : USrc) (x : Slot) s c n, Stands s c (Instr.len (.hqry sd sb x)) →
    hqryItem (c.slot x.val) (readU c.g sb).toNat = some n →
    UDone (.hqry sd sb x) s c (mapSet 0 c.g.s sd.val (BitVec.ofNat 32 n)) c.g.fps c.nextPc)

/-- R184, R231: DSLD and GNLD capture a valid descriptor, with its table, in their register of the group, and a zero
descriptor clears it. -/
def Obligations.DistributionAndGeneratorLoads : Prop :=
  (∀ (sd : SReg) (sb : USrc) (x : Fin 16) s c h a s₁, Stands s c (Instr.len (.dsld sd sb x)) →
    tableSource c (readU c.g sb).toNat false = .ok h → tableRun c s h (c.g.sreg sd.val).toNat 256 256 = .ok (a, s₁) →
    let d : DsDesc := BitVec.ofNat 2048 (ofBytes (tableBytes c s₁ h a 256).1)
    (d = 0 → UAccepts (.dsld sd sb x) s c (fun g => { g with ds := mapErase g.ds x.val }) (fun _ => True)) ∧
    (∀ k o v u, d ≠ 0 → dsKind (bits d 2 0) = some k → dsValid d k = true →
      dsTable c (tableBytes c s₁ h a 256).2 d k = .ok (o, v) →
      observeLines c v (scratchLines [⟨0, o, dsTableSize k (dsN d), 0⟩]) = .ok u →
      ∃ im, im.kind = k ∧ im.stream.val = d.toNat / 16 % 4 ∧ im.n = d.toNat / 2 ^ 16 % 2 ^ 10 + 1 ∧ im.toff = o ∧
        im.lo.toNat = d.toNat / 2 ^ 64 % 2 ^ 32 ∧
        (k = .uniform → im.width.toNat = (subF .fp32 (d.toNat / 2 ^ 96 % 2 ^ 32) (d.toNat / 2 ^ 64 % 2 ^ 32)).code % 2 ^ 32) ∧
        UAccepts (.dsld sd sb x) s c (fun g => { g with ds := mapPut g.ds x.val im }) (fun _ => True))) ∧
  (∀ (sd : SReg) (sb : USrc) (x : Fin 8) s c h a s₁, Stands s c (Instr.len (.gnld sd sb x)) →
    tableSource c (readU c.g sb).toNat false = .ok h → tableRun c s h (c.g.sreg sd.val).toNat 128 128 = .ok (a, s₁) →
    let d : GnDesc := BitVec.ofNat 1024 (ofBytes (tableBytes c s₁ h a 128).1)
    (d = 0 → UAccepts (.gnld sd sb x) s c (fun g => { g with gn := mapErase g.gn x.val }) (fun _ => True)) ∧
    (d ≠ 0 → gnValid d = true → gnKind d ≠ 2 → gnKind d ≠ 3 →
      UAccepts (.gnld sd sb x) s c (fun g => { g with gn := mapPut g.gn x.val ⟨d, 0, (gnKey c.ln d).1, (gnKey c.ln d).2⟩ })
        (fun _ => True)) ∧
    (∀ b s₂, d ≠ 0 → gnValid d = true → (gnKind d = 2 ∨ gnKind d = 3) →
      tableRun c (tableBytes c s₁ h a 128).2 h (gnTidx d) 512 16 = .ok (b, s₂) →
      UAccepts (.gnld sd sb x) s c
        (let im : GnImage := ⟨d, BitVec.ofNat 4096 (ofBytes (tableBytes c s₂ h b 512).1), (gnKey c.ln d).1, (gnKey c.ln d).2⟩
         fun g => { g with gn := mapPut g.gn x.val im })
        (fun _ => True)))

/-- R66, R67: PGREQ starts one engine operation for its byte, or arrives at its barrier at once where the byte is out of
bounds or in a scratchpad; PFH changes nothing but what the caches hold: the core's L1 with target 2 only, and nothing at all
with target 3, an unloaded slot or a scratchpad handle. It never changes a value that an access reads: with the other targets
every byte reads at its home under every key as before. With target 2 lines may leave the core's L1 and their dirty bytes go home:
where none is dirty every home stays as before, and in any case the core reads every byte as before of which its L1 holds no older copy.
Where the manual leaves it open, the model's choice of log entries 60 and 80. -/
def Obligations.PageRequestAndPrefetch : Prop :=
  (∀ (sd : SReg) (sb : USrc) (x : Slot) s c off, Stands s c (Instr.len (.pgreq sd sb x)) →
    loaded (c.slot x.val) = true → barAt c (readU c.g sb).toNat = .ok off →
    let h := c.slot x.val
    let a := (hBase h + (c.g.sreg sd.val).toNat + 2 ^ 32 * (c.g.sreg (sd.val + 1)).toNat) % 2 ^ 64
    (inReach s c.w c.ln h a = false → hTrapOob h = false →
      UAccepts (.pgreq sd sb x) s c id (SameElsewhere (engineArrive s c.w.uid off 1))) ∧
    (inReach s c.w c.ln h a = true → hScratch h = true →
      UAccepts (.pgreq sd sb x) s c id (SameElsewhere (engineArrive s c.w.uid off 0))) ∧
    (inReach s c.w c.ln h a = true → hScratch h = false →
      UAccepts (.pgreq sd sb x) s c id (fun t => SameBytes s t ∧ Outstanding t c.g.key .none (.pgreq ⟨a, off, c.ln.ptroot, c.ln.owner, none⟩)))) ∧
  (∀ (sd : SReg) (sb : USrc) (x : Slot) s c, Stands s c (Instr.len (.pfh sd sb x)) →
    UAccepts (.pfh sd sb x) s c id (fun t =>
      { t with groups := s.groups, focus := s.focus, mem := s.mem, msc := s.msc, l2 := s.l2, cores := s.cores,
               lineKeys := s.lineKeys } = s ∧
      ((readU c.g sb).toNat / 2 ^ 24 % 4 ≠ 2 → t.cores = s.cores ∧ t.lineKeys = s.lineKeys) ∧
      (Machine.Inv s → PoolCache s → CacheAgrees s →
        ((readU c.g sb).toNat / 2 ^ 24 % 4 ≠ 2 → ∀ key pa, homeByte t key pa = homeByte s key pa) ∧
        (CoreCache s c.w.core →
          ((∀ x ∈ (coreOf s c.w.core).l1, x.dirty = 0) → ∀ key pa, homeByte t key pa = homeByte s key pa) ∧
          ∀ g pa ca, UpToDate s c.w.core c.w.owner pa →
            readLoc t c.w.core c.w.owner g (.mem pa ca) = readLoc s c.w.core c.w.owner g (.mem pa ca))) ∧
      ((loaded (c.slot x.val) = false ∨ hScratch (c.slot x.val) = true ∨ (readU c.g sb).toNat / 2 ^ 24 % 4 = 3) →
        SameElsewhere s t)))

/-! ## The key store -/

/-- R237, R241, R247: KSINIT writes a fresh header and an empty bucket table at their homes, from its register pair, cap and
generator; KSIG gives every lane the signature of the row and lane q the margin of bit q, infinity beyond the bits.
KSINIT waits for its group's KST and KGATH on the store, and what the group's FIFO held and its SCATs on the lines are performed
first, before KSIG reads the header too, which leaves `s₀`: the model's choice of log entries 59 and 31. -/
def Obligations.KeyStoreInitialisationAndSignature : Prop :=
  (∀ (gn : Fin 8) (psc : Scope) (clog : Fin 3) (bb : Fin 9) (d128 : Bool) (sd : SReg) (sb : USrc) (x : Slot) s c im,
    Stands s c (Instr.len (.ksinit gn psc clog bb d128 sd sb x)) →
    let k := c.slot x.val
    let kbase := (c.g.sreg sd.val).toNat + 2 ^ 32 * (c.g.sreg (sd.val + 1)).toNat
    let cap := (readU c.g sb).toNat
    let h := ksFresh kbase cap im.desc (scopeCode psc) clog.val (bb.val + 4) d128
    ksBusy s c.g.key (hBase k) = false → loaded k = true → hFmt k = 11 → hProfile k = false → hExt k 0 ≤ 2 ^ 31 →
    hBase k % 256 = 0 → mapFind c.g.gn gn.val = some im → gnKind im.desc = 1 → gnScope im.desc = true →
    kbase % 256 = 0 → kbase < 2 ^ 60 → cap ≤ 2 ^ 24 →
    reach c s k .w false [⟨0, hBase k, 256 + 8 * 2 ^ (bb.val + 4), 0⟩] = .ok () →
    let u := ksSettle c s .w (hBase k) (256 + 8 * 2 ^ (bb.val + 4))
    UAccepts (.ksinit gn psc clog bb d128 sd sb x) s c id
      (SameElsewhere (engineSetAll u (c.w.core / 4) c.w.owner (ksInitStores u c k h))) ∧
    HeaderIs h kbase cap (BitVec.ofNat 64 (im.desc.toNat / 2 ^ 192 % 2 ^ 64)) (BitVec.ofNat 64 (im.desc.toNat / 2 ^ 256 % 2 ^ 64))
      (bb.val + 4) (if d128 then 128 else 64) (4 * 2 ^ clog.val) (scopeCode psc)) ∧
  (∀ (d a : VReg) (x : Slot) s c k h s₀,
    let q := engineIssue (.ksig d a x) [] [a.val, d.val, d.val + 1] [a.val] .none
    let wide := decide (ksBpl h c.g.width = 8)
    q.Ready s c → (c.g.width = 32 ∨ c.g.width = 64) → ksHandle c x.val = .ok k → ksHeader c s k = .ok (h, s₀) →
    (wide = true → a.val % 2 = 0 ∧ a.val + 1 < declared c.ln c.g ∧ Clean s c c.act [a.val + 1]) →
    (∀ l < ksLanes h c.g.width, l ∈ c.act) →
    let r := ksSig c.ln h (bf16Codes (rowWords c h (fun _ y => if wide then [y.vreg a.val, y.vreg (a.val + 1)] else [y.vreg a.val])))
    q.Accepted s c 0 (fun l y =>
      (y.setV d.val (BitVec.ofNat 32 r.1)).setV (d.val + 1) (BitVec.ofNat 32 (r.2.getD l 0x7F800000)))
      (fun u => SameElsewhere s₀ u ∧ SameBytes s₀ u ∧ PoisonKept s₀ u c.g.key (q.acting s c) [d.val, d.val + 1]))

/-- R242, R243, R248, R249: KST is accepted with its row, token and bucket, to be written and linked; KGATH with the snapshot
of its buckets, its output lines taken from presence; a fallback is noted in the mask bit. What the group's FIFO held is performed
before the header and the buckets are read, and leaves `s₀` (R273).
Where the manual leaves it open, the model's choice of log entries 59 and 31. -/
def Obligations.KeyStoreOperationsAccepted : Prop :=
  (∀ (nl wide : Bool) (d a : LSrc) (x : Slot) s c k h (t : Word) s₀ s₁,
    let n := if wide then 2 else 1
    let q := engineIssue (.kst nl wide d a x) [(.int, a), (.int, d)] (srcGroup d n) (srcGroup d n) .tile
    let e := q.on s c
    q.Ready s c → (c.g.width = 32 ∨ c.g.width = 64) → Uniform q s c 0 t → ksHandle e x.val = .ok k →
    ksHeader e (q.after s c) k = .ok (h, s₀) → (wide = true ↔ ksBpl h c.g.width = 8) →
    (∀ l < ksLanes h c.g.width, l ∈ e.act) → tokenOk k h t.toNat = true →
    reach e s₀ k .w false (kstRuns e h t.toNat) = .ok () →
    watchStep e s₀ (kstEls e k h t.toNat) = .ok s₁ →
    let ws := rowWords e h (fun l y => if wide then (srcGroup d 2).map (q.drawn s c l y).vreg else [q.operand s c l y 1])
    q.Accepted s c 0 (fun l y => q.drawn s c l y) (fun u => SameBytes s₁ u ∧
      Outstanding u c.g.key .tile (.kst
        { store := k, hdr := h, t := t.toNat, sigma := (ksSig c.ln h (bf16Codes ws)).1
          row := ((runLocs e s₁ k .w (ksKbase h + 2 * ksDim h * t.toNat) (2 * ksDim h)).zip
            (ws.flatMap (fun w => leBytes 4 w.toNat))).map (fun p => ⟨p.1, p.2⟩)
          rowDone := false, stage := if nl then .linked else .claim }))) ∧
  (∀ (kh oh : Slot) (p : Fin 13) (msk : Option MReg) (cap : Fin 2048) (d a b : LSrc) s c k h out (o sigma : Word) s₀ s₁,
    let q := engineIssue (.kgath kh oh p msk cap d a b) [(.int, a), (.fp32, b), (.int, d)] [] [] .copy
    let e := q.on s c
    q.Ready s c → ksClaiming s c.g.key (hBase (c.slot kh.val)) = false → Uniform q s c 0 sigma → Uniform q s c 2 o →
    ksHandle e kh.val = .ok k → ksHeader e (q.after s c) k = .ok (h, s₀) → sigma.toNat < 2 ^ ksBits h → p.val ≤ ksBits h →
    (p.val = 0 ∨ ∀ l < ksBits h, l ∈ e.act) → kgathOut e oh o.toNat (cap.val + 1) = .ok out →
    let margins := (q.over s c (fun l y => (l, (q.operand s c l y 1).toNat))).filter (fun m => decide (m.1 < ksBits h))
    let bs := ksBuckets sigma.toNat (probeBits p.val margins)
    reach e s₀ k .r false (bs.map (fun n => ⟨0, ksEntryVa k n, 8, 0⟩)) = .ok () → watchStep e s₀ [] = .ok s₁ →
    let v := bs.foldl (fun u n => ksIssueRead e u (ksEntryVa k n) 8) s₁
    let snap := ksSnap v c.w c.ln k bs
    let n := (snap.map (·.nclm)).foldl (· + ·) 0
    let cause := fallCause h n (cap.val + 1)
    let lines := kgathLines out o.toNat (if cause = 0 then n else 0)
    (msk = none → cause = 0) → (cause = 0 → ksLinking v c.g.key (hBase k) bs = false) →
    q.Accepted s c 0
      (fun l y => match msk with | some m => (q.drawn s c l y).setM m.val (cause != 0) | none => q.drawn s c l y)
      (fun u => SameBytes v u ∧ WgIs u c.w.uid (fun w => ∀ l, l ∈ w.absent ↔ l ∈ lines ∨ l ∈ c.w.absent) ∧
        Outstanding u c.g.key .copy (.kgath
          { store := k, hdr := h, out := out, o := o.toNat, n := n, fallbk := cause != 0, snap := snap, lines := lines })))

/-! ## The request collector and copies -/

/-- R295, R296, R299: GATH, SCAT and SISECT are accepted once their elements are checked: GATH in the load class with the
locations that its registers will take, SCAT in the store class with its bytes, SISECT in the load class with its clipped
ranges; no register and no byte has changed yet. R292: the lines of each have entered the core's collector.
Where the manual leaves it open, the model's choice of log entry 58. -/
def Obligations.CollectorOperationsAccepted : Prop :=
  (∀ (nm1 : Fin 8) (men : Option MReg) (d : VReg) (a : LSrc) (hs : HSel) (slot : Nat) (w : Width) s c h runs s₁ s₂,
    let n := nm1.val + 1
    let q := collIssue (.gath nm1 men d a hs) [(.int, a)] (regRange d.val (n * w.regs)) (indexRegs a n) .load false hs slot w
    let e := q.on s c
    q.Ready s c → d.val % w.regs = 0 → c.slot slot = h → loaded h = true → hFmt h ≤ 10 → hProfile h = false →
    laneRuns e h (4 * w.regs) (4 * w.regs) ((collList q s c men a n).map (fun x => (x.lane, x.idx))) = .ok runs →
    reachLines e (q.after s c) h .r false runs = .ok () → watchStep e (q.after s c) (runEls h .lr runs) = .ok s₁ →
    observeParked e s₁ h runs = .ok s₂ →
    let fills := (collList q s c men a n).flatMap (gathFills e s₂ h d.val w.regs)
    q.Accepted s c 0 (fun l x => q.drawn s c l x) (fun t => SameBytes s t ∧ ∃ op,
      OutstandingAs t op c.g.key .load (.gath fills none) ∧
      (Canon s → (coreOf t c.w.core).coll =
        (physLines (fills.filterMap (·.src))).foldl (collJoin op) (coreOf s c.w.core).coll))) ∧
  (∀ (nm1 : Fin 8) (men : Option MReg) (d a : LSrc) (hs : HSel) (slot : Nat) (w : Width) s c h runs s₁ s₂,
    let n := nm1.val + 1
    let q := collIssue (.scat nm1 men d a hs) [(.int, a), (.int, d)] (srcGroup d (n * w.regs)) (indexRegs a n) .store true hs
      slot w
    let e := q.on s c
    q.Ready s c → (n * w.regs = 1 ∨ ∃ r : VReg, d = .v r ∧ r.val % w.regs = 0) → c.slot slot = h → loaded h = true →
    hFmt h ≤ 10 → hProfile h = false →
    laneRuns e h (4 * w.regs) (4 * w.regs) ((collList q s c men a n).map (fun x => (x.lane, x.idx))) = .ok runs →
    reachLines e (q.after s c) h .w false runs = .ok () → watchStep e (q.after s c) (runEls h .lw runs) = .ok s₁ →
    observeParked e s₁ h runs = .ok s₂ →
    let bs := storeBytes e s₂ h (scatData h d n w (q.issue s c) (collList q s c men a n))
    q.Accepted s c 0 (fun l x => q.drawn s c l x) (fun t => SameBytes s t ∧ ∃ op,
      OutstandingAs t op c.g.key .store (.scat bs) ∧
      (Canon s → (coreOf t c.w.core).coll =
        (physLines (bs.map (·.loc))).foldl (collJoin op) (coreOf s c.w.core).coll))) ∧
  (∀ (ha hb : Slot) (out : Option Slot) (men : Option MReg) (d : VReg) (a : LSrc) (b : VReg) s c s₁,
    let q := engineIssue (.sisect ha hb out men d a b) [(.int, a)] (regRange d.val 4 ++ [b.val]) (regRange d.val 4) .load
    let act := collAct men (q.issue s c)
    q.Ready s c →
    (∀ k ∈ [ha.val, hb.val] ++ (out.map (·.val)).toList, loaded (c.slot k) = true ∧ streamOk (c.slot k) = true) →
    (∀ i ∈ act, (hTrapOob (c.slot ha.val) = true → (i.lane.vreg (d.val + 1)).toNat ≤ hExt (c.slot ha.val) 0) ∧
      (hTrapOob (c.slot hb.val) = true → (i.lane.vreg (d.val + 3)).toNat ≤ hExt (c.slot hb.val) 0)) →
    watchStep (q.on s c) (q.after s c) [] = .ok s₁ →
    let si : SiOp :=
      { ha := c.slot ha.val, hb := c.slot hb.val, oh := out.map (fun o => c.slot o.val), d := d.val, b := b.val
        lanes := act.map (fun i => ⟨i.idx, (i.lane.vreg d.val).toNat,
          min (i.lane.vreg (d.val + 1)).toNat (hExt (c.slot ha.val) 0), (i.lane.vreg (d.val + 2)).toNat,
          min (i.lane.vreg (d.val + 3)).toNat (hExt (c.slot hb.val) 0), (i.arg 0).toNat⟩) }
    q.Accepted s c 0 (fun l x => q.drawn s c l x) (fun t => SameBytes s t ∧ ∃ op,
      OutstandingAs t op c.g.key .load (.sisect si) ∧
      (Canon s → (coreOf t c.w.core).coll =
        (physLines (siLocs s₁ c.w c.ln si)).foldl (collJoin op) (coreOf s c.w.core).coll)))

/-- R112, R116, R117, R120, R121: a copy to one or several workgroups is accepted in the copy class with its sectors. At each
receiver the error bits are set, its lines leave presence and, with EXP, its quads are expected; with ARR the issuer
arrives at its own barrier after its earlier stores.
Where the manual leaves it open, the model's choice of log entries 31, 64 and 65. -/
def Obligations.CopyAccepted : Prop :=
  ∀ (w : CopyWord) (tgt : Option (Fin 16)) (d a b : LSrc) s c k (v : Word) bar s₀ s₁ s₂, Canon s →
    let i : Instr := match tgt with | none => .cpl w d a b | some t => .cpm w t d a b
    let q := engineIssue i [(.int, a), (.int, b), (.int, d)] [] [] .copy
    let e := q.on s c
    let x := q.issue s c
    q.Ready s c → Uniform q s c 1 v → copyShape w tgt.isSome x = .ok k → barAt e v.toNat = .ok bar →
    copyReach e x.s k (copyAct w x) = .ok s₀ → watchStep e s₀ (copyEls k) = .ok s₁ →
    observeLines e s₁ (checkedLines e x.s k) = .ok s₂ →
    let secs := copySectors e s₂ w k (receivers s₂ c.w tgt)
    let err := (if k.inb.length < (copyAct w x).length then 1 else 0) + (if k.inb.any (srcNonRes e s₂ k) then 2 else 0)
    let quads := k.inb.length * k.db / 4 + 4 * k.tiles.length
    let u := (receivers s₂ c.w tgt).foldl (acceptAt w bar err quads secs) (if w.arr then drainFifo s₂ c.g.key else s₂)
    q.Accepted s c 0 (fun l x => q.drawn s c l x) (fun t =>
      t.wgs = (if w.arr then barUpdate u c.w.uid bar (barArrive e.act.length 0) else u).wgs ∧
      (secs ≠ [] → ∃ cp : CopyOp, Outstanding t c.g.key .copy (.copy cp) ∧ cp.src = k.hs ∧ cp.dst = k.hd ∧ cp.bar = bar ∧
        cp.sectors = secs ∧ ∀ y ∈ secs, y.landed = false))

/-! ## The matrix engine and the accumulator -/

/-- R203, R206, R208, R211: MMQ is accepted in the tile class with one reservation for each octet, holding its operands. Each
octet of an MMT counts one arrival of its round, outstanding in the tile class, in the round's entry of the table; the last
arrival completes the entry with the octets of all members, or, where the members disagree, fails the round: every arrival
retires and the issuing group has a TEAM trap of subcode 2 to take.
Where the manual leaves it open, the model's choice of log entries 54 and 55. -/
def Obligations.MatrixOperationsAccepted : Prop :=
  (∀ (w : MatWord) (d a b : LSrc) s c os h bs s₁ ws,
    let q := matIssue (.mmq w d a b) w d a b
    let x := q.issue s c
    let cl := c.w.core / 4
    q.Ready s c → slotNamed w c → (octetNums c.act).length ≤ tableRoom c s →
    octetsOf w.bsrc x = .ok os → matCheck w x os = .ok (h, bs, s₁, ws) →
    q.Accepted s c 0 (fun l y => q.drawn s c l y) (fun t => SameBytes s t ∧
      Outstanding t c.g.key .tile (.matrix (os.map (·.row0))) ∧
      (clusterOf t cl).resv.length = (clusterOf s cl).resv.length + os.length ∧
      ∀ p ∈ bs, ∃ r ∈ (clusterOf t cl).resv, r.wg = c.w.uid ∧ r.complete = true ∧ ∃ o, r.octets = [o] ∧ o.ah = h ∧
        o.org = p.1.org ∧ o.row0 = p.1.row0 ∧ o.b = p.2 ∧ o.k0 = p.1.bc.toNat % 2 ^ 20 ∧ o.j = p.1.bc.toNat / 2 ^ 20 ∧
        o.t = w.t ∧ o.acc = w.acc)) ∧
  (∀ (w : MatWord) (team : Fin 8) (d a b : LSrc) s c os₀ os h bs s₁ ws,
    let q := matIssue (.mmt w team d a b) w d a b
    let x := q.issue s c
    let round := fun (p : OctetIn × BRef) => mapGet 0 c.g.rounds p.1.oct
    let size := teamSize c.ln team.val
    q.Ready s c → slotNamed w c → size ≠ 0 → (newRounds c s team.val).length ≤ tableRoom c s →
    counter s c.g.key .tile + (octetNums c.act).length ≤ 63 →
    octetsOf w.bsrc x = .ok os₀ → teamDiffer os₀ = [] → memberOctets x.c team.val os₀ = .ok os →
    matCheck w x os = .ok (h, bs, s₁, ws) →
    ∃ tf, c.g.teamFails <+: tf ∧ Accepts (.mmt w team d a b) s c
      (fun g => { g with
        rounds := os.foldl (fun m o => mapPut m o.oct (mapGet 0 m o.oct + 1)) g.rounds, teamFails := tf })
      (fun l y => if l ∈ q.acting s c then { q.drawn s c l y with pc := c.nextPc } else q.spent c l y)
      (fun t => SameBytes s t ∧
        (Canon s → AllCanArrive s c team.val → AllAgree s c w team.val h bs →
          tf = c.g.teamFails ∧ counter t c.g.key .tile = counter s c.g.key .tile + bs.length ∧
          ∀ p ∈ bs, ∃ i op, memberOf c.ln c.g team.val p.1.oct = some i ∧
            OutstandingAs t op c.g.key .tile (.team (arrivalFor c w team.val h op p i)) ∧
            ∃ e ∈ (clusterOf t (c.w.core / 4)).resv, e.wg = c.w.uid ∧ e.team = some (team.val, round p) ∧
              (size ≤ (arrivalsOf t c.w.uid team.val (round p)).length → e.complete = true ∧
                e.octets = teamOctets (arrivalsOf t c.w.uid team.val (round p)) size)) ∧
        (∀ p i, Canon s → bs = [p] → memberOf c.ln c.g team.val p.1.oct = some i →
          size ≤ (arrivalsOf s c.w.uid team.val (round p)).length + 1 →
          (∃ x ∈ arrivalsOf s c.w.uid team.val (round p), agrees x.2 (arrivalFor c w team.val h 0 p i) = false) →
          arrivalsOf t c.w.uid team.val (round p) = [] ∧ (⟨round p, 2, maskOf p.1.lanes, c.g.eop, false⟩ : TeamFail) ∈ tf)))

/-- R217, R218, R220: ACCRD, ACCWR, ACCPATCH and ACCST are accepted in the tile class with their elements; no accumulator
element, register or byte has changed yet.
R215, R219: ACCZ clears its rows at once where no older operation of the group still has to act on them, and otherwise waits
for its turn; it counts in no class and changes no other element.
Where the manual leaves it open, the model's choice of log entries 57 and 83. -/
def Obligations.AccumulatorOperationsAcceptedAndZeroing : Prop :=
  (∀ (mm1 : Fin 32) (d : VReg) (a b : LSrc) s c (r k : Word),
    let q := engineIssue (.accrd mm1 d a b) [(.int, a), (.int, b)] (regRange d.val (mm1.val + 1)) [] .tile
    let els := accList q s c r.toNat k.toNat (mm1.val + 1) d.val (fun _ _ _ => 0)
    q.Ready s c → Uniform q s c 0 r → Uniform q s c 1 k →
    (∀ e ∈ els, e.row < c.w.accRows ∧ e.col < 256 ∧ PoisonLoc.acc c.w.uid e.row e.col ∉ s.poison) →
    q.Accepted s c 0 (fun l y => q.drawn s c l y) (fun t => t.wgs = s.wgs ∧ SameBytes s t ∧
      Outstanding t c.g.key .tile (.accrd els))) ∧
  (∀ (mm1 : Fin 32) (d a b : LSrc) s c (r k : Word),
    let m := mm1.val + 1
    let q := engineIssue (.accwr mm1 d a b) [(.int, a), (.int, b), (.int, d)] (srcGroup d m) (srcGroup d m) .tile
    let els := accList q s c r.toNat k.toNat m 0 (fun l y j =>
      if m = 1 then q.operand s c l y 2 else ((srcGroup d m).map (q.drawn s c l y).vreg).getD j 0)
    q.Ready s c → Uniform q s c 0 r → Uniform q s c 1 k → (∀ e ∈ els, e.row < c.w.accRows ∧ e.col < 256) →
    q.Accepted s c 0 (fun l y => q.drawn s c l y) (fun t => t.wgs = s.wgs ∧ SameBytes s t ∧
      Outstanding t c.g.key .tile (.accwr els))) ∧
  (∀ (add : Bool) (d a : LSrc) (m : MReg) s c,
    let q := engineIssue (.accpatch add d a m) [(.int, a), (.fp32, d)] [] [] .tile
    let pos := fun l y => (q.operand s c l y 0).toNat
    let els := (q.over s c (fun l y => if (q.drawn s c l y).mbit m.val = true then
      [(⟨l, 0, pos l y % 2 ^ 11, pos l y / 2 ^ 16 % 2 ^ 8, q.operand s c l y 1⟩ : AccElem)] else [])).flatten
    q.Ready s c →
    (∀ l ∈ q.acting s c, ∀ y, c.g.lane? l = some y → (q.drawn s c l y).mbit m.val = true →
      pos l y / 2 ^ 24 = 0 ∧ pos l y / 2 ^ 11 % 2 ^ 5 = 0) →
    (∀ e ∈ els, e.row < c.w.accRows ∧ (add = true → PoisonLoc.acc c.w.uid e.row e.col ∉ s.poison)) →
    q.Accepted s c 0 (fun l y => q.drawn s c l y) (fun t => t.wgs = s.wgs ∧ SameBytes s t ∧
      Outstanding t c.g.key .tile (.accpatch add els))) ∧
  (∀ (rm : Fin 2048) (r : Rnd) (sat : Bool) (sd sb : USrc) (x : Slot) s c tiles xl s₁,
    Stands s c (Instr.len (.accst rm r sat sd sb x)) →
    let h := c.slot x.val
    let row := (readU c.g sd).toNat
    let i := (readU c.g sb).toNat
    let els := accstElems h row (rm.val + 1) i
    counter s c.g.key .tile < 63 → loaded h = true → hFmt h ∈ [3, 4, 6, 7] → hProfile h = false →
    row + rm.val + 1 ≤ c.w.accRows → accstTiles h els = some tiles →
    (hTrapOob h = true → accstOut h (rm.val + 1) i = none) → (∀ e ∈ els, e.col = 0 → e.va % 16 = 0) →
    engineReach c s h .w (accstRuns h els tiles) = .ok xl → watchStep c s (accstEls c h els row i) = .ok s₁ →
    UAccepts (.accst rm r sat sd sb x) s c id (fun t => t.wgs = s.wgs ∧ SameBytes s t ∧
      Outstanding t c.g.key .tile (.accst h row (rm.val + 1) i r sat xl))) ∧
  (∀ (sd sb : USrc) s c, Stands s c (Instr.len (.accz sd sb)) → Canon s →
    let r := (readU c.g sd).toNat
    let n := (readU c.g sb).toNat
    r + n ≤ c.w.accRows →
    (accTurn s c.g.key s.seq [(r, n)] = true →
      UAccepts (.accz sd sb) s c id (fun t => t.ops = s.ops ∧ SameBytes s t ∧ WgIs t c.w.uid (fun w =>
        ∀ row col, col < 256 → accGet w row col = if r ≤ row ∧ row < r + n then 0 else accGet c.w row col))) ∧
    (accTurn s c.g.key s.seq [(r, n)] = false →
      UAccepts (.accz sd sb) s c id (fun t => t.wgs = s.wgs ∧ SameBytes s t ∧ Outstanding t c.g.key .none (.accz r n))))

/-- R196, R197, R198, R200: BLD is accepted in the tile class, BFREE in none; each takes its place at the end of its slot's order
and adds one to LGEN. With nothing before it a load begins at once, and a free empties the slot at once. -/
def Obligations.BStackInstructions : Prop :=
  (∀ (t nt : Bool) (sd : SReg) (sb : USrc) (x : Slot) s c xl s₁ s₂, Stands s c (Instr.len (.bld t nt sd sb x)) →
    let h := c.slot x.val
    let i := (c.g.sreg sd.val).toNat
    let n := (readU c.g sb).toNat
    let cs := bldChunks h i t
    counter s c.g.key .tile < 63 → n < c.ln.bslots → loaded h = true → hFmt h ∈ [4, 6, 7, 8, 9, 10] → hProfile h = false →
    (t = true → hFmt h ≠ 9 ∧ hFmt h ≠ 10) →
    (hTrapOob h = true → i < hExt h 0 * hExt h 1 * hExt h 2 * hExt h 3) → bldMisaligned h i cs = false →
    (hScratch h = true → spCheck c (bldRuns h cs) = .ok () ∧ presenceCheck c (bldRuns h cs) = .ok ()) →
    engineReach c s h .r (bldRuns h cs) = .ok xl → watchStep c s (bldEls c h i cs) = .ok s₁ →
    observeLines c s₁ (if hScratch h then scratchLines (bldRuns h cs) else []) = .ok s₂ →
    let b := bslotGet s (c.w.core / 4) c.ln.uid n
    UAccepts (.bld t nt sd sb x) s c id (fun u => SameBytes s u ∧ ∃ op,
      OutstandingAs u op c.g.key .tile (.bld ⟨c.w.core / 4, c.ln.uid, n, h, i, t, nt, xl⟩) ∧
      let b' := bslotGet u (c.w.core / 4) c.ln.uid n
      b'.lgen = b.lgen + 1 ∧ (b.steps.head? ≠ some .free → b'.steps = b.steps ++ [.load op]) ∧
      (Canon s → b.steps = [] → b'.state = .loading))) ∧
  (∀ (sb : USrc) s c, Stands s c (Instr.len (.bfree sb)) →
    let n := (readU c.g sb).toNat
    n < c.ln.bslots →
    let b := bslotGet s (c.w.core / 4) c.ln.uid n
    UAccepts (.bfree sb) s c id (fun u => SameBytes s u ∧ u.ops = s.ops ∧
      let b' := bslotGet u (c.w.core / 4) c.ln.uid n
      b'.lgen = b.lgen + 1 ∧ (b.steps = [] → b'.state = .empty ∧ b'.steps = []) ∧
      (b.steps ≠ [] → b.steps.head? ≠ some .free → b'.steps = b.steps ++ [.free])))

/-! ## Launches, trap mode, the end of lanes and groups, and watches -/

/-- R329, R331: LAUNCH enqueues its record and writes its launch index, or all ones where the chain is STOPPED; TAPEPUSH
pushes its record where the tape has room and writes whether it had; END marks the launch.
Where the manual leaves it open, the model's choice of log entries 31 and 50. -/
def Obligations.LaunchAndTapePush : Prop :=
  (∀ (after : Bool) (sd : SReg) (sb : USrc) s c pa g s₁, Stands s c (Instr.len (.launch after sd sb)) →
    launchCheck (readU c.g sb) c s = .ok (pa, g, s₁) →
    (chainStopped s₁ (metRcbs s₁ 8 g) = true →
      UAccepts (.launch after sd sb) s c (fun x => x.setS sd.val 0xFFFFFFFF) (SameElsewhere s₁)) ∧
    (chainStopped s₁ (metRcbs s₁ 8 g) = false → recOwned s pa = false →
      let u := clusterDrop s₁ (c.w.core / 4) (lineOf pa)
      UAccepts (.launch after sd sb) s c (fun x => x.setS sd.val (BitVec.ofNat 32 (rcbLcount u g)))
        (fun t => SameElsewhere (enqueue u g pa (if after then some c.ln.uid else none) false).1 t ∧
          ∃ n, t.queued = s.queued ++ [⟨pa, g, n, if after then some c.ln.uid else none, false⟩]))) ∧
  (∀ (endF : Bool) (sd : SReg) (sb : USrc) s c h run s₁, Stands s c (Instr.len (.tapepush endF sd sb)) →
    recordRun c s (readU c.g sb) 64 = .ok (h, run, s₁) →
    let sp := rcbTapesp s₁ c.ln.region
    let va := c.ln.tapeb.toNat + 64 * sp
    let x : XLine := ⟨c.act.headD 0, lineOf va, translate s₁ c.ln .w (lineOf va)⟩
    (sp < c.ln.tapecap → xlCheck [x] [x] = .ok ()) → rcbTapeRun s₁ c.ln.region = false →
    let q := tableBytes c s₁ h run.va 64
    let line := runLocs c s₁ h .w va 64
    let u := drainFifo (if sp < c.ln.tapecap then settleFor c q.2 line else q.2) c.g.key
    let out := (line.zip q.1).map (fun p => (⟨p.1, p.2⟩ : StoreByte))
    let pushed := if sp < c.ln.tapecap then
        rcbSetTapesp (out.foldl (fun s b => storeByteOut s c.w.core c.w.owner b) u) c.ln.region (sp + 1)
      else u
    UAccepts (.tapepush endF sd sb) s c (fun g => g.setS sd.val (if sp < c.ln.tapecap then 1 else 0))
      (SameElsewhere (if endF then updLaunch pushed c.ln.uid (fun l => { l with endFwd := true }) else pushed)))

/-- R342, R343: in trap mode TRET, the group's earlier accesses being complete, gives the group back what its frame holds, with
SKIP past the trapped instruction for its lanes, and leaves trap mode; TFRD reads a frame word; TFWR writes the bits of one that may
be written and no other word. TRET needs no word after it, the frame stands in the save record, TRET itself completes the accesses,
and a word that TFWR writes is poisoned no more: the model's choices of log entries 26, 39 and 126 and R358's words on stores. -/
def Obligations.TrapFrameInstructions : Prop :=
  (∀ (skip : Bool) s c g w ln, focusCtx s 1 = some c → c.g.trapMode = true →
    let u := completeAccesses s c.g.key
    findCtx u c.g.key = some (g, w, ln) →
    let word := fun off n => frameGet u w c.g.key.g off n
    let past := if skip then 4 * (word 0 4 / 2 ^ 16 % 4) else 0
    (∀ l < g.width, word (0x100 + 4 * l) 4 ≠ 2 ^ 32 - 1 →
      inCode ln { g with trapMode := false } (ln.kernel + BitVec.ofNat 64 (word (0x100 + 4 * l) 4 +
        (if word 0x10 8 / 2 ^ l % 2 = 1 then past else 0))) = true) →
    Ends (.tret skip) s (fun t => SameBytes u t ∧ GroupIs t c.g.key (fun g' => g'.trapMode = false ∧ g'.eop = g.eop + 1 ∧
      g'.fps = BitVec.ofNat 6 (word 0xA20 4) ∧
      g'.s = (List.range 8).foldl (fun m r => mapSet 0 m r (BitVec.ofNat 32 (word (0xA00 + 4 * r) 4))) g.s ∧
      ∀ l x, g.lane? l = some x → ∃ y, g'.lane? l = some y ∧ (x.exited = true → y = x) ∧
        (x.exited = false → Restored u w ln c.g.key.g past l x y)))) ∧
  (∀ (sd : SReg) (sb : USrc) s c, Stands s c (Instr.len (.tfrd sd sb)) → c.g.trapMode = true → (readU c.g sb).toNat < 1024 →
    UDone (.tfrd sd sb) s c
      (mapSet 0 c.g.s sd.val (BitVec.ofNat 32 (frameGet s c.w c.g.key.g (4 * (readU c.g sb).toNat) 4))) c.g.fps c.nextPc) ∧
  (∀ (sd : SReg) (sb : USrc) s c, Stands s c (Instr.len (.tfwr sd sb)) → c.g.trapMode = true → Machine.Inv s →
    let n := (readU c.g sb).toNat
    let base := frameBase s c.w c.g.key.g
    n < 1024 → base + 4096 ≤ poolBase → (∀ i < 4096, mapFind s.lineKeys (lineOf (base + i)) = some (keyOr s c.w.owner)) →
    UAccepts (.tfwr sd sb) s c
      (fun g => { g with vpoison := g.vpoison.filter (fun p => n ≠ 128 + 64 * p.2 + p.1) }) (fun t =>
      (∀ m < 1024, frameGet t c.w c.g.key.g (4 * m) 4 =
        if m = n then frameWordAfter c.g n (frameGet s c.w c.g.key.g (4 * n) 4) (c.g.sreg sd.val).toNat
        else frameGet s c.w c.g.key.g (4 * m) 4) ∧
      (∀ pa, (pa < base + 4 * n ∨ base + 4 * n + 4 ≤ pa) → plainByte t pa = plainByte s pa)))

/-- R170, R344: EXIT ends the acting lanes, GEND every lane of the group; a group whose lanes have all ended and whose counters
are empty ends, and its workgroup with its last group. No byte of memory changes by EXIT, GEND or the end of a group.
R309, R340, R344: GEND.REC, in trap mode, records the trap of its frame in the launch's RCB as unhandled: FCOUNT counts it, the
first one notes launch, workgroup, cause, subcode and PC, and the work that FDP names ends with the group; no other byte changes.
GEND needs no word after it: the model's choice of log entry 26. -/
def Obligations.EndsOfLanesAndGroups : Prop :=
  (∀ s c,
    let q : LIssue := { instr := .exit, srcs := [], named := [], reads := [], own := false }
    q.Enters s c → Ends .exit s (fun t => SameBytes s t ∧ GroupIs t c.g.key (fun g => g.eop = c.g.eop + 1 ∧
      ∀ l, g.lane? l = (c.g.lane? l).map (fun x => if l ∈ c.act then { x with exited := true } else x)))) ∧
  (∀ s c, focusCtx s 1 = some c → Ends (.gend false) s (fun t => SameBytes s t ∧
    (∀ k, k ≠ c.g.key → (findGroup t k).map (·.lanes) = (findGroup s k).map (·.lanes)) ∧
    GroupIs t c.g.key (fun g => ∀ l, g.lane? l = (c.g.lane? l).map (fun x => { x with exited := true })))) ∧
  (∀ s c, focusCtx s 1 = some c → c.g.trapMode = true → Machine.Inv s → PoolCache s → c.ln.region + 512 ≤ poolBase →
    (∀ w ∈ s.wgs, findWg s w.uid = some w) →
    let word := fun off n => frameGet s c.w c.g.key.g off n
    let pa := c.ln.region
    let ends := fun (k : GKey) => if c.ln.fdp = 0 then k = c.g.key else if c.ln.fdp = 1 then k.wg = c.g.key.wg
      else inLaunch s c.ln.uid k = true
    Ends (.gend true) s (fun t =>
      (∀ k g, ends k → findGroup t k = some g → g.live = []) ∧
      (∀ k, ¬ ends k → (findGroup t k).map (·.lanes) = (findGroup s k).map (·.lanes)) ∧
      rcbFcount t pa = min (2 ^ 32 - 1) (rcbFcount s pa + 1) ∧
      (rcbFcause s pa = 0 → plainNum t (pa + 100) 4 = c.ln.lidx.toNat ∧ plainNum t (pa + 104) 4 = c.w.index % 2 ^ 32 ∧
        plainNum t (pa + 108) 1 = word 0 4 % 64 ∧ plainNum t (pa + 109) 1 = word 0 4 / 2 ^ 8 % 2 ^ 8 ∧
        plainNum t (pa + 112) 8 = (c.ln.kernel + BitVec.ofNat 64 (word 8 4)).toNat) ∧
      rcbStopped t pa = (rcbStopped s pa || decide (3 ≤ c.ln.fdp)) ∧
      plainNum t (pa + 84) 1 / 2 = plainNum s (pa + 84) 1 / 2 ∧
      (∀ a, (a < pa + 96 ∨ (if rcbFcause s pa = 0 then pa + 120 else pa + 100) ≤ a) → a ≠ pa + 84 →
        plainByte t a = plainByte s a))) ∧
  (∀ s k g w, findGroup s k = some g → findWg s k.wg = some w → g.live = [] → g.fifo = [] →
    (∀ o ∈ s.ops, o.grp = k → o.cls = .none) →
    Ends (.groupEnd k) s (fun t => findGroup t k = none ∧
      (∀ pa, plainByte t pa = plainByte s pa) ∧ (∀ key pa, homeByte t key pa = homeByte s key pa) ∧
      (∀ uid off, (uid ≠ k.wg ∨ (findWg t k.wg).isSome = true) → scratchByte t uid off = scratchByte s uid off) ∧
      ((∃ g' ∈ s.groups, g'.key ≠ k ∧ g'.key.wg = k.wg) → t.launches = s.launches ∧ (findWg t k.wg).isSome = true) ∧
      ((∀ g' ∈ s.groups, g'.key.wg = k.wg → g'.key = k) → findWg t k.wg = none ∧
        findLaunch t w.launch = (findLaunch s w.launch).map (fun l => { l with live := l.live - 1 }))))

/-- R349, R354: WATCH.LOAD puts a valid 32-byte definition into slot W of the workgroup, WATCH.CLR a zero one, both into the save
record too, and WATCH.STORE stores the slot as a store of its group. No other slot changes.
WATCH.STORE's own write is not watched: the model's choice of log entry 62. -/
def Obligations.WatchInstructions : Prop :=
  (∀ (n : Fin 8) (sb : USrc) s c h a s₁, Stands s c (Instr.len (.watchLoad n sb)) →
    watchHandle c (readU c.g sb) = .ok h → tableRun c s h ((readU c.g sb).toNat % 2 ^ 26) 32 32 = .ok (a, s₁) →
    let d : BitVec 256 := BitVec.ofNat 256 (ofBytes (tableBytes c s₁ h a 32).1)
    watchValid d = true →
    let u := keyedSetNum (tableBytes c s₁ h a 32).2 c.w.owner (recordBase s c.w + 256 + 32 * n.val) 32 d.toNat
    UAccepts (.watchLoad n sb) s c id (fun t => WgIs t c.w.uid (fun w => w.watch = mapSet 0 c.w.watch n.val d) ∧
      t.mem = u.mem ∧ t.msc = u.msc ∧ t.lineKeys = u.lineKeys ∧ t.cores = u.cores)) ∧
  (∀ (n : Fin 8) (sb : USrc) s c h run s₁, Stands s c (Instr.len (.watchStore n sb)) → counter s c.g.key .store < 63 →
    watchHandle c (readU c.g sb) = .ok h →
    tableStoreRun c s h ((readU c.g sb).toNat % 2 ^ 26) 32 32 .w = .ok (run, s₁) →
    UAccepts (.watchStore n sb) s c id (fun t => SameBytes s t ∧ t.wgs = s.wgs ∧
      GroupIs t c.g.key (fun g => ∃ op, OutstandingAs t op c.g.key .store (.store 1) ∧ g.fifo = c.g.fifo ++
        [.store op false none (storeBytes c s₁ h [(run, leBytes 32 (mapGet 0 c.w.watch n.val).toNat)])]))) ∧
  (∀ (n : Fin 8) s c, Stands s c (Instr.len (.watchClr n)) →
    UAccepts (.watchClr n) s c id
      (SameElsewhere (keyedSetNum (updWg s c.w.uid (fun w => { w with watch := mapSet 0 w.watch n.val 0 }))
        c.w.owner (recordBase s c.w + 256 + 32 * n.val) 32 0)))

/-! ## Traps -/

/-- R171, R336, R337, R338, R357, R208: TRAP takes ILLEGAL subcode 8 with its code, an encoding that is none ILLEGAL subcode 1
or 2, a fetch that fails FETCH, and a member of a failed team round TEAM: the frame is written and the handler entered. A fetch on
a migrating page parks its lanes, and one on a non-resident page in hardware mode parks them too and requests the page.
Where the manual leaves it open, the model's choice of log entries 23 and 72. -/
def Obligations.TrapsEnterTheHandler : Prop :=
  (∀ (code : BitVec 16) s c,
    let q : LIssue := { instr := .trap code, srcs := [], named := [], reads := [], own := false }
    q.Enters s c → Machine.Inv s → Handled s c.g.key c.g c.w c.ln →
    Ends (.trap code) s (fun t => Trapped t c.g.key c.g c.w c.ln c.pc
      { mkTrap 0x01 8 with mask := c.mask, len := 1, code := code })) ∧
  (∀ (w : Word) s c, noInstr w.toNat = true → focusCtx s 1 = some c → Machine.Inv s → Handled s c.g.key c.g c.w c.ln →
    Ends (.illegalEncoding w) s (fun t => Trapped t c.g.key c.g c.w c.ln c.pc
      { mkTrap 0x01 (if w = 0 ∨ w = 0xFFFFFFFF then 1 else 2) with mask := c.mask, len := 1 })) ∧
  (∀ s c sub va, focusCtx s 1 = some c → Machine.Inv s → Handled s c.g.key c.g c.w c.ln →
    (fetch s c.ln c.pc = .error (.fault sub va) ∨
      (fetch s c.ln c.pc = .error (.nonres va) ∧ bit s.mcb.mode 0 = true ∧ sub = 2)) →
    Ends .fetchFault s (fun t => Trapped t c.g.key c.g c.w c.ln c.pc
      { mkTrap 0x11 sub with mask := maskOf (c.g.activeAt c.pc), addr := BitVec.ofNat 64 va })) ∧
  (∀ s c va, focusCtx s 1 = some c → fetch s c.ln c.pc = .error (.migrating va) →
    Ends .fetchFault s (fun t => SameBytes s t ∧ GroupIs t c.g.key (fun g => g.lanes = c.g.lanes ∧
      FetchParked c g (.fetchMig va)))) ∧
  (∀ s c va l epa e, focusCtx s 1 = some c → fetch s c.ln c.pc = .error (.nonres va) → bit s.mcb.mode 0 = false →
    walk s c.ln.ptroot va = .nonres l epa e →
    Ends .fetchFault s (fun t => SameBytes s t ∧ t.held = s.held ∧ t.mcb = s.mcb ∧
      ∃ r ∈ t.reqs, r.ptroot = c.ln.ptroot ∧ r.va / levelSpan (pageLevel l e) = va / levelSpan (pageLevel l e) ∧
        .fetch c.g.key ∈ r.waits ∧ GroupIs t c.g.key (fun g => g.lanes = c.g.lanes ∧ g.trapMode = c.g.trapMode ∧
          FetchParked c g (.fetchReq r.id)))) ∧
  (∀ s k g w ln f rest l x, let s₁ := failTeamRounds s
    findGroup s₁ k = some g → g.frozen = false → g.teamFails = f :: rest →
    let s₂ := updGroup s₁ k (fun g => { g with teamFails := rest })
    Machine.Inv s₂ → Handled s₂ k { g with teamFails := rest } w ln →
    let ls := (setBitsOf 64 f.mask.toNat).filter (fun l => g.live.contains l)
    ls.head? = some l → g.lane? l = some x →
    Ends (.teamTrap k) s (fun t => Trapped t k { g with teamFails := rest } w ln x.pc
      { mkTrap 0x12 f.sub with mask := maskOf ls, aux := BitVec.ofNat 32 f.round, eopid := eopidOf f.eop .tile }))

/-- R22, R149, R232: a register beyond the declared count, an unloaded generator register and a butterfly distance that differs;
R339, R344: the forms of trap mode outside it. Each takes the trap that its rule names, by the frame and the entry of R336–R338, and no
lane has changed.
Where the manual leaves it open, the model's choice of log entry 25. -/
def Obligations.FormsThatTrap : Prop :=
  (∀ i u, Rules.intRule i = some u → ∀ s c, focusCtx s i.len = some c → Machine.Inv s → Handled s c.g.key c.g c.w c.ln →
    (∃ r ∈ (u.issue i).named ++ (u.issue i).vregs, declared c.ln c.g ≤ r) →
    Ends i s (fun t => Trapped t c.g.key c.g c.w c.ln c.pc { mkTrap 0x02 2 with mask := c.mask, len := c.len })) ∧
  (∀ (t' : Bool) (n : Fin 8) (d : VReg) (a : LSrc) s c, (gnevalIssue t' n d a).Ready s c →
    (gnevalIssue t' n d a).reject c.g = none → mapFind c.g.gn n.val = none → Machine.Inv s → Handled s c.g.key c.g c.w c.ln →
    Ends (.gneval t' n d a) s (fun t => Trapped t c.g.key c.g c.w c.ln c.pc
      { mkTrap 0x02 6 with mask := c.mask, len := c.len })) ∧
  (∀ (d : VReg) (a b : LSrc) s c l x,
    let q := moveIssue (.lxor d a b) d [a, b]
    q.Ready s c → q.reject c.g = none → Machine.Inv s → Handled s c.g.key c.g c.w c.ln →
    c.act.head? = some l → c.g.lane? l = some x →
    let bad := q.lanesWith s c (fun j y => decide (q.operand s c j y 1 ≠ q.operand s c l x 1))
    bad ≠ [] →
    Ends (.lxor d a b) s (fun t => Trapped t c.g.key c.g c.w c.ln c.pc
      { mkTrap 0x03 0 with mask := maskOf bad, len := c.len })) ∧
  (∀ (skip : Bool) (sd : SReg) (sb : USrc), ∀ i ∈ [Instr.tret skip, .tfrd sd sb, .tfwr sd sb, .gend true], ∀ s c,
    focusCtx s i.len = some c → Machine.Inv s → Handled s c.g.key c.g c.w c.ln →
    Ends i s (fun t => Trapped t c.g.key c.g c.w c.ln c.pc { mkTrap 0x13 1 with mask := c.mask, len := c.len }))

/-! ## Events of the path to memory -/

/-- R103, R139, R254, R256, R270: a load that heads its class writes its registers and retires; the store at the head of a FIFO
leaves it into L1, scratchpad or the write-combining buffer, and one with a wide release to its home; a held non-temporal store is
written. R263, R265: a request of an atomic, at the head of its FIFO or past atomics for other addresses, is performed at its
home, lane by lane in ascending order, its line having left the core's L1 at the latest when it was sent; a copy that the core has
filled since takes the result (R255). R259: the entry of second halves completes the PSTs that it belongs to.
Where the manual leaves it open, the model's choice of log entries 13, 29, 30 and 126. -/
def Obligations.FifoAndLoadEvents : Prop :=
  (∀ s id o fills g, findOp s id = some o → o.kind = .load fills → o.done = false → headsClass s o = true →
    findGroup s o.grp = some g → Ends (.loadComplete id) s (fun t => Landed t s o g fills ∧ t.wgs = s.wgs ∧
      ∀ x ∈ t.ops, x.id ≠ id)) ∧
  (∀ s k g w op nt rel bs rest, Canon s → findGroup s k = some g → findWg s k.wg = some w →
    g.fifo = .store op nt rel bs :: rest → scatBlocks s k (.store op nt rel bs) = false →
    let v := settlePassed s w.core k (bs.map (·.loc))
    Ends (.storeRetire k) s (fun t => GroupIs t k (fun g' => g'.fifo = rest ∧ g'.lanes = g.lanes ∧ g'.s = g.s) ∧
      (nt = true → MemAs t (let u := (memLines bs).foldl (fun s l => l1Drop s w.core l) v
        setCore u w.core { coreOf u w.core with wc := (coreOf u w.core).wc ++ [⟨k, op, w.owner, bs⟩] })) ∧
      (nt = false → wideOpt rel = false → MemAs t (bs.foldl (fun s b => storeByteOut s w.core w.owner b) v)) ∧
      (nt = false → wideOpt rel = true →
        MemAs t (bs.foldl (fun s b => releaseByteOut s w.core w.owner b) (l1WriteBackAll v w.core))) ∧
      (∀ o, findOp s op = some o → o.kind = .store 1 → Finished t op) ∧
      (∀ o ids, findOp s op = some o → o.kind = .second ids → Finished t op ∧
        ∀ n ∈ ids, ∀ x, findOp s n = some x → x.kind = .store 1 → Finished t n))) ∧
  (∀ s core idx e, Canon s → (coreOf s core).wc[idx]? = some e →
    (∀ o ∈ (coreOf s core).wc.take idx, ∀ b ∈ o.bytes, ∀ x ∈ e.bytes, b.loc.same x.loc = false) →
    Ends (.ntStoreWrite core idx) s (fun t => (coreOf t core).wc = (coreOf s core).wc.filter (fun x => x ≠ e) ∧
      HomeAs t (e.bytes.foldl (fun s b => wcByteOut s core e.owner b) s))) ∧
  (∀ s op o g w a r q before, Canon s → findOp s op = some o → o.done = false → findGroup s o.grp = some g → findWg s o.grp.wg = some w →
    o.kind = .atomic a → atomicsBefore s op g.fifo = some before → a.reqs[r]? = some q → q.done = false →
    (before = [] ∨ mayPass a q before = true) → (∀ p ∈ (op, a) :: before, scatBlocks s o.grp (.atomic p.1) = false) →
    Ends (.atomicPerform op r) s (fun t =>
      let ls := q.locs a.width ++ before.flatMap (fun p => p.2.reqs.flatMap (fun x => x.locs p.2.width))
      let v := settlePassed s w.core o.grp ls
      let u := if q.sent then v else atomReady v w.core w.owner a.relScope q.loc
      let m := ofBytes (locBytes u w.owner q.loc a.width)
      let after := fun n => (q.lanes.take n).foldl (atomApply a.kind a.width) m
      let out := leBytes a.width (after q.lanes.length)
      (wideOpt a.acqScope = false → MemAs t ((out.mapIdx (fun i b => (⟨q.loc.plus i, b⟩ : StoreByte))).foldl
        (fun x b => l1Note x w.core w.owner b) (locSetBytes u w.owner q.loc out))) ∧
      ((∃ i p, i ≠ r ∧ a.reqs[i]? = some p ∧ p.done = false) → ∃ a', Stage t op (.atomic a') ∧
        a'.reqs = a.reqs.set r { q with done := true } ∧
        a'.fills = a.fills ++ (match a.dest with
          | none => []
          | some d => ((List.range q.lanes.length).map (fun n =>
              oldFills d a.width ((q.lanes.getD n ⟨0, 0, 0⟩).lane) (after n))).flatten))))

/-- R138, R140, R257, R267, R318: a population that waits goes on when its condition has come: a held BWAIT, WAITC, NTDRAIN or
FENCE has then completed, and its lanes stand at the next word; a BWAIT's condition has come at the update that met it. R65, R127:
lanes parked for an absent line or a migrating page are free again once the line is present or the migration is over.
Where the manual leaves it open, the model's choice of log entries 31, 36 and 91. -/
def Obligations.ReturnsAndUnparks : Prop :=
  (∀ s k pc p wg ls, parkOf s k pc = some p → p.why = .presence wg ls →
    (∀ w, findWg s wg = some w → ∀ l ∈ ls, l ∉ w.absent) →
    Ends (.presenceUnpark k pc) s (fun t => SameElsewhere s t ∧ parkOf t k pc = none)) ∧
  (∀ s k pc p g w ln va, parkOf s k pc = some p → findCtx s k = some (g, w, ln) →
    (p.why = .migration va ∨ p.why = .fetchMig va) → migOver s ln.ptroot va = true →
    Ends (.migrationUnpark k pc) s (fun t => SameElsewhere s t ∧ parkOf t k pc = none)) ∧
  (∀ s k pc g w h,
    (∀ off p met, holdAt s k pc (bwaitOver s) = some (g, w, h) → h.why = .bwait off p met → p < 16 →
      let now := met.getD (Rules.Barrier.of (barGet s w.uid off)).phase
      now < 16 → passed now p → (∀ j ∈ openHits s, barHits w.uid off now j = false) →
      Ends (.bwaitReturn k pc) s (fun t => SameElsewhere s t ∧ Released t k g h)) ∧
    (∀ a b d e, holdAt s k pc (waitcOver s) = some (g, w, h) → h.why = .waitc a b d e → countersLow s k a b d e = true →
      (∀ j ∈ openHits s, waitcHits g a b d e j = false) →
      Ends (.waitcReturn k pc) s (fun t => SameElsewhere s t ∧ Released t k g h)) ∧
    (∀ sc n, holdAt s k pc (drainOver s) = some (g, w, h) → h.why = .ntdrain sc n → drainReady s g w.core sc n = true →
      Ends (.ntdrainReturn k pc) s (fun t => SameElsewhere s t ∧ Released t k g h)) ∧
    (∀ sc n, holdAt s k pc fenceOver = some (g, w, h) → h.why = .fence sc n → fenceReady g sc n = true →
      Ends (.fenceComplete k pc) s (fun t => Released t k g h ∧
        MemAs t (if wideScope sc = true then l1DropAll s w.core else s))))

/-! ## Events of the engines -/

/-- R116, R121, R127, R129: a sector of a copy lands at its receiver, in memory or scratchpad: its bytes are written, its
quads land at the receiver's barrier after the error bit of a saturated element, and its lines are present again where no
operation still has bytes of them to land; where the receiver is gone it is dropped and counted. R292, R297, R300: an entry of
the collector is dispatched and freed; a GATH writes its registers, a SCAT its bytes, and a SISECT runs.
Where the manual leaves it open, the model's choice of log entries 14, 64, 65, 96, 126 and 128. -/
def Obligations.CopyAndCollectorEvents : Prop :=
  (∀ s id o cp g w ln n x, Canon s → findOp s id = some o → o.kind = .copy cp → findCtx s o.grp = some (g, w, ln) →
    cp.sectors[n]? = some x → sectorReady s o cp x = true →
    let v := if x.trailer = none ∧ x.bound = [] then touchHome s w.core w.owner (quadSrcs cp.src cp.cvt x.quads) else s
    let d := sectorData v w.core ln cp x
    let u := engineSetAll v (w.core / 4) w.owner (sectorBytes x d.1)
    let landed := fun (o' : Op) => if o'.id = id then
      { o' with kind := .copy { cp with sectors := cp.sectors.modify n (fun z => { z with landed := true }) } } else o'
    Ends (.copySectorLand id n) s (fun t =>
      (∀ y ∈ t.ops, y.id = id → y.done = false → ∃ cp', y.kind = .copy cp' ∧ ∃ z, cp'.sectors[n]? = some z ∧ z.landed = true) ∧
      (findWg s x.target = none → (clusterOf t (w.core / 4)).drops = (clusterOf s (w.core / 4)).drops + 1 ∧
        HomeAs t v ∧ t.wgs = s.wgs) ∧
      (∀ y, findWg s x.target = some y → (y.status ≠ .saved → HomeAs t u ∧ t.cores = u.cores) ∧
        ScratchAs t ((fun a => barUpdate a x.target cp.bar barLand)^[x.quads.length]
          (if x.satd = true ∨ d.2 ≠ [] then barUpdate u x.target cp.bar (barFlag 4) else u)) x.target ∧
        WgIs t x.target (fun y' => ∀ l, l ∈ y'.absent ↔ l ∈ y.absent ∧
          (l ∈ quadLines x.quads → ∃ o' ∈ s.ops, opHolds x.target l (landed o') = true))))) ∧
  (∀ s core e, Canon s → e ∈ (coreOf s core).coll.take 64 → e.dispatched = false → (32 ≤ e.opened ∨ 4 ≤ e.idle) →
    Ends (.collectorDispatch core e.line) s (fun t => SameBytes s t ∧ { e with dispatched := true } ∈ (coreOf t core).coll)) ∧
  (∀ s core e, Canon s → (coreOf s core).coll.find? (fun x => x.line == e.line && x.dispatched) = some e →
    Ends (.collectorLineServed core e.line) s (fun t => SameBytes s t ∧ (coreOf t core).coll = (coreOf s core).coll.erase e)) ∧
  (∀ s id o fills g w, findOp s id = some o → o.kind = .gath fills none → findWg s o.grp.wg = some w →
    collReady s w o = true → headsClass s o = true → findGroup s o.grp = some g →
    let v := touchHome s w.core w.owner (fills.filterMap (·.src))
    Ends (.gathComplete id) s (fun t => t.wgs = v.wgs ∧ (∀ x ∈ t.ops, x.id ≠ id) ∧
      Landed t v o g (fills.map (fun f => ⟨f.lane, f.reg, match f.src with
        | some a => BitVec.ofNat 32 (ofBytes (engineBytes v w.core w.owner a 4))
        | none => 0⟩)))) ∧
  (∀ s id o fills r g w, findOp s id = some o → o.kind = .gath fills (some r) → findWg s o.grp.wg = some w → o.done = false →
    headsClass s o = true → findGroup s o.grp = some g →
    Ends (.gathComplete id) s (fun t => t.wgs = s.wgs ∧ (∀ x ∈ t.ops, x.id ≠ id) ∧ Landed t s o g r.1)) ∧
  (∀ s id o bs w, findOp s id = some o → o.kind = .scat bs → findWg s o.grp.wg = some w → collReady s w o = true →
    Ends (.scatWrite id) s (fun t => Finished t id ∧
      let u := engineSetAll s (w.core / 4) w.owner bs
      HomeAs t u ∧ t.wgs = u.wgs)) ∧
  (∀ s id o si g w ln u, findOp s id = some o → o.kind = .sisect si → findCtx s o.grp = some (g, w, ln) →
    collReady s w o = true → headsClass s o = true → siLanes w ln o si si.lanes s = some u →
    Ends (.sisectRun id) s (fun t => t.groups = u.groups ∧ MemAs t u ∧ ∀ x ∈ t.ops, x.id ≠ id))

/-- R197, R198, R199: a B load leaves its slot READY or POISONED with what it read, and the step behind it takes its place: a
read waits for the engine, a free empties the slot, a load begins. R217, R218, R220: ACCRD writes registers, ACCWR and
ACCPATCH accumulator elements, in their turn; ACCST writes its converted bytes, in memory or scratchpad, and after them the
trailers of their tiles.
Where the manual leaves it open, the model's choice of log entries 14, 64, 83, 96 and 126. -/
def Obligations.TileAndAccumulatorEvents : Prop :=
  (∀ s id o p w rest, Canon s → findOp s id = some o → o.kind = .bld p → findWg s o.grp.wg = some w → fifoPassed s o = true →
    let b := bslotGet s p.cluster p.launch p.slot
    b.steps = .load id :: rest → b.state = .loading →
    let v := touchHomeAs (!p.nt) s w.core w.owner (p.xl.map (·.2))
    let r := bldRead v w p
    let st : BState := if r.2 = 0 then .ready else .poisoned
    let b₁ : BSlot := { b with
      tile := r.1, psub := BitVec.ofNat 4 r.2, state := st, steps := rest
      ordState := if rest.any SlotStep.changes = true then b.ordState else st }
    Ends (.bldLoadComplete id) s (fun t => HomeAs t v ∧ t.cores = v.cores ∧ Finished t id ∧
      let b' := bslotGet t p.cluster p.launch p.slot
      (rest = [] ∨ (∃ e, rest.head? = some (.read e)) → b' = b₁) ∧
      (rest = [.free] → b' = { b₁ with state := .empty, psub := 0, tile := [], steps := [] }) ∧
      (∀ op o₂ p₂ more, rest = .load op :: more → findOp s op = some o₂ → o₂.kind = .bld p₂ →
        b'.state = .loading ∧ b'.steps = rest ∧ b'.image = p₂.h ∧ b'.ncol = tileCols p₂.h p₂.idx p₂.t ∧ b'.psub = 0))) ∧
  (∀ s id o els g w, findOp s id = some o → o.kind = .accrd els → accReady s o = true → findGroup s o.grp = some g →
    findWg s o.grp.wg = some w → Ends (.accOpComplete id) s (fun t => Finished t id ∧
      Landed t s o g (els.map (fun e => ⟨e.lane, e.reg, accGet w e.row e.col⟩)))) ∧
  (∀ s id o els, findOp s id = some o → o.kind = .accwr els → accReady s o = true → NoAccz s o.grp →
    Ends (.accOpComplete id) s (fun t => SameBytes s t ∧ Finished t id ∧
      t.wgs = (els.foldl (fun s e => updWg s o.grp.wg (fun w =>
        { w with acc := mapSet 0 w.acc (256 * e.row + e.col) e.val })) s).wgs)) ∧
  (∀ s id o els, findOp s id = some o → o.kind = .accpatch true els → accReady s o = true → NoAccz s o.grp →
    Ends (.accOpComplete id) s (fun t => SameBytes s t ∧ Finished t id ∧
      t.wgs = (els.foldl (fun s e => updWg s o.grp.wg (fun w =>
        let v : Word := BitVec.ofNat 32 (addF .fp32 (mapGet 0 w.acc (256 * e.row + e.col)).toNat e.val.toNat).code
        { w with acc := mapSet 0 w.acc (256 * e.row + e.col) v })) s).wgs)) ∧
  (∀ s id o els, findOp s id = some o → o.kind = .accpatch false els → accReady s o = true → NoAccz s o.grp →
    Ends (.accOpComplete id) s (fun t => SameBytes s t ∧ Finished t id ∧
      t.wgs = (els.foldl (fun s e => updWg s o.grp.wg (fun w =>
        { w with acc := mapSet 0 w.acc (256 * e.row + e.col) e.val })) s).wgs)) ∧
  (∀ s id o g w ln h row rows i r sat xl, findOp s id = some o → o.kind = .accst h row rows i r sat xl →
    findCtx s o.grp = some (g, w, ln) → accReady s o = true → fifoPassed s o = true →
    let out := (accstElems h row rows i).map (fun e => (e, accstElem w ln h r sat e))
    let bs := out.flatMap (fun p => p.2.1.mapIdx (fun j b => (⟨locVia w.uid h xl (p.1.va + j), b⟩ : StoreByte)))
    let u := engineSetAll s (w.core / 4) w.owner bs
    Ends (.accstComplete id) s (fun t => Finished t id ∧
      (hTrb h = 0 → HomeAs t u ∧ ScratchAs t u w.uid) ∧
      (∀ tiles, accstTiles h (accstElems h row rows i) = some tiles →
        HomeAs t (accstTrailers u w h xl out tiles) ∧ ScratchAs t (accstTrailers u w h xl out tiles) w.uid)))

/-- R243, R244, R245: a row is written; a claim takes the next entry of its bucket's head block, or the first of a new block
taken from the pool and put before the others, and only then counts; an entry is published with its token, after the
write-back that a wide PSCOPE asks for; what a claim or a publication loses for want of pool or translation is noted in the
header. R250: a walk writes the count and the tokens that it found, and its lines are present again where no other operation
holds them.
Where the manual leaves it open, the model's choice of log entries 14, 59 and 96. -/
def Obligations.KeyStoreEvents : Prop :=
  (∀ s id o k w, Canon s → findOp s id = some o → o.kind = .kst k → findWg s o.grp.wg = some w → o.done = false →
    k.rowDone = false → fifoPassed s o = true → olderKst s o k (fun y => !y.rowDone) = false →
    Ends (.kstRowPerformed id) s (fun t => HomeAs t (engineSetAll s (w.core / 4) w.owner k.row) ∧
      (if k.stage = .linked then Finished t id else Stage t id (.kst { k with rowDone := true })))) ∧
  (∀ s id o k g w ln, Canon s → findOp s id = some o → o.kind = .kst k → findCtx s o.grp = some (g, w, ln) → o.done = false →
    k.stage = .claim → fifoPassed s o = true → olderKst s o k (fun y => y.stage == .claim) = false →
    ksClaimMig s w ln k.store k.sigma = false →
    let entry := ksEntryVa k.store k.sigma
    let v := ksTouch (ksTouch s w ln (hBase k.store) 256) w ln entry 8
    let h := ksHeadNow v w ln k.store
    let head := ksNum v w ln entry 4
    let n := ksNum v w ln (entry + 4) 4
    let block := ksBlockVa k.store h (ksPooln h)
    let lost := fun (flag : Nat) => ksPut v w ln (hBase k.store) 256
      (setBits (setBits h flag flag 1) 319 288 (min (2 ^ 32 - 1) (ksLost h + 1))).toNat
    let stops := fun (t : State) => if k.rowDone = true then Finished t id else Stage t id (.kst { k with stage := .linked })
    (ksOk v ln .rw (hBase k.store) 256 = false → Ends (.ksClaim id) s (fun t => stops t ∧ HomeAs t v)) ∧
    (ksOk v ln .rw (hBase k.store) 256 = true → ksOk v ln .rw entry 8 = false →
      Ends (.ksClaim id) s (fun t => stops t ∧ HomeAs t (lost 273))) ∧
    (ksOk v ln .rw (hBase k.store) 256 = true → ksOk v ln .rw entry 8 = true →
      (n % ksC h ≠ 0 → Ends (.ksClaim id) s (fun t =>
        Stage t id (.kst { k with stage := .publish (ksBlockVa k.store h (head - 1) + 16 + 4 * (n % ksC h)) }) ∧
        HomeAs t (ksPut v w ln (entry + 4) 4 (n + 1)))) ∧
      (n % ksC h = 0 → ksPooln h = ksPoolcap h → Ends (.ksClaim id) s (fun t => stops t ∧ HomeAs t (lost 272))) ∧
      (n % ksC h = 0 → ksPooln h ≠ ksPoolcap h → ksOk v ln .rw block (ksZ h) = false →
        Ends (.ksClaim id) s (fun t => stops t ∧ HomeAs t (lost 273))) ∧
      (n % ksC h = 0 → ksPooln h ≠ ksPoolcap h → ksOk v ln .rw block (ksZ h) = true → Ends (.ksClaim id) s (fun t =>
        Stage t id (.kst { k with stage := .publish (block + 16) }) ∧
        let u₁ := ksPut v w ln block (ksZ h) (head + 2 ^ 32 * k.sigma)
        let u₂ := ksPut u₁ w ln (hBase k.store) 256 (setBits h 127 96 (ksPooln h + 1)).toNat
        let u₃ := ksPut u₂ w ln entry 4 (ksPooln h + 1)
        HomeAs t (ksPut u₃ w ln (entry + 4) 4 (n + 1)))))) ∧
  (∀ s id o k g w ln va, Canon s → findOp s id = some o → o.kind = .kst k → findCtx s o.grp = some (g, w, ln) →
    k.stage = .publish va → o.done = false → k.rowDone = true → fifoPassed s o = true → ksPublishMig s ln k va = false →
    let v := if ksWide k.hdr = true then l1WriteBackAll s w.core else s
    let h := ksHeadNow v w ln k.store
    Ends (.ksPublish id) s (fun t => Finished t id ∧
      (ksOk v ln .w va 4 = true → HomeAs t (ksPut v w ln va 4 (2 ^ 31 + k.t))) ∧
      (ksOk v ln .w va 4 = false → ksOk v ln .rw (hBase k.store) 256 = true → HomeAs t (ksPut v w ln (hBase k.store) 256
        (setBits (setBits h 273 273 1) 319 288 (min (2 ^ 32 - 1) (ksLost h + 1))).toNat)) ∧
      (ksOk v ln .w va 4 = false → ksOk v ln .rw (hBase k.store) 256 = false → HomeAs t v))) ∧
  (∀ s id o k g w ln, Canon s → findOp s id = some o → o.kind = .kgath k → findCtx s o.grp = some (g, w, ln) → o.done = false →
    fifoPassed s o = true →
    let v := kgathOpen s w ln k
    let found := ksWalk v w ln k k.snap
    let ws := if k.fallbk = true then [0] else (found.1.length + (if found.2 = true then 2 ^ 31 else 0)) :: found.1
    let bs := (ws.mapIdx (fun i x => (leBytes 4 x).mapIdx (fun j b =>
      (⟨.scr w.uid (addrOf k.out (k.o + i) + j), b⟩ : StoreByte)))).flatten
    Ends (.kgathWalk id) s (fun t => HomeAs t v ∧ Finished t id ∧ ScratchAs t (engineSetAll v (w.core / 4) w.owner bs) w.uid ∧
      WgIs t w.uid (fun y => ∀ l, l ∈ y.absent ↔ l ∈ w.absent ∧
        ¬ (l ∈ k.lines ∧ ∀ o' ∈ t.ops, opHolds w.uid l o' = false))))

/-- R206, R209, R211, R212, R235: a grant starts a pass of at most 64 rows with the entries fused to the arbiter's pick, within a burst
of 256; an entry that has waited 1,984 clocks is aged; a cluster takes and returns its hat; a pass of one octet writes the sum of
its products into eight rows, or adds it, and no other element.
Where the manual leaves it open, the model's choice of log entries 14, 54 and 102. -/
def Obligations.MatrixEngineEvents : Prop :=
  (∀ s cl e fused, pickEntry s cl = some e →
    let c := clusterOf s cl
    let others := c.resv.filter (fun x => fused.contains x.id)
    c.hat = true → c.pass = [] → others.length = fused.length → e.id ∉ fused →
    (∀ x ∈ others, entryReady s cl x = true ∧ sameB e x = true) →
    entryRows (e :: others) ≤ 64 → c.burst + entryRows (e :: others) ≤ 256 →
    Ends (.reservationGrant cl fused) s (fun t => SameBytes s t ∧ t.groups = s.groups ∧ clusterOf t cl = { c with
      resv := c.resv.filter (fun x => decide (x.id ≠ e.id ∧ x.id ∉ fused)), pass := e :: others
      burst := c.burst + entryRows (e :: others) })) ∧
  (∀ s cl e, e ∈ (clusterOf s cl).resv → 1984 ≤ e.wait → e.aged = false →
    Ends (.reservationAged cl e.id) s (fun t => SameBytes s t ∧ { e with aged := true } ∈ (clusterOf t cl).resv)) ∧
  (∀ s cl e, (clusterOf s cl).hat = false → pickEntry s cl = some e → hatsHeld s (cl / 16) < s.mcb.hats →
    Ends (.hatArrive cl) s (fun t => SameBytes s t ∧ clusterOf t cl = { clusterOf s cl with hat := true, burst := 0 })) ∧
  (∀ s cl, Canon s → (clusterOf s cl).hat = true → (clusterOf s cl).pass = [] →
    (∀ e, pickEntry s cl = some e → 256 < (clusterOf s cl).burst + entryRows [e]) →
    Ends (.burstEnd cl) s (fun t => SameBytes s t ∧ clusterOf t cl = { clusterOf s cl with hat := false, burst := 0 })) ∧
  (∀ s cl e o w, Canon s → (clusterOf s cl).pass = [e] → e.octets = [o] → findWg s e.wg = some w → s.poison = [] →
    ((octetSlot s cl e.launch o).state = .poisoned → (octetSlot s cl e.launch o).psub ≠ 15) → bCols s cl e.launch o.b ≤ 256 →
    (∀ p, findOp s o.op = some p → NoAccz s p.grp) →
    let sum := fun r n => octetSum o ((List.range (tileK (hFmt o.ah))).map (aElem s e.wg o.ah o.org r))
      ((List.range (tileK (hFmt o.ah))).map (fun k => bElem (octetSlot s cl e.launch o) o k n))
    Ends (.matrixPassComplete cl) s (fun t => SameBytes s t ∧ (clusterOf t cl).pass = [] ∧ WgIs t e.wg (fun w' =>
      ∀ r n, n < 256 → accGet w' r n =
        if o.row0 ≤ r ∧ r < o.row0 + 8 ∧ n < bCols s cl e.launch o.b then
          BitVec.ofNat 32 (if o.acc = true then (addF .fp32 (accGet w r n).toNat (sum (r - o.row0) n)).code
            else sum (r - o.row0) n)
        else accGet w r n)))

/-! ## Translation and residency -/

/-- R62, R64, R66: a PGREQ whose page is resident or cannot become so arrives at its barrier, in the second case with the
error bit, and one whose page is not resident waits on a request. The residency service takes a page of the free list, whose
COUNT falls by one, copies what the entry stands for, once no core holds anything of the page any more, and writes the entry;
with an empty list the request fails. A request
that the host has answered ends. After a translation update, walks of its range read the tables as memory holds them.
Where the manual leaves it open, the model's choice of log entries 17 to 22, 78 and 79. -/
def Obligations.TranslationAndResidencyEvents : Prop :=
  (∀ s id o p, findPgreq s id = some (o, p) → o.done = false → p.req = none → fifoPassed s o = true →
    ((2 ^ 60 ≤ p.va ∨ walk s p.root p.va = .unmapped ∨ walk s p.root p.va = .malformed) →
      Ends (.pgreqWalk id) s (fun t => Finished t id ∧ t.wgs = (engineArrive s o.grp.wg p.bar 2).wgs)) ∧
    (∀ l epa e, p.va < 2 ^ 60 → walk s p.root p.va = .leaf l epa e → ebit e 1 = false →
      Ends (.pgreqWalk id) s (fun t => Finished t id ∧ t.wgs = (engineArrive s o.grp.wg p.bar 0).wgs)) ∧
    (∀ l epa e, p.va < 2 ^ 60 → walk s p.root p.va = .nonres l epa e →
      Ends (.pgreqWalk id) s (fun t => ∃ n, Stage t id (.pgreq { p with req := some n }) ∧
        ∃ r ∈ t.reqs, r.id = n ∧ r.ptroot = p.root ∧ .op id ∈ r.waits))) ∧
  (∀ s id r, s.reqs.find? (fun x => x.id = id) = some r →
    (∀ l epa e, r.verdict = none → bit s.mcb.mode 0 = false → walk s r.ptroot r.va = .nonres l epa e →
      let z := serviceSize l e
      let page := freePage s z.1
      let back := entryAddr e
      let count := s.mcb.freel + 16 * z.1 + 8
      let entry := page + (if ebit e 2 then 4 else 0) + e / 8 % 8 * 8 + 1
      (freeCount s z.1 ≠ 0 → inPool s back z.2 = true → page % levelSpan z.1 = 0 → inNear s page (levelSpan z.1) = true →
        Ends (.residencyComplete id) s (fun t =>
          (ebit e 2 = true → (∀ x ∈ t.reqs, x.id ≠ id) ∧ t.xmem = memSetBytes s.xmem epa (leBytes 8 entry)) ∧
          (ebit e 2 = false → t.reqs = s.reqs) ∧
          (Machine.Inv s → PoolCache s → (∀ w ∈ s.wgs, w.status ≠ .saved) → back % 256 = 0 → count + 4 ≤ poolBase →
            epa + 8 ≤ poolBase → (count + 4 ≤ epa ∨ epa + 8 ≤ count) → (count + 4 ≤ page ∨ page + z.2 ≤ count) →
            (epa + 8 ≤ page ∨ page + z.2 ≤ epa) →
            (∀ i < z.2, homeByte t (keyOr s r.owner) (page + i) =
              homeByte (dropRangeAll s page z.2) (keyOr s r.owner) (back + i)) ∧
            plainNum t count 4 = freeCount s z.1 - 1 ∧ plainNum t epa 8 = entry))) ∧
      (freeCount s z.1 = 0 → Ends (.residencyComplete id) s (fun t => (∀ x ∈ t.reqs, x.id ≠ id) ∧ t.xmem = s.xmem))) ∧
    (∀ ok slot tag, r.verdict = some (ok, slot, tag) → r.waits = [] → (ok = true → updPending s r.ptroot r.va = false) →
      exec (.residencyComplete id) s = .next (post { s with reqs := s.reqs.filter (fun x => x.id ≠ id) }
        { notif 5 slot 0 0 with tag := tag, status := 0 }))) ∧
  (∀ s key src dst, Machine.Inv s → PoolCache s → src % 256 = 0 → dst % 256 = 0 → dst + 256 ≤ poolBase → ∀ i < 256,
    homeByte (copyLine key src dst s) key (dst + i) = homeByte s key (src + i)) ∧
  (∀ s id u, s.xupds.find? (fun x => x.id = id) = some u → Machine.Inv s →
    Ends (.translationUpdateComplete id) s (fun t => (∀ x ∈ t.xupds, x.id ≠ id) ∧
      ∀ va, u.base ≤ va → va < u.base + u.len → va < 2 ^ 60 →
        walk t u.ptroot va = walk { s with xmem := s.mem } u.ptroot va))

/-! ## Dispatch -/

/-- R144, R180, R311–R317, R325, R351–R355: a posted record joins its region's queue as QUEUED, with the region's next launch
index; the launch served next is taken and its
workgroups are placed, their groups standing at the kernel's first instruction with the parameter words in s0–s15 and a key
for each thread; workgroups are stopped, saved and restored with their contents; a launch whose slice has expired gives way to
the launch that begins the next one, unless its last workgroups can retire; a launch whose workgroups have ended completes, its
digest and state in its record and in its completion record.
Where the manual leaves it open, the model's choice of log entries 17, 48 to 53, 88 and 95. -/
def Obligations.DispatchEvents : Prop :=
  (∀ s (a : DWord) c, linkUp s = true → recOwned s a.toNat = false → a.toNat % 128 = 0 → inNear s a.toNat 128 = true →
    rcbChain s (recRegion s a.toNat) = some c →
    let pa := a.toNat
    let region := recRegion s pa
    let head := rcbQhead s region
    let tail := rcbQtail s region
    Ends (.launchPost a) s (fun t => t.launches = s.launches ∧
      t.queued = s.queued ++ [⟨pa, region, s.seq, none, false⟩] ∧
      (Machine.Inv s → PoolCache s → pa + 128 ≤ poolBase → region + 512 ≤ poolBase →
        (pa + 128 ≤ region ∨ region + 512 ≤ pa) →
        (head ≠ 0 → tail ≠ 0 → tail + 8 ≤ poolBase ∧ (tail + 8 ≤ pa ∨ pa + 128 ≤ tail) ∧
          (tail + 8 ≤ region ∨ region + 512 ≤ tail)) →
        plainNum t pa 8 = 0 ∧ plainNum t (pa + 38) 1 % 16 = 0 ∧ plainNum t (pa + 40) 4 = rcbLcount s region ∧
        rcbLcount t region = (rcbLcount s region + 1) % 2 ^ 32 ∧ rcbQtail t region = pa ∧
        (head = 0 ∨ tail = 0 → rcbQhead t region = pa) ∧
        (head ≠ 0 → tail ≠ 0 → rcbQhead t region = head ∧ plainNum t tail 8 = pa)))) ∧
  (∀ s q, nextQueued s = some q → q ∈ s.queued ∧ takeable s q = true ∧ ∀ x ∈ s.queued, takeable s x = true →
    queuedPrio s x < queuedPrio s q ∨ (queuedPrio s x = queuedPrio s q ∧ q.order ≤ x.order)) ∧
  (∀ s q c, nextQueued s = some q → rcbChain s q.region = some c → chainStopped s c = false →
    let l₀ := resolveLaunch { s with seq := s.seq + 1 } q c s.seq
    let u := if rootSeen s l₀.ptroot then { s with seq := s.seq + 1 }
      else syncRange { s with seq := s.seq + 1 } l₀.ptroot 0 (2 ^ 60)
    (judge u l₀).1 = none →
    Ends .launchTake s (fun t => t.queued = s.queued.filter (fun x => x ≠ q) ∧ ∃ l, t.launches = s.launches ++ [l] ∧
      l.uid = s.seq ∧ l.recPa = q.recPa ∧ l.region = q.region ∧ l.unplaced = List.range (recNwg s q.recPa) ∧
      l.live = recNwg s q.recPa ∧ l.prio = resolved s c 4 450 448 ∧ l.kernel = BitVec.ofNat 64 (recKernel s q.recPa))) ∧
  (∀ s core l u, core < 256 → served s (core / 64) = some l → awaited s l.uid = none → placeQuartet s l core = some u →
    Ends (.workgroupPlace core) s (fun t => ∃ ws gs, t.wgs = s.wgs ++ ws ∧ t.groups = s.groups ++ gs ∧
      ws.map (·.index) = nextQuartet l ∧
      (∀ w ∈ ws, w.launch = l.uid ∧ w.core / 4 = core / 4 ∧ w.status = .resident ∧ w.scratch = [] ∧ w.absent = [] ∧
        w.acc = [] ∧ w.handles = l.handles) ∧
      ∀ g ∈ gs, ∃ w ∈ ws, g.key.wg = w.uid ∧ g.key.g < l.gpw ∧ g.s = paramRegs l.params ∧ g.width = l.width ∧
        ∀ i < l.width, ∃ x, g.lane? i = some x ∧ x.pc = l.kernel + 64 ∧ x.exited = false ∧ x.v = [] ∧ x.m = 0 ∧
          (let thread := (w.index * l.gpw + g.key.g) * l.width + i
           let n := l.lidx.toNat % 2 ^ 22 * 2 ^ 40 + thread
           x.ka = Rules.stream l.seedA l.seedB (BitVec.ofNat 64 (2 * n)) ∧
           x.kb = Rules.stream l.seedA l.seedB (BitVec.ofNat 64 (2 * n + 1))) ∧
          x.pos0 = 0 ∧ x.pos1 = 0 ∧ x.pos2 = 0 ∧ x.pos3 = 0)) ∧
  (∀ s l ls r rs, eligibles s = l :: ls → queuedBefore s l = false → fitsSoon s l = false → removals s l = r :: rs →
    Ends .preempt s (fun t => ∃ out ∈ removals s l, (∀ x ∈ removals s l, out.length ≤ x.length) ∧ t = stopWgs s out)) ∧
  (∀ s uid l x w, findLaunch s uid = some l → l.sliceLeft = some 0 → x ∈ eligibles s → x.uid ≠ uid → x.prio = l.prio →
    fitsNow s x = false → w ∈ s.wgs → w.launch = uid → w.status = .resident →
    let here := (residents s).filter (fun w' => w'.launch = uid)
    ¬(∀ w' ∈ here, ∀ g ∈ groupsOf s w'.uid, groupDue s g = true) →
    Ends (.sliceExpiry uid) s (fun t => t.groups = s.groups ∧ SameBytes s t ∧
      (∀ w ∈ t.wgs, w.launch = uid → w.status ≠ .resident) ∧
      ∃ y ∈ eligibles s, y.uid ≠ uid ∧ y.prio = l.prio ∧ fitsNow s y = false ∧
        findLaunch t uid = some { l with sliceLeft := none, behind := some y.uid })) ∧
  (∀ s uid w l, findWg s uid = some w → findLaunch s w.launch = some l → w.status = .stopping → drained s w = true →
    Ends (.preemptSave uid) s (fun t => WgIs t uid (fun w' => w'.status = .saved ∧ w'.scratch = w.scratch ∧ w'.acc = w.acc ∧
      w'.absent = w.absent ∧ w'.handles = w.handles ∧ w'.watch = w.watch) ∧
      t.groups.map (·.lanes) = s.groups.map (·.lanes) ∧ t.groups.map (·.s) = s.groups.map (·.s))) ∧
  (∀ s core l w u, core < 256 → served s (core / 64) = some l → awaited s l.uid = some w → w.status = .saved → restoreQuartet s w core = some u →
    Ends (.restore w.uid core) s (fun t => WgIs t w.uid (fun w' => w'.status = .resident ∧ w'.core = core ∧
      w'.scratch = w.scratch ∧ w'.acc = w.acc ∧ w'.absent = w.absent ∧ w'.handles = w.handles ∧ w'.watch = w.watch) ∧
      t.groups.map (·.lanes) = s.groups.map (·.lanes) ∧ t.groups.map (·.s) = s.groups.map (·.s))) ∧
  (∀ s uid l, findLaunch s uid = some l → l.live = 0 → l.unplaced = [] →
    ¬(queueNamed s.mcb = true ∧ (queueFull s.mcb = true ∨ s.held ≠ [])) →
    let st := if l.faulted then 3 else 2
    let q := s.mcb.nqbase + 32 * (s.mcb.nqtail.toNat % 2 ^ s.mcb.nqlog)
    Ends (.launchComplete uid) s (fun t => (∀ x ∈ t.launches, x.uid ≠ uid) ∧
      (queueNamed s.mcb = true → l.tape = false → l.endFwd = false → t.mcb.nqtail = s.mcb.nqtail + 1 ∧
        (Machine.Inv s → PoolCache s → l.recPa + 128 ≤ poolBase → l.region + 512 ≤ poolBase → q + 32 ≤ poolBase →
          (l.recPa + 128 ≤ l.region ∨ l.region + 512 ≤ l.recPa) → (l.recPa + 128 ≤ q ∨ q + 32 ≤ l.recPa) →
          (l.region + 512 ≤ q ∨ q + 32 ≤ l.region) →
          (∀ p ∈ s.queued.map (·.recPa) ++ s.launches.map (·.recPa), p ≠ l.recPa →
            (p + 8 ≤ l.recPa ∨ l.recPa + 128 ≤ p) ∧ (p + 8 ≤ q ∨ q + 32 ≤ p)) →
          plainNum t (l.recPa + 48) 8 = l.digest.toNat ∧ plainNum t (l.recPa + 38) 1 % 16 = st ∧
          ∀ i < 32, plainByte t (q + i) =
            ({ notif 1 l.recPa l.digest.toNat l.lidx.toNat with status := st } : Notif).bytes.getD i 0))))

/-! ## The host -/

/-- R4, R48, R69, R310, R368–R370, R373, R377, R378: a host access of memory needs the link, and one of the window the link or the
port of the bring-up, but for reads of a module whose start has failed. A host read of memory answers the
bytes at the home under the slot's key, zeros with an error where the slot is empty; a host write puts its bytes there and
changes no other byte that this key reads; a host atomic answers the old value and puts the new one. Over the link in service a
write of the window reaches a free command slot or a field of the control block, within the limits of the field, and otherwise
none; a doorbell with code 0 is answered at once with status 2.
Where the manual leaves it open, the model's choice of log entries 10, 45, 46, 76, 87, 104, 110 and 111. -/
def Obligations.HostAccesses : Prop :=
  (∀ s pa n key, inWindow pa = false → linkUp s = false →
    exec (.hostRead pa n key) s = .next { s with reply := none } ∧
    (∀ bytes, exec (.hostWrite pa bytes key) s = .next { s with reply := none })) ∧
  (∀ s pa n key, inWindow pa = false → linkUp s = true → inMemory s pa n = true →
    (∀ k, keyVal s key = some k → exec (.hostRead pa n key) s = .next { s with reply := some ⟨homeBytes s k pa n, false⟩ }) ∧
    (keyVal s key = none → exec (.hostRead pa n key) s = .next { s with reply := some ⟨List.replicate n 0, true⟩ } ∧
      ∀ bytes, exec (.hostWrite pa bytes key) s = .next { s with reply := some ⟨[], true⟩ })) ∧
  (∀ s off n key, off + n ≤ 2 ^ 48 → 0 < n →
    (windowReads s = true → exec (.hostRead (windowBase + off) n key) s =
      .next { s with reply := some ⟨(List.range n).map (fun i => windowByte s (off + i)), false⟩ }) ∧
    (windowReads s = false → exec (.hostRead (windowBase + off) n key) s = .next { s with reply := none }) ∧
    (linkUp s = false → bringUpVia s = none → ∀ bytes,
      exec (.hostWrite (windowBase + off) bytes key) s = .next { s with reply := none })) ∧
  (∀ s, windowReads s = true ↔ linkUp s = true ∨ bringUpVia s ≠ none ∨ s.boot.dead = true) ∧
  (∀ s pa bytes key k, inWindow pa = false → linkUp s = true → inMemory s pa bytes.length = true → keyVal s key = some k →
    hitsOwned s pa bytes.length = false →
    Ends (.hostWrite pa bytes key) s (fun t => t.reply = some ⟨[], false⟩ ∧ t.groups = s.groups ∧ t.wgs = s.wgs ∧
      (Machine.Inv s → PoolCache s → pa + bytes.length ≤ poolBase →
        (∀ i < bytes.length, homeByte t k (pa + i) = bytes.getD i 0) ∧
        ∀ p, (p < pa ∨ pa + bytes.length ≤ p) → homeByte t k p = homeByte s k p))) ∧
  (∀ s (slot : Slot) bytes key, linkUp s = true → cmdCode s slot.val = 0 → mapWf 0 s.cmds = true →
    bytes.length = 8 → Ends (.hostWrite (windowBase + 0x1000 + 64 * slot.val) bytes key) s (fun t =>
      cmdNum t slot.val 63 0 = ofBytes bytes ∧ cmdNum t slot.val 511 64 = cmdNum s slot.val 511 64 ∧
      (ofBytes bytes % 256 ≠ 0 → SameBytes s t ∧ t.mcb = s.mcb) ∧
      (ofBytes bytes % 256 = 0 → ∃ u, SameBytes s u ∧ u.mcb = s.mcb ∧ u.held = s.held ∧
        t = { post u { notif 5 slot.val 0 0 with tag := BitVec.ofNat 16 (ofBytes bytes / 2 ^ 16), status := 2 } with
          reply := some ⟨[], false⟩ }))) ∧
  (∀ s a k, let n := if a.wide then 8 else 4
    hitsOwned s a.pa n = false → inWindow a.pa = false → linkUp s = true → inMemory s a.pa n = true →
    keyVal s a.key = some k →
    Ends (.hostAtomic a) s (fun t => t.reply = some ⟨leBytes n (ofBytes (homeBytes s k a.pa n)), false⟩ ∧
      (Machine.Inv s → PoolCache s → a.pa + n ≤ poolBase →
        homeBytes t k a.pa n = leBytes n (atomStep a.op n (ofBytes (homeBytes s k a.pa n)) (a.operand.toNat % 256 ^ n)) ∧
        ∀ p, (p < a.pa ∨ a.pa + n ≤ p) → homeByte t k p = homeByte s k p))) ∧
  (∀ s (v : Word) (base v' : DWord) log capw mode f, linkUp s = false →
    ∀ i ∈ [Instr.nqheadWrite v, .nqConfigWrite base log, .capwWrite capw, .modeWrite mode, .mcbWrite f v', .launchPost base],
      exec i s = .next s) ∧
  (∀ s (v : Word), linkUp s = true → Ends (.nqheadWrite v) s (fun t => t.mcb.nqhead = v ∧
    (s.held = [] → t = { s with mcb := { s.mcb with nqhead := v } }))) ∧
  (∀ s (base : DWord) (log : BitVec 8), linkUp s = true →
    let free := queueNamed s.mcb = false ∨ (s.queued = [] ∧ s.launches = [])
    (free → base.toNat % 4096 = 0 → inNear s base.toNat 4096 = true →
      Ends (.nqConfigWrite base log) s (fun t => t.mcb.nqbase = base.toNat ∧ t.mcb.nqlog = log.toNat)) ∧
    (¬ (free ∧ base.toNat % 4096 = 0 ∧ inNear s base.toNat 4096 = true) → exec (.nqConfigWrite base log) s = .next s)) ∧
  (∀ s (v : BitVec 16), linkUp s = true →
    let cap := min (max v.toNat 1200) 3800
    exec (.capwWrite v) s = .next { s with mcb := { s.mcb with capw := cap, hats := min (max 1 (16 * cap / 3800)) s.thermal } }) ∧
  (∀ s (v : BitVec 5), linkUp s = true →
    (s.queued = [] ∧ s.launches = [] → exec (.modeWrite v) s =
      .next { s with mcb := { s.mcb with mode := v }, boot := { s.boot with flashMode := v } }) ∧
    (¬ (s.queued = [] ∧ s.launches = []) → exec (.modeWrite v) s = .next s)) ∧
  (∀ s (v : DWord), linkUp s = true → s.queued = [] → s.launches = [] →
    (1 ≤ v.toNat → v.toNat ≤ 9 → exec (.mcbWrite .hbmn v) s =
      .next { s with mcb := { s.mcb with hbmn := v.toNat }, boot := { s.boot with flashHbmn := v.toNat } }) ∧
    exec (.mcbWrite .saven v) s = .next { s with mcb := { s.mcb with saven := v.toNat % 2 ^ 32 } } ∧
    (v.toNat % 65536 = 0 → inNear s v.toNat 65536 = true →
      exec (.mcbWrite .saveb v) s = .next { s with mcb := { s.mcb with saveb := v.toNat } }) ∧
    (v.toNat % 64 = 0 → inNear s v.toNat 64 = true →
      exec (.mcbWrite .freel v) s = .next { s with mcb := { s.mcb with freel := v.toNat } }))

/-- R371, R372, R374, R377: a command is accepted, carried out and reported as done; one whose function is not in force is
refused with STATUS 1, one with an unlisted code or operands outside their limits with STATUS 2; and what a posted notification
does.
Where the manual leaves it open, the model's choice of log entries 21, 44 and 45. -/
def Obligations.HostCommands : Prop :=
  (∀ u n, Machine.Inv u → PoolCache u → Posted u (post u n) n) ∧
  (∀ s (slot : Slot), CmdReady s slot.val 1 → Done (.flush slot) s slot.val (fun u =>
    (u.msc = s.msc.filter (fun l =>
      decide (¬ (cmdArg s slot.val 0 ≤ l.base ∧ l.base < cmdArg s slot.val 0 + cmdArg s slot.val 1)))) ∧
    (Machine.Inv s → PoolCache s → CacheAgrees s → ∀ key pa, homeByte u key pa = homeByte s key pa))) ∧
  (∀ s (slot : Slot), CmdReady s slot.val 2 → Ends (.xupd slot) s (fun t => SameBytes s t ∧ t.held = s.held ∧
    t.mcb = s.mcb ∧ t.xupds = s.xupds ++ [⟨s.seq, cmdArg s slot.val 0, cmdArg s slot.val 1, cmdArg s slot.val 2,
      some (slot.val, cmdTag s slot.val)⟩])) ∧
  (∀ s (slot : Slot), CmdReady s slot.val 3 → Ends (.resolve slot) s (fun t => SameBytes s t ∧
    ∀ r ∈ s.reqs, r.id = cmdArg s slot.val 0 →
      { r with verdict := some (cmdArg s slot.val 1 == 0, slot.val, cmdTag s slot.val) } ∈ t.reqs)) ∧
  (∀ s (slot : Slot) g w ln, CmdReady s slot.val 4 → frozenGroup s (cmdArg s slot.val 0) = some g →
    findCtx s g.key = some (g, w, ln) →
    (cmdArg s slot.val 1 = 0 → (handlerHeader (acceptCmd s slot.val) ln).isSome = true →
      Done (.trapgo slot) s slot.val (fun u => GroupIs u g.key (fun g' => g'.trapMode = true ∧ g'.frozen = false ∧
        g'.handler = ln.traph ∧ ∀ l ∈ g.live, (g'.lane? l).map (·.pc) = some (ln.traph + 64)))) ∧
    (∀ g₁ w₁ ln₁, cmdArg s slot.val 1 = 1 → cmdArg s slot.val 2 % 2 = 0 →
      let v := completeAccesses (acceptCmd s slot.val) g.key
      findCtx v g.key = some (g₁, w₁, ln₁) →
      let pc := fun l => frameGet v w₁ g.key.g (0x100 + 4 * l) 4
      (∀ l < g₁.width, pc l ≠ 2 ^ 32 - 1 →
        inCode ln₁ { g₁ with trapMode := false } (ln₁.kernel + BitVec.ofNat 64 (pc l)) = true) →
      Done (.trapgo slot) s slot.val (fun u => GroupIs u g.key (fun g' => g'.trapMode = false ∧ g'.frozen = false ∧
        ∀ l x, g₁.lane? l = some x → ∃ y, g'.lane? l = some y ∧ (x.exited = true → y = x) ∧
          (x.exited = false → Restored v w₁ ln₁ g.key.g 0 l x y)))) ∧
    (cmdArg s slot.val 1 = 2 → Done (.trapgo slot) s slot.val (fun u => ∀ g', findGroup u g.key = some g' → g'.live = []))) ∧
  (∀ s (slot : Slot), CmdReady s slot.val 5 → Done (.keyld slot) s slot.val (fun u =>
    mapFind u.keys (cmdArg s slot.val 0) = some (BitVec.ofNat 512 (plainNum s (cmdArg s slot.val 1) 64)) ∧
    (Machine.Inv s → PoolCache s → cmdArg s slot.val 1 + 64 ≤ poolBase → plainNum u (cmdArg s slot.val 1) 64 = 0))) ∧
  (∀ s (slot : Slot), CmdReady s slot.val 6 → Done (.keyclr slot) s slot.val (fun u => u.mem = s.mem ∧
    (s.keys.Pairwise (fun a b => a.1 < b.1) → mapFind u.keys (cmdArg s slot.val 0) = none))) ∧
  (∀ s (slot : Slot), CmdReady s slot.val 7 →
    let region := cmdArg s slot.val 0
    let s₁ := rcbSetBit (acceptCmd s slot.val) region 1 true
    (rcbTapeRun s region = true → Done (.tapego slot) s slot.val (fun u => u = acceptCmd s slot.val)) ∧
    (∀ c pa ca x, rcbTapeRun s region = false → rcbChain s₁ region = some c →
      tapeArea s₁ (regionLaunch s₁ c) region = some (pa, ca) →
      rcbTapesp s₁ region ≠ 0 →
      virtBytes s₁ (regionLaunch s₁ c) (resolved s₁ c 3 383 320 + 64 * (rcbTapesp s₁ region - 1)) 64 = some x →
      Done (.tapego slot) s slot.val (fun u => ∃ n, u.queued = s.queued ++ [⟨pa, region, n, none, true⟩]))) ∧
  (∀ s env, s.boot.waiting = true → cmdCode s 0 = 8 → s.boot.env = some env → 1 ≤ s.boot.step → s.boot.step ≤ 9 →
    s.boot.record.length = 9 →
    (cmdArg s 0 0 = s.boot.step → cmdArg s 0 1 = 0 → Ends (.stepgo 0) s (fun t => t.boot.last = 0 ∧
      (t.boot.dead = true ∨ t.boot.step = s.boot.step + 1))) ∧
    ((cmdArg s 0 0 ≠ s.boot.step ∨ 2 < cmdArg s 0 1) → exec (.stepgo 0) s =
      .next { acceptCmd s 0 with boot := { s.boot with last := 2 } })) ∧
  (∀ s (slot : Slot), s.boot.waiting = false → s.boot.step = 10 → cmdCode s slot.val = 8 → s.boot.hostUp = false →
    exec (.stepgo slot) s = .next (post (acceptCmd s slot.val) (doneNotif s slot.val 1))) ∧
  (∀ s (slot : Slot), CmdReady s slot.val 9 → Done (.recclr slot) s slot.val (fun u =>
    u.boot = { s.boot with flash := List.replicate 9 (0, 0) } ∧ u.mem = s.mem)) ∧
  (∀ s (slot : Slot), s.boot.step = 10 → (9 < cmdCode s slot.val ∨ (1 ≤ cmdCode s slot.val ∧
      cmdAllowed s (cmdCode s slot.val) = true ∧ operandsOk s slot.val = false)) →
    exec (.commandInvalid slot) s = .next (post (acceptCmd s slot.val) (doneNotif s slot.val 2))) ∧
  (∀ s (slot : Slot), s.boot.step = 10 → ∀ p ∈ [(3, Instr.resolve slot), (4, .trapgo slot), (5, .keyld slot), (6, .keyclr slot),
      (7, .tapego slot)], cmdCode s slot.val = p.1 → cmdAllowed s p.1 = false →
    exec p.2 s = .next (post (acceptCmd s slot.val) (doneNotif s slot.val 1)))

/-! ## The module -/

/-- R323, R374, R376, R378: a start empties everything volatile, the key slots among it, and keeps the pool's bytes and flash
but for the record of the steps that it runs; one that meets no failure records each step as done, loads the key slots from
the sealed store unless they are the host's to load, ends in service and reports so where flash names a queue. The temperature
moves the limit on hats, and above 110 °C cuts the power. R199, R319, R321, R358: promotions and soft errors.
Where the manual leaves it open, the model's choice of log entries 66, 67, 69 and 84. -/
def Obligations.ModuleEvents : Prop :=
  (∀ s env, Ends (.start env) s (fun t => t.groups = [] ∧ t.wgs = [] ∧ t.ops = [] ∧ t.launches = [] ∧ t.queued = [] ∧
    t.clusters = [] ∧ t.cores = [] ∧ t.msc = [] ∧ t.clock = 0 ∧
    (t.keys = [] ∨ (bit s.boot.flashMode 3 = false ∧ t.keys = sealedSlots env.sealedKeys)) ∧
    t.boot.flashMode = s.boot.flashMode ∧ t.boot.flashHbmn = s.boot.flashHbmn ∧ t.boot.flashNqbase = s.boot.flashNqbase ∧
    t.boot.flashNqlog = s.boot.flashNqlog ∧ t.boot.record = t.boot.flash ∧
    (∀ i, t.boot.step ≤ i → t.boot.flash.getD i (0, 0) = s.boot.flash.getD i (0, 0)) ∧
    (s.boot.flashNqbase = 0 → t.mem = s.mem.filter (fun c => decide (poolBase ≤ c.1))) ∧
    (Machine.Inv s → ∀ pa, (pa < s.boot.flashNqbase ∨ s.boot.flashNqbase + 32 ≤ pa) →
      memGet t.mem pa = if poolBase ≤ pa then memGet s.mem pa else 0))) ∧
  (∀ s env, env.primaryFails = [] → env.alternateFails = [] → env.halfRate = 0 → env.badClusters = [] →
    env.fuses.length = 4 → (∀ m ∈ env.fuses, (fusedClusters m).length = 16) → bit s.boot.flashMode 4 = false →
    (∀ e ∈ s.boot.flash, e.1 = 0 ∨ e.1 = 1) → s.boot.flash.length = 9 →
    Ends (.start env) s (fun t => t.boot.step = 10 ∧ t.boot.dead = false ∧ t.mcb.mode = s.boot.flashMode ∧
      t.mcb.hbma = s.boot.flashHbmn ∧ t.mcb.capw = 3800 ∧ t.mcb.hats = 16 ∧ t.mcb.portup = ~~~ env.portDown ∧
      t.mcb.cxlup = ~~~ env.cxlDown ∧ t.keys = (if bit s.boot.flashMode 3 = true then [] else sealedSlots env.sealedKeys) ∧
      t.boot.flash = [(1, 0), (1, if s.boot.tripped then 1 else 0), (1, 0), (1, 0), (1, 0), (1, 0),
        (1, env.cxlDown.setWidth 64), (1, env.portDown.setWidth 64), (1, 0)] ∧
      (queueNamed t.mcb = true → t.mcb.nqtail = 1 ∧
        (Machine.Inv s → ∀ i < 32, memGet t.mem (s.boot.flashNqbase + i) = (notif 6 0 0 0).bytes.getD i 0)))) ∧
  (∀ s js, (∀ j ∈ js, j ≤ 110) →
    let limit := if ∃ j ∈ js, 100 < j then max 1 (s.thermal - 1) else if ∀ j ∈ js, j < 95 then min 16 (s.thermal + 1)
      else s.thermal
    exec (.thermalTick js) s = .next { s with
      thermal := limit, mcb := { s.mcb with hats := min (max 1 (16 * s.mcb.capw / 3800)) limit } }) ∧
  (∀ s js, (∃ j ∈ js, 110 < j) → Ends (.thermalTrip js) s (fun t => t.powered = false ∧ t.boot.tripped = true ∧
    t.boot.step = 0 ∧ t.groups = [] ∧ t.wgs = [] ∧ t.launches = [] ∧
    t.mem = s.mem.filter (fun c => decide (poolBase ≤ c.1)) ∧ t.keys = [] ∧ t.boot.flash = s.boot.flash)) ∧
  (∀ s x, x ∈ s.issueSlots → 56 ≤ x.wait → x.promoted = none → Ends (.issueSlotPromote x.core x.part x.slot) s (fun t =>
    { x with promoted := some s.seq } ∈ t.issueSlots ∧ { t with issueSlots := s.issueSlots, seq := s.seq } = s)) ∧
  (∀ s x, x ∈ s.ports → x.promoted = none →
    (match x.cls with | 1 => 8 | 2 => 16 | 3 => 32 | 4 => 48 | _ => 64) ≤ x.wait + 8 →
    Ends (.l2PortPromote x.id) s (fun t =>
      { x with promoted := some s.seq } ∈ t.ports ∧ { t with ports := s.ports, seq := s.seq } = s)) ∧
  (∀ s p, poisonable s p = true → (∀ cl l n, p ≠ .bslot cl l n) → Ends (.softError p) s (fun t =>
    (∀ q, q ∈ t.poison ↔ q = p ∨ q ∈ s.poison) ∧ { t with poison := s.poison } = s)) ∧
  (∀ s cl l n, poisonable s (.bslot cl l n) = true → Ends (.softError (.bslot cl l n)) s (fun t => SameBytes s t ∧
    (bslotGet t cl l n).state = .poisoned ∧ (bslotGet t cl l n).psub = 15))

/-- R366, R367: a flit whose check fails stays in the replay buffer; a port whose replays have failed goes down, the bring-up port
among them (R377), and its traffic is sent again on the lowest port still up, which goes on with the bring-up; a channel, never VC0, is paused and released; a flit that has waited long is
promoted.
Where the manual leaves it open, the model's choice of log entries 11, 68, 87, 94 and 111. -/
def Obligations.LinkEvents : Prop :=
  (∀ s (p : Fin 18) f fs, (portOf s p.val).replay = f :: fs → portCarries s p.val f.vc = true → (portOf s p.val).fails ≤ 16 →
    Ends (.flitCrcFail p) s (fun t => OnlyLink s t ∧ t.mcb = s.mcb ∧
      portOf t p.val = { portOf s p.val with fails := (portOf s p.val).fails + 1 })) ∧
  (∀ s (p : Fin 18), LinkCanon s → s.boot.step = 10 → portUp s p.val = true → 16 < (portOf s p.val).fails →
    Ends (.portDown p) s (fun t => OnlyLink s t ∧ portUp t p.val = false ∧
      (∀ q < 18, q ≠ p.val → portUp t q = portUp s q) ∧
      ∀ q < 18, q ≠ p.val → portUp s q = true → (∀ r < q, r ≠ p.val → portUp s r = false) →
        (portOf t p.val).queue = [] ∧ (portOf t p.val).replay = [] ∧
        (portOf t q).queue.map (fun f => (f.id, f.vc, f.bytes)) =
          ((portOf s q).queue ++ (portOf s p.val).replay ++ (portOf s p.val).queue).map (fun f => (f.id, f.vc, f.bytes)))) ∧
  (∀ s, LinkCanon s → bringUpPort s = true → 16 < (portOf s 0).fails →
    let again := ((portOf s 0).replay ++ (portOf s 0).queue).map (fun f => (f.id, f.vc, f.bytes))
    Ends (.portDown 0) s (fun t => bringUpPort t = false ∧ portUp t 0 = false ∧
      { t with link := s.link, mcb := s.mcb, boot := s.boot } = s ∧
      ((∀ q < 18, q ≠ 0 → portUp s q = false) →
        (portOf t 0).queue.map (fun f => (f.id, f.vc, f.bytes)) = again ∧ (portOf t 0).replay = [] ∧ bringUpVia t = none) ∧
      ∀ q < 18, q ≠ 0 → portUp s q = true → (∀ r < q, r ≠ 0 → portUp s r = false) → (portOf t 0).queue = [] ∧
        bringUpVia t = some q ∧ portCarries t q 0 = true ∧ portCarries t q 3 = true ∧
        (portOf t q).queue.map (fun f => (f.id, f.vc, f.bytes)) =
          (portOf s q).queue.map (fun f => (f.id, f.vc, f.bytes)) ++ again)) ∧
  (∀ s (p : Fin 18) (v : Fin 4), v ≠ 0 → ((portOf s p.val).vc v.val).paused = false →
    Config.vcHigh < ((portOf s p.val).vc v.val).fill →
    Ends (.vcPause p v) s (fun t => OnlyLink s t ∧ t.mcb = s.mcb ∧ (portOf t p.val).queue = (portOf s p.val).queue ∧
      (portOf t p.val).vc v.val = { (portOf s p.val).vc v.val with paused := true })) ∧
  (∀ s (p : Fin 18) (v : Fin 4), LinkCanon s → ((portOf s p.val).vc v.val).paused = true →
    ((portOf s p.val).vc v.val).fill ≤ Config.vcLow →
    Ends (.vcRelease p v) s (fun t => OnlyLink s t ∧ t.mcb = s.mcb ∧ (portOf t p.val).queue = (portOf s p.val).queue ∧
      (portOf t p.val).vc v.val = { (portOf s p.val).vc v.val with paused := false })) ∧
  (∀ s (p : Fin 18) f, f ∈ (portOf s p.val).queue → f.promoted = none →
    (match f.vc with | 0 => 4 | 3 => 16 | _ => 64) ≤ f.wait + 2 →
    Ends (.flitPromote p f.id) s (fun t => OnlyLink s t ∧ { f with promoted := some s.seq } ∈ (portOf t p.val).queue))

/-! ## Operands, encodings, steps and the whole machine -/

/-- R21, R24: the values of the small constants and of the lane's place in integer, FP32, FP16 and BF16 positions, of
registers and of literals; the operands of the scalar set. R185: what a distribution register delivers in a lane, and the
words that it uses. -/
def Obligations.OperandValues : Prop :=
  (∀ s g l x (t : SrcTy),
    let four := fun (a b c d : Word) => match t with | .int => a | .fp32 => b | .fp16 => c | .bf16 => d
    readSrc s g l t .zero x = (0, x) ∧
    readSrc s g l t .one x = (four 1 0x3F800000 0x3C003C00 0x3F803F80, x) ∧
    readSrc s g l t .negOne x = (four 0xFFFFFFFF 0xBF800000 0xBC00BC00 0xBF80BF80, x) ∧
    readSrc s g l t .two x = (four 2 0x40000000 0x40004000 0x40004000, x) ∧
    (t ≠ .int → readSrc s g l t .half x = (four 0 0x3F000000 0x38003800 0x3F003F00, x)) ∧
    (∀ r : VReg, readSrc s g l t (.v r) x = (x.vreg r.val, x)) ∧ (∀ r : Fin 32, readSrc s g l t (.s r) x = (g.sreg r.val, x)) ∧
    (∀ w, readSrc s g l t (.lit w) x = (w, x)) ∧
    (l < 64 → g.width ≤ 64 →
      let whole := fun (n : Nat) => four (BitVec.ofNat 32 n) (BitVec.ofNat 32 (codeOf 127 23 n))
        (BitVec.ofNat 32 (65537 * codeOf 15 10 n)) (BitVec.ofNat 32 (65537 * codeOf 127 7 n))
      readSrc s g l t .lane x = (whole l, x) ∧ readSrc s g l t .octet x = (whole (l / 8), x) ∧
      readSrc s g l t .width x = (whole g.width, x))) ∧
  (∀ g (c : Fin 64) (w : Word) (r : SReg), readU g (.imm c) = BitVec.ofInt 32 ((c.val : Int) - 32) ∧ readU g (.lit w) = w ∧
    readU g (.s r) = g.sreg r.val) ∧
  (∀ s g l t x (r : Fin 16) im, dsOf g r.val = some im →
    let w := (x.word im.stream.val 0).toNat
    let unit := fun n => rne .fp32 (if n = 0 then .zero false else .fin false n (-24))
    let line := fun toff => BitVec.ofNat 32 (fmaF .fp32 (unit (w % 2 ^ 24)) (tableWord s g (toff + 8 * (w / 2 ^ 24) + 4))
      (tableWord s g (toff + 8 * (w / 2 ^ 24)))).code
    (im.kind = .uniform → readSrc s g l t (.ds r) x =
      (BitVec.ofNat 32 (fmaF .fp32 (unit (w / 2 ^ 8)) im.width.toNat im.lo.toNat).code, x.skip im.stream.val 1)) ∧
    (im.kind = .inverse → readSrc s g l t (.ds r) x = (line im.toff, x.skip im.stream.val 1)) ∧
    (im.kind = .reject → readSrc s g l t (.ds r) x = (line im.toff, x.skip im.stream.val 2)) ∧
    (im.kind = .aliased →
      let j := w / 2 ^ 16 * im.n / 2 ^ 16
      let e := tableWord s g (im.toff + 4 * j)
      readSrc s g l t (.ds r) x =
        (BitVec.ofNat 32 (if w % 2 ^ 16 < e % 2 ^ 16 then j else e / 2 ^ 16 % 2 ^ 10), x.skip im.stream.val 1)))

/-- R12–R24, R43, R45: the example words of the manual decode to the instructions that it prints beside them, and the words that
it lists as no instruction to the row of such words or to the traps that it names.
Where the manual leaves it open, the model's choice of log entry 72. -/
def Obligations.DecodingOfWords : Prop :=
  decodeWords [0x110301E2] = .ok (.fadd 3 (.v 1) (.ds 2)) ∧
  decodeWords [0x130502FF, 0x40400000] = .ok (.fmul 5 (.v 2) (.lit 0x40400000)) ∧
  decodeWords [0x010606C4] = .ok (.iadd 6 (.v 6) (.s 4)) ∧
  decodeWords [0x40040709] = .ok (.ld 4 (.v 7) (.slot 2 .w8)) ∧
  decodeWords [0x430C0316] = .ok (.st (.v 12) (.v 3) (.slot 5 .w16)) ∧
  decodeWords [0x40040727] = .ok (.ld 4 (.v 7) (.reg 9)) ∧
  decodeWords [0x6302FFFD] = .ok (.brz (.v 2) 0xFFFD) ∧
  decodeWords [0x60FF0000, 0x00040000] = .ok (.braKernelAbsolute 0x00040000) ∧
  decodeWords [0x80056940] = .ok (.sadd 10 (.imm 37)) ∧
  decodeWords [0x80057FC0, 0x000186A0] = .ok (.sadd 10 (.lit 100000)) ∧
  decodeWords [0x9201FFFC] = .ok (.sbnz 3 0x7FFC) ∧
  decodeWords [0x97000003] = .ok (.fence .die) ∧
  decodeWords [0x9603FFC2] = .ok (.waitc 0 63 63 2) ∧
  decodeWords [0x2001F500] = .ok (.mov 1 .lane) ∧
  decodeWords [0x67000000] = .ok .exit ∧
  decodeWords [0x19050428] = .ok (.fcvt .e4m3F32 .sr false 5 (.v 4)) ∧
  decodeWords [0] = .ok (.illegalEncoding 0) ∧ decodeWords [0x7F010203] = .ok (.illegalEncoding 0x7F010203) ∧
  decodeWords [0x0F030106] = .error (.illegal 3) ∧ decodeWords [0x0F03F806] = .error (.illegal 3) ∧
  decodeWords [0x2001F501] = .error (.illegal 4) ∧ decodeWords [0x97000006] = .error (.illegal 3) ∧
  decodeWords [0x030301F4] = .error (.operand 1) ∧ decodeWords [0x80C80000] = .error (.operand 1)

/-- R12–R24: every well-formed instruction decodes from the words that encode it, with every operand at every value that its
encoding admits; an event of the opcode table has no words and is not well-formed as one.
Where the manual leaves it open, the model's choice of log entries 72 and 73. -/
def Obligations.EncodeDecodeRoundTrip : Prop :=
  ∀ i, i.wellFormed → decodeWords (encode i) = .ok i

/-- R14, R146, R318, R319: where lanes that can issue stand at the PC of the next turn, with no other group of their slot that
would issue the same L-set instruction with them, and the words there decode to an instruction, the step is the execution of that
instruction at the focus there, its lines having been read through the memory-side cache (R51); then its scheduler slot has been
picked, unless the instruction was not ready.
Where the manual leaves it open, the model's choice of log entries 2, 3 and 103. -/
def Obligations.StepRunsDecodedInstruction : Prop :=
  ∀ s k pc ts g w ln ws i, s.turns = .issue k pc none :: ts → issuable { s with turns := ts } k pc = true →
    alone { s with turns := ts } k pc = true →
    findCtx { s with turns := ts } k = some (g, w, ln) →
    let u := focusAt { s with turns := ts } k pc none
    fetch u ln pc = .ok ws → decodeWords ws = .ok i →
    step s = match exec i (touchCode u ln ws.length) with
      | .next t => .next (if t.focus.waits then t else pickedIn { s with turns := ts } k t)
      | r => r

/-- R323, R376: after reset nothing is resident, memory lists nothing, the module is off, and the invariants hold.
Where the manual leaves it open, the model's choice of log entries 5 and 6. -/
def Obligations.ResetState : Prop :=
  State.reset.groups = [] ∧ State.reset.wgs = [] ∧ State.reset.launches = [] ∧ State.reset.queued = [] ∧
    State.reset.ops = [] ∧ State.reset.mem = [] ∧ State.reset.xmem = [] ∧ State.reset.lineKeys = [] ∧
    State.reset.msc = [] ∧ State.reset.keys = [] ∧ State.reset.boot.step = 0 ∧ State.reset.boot.flash = List.replicate 9 (0, 0) ∧
    State.reset.mcb.capw = 3800 ∧ State.reset.thermal = 16 ∧ Machine.Inv State.reset ∧ Canon State.reset

/-- Memory and the walks' view of it keep their canonical form in every step: equal memories are equal data. The form and the view
are the model's own, log entries 4 and 17. -/
def Obligations.StepKeepsMemoryCanonical : Prop := ∀ s t, Machine.Inv s → step s = .next t → Machine.Inv t

/-- Every step keeps the tables of the state in canonical form: no two operations or workgroups share an identity, those that
are accepted or placed later included, and the entries of a group's FIFO name operations of that group. The identities are the
model's own, log entry 7. -/
def Obligations.StepKeepsTablesCanonical : Prop := ∀ s t, Canon s → step s = .next t → Canon t
end

