-- ==== Sys2Proof/Laws/Issue.lean ====
section
/-! SUPPORT. What the shared operations of issue do: the tables of groups, the commit of lanes, and an L-set or U-set
instruction that stands ready. -/

namespace Sys2Proof.Machine

/-! ## Tables -/

theorem find_updateIf {α : Type} (p q : α → Bool) (f : α → α) (l : List α)
    (h : ∀ a, p (f a) = p a) : (updateIf q f l).find? p = (l.find? p).map (fun a => if q a then f a else a) := by
  induction l with
  | nil => rfl
  | cons a l ih =>
      have ha : p (if q a = true then f a else a) = p a := by split <;> simp [h]
      simp only [updateIf, List.map_cons, List.find?_cons, ha]
      cases p a with
      | true => rfl
      | false => simpa [updateIf] using ih

theorem findGroup_updGroup (s : State) (k k' : GKey) (f : Group → Group) (hf : ∀ g, (f g).key = g.key) :
    findGroup (updGroup s k f) k' = (findGroup s k').map (fun g => if g.key = k then f g else g) := by
  unfold findGroup updGroup
  rw [find_updateIf]
  · simp
  · intro a; simp [hf]

theorem findGroup_key {s : State} {k : GKey} {g : Group} (h : findGroup s k = some g) : g.key = k := by
  have := List.find?_some h
  simpa using this

theorem findGroup_updGroup_self {s : State} {k : GKey} {g : Group} (f : Group → Group) (hf : ∀ g, (f g).key = g.key)
    (h : findGroup s k = some g) : findGroup (updGroup s k f) k = some (f g) := by
  rw [findGroup_updGroup _ _ _ _ hf, h]
  simp [findGroup_key h]

theorem findGroup_updGroup_other {s : State} {k k' : GKey} (f : Group → Group) (hf : ∀ g, (f g).key = g.key)
    (h : k' ≠ k) : findGroup (updGroup s k f) k' = findGroup s k' := by
  rw [findGroup_updGroup _ _ _ _ hf]
  cases hg : findGroup s k' with
  | none => rfl
  | some g => simp [findGroup_key hg, h]

/-- What the focus finds (R146). -/
theorem focusCtx_group {s : State} {n : Nat} {c : Ctx} (h : focusCtx s n = some c) :
    findGroup s c.g.key = some c.g ∧ s.focus.grp = c.g.key ∧ c.pc = s.focus.pc ∧ c.len = n ∧
      c.act = s.focus.population c.g ∧ c.act ≠ [] ∧ findWg s c.g.key.wg = some c.w ∧
      findLaunch s c.w.launch = some c.ln := by
  unfold focusCtx at h
  split at h
  · cases h
  · rename_i g w ln hc
    split at h
    · cases h
    · rename_i hp
      unfold findCtx at hc
      split at hc
      · cases hc
      · rename_i g' hg
        split at hc
        · cases hc
        · rename_i w' hw
          split at hc
          · cases hc
          · rename_i ln' hl
            cases hc
            cases h
            have hk := findGroup_key hg
            refine ⟨?_, hk.symm, rfl, rfl, rfl, ?_, ?_, hl⟩
            · simpa [hk] using hg
            · simpa using hp
            · simpa [hk] using hw

/-! ## Frames -/

theorem SameElsewhere.rfl' (s : State) : SameElsewhere s s := rfl

theorem SameElsewhere.trans {s t u : State} (h : SameElsewhere s t) (h' : SameElsewhere t u) : SameElsewhere s u := by
  have e := congrArg (fun x : State => { x with groups := s.groups, focus := s.focus, poison := s.poison }) h'
  exact Eq.trans e h

theorem sameElsewhere_updGroup (s : State) (k : GKey) (f : Group → Group) : SameElsewhere s (updGroup s k f) := rfl

theorem sameElsewhere_markFocus (s : State) (n : Nat) : SameElsewhere s (markFocus s n) := by
  unfold markFocus
  split <;> rfl

theorem sameElsewhere_clearRegPoison (s : State) (k : GKey) (ws : List (Nat × Nat)) :
    SameElsewhere s (clearRegPoison s k ws) := by
  unfold clearRegPoison
  split <;> rfl

/-- Where all but groups, focus and poison is unchanged, every byte reads as before. -/
theorem SameElsewhere.bytes {s t : State} (h : SameElsewhere s t) : SameBytes s t := by
  refine ⟨fun pa => ?_, fun u o => ?_, fun key pa => ?_⟩
  · exact Eq.trans (b := plainByte { t with groups := s.groups, focus := s.focus, poison := s.poison } pa) rfl (by rw [h])
  · exact Eq.trans (b := scratchByte { t with groups := s.groups, focus := s.focus, poison := s.poison } u o) rfl (by rw [h])
  · exact Eq.trans (b := homeByte { t with groups := s.groups, focus := s.focus, poison := s.poison } key pa) rfl (by rw [h])

theorem SameOthers.trans {s t u : State} {k : GKey} (h : SameOthers s t k) (h' : SameOthers t u k) :
    SameOthers s u k := fun k' hk => (h' k' hk).trans (h k' hk)

theorem sameOthers_updGroup {s : State} {k : GKey} (f : Group → Group) (hf : ∀ g, (f g).key = g.key) :
    SameOthers s (updGroup s k f) k := fun _ hk => findGroup_updGroup_other f hf hk

theorem sameOthers_of_groups {s t : State} {k : GKey} (h : t.groups = s.groups) : SameOthers s t k := by
  intro k' _
  unfold findGroup
  rw [h]

theorem clearRegPoison_groups (s : State) (k : GKey) (ws : List (Nat × Nat)) :
    (clearRegPoison s k ws).groups = s.groups := by
  unfold clearRegPoison
  split <;> rfl

theorem markFocus_groups (s : State) (n : Nat) : (markFocus s n).groups = s.groups := by
  unfold markFocus
  split <;> rfl

theorem findGroup_congr {s t : State} (h : t.groups = s.groups) (k : GKey) : findGroup t k = findGroup s k := by
  unfold findGroup
  rw [h]

theorem SameGroup.trans {g g' g'' : Group} (h : SameGroup g g') (h' : SameGroup g' g'') : SameGroup g g'' := by
  have e := congrArg (fun x : Group =>
    { x with
      lanes := g.lanes, s := g.s, fps := g.fps, eop := g.eop, parks := g.parks, waited := g.waited, wskip := g.wskip }) h'
  exact Eq.trans e h

theorem sameGroup_dropSkips (g : Group) (pc : DWord) (ls : List Nat) : SameGroup g (dropSkips g pc ls) := by
  unfold dropSkips
  split <;> rfl

theorem dropSkips_lanes (g : Group) (pc : DWord) (ls : List Nat) : (dropSkips g pc ls).lanes = g.lanes := by
  unfold dropSkips
  split <;> rfl

theorem lane_mapLanes (g : Group) (ls : List Nat) (f : Nat → Lane → Lane) (l : Nat) :
    (g.mapLanes ls f).lane? l = (g.lane? l).map (fun x => if l ∈ ls then f l x else x) := by
  simp [Group.lane?, Group.mapLanes, List.getElem?_mapIdx]

theorem lane_dropSkips (g : Group) (pc : DWord) (ls : List Nat) (l : Nat) :
    (dropSkips g pc ls).lane? l = g.lane? l := by
  simp [Group.lane?, dropSkips_lanes]

/-- Moving lanes: the group afterwards (R167). -/
theorem moveLanes_group {s : State} {k : GKey} {g : Group} (pc : DWord) (ls : List Nat) (t : Nat → DWord)
    (h : findGroup s k = some g) :
    findGroup (moveLanes s k pc ls t) k =
      some (dropSkips (g.mapLanes ls (fun l x => { x with pc := t l })) pc ls) :=
  findGroup_updGroup_self _ (fun g => by simp [dropSkips]; split <;> rfl) h

theorem mapLanes_key (g : Group) (ls : List Nat) (f : Nat → Lane → Lane) : (g.mapLanes ls f).key = g.key := rfl

theorem dropSkips_key (g : Group) (pc : DWord) (ls : List Nat) : (dropSkips g pc ls).key = g.key := by
  unfold dropSkips
  split <;> rfl

/-! ## A U-set instruction that completes -/

theorem mem_population {g : Group} {pc : DWord} {l : Nat} (h : l ∈ g.population pc) :
    ∃ x, g.lane? l = some x ∧ x.exited = false ∧ x.pc = pc := by
  have ha : l ∈ g.activeAt pc := by
    unfold Group.population at h
    dsimp only at h
    split at h
    · exact (List.mem_filter.mp (List.mem_filter.mp h).1).1
    · exact (List.mem_filter.mp h).1
  simp only [Group.activeAt, List.mem_filter] at ha
  replace h := ha.2
  cases hx : g.lane? l with
  | none => simp [hx] at h
  | some x => exact ⟨x, rfl, by simpa [hx] using h⟩

/-- A lane that executes the instruction at the focus stands there. -/
theorem mem_act {s : State} {g : Group} {l : Nat} (h : l ∈ s.focus.population g) :
    ∃ x, g.lane? l = some x ∧ x.exited = false ∧ x.pc = s.focus.pc := mem_population (List.mem_filter.mp h).1

/-- The state after an issue whose effect `s'` differs from `s` in the group only, the lanes moved and the issue
counted. -/
theorem completes_of_group {i : Instr} {s s' : State} {c : Ctx} {g' : Group} {ls rs : List Nat}
    (hx : exec i s = .next (markFocus (countIssue s' c.g.key c.pc) 1))
    (he : SameElsewhere s s') (ho : SameOthers s s' c.g.key) (hp : PoisonKept s s' c.g.key ls rs)
    (hg : findGroup s' c.g.key = some g') (hs : SameGroup c.g g') (hn : g'.eop = c.g.eop)
    {lane : Nat → Lane → Lane} (hl : ∀ l, g'.lane? l = (c.g.lane? l).map (lane l)) :
    Completes i s c g'.s g'.fps ls rs lane := by
  have e : SameElsewhere s (markFocus (countIssue s' c.g.key c.pc) 1) :=
    (he.trans (sameElsewhere_updGroup _ _ _)).trans (sameElsewhere_markFocus _ _)
  have hgc := findGroup_updGroup_self (s := s') (k := c.g.key)
    (fun g => { g with
      eop := g.eop + 1, parks := g.parks.filter (fun p => p.pc ≠ c.pc), waited := g.waited.filter (fun p => p ≠ c.pc) })
    (fun _ => rfl) hg
  refine ⟨_, hx, e, e.bytes, ?_, ?_, { g' with
      eop := g'.eop + 1, parks := g'.parks.filter (fun p => p.pc ≠ c.pc), waited := g'.waited.filter (fun p => p ≠ c.pc) },
    ?_, ?_, rfl, rfl, by simp [hn], ?_⟩
  · refine (ho.trans ?_).trans (sameOthers_of_groups (markFocus_groups _ _))
    exact sameOthers_updGroup _ (fun _ => rfl)
  · intro p
    rw [← hp p]
    have : (markFocus (countIssue s' c.g.key c.pc) 1).poison = s'.poison := by
      unfold markFocus countIssue updGroup
      split <;> rfl
    rw [this]
  · rw [findGroup_congr (markFocus_groups _ _)]
    exact hgc
  · exact hs.trans rfl
  · exact hl

theorem fallOk_ok {c : Ctx} (h : inCode c.ln c.g c.nextPc = true) : c.fallOk = .ok () := by
  simp [Ctx.fallOk, demand, h]

/-- A U-set instruction whose effect is on its group's scalar registers and FP status only (R172). -/
theorem uniform_done {i : Instr} {body : Ctx → State → Except Stop State} {s : State} {c : Ctx}
    (hx : exec i s = uniform i body s) (hr : Stands s c i.len) {f : Group → Group}
    (hb : body c s = .ok (updGroup s c.g.key f)) (hf : ∀ g, f g = { g with s := (f g).s, fps := (f g).fps }) :
    UDone i s c (f c.g).s (f c.g).fps c.nextPc := by
  obtain ⟨hg, -⟩ := focusCtx_group hr.ctx
  have hk : ∀ g, (f g).key = g.key := fun g => by rw [hf g]
  have h1 := findGroup_updGroup_self f hk hg
  have h2 := moveLanes_group c.pc c.act (fun _ => c.nextPc) h1
  have hsg : SameGroup c.g (f c.g) := by unfold SameGroup; rw [hf c.g]
  have hlf : (f c.g).lanes = c.g.lanes := by rw [hf c.g]
  have hh : Completes i s c (dropSkips ((f c.g).mapLanes c.act (fun l x => { x with pc := c.nextPc })) c.pc c.act).s
      (dropSkips ((f c.g).mapLanes c.act (fun l x => { x with pc := c.nextPc })) c.pc c.act).fps [] []
      (fun l x => if l ∈ c.act then { x with pc := c.nextPc } else x) := by
    refine completes_of_group (s' := c.advance (updGroup s c.g.key f)) ?_ ?_ ?_ ?_ h2 ?_ ?_ ?_
    · rw [hx]
      simp [uniform, hr.ctx, fallOk_ok hr.falls, hb, Ctx.settle, Ctx.settleFrom, bind, Except.bind]
    · exact (sameElsewhere_updGroup s _ _).trans (sameElsewhere_updGroup _ _ _)
    · exact (sameOthers_updGroup _ hk).trans
        (sameOthers_updGroup _ (fun g => by rw [dropSkips_key]; rfl))
    · intro p; simp [Ctx.advance, moveLanes, updGroup]
    · exact hsg.trans (SameGroup.trans (g' := (f c.g).mapLanes c.act (fun l x => { x with pc := c.nextPc })) rfl
        (sameGroup_dropSkips _ _ _))
    · simp only [dropSkips]; split <;> (simp only [Group.mapLanes]; rw [hf c.g])
    · intro l
      rw [lane_dropSkips, lane_mapLanes]
      simp [Group.lane?, hlf]
  have e1 : (dropSkips ((f c.g).mapLanes c.act (fun l x => { x with pc := c.nextPc })) c.pc c.act).s = (f c.g).s := by
    simp only [dropSkips]; split <;> rfl
  have e2 : (dropSkips ((f c.g).mapLanes c.act (fun l x => { x with pc := c.nextPc })) c.pc c.act).fps = (f c.g).fps := by
    simp only [dropSkips]; split <;> rfl
  rw [e1, e2] at hh
  exact hh

/-! ## An L-set instruction that completes -/

/-- A specification that says what an issue says. -/
structure LSpec.Plain (p : LSpec) (q : LIssue) : Prop where
  len : p.len = q.instr.len
  srcs : p.srcs = q.srcs
  named : ∀ r ∈ p.named, r ∈ q.named
  reads : p.reads q.width = q.reads
  own : p.own = q.own
  cls : p.cls = q.cls
  hsel : p.hsel = q.hsel

/-- The checks of a specification beside those of every issue pass. -/
structure LSpec.Open (p : LSpec) (q : LIssue) (s : State) (c : Ctx) : Prop where
  decl : p.decl c = .ok ()
  busy : p.busy c s = false
  width : p.widthOk q.width { c with act := q.acting s c } = .ok ()

theorem LSpec.mk0_plain (i : Instr) (srcs : List (SrcTy × LSrc)) (named : List Nat) :
    LSpec.Plain (LSpec.mk0 i srcs named) { instr := i, srcs := srcs, named := named, reads := [], own := false } :=
  ⟨rfl, rfl, fun _ h => h, rfl, rfl, rfl, rfl⟩

theorem LSpec.mk0_plain_reads (i : Instr) (srcs : List (SrcTy × LSrc)) (named reads : List Nat) :
    LSpec.Plain { LSpec.mk0 i srcs named with reads := fun _ => reads }
      { instr := i, srcs := srcs, named := named, reads := reads, own := false } :=
  ⟨rfl, rfl, fun _ h => h, rfl, rfl, rfl, rfl⟩

theorem LSpec.mk0_plain_own (i : Instr) (srcs : List (SrcTy × LSrc)) (named : List Nat) (own : Bool) :
    LSpec.Plain { LSpec.mk0 i srcs named with own := own }
      { instr := i, srcs := srcs, named := named, reads := [], own := own } :=
  ⟨rfl, rfl, fun _ h => h, rfl, rfl, rfl, rfl⟩

theorem readSrc_congr {s t : State} (h : SameElsewhere s t) (g : Group) (i : Nat) (ty : SrcTy) (a : LSrc) (x : Lane) :
    readSrc t g i ty a x = readSrc s g i ty a x := by
  have hw : ∀ off, tableWord t g off = tableWord s g off := fun off => by
    unfold tableWord
    simp only [h.bytes.2.1]
  have hv : ∀ toff w, inverseDraw t g toff w = inverseDraw s g toff w := fun toff w => by
    unfold inverseDraw
    simp only [hw]
  cases a <;> simp only [readSrc]
  cases dsOf g _ with
  | none => rfl
  | some im => simp only [drawValue, hw, hv]

theorem readSrcs_congr {s t : State} (h : SameElsewhere s t) (g : Group) (i : Nat) (as : List (SrcTy × LSrc)) :
    ∀ x : Lane, readSrcs t g i as x = readSrcs s g i as x := by
  induction as with
  | nil => intro x; rfl
  | cons a as ih => intro x; simp only [readSrcs, readSrc_congr h, ih]

theorem sameElsewhere_spend (p : LSpec) (c : Ctx) (s : State) : SameElsewhere s (p.spend c s) := by
  unfold LSpec.spend
  split <;> rfl

theorem LSpec.Plain.reject {p : LSpec} {q : LIssue} (h : p.Plain q) (g : Group) : p.reject g = q.reject g := by
  simp only [LSpec.reject, LIssue.reject, LSpec.dists, LIssue.dists, h.srcs] <;> rfl

theorem LSpec.Plain.accepting {p : LSpec} {q : LIssue} (h : p.Plain q) (s : State) (c : Ctx) :
    p.accepting c s = q.acting s c := by
  simp only [LSpec.accepting, LIssue.acting, h.reject] <;> rfl

theorem LSpec.Plain.srcRegs {p : LSpec} {q : LIssue} (h : p.Plain q) : p.srcRegs = q.vregs := by
  simp only [LSpec.srcRegs, LIssue.vregs, LSpec.hreg, h.hsel, h.srcs] <;> rcases q.hsel with _ | (_ | _) <;> rfl

/-- Draws that meet no poisoned line pass (R358). -/
theorem softDraws_ok {s : State} {wg : Nat} {rs : List (Nat × List Nat)} (h : ∀ r ∈ rs, NoSoft s wg r.2) :
    softDraws s wg rs = .ok () := by
  unfold softDraws
  split
  · rfl
  · have : rs.filter (fun r => r.2.any (fun off => s.poison.contains (.scratch wg (off / 128)))) = [] := by
      simp only [List.filter_eq_nil_iff, List.any_eq_true, not_exists, not_and]
      intro r hr off ho hc
      exact h r hr off ho (List.contains_iff_mem.mp hc)
    simp only [this]

theorem LSpec.Plain.attempts {p : LSpec} {q : LIssue} (h : p.Plain q) {s : State} {c : Ctx} (r : q.Enters s c) :
    softDraws s c.w.uid (p.attemptReads c) = .ok () := by
  refine softDraws_ok (fun x hx => ?_)
  unfold LSpec.attemptReads at hx
  rw [h.reject] at hx
  cases hr : q.reject c.g with
  | none => simp [hr] at hx
  | some im =>
      simp only [hr, List.mem_map] at hx
      obtain ⟨l, hl, rfl⟩ := hx
      cases hx : c.g.lane? l with
      | none => intro off ho; simp at ho
      | some y => simpa [hx] using r.tries im hr l hl y hx

theorem LSpec.Plain.ready {p : LSpec} {q : LIssue} (h : p.Plain q) {s : State} {c : Ctx} (r : q.Enters s c)
    (o : p.Open q s c) : p.ready c s = .ok () := by
  have h1 : (p.named ++ p.srcRegs).all (fun r => decide (r < declared c.ln c.g)) = true := by
    simp only [List.all_eq_true, decide_eq_true_eq]
    intro x hx
    apply r.declares
    rw [h.srcRegs] at hx
    rcases List.mem_append.mp hx with hx | hx
    · exact List.mem_append.mpr (Or.inl (h.named x hx))
    · exact List.mem_append.mpr (Or.inr hx)
  have h2 : ((p.reject c.g).isNone || (p.dists.length == 1 && !p.own)) = true := by
    rw [h.reject]
    cases hr : q.reject c.g with
    | none => rfl
    | some im =>
        obtain ⟨a, b⟩ := r.alone (by simp [hr])
        have : p.dists.length = 1 := by simpa [LSpec.dists, LIssue.dists, h.srcs] using a
        simp [this, h.own, b]
  have h3 : ((decide (p.cls ≠ .none) && counterFull s c.g.key p.cls) || p.busy c s) = false := by
    rw [o.busy, h.cls]
    by_cases hc : q.cls = .none
    · simp [hc]
    · have := r.room hc
      simp [counterFull, this]
  simp only [LSpec.ready, demand, h1, h2, o.decl, bind, Except.bind, if_true, h.attempts r]
  simpa using h3

theorem LSpec.Plain.step9 {p : LSpec} {q : LIssue} (h : p.Plain q) {s : State} {c : Ctx} (r : q.Enters s c)
    (o : p.Open q s c) : p.step9 { c with act := q.acting s c } = .ok (q.slot, q.width) := by
  have hp := r.picks
  unfold LIssue.Picks at hp
  unfold LSpec.step9
  rw [h.hsel]
  split
  · rename_i e
    simp only [e] at hp
    rw [hp.1, hp.2]
  · rename_i e
    simp only [e] at hp
    rw [hp.1, hp.2]
  · rename_i rg e
    simp only [e] at hp
    obtain ⟨h64, hv⟩ := hp
    have hl : ∀ l ∈ q.acting s c, ∃ x, c.g.lane? l = some x := fun l hl => by
      obtain ⟨-, -, -, -, ha, -⟩ := focusCtx_group r.ctx
      have : l ∈ c.act := by
        unfold LIssue.acting at hl
        split at hl
        · exact hl
        · exact (List.mem_filter.mp hl).1
      rw [ha] at this
      obtain ⟨x, hx, -⟩ := mem_act this
      exact ⟨x, hx⟩
    have hm : Ctx.vregs { c with act := q.acting s c } rg.val
        = (q.acting s c).map (fun l => (l, hValue q.slot q.width)) := by
      unfold Ctx.vregs
      apply List.map_congr_left
      intro l hl'
      obtain ⟨x, hx⟩ := hl l hl'
      simp only [hx, hv l hl' x hx]
    have hd : differing ((q.acting s c).map (fun l => (l, hValue q.slot q.width))) = [] := by
      cases q.acting s c with
      | nil => rfl
      | cons a as => simp [differing]
    have hw := o.width
    have hn : ∀ w : Width, (hValue q.slot w).toNat = q.slot + 256 * (match w with | .w4 => 0 | .w8 => 1 | .w16 => 2) := by
      intro w
      cases w <;> simp [hValue] <;> omega
    have hf : ∃ a as, q.acting s c = a :: as := by
      cases e : q.acting s c with
      | nil => exact absurd e r.acts
      | cons a as => exact ⟨a, as, rfl⟩
    obtain ⟨a, as, he⟩ := hf
    rw [hm, hd]
    simp only [demandNone, List.isEmpty_nil, if_true, bind, Except.bind, he, List.map_cons, hn, demand]
    rw [he] at hw
    have e0 : q.slot / 256 = 0 := by omega
    have e2 : q.slot / 64 = 0 := by omega
    have e3 : q.slot / 1024 = 0 := by omega
    cases hq : q.width <;> simp only [hq] at hw ⊢
    · have e4 : q.slot % 64 = q.slot := by omega
      simp [e0, e2, e3, e4, hw]
    · have e2 : (q.slot + 256) / 64 = 4 := by omega
      have e3 : (q.slot + 256) / 1024 = 0 := by omega
      have e4 : (q.slot + 256) % 64 = q.slot := by omega
      simp [e0, e2, e3, e4, hw]
    · have e1 : (q.slot + 512) / 256 = 2 := by omega
      have e2 : (q.slot + 512) / 64 = 8 := by omega
      have e3 : (q.slot + 512) / 1024 = 0 := by omega
      have e4 : (q.slot + 512) % 64 = q.slot := by omega
      simp [e1, e2, e3, e4, hw]

theorem spend_poison (p : LSpec) (c : Ctx) (s : State) : (p.spend c s).poison = s.poison := by
  unfold LSpec.spend
  split <;> rfl

theorem srcReads_congr {s t : State} (h : SameElsewhere s t) (g : Group) (i : Nat) (as : List (SrcTy × LSrc)) :
    ∀ x : Lane, srcReads t g i as x = srcReads s g i as x := by
  induction as with
  | nil => intro x; rfl
  | cons a as ih => intro x; simp only [srcReads, readSrc_congr h, ih]

theorem LSpec.Plain.tables {p : LSpec} {q : LIssue} (h : p.Plain q) {s : State} {c : Ctx} (r : q.Enters s c) :
    softDraws (p.spend c s) c.w.uid ((q.acting s c).map (fun l =>
      (l, match c.g.lane? l with | some x => srcReads (p.spend c s) c.g l p.srcs x | none => []))) = .ok () := by
  refine softDraws_ok (fun y hy => ?_)
  obtain ⟨l, hl, rfl⟩ := List.mem_map.mp hy
  cases hx : c.g.lane? l with
  | none => intro off ho; simp at ho
  | some x =>
      have := r.tables l hl x hx
      simpa only [NoSoft, spend_poison, hx, srcReads_congr (sameElsewhere_spend p c s), h.srcs] using this

theorem LSpec.Plain.enter {p : LSpec} {q : LIssue} (h : p.Plain q) {s : State} {c : Ctx} (r : q.Enters s c)
    (o : p.Open q s c) (falls : Bool) (hn : falls = true → inCode c.ln c.g c.nextPc = true) :
    p.enter falls { c with act := q.acting s c } (p.spend c s)
      = .ok ⟨{ c with act := q.acting s c }, p.spend c s, q.slot, q.width, q.ins s c⟩ := by
  have h1 := h.step9 r o
  have h3 : p.softLanes { c with act := q.acting s c } (p.spend c s) q.width = [] := by
    unfold LSpec.softLanes
    split
    · rfl
    · simp only [List.filter_eq_nil_iff, List.any_eq_true, not_exists, not_and]
      intro l hl x hx hc
      refine r.clean l hl x ?_ ?_
      · rwa [h.srcRegs, h.reads] at hx
      · rw [spend_poison] at hc
        exact List.contains_iff_mem.mp hc
  have h4 : p.dists.all (fun x => (dsOf c.g x).isSome) = true := by
    simp only [List.all_eq_true]
    intro x hx
    exact r.loaded x (by simpa [LSpec.dists, LIssue.dists, h.srcs] using hx)
  have fin : ∀ f : Nat → Option LaneIn,
      (∀ l, f l = (c.g.lane? l).map (fun x => ⟨l, q.drawn s c l x, (q.operands s c l x).1⟩)) →
      (q.acting s c).filterMap f = q.ins s c := fun f hf => by
    rw [funext hf]
    rfl
  have one : ∀ l, (match c.g.lane? l with
      | none => none
      | some x => some (⟨l, (readSrcs (p.spend c s) c.g l p.srcs x).2, (readSrcs (p.spend c s) c.g l p.srcs x).1⟩ : LaneIn))
      = (c.g.lane? l).map (fun x => ⟨l, q.drawn s c l x, (q.operands s c l x).1⟩) := fun l => by
    cases c.g.lane? l with
    | none => rfl
    | some x => simp [readSrcs_congr (sameElsewhere_spend p c s), h.srcs, LIssue.drawn, LIssue.operands]
  cases falls with
  | true =>
      have h2 : Ctx.fallOk { c with act := q.acting s c } = .ok () := fallOk_ok (hn rfl)
      simp only [LSpec.enter, h1, h2, h3, demandNone, demand, h4, bind, Except.bind, if_true, List.isEmpty_nil]
      split
      · rename_i he
        exact absurd (he.symm.trans (h.tables r)) (by simp)
      · exact congrArg (fun z => Except.ok (Issue.mk { c with act := q.acting s c } (p.spend c s) q.slot q.width z)) (fin _ one)
  | false =>
      simp only [LSpec.enter, h1, h3, demandNone, demand, h4, bind, Except.bind, if_true, List.isEmpty_nil,
        Bool.false_eq_true, if_false]
      split
      · rename_i he
        exact absurd (he.symm.trans (h.tables r)) (by simp)
      · exact congrArg (fun z => Except.ok (Issue.mk { c with act := q.acting s c } (p.spend c s) q.slot q.width z)) (fin _ one)

/-- An L-set instruction that enters runs its body on the acting lanes. -/
theorem LSpec.Plain.perLaneAt {p : LSpec} {q : LIssue} (h : p.Plain q) {s : State} {c : Ctx} (r : q.Enters s c)
    (o : p.Open q s c) (falls : Bool) (hn : falls = true → inCode c.ln c.g c.nextPc = true)
    {body : Issue → Except Stop State} {s' : State}
    (hb : body ⟨{ c with act := q.acting s c }, p.spend c s, q.slot, q.width, q.ins s c⟩ = .ok s') :
    perLaneAt falls p body s =
      .next (markFocus (countIssue
        (if falls = true then Ctx.advance { c with act := q.acting s c } s' else s') c.g.key c.pc) 1) := by
  have ha : (p.accepting c s).isEmpty = false := by
    rw [h.accepting]
    cases e : q.acting s c with
    | nil => exact absurd e r.acts
    | cons a l => rfl
  have hc : focusCtx s p.len = some c := by rw [h.len]; exact r.ctx
  have he := h.enter r o falls hn
  rw [← h.accepting] at he hb ⊢
  unfold Sys2Proof.Machine.perLaneAt
  simp only [hc, h.ready r o, ha, he, hb, bind, Except.bind, Ctx.settleFrom]
  rfl

/-- A ready L-set instruction runs its body on the acting lanes, which then move on. -/
theorem LSpec.Plain.perLane {p : LSpec} {q : LIssue} (h : p.Plain q) {s : State} {c : Ctx} (r : q.Ready s c)
    (o : p.Open q s c) {body : Issue → Except Stop State} {s' : State}
    (hb : body ⟨{ c with act := q.acting s c }, p.spend c s, q.slot, q.width, q.ins s c⟩ = .ok s') :
    perLane p body s =
      .next (markFocus (countIssue (Ctx.advance { c with act := q.acting s c } s') c.g.key c.pc) 1) :=
  h.perLaneAt r.toEnters o true (fun _ => r.falls) hb

/-- What one lane leaves, found among the lanes of an issue. -/
theorem find_over {q : LIssue} {s : State} {c : Ctx} {α : Type} (f : Nat → Lane → α) (idx : α → Nat)
    (hf : ∀ l x, idx (f l x) = l) (l : Nat) :
    (q.over s c f).find? (fun o => idx o = l) = if l ∈ q.acting s c then (c.g.lane? l).map (f l) else none := by
  unfold LIssue.over
  induction q.acting s c with
  | nil => simp
  | cons a as ih =>
      rw [List.filterMap_cons]
      cases hx : c.g.lane? a with
      | none =>
          simp only [Option.map_none, ih, List.mem_cons]
          by_cases h : l = a
          · subst h
            simp [hx]
          · simp [h]
      | some x =>
          simp only [Option.map_some, List.find?_cons, hf, List.mem_cons]
          by_cases h : a = l
          · subst h
            simp [hx]
          · simp [h, Ne.symm h, ih]

/-- The group after the commit of lanes. -/
def commitG (outs : List LaneOut) (fl : FpStatus) (g : Group) : Group :=
  { g with
    lanes := g.lanes.mapIdx (fun i x => match outs.find? (fun o => o.idx = i) with | some o => o.apply | none => x)
    fps := g.fps ||| fl }

theorem poison_commit (s : State) (k : GKey) (outs : List LaneOut) (fl : FpStatus) (p : PoisonLoc) :
    p ∈ (commitLanes s k outs fl).poison ↔
      p ∈ s.poison ∧ ¬ ∃ o ∈ outs, ∃ w ∈ o.writes, p = .vreg k o.idx w.1 := by
  have : (commitLanes s k outs fl).poison
      = (clearRegPoison s k (outs.flatMap (fun o => o.writes.map (fun w => (o.idx, w.1))))).poison := rfl
  rw [this]
  unfold clearRegPoison
  split
  · rename_i h
    simp [List.isEmpty_iff.mp h]
  · simp only [List.mem_filter, Bool.not_eq_true', List.any_eq_false, beq_iff_eq, List.mem_flatMap, List.mem_map]
    constructor
    · rintro ⟨h1, h2⟩
      refine ⟨h1, ?_⟩
      rintro ⟨o, ho, w, hw, e⟩
      exact h2 (o.idx, w.1) ⟨o, ho, w, hw, rfl⟩ e
    · rintro ⟨h1, h2⟩
      refine ⟨h1, ?_⟩
      rintro x ⟨o, ho, w, hw, rfl⟩ e
      exact h2 ⟨o, ho, w, hw, e⟩

theorem sameOthers_commit (s : State) (k : GKey) (outs : List LaneOut) (fl : FpStatus) :
    SameOthers s (commitLanes s k outs fl) k :=
  SameOthers.trans (t := clearRegPoison s k (outs.flatMap (fun o => o.writes.map (fun w => (o.idx, w.1)))))
    (sameOthers_of_groups (clearRegPoison_groups _ _ _)) (sameOthers_updGroup (commitG outs fl) (fun _ => rfl))

/-- The group at the focus after the rejected attempts have used their words. -/
theorem spend_group (p : LSpec) {q : LIssue} (h : p.Plain q) {s : State} {c : Ctx}
    (hg : findGroup s c.g.key = some c.g) :
    ∃ g, findGroup (p.spend c s) c.g.key = some g ∧ SameGroup c.g g ∧ g.s = c.g.s ∧ g.fps = c.g.fps ∧
      g.eop = c.g.eop ∧ ∀ l, g.lane? l = (c.g.lane? l).map (fun x => if l ∈ q.acting s c then x else q.spent c l x) := by
  unfold LSpec.spend
  rw [h.reject]
  cases hr : q.reject c.g with
  | none => exact ⟨c.g, hg, rfl, rfl, rfl, rfl, fun l => by simp [LIssue.spent, hr]⟩
  | some im =>
      refine ⟨_, findGroup_updGroup_self _ (fun g => rfl) hg, rfl, rfl, rfl, rfl, fun l => ?_⟩
      rw [lane_mapLanes, h.accepting]
      cases c.g.lane? l with
      | none => rfl
      | some x =>
          simp only [Option.map_some, LIssue.spent, hr, List.mem_filter, Bool.not_eq_true']
          congr 1
          by_cases h1 : l ∈ q.acting s c
          · simp [h1]
          · simp [h1]

/-- A ready L-set instruction that commits these lanes completes with them. -/
theorem LIssue.done_of_commit {q : LIssue} {p : LSpec} {body : Issue → Except Stop State} {s : State} {c : Ctx}
    {fl : FpStatus} {wl regs : List Nat} {out : Nat → Lane → Lane}
    (hx : exec q.instr s = Sys2Proof.Machine.perLane p body s) (hp : p.Plain q) (r : q.Ready s c) (op : p.Open q s c) (outs : List LaneOut)
    (hb : body ⟨{ c with act := q.acting s c }, p.spend c s, q.slot, q.width, q.ins s c⟩
      = .ok (commitLanes (p.spend c s) c.g.key outs fl))
    (hf : ∀ l, outs.find? (fun o => o.idx = l) = none ∨ l ∈ q.acting s c)
    (ho : ∀ l ∈ q.acting s c, ∀ x, c.g.lane? l = some x →
      (match outs.find? (fun o => o.idx = l) with | some o => o.apply | none => x) = out l x)
    (hw : ∀ l r, (∃ o ∈ outs, ∃ w ∈ o.writes, l = o.idx ∧ r = w.1) ↔ l ∈ wl ∧ r ∈ regs) :
    q.Done s c fl wl regs out := by
  obtain ⟨hg, -⟩ := focusCtx_group r.ctx
  obtain ⟨g1, hg1, hs1, hss, hfps, heop, hl1⟩ := spend_group p hp hg
  have hg1' : findGroup (clearRegPoison (p.spend c s) c.g.key
      (outs.flatMap (fun o => o.writes.map (fun w => (o.idx, w.1))))) c.g.key = some g1 := by
    rw [findGroup_congr (clearRegPoison_groups _ _ _)]
    exact hg1
  have h2 : findGroup (commitLanes (p.spend c s) c.g.key outs fl) c.g.key = some (commitG outs fl g1) :=
    findGroup_updGroup_self (commitG outs fl) (fun _ => rfl) hg1'
  have h3 := moveLanes_group c.pc (q.acting s c) (fun _ => c.nextPc) h2
  have e1 : (dropSkips ((commitG outs fl g1).mapLanes (q.acting s c) (fun l x => { x with pc := c.nextPc })) c.pc
      (q.acting s c)).s = c.g.s := by
    simp only [dropSkips]; split <;> exact hss
  have e2 : (dropSkips ((commitG outs fl g1).mapLanes (q.acting s c) (fun l x => { x with pc := c.nextPc })) c.pc
      (q.acting s c)).fps = c.g.fps ||| fl := by
    simp only [dropSkips]; split <;> (simp only [Group.mapLanes, commitG, hfps])
  have hh := completes_of_group (i := q.instr) (s := s) (c := c) (ls := wl) (rs := regs)
    (s' := Ctx.advance { c with act := q.acting s c } (commitLanes (p.spend c s) c.g.key outs fl))
    (lane := fun l x => if l ∈ q.acting s c then { out l x with pc := c.nextPc } else q.spent c l x)
    (hx.trans (hp.perLane r op hb))
    (((sameElsewhere_spend p c s).trans ((sameElsewhere_clearRegPoison _ _ _).trans
      (sameElsewhere_updGroup _ _ _))).trans (sameElsewhere_updGroup _ _ _))
    ?_ ?_ h3 ?_ ?_ ?_
  · rw [e1, e2] at hh
    exact hh
  · have a : SameOthers s (p.spend c s) c.g.key := by
      unfold LSpec.spend
      split
      · exact fun _ _ => rfl
      · exact sameOthers_updGroup _ (fun _ => rfl)
    exact (a.trans (sameOthers_commit _ _ _ _)).trans (sameOthers_updGroup _ (fun g => (dropSkips_key _ _ _).trans rfl))
  · intro x
    have : (Ctx.advance { c with act := q.acting s c } (commitLanes (p.spend c s) c.g.key outs fl)).poison
        = (commitLanes (p.spend c s) c.g.key outs fl).poison := rfl
    rw [this, poison_commit, spend_poison]
    refine and_congr_right (fun _ => not_congr ?_)
    constructor
    · rintro ⟨o, ho', w, hw', rfl⟩
      obtain ⟨a, b⟩ := (hw o.idx w.1).mp ⟨o, ho', w, hw', rfl, rfl⟩
      exact ⟨_, a, _, b, rfl⟩
    · rintro ⟨l, hl, r', hr', rfl⟩
      obtain ⟨o, ho', w, hw', rfl, rfl⟩ := (hw l r').mpr ⟨hl, hr'⟩
      exact ⟨o, ho', w, hw', rfl⟩
  · exact hs1.trans (SameGroup.trans (g' := (commitG outs fl g1).mapLanes (q.acting s c) (fun l x => { x with pc := c.nextPc }))
      rfl (sameGroup_dropSkips _ _ _))
  · simp only [dropSkips]; split <;> exact heop
  · intro l
    rw [lane_dropSkips, lane_mapLanes]
    have : (commitG outs fl g1).lane? l =
        (g1.lane? l).map (fun x => match outs.find? (fun o => o.idx = l) with | some o => o.apply | none => x) := by
      simp [Group.lane?, commitG, List.getElem?_mapIdx]
    rw [this, hl1]
    cases hx' : c.g.lane? l with
    | none => rfl
    | some x =>
        simp only [Option.map_some, Option.some.injEq]
        by_cases hl : l ∈ q.acting s c
        · simp only [hl, if_true]
          rw [ho l hl x hx']
        · simp only [hl, if_false]
          rcases hf l with h | h
          · rw [h]
          · exact absurd h hl

/-- The common case: one outcome for each acting lane, computed from its operands. -/
theorem LIssue.done_of_map {q : LIssue} {p : LSpec} {body : Issue → Except Stop State} {s : State} {c : Ctx}
    {fl : FpStatus} {wl regs : List Nat} {out : Nat → Lane → Lane}
    (hx : exec q.instr s = Sys2Proof.Machine.perLane p body s) (hp : p.Plain q) (r : q.Ready s c) (op : p.Open q s c)
    (o : LaneIn → LaneOut) (hi : ∀ i, (o i).idx = i.idx)
    (hb : body ⟨{ c with act := q.acting s c }, p.spend c s, q.slot, q.width, q.ins s c⟩
      = .ok (commitLanes (p.spend c s) c.g.key ((q.ins s c).map o) fl))
    (ho : ∀ l ∈ q.acting s c, ∀ x, c.g.lane? l = some x →
      (o ⟨l, q.drawn s c l x, (q.operands s c l x).1⟩).apply = out l x)
    (hw : ∀ l r, (∃ x, l ∈ q.acting s c ∧ c.g.lane? l = some x ∧
      ∃ w ∈ (o ⟨l, q.drawn s c l x, (q.operands s c l x).1⟩).writes, r = w.1) ↔ l ∈ wl ∧ r ∈ regs) :
    q.Done s c fl wl regs out := by
  have hfind : ∀ l, ((q.ins s c).map o).find? (fun o => o.idx = l) =
      if l ∈ q.acting s c then (c.g.lane? l).map (fun x => o ⟨l, q.drawn s c l x, (q.operands s c l x).1⟩) else none := by
    intro l
    have : (q.ins s c).map o = q.over s c (fun l x => o ⟨l, q.drawn s c l x, (q.operands s c l x).1⟩) := by
      simp only [LIssue.ins, LIssue.over, List.map_filterMap]
      apply List.filterMap_congr
      intro l _
      cases c.g.lane? l <;> rfl
    rw [this]
    exact find_over _ _ (fun l x => hi _) l
  refine LIssue.done_of_commit hx hp r op _ hb (fun l => ?_) (fun l hl x hx' => ?_) (fun l rg => ?_)
  · by_cases hl : l ∈ q.acting s c
    · exact Or.inr hl
    · exact Or.inl (by rw [hfind, if_neg hl])
  · rw [hfind, if_pos hl, hx']
    exact ho l hl x hx'
  · rw [← hw l rg]
    simp only [LIssue.ins, LIssue.over, List.mem_map, List.mem_filterMap]
    constructor
    · rintro ⟨a, ⟨i, ⟨l', hl', e⟩, rfl⟩, w, hw', rfl, rfl⟩
      cases hx' : c.g.lane? l' with
      | none => simp [hx'] at e
      | some x =>
          simp only [hx', Option.map_some, Option.some.injEq] at e
          subst e
          rw [hi]
          exact ⟨x, hl', hx', w, hw', rfl⟩
    · rintro ⟨x, hl, hx', w, hw', rfl⟩
      refine ⟨_, ⟨_, ⟨l, hl, by rw [hx']; rfl⟩, rfl⟩, w, hw', ?_, rfl⟩
      rw [hi]

/-- Every acting lane is a lane of the group. -/
theorem LIssue.lane_of_acting {q : LIssue} {s : State} {c : Ctx} (r : q.Enters s c) {l : Nat} (h : l ∈ q.acting s c) :
    ∃ x, c.g.lane? l = some x ∧ x.exited = false ∧ x.pc = c.pc := by
  obtain ⟨-, -, hpc, -, ha, -⟩ := focusCtx_group r.ctx
  have : l ∈ c.act := by
    unfold LIssue.acting at h
    split at h
    · exact h
    · exact (List.mem_filter.mp h).1
  rw [ha] at this
  rw [hpc]
  exact mem_act this

/-- An instruction that writes one register in every acting lane. -/
theorem LIssue.done_of_write {q : LIssue} {p : LSpec} {body : Issue → Except Stop State} {s : State} {c : Ctx}
    {fl : FpStatus} {d : Nat} (f : Nat → Lane → Word)
    (hx : exec q.instr s = Sys2Proof.Machine.perLane p body s) (hp : p.Plain q) (r : q.Ready s c) (op : p.Open q s c)
    (w : LaneIn → Word)
    (hb : body ⟨{ c with act := q.acting s c }, p.spend c s, q.slot, q.width, q.ins s c⟩
      = .ok (commitLanes (p.spend c s) c.g.key ((q.ins s c).map (fun i => i.write d (w i))) fl))
    (ho : ∀ l ∈ q.acting s c, ∀ x, c.g.lane? l = some x →
      w ⟨l, q.drawn s c l x, (q.operands s c l x).1⟩ = f l x) :
    q.Done s c fl (q.acting s c) [d] (fun l x => (q.drawn s c l x).setV d (f l x)) := by
  refine LIssue.done_of_map hx hp r op (fun i => i.write d (w i)) (fun _ => rfl) hb (fun l hl x hx' => ?_) (fun l rg => ?_)
  · rw [← ho l hl x hx']
    rfl
  · constructor
    · rintro ⟨x, hl, -, v, hv, rfl⟩
      simp only [LaneIn.write, List.mem_singleton] at hv
      subst hv
      exact ⟨hl, by simp⟩
    · rintro ⟨hl, hr⟩
      obtain ⟨x, hx', -⟩ := LIssue.lane_of_acting r.toEnters hl
      exact ⟨x, hl, hx', _, List.mem_singleton.mpr rfl, by simpa using hr⟩

/-- What `lanewise` does (R150, R154): the destination from the sources and its old value, the status bits ORed. -/
theorem LIssue.done_of_lanewise {q : LIssue} {p : LSpec} {s : State} {c : Ctx} {d : VReg} {f : Word → Word → Word → FRes}
    (hx : exec q.instr s = lanewise p d f s) (hp : p.Plain q) (r : q.Ready s c) (op : p.Open q s c) :
    q.Done s c
      ((q.over s c (fun l x => (f (q.operand s c l x 0) (q.operand s c l x 1) ((q.drawn s c l x).vreg d.val)).fl)).foldl
        (fun a b => a ||| b) 0)
      (q.acting s c) [d.val]
      (fun l x => (q.drawn s c l x).setV d.val (BitVec.ofNat 32
        (f (q.operand s c l x 0) (q.operand s c l x 1) ((q.drawn s c l x).vreg d.val)).code)) := by
  have hfl : ∀ (ls : List LaneIn) (a : FpStatus),
      (ls.map (fun i => (i, f (i.arg 0) (i.arg 1) (i.lane.vreg d.val)))).foldl (fun fl r => fl ||| r.2.fl) a
        = (ls.map (fun i => (f (i.arg 0) (i.arg 1) (i.lane.vreg d.val)).fl)).foldl (fun a b => a ||| b) a := by
    intro ls
    induction ls with
    | nil => intro a; rfl
    | cons i ls ih => intro a; simp only [List.map_cons, List.foldl_cons, ih]
  refine LIssue.done_of_write _ hx hp r op
    (fun i => BitVec.ofNat 32 (f (i.arg 0) (i.arg 1) (i.lane.vreg d.val)).code) ?_ (fun l hl x hx' => rfl)
  simp only [Issue.commit, hfl, List.map_map]
  congr 2
  simp only [LIssue.ins, LIssue.over, List.map_filterMap]
  congr 1
  apply List.filterMap_congr
  intro l _
  cases c.g.lane? l <;> rfl

/-- A `lanewise` instruction that sets no status. -/
theorem LIssue.done_of_plainwise {q : LIssue} {p : LSpec} {s : State} {c : Ctx} {d : VReg}
    {f g : Word → Word → Word → Word}
    (hx : exec q.instr s = lanewise p d (fun x y z => plainRes (f x y z)) s) (hp : p.Plain q) (r : q.Ready s c) (op : p.Open q s c)
    (hf : ∀ x y z, f x y z = g x y z) :
    q.Done s c 0 (q.acting s c) [d.val]
      (fun l x => (q.drawn s c l x).setV d.val
        (g (q.operand s c l x 0) (q.operand s c l x 1) ((q.drawn s c l x).vreg d.val))) := by
  have h := LIssue.done_of_lanewise hx hp r op
  have e : ∀ ls : List (BitVec 6), (∀ x ∈ ls, x = 0) → ls.foldl (fun a b => a ||| b) 0 = (0 : BitVec 6) := by
    intro ls
    induction ls with
    | nil => intro _; rfl
    | cons a ls ih => intro h; rw [List.foldl_cons, h a (by simp)]; exact ih (fun x hx => h x (by simp [hx]))
  rw [e] at h
  · simpa [plainRes, hf] using h
  · intro x hx
    simp only [LIssue.over, List.mem_filterMap] at hx
    obtain ⟨l, -, h⟩ := hx
    cases hl : c.g.lane? l <;> simp [hl, plainRes] at h
    exact h.symm

/-- An instruction that writes no vector register. -/
theorem LIssue.done_of_noWrite {q : LIssue} {p : LSpec} {body : Issue → Except Stop State} {s : State} {c : Ctx}
    {out : Nat → Lane → Lane}
    (hx : exec q.instr s = Sys2Proof.Machine.perLane p body s) (hp : p.Plain q) (r : q.Ready s c) (op : p.Open q s c)
    (o : LaneIn → Lane)
    (hb : body ⟨{ c with act := q.acting s c }, p.spend c s, q.slot, q.width, q.ins s c⟩
      = .ok (commitLanes (p.spend c s) c.g.key ((q.ins s c).map (fun i => ⟨i.idx, o i, []⟩)) 0))
    (ho : ∀ l ∈ q.acting s c, ∀ x, c.g.lane? l = some x →
      o ⟨l, q.drawn s c l x, (q.operands s c l x).1⟩ = out l x) :
    q.Done s c 0 [] [] out := by
  refine LIssue.done_of_map hx hp r op (fun i => ⟨i.idx, o i, []⟩) (fun _ => rfl) hb (fun l hl x hx' => ?_) (fun l rg => ?_)
  · rw [← ho l hl x hx']; rfl
  · simp

/-- A list over the lanes of an issue. -/
theorem LIssue.map_ins {q : LIssue} {s : State} {c : Ctx} {α : Type} (f : LaneIn → α) :
    (q.ins s c).map f = q.over s c (fun l x => f ⟨l, q.drawn s c l x, (q.operands s c l x).1⟩) := by
  simp only [LIssue.ins, LIssue.over, List.map_filterMap]
  apply List.filterMap_congr
  intro l _
  cases c.g.lane? l <;> rfl

/-- The status that the lanes of an issue set. -/
theorem foldl_status (ls : List LaneIn) (f : LaneIn → FRes) (a : FpStatus) :
      (ls.map (fun i => (i, f i))).foldl (fun fl r => fl ||| r.2.fl) a
        = (ls.map (fun i => (f i).fl)).foldl (fun a b => a ||| b) a := by
    induction ls generalizing a with
    | nil => rfl
    | cons i ls ih => simp only [List.map_cons, List.foldl_cons, ih]

/-- An instruction that writes the same registers in every acting lane. -/
theorem LIssue.done_of_writes {q : LIssue} {p : LSpec} {body : Issue → Except Stop State} {s : State} {c : Ctx} {fl : FpStatus}
    {out : Nat → Lane → Lane} {rs : List Nat}
    (hx : exec q.instr s = Sys2Proof.Machine.perLane p body s) (hp : p.Plain q) (r : q.Ready s c) (op : p.Open q s c)
    (o : LaneIn → LaneOut) (hi : ∀ i, (o i).idx = i.idx) (hrs : ∀ i, (o i).writes.map (·.1) = rs)
    (hb : body ⟨{ c with act := q.acting s c }, p.spend c s, q.slot, q.width, q.ins s c⟩
      = .ok (commitLanes (p.spend c s) c.g.key ((q.ins s c).map o) fl))
    (ho : ∀ l ∈ q.acting s c, ∀ x, c.g.lane? l = some x →
      (o ⟨l, q.drawn s c l x, (q.operands s c l x).1⟩).apply = out l x) :
    q.Done s c fl (q.acting s c) rs out := by
  refine LIssue.done_of_map hx hp r op o hi hb ho (fun l rg => ?_)
  constructor
  · rintro ⟨x, hl, -, w, hw, rfl⟩
    refine ⟨hl, ?_⟩
    rw [← hrs ⟨l, q.drawn s c l x, (q.operands s c l x).1⟩]
    exact List.mem_map_of_mem hw
  · rintro ⟨hl, hr⟩
    obtain ⟨x, hx', -⟩ := LIssue.lane_of_acting r.toEnters hl
    rw [← hrs ⟨l, q.drawn s c l x, (q.operands s c l x).1⟩] at hr
    obtain ⟨w, hw, e⟩ := List.mem_map.mp hr
    exact ⟨x, hl, hx', w, hw, e.symm⟩

end Sys2Proof.Machine
end

