-- ==== Sys2Proof/Laws/Land.lean ====
section
/-! SUPPORT. What the landing of an operation's registers does (R103, R345): the group's lanes, the words of its frame, and
nothing else. -/

namespace Sys2Proof.Machine

/-- A state with other groups, notes of poison and outstanding operations. -/
def State.beside (s : State) (gs : List Group) (ps : List PoisonLoc) (os : List Op) : State :=
  { s with groups := gs, poison := ps, ops := os }

variable (s : State) (gs : List Group) (ps : List PoisonLoc) (os : List Op)

theorem mscDrop_beside (base : Nat) : mscDrop (s.beside gs ps os) base = (mscDrop s base).beside gs ps os := by
  have h : mscFind (s.beside gs ps os) base = mscFind s base := rfl
  unfold mscDrop
  rw [h]
  cases mscFind s base with
  | none => rfl
  | some l => cases hd : l.dirty <;> simp [mscWriteBack, hd, State.beside]

theorem foldl_mscDrop_beside (bs : List Nat) : bs.foldl mscDrop (s.beside gs ps os) = (bs.foldl mscDrop s).beside gs ps os := by
  induction bs generalizing s with
  | nil => rfl
  | cons b bs ih => rw [List.foldl_cons, mscDrop_beside, ih]; rfl

theorem mscFill_beside (base : Nat) : mscFill (s.beside gs ps os) base = (mscFill s base).beside gs ps os := by
  have h : mscFind (s.beside gs ps os) base = mscFind s base := rfl
  unfold mscFill
  rw [h]
  cases mscFind s base with
  | some l => rfl
  | none => simp only [foldl_mscDrop_beside]; rfl

theorem rekeyLine_beside (key : BitVec 512) (base : Nat) :
    rekeyLine (s.beside gs ps os) key base = (rekeyLine s key base).beside gs ps os := by
  have h : mscFind (s.beside gs ps os) base = mscFind s base := rfl
  have hk : mapFind (s.beside gs ps os).lineKeys base = mapFind s.lineKeys base := rfl
  unfold rekeyLine
  rw [hk]
  cases mapFind s.lineKeys base with
  | none => rfl
  | some k =>
    by_cases hkk : k = key
    · simp [hkk]
    · simp only [hkk, if_false]
      show (match mscFind s base with | some l => _ | none => _) = State.beside (match mscFind s base with | some l => _ | none => _) gs ps os
      cases mscFind s base with
      | none => rfl
      | some l => cases hd : l.dirty <;> simp [hd] <;> rfl

theorem homeSet_beside (key : BitVec 512) (ca pa : Nat) (b : Byte) :
    homeSet (s.beside gs ps os) key ca pa b = (homeSet s key ca pa b).beside gs ps os := by
  have hm : (s.beside gs ps os).mcb = s.mcb := rfl
  unfold homeSet
  rw [hm]
  cases hc : (decide (poolBase ≤ pa) && ca != 2 && decide (s.mcb.hbma < 9)) <;> by_cases hp : poolBase ≤ pa <;>
    by_cases h1 : ca = 1 <;> simp [hp, h1, mscDrop_beside, mscFill_beside, rekeyLine_beside] <;> rfl

theorem homeSetBytes_beside (key : BitVec 512) (ca : Nat) (bs : List Byte) (pa : Nat) :
    homeSetBytes (s.beside gs ps os) key ca pa bs = (homeSetBytes s key ca pa bs).beside gs ps os := by
  induction bs generalizing s pa with
  | nil => rfl
  | cons b bs ih => rw [homeSetBytes, homeSet_beside, ih]; rfl

theorem l2TouchAll_beside (owner : Nat) (ls : List Nat) :
    l2TouchAll (s.beside gs ps os) owner ls = (l2TouchAll s owner ls).beside gs ps os := by
  unfold l2TouchAll
  induction ls generalizing s with
  | nil => rfl
  | cons l ls ih => exact ih (l2Touch s owner l)

theorem frameSet_beside (w : Wg) (g off n v : Nat) :
    frameSet (s.beside gs ps os) w g off n v = (frameSet s w g off n v).beside gs ps os := by
  show l2TouchAll (homeSetBytes (s.beside gs ps os) _ 0 _ _) _ _ = _
  rw [homeSetBytes_beside, l2TouchAll_beside]
  rfl

/-- What `saveWords` writes depends on no group, note of poison or outstanding operation, and changes none. -/
theorem saveWords_beside (k : GKey) (fs : List Fill) :
    saveWords (s.beside gs ps os) k fs = (saveWords s k fs).beside gs ps os := by
  unfold saveWords
  show (match findWg s k.wg with | none => _ | some w => _) = State.beside (match findWg s k.wg with | none => _ | some w => _) gs ps os
  cases findWg s k.wg with
  | none => rfl
  | some w =>
    induction fs generalizing s with
    | nil => rfl
    | cons f fs ih =>
      simp only [List.foldl_cons]
      have hg : ∀ o n, frameGet (s.beside gs ps os) w k.g o n = frameGet s w k.g o n := fun _ _ => rfl
      rw [hg, frameSet_beside]
      split <;> exact ih _

theorem putFills_lane (g : Group) (fs : List Fill) (l : Nat) : (putFills g fs).lane? l =
    (g.lane? l).map (fun x => (fs.filter (fun f => f.lane = l)).foldl (fun x f => x.setV f.reg f.val) x) := by
  unfold putFills
  induction fs generalizing g with
  | nil => simp
  | cons f fs ih =>
    rw [List.foldl_cons, ih, lane_mapLanes]
    by_cases hl : f.lane = l
    · subst hl; cases g.lane? f.lane <;> simp
    · have hl' : l ≠ f.lane := fun e => hl e.symm
      cases g.lane? l <;> simp [hl, hl']

/-- Fills change the lanes of a group alone. -/
theorem putFills_rest (g : Group) (fs : List Fill) : putFills g fs = { g with lanes := (putFills g fs).lanes } := by
  unfold putFills
  induction fs generalizing g with
  | nil => rfl
  | cons f fs ih => rw [List.foldl_cons]; exact ih _

/-- The landing of an operation's registers. -/
theorem landRegs_landed {s : State} {o : Op} {g : Group} (fs : List Fill) (bad : List (Nat × Nat))
    (h : findGroup s o.grp = some g) : Claims.Landed (landRegs s o fs bad) s o g fs := by
  have hx : ∃ (ps : List PoisonLoc) (vp : Group → List (Nat × Nat)), landRegs s o fs bad =
      (saveWords s o.grp (fs.filter (fun f => o.lands g f.reg && o.saves g f.reg))).beside
        (updGroup s o.grp (fun x => { putFills x (fs.filter (fun f => o.lands g f.reg)) with vpoison := vp x })).groups ps s.ops := by
    unfold landRegs clearRegPoison
    rw [h]
    have hf : (fs.filter (fun f => o.lands g f.reg)).filter (fun f => o.saves g f.reg) =
        fs.filter (fun f => o.lands g f.reg && o.saves g f.reg) := by
      simp [List.filter_filter, Bool.and_comm]
    simp only [← hf]
    split <;> split <;> exact ⟨_, _, saveWords_beside s _ _ _ _ _⟩
  obtain ⟨ps, vp, hx⟩ := hx
  rw [hx]
  refine ⟨⟨_, findGroup_updGroup_self (s := s) _ (fun x => by rw [putFills_rest]) h, ?_, ?_, ?_, fun l => ?_⟩, ?_⟩
  · rw [putFills_rest]; rfl
  · rw [putFills_rest]
  · rw [putFills_rest]
  · exact putFills_lane g _ l
  · exact ⟨⟨rfl, rfl, rfl⟩, rfl, fun _ => rfl⟩

end Sys2Proof.Machine
end

