-- ==== Sys2Proof/Laws/Map.lean ====
section
/-! SUPPORT. Sparse maps: reading after writing, and the canonical form that every write keeps. -/

namespace Sys2Proof.Machine

theorem mapGet_mapPut_self {α : Type} (d : α) (m : SMap α) (k : Nat) (v : α) : mapGet d (mapPut m k v) k = v := by
  induction m with
  | nil => simp [mapPut, mapGet]
  | cons p m ih =>
      unfold mapPut
      split
      · simp [mapGet]
      · split
        · simp [mapGet]
        · rename_i h1 h2; simp only [mapGet, if_neg h1, if_neg h2, ih]

theorem mapFind_mapPut_self {α : Type} (m : SMap α) (k : Nat) (v : α) : mapFind (mapPut m k v) k = some v := by
  induction m with
  | nil => simp [mapPut, mapFind]
  | cons p m ih =>
      unfold mapPut
      split
      · simp [mapFind]
      · split
        · simp [mapFind]
        · rename_i h1 h2; simp only [mapFind, if_neg h1, if_neg h2, ih]

theorem mapFind_mapPut_other {α : Type} (m : SMap α) (k j : Nat) (v : α) (h : j ≠ k) :
    mapFind (mapPut m k v) j = mapFind m j := by
  induction m with
  | nil =>
      simp only [mapPut, mapFind, if_neg h]
      split <;> rfl
  | cons p m ih =>
      obtain ⟨k', v'⟩ := p
      unfold mapPut
      split
      · rename_i e; subst e; simp [mapFind, h]
      · rename_i e
        split
        · rename_i l
          simp only [mapFind, if_neg h]
          by_cases hj : j < k
          · rw [if_pos hj, if_neg (show j ≠ k' by omega), if_pos (show j < k' by omega)]
          · rw [if_neg hj]
        · simp only [mapFind, ih]

/-- A write of another key is not seen (with the default where nothing is listed). -/
theorem mapGet_mapPut_other {α : Type} (d : α) (m : SMap α) (k j : Nat) (v : α) (h : j ≠ k) :
    mapGet d (mapPut m k v) j = mapGet d m j := by
  induction m with
  | nil =>
      simp only [mapPut, mapGet, if_neg h]
      split <;> rfl
  | cons p m ih =>
      obtain ⟨k', v'⟩ := p
      unfold mapPut
      split
      · rename_i e; subst e; simp [mapGet, h]
      · rename_i e
        split
        · rename_i l
          simp only [mapGet, if_neg h]
          by_cases hj : j < k
          · rw [if_pos hj, if_neg (show j ≠ k' by omega), if_pos (show j < k' by omega)]
          · rw [if_neg hj]
        · simp only [mapGet, ih]

theorem mapWfFrom_mono {α : Type} [DecidableEq α] {d : α} {m : SMap α} {a b : Nat} (h : mapWfFrom d b m = true)
    (hab : a ≤ b) : mapWfFrom d a m = true := by
  cases m with
  | nil => rfl
  | cons p m => simp only [mapWfFrom, Bool.and_eq_true, decide_eq_true_eq] at h ⊢; exact ⟨⟨by omega, h.1.2⟩, h.2⟩

theorem mapGet_below {α : Type} [DecidableEq α] {d : α} {m : SMap α} {a k : Nat} (h : mapWfFrom d a m = true) (hk : k < a) :
    mapGet d m k = d := by
  cases m with
  | nil => rfl
  | cons p m =>
      obtain ⟨k', v⟩ := p
      simp only [mapWfFrom, Bool.and_eq_true, decide_eq_true_eq] at h
      simp only [mapGet]
      rw [if_neg (by omega), if_pos (by omega)]

theorem mapWfFrom_mapPut {α : Type} [DecidableEq α] {d : α} {m : SMap α} {a k : Nat} {v : α} (h : mapWfFrom d a m = true)
    (hk : a ≤ k) (hv : v ≠ d) : mapWfFrom d a (mapPut m k v) = true := by
  induction m generalizing a with
  | nil => simp [mapPut, mapWfFrom, hk, hv]
  | cons p m ih =>
      obtain ⟨k', v'⟩ := p
      simp only [mapWfFrom, Bool.and_eq_true, decide_eq_true_eq] at h
      unfold mapPut
      split
      · rename_i e; subst e
        simp only [mapWfFrom, Bool.and_eq_true, decide_eq_true_eq]
        exact ⟨⟨hk, hv⟩, h.2⟩
      · split
        · simp only [mapWfFrom, Bool.and_eq_true, decide_eq_true_eq]
          exact ⟨⟨hk, hv⟩, ⟨by omega, h.1.2⟩, h.2⟩
        · simp only [mapWfFrom, Bool.and_eq_true, decide_eq_true_eq]
          exact ⟨h.1, ih h.2 (by omega)⟩

theorem mapWfFrom_mapErase {α : Type} [DecidableEq α] {d : α} {m : SMap α} {a k : Nat} (h : mapWfFrom d a m = true) :
    mapWfFrom d a (mapErase m k) = true := by
  induction m generalizing a with
  | nil => rfl
  | cons p m ih =>
      obtain ⟨k', v'⟩ := p
      have h' := h
      simp only [mapWfFrom, Bool.and_eq_true, decide_eq_true_eq] at h
      unfold mapErase
      split
      · exact mapWfFrom_mono h.2 (by omega)
      · split
        · exact h'
        · simp only [mapWfFrom, Bool.and_eq_true, decide_eq_true_eq]
          exact ⟨h.1, ih h.2⟩

/-- A write keeps the canonical form, whatever the value. -/
theorem mapWf_mapSet {α : Type} [DecidableEq α] {d : α} {m : SMap α} (k : Nat) (v : α) (h : mapWf d m = true) :
    mapWf d (mapSet d m k v) = true := by
  unfold mapSet
  split
  · exact mapWfFrom_mapErase h
  · rename_i hv; exact mapWfFrom_mapPut h (Nat.zero_le k) hv

theorem mapGet_mapErase_from {α : Type} [DecidableEq α] {d : α} {m : SMap α} {a k : Nat} (j : Nat)
    (h : mapWfFrom d a m = true) : mapGet d (mapErase m k) j = if j = k then d else mapGet d m j := by
  induction m generalizing a with
  | nil => simp [mapErase, mapGet]
  | cons p m ih =>
      obtain ⟨k', v'⟩ := p
      simp only [mapWfFrom, Bool.and_eq_true, decide_eq_true_eq] at h
      unfold mapErase
      split
      · rename_i e; subst e
        split
        · rename_i e; subst e; exact mapGet_below h.2 (by omega)
        · rename_i e
          simp only [mapGet, if_neg e]
          split
          · exact mapGet_below h.2 (by omega)
          · rfl
      · rename_i e
        split
        · rename_i l
          split
          · rename_i e2; subst e2; simp only [mapGet, if_neg e, if_pos l]
          · rfl
        · simp only [mapGet, ih h.2]
          split
          · rename_i e2; rw [if_neg (by omega)]
          · rename_i e2
            by_cases hk : j = k
            · subst hk; simp
            · simp [hk]

/-- Reading after writing, in a canonical map. -/
theorem mapGet_mapSet {α : Type} [DecidableEq α] {d : α} {m : SMap α} (k j : Nat) (v : α) (h : mapWf d m = true) :
    mapGet d (mapSet d m k v) j = if j = k then v else mapGet d m j := by
  unfold mapSet
  split
  · rename_i e; subst e; exact mapGet_mapErase_from j h
  · split
    · rename_i e; subst e; exact mapGet_mapPut_self d m j v
    · rename_i e; exact mapGet_mapPut_other d m k j v e

theorem mapWfFrom_filter {α : Type} [DecidableEq α] {d : α} (p : Nat × α → Bool) {m : SMap α} {a : Nat}
    (h : mapWfFrom d a m = true) : mapWfFrom d a (m.filter p) = true := by
  induction m generalizing a with
  | nil => rfl
  | cons q m ih =>
      simp only [mapWfFrom, Bool.and_eq_true, decide_eq_true_eq] at h
      rw [List.filter_cons]
      split
      · simp only [mapWfFrom, Bool.and_eq_true, decide_eq_true_eq]; exact ⟨h.1, ih h.2⟩
      · exact mapWfFrom_mono (ih h.2) (by omega)

/-- Leaving entries out keeps the canonical form. -/
theorem mapWf_filter {α : Type} [DecidableEq α] {d : α} (p : Nat × α → Bool) {m : SMap α} (h : mapWf d m = true) :
    mapWf d (m.filter p) = true := mapWfFrom_filter p h

theorem mapGet_filter_from {α : Type} [DecidableEq α] {d : α} (p : Nat → Bool) {m : SMap α} {a : Nat} (j : Nat)
    (h : mapWfFrom d a m = true) : mapGet d (m.filter (fun c => p c.1)) j = if p j = true then mapGet d m j else d := by
  induction m generalizing a with
  | nil => simp [mapGet]
  | cons q m ih =>
      obtain ⟨k', v'⟩ := q
      simp only [mapWfFrom, Bool.and_eq_true, decide_eq_true_eq] at h
      rw [List.filter_cons]
      split
      · rename_i hp
        simp only [mapGet, ih h.2]
        by_cases e : j = k'
        · subst e; simp [show p j = true from hp]
        · simp only [if_neg e]
          by_cases l : j < k'
          · simp [l]
          · simp [l]
      · rename_i hp
        rw [ih h.2]
        simp only [mapGet]
        by_cases e : j = k'
        · subst e; simp [show ¬ p j = true from hp]
        · simp only [if_neg e]
          by_cases l : j < k'
          · rw [if_pos l, mapGet_below h.2 (by omega)]
          · rw [if_neg l]

/-- Reading where entries of some keys have been left out. -/
theorem mapGet_filter {α : Type} [DecidableEq α] {d : α} (p : Nat → Bool) {m : SMap α} (j : Nat) (h : mapWf d m = true) :
    mapGet d (m.filter (fun c => p c.1)) j = if p j = true then mapGet d m j else d := mapGet_filter_from p j h

end Sys2Proof.Machine
end

