-- ==== Sys2Proof/Laws/Memory.lean ====
section
/-! SUPPORT. The memory list: reading after writing, and the canonical form that every memory operation keeps. -/

namespace Sys2Proof.Machine

/-! ## The list -/

theorem memSet_wf {m : List Host.Cell} (pa : Nat) (b : Byte) (h : Memory.wf m = true) : Memory.wf (memSet m pa b) = true :=
  mapWf_mapSet pa b h

theorem memGet_memSet {m : List Host.Cell} (pa p : Nat) (b : Byte) (h : Memory.wf m = true) :
    memGet (memSet m pa b) p = if p = pa then b else memGet m p := mapGet_mapSet pa p b h

theorem memSetBytes_wf {m : List Host.Cell} (pa : Nat) (bs : List Byte) (h : Memory.wf m = true) :
    Memory.wf (memSetBytes m pa bs) = true := by
  induction bs generalizing m pa with
  | nil => exact h
  | cons b bs ih => exact ih (pa + 1) (memSet_wf pa b h)

/-- Bytes written one after another are read back, and no other byte has changed. -/
theorem memGet_memSetBytes {m : List Host.Cell} (pa p : Nat) (bs : List Byte) (h : Memory.wf m = true) :
    memGet (memSetBytes m pa bs) p = if pa ≤ p ∧ p < pa + bs.length then bs.getD (p - pa) 0 else memGet m p := by
  induction bs generalizing m pa with
  | nil => simp [memSetBytes, show ¬ (pa ≤ p ∧ p < pa) by omega]
  | cons b bs ih =>
      rw [memSetBytes, ih (pa + 1) (memSet_wf pa b h), memGet_memSet _ _ _ h, List.length_cons]
      by_cases e : p = pa
      · subst e; simp
      · rw [if_neg e]
        by_cases l : pa + 1 ≤ p ∧ p < pa + 1 + bs.length
        · rw [if_pos l, if_pos (by omega), show p - pa = (p - (pa + 1)) + 1 by omega, List.getD_cons_succ]
        · rw [if_neg l, if_neg (by omega)]

theorem memClear_wf {m : List Host.Cell} (base n : Nat) (h : Memory.wf m = true) : Memory.wf (memClear m base n) = true :=
  mapWf_filter _ h

theorem memGet_memClear {m : List Host.Cell} (base n p : Nat) (h : Memory.wf m = true) :
    memGet (memClear m base n) p = if base ≤ p ∧ p < base + n then 0 else memGet m p := by
  unfold memGet memClear
  rw [mapGet_filter (fun k => !(decide (base ≤ k) && decide (k < base + n))) p h]
  by_cases l : base ≤ p ∧ p < base + n
  · simp [l, unlisted]
  · rw [if_neg l, if_pos]
    simp only [Bool.not_eq_true', Bool.and_eq_false_iff, decide_eq_false_iff_not]
    omega

theorem memPutBlock_wf {m : List Host.Cell} (base n : Nat) (b : SMap Byte) (h : Memory.wf m = true) :
    Memory.wf (memPutBlock m base n b) = true := by
  have go : ∀ (b : SMap Byte) (m : List Host.Cell), Memory.wf m = true →
      Memory.wf (b.foldl (fun m c => memSet m (base + c.1) c.2) m) = true := by
    intro b
    induction b with
    | nil => intro m h; exact h
    | cons c b ih => intro m h; exact ih _ (memSet_wf _ _ h)
  exact go b _ (memClear_wf base n h)

theorem memGet_putCells {m : List Host.Cell} {b : SMap Byte} {a : Nat} (base p : Nat) (h : Memory.wf m = true)
    (hb : mapWfFrom 0 a b = true) :
    memGet (b.foldl (fun m c => memSet m (base + c.1) c.2) m) p =
      if base + a ≤ p ∧ mapGet 0 b (p - base) ≠ 0 then mapGet 0 b (p - base) else memGet m p := by
  induction b generalizing m a with
  | nil => simp [mapGet]
  | cons c b ih =>
      obtain ⟨k, v⟩ := c
      simp only [mapWfFrom, Bool.and_eq_true, decide_eq_true_eq] at hb
      simp only [List.foldl_cons]
      rw [ih (memSet_wf _ _ h) hb.2, memGet_memSet _ _ _ h]
      simp only [mapGet]
      by_cases e : p = base + k
      · subst e
        have z : mapGet (0 : Byte) b k = 0 := mapGet_below hb.2 (by omega)
        simp only [Nat.add_sub_cancel_left, z, if_true]
        simp [show v ≠ 0#8 from hb.1.2, hb.1.1]
      · rw [if_neg e]
        by_cases l : base + k < p
        · simp only [if_neg (show p - base ≠ k by omega), if_neg (show ¬ p - base < k by omega)]
          congr 1
          simp only [eq_iff_iff, and_congr_left_iff]
          intro _; omega
        · have : ¬ base + (k + 1) ≤ p := by omega
          simp only [this, false_and, if_false]
          by_cases l2 : base + a ≤ p
          · simp only [if_neg (show p - base ≠ k by omega), if_pos (show p - base < k by omega)]
            simp
          · simp [l2]

/-- A block written at a base is read back over its whole length, with zero where it lists nothing. -/
theorem memGet_memPutBlock {m : List Host.Cell} {b : SMap Byte} (base n p : Nat) (h : Memory.wf m = true)
    (hb : mapWf 0 b = true) (hn : base ≤ p) (hp : p < base + n) : memGet (memPutBlock m base n b) p = mapGet 0 b (p - base) := by
  unfold memPutBlock
  rw [memGet_putCells base p (memClear_wf base n h) hb, memGet_memClear _ _ _ h]
  split
  · rfl
  · rename_i c
    rw [if_pos ⟨hn, hp⟩]
    by_cases z : mapGet (0 : Byte) b (p - base) = 0
    · exact z.symm
    · exact absurd ⟨by omega, z⟩ c

/-- A block that lists nothing outside its length changes no byte outside it. -/
theorem memGet_memPutBlock_other {m : List Host.Cell} {b : SMap Byte} (base n p : Nat) (h : Memory.wf m = true)
    (hb : ∀ x ∈ b, x.1 < n) (hp : p < base ∨ base + n ≤ p) : memGet (memPutBlock m base n b) p = memGet m p := by
  have go : ∀ (b : SMap Byte) (m : List Host.Cell), Memory.wf m = true → (∀ x ∈ b, x.1 < n) →
      memGet (b.foldl (fun m c => memSet m (base + c.1) c.2) m) p = memGet m p := by
    intro b
    induction b with
    | nil => intro m _ _; rfl
    | cons c b ih =>
        intro m h hb
        have hc := hb c (List.mem_cons_self ..)
        rw [List.foldl_cons, ih _ (memSet_wf _ _ h) (fun x hx => hb x (List.mem_cons_of_mem _ hx)), memGet_memSet _ _ _ h,
          if_neg (by omega)]
  unfold memPutBlock
  rw [go b _ (memClear_wf base n h) hb, memGet_memClear _ _ _ h, if_neg (by omega)]

/-! ## The operations of the state -/

/-- The memory of a state is in canonical form. -/
def MemWf (s : State) : Prop := Memory.wf s.mem = true

theorem mscWriteBack_wf {s : State} (l : MscLine) (h : MemWf s) : MemWf (mscWriteBack s l) := by
  unfold mscWriteBack
  split
  · exact memPutBlock_wf _ _ _ h
  · exact h

theorem mscDrop_wf {s : State} (base : Nat) (h : MemWf s) : MemWf (mscDrop s base) := by
  unfold mscDrop
  split
  · exact h
  · exact mscWriteBack_wf _ h

theorem foldl_wf {α : Type} (f : State → α → State) (hf : ∀ s a, MemWf s → MemWf (f s a)) (l : List α) {s : State} (h : MemWf s) :
    MemWf (l.foldl f s) := by
  induction l generalizing s with
  | nil => exact h
  | cons a l ih => exact ih (hf s a h)

theorem mscFill_wf {s : State} (base : Nat) (h : MemWf s) : MemWf (mscFill s base) := by
  unfold mscFill
  split
  · exact h
  · exact foldl_wf mscDrop (fun s b h => mscDrop_wf b h) _ h

theorem rekeyLine_wf {s : State} (key : BitVec 512) (base : Nat) (h : MemWf s) : MemWf (rekeyLine s key base) := by
  unfold rekeyLine
  split
  · exact h
  · split
    · exact h
    · dsimp only
      split
      · unfold MemWf updMsc
        split
        · exact h
        · exact memPutBlock_wf _ _ _ h
      · exact memPutBlock_wf _ _ _ h

theorem homeSet_wf {s : State} (key : BitVec 512) (ca pa : Nat) (b : Byte) (h : MemWf s) : MemWf (homeSet s key ca pa b) := by
  unfold homeSet
  dsimp only
  have h1 : MemWf (if (decide (poolBase ≤ pa) && !(decide (poolBase ≤ pa) && ca != 2 && decide (s.mcb.hbma < 9))) = true then
      mscDrop s (lineOf pa) else s) := by
    split
    · exact mscDrop_wf _ h
    · exact h
  split
  · split
    · exact memSet_wf _ _ (rekeyLine_wf _ _ (mscFill_wf _ h1))
    · exact rekeyLine_wf _ _ (mscFill_wf _ h1)
  · exact memSet_wf _ _ (rekeyLine_wf _ _ h1)

theorem homeSetBytes_wf {s : State} (key : BitVec 512) (ca pa : Nat) (bs : List Byte) (h : MemWf s) :
    MemWf (homeSetBytes s key ca pa bs) := by
  induction bs generalizing s pa with
  | nil => exact h
  | cons b bs ih => exact ih (pa + 1) (homeSet_wf key ca pa b h)

theorem readThrough_wf {s : State} (ca pa : Nat) (h : MemWf s) : MemWf (readThrough s ca pa) := by
  unfold readThrough
  repeat' split
  · exact h
  · exact mscDrop_wf _ h
  · exact mscFill_wf _ h
  · exact h

theorem l2TouchAll_wf {s : State} (owner : Nat) (ls : List Nat) (h : MemWf s) : MemWf (l2TouchAll s owner ls) :=
  foldl_wf (fun s l => l2Touch s owner l) (fun _ _ h => h) _ h

theorem ownSetBytes_wf {s : State} (owner ca pa : Nat) (bs : List Byte) (h : MemWf s) :
    MemWf (ownSetBytes s owner ca pa bs) := l2TouchAll_wf _ _ (homeSetBytes_wf _ _ _ _ h)

theorem l1WriteBack_wf {s : State} (l : L1Line) (h : MemWf s) : MemWf (l1WriteBack s l) :=
  l2TouchAll_wf _ _ (foldl_wf _ (fun _ _ h => homeSet_wf _ _ _ _ h) _ h)

theorem l1Drop_wf {s : State} (core base : Nat) (h : MemWf s) : MemWf (l1Drop s core base) := by
  unfold l1Drop
  split
  · exact h
  · exact l1WriteBack_wf _ h

theorem l1WriteBackAll_wf {s : State} (core : Nat) (h : MemWf s) : MemWf (l1WriteBackAll s core) :=
  foldl_wf l1WriteBack (fun _ l h => l1WriteBack_wf l h) _ h

theorem l1DropAll_wf {s : State} (core : Nat) (h : MemWf s) : MemWf (l1DropAll s core) :=
  foldl_wf _ (fun _ b h => l1Drop_wf core b h) _ h

theorem l1Room_wf {s : State} (core : Nat) (h : MemWf s) : MemWf (l1Room s core) := by
  unfold l1Room
  dsimp only
  split
  · exact h
  · split
    · exact l1Drop_wf _ _ h
    · exact h

theorem l1Fill_wf {s : State} (core owner ca base : Nat) (h : MemWf s) : MemWf (l1Fill s core owner ca base) := by
  unfold l1Fill
  dsimp only
  have miss := readThrough_wf ca base (l1Room_wf core (l1Drop_wf core base h))
  split <;> split <;> first | exact h | exact miss

theorem l1Set_wf {s : State} (core owner ca pa : Nat) (b : Byte) (h : MemWf s) : MemWf (l1Set s core owner ca pa b) :=
  l1Fill_wf core owner ca (lineOf pa) h

theorem l1Mend_wf {s : State} (core : Nat) (ls : List Loc) (h : MemWf s) : MemWf (l1Mend s core ls) := by
  unfold l1Mend
  refine foldl_wf _ (fun s pa h => ?_) _ h
  exact h

theorem l1Refresh_wf {s : State} (core pa : Nat) (h : MemWf s) : MemWf (l1Refresh s core pa) := h

theorem l1Note_wf {s : State} (core owner : Nat) (b : StoreByte) (h : MemWf s) : MemWf (l1Note s core owner b) := by
  unfold l1Note
  split
  · exact h
  · exact h

theorem wcByteOut_wf {s : State} (core owner : Nat) (b : StoreByte) (h : MemWf s) : MemWf (wcByteOut s core owner b) := by
  unfold wcByteOut
  split
  · exact h
  · exact l1Note_wf _ _ _ (homeSet_wf _ _ _ _ h)

theorem wcEntryOut_wf {s : State} (core : Nat) (e : WcEntry) (h : MemWf s) : MemWf (wcEntryOut s core e) :=
  l2TouchAll_wf (s := e.bytes.foldl (fun s b => wcByteOut s core e.owner b) s) _ _
    (foldl_wf (fun s b => wcByteOut s core e.owner b) (fun _ b h => wcByteOut_wf core e.owner b h) e.bytes h)

theorem wcOut_wf {s : State} (core : Nat) (p : WcEntry → Bool) (h : MemWf s) : MemWf (wcOut s core p) :=
  foldl_wf (fun s e => wcEntryOut s core e) (fun _ e h => wcEntryOut_wf core e h) _ h

theorem touchHomeAs_wf {s : State} (keep : Bool) (core owner : Nat) (ls : List Loc) (h : MemWf s) :
    MemWf (touchHomeAs keep s core owner ls) := by
  refine foldl_wf _ (fun s p h => ?_) _ (l1Mend_wf core ls h)
  have h0 : MemWf (wcOutRange s core p.1 (p.1 + 256)) := wcOut_wf core _ h
  dsimp only
  repeat' split
  all_goals first | exact readThrough_wf _ _ h0 | exact readThrough_wf _ _ (l1Drop_wf _ _ h0)

theorem virtTouch_wf {s : State} (ln : Launch) (need : Need) (va n : Nat) (h : MemWf s) : MemWf (virtTouch s ln need va n) := by
  refine foldl_wf _ (fun s l h => ?_) _ h
  split
  · exact readThrough_wf _ _ h
  · exact h

theorem storeByteOut_wf {s : State} (core owner : Nat) (b : StoreByte) (h : MemWf s) :
    MemWf (storeByteOut s core owner b) := by
  unfold storeByteOut
  split
  · exact h
  · exact l1Set_wf _ _ _ _ _ (wcOut_wf _ _ h)

theorem clusterDrop_wf {s : State} (cl line : Nat) (h : MemWf s) : MemWf (clusterDrop s cl line) :=
  foldl_wf _ (fun _ c h => l1Drop_wf c line (wcOut_wf c _ h)) _ h

theorem engineByteOut_wf {s : State} (owner : Nat) (b : StoreByte) (h : MemWf s) : MemWf (engineByteOut s owner b) := by
  unfold engineByteOut
  split
  · exact h
  · exact homeSet_wf _ _ _ _ h

theorem engineSetAll_wf {s : State} (cl owner : Nat) (bs : List StoreByte) (h : MemWf s) :
    MemWf (engineSetAll s cl owner bs) :=
  l2TouchAll_wf _ _ (foldl_wf _ (fun _ b h => engineByteOut_wf owner b h) _ (foldl_wf _ (fun _ l h => clusterDrop_wf cl l h) _ h))

theorem plainSet_wf {s : State} (pa : Nat) (bs : List Byte) (h : MemWf s) : MemWf (plainSet s pa bs) := by
  induction bs generalizing s pa with
  | nil => exact h
  | cons b bs ih =>
      refine ih (pa + 1) ?_
      unfold plainSetByte
      split
      · exact h
      · exact memSet_wf _ _ h

theorem putBlockKeyed_wf {s : State} (key : BitVec 512) (base n : Nat) (b : SMap Byte) (h : MemWf s) :
    MemWf (putBlockKeyed s key base n b) := memPutBlock_wf _ _ _ h

/-- The memory of reset is in canonical form. -/
theorem reset_memWf : MemWf State.reset := rfl

end Sys2Proof.Machine
end

