-- ==== Sys2Proof/Laws/PerInstr.lean ====
section
/-! SUPPORT. For every instruction: its encoding has as many words as its length, one to three (R12). -/

namespace Sys2Proof.Laws.Len

/-- The encoder gives as many words as the instruction is long, and no instruction has more than three (R12). -/
def Statement (i : Instr) : Prop := (encode i).length = i.len ∧ 1 ≤ i.len ∧ i.len ≤ 3

theorem holds (i : Instr) : Statement i := by
  unfold Statement encode Instr.len
  by_cases a : i.eform = true <;> by_cases b : i.lits = [] <;> simp [a, b]

theorem iadd (d : VReg) (a : LSrc) (b : LSrc) : Statement (.iadd d a b) := holds _
theorem isub (d : VReg) (a : LSrc) (b : LSrc) : Statement (.isub d a b) := holds _
theorem imul (d : VReg) (a : LSrc) (b : LSrc) : Statement (.imul d a b) := holds _
theorem imulh (d : VReg) (a : LSrc) (b : LSrc) : Statement (.imulh d a b) := holds _
theorem imulhu (d : VReg) (a : LSrc) (b : LSrc) : Statement (.imulhu d a b) := holds _
theorem imad (d : VReg) (a : LSrc) (b : LSrc) : Statement (.imad d a b) := holds _
theorem imin (d : VReg) (a : LSrc) (b : LSrc) : Statement (.imin d a b) := holds _
theorem imax (d : VReg) (a : LSrc) (b : LSrc) : Statement (.imax d a b) := holds _
theorem and (d : VReg) (a : LSrc) (b : LSrc) : Statement (.and d a b) := holds _
theorem or (d : VReg) (a : LSrc) (b : LSrc) : Statement (.or d a b) := holds _
theorem xor (d : VReg) (a : LSrc) (b : LSrc) : Statement (.xor d a b) := holds _
theorem shl (d : VReg) (a : LSrc) (b : LSrc) : Statement (.shl d a b) := holds _
theorem shr (d : VReg) (a : LSrc) (b : LSrc) : Statement (.shr d a b) := holds _
theorem sar (d : VReg) (a : LSrc) (b : LSrc) : Statement (.sar d a b) := holds _
theorem iuny (op : IunyOp) (d : VReg) (a : LSrc) : Statement (.iuny op d a) := holds _
theorem iset (c : ICond) (m : MReg) (a : LSrc) (b : LSrc) : Statement (.iset c m a b) := holds _
theorem fadd (d : VReg) (a : LSrc) (b : LSrc) : Statement (.fadd d a b) := holds _
theorem fsub (d : VReg) (a : LSrc) (b : LSrc) : Statement (.fsub d a b) := holds _
theorem fmul (d : VReg) (a : LSrc) (b : LSrc) : Statement (.fmul d a b) := holds _
theorem ffma (d : VReg) (a : LSrc) (b : LSrc) : Statement (.ffma d a b) := holds _
theorem fmin (d : VReg) (a : LSrc) (b : LSrc) : Statement (.fmin d a b) := holds _
theorem fmax (d : VReg) (a : LSrc) (b : LSrc) : Statement (.fmax d a b) := holds _
theorem fset (c : FCond) (m : MReg) (a : LSrc) (b : LSrc) : Statement (.fset c m a b) := holds _
theorem funy (op : FunyOp) (d : VReg) (a : LSrc) : Statement (.funy op d a) := holds _
theorem fcvt (p : FcvtPair) (r : Rnd) (sat : Bool) (d : VReg) (a : LSrc) : Statement (.fcvt p r sat d a) := holds _
theorem hfma2 (d : VReg) (a : LSrc) (b : LSrc) : Statement (.hfma2 d a b) := holds _
theorem bfma2 (d : VReg) (a : LSrc) (b : LSrc) : Statement (.bfma2 d a b) := holds _
theorem mov (d : VReg) (a : LSrc) : Statement (.mov d a) := holds _
theorem cmov (d : VReg) (a : LSrc) (m : MReg) : Statement (.cmov d a m) := holds _
theorem lxor (d : VReg) (a : LSrc) (b : LSrc) : Statement (.lxor d a b) := holds _
theorem lshf (d : VReg) (a : LSrc) (b : LSrc) : Statement (.lshf d a b) := holds _
theorem lred (op : RedOp) (d : VReg) (a : LSrc) : Statement (.lred op d a) := holds _
theorem lscan (excl : Bool) (op : RedOp) (d : VReg) (a : LSrc) : Statement (.lscan excl op d a) := holds _
theorem matchv (d : VReg) (a : LSrc) : Statement (.matchv d a) := holds _
theorem cmpct (d : VReg) (a : LSrc) (m : MReg) : Statement (.cmpct d a m) := holds _
theorem ballot (d : VReg) (a : LSrc) : Statement (.ballot d a) := holds _
theorem mskop (op : MskOp) (m : MReg) (p : MReg) (q : MReg) : Statement (.mskop op m p q) := holds _
theorem mpopc (pre : Bool) (d : VReg) (m : MReg) : Statement (.mpopc pre d m) := holds _
theorem draw (n : Fin 4) (w2 : Bool) (d : VReg) : Statement (.draw n w2 d) := holds _
theorem catd (n : Fin 4) (d : VReg) (a : LSrc) : Statement (.catd n d a) := holds _
theorem dsskip (n : Fin 4) (a : LSrc) (b : LSrc) : Statement (.dsskip n a b) := holds _
theorem dsfork (a : LSrc) : Statement (.dsfork a) := holds _
theorem dssetp (n : Fin 4) (a : LSrc) (b : LSrc) : Statement (.dssetp n a b) := holds _
theorem dspos (n : Fin 4) (d : VReg) : Statement (.dspos n d) := holds _
theorem gneval (t : Bool) (g : Fin 8) (d : VReg) (a : LSrc) : Statement (.gneval t g d a) := holds _
theorem ksig (d : VReg) (a : VReg) (h : Slot) : Statement (.ksig d a h) := holds _
theorem ld (d : VReg) (a : LSrc) (h : HSel) : Statement (.ld d a h) := holds _
theorem lde (d : VReg) (a : LSrc) (h : HSel) : Statement (.lde d a h) := holds _
theorem ldnr (d : VReg) (a : LSrc) (h : HSel) : Statement (.ldnr d a h) := holds _
theorem st (d : LSrc) (a : LSrc) (h : HSel) : Statement (.st d a h) := holds _
theorem ste (d : LSrc) (a : LSrc) (h : HSel) : Statement (.ste d a h) := holds _
theorem stnt (d : LSrc) (a : LSrc) (h : HSel) : Statement (.stnt d a h) := holds _
theorem pst (h2 : Slot) (d : LSrc) (a : LSrc) (h : HSel) : Statement (.pst h2 d a h) := holds _
theorem atom (op : AtomOp) (ord : MemOrd) (d : VReg) (a : LSrc) (h : HSel) : Statement (.atom op ord d a h) := holds _
theorem atomr (op : AtomOp) (d : LSrc) (a : LSrc) (h : HSel) : Statement (.atomr op d a h) := holds _
theorem cas (ord : MemOrd) (d : VReg) (a : LSrc) (h : HSel) : Statement (.cas ord d a h) := holds _
theorem cas128 (ord : MemOrd) (d : VReg) (a : LSrc) (h : HSel) : Statement (.cas128 ord d a h) := holds _
theorem gath (nm1 : Fin 8) (men : Option MReg) (d : VReg) (a : LSrc) (h : HSel) : Statement (.gath nm1 men d a h) := holds _
theorem scat (nm1 : Fin 8) (men : Option MReg) (d : LSrc) (a : LSrc) (h : HSel) : Statement (.scat nm1 men d a h) := holds _
theorem sisect (ha : Slot) (hb : Slot) (out : Option Slot) (men : Option MReg) (d : VReg) (a : LSrc) (b : VReg) : Statement (.sisect ha hb out men d a b) := holds _
theorem kst (nl : Bool) (wide : Bool) (d : LSrc) (a : LSrc) (h : Slot) : Statement (.kst nl wide d a h) := holds _
theorem cpl (c : CopyWord) (d : LSrc) (a : LSrc) (b : LSrc) : Statement (.cpl c d a b) := holds _
theorem cpm (c : CopyWord) (tgt : Fin 16) (d : LSrc) (a : LSrc) (b : LSrc) : Statement (.cpm c tgt d a b) := holds _
theorem mmq (w : MatWord) (d : LSrc) (a : LSrc) (b : LSrc) : Statement (.mmq w d a b) := holds _
theorem mmt (w : MatWord) (team : Fin 8) (d : LSrc) (a : LSrc) (b : LSrc) : Statement (.mmt w team d a b) := holds _
theorem accrd (mm1 : Fin 32) (d : VReg) (a : LSrc) (b : LSrc) : Statement (.accrd mm1 d a b) := holds _
theorem accwr (mm1 : Fin 32) (d : LSrc) (a : LSrc) (b : LSrc) : Statement (.accwr mm1 d a b) := holds _
theorem accpatch (add : Bool) (d : LSrc) (a : LSrc) (m : MReg) : Statement (.accpatch add d a m) := holds _
theorem kgath (kh : Slot) (oh : Slot) (p : Fin 13) (msk : Option MReg) (capm1 : Fin 2048) (d : LSrc) (a : LSrc) (b : LSrc) : Statement (.kgath kh oh p msk capm1 d a b) := holds _
theorem bra (disp : BitVec 16) : Statement (.bra disp) := holds _
theorem braKernelAbsolute (off : Word) : Statement (.braKernelAbsolute off) := holds _
theorem brm (m : MReg) (disp : BitVec 16) : Statement (.brm m disp) := holds _
theorem brmn (m : MReg) (disp : BitVec 16) : Statement (.brmn m disp) := holds _
theorem brz (d : LSrc) (disp : BitVec 16) : Statement (.brz d disp) := holds _
theorem brnz (d : LSrc) (disp : BitVec 16) : Statement (.brnz d disp) := holds _
theorem call (disp : BitVec 16) : Statement (.call disp) := holds _
theorem callKernelAbsolute (off : Word) : Statement (.callKernelAbsolute off) := holds _
theorem ret (a : LSrc) : Statement (.ret a) := holds _
theorem exit : Statement (.exit) := holds _
theorem trap (code : BitVec 16) : Statement (.trap code) := holds _
theorem sadd (sd : SReg) (sb : USrc) : Statement (.sadd sd sb) := holds _
theorem ssub (sd : SReg) (sb : USrc) : Statement (.ssub sd sb) := holds _
theorem smul (sd : SReg) (sb : USrc) : Statement (.smul sd sb) := holds _
theorem sand (sd : SReg) (sb : USrc) : Statement (.sand sd sb) := holds _
theorem sor (sd : SReg) (sb : USrc) : Statement (.sor sd sb) := holds _
theorem sxor (sd : SReg) (sb : USrc) : Statement (.sxor sd sb) := holds _
theorem sshl (sd : SReg) (sb : USrc) : Statement (.sshl sd sb) := holds _
theorem sshr (sd : SReg) (sb : USrc) : Statement (.sshr sd sb) := holds _
theorem ssar (sd : SReg) (sb : USrc) : Statement (.ssar sd sb) := holds _
theorem smin (sd : SReg) (sb : USrc) : Statement (.smin sd sb) := holds _
theorem smax (sd : SReg) (sb : USrc) : Statement (.smax sd sb) := holds _
theorem smov (sd : SReg) (sb : USrc) : Statement (.smov sd sb) := holds _
theorem sset (c : ICond) (sd : SReg) (sb : USrc) : Statement (.sset c sd sb) := holds _
theorem smovi (sd : SReg) (imm : BitVec 15) : Statement (.smovi sd imm) := holds _
theorem slui (sd : SReg) (imm : BitVec 15) : Statement (.slui sd imm) := holds _
theorem v2s (sd : SReg) (lane : Bool) (v : VReg) (x : Fin 64) : Statement (.v2s sd lane v x) := holds _
theorem sbra (disp : BitVec 15) : Statement (.sbra disp) := holds _
theorem sbz (c : SReg) (disp : BitVec 15) : Statement (.sbz c disp) := holds _
theorem sbnz (c : SReg) (disp : BitVec 15) : Statement (.sbnz c disp) := holds _
theorem qrd (q : Fin 8) (sb : USrc) : Statement (.qrd q sb) := holds _
theorem qst (q : Fin 8) (sb : USrc) : Statement (.qst q sb) := holds _
theorem idrd (sd : SReg) (sb : USrc) : Statement (.idrd sd sb) := holds _
theorem waitc (nld : Fin 64) (nst : Fin 64) (ncp : Fin 64) (ntl : Fin 64) : Statement (.waitc nld nst ncp ntl) := holds _
theorem fence (sc : Scope) : Statement (.fence sc) := holds _
theorem ntdrain (sc : Scope) : Statement (.ntdrain sc) := holds _
theorem ldu (acq : Option Scope) (wide : Bool) (sd : SReg) (sb : USrc) : Statement (.ldu acq wide sd sb) := holds _
theorem stu (rel : Option Scope) (wide : Bool) (sd : SReg) (sb : USrc) : Statement (.stu rel wide sd sb) := holds _
theorem fstat (sd : SReg) (sb : USrc) : Statement (.fstat sd sb) := holds _
theorem nop : Statement (.nop) := holds _
theorem nopLiteral (inSd : Bool) (inSb : Bool) (w : Word) : Statement (.nopLiteral inSd inSb w) := holds _
theorem hload (sd : SReg) (sb : USrc) (x : Slot) : Statement (.hload sd sb x) := holds _
theorem hadj (sd : SReg) (sb : USrc) (x : Slot) : Statement (.hadj sd sb x) := holds _
theorem hqry (sd : SReg) (sb : USrc) (x : Slot) : Statement (.hqry sd sb x) := holds _
theorem binit (sd : USrc) (sb : USrc) : Statement (.binit sd sb) := holds _
theorem barrive (ring : Bool) (exp : Bool) (sd : USrc) (sb : USrc) : Statement (.barrive ring exp sd sb) := holds _
theorem bexpect (ring : Bool) (sd : USrc) (sb : USrc) : Statement (.bexpect ring sd sb) := holds _
theorem bwait (ring : Bool) (sd : USrc) (sb : USrc) : Statement (.bwait ring sd sb) := holds _
theorem btest (mode : BtMode) (ring : Bool) (sd : SReg) (sb : USrc) : Statement (.btest mode ring sd sb) := holds _
theorem rqenq (rel : Option Scope) (wide : Bool) (sd : SReg) (sb : USrc) : Statement (.rqenq rel wide sd sb) := holds _
theorem rqdeq (acq : Option Scope) (wide : Bool) (sd : SReg) (sb : USrc) : Statement (.rqdeq acq wide sd sb) := holds _
theorem pgreq (sd : SReg) (sb : USrc) (x : Slot) : Statement (.pgreq sd sb x) := holds _
theorem pfh (sd : SReg) (sb : USrc) (x : Slot) : Statement (.pfh sd sb x) := holds _
theorem dsld (sd : SReg) (sb : USrc) (d : Fin 16) : Statement (.dsld sd sb d) := holds _
theorem gnld (sd : SReg) (sb : USrc) (g : Fin 8) : Statement (.gnld sd sb g) := holds _
theorem bld (t : Bool) (nt : Bool) (sd : SReg) (sb : USrc) (x : Slot) : Statement (.bld t nt sd sb x) := holds _
theorem bfree (sb : USrc) : Statement (.bfree sb) := holds _
theorem accz (sd : USrc) (sb : USrc) : Statement (.accz sd sb) := holds _
theorem accst (rowsm1 : Fin 2048) (r : Rnd) (sat : Bool) (sd : USrc) (sb : USrc) (x : Slot) : Statement (.accst rowsm1 r sat sd sb x) := holds _
theorem ksinit (gn : Fin 8) (psc : Scope) (clog : Fin 3) (bb : Fin 9) (d128 : Bool) (sd : SReg) (sb : USrc) (x : Slot) : Statement (.ksinit gn psc clog bb d128 sd sb x) := holds _
theorem launch (after : Bool) (sd : SReg) (sb : USrc) : Statement (.launch after sd sb) := holds _
theorem tapepush (endF : Bool) (sd : SReg) (sb : USrc) : Statement (.tapepush endF sd sb) := holds _
theorem tret (skip : Bool) : Statement (.tret skip) := holds _
theorem tfrd (sd : SReg) (sb : USrc) : Statement (.tfrd sd sb) := holds _
theorem tfwr (sd : SReg) (sb : USrc) : Statement (.tfwr sd sb) := holds _
theorem watchLoad (w : Fin 8) (sb : USrc) : Statement (.watchLoad w sb) := holds _
theorem watchStore (w : Fin 8) (sb : USrc) : Statement (.watchStore w sb) := holds _
theorem watchClr (w : Fin 8) : Statement (.watchClr w) := holds _
theorem gend (rcd : Bool) : Statement (.gend rcd) := holds _
theorem teamTrap (g : GKey) : Statement (.teamTrap g) := holds _
theorem loadComplete (op : Nat) : Statement (.loadComplete op) := holds _
theorem storeRetire (g : GKey) : Statement (.storeRetire g) := holds _
theorem ntStoreWrite (core : Nat) (idx : Nat) : Statement (.ntStoreWrite core idx) := holds _
theorem atomicPerform (op : Nat) (req : Nat) : Statement (.atomicPerform op req) := holds _
theorem copySectorLand (op : Nat) (sector : Nat) : Statement (.copySectorLand op sector) := holds _
theorem presenceUnpark (g : GKey) (pc : DWord) : Statement (.presenceUnpark g pc) := holds _
theorem migrationUnpark (g : GKey) (pc : DWord) : Statement (.migrationUnpark g pc) := holds _
theorem bwaitReturn (g : GKey) (pc : DWord) : Statement (.bwaitReturn g pc) := holds _
theorem waitcReturn (g : GKey) (pc : DWord) : Statement (.waitcReturn g pc) := holds _
theorem ntdrainReturn (g : GKey) (pc : DWord) : Statement (.ntdrainReturn g pc) := holds _
theorem fenceComplete (g : GKey) (pc : DWord) : Statement (.fenceComplete g pc) := holds _
theorem bldLoadComplete (op : Nat) : Statement (.bldLoadComplete op) := holds _
theorem reservationGrant (cluster : Nat) (fused : List Nat) : Statement (.reservationGrant cluster fused) := holds _
theorem reservationAged (cluster : Nat) (entry : Nat) : Statement (.reservationAged cluster entry) := holds _
theorem matrixPassComplete (cluster : Nat) : Statement (.matrixPassComplete cluster) := holds _
theorem hatArrive (cluster : Nat) : Statement (.hatArrive cluster) := holds _
theorem burstEnd (cluster : Nat) : Statement (.burstEnd cluster) := holds _
theorem accOpComplete (op : Nat) : Statement (.accOpComplete op) := holds _
theorem accstComplete (op : Nat) : Statement (.accstComplete op) := holds _
theorem kstRowPerformed (op : Nat) : Statement (.kstRowPerformed op) := holds _
theorem ksClaim (op : Nat) : Statement (.ksClaim op) := holds _
theorem ksPublish (op : Nat) : Statement (.ksPublish op) := holds _
theorem kgathWalk (op : Nat) : Statement (.kgathWalk op) := holds _
theorem gathComplete (op : Nat) : Statement (.gathComplete op) := holds _
theorem scatWrite (op : Nat) : Statement (.scatWrite op) := holds _
theorem sisectRun (op : Nat) : Statement (.sisectRun op) := holds _
theorem collectorDispatch (core : Nat) (line : Nat) : Statement (.collectorDispatch core line) := holds _
theorem collectorLineServed (core : Nat) (line : Nat) : Statement (.collectorLineServed core line) := holds _
theorem pgreqWalk (op : Nat) : Statement (.pgreqWalk op) := holds _
theorem residencyComplete (req : Nat) : Statement (.residencyComplete req) := holds _
theorem translationUpdateComplete (upd : Nat) : Statement (.translationUpdateComplete upd) := holds _
theorem launchPost (addr : DWord) : Statement (.launchPost addr) := holds _
theorem launchTake : Statement (.launchTake) := holds _
theorem workgroupPlace (core : Nat) : Statement (.workgroupPlace core) := holds _
theorem preempt : Statement (.preempt) := holds _
theorem sliceExpiry (launch : Nat) : Statement (.sliceExpiry launch) := holds _
theorem preemptSave (wg : Nat) : Statement (.preemptSave wg) := holds _
theorem restore (wg : Nat) (core : Nat) : Statement (.restore wg core) := holds _
theorem groupEnd (g : GKey) : Statement (.groupEnd g) := holds _
theorem launchComplete (launch : Nat) : Statement (.launchComplete launch) := holds _
theorem issueSlotPromote (core : Nat) (part : Nat) (slot : Nat) : Statement (.issueSlotPromote core part slot) := holds _
theorem l2PortPromote (req : Nat) : Statement (.l2PortPromote req) := holds _
theorem softError (at' : PoisonLoc) : Statement (.softError at') := holds _
theorem hostRead (pa : Nat) (len : Nat) (key : Nat) : Statement (.hostRead pa len key) := holds _
theorem hostWrite (pa : Nat) (bytes : List Byte) (key : Nat) : Statement (.hostWrite pa bytes key) := holds _
theorem hostAtomic (a : HostAtomic) : Statement (.hostAtomic a) := holds _
theorem flush (slot : Slot) : Statement (.flush slot) := holds _
theorem xupd (slot : Slot) : Statement (.xupd slot) := holds _
theorem resolve (slot : Slot) : Statement (.resolve slot) := holds _
theorem trapgo (slot : Slot) : Statement (.trapgo slot) := holds _
theorem keyld (slot : Slot) : Statement (.keyld slot) := holds _
theorem keyclr (slot : Slot) : Statement (.keyclr slot) := holds _
theorem tapego (slot : Slot) : Statement (.tapego slot) := holds _
theorem stepgo (slot : Slot) : Statement (.stepgo slot) := holds _
theorem recclr (slot : Slot) : Statement (.recclr slot) := holds _
theorem commandInvalid (slot : Slot) : Statement (.commandInvalid slot) := holds _
theorem nqheadWrite (v : Word) : Statement (.nqheadWrite v) := holds _
theorem nqConfigWrite (base : DWord) (log : BitVec 8) : Statement (.nqConfigWrite base log) := holds _
theorem capwWrite (v : BitVec 16) : Statement (.capwWrite v) := holds _
theorem modeWrite (v : BitVec 5) : Statement (.modeWrite v) := holds _
theorem mcbWrite (f : McbField) (v : DWord) : Statement (.mcbWrite f v) := holds _
theorem flitCrcFail (port : Fin 18) : Statement (.flitCrcFail port) := holds _
theorem portDown (port : Fin 18) : Statement (.portDown port) := holds _
theorem vcPause (port : Fin 18) (vc : Fin 4) : Statement (.vcPause port vc) := holds _
theorem vcRelease (port : Fin 18) (vc : Fin 4) : Statement (.vcRelease port vc) := holds _
theorem flitPromote (port : Fin 18) (flit : Nat) : Statement (.flitPromote port flit) := holds _
theorem start (env : StartEnv) : Statement (.start env) := holds _
theorem thermalTick (junctions : List Nat) : Statement (.thermalTick junctions) := holds _
theorem thermalTrip (junctions : List Nat) : Statement (.thermalTrip junctions) := holds _
theorem illegalEncoding (w : Word) : Statement (.illegalEncoding w) := holds _
theorem fetchFault : Statement (.fetchFault) := holds _

end Sys2Proof.Laws.Len
end

