-- ==== Sys2Proof/Laws/State.lean ====
section
/-! SUPPORT. What each update of a table of the state leaves alone, field by field. -/

namespace Sys2Proof.Machine

@[simp] theorem setGroup_at_turns (s : State) (x : Group) : (setGroup s x).turns = s.turns := rfl
@[simp] theorem setGroup_at_focus (s : State) (x : Group) : (setGroup s x).focus = s.focus := rfl
@[simp] theorem setGroup_at_free (s : State) (x : Group) : (setGroup s x).free = s.free := rfl
@[simp] theorem setGroup_at_clock (s : State) (x : Group) : (setGroup s x).clock = s.clock := rfl
@[simp] theorem setGroup_at_seq (s : State) (x : Group) : (setGroup s x).seq = s.seq := rfl
@[simp] theorem setGroup_at_mem (s : State) (x : Group) : (setGroup s x).mem = s.mem := rfl
@[simp] theorem setGroup_at_xmem (s : State) (x : Group) : (setGroup s x).xmem = s.xmem := rfl
@[simp] theorem setGroup_at_lineKeys (s : State) (x : Group) : (setGroup s x).lineKeys = s.lineKeys := rfl
@[simp] theorem setGroup_at_keys (s : State) (x : Group) : (setGroup s x).keys = s.keys := rfl
@[simp] theorem setGroup_at_msc (s : State) (x : Group) : (setGroup s x).msc = s.msc := rfl
@[simp] theorem setGroup_at_poison (s : State) (x : Group) : (setGroup s x).poison = s.poison := rfl
@[simp] theorem setGroup_at_wgs (s : State) (x : Group) : (setGroup s x).wgs = s.wgs := rfl
@[simp] theorem setGroup_at_ops (s : State) (x : Group) : (setGroup s x).ops = s.ops := rfl
@[simp] theorem setGroup_at_hits (s : State) (x : Group) : (setGroup s x).hits = s.hits := rfl
@[simp] theorem setGroup_at_clusters (s : State) (x : Group) : (setGroup s x).clusters = s.clusters := rfl
@[simp] theorem setGroup_at_cores (s : State) (x : Group) : (setGroup s x).cores = s.cores := rfl
@[simp] theorem setGroup_at_l2 (s : State) (x : Group) : (setGroup s x).l2 = s.l2 := rfl
@[simp] theorem setGroup_at_issueSlots (s : State) (x : Group) : (setGroup s x).issueSlots = s.issueSlots := rfl
@[simp] theorem setGroup_at_ports (s : State) (x : Group) : (setGroup s x).ports = s.ports := rfl
@[simp] theorem setGroup_at_thermal (s : State) (x : Group) : (setGroup s x).thermal = s.thermal := rfl
@[simp] theorem setGroup_at_powered (s : State) (x : Group) : (setGroup s x).powered = s.powered := rfl
@[simp] theorem setGroup_at_launches (s : State) (x : Group) : (setGroup s x).launches = s.launches := rfl
@[simp] theorem setGroup_at_queued (s : State) (x : Group) : (setGroup s x).queued = s.queued := rfl
@[simp] theorem setGroup_at_reqs (s : State) (x : Group) : (setGroup s x).reqs = s.reqs := rfl
@[simp] theorem setGroup_at_xupds (s : State) (x : Group) : (setGroup s x).xupds = s.xupds := rfl
@[simp] theorem setGroup_at_held (s : State) (x : Group) : (setGroup s x).held = s.held := rfl
@[simp] theorem setGroup_at_mcb (s : State) (x : Group) : (setGroup s x).mcb = s.mcb := rfl
@[simp] theorem setGroup_at_cmds (s : State) (x : Group) : (setGroup s x).cmds = s.cmds := rfl
@[simp] theorem setGroup_at_reply (s : State) (x : Group) : (setGroup s x).reply = s.reply := rfl
@[simp] theorem setGroup_at_link (s : State) (x : Group) : (setGroup s x).link = s.link := rfl
@[simp] theorem setGroup_at_boot (s : State) (x : Group) : (setGroup s x).boot = s.boot := rfl

@[simp] theorem updGroup_at_turns (s : State) (k : GKey) (f : Group → Group) : (updGroup s k f).turns = s.turns := rfl
@[simp] theorem updGroup_at_focus (s : State) (k : GKey) (f : Group → Group) : (updGroup s k f).focus = s.focus := rfl
@[simp] theorem updGroup_at_free (s : State) (k : GKey) (f : Group → Group) : (updGroup s k f).free = s.free := rfl
@[simp] theorem updGroup_at_clock (s : State) (k : GKey) (f : Group → Group) : (updGroup s k f).clock = s.clock := rfl
@[simp] theorem updGroup_at_seq (s : State) (k : GKey) (f : Group → Group) : (updGroup s k f).seq = s.seq := rfl
@[simp] theorem updGroup_at_mem (s : State) (k : GKey) (f : Group → Group) : (updGroup s k f).mem = s.mem := rfl
@[simp] theorem updGroup_at_xmem (s : State) (k : GKey) (f : Group → Group) : (updGroup s k f).xmem = s.xmem := rfl
@[simp] theorem updGroup_at_lineKeys (s : State) (k : GKey) (f : Group → Group) : (updGroup s k f).lineKeys = s.lineKeys := rfl
@[simp] theorem updGroup_at_keys (s : State) (k : GKey) (f : Group → Group) : (updGroup s k f).keys = s.keys := rfl
@[simp] theorem updGroup_at_msc (s : State) (k : GKey) (f : Group → Group) : (updGroup s k f).msc = s.msc := rfl
@[simp] theorem updGroup_at_poison (s : State) (k : GKey) (f : Group → Group) : (updGroup s k f).poison = s.poison := rfl
@[simp] theorem updGroup_at_wgs (s : State) (k : GKey) (f : Group → Group) : (updGroup s k f).wgs = s.wgs := rfl
@[simp] theorem updGroup_at_ops (s : State) (k : GKey) (f : Group → Group) : (updGroup s k f).ops = s.ops := rfl
@[simp] theorem updGroup_at_hits (s : State) (k : GKey) (f : Group → Group) : (updGroup s k f).hits = s.hits := rfl
@[simp] theorem updGroup_at_clusters (s : State) (k : GKey) (f : Group → Group) : (updGroup s k f).clusters = s.clusters := rfl
@[simp] theorem updGroup_at_cores (s : State) (k : GKey) (f : Group → Group) : (updGroup s k f).cores = s.cores := rfl
@[simp] theorem updGroup_at_l2 (s : State) (k : GKey) (f : Group → Group) : (updGroup s k f).l2 = s.l2 := rfl
@[simp] theorem updGroup_at_issueSlots (s : State) (k : GKey) (f : Group → Group) : (updGroup s k f).issueSlots = s.issueSlots := rfl
@[simp] theorem updGroup_at_ports (s : State) (k : GKey) (f : Group → Group) : (updGroup s k f).ports = s.ports := rfl
@[simp] theorem updGroup_at_thermal (s : State) (k : GKey) (f : Group → Group) : (updGroup s k f).thermal = s.thermal := rfl
@[simp] theorem updGroup_at_powered (s : State) (k : GKey) (f : Group → Group) : (updGroup s k f).powered = s.powered := rfl
@[simp] theorem updGroup_at_launches (s : State) (k : GKey) (f : Group → Group) : (updGroup s k f).launches = s.launches := rfl
@[simp] theorem updGroup_at_queued (s : State) (k : GKey) (f : Group → Group) : (updGroup s k f).queued = s.queued := rfl
@[simp] theorem updGroup_at_reqs (s : State) (k : GKey) (f : Group → Group) : (updGroup s k f).reqs = s.reqs := rfl
@[simp] theorem updGroup_at_xupds (s : State) (k : GKey) (f : Group → Group) : (updGroup s k f).xupds = s.xupds := rfl
@[simp] theorem updGroup_at_held (s : State) (k : GKey) (f : Group → Group) : (updGroup s k f).held = s.held := rfl
@[simp] theorem updGroup_at_mcb (s : State) (k : GKey) (f : Group → Group) : (updGroup s k f).mcb = s.mcb := rfl
@[simp] theorem updGroup_at_cmds (s : State) (k : GKey) (f : Group → Group) : (updGroup s k f).cmds = s.cmds := rfl
@[simp] theorem updGroup_at_reply (s : State) (k : GKey) (f : Group → Group) : (updGroup s k f).reply = s.reply := rfl
@[simp] theorem updGroup_at_link (s : State) (k : GKey) (f : Group → Group) : (updGroup s k f).link = s.link := rfl
@[simp] theorem updGroup_at_boot (s : State) (k : GKey) (f : Group → Group) : (updGroup s k f).boot = s.boot := rfl

@[simp] theorem updWg_at_turns (s : State) (u : Nat) (f : Wg → Wg) : (updWg s u f).turns = s.turns := rfl
@[simp] theorem updWg_at_focus (s : State) (u : Nat) (f : Wg → Wg) : (updWg s u f).focus = s.focus := rfl
@[simp] theorem updWg_at_free (s : State) (u : Nat) (f : Wg → Wg) : (updWg s u f).free = s.free := rfl
@[simp] theorem updWg_at_clock (s : State) (u : Nat) (f : Wg → Wg) : (updWg s u f).clock = s.clock := rfl
@[simp] theorem updWg_at_seq (s : State) (u : Nat) (f : Wg → Wg) : (updWg s u f).seq = s.seq := rfl
@[simp] theorem updWg_at_mem (s : State) (u : Nat) (f : Wg → Wg) : (updWg s u f).mem = s.mem := rfl
@[simp] theorem updWg_at_xmem (s : State) (u : Nat) (f : Wg → Wg) : (updWg s u f).xmem = s.xmem := rfl
@[simp] theorem updWg_at_lineKeys (s : State) (u : Nat) (f : Wg → Wg) : (updWg s u f).lineKeys = s.lineKeys := rfl
@[simp] theorem updWg_at_keys (s : State) (u : Nat) (f : Wg → Wg) : (updWg s u f).keys = s.keys := rfl
@[simp] theorem updWg_at_msc (s : State) (u : Nat) (f : Wg → Wg) : (updWg s u f).msc = s.msc := rfl
@[simp] theorem updWg_at_poison (s : State) (u : Nat) (f : Wg → Wg) : (updWg s u f).poison = s.poison := rfl
@[simp] theorem updWg_at_groups (s : State) (u : Nat) (f : Wg → Wg) : (updWg s u f).groups = s.groups := rfl
@[simp] theorem updWg_at_ops (s : State) (u : Nat) (f : Wg → Wg) : (updWg s u f).ops = s.ops := rfl
@[simp] theorem updWg_at_hits (s : State) (u : Nat) (f : Wg → Wg) : (updWg s u f).hits = s.hits := rfl
@[simp] theorem updWg_at_clusters (s : State) (u : Nat) (f : Wg → Wg) : (updWg s u f).clusters = s.clusters := rfl
@[simp] theorem updWg_at_cores (s : State) (u : Nat) (f : Wg → Wg) : (updWg s u f).cores = s.cores := rfl
@[simp] theorem updWg_at_l2 (s : State) (u : Nat) (f : Wg → Wg) : (updWg s u f).l2 = s.l2 := rfl
@[simp] theorem updWg_at_issueSlots (s : State) (u : Nat) (f : Wg → Wg) : (updWg s u f).issueSlots = s.issueSlots := rfl
@[simp] theorem updWg_at_ports (s : State) (u : Nat) (f : Wg → Wg) : (updWg s u f).ports = s.ports := rfl
@[simp] theorem updWg_at_thermal (s : State) (u : Nat) (f : Wg → Wg) : (updWg s u f).thermal = s.thermal := rfl
@[simp] theorem updWg_at_powered (s : State) (u : Nat) (f : Wg → Wg) : (updWg s u f).powered = s.powered := rfl
@[simp] theorem updWg_at_launches (s : State) (u : Nat) (f : Wg → Wg) : (updWg s u f).launches = s.launches := rfl
@[simp] theorem updWg_at_queued (s : State) (u : Nat) (f : Wg → Wg) : (updWg s u f).queued = s.queued := rfl
@[simp] theorem updWg_at_reqs (s : State) (u : Nat) (f : Wg → Wg) : (updWg s u f).reqs = s.reqs := rfl
@[simp] theorem updWg_at_xupds (s : State) (u : Nat) (f : Wg → Wg) : (updWg s u f).xupds = s.xupds := rfl
@[simp] theorem updWg_at_held (s : State) (u : Nat) (f : Wg → Wg) : (updWg s u f).held = s.held := rfl
@[simp] theorem updWg_at_mcb (s : State) (u : Nat) (f : Wg → Wg) : (updWg s u f).mcb = s.mcb := rfl
@[simp] theorem updWg_at_cmds (s : State) (u : Nat) (f : Wg → Wg) : (updWg s u f).cmds = s.cmds := rfl
@[simp] theorem updWg_at_reply (s : State) (u : Nat) (f : Wg → Wg) : (updWg s u f).reply = s.reply := rfl
@[simp] theorem updWg_at_link (s : State) (u : Nat) (f : Wg → Wg) : (updWg s u f).link = s.link := rfl
@[simp] theorem updWg_at_boot (s : State) (u : Nat) (f : Wg → Wg) : (updWg s u f).boot = s.boot := rfl

@[simp] theorem updLaunch_at_turns (s : State) (u : Nat) (f : Launch → Launch) : (updLaunch s u f).turns = s.turns := rfl
@[simp] theorem updLaunch_at_focus (s : State) (u : Nat) (f : Launch → Launch) : (updLaunch s u f).focus = s.focus := rfl
@[simp] theorem updLaunch_at_free (s : State) (u : Nat) (f : Launch → Launch) : (updLaunch s u f).free = s.free := rfl
@[simp] theorem updLaunch_at_clock (s : State) (u : Nat) (f : Launch → Launch) : (updLaunch s u f).clock = s.clock := rfl
@[simp] theorem updLaunch_at_seq (s : State) (u : Nat) (f : Launch → Launch) : (updLaunch s u f).seq = s.seq := rfl
@[simp] theorem updLaunch_at_mem (s : State) (u : Nat) (f : Launch → Launch) : (updLaunch s u f).mem = s.mem := rfl
@[simp] theorem updLaunch_at_xmem (s : State) (u : Nat) (f : Launch → Launch) : (updLaunch s u f).xmem = s.xmem := rfl
@[simp] theorem updLaunch_at_lineKeys (s : State) (u : Nat) (f : Launch → Launch) : (updLaunch s u f).lineKeys = s.lineKeys := rfl
@[simp] theorem updLaunch_at_keys (s : State) (u : Nat) (f : Launch → Launch) : (updLaunch s u f).keys = s.keys := rfl
@[simp] theorem updLaunch_at_msc (s : State) (u : Nat) (f : Launch → Launch) : (updLaunch s u f).msc = s.msc := rfl
@[simp] theorem updLaunch_at_poison (s : State) (u : Nat) (f : Launch → Launch) : (updLaunch s u f).poison = s.poison := rfl
@[simp] theorem updLaunch_at_groups (s : State) (u : Nat) (f : Launch → Launch) : (updLaunch s u f).groups = s.groups := rfl
@[simp] theorem updLaunch_at_wgs (s : State) (u : Nat) (f : Launch → Launch) : (updLaunch s u f).wgs = s.wgs := rfl
@[simp] theorem updLaunch_at_ops (s : State) (u : Nat) (f : Launch → Launch) : (updLaunch s u f).ops = s.ops := rfl
@[simp] theorem updLaunch_at_hits (s : State) (u : Nat) (f : Launch → Launch) : (updLaunch s u f).hits = s.hits := rfl
@[simp] theorem updLaunch_at_clusters (s : State) (u : Nat) (f : Launch → Launch) : (updLaunch s u f).clusters = s.clusters := rfl
@[simp] theorem updLaunch_at_cores (s : State) (u : Nat) (f : Launch → Launch) : (updLaunch s u f).cores = s.cores := rfl
@[simp] theorem updLaunch_at_l2 (s : State) (u : Nat) (f : Launch → Launch) : (updLaunch s u f).l2 = s.l2 := rfl
@[simp] theorem updLaunch_at_issueSlots (s : State) (u : Nat) (f : Launch → Launch) : (updLaunch s u f).issueSlots = s.issueSlots := rfl
@[simp] theorem updLaunch_at_ports (s : State) (u : Nat) (f : Launch → Launch) : (updLaunch s u f).ports = s.ports := rfl
@[simp] theorem updLaunch_at_thermal (s : State) (u : Nat) (f : Launch → Launch) : (updLaunch s u f).thermal = s.thermal := rfl
@[simp] theorem updLaunch_at_powered (s : State) (u : Nat) (f : Launch → Launch) : (updLaunch s u f).powered = s.powered := rfl
@[simp] theorem updLaunch_at_queued (s : State) (u : Nat) (f : Launch → Launch) : (updLaunch s u f).queued = s.queued := rfl
@[simp] theorem updLaunch_at_reqs (s : State) (u : Nat) (f : Launch → Launch) : (updLaunch s u f).reqs = s.reqs := rfl
@[simp] theorem updLaunch_at_xupds (s : State) (u : Nat) (f : Launch → Launch) : (updLaunch s u f).xupds = s.xupds := rfl
@[simp] theorem updLaunch_at_held (s : State) (u : Nat) (f : Launch → Launch) : (updLaunch s u f).held = s.held := rfl
@[simp] theorem updLaunch_at_mcb (s : State) (u : Nat) (f : Launch → Launch) : (updLaunch s u f).mcb = s.mcb := rfl
@[simp] theorem updLaunch_at_cmds (s : State) (u : Nat) (f : Launch → Launch) : (updLaunch s u f).cmds = s.cmds := rfl
@[simp] theorem updLaunch_at_reply (s : State) (u : Nat) (f : Launch → Launch) : (updLaunch s u f).reply = s.reply := rfl
@[simp] theorem updLaunch_at_link (s : State) (u : Nat) (f : Launch → Launch) : (updLaunch s u f).link = s.link := rfl
@[simp] theorem updLaunch_at_boot (s : State) (u : Nat) (f : Launch → Launch) : (updLaunch s u f).boot = s.boot := rfl

@[simp] theorem updOp_at_turns (s : State) (i : Nat) (f : Op → Op) : (updOp s i f).turns = s.turns := rfl
@[simp] theorem updOp_at_focus (s : State) (i : Nat) (f : Op → Op) : (updOp s i f).focus = s.focus := rfl
@[simp] theorem updOp_at_free (s : State) (i : Nat) (f : Op → Op) : (updOp s i f).free = s.free := rfl
@[simp] theorem updOp_at_clock (s : State) (i : Nat) (f : Op → Op) : (updOp s i f).clock = s.clock := rfl
@[simp] theorem updOp_at_seq (s : State) (i : Nat) (f : Op → Op) : (updOp s i f).seq = s.seq := rfl
@[simp] theorem updOp_at_mem (s : State) (i : Nat) (f : Op → Op) : (updOp s i f).mem = s.mem := rfl
@[simp] theorem updOp_at_xmem (s : State) (i : Nat) (f : Op → Op) : (updOp s i f).xmem = s.xmem := rfl
@[simp] theorem updOp_at_lineKeys (s : State) (i : Nat) (f : Op → Op) : (updOp s i f).lineKeys = s.lineKeys := rfl
@[simp] theorem updOp_at_keys (s : State) (i : Nat) (f : Op → Op) : (updOp s i f).keys = s.keys := rfl
@[simp] theorem updOp_at_msc (s : State) (i : Nat) (f : Op → Op) : (updOp s i f).msc = s.msc := rfl
@[simp] theorem updOp_at_poison (s : State) (i : Nat) (f : Op → Op) : (updOp s i f).poison = s.poison := rfl
@[simp] theorem updOp_at_groups (s : State) (i : Nat) (f : Op → Op) : (updOp s i f).groups = s.groups := rfl
@[simp] theorem updOp_at_wgs (s : State) (i : Nat) (f : Op → Op) : (updOp s i f).wgs = s.wgs := rfl
@[simp] theorem updOp_at_hits (s : State) (i : Nat) (f : Op → Op) : (updOp s i f).hits = s.hits := rfl
@[simp] theorem updOp_at_clusters (s : State) (i : Nat) (f : Op → Op) : (updOp s i f).clusters = s.clusters := rfl
@[simp] theorem updOp_at_cores (s : State) (i : Nat) (f : Op → Op) : (updOp s i f).cores = s.cores := rfl
@[simp] theorem updOp_at_l2 (s : State) (i : Nat) (f : Op → Op) : (updOp s i f).l2 = s.l2 := rfl
@[simp] theorem updOp_at_issueSlots (s : State) (i : Nat) (f : Op → Op) : (updOp s i f).issueSlots = s.issueSlots := rfl
@[simp] theorem updOp_at_ports (s : State) (i : Nat) (f : Op → Op) : (updOp s i f).ports = s.ports := rfl
@[simp] theorem updOp_at_thermal (s : State) (i : Nat) (f : Op → Op) : (updOp s i f).thermal = s.thermal := rfl
@[simp] theorem updOp_at_powered (s : State) (i : Nat) (f : Op → Op) : (updOp s i f).powered = s.powered := rfl
@[simp] theorem updOp_at_launches (s : State) (i : Nat) (f : Op → Op) : (updOp s i f).launches = s.launches := rfl
@[simp] theorem updOp_at_queued (s : State) (i : Nat) (f : Op → Op) : (updOp s i f).queued = s.queued := rfl
@[simp] theorem updOp_at_reqs (s : State) (i : Nat) (f : Op → Op) : (updOp s i f).reqs = s.reqs := rfl
@[simp] theorem updOp_at_xupds (s : State) (i : Nat) (f : Op → Op) : (updOp s i f).xupds = s.xupds := rfl
@[simp] theorem updOp_at_held (s : State) (i : Nat) (f : Op → Op) : (updOp s i f).held = s.held := rfl
@[simp] theorem updOp_at_mcb (s : State) (i : Nat) (f : Op → Op) : (updOp s i f).mcb = s.mcb := rfl
@[simp] theorem updOp_at_cmds (s : State) (i : Nat) (f : Op → Op) : (updOp s i f).cmds = s.cmds := rfl
@[simp] theorem updOp_at_reply (s : State) (i : Nat) (f : Op → Op) : (updOp s i f).reply = s.reply := rfl
@[simp] theorem updOp_at_link (s : State) (i : Nat) (f : Op → Op) : (updOp s i f).link = s.link := rfl
@[simp] theorem updOp_at_boot (s : State) (i : Nat) (f : Op → Op) : (updOp s i f).boot = s.boot := rfl

@[simp] theorem setCore_at_turns (s : State) (c : Nat) (x : Core) : (setCore s c x).turns = s.turns := rfl
@[simp] theorem setCore_at_focus (s : State) (c : Nat) (x : Core) : (setCore s c x).focus = s.focus := rfl
@[simp] theorem setCore_at_free (s : State) (c : Nat) (x : Core) : (setCore s c x).free = s.free := rfl
@[simp] theorem setCore_at_clock (s : State) (c : Nat) (x : Core) : (setCore s c x).clock = s.clock := rfl
@[simp] theorem setCore_at_seq (s : State) (c : Nat) (x : Core) : (setCore s c x).seq = s.seq := rfl
@[simp] theorem setCore_at_mem (s : State) (c : Nat) (x : Core) : (setCore s c x).mem = s.mem := rfl
@[simp] theorem setCore_at_xmem (s : State) (c : Nat) (x : Core) : (setCore s c x).xmem = s.xmem := rfl
@[simp] theorem setCore_at_lineKeys (s : State) (c : Nat) (x : Core) : (setCore s c x).lineKeys = s.lineKeys := rfl
@[simp] theorem setCore_at_keys (s : State) (c : Nat) (x : Core) : (setCore s c x).keys = s.keys := rfl
@[simp] theorem setCore_at_msc (s : State) (c : Nat) (x : Core) : (setCore s c x).msc = s.msc := rfl
@[simp] theorem setCore_at_poison (s : State) (c : Nat) (x : Core) : (setCore s c x).poison = s.poison := rfl
@[simp] theorem setCore_at_groups (s : State) (c : Nat) (x : Core) : (setCore s c x).groups = s.groups := rfl
@[simp] theorem setCore_at_wgs (s : State) (c : Nat) (x : Core) : (setCore s c x).wgs = s.wgs := rfl
@[simp] theorem setCore_at_ops (s : State) (c : Nat) (x : Core) : (setCore s c x).ops = s.ops := rfl
@[simp] theorem setCore_at_hits (s : State) (c : Nat) (x : Core) : (setCore s c x).hits = s.hits := rfl
@[simp] theorem setCore_at_clusters (s : State) (c : Nat) (x : Core) : (setCore s c x).clusters = s.clusters := rfl
@[simp] theorem setCore_at_l2 (s : State) (c : Nat) (x : Core) : (setCore s c x).l2 = s.l2 := rfl
@[simp] theorem setCore_at_issueSlots (s : State) (c : Nat) (x : Core) : (setCore s c x).issueSlots = s.issueSlots := rfl
@[simp] theorem setCore_at_ports (s : State) (c : Nat) (x : Core) : (setCore s c x).ports = s.ports := rfl
@[simp] theorem setCore_at_thermal (s : State) (c : Nat) (x : Core) : (setCore s c x).thermal = s.thermal := rfl
@[simp] theorem setCore_at_powered (s : State) (c : Nat) (x : Core) : (setCore s c x).powered = s.powered := rfl
@[simp] theorem setCore_at_launches (s : State) (c : Nat) (x : Core) : (setCore s c x).launches = s.launches := rfl
@[simp] theorem setCore_at_queued (s : State) (c : Nat) (x : Core) : (setCore s c x).queued = s.queued := rfl
@[simp] theorem setCore_at_reqs (s : State) (c : Nat) (x : Core) : (setCore s c x).reqs = s.reqs := rfl
@[simp] theorem setCore_at_xupds (s : State) (c : Nat) (x : Core) : (setCore s c x).xupds = s.xupds := rfl
@[simp] theorem setCore_at_held (s : State) (c : Nat) (x : Core) : (setCore s c x).held = s.held := rfl
@[simp] theorem setCore_at_mcb (s : State) (c : Nat) (x : Core) : (setCore s c x).mcb = s.mcb := rfl
@[simp] theorem setCore_at_cmds (s : State) (c : Nat) (x : Core) : (setCore s c x).cmds = s.cmds := rfl
@[simp] theorem setCore_at_reply (s : State) (c : Nat) (x : Core) : (setCore s c x).reply = s.reply := rfl
@[simp] theorem setCore_at_link (s : State) (c : Nat) (x : Core) : (setCore s c x).link = s.link := rfl
@[simp] theorem setCore_at_boot (s : State) (c : Nat) (x : Core) : (setCore s c x).boot = s.boot := rfl

@[simp] theorem setCluster_at_turns (s : State) (c : Nat) (x : Cluster) : (setCluster s c x).turns = s.turns := rfl
@[simp] theorem setCluster_at_focus (s : State) (c : Nat) (x : Cluster) : (setCluster s c x).focus = s.focus := rfl
@[simp] theorem setCluster_at_free (s : State) (c : Nat) (x : Cluster) : (setCluster s c x).free = s.free := rfl
@[simp] theorem setCluster_at_clock (s : State) (c : Nat) (x : Cluster) : (setCluster s c x).clock = s.clock := rfl
@[simp] theorem setCluster_at_seq (s : State) (c : Nat) (x : Cluster) : (setCluster s c x).seq = s.seq := rfl
@[simp] theorem setCluster_at_mem (s : State) (c : Nat) (x : Cluster) : (setCluster s c x).mem = s.mem := rfl
@[simp] theorem setCluster_at_xmem (s : State) (c : Nat) (x : Cluster) : (setCluster s c x).xmem = s.xmem := rfl
@[simp] theorem setCluster_at_lineKeys (s : State) (c : Nat) (x : Cluster) : (setCluster s c x).lineKeys = s.lineKeys := rfl
@[simp] theorem setCluster_at_keys (s : State) (c : Nat) (x : Cluster) : (setCluster s c x).keys = s.keys := rfl
@[simp] theorem setCluster_at_msc (s : State) (c : Nat) (x : Cluster) : (setCluster s c x).msc = s.msc := rfl
@[simp] theorem setCluster_at_poison (s : State) (c : Nat) (x : Cluster) : (setCluster s c x).poison = s.poison := rfl
@[simp] theorem setCluster_at_groups (s : State) (c : Nat) (x : Cluster) : (setCluster s c x).groups = s.groups := rfl
@[simp] theorem setCluster_at_wgs (s : State) (c : Nat) (x : Cluster) : (setCluster s c x).wgs = s.wgs := rfl
@[simp] theorem setCluster_at_ops (s : State) (c : Nat) (x : Cluster) : (setCluster s c x).ops = s.ops := rfl
@[simp] theorem setCluster_at_hits (s : State) (c : Nat) (x : Cluster) : (setCluster s c x).hits = s.hits := rfl
@[simp] theorem setCluster_at_cores (s : State) (c : Nat) (x : Cluster) : (setCluster s c x).cores = s.cores := rfl
@[simp] theorem setCluster_at_l2 (s : State) (c : Nat) (x : Cluster) : (setCluster s c x).l2 = s.l2 := rfl
@[simp] theorem setCluster_at_issueSlots (s : State) (c : Nat) (x : Cluster) : (setCluster s c x).issueSlots = s.issueSlots := rfl
@[simp] theorem setCluster_at_ports (s : State) (c : Nat) (x : Cluster) : (setCluster s c x).ports = s.ports := rfl
@[simp] theorem setCluster_at_thermal (s : State) (c : Nat) (x : Cluster) : (setCluster s c x).thermal = s.thermal := rfl
@[simp] theorem setCluster_at_powered (s : State) (c : Nat) (x : Cluster) : (setCluster s c x).powered = s.powered := rfl
@[simp] theorem setCluster_at_launches (s : State) (c : Nat) (x : Cluster) : (setCluster s c x).launches = s.launches := rfl
@[simp] theorem setCluster_at_queued (s : State) (c : Nat) (x : Cluster) : (setCluster s c x).queued = s.queued := rfl
@[simp] theorem setCluster_at_reqs (s : State) (c : Nat) (x : Cluster) : (setCluster s c x).reqs = s.reqs := rfl
@[simp] theorem setCluster_at_xupds (s : State) (c : Nat) (x : Cluster) : (setCluster s c x).xupds = s.xupds := rfl
@[simp] theorem setCluster_at_held (s : State) (c : Nat) (x : Cluster) : (setCluster s c x).held = s.held := rfl
@[simp] theorem setCluster_at_mcb (s : State) (c : Nat) (x : Cluster) : (setCluster s c x).mcb = s.mcb := rfl
@[simp] theorem setCluster_at_cmds (s : State) (c : Nat) (x : Cluster) : (setCluster s c x).cmds = s.cmds := rfl
@[simp] theorem setCluster_at_reply (s : State) (c : Nat) (x : Cluster) : (setCluster s c x).reply = s.reply := rfl
@[simp] theorem setCluster_at_link (s : State) (c : Nat) (x : Cluster) : (setCluster s c x).link = s.link := rfl
@[simp] theorem setCluster_at_boot (s : State) (c : Nat) (x : Cluster) : (setCluster s c x).boot = s.boot := rfl

@[simp] theorem freshId_at_turns (s : State) : ((freshId s).2).turns = s.turns := rfl
@[simp] theorem freshId_at_focus (s : State) : ((freshId s).2).focus = s.focus := rfl
@[simp] theorem freshId_at_free (s : State) : ((freshId s).2).free = s.free := rfl
@[simp] theorem freshId_at_clock (s : State) : ((freshId s).2).clock = s.clock := rfl
@[simp] theorem freshId_at_mem (s : State) : ((freshId s).2).mem = s.mem := rfl
@[simp] theorem freshId_at_xmem (s : State) : ((freshId s).2).xmem = s.xmem := rfl
@[simp] theorem freshId_at_lineKeys (s : State) : ((freshId s).2).lineKeys = s.lineKeys := rfl
@[simp] theorem freshId_at_keys (s : State) : ((freshId s).2).keys = s.keys := rfl
@[simp] theorem freshId_at_msc (s : State) : ((freshId s).2).msc = s.msc := rfl
@[simp] theorem freshId_at_poison (s : State) : ((freshId s).2).poison = s.poison := rfl
@[simp] theorem freshId_at_groups (s : State) : ((freshId s).2).groups = s.groups := rfl
@[simp] theorem freshId_at_wgs (s : State) : ((freshId s).2).wgs = s.wgs := rfl
@[simp] theorem freshId_at_ops (s : State) : ((freshId s).2).ops = s.ops := rfl
@[simp] theorem freshId_at_hits (s : State) : ((freshId s).2).hits = s.hits := rfl
@[simp] theorem freshId_at_clusters (s : State) : ((freshId s).2).clusters = s.clusters := rfl
@[simp] theorem freshId_at_cores (s : State) : ((freshId s).2).cores = s.cores := rfl
@[simp] theorem freshId_at_l2 (s : State) : ((freshId s).2).l2 = s.l2 := rfl
@[simp] theorem freshId_at_issueSlots (s : State) : ((freshId s).2).issueSlots = s.issueSlots := rfl
@[simp] theorem freshId_at_ports (s : State) : ((freshId s).2).ports = s.ports := rfl
@[simp] theorem freshId_at_thermal (s : State) : ((freshId s).2).thermal = s.thermal := rfl
@[simp] theorem freshId_at_powered (s : State) : ((freshId s).2).powered = s.powered := rfl
@[simp] theorem freshId_at_launches (s : State) : ((freshId s).2).launches = s.launches := rfl
@[simp] theorem freshId_at_queued (s : State) : ((freshId s).2).queued = s.queued := rfl
@[simp] theorem freshId_at_reqs (s : State) : ((freshId s).2).reqs = s.reqs := rfl
@[simp] theorem freshId_at_xupds (s : State) : ((freshId s).2).xupds = s.xupds := rfl
@[simp] theorem freshId_at_held (s : State) : ((freshId s).2).held = s.held := rfl
@[simp] theorem freshId_at_mcb (s : State) : ((freshId s).2).mcb = s.mcb := rfl
@[simp] theorem freshId_at_cmds (s : State) : ((freshId s).2).cmds = s.cmds := rfl
@[simp] theorem freshId_at_reply (s : State) : ((freshId s).2).reply = s.reply := rfl
@[simp] theorem freshId_at_link (s : State) : ((freshId s).2).link = s.link := rfl
@[simp] theorem freshId_at_boot (s : State) : ((freshId s).2).boot = s.boot := rfl

@[simp] theorem freshFree_at_turns (s : State) : ((freshFree s).2).turns = s.turns := rfl
@[simp] theorem freshFree_at_focus (s : State) : ((freshFree s).2).focus = s.focus := rfl
@[simp] theorem freshFree_at_clock (s : State) : ((freshFree s).2).clock = s.clock := rfl
@[simp] theorem freshFree_at_seq (s : State) : ((freshFree s).2).seq = s.seq := rfl
@[simp] theorem freshFree_at_mem (s : State) : ((freshFree s).2).mem = s.mem := rfl
@[simp] theorem freshFree_at_xmem (s : State) : ((freshFree s).2).xmem = s.xmem := rfl
@[simp] theorem freshFree_at_lineKeys (s : State) : ((freshFree s).2).lineKeys = s.lineKeys := rfl
@[simp] theorem freshFree_at_keys (s : State) : ((freshFree s).2).keys = s.keys := rfl
@[simp] theorem freshFree_at_msc (s : State) : ((freshFree s).2).msc = s.msc := rfl
@[simp] theorem freshFree_at_poison (s : State) : ((freshFree s).2).poison = s.poison := rfl
@[simp] theorem freshFree_at_groups (s : State) : ((freshFree s).2).groups = s.groups := rfl
@[simp] theorem freshFree_at_wgs (s : State) : ((freshFree s).2).wgs = s.wgs := rfl
@[simp] theorem freshFree_at_ops (s : State) : ((freshFree s).2).ops = s.ops := rfl
@[simp] theorem freshFree_at_hits (s : State) : ((freshFree s).2).hits = s.hits := rfl
@[simp] theorem freshFree_at_clusters (s : State) : ((freshFree s).2).clusters = s.clusters := rfl
@[simp] theorem freshFree_at_cores (s : State) : ((freshFree s).2).cores = s.cores := rfl
@[simp] theorem freshFree_at_l2 (s : State) : ((freshFree s).2).l2 = s.l2 := rfl
@[simp] theorem freshFree_at_issueSlots (s : State) : ((freshFree s).2).issueSlots = s.issueSlots := rfl
@[simp] theorem freshFree_at_ports (s : State) : ((freshFree s).2).ports = s.ports := rfl
@[simp] theorem freshFree_at_thermal (s : State) : ((freshFree s).2).thermal = s.thermal := rfl
@[simp] theorem freshFree_at_powered (s : State) : ((freshFree s).2).powered = s.powered := rfl
@[simp] theorem freshFree_at_launches (s : State) : ((freshFree s).2).launches = s.launches := rfl
@[simp] theorem freshFree_at_queued (s : State) : ((freshFree s).2).queued = s.queued := rfl
@[simp] theorem freshFree_at_reqs (s : State) : ((freshFree s).2).reqs = s.reqs := rfl
@[simp] theorem freshFree_at_xupds (s : State) : ((freshFree s).2).xupds = s.xupds := rfl
@[simp] theorem freshFree_at_held (s : State) : ((freshFree s).2).held = s.held := rfl
@[simp] theorem freshFree_at_mcb (s : State) : ((freshFree s).2).mcb = s.mcb := rfl
@[simp] theorem freshFree_at_cmds (s : State) : ((freshFree s).2).cmds = s.cmds := rfl
@[simp] theorem freshFree_at_reply (s : State) : ((freshFree s).2).reply = s.reply := rfl
@[simp] theorem freshFree_at_link (s : State) : ((freshFree s).2).link = s.link := rfl
@[simp] theorem freshFree_at_boot (s : State) : ((freshFree s).2).boot = s.boot := rfl

@[simp] theorem updMsc_at_turns (s : State) (b : Nat) (f : MscLine → MscLine) : (updMsc s b f).turns = s.turns := rfl
@[simp] theorem updMsc_at_focus (s : State) (b : Nat) (f : MscLine → MscLine) : (updMsc s b f).focus = s.focus := rfl
@[simp] theorem updMsc_at_free (s : State) (b : Nat) (f : MscLine → MscLine) : (updMsc s b f).free = s.free := rfl
@[simp] theorem updMsc_at_clock (s : State) (b : Nat) (f : MscLine → MscLine) : (updMsc s b f).clock = s.clock := rfl
@[simp] theorem updMsc_at_seq (s : State) (b : Nat) (f : MscLine → MscLine) : (updMsc s b f).seq = s.seq := rfl
@[simp] theorem updMsc_at_mem (s : State) (b : Nat) (f : MscLine → MscLine) : (updMsc s b f).mem = s.mem := rfl
@[simp] theorem updMsc_at_xmem (s : State) (b : Nat) (f : MscLine → MscLine) : (updMsc s b f).xmem = s.xmem := rfl
@[simp] theorem updMsc_at_lineKeys (s : State) (b : Nat) (f : MscLine → MscLine) : (updMsc s b f).lineKeys = s.lineKeys := rfl
@[simp] theorem updMsc_at_keys (s : State) (b : Nat) (f : MscLine → MscLine) : (updMsc s b f).keys = s.keys := rfl
@[simp] theorem updMsc_at_poison (s : State) (b : Nat) (f : MscLine → MscLine) : (updMsc s b f).poison = s.poison := rfl
@[simp] theorem updMsc_at_groups (s : State) (b : Nat) (f : MscLine → MscLine) : (updMsc s b f).groups = s.groups := rfl
@[simp] theorem updMsc_at_wgs (s : State) (b : Nat) (f : MscLine → MscLine) : (updMsc s b f).wgs = s.wgs := rfl
@[simp] theorem updMsc_at_ops (s : State) (b : Nat) (f : MscLine → MscLine) : (updMsc s b f).ops = s.ops := rfl
@[simp] theorem updMsc_at_hits (s : State) (b : Nat) (f : MscLine → MscLine) : (updMsc s b f).hits = s.hits := rfl
@[simp] theorem updMsc_at_clusters (s : State) (b : Nat) (f : MscLine → MscLine) : (updMsc s b f).clusters = s.clusters := rfl
@[simp] theorem updMsc_at_cores (s : State) (b : Nat) (f : MscLine → MscLine) : (updMsc s b f).cores = s.cores := rfl
@[simp] theorem updMsc_at_l2 (s : State) (b : Nat) (f : MscLine → MscLine) : (updMsc s b f).l2 = s.l2 := rfl
@[simp] theorem updMsc_at_issueSlots (s : State) (b : Nat) (f : MscLine → MscLine) : (updMsc s b f).issueSlots = s.issueSlots := rfl
@[simp] theorem updMsc_at_ports (s : State) (b : Nat) (f : MscLine → MscLine) : (updMsc s b f).ports = s.ports := rfl
@[simp] theorem updMsc_at_thermal (s : State) (b : Nat) (f : MscLine → MscLine) : (updMsc s b f).thermal = s.thermal := rfl
@[simp] theorem updMsc_at_powered (s : State) (b : Nat) (f : MscLine → MscLine) : (updMsc s b f).powered = s.powered := rfl
@[simp] theorem updMsc_at_launches (s : State) (b : Nat) (f : MscLine → MscLine) : (updMsc s b f).launches = s.launches := rfl
@[simp] theorem updMsc_at_queued (s : State) (b : Nat) (f : MscLine → MscLine) : (updMsc s b f).queued = s.queued := rfl
@[simp] theorem updMsc_at_reqs (s : State) (b : Nat) (f : MscLine → MscLine) : (updMsc s b f).reqs = s.reqs := rfl
@[simp] theorem updMsc_at_xupds (s : State) (b : Nat) (f : MscLine → MscLine) : (updMsc s b f).xupds = s.xupds := rfl
@[simp] theorem updMsc_at_held (s : State) (b : Nat) (f : MscLine → MscLine) : (updMsc s b f).held = s.held := rfl
@[simp] theorem updMsc_at_mcb (s : State) (b : Nat) (f : MscLine → MscLine) : (updMsc s b f).mcb = s.mcb := rfl
@[simp] theorem updMsc_at_cmds (s : State) (b : Nat) (f : MscLine → MscLine) : (updMsc s b f).cmds = s.cmds := rfl
@[simp] theorem updMsc_at_reply (s : State) (b : Nat) (f : MscLine → MscLine) : (updMsc s b f).reply = s.reply := rfl
@[simp] theorem updMsc_at_link (s : State) (b : Nat) (f : MscLine → MscLine) : (updMsc s b f).link = s.link := rfl
@[simp] theorem updMsc_at_boot (s : State) (b : Nat) (f : MscLine → MscLine) : (updMsc s b f).boot = s.boot := rfl

@[simp] theorem updL1_at_turns (s : State) (c : Nat) (p : L1Line → Bool) (f : L1Line → L1Line) : (updL1 s c p f).turns = s.turns := rfl
@[simp] theorem updL1_at_focus (s : State) (c : Nat) (p : L1Line → Bool) (f : L1Line → L1Line) : (updL1 s c p f).focus = s.focus := rfl
@[simp] theorem updL1_at_free (s : State) (c : Nat) (p : L1Line → Bool) (f : L1Line → L1Line) : (updL1 s c p f).free = s.free := rfl
@[simp] theorem updL1_at_clock (s : State) (c : Nat) (p : L1Line → Bool) (f : L1Line → L1Line) : (updL1 s c p f).clock = s.clock := rfl
@[simp] theorem updL1_at_seq (s : State) (c : Nat) (p : L1Line → Bool) (f : L1Line → L1Line) : (updL1 s c p f).seq = s.seq := rfl
@[simp] theorem updL1_at_mem (s : State) (c : Nat) (p : L1Line → Bool) (f : L1Line → L1Line) : (updL1 s c p f).mem = s.mem := rfl
@[simp] theorem updL1_at_xmem (s : State) (c : Nat) (p : L1Line → Bool) (f : L1Line → L1Line) : (updL1 s c p f).xmem = s.xmem := rfl
@[simp] theorem updL1_at_lineKeys (s : State) (c : Nat) (p : L1Line → Bool) (f : L1Line → L1Line) : (updL1 s c p f).lineKeys = s.lineKeys := rfl
@[simp] theorem updL1_at_keys (s : State) (c : Nat) (p : L1Line → Bool) (f : L1Line → L1Line) : (updL1 s c p f).keys = s.keys := rfl
@[simp] theorem updL1_at_msc (s : State) (c : Nat) (p : L1Line → Bool) (f : L1Line → L1Line) : (updL1 s c p f).msc = s.msc := rfl
@[simp] theorem updL1_at_poison (s : State) (c : Nat) (p : L1Line → Bool) (f : L1Line → L1Line) : (updL1 s c p f).poison = s.poison := rfl
@[simp] theorem updL1_at_groups (s : State) (c : Nat) (p : L1Line → Bool) (f : L1Line → L1Line) : (updL1 s c p f).groups = s.groups := rfl
@[simp] theorem updL1_at_wgs (s : State) (c : Nat) (p : L1Line → Bool) (f : L1Line → L1Line) : (updL1 s c p f).wgs = s.wgs := rfl
@[simp] theorem updL1_at_ops (s : State) (c : Nat) (p : L1Line → Bool) (f : L1Line → L1Line) : (updL1 s c p f).ops = s.ops := rfl
@[simp] theorem updL1_at_hits (s : State) (c : Nat) (p : L1Line → Bool) (f : L1Line → L1Line) : (updL1 s c p f).hits = s.hits := rfl
@[simp] theorem updL1_at_clusters (s : State) (c : Nat) (p : L1Line → Bool) (f : L1Line → L1Line) : (updL1 s c p f).clusters = s.clusters := rfl
@[simp] theorem updL1_at_l2 (s : State) (c : Nat) (p : L1Line → Bool) (f : L1Line → L1Line) : (updL1 s c p f).l2 = s.l2 := rfl
@[simp] theorem updL1_at_issueSlots (s : State) (c : Nat) (p : L1Line → Bool) (f : L1Line → L1Line) : (updL1 s c p f).issueSlots = s.issueSlots := rfl
@[simp] theorem updL1_at_ports (s : State) (c : Nat) (p : L1Line → Bool) (f : L1Line → L1Line) : (updL1 s c p f).ports = s.ports := rfl
@[simp] theorem updL1_at_thermal (s : State) (c : Nat) (p : L1Line → Bool) (f : L1Line → L1Line) : (updL1 s c p f).thermal = s.thermal := rfl
@[simp] theorem updL1_at_powered (s : State) (c : Nat) (p : L1Line → Bool) (f : L1Line → L1Line) : (updL1 s c p f).powered = s.powered := rfl
@[simp] theorem updL1_at_launches (s : State) (c : Nat) (p : L1Line → Bool) (f : L1Line → L1Line) : (updL1 s c p f).launches = s.launches := rfl
@[simp] theorem updL1_at_queued (s : State) (c : Nat) (p : L1Line → Bool) (f : L1Line → L1Line) : (updL1 s c p f).queued = s.queued := rfl
@[simp] theorem updL1_at_reqs (s : State) (c : Nat) (p : L1Line → Bool) (f : L1Line → L1Line) : (updL1 s c p f).reqs = s.reqs := rfl
@[simp] theorem updL1_at_xupds (s : State) (c : Nat) (p : L1Line → Bool) (f : L1Line → L1Line) : (updL1 s c p f).xupds = s.xupds := rfl
@[simp] theorem updL1_at_held (s : State) (c : Nat) (p : L1Line → Bool) (f : L1Line → L1Line) : (updL1 s c p f).held = s.held := rfl
@[simp] theorem updL1_at_mcb (s : State) (c : Nat) (p : L1Line → Bool) (f : L1Line → L1Line) : (updL1 s c p f).mcb = s.mcb := rfl
@[simp] theorem updL1_at_cmds (s : State) (c : Nat) (p : L1Line → Bool) (f : L1Line → L1Line) : (updL1 s c p f).cmds = s.cmds := rfl
@[simp] theorem updL1_at_reply (s : State) (c : Nat) (p : L1Line → Bool) (f : L1Line → L1Line) : (updL1 s c p f).reply = s.reply := rfl
@[simp] theorem updL1_at_link (s : State) (c : Nat) (p : L1Line → Bool) (f : L1Line → L1Line) : (updL1 s c p f).link = s.link := rfl
@[simp] theorem updL1_at_boot (s : State) (c : Nat) (p : L1Line → Bool) (f : L1Line → L1Line) : (updL1 s c p f).boot = s.boot := rfl

@[simp] theorem putBlockKeyed_at_turns (s : State) (k : BitVec 512) (b n : Nat) (m : SMap Byte) : (putBlockKeyed s k b n m).turns = s.turns := rfl
@[simp] theorem putBlockKeyed_at_focus (s : State) (k : BitVec 512) (b n : Nat) (m : SMap Byte) : (putBlockKeyed s k b n m).focus = s.focus := rfl
@[simp] theorem putBlockKeyed_at_free (s : State) (k : BitVec 512) (b n : Nat) (m : SMap Byte) : (putBlockKeyed s k b n m).free = s.free := rfl
@[simp] theorem putBlockKeyed_at_clock (s : State) (k : BitVec 512) (b n : Nat) (m : SMap Byte) : (putBlockKeyed s k b n m).clock = s.clock := rfl
@[simp] theorem putBlockKeyed_at_seq (s : State) (k : BitVec 512) (b n : Nat) (m : SMap Byte) : (putBlockKeyed s k b n m).seq = s.seq := rfl
@[simp] theorem putBlockKeyed_at_xmem (s : State) (k : BitVec 512) (b n : Nat) (m : SMap Byte) : (putBlockKeyed s k b n m).xmem = s.xmem := rfl
@[simp] theorem putBlockKeyed_at_keys (s : State) (k : BitVec 512) (b n : Nat) (m : SMap Byte) : (putBlockKeyed s k b n m).keys = s.keys := rfl
@[simp] theorem putBlockKeyed_at_msc (s : State) (k : BitVec 512) (b n : Nat) (m : SMap Byte) : (putBlockKeyed s k b n m).msc = s.msc := rfl
@[simp] theorem putBlockKeyed_at_poison (s : State) (k : BitVec 512) (b n : Nat) (m : SMap Byte) : (putBlockKeyed s k b n m).poison = s.poison := rfl
@[simp] theorem putBlockKeyed_at_groups (s : State) (k : BitVec 512) (b n : Nat) (m : SMap Byte) : (putBlockKeyed s k b n m).groups = s.groups := rfl
@[simp] theorem putBlockKeyed_at_wgs (s : State) (k : BitVec 512) (b n : Nat) (m : SMap Byte) : (putBlockKeyed s k b n m).wgs = s.wgs := rfl
@[simp] theorem putBlockKeyed_at_ops (s : State) (k : BitVec 512) (b n : Nat) (m : SMap Byte) : (putBlockKeyed s k b n m).ops = s.ops := rfl
@[simp] theorem putBlockKeyed_at_hits (s : State) (k : BitVec 512) (b n : Nat) (m : SMap Byte) : (putBlockKeyed s k b n m).hits = s.hits := rfl
@[simp] theorem putBlockKeyed_at_clusters (s : State) (k : BitVec 512) (b n : Nat) (m : SMap Byte) : (putBlockKeyed s k b n m).clusters = s.clusters := rfl
@[simp] theorem putBlockKeyed_at_cores (s : State) (k : BitVec 512) (b n : Nat) (m : SMap Byte) : (putBlockKeyed s k b n m).cores = s.cores := rfl
@[simp] theorem putBlockKeyed_at_issueSlots (s : State) (k : BitVec 512) (b n : Nat) (m : SMap Byte) : (putBlockKeyed s k b n m).issueSlots = s.issueSlots := rfl
@[simp] theorem putBlockKeyed_at_ports (s : State) (k : BitVec 512) (b n : Nat) (m : SMap Byte) : (putBlockKeyed s k b n m).ports = s.ports := rfl
@[simp] theorem putBlockKeyed_at_thermal (s : State) (k : BitVec 512) (b n : Nat) (m : SMap Byte) : (putBlockKeyed s k b n m).thermal = s.thermal := rfl
@[simp] theorem putBlockKeyed_at_powered (s : State) (k : BitVec 512) (b n : Nat) (m : SMap Byte) : (putBlockKeyed s k b n m).powered = s.powered := rfl
@[simp] theorem putBlockKeyed_at_launches (s : State) (k : BitVec 512) (b n : Nat) (m : SMap Byte) : (putBlockKeyed s k b n m).launches = s.launches := rfl
@[simp] theorem putBlockKeyed_at_queued (s : State) (k : BitVec 512) (b n : Nat) (m : SMap Byte) : (putBlockKeyed s k b n m).queued = s.queued := rfl
@[simp] theorem putBlockKeyed_at_reqs (s : State) (k : BitVec 512) (b n : Nat) (m : SMap Byte) : (putBlockKeyed s k b n m).reqs = s.reqs := rfl
@[simp] theorem putBlockKeyed_at_xupds (s : State) (k : BitVec 512) (b n : Nat) (m : SMap Byte) : (putBlockKeyed s k b n m).xupds = s.xupds := rfl
@[simp] theorem putBlockKeyed_at_held (s : State) (k : BitVec 512) (b n : Nat) (m : SMap Byte) : (putBlockKeyed s k b n m).held = s.held := rfl
@[simp] theorem putBlockKeyed_at_mcb (s : State) (k : BitVec 512) (b n : Nat) (m : SMap Byte) : (putBlockKeyed s k b n m).mcb = s.mcb := rfl
@[simp] theorem putBlockKeyed_at_cmds (s : State) (k : BitVec 512) (b n : Nat) (m : SMap Byte) : (putBlockKeyed s k b n m).cmds = s.cmds := rfl
@[simp] theorem putBlockKeyed_at_reply (s : State) (k : BitVec 512) (b n : Nat) (m : SMap Byte) : (putBlockKeyed s k b n m).reply = s.reply := rfl
@[simp] theorem putBlockKeyed_at_link (s : State) (k : BitVec 512) (b n : Nat) (m : SMap Byte) : (putBlockKeyed s k b n m).link = s.link := rfl
@[simp] theorem putBlockKeyed_at_boot (s : State) (k : BitVec 512) (b n : Nat) (m : SMap Byte) : (putBlockKeyed s k b n m).boot = s.boot := rfl

@[simp] theorem updGroup_groups (s : State) (k : GKey) (f : Group → Group) :
    (updGroup s k f).groups = updateIf (fun x => x.key = k) f s.groups := rfl

@[simp] theorem updWg_wgs (s : State) (u : Nat) (f : Wg → Wg) :
    (updWg s u f).wgs = updateIf (fun w => w.uid = u) f s.wgs := rfl

@[simp] theorem updLaunch_launches (s : State) (u : Nat) (f : Launch → Launch) :
    (updLaunch s u f).launches = updateIf (fun l => l.uid = u) f s.launches := rfl

@[simp] theorem updOp_ops (s : State) (i : Nat) (f : Op → Op) :
    (updOp s i f).ops = updateIf (fun o => o.id = i) f s.ops := rfl

@[simp] theorem setCore_cores (s : State) (c : Nat) (x : Core) :
    (setCore s c x).cores = mapSet Core.empty s.cores c x := rfl

@[simp] theorem setCluster_clusters (s : State) (c : Nat) (x : Cluster) :
    (setCluster s c x).clusters = mapSet Cluster.empty s.clusters c x := rfl

@[simp] theorem freshId_seq (s : State) : (freshId s).2.seq = s.seq + 1 := rfl

@[simp] theorem freshFree_free (s : State) : (freshFree s).2.free = s.free + 1 := rfl

end Sys2Proof.Machine
end

