-- ==== Sys2Proof/Laws/Trap.lean ====
section
/-! SUPPORT. Writing a trap frame leaves translations and a handler below the frame as they were. -/

namespace Sys2Proof.Machine

/-- A walk reads its own view of the tables, which no write of a block changes. -/
theorem walkFrom_putBlock (s : State) (key : BitVec 512) (n m va : Nat) (b : SMap Byte) : ∀ l table,
    walkFrom (putBlockKeyed s key n m b) va l table = walkFrom s va l table := by
  have hw : ∀ l p e, walkEntry (putBlockKeyed s key n m b) l p e = walkEntry s l p e := fun _ _ _ => rfl
  have he : ∀ l t, entryOf (putBlockKeyed s key n m b) va l t = entryOf s va l t := fun _ _ => rfl
  intro l
  induction l with
  | zero => intro table; simp only [walkFrom, hw, he]
  | succ l ih => intro table; simp only [walkFrom, hw, he, ih]

/-- A translation for reading is the same after a block is written. -/
theorem translate_putBlock (s : State) (key : BitVec 512) (n m va : Nat) (b : SMap Byte) (ln : Launch) :
    translate (putBlockKeyed s key n m b) ln .r va = translate s ln .r va := by
  have hc : ∀ l e, holdsCode (putBlockKeyed s key n m b) ln l e = holdsCode s ln l e := by
    intro l e
    simp only [holdsCode, codePages, walk, walkFrom_putBlock]
  have hk : ∀ k, keyVal (putBlockKeyed s key n m b) k = keyVal s k := fun _ => rfl
  simp only [translate, walk, walkFrom_putBlock, hc, hk]

/-- A handler below a frame is read the same once the frame is written. -/
theorem handlerHeader_frame {s : State} {ln : Launch} {key : BitVec 512} {b : SMap Byte} {n pa ca : Nat} {mg : Bool}
    (hm : Memory.wf s.mem = true) (hb : ∀ x ∈ b, x.1 < 4096) (hx : translate s ln .r ln.traph.toNat = .ok pa ca mg)
    (h1 : pa + 64 ≤ n) (h2 : n ≤ poolBase) (hk : ∀ i < 64, mapFind s.lineKeys (lineOf (pa + i)) = none)
    (hk' : ∀ i < 64, mapFind (putBlockKeyed s key n 4096 []).lineKeys (lineOf (pa + i)) = none) :
    handlerHeader (putBlockKeyed s key n 4096 b) ln = handlerHeader s ln := by
  have hx' : translate (putBlockKeyed s key n 4096 b) ln .r ln.traph.toNat = .ok pa ca mg := (translate_putBlock ..).trans hx
  have hb' : homeBytes (putBlockKeyed s key n 4096 b) (keyOr s ln.owner) pa 64 = homeBytes s (keyOr s ln.owner) pa 64 := by
    unfold homeBytes
    apply List.map_congr_left
    intro i hi
    have hi := List.mem_range.mp hi
    have k' : mapFind (putBlockKeyed s key n 4096 b).lineKeys (lineOf (pa + i)) = none := hk' i hi
    simp only [homeByte, k', hk i hi]
    unfold plainByte
    rw [if_neg (by omega), if_neg (by omega)]
    exact memGet_memPutBlock_other n 4096 _ hm hb (by omega)
  have ko : keyOr (putBlockKeyed s key n 4096 b) ln.owner = keyOr s ln.owner := rfl
  unfold handlerHeader virtNum
  rw [hx', hx]
  simp only [ko, hb']

end Sys2Proof.Machine
end

