-- ==== Sys2Proof/Tests/Slice0.lean ====
section
/-! SUPPORT. The model's own tests: ill-formed terms, words written out from the encodings, single steps, and for each claim
states that meet its hypotheses. -/

namespace Sys2Proof.Tests

set_option Elab.async false

open Sys2Proof.Machine Sys2Proof.Claims

/-! ## States -/

/-- The one group of the small states. -/
def k0 : GKey := ⟨2, 0⟩

/-- A kernel is resident, its one group stands at its first instruction, and the instruction there is in focus. -/
def base : State := focusAt (placeProbe State.reset []) k0 64 none

/-- A state with every workgroup, group or launch changed. -/
def onWg (f : Wg → Wg) (s : State) : State := { s with wgs := s.wgs.map f }
def onGroup (f : Group → Group) (s : State) : State := { s with groups := s.groups.map f }
def onLaunch (f : Launch → Launch) (s : State) : State := { s with launches := s.launches.map f }

/-- Scalar registers of the group. -/
def withS (rs : List (Nat × Word)) (s : State) : State := onGroup (fun g => rs.foldl (fun g r => g.setS r.1 r.2) g) s

/-- A vector register, the same in every lane. -/
def withV (r : Nat) (w : Word) (s : State) : State :=
  onGroup (fun g => { g with lanes := g.lanes.map (fun x => x.setV r w) }) s

/-- Handle slots of the workgroup. -/
def withH (hs : List (Nat × Handle)) (s : State) : State :=
  onWg (fun w => { w with handles := hs.foldl (fun m h => mapSet 0 m h.1 h.2) w.handles }) s

/-- Groups of another width. -/
def wide (n : Nat) (s : State) : State :=
  onLaunch (fun l => { l with width := n })
    (onGroup (fun g => { g with lanes := (List.range n).map (freshLane (probeLaunch 1) 0 0) }) s)

/-- A one-dimensional handle: format, base, elements, in a scratchpad or not, and its other control bits. -/
def mkH (fmt b n : Nat) (scr : Bool) (ctl : Nat := 0) : Handle :=
  BitVec.ofNat 1024 (b + 2 ^ 64 * (fmt + 2 ^ 6 * bitOf scr + ctl) + 2 ^ 128 * n + 2 ^ 160 + 2 ^ 192 + 2 ^ 224)

/-- Virtual page 1 is readable and writable data at 0x110000. -/
def withData (s : State) : State :=
  let f := fun m => memSetBytes m 0xD0008 (leBytes 8 0x11001D)
  { s with mem := f s.mem, xmem := f s.xmem }

/-- The context of the focus. -/
def ctx (s : State) (n : Nat) (h : (focusCtx s n).isSome = true) : Ctx := (focusCtx s n).get h

theorem ctx_eq (s : State) (n : Nat) (h : (focusCtx s n).isSome = true) : focusCtx s n = some (ctx s n h) :=
  (Option.some_get h).symm

/-- The conditions of an issue as a decision, where nothing is poisoned and no REJECT register is named; its H field names a
slot. -/
def enters (q : LIssue) (s : State) (c : Ctx) : Bool :=
  (q.named ++ q.vregs).all (fun r => decide (r < declared c.ln c.g)) && q.dists.all (fun r => (dsOf c.g r).isSome)
    && (q.reject c.g).isNone && q.acting s c != [] && s.poison.isEmpty
    && (q.cls == .none || decide (counter s c.g.key q.cls < 63))
    && (match q.hsel with
        | none => q.slot == 0 && q.width == .w4
        | some (.slot h w) => q.slot == h.val && q.width == w
        | some (.reg _) => false)

theorem enters_of {q : LIssue} {s : State} {c : Ctx} (h : focusCtx s q.instr.len = some c) (e : enters q s c = true) :
    q.Enters s c := by
  simp only [enters, Bool.and_eq_true] at e
  obtain ⟨⟨⟨⟨⟨⟨e1, e2⟩, e3⟩, e4⟩, e5⟩, e6⟩, e7⟩ := e
  have e3 : q.reject c.g = none := by simpa using e3
  have e5 : s.poison = [] := by simpa using e5
  refine ⟨h, by simpa only [List.all_eq_true, decide_eq_true_eq] using e1, by simpa using e2, by simp [e3], by simpa using e4,
    by simp [e3], by simp [Clean, e5], by simp [NoSoft, e5], fun r => by simpa [r] using e6, ?_⟩
  unfold LIssue.Picks
  split
  · rename_i e; simpa [e] using e7
  · rename_i e; simpa [e] using e7
  · rename_i e; simp [e] at e7

theorem ready_of {q : LIssue} {s : State} {c : Ctx} (h : focusCtx s q.instr.len = some c) (e : enters q s c = true)
    (f : inCode c.ln c.g c.nextPc = true) : q.Ready s c := ⟨enters_of h e, f⟩

/-- An issue stands ready in a state. -/
def Ready (q : LIssue) (s : State) : Prop := ∃ c, q.Ready s c

theorem ready {q : LIssue} {s : State} (h : (focusCtx s q.instr.len).isSome = true)
    (e : enters q s (ctx s _ h) = true ∧ inCode (ctx s _ h).ln (ctx s _ h).g (ctx s _ h).nextPc = true) : Ready q s :=
  ⟨_, ready_of (ctx_eq _ _ h) e.1 e.2⟩

/-- The context of the small state for an instruction of one word. -/
def c1 : Ctx := ctx base 1 (by decide)
theorem c1_eq : focusCtx base 1 = some c1 := ctx_eq _ _ _
theorem stands1 : Stands base c1 1 := ⟨c1_eq, by decide⟩

/-- A result that is no stop, and what it holds. -/
def isOk {α : Type} (x : Except Stop α) : Bool := x.toOption.isSome
def okOf {α : Type} (x : Except Stop α) (h : isOk x = true) : α := x.toOption.get h
theorem ok_eq {α : Type} (x : Except Stop α) (h : isOk x = true) : x = .ok (okOf x h) := by
  cases x with
  | ok a => rfl
  | error e => exact absurd h (by simp [isOk, Except.toOption])
theorem unit_ok {x : Except Stop Unit} (h : isOk x = true) : x = .ok () := ok_eq x h
theorem pair_eq {α β : Type} (x : Except Stop (α × β)) (h : isOk x = true) : x = .ok ((okOf x h).1, (okOf x h).2) := ok_eq x h
theorem some_eq {α : Type} (x : Option α) (h : x.isSome = true) : x = some (x.get h) := (Option.some_get h).symm


/-- The canonical form of the tables, as a decision. -/
def canonical (s : State) : Bool :=
  s.ops.all (fun o => decide (o.id < s.seq)) && decide (s.ops.map (·.id)).Nodup && s.wgs.all (fun w => decide (w.uid < s.seq))
    && decide (s.wgs.map (·.uid)).Nodup
    && s.groups.all (fun g => g.fifo.all (fun e =>
      decide (e.op < s.seq) && s.ops.all (fun o => o.id != e.op || o.grp == g.key)))
    && mapWf Core.empty s.cores && mapWf Cluster.empty s.clusters
    && s.wgs.all (fun w => mapWf 0 w.scratch && mapWf 0 w.acc)
theorem canon (s : State) (h : canonical s = true) : Canon s := by
  simp only [canonical, Bool.and_eq_true, List.all_eq_true, decide_eq_true_eq] at h
  obtain ⟨⟨⟨⟨⟨⟨⟨h1, h2⟩, h3⟩, h4⟩, h5⟩, h6⟩, h7⟩, h8⟩ := h
  refine ⟨h1, h2, h3, h4, fun g hg e he => ⟨(h5 g hg e he).1, fun o ho hi => ?_⟩, h6, h7, h8⟩
  have := (h5 g hg e he).2 o ho
  simpa [hi] using this

/-! ## Terms that no word encodes: one for each check of R43 and R44 -/

theorem illFormed_integerPosition : (Instr.iadd 3 .half (.v 1)).wellFormed = false ∧
    (Instr.brz .half 1).wellFormed = false := by decide
theorem illFormed_twoLiterals : (Instr.iadd 3 (.lit 5) (.lit 6)).wellFormed = false := by decide
theorem illFormed_exactConversion : (Instr.fcvt .f32Bf16 .rz false 1 (.v 2)).wellFormed = false ∧
    (Instr.fcvt .f32I8 .rne true 1 (.v 2)).wellFormed = false := by decide
theorem illFormed_maskOperands : (Instr.mskop .not 0 1 2).wellFormed = false ∧
    (Instr.mskop .set 0 1 0).wellFormed = false := by decide
theorem illFormed_oddPair : (Instr.draw 0 true 5).wellFormed = false ∧ (Instr.dspos 0 5).wellFormed = false ∧
    (Instr.ksig 5 6 4).wellFormed = false := by decide
theorem illFormed_loadGroup : (Instr.ld 6 (.v 1) (.slot 0 .w16)).wellFormed = false ∧
    (Instr.lde 7 (.v 1) (.slot 0 .w8)).wellFormed = false := by decide
theorem illFormed_storeData : (Instr.st (.s 4) (.v 1) (.slot 0 .w8)).wellFormed = false ∧
    (Instr.ste (.v 5) (.v 1) (.slot 0 .w8)).wellFormed = false := by decide
theorem illFormed_atomicWidth : (Instr.atom .add .plain 4 (.v 1) (.slot 0 .w16)).wellFormed = false ∧
    (Instr.atomr .fadd (.v 4) (.v 1) (.slot 0 .w8)).wellFormed = false ∧
    (Instr.cas .plain 6 (.v 1) (.slot 0 .w8)).wellFormed = false ∧
    (Instr.cas128 .plain 8 (.v 1) (.slot 0 .w4)).wellFormed = false := by decide
theorem illFormed_collector : (Instr.gath 1 none 4 .lane (.slot 0 .w4)).wellFormed = false ∧
    (Instr.scat 1 none .zero (.v 1) (.slot 0 .w4)).wellFormed = false ∧
    (Instr.sisect 0 1 none none 6 .zero 2).wellFormed = false := by decide
theorem illFormed_keyStoreRow : (Instr.kst false true (.v 5) (.v 1) 4).wellFormed = false := by decide
theorem illFormed_copyWord : (Instr.cpl ⟨0, 1, .w4, false, .rz, false, false, false, none⟩ .zero .zero .zero).wellFormed = false ∧
    (Instr.cpm ⟨0, 1, .w4, false, .rne, false, false, false, none⟩ 0 .zero .zero .zero).wellFormed = false := by decide
theorem illFormed_engineSources : (Instr.mmq ⟨0, .slot 1, false, false⟩ .half .zero .zero).wellFormed = false ∧
    (Instr.accwr 1 .lane .zero .zero).wellFormed = false ∧ (Instr.accpatch true .zero .half 3).wellFormed = false ∧
    (Instr.kgath 0 1 0 none 7 .half .zero .zero).wellFormed = false := by decide
theorem illFormed_scalarPair : (Instr.ldu none true 5 (.s 6)).wellFormed = false ∧
    (Instr.pgreq 5 (.s 6) 0).wellFormed = false ∧ (Instr.ksinit 0 .die 0 0 false 5 (.s 6) 0).wellFormed = false ∧
    (Instr.rqenq none true 382 (.s 6)).wellFormed = false ∧ (Instr.rqdeq none false 383 (.s 6)).wellFormed = false := by decide
theorem illFormed_nopLiteral : (Instr.nopLiteral false false 1).wellFormed = false := by decide
theorem illFormed_barriers : (Instr.barrive true false (.imm 1) (.s 0)).wellFormed = false ∧
    (Instr.barrive false false (.s 4) (.s 6)).wellFormed = false ∧ (Instr.bexpect true (.s 383) (.s 6)).wellFormed = false ∧
    (Instr.bwait true (.s 4) (.s 6)).wellFormed = false ∧ (Instr.btest .test true 383 (.s 0)).wellFormed = false ∧
    (Instr.btest .errc false 3 (.s 6)).wellFormed = false := by decide
theorem illFormed_events : (Instr.launchTake).wellFormed = false ∧ (Instr.illegalEncoding 0x01030102).wellFormed = false := by
  decide

/-! ## Words -/

/-- Words of the manual's worked lines, or laid out from its encoding tables (R16, R21, R32, R34, R36). -/
theorem decode_integer :
    decodeWords [0x010606C4] = .ok (.iadd 6 (.v 6) (.s 4)) ∧
    decodeWords [0x02BFBFDF] = .ok (.isub 191 (.v 191) (.s 31)) ∧
    decodeWords [0x030301F0] = .ok (.imul 3 (.v 1) .zero) ∧
    decodeWords [0x040301F1] = .ok (.imulh 3 (.v 1) .one) ∧
    decodeWords [0x050301F2] = .ok (.imulhu 3 (.v 1) .negOne) ∧
    decodeWords [0x06040102] = .ok (.imad 4 (.v 1) (.v 2)) ∧
    decodeWords [0x070301F3] = .ok (.imin 3 (.v 1) .two) ∧
    decodeWords [0x080301EF] = .ok (.imax 3 (.v 1) (.ds 15)) ∧
    decodeWords [0x090301F5] = .ok (.and 3 (.v 1) .lane) ∧
    decodeWords [0x0A0301F6] = .ok (.or 3 (.v 1) .octet) ∧
    decodeWords [0x0B03F702] = .ok (.xor 3 .width (.v 2)) ∧
    decodeWords [0x0C03FFFF, 0x12345678] = .ok (.shl 3 (.lit 0x12345678) (.lit 0x12345678)) ∧
    decodeWords [0x0D0505FF, 0x00000018] = .ok (.shr 5 (.v 5) (.lit 24)) ∧
    decodeWords [0x0E030102] = .ok (.sar 3 (.v 1) (.v 2)) ∧
    decodeWords [0x0F020101] = .ok (.iuny .clz 2 (.v 1)) ∧
    decodeWords [0x0F020105] = .ok (.iuny .not 2 (.v 1)) ∧
    decodeWords [0x106301C0] = .ok (.iset .ltu 3 (.v 1) (.s 0)) := by
  decide +kernel

/-- Words of the manual's worked lines, or laid out from its encoding tables (R34, R35, R36). -/
theorem decode_floatingPoint :
    decodeWords [0x110301E2] = .ok (.fadd 3 (.v 1) (.ds 2)) ∧
    decodeWords [0x12030102] = .ok (.fsub 3 (.v 1) (.v 2)) ∧
    decodeWords [0x130502F4] = .ok (.fmul 5 (.v 2) .half) ∧
    decodeWords [0x130502FF, 0x40400000] = .ok (.fmul 5 (.v 2) (.lit 0x40400000)) ∧
    decodeWords [0x140705E1] = .ok (.ffma 7 (.v 5) (.ds 1)) ∧
    decodeWords [0x15030102] = .ok (.fmin 3 (.v 1) (.v 2)) ∧
    decodeWords [0x16030102] = .ok (.fmax 3 (.v 1) (.v 2)) ∧
    decodeWords [0x17700202] = .ok (.fset .uno 0 (.v 2) (.v 2)) ∧
    decodeWords [0x18040306] = .ok (.funy .sqrt 4 (.v 3)) ∧
    decodeWords [0x1804030C] = .ok (.funy .cls 4 (.v 3)) ∧
    decodeWords [0x19060202] = .ok (.fcvt .bf16F32 .rz false 6 (.v 2)) ∧
    decodeWords [0x190602A1] = .ok (.fcvt .i8F32 .rne true 6 (.v 2)) ∧
    decodeWords [0x19050428] = .ok (.fcvt .e4m3F32 .sr false 5 (.v 4)) ∧
    decodeWords [0x1A0908F4] = .ok (.hfma2 9 (.v 8) .half) ∧
    decodeWords [0x1B090802] = .ok (.bfma2 9 (.v 8) (.v 2)) := by
  decide +kernel

/-- Words of the manual's worked lines, or laid out from its encoding tables (R37, R38, R161–R166). -/
theorem decode_laneMoves :
    decodeWords [0x2001F500] = .ok (.mov 1 .lane) ∧
    decodeWords [0x21030102] = .ok (.cmov 3 (.v 1) 2) ∧
    decodeWords [0x220A09FF, 0x00000010] = .ok (.lxor 10 (.v 9) (.lit 16)) ∧
    decodeWords [0x230B0902] = .ok (.lshf 11 (.v 9) (.v 2)) ∧
    decodeWords [0x24020108] = .ok (.lred .fadd 2 (.v 1)) ∧
    decodeWords [0x25030180] = .ok (.lscan true .iadd 3 (.v 1)) ∧
    decodeWords [0x260C0100] = .ok (.matchv 12 (.v 1)) ∧
    decodeWords [0x27060101] = .ok (.cmpct 6 (.v 1) 1) ∧
    decodeWords [0x28040100] = .ok (.ballot 4 (.v 1)) ∧
    decodeWords [0x29020104] = .ok (.mskop .not 2 1 0) ∧
    decodeWords [0x29023103] = .ok (.mskop .andn 2 1 3) ∧
    decodeWords [0x2A050301] = .ok (.mpopc true 5 3) := by
  decide +kernel

/-- Words of the manual's worked lines, or laid out from its encoding tables (R190, R232, R247). -/
theorem decode_streams :
    decodeWords [0x2B060004] = .ok (.draw 0 true 6) ∧
    decodeWords [0x2B050002] = .ok (.draw 2 false 5) ∧
    decodeWords [0x2C070201] = .ok (.catd 1 7 (.v 2)) ∧
    decodeWords [0x2D010405] = .ok (.dsskip 1 (.v 4) (.v 5)) ∧
    decodeWords [0x2E000900] = .ok (.dsfork (.v 9)) ∧
    decodeWords [0x2F030A0B] = .ok (.dssetp 3 (.v 10) (.v 11)) ∧
    decodeWords [0x300C0001] = .ok (.dspos 1 12) ∧
    decodeWords [0x310B0A01] = .ok (.gneval false 1 11 (.v 10)) ∧
    decodeWords [0x310C0A09] = .ok (.gneval true 1 12 (.v 10)) ∧
    decodeWords [0x320C0804] = .ok (.ksig 12 8 4) := by
  decide +kernel

/-- Words of the manual's worked lines, or laid out from its encoding tables (R16, R19, R260, R294). -/
theorem decode_laneMemory :
    decodeWords [0x40040709] = .ok (.ld 4 (.v 7) (.slot 2 .w8)) ∧
    decodeWords [0x40040727] = .ok (.ld 4 (.v 7) (.reg 9)) ∧
    decodeWords [0x4108020E] = .ok (.lde 8 (.v 2) (.slot 3 .w16)) ∧
    decodeWords [0x42040709] = .ok (.ldnr 4 (.v 7) (.slot 2 .w8)) ∧
    decodeWords [0x430C0316] = .ok (.st (.v 12) (.v 3) (.slot 5 .w16)) ∧
    decodeWords [0x440C0315] = .ok (.ste (.v 12) (.v 3) (.slot 5 .w8)) ∧
    decodeWords [0x450C0316] = .ok (.stnt (.v 12) (.v 3) (.slot 5 .w16)) ∧
    decodeWords [0x46080509, 0x0C000000] = .ok (.pst 3 (.v 8) (.v 5) (.slot 2 .w8)) ∧
    decodeWords [0x47060308, 0x00004C00] = .ok (.atom .add (.acqRel .module) 6 (.v 3) (.slot 2 .w4)) ∧
    decodeWords [0x48070210, 0x00090000] = .ok (.atomr .fadd (.v 7) (.v 2) (.slot 4 .w4)) ∧
    decodeWords [0x490A0308, 0x00003400] = .ok (.cas (.acq .die) 10 (.v 3) (.slot 2 .w4)) ∧
    decodeWords [0x4A10011A, 0x00004C00] = .ok (.cas128 (.acqRel .module) 16 (.v 1) (.slot 6 .w16)) ∧
    decodeWords [0x4B08040C, 0x00000001] = .ok (.gath 1 none 8 (.v 4) (.slot 3 .w4)) ∧
    decodeWords [0x4C100415, 0x00000981] = .ok (.scat 1 (some 3) (.v 16) (.v 4) (.slot 5 .w8)) ∧
    decodeWords [0x4D08020C, 0x0C41A000] = .ok (.sisect 3 4 (some 6) none 8 (.v 2) 12) ∧
    decodeWords [0x4E080310, 0x00000000] = .ok (.kst false false (.v 8) (.v 3) 4) := by
  decide +kernel

/-- Words of the manual's worked lines, or laid out from its encoding tables (R113, R202, R216, R248). -/
theorem decode_enginesOfTheLaneSet :
    decodeWords [0x500201C4, 0x046A3800] = .ok
      (.cpl ⟨1, 6, .w16, true, .rne, true, true, true, none⟩ (.v 2) (.v 1) (.s 4)) ∧
    decodeWords [0x510201C4, 0x0478100F] = .ok
      (.cpm ⟨1, 7, .w16, false, .rne, false, true, false, none⟩ 15 (.v 2) (.v 1) (.s 4)) ∧
    decodeWords [0x520405F0, 0x080E8000] = .ok (.mmq ⟨2, .slot 7, false, true⟩ (.v 4) (.v 5) .zero) ∧
    decodeWords [0x530405F0, 0x080EB000] = .ok (.mmt ⟨2, .slot 7, false, true⟩ 3 (.v 4) (.v 5) .zero) ∧
    decodeWords [0x520405F0, 0x0B830000] = .ok (.mmq ⟨2, .gen 1, true, false⟩ (.v 4) (.v 5) .zero) ∧
    decodeWords [0x54080203, 0x00000003] = .ok (.accrd 3 8 (.v 2) (.v 3)) ∧
    decodeWords [0x550A02FF, 0x00000000, 0x00000010] = .ok (.accwr 0 (.v 10) (.v 2) (.lit 16)) ∧
    decodeWords [0x56070602, 0x00000040] = .ok (.accpatch true (.v 7) (.v 6) 2) ∧
    decodeWords [0x57010C0D, 0x1061900F] = .ok (.kgath 4 6 1 (some 2) 15 (.v 1) (.v 12) (.v 13)) := by
  decide +kernel

/-- Words of the manual's worked lines, or laid out from its encoding tables (R20). -/
theorem decode_laneControlFlow :
    decodeWords [0x60008000] = .ok (.bra 0x8000) ∧
    decodeWords [0x60FF0000, 0x00040000] = .ok (.braKernelAbsolute 0x40000) ∧
    decodeWords [0x61030005] = .ok (.brm 3 5) ∧
    decodeWords [0x620FFFFF] = .ok (.brmn 15 0xFFFF) ∧
    decodeWords [0x6302FFFD] = .ok (.brz (.v 2) 0xFFFD) ∧
    decodeWords [0x6402FFFA] = .ok (.brnz (.v 2) 0xFFFA) ∧
    decodeWords [0x6500000C] = .ok (.call 12) ∧
    decodeWords [0x65FF0000, 0x00000080] = .ok (.callKernelAbsolute 0x80) ∧
    decodeWords [0x66002700] = .ok (.ret (.v 39)) ∧
    decodeWords [0x67000000] = .ok .exit ∧
    decodeWords [0x68000042] = .ok (.trap 0x42) := by
  decide +kernel

/-- Words of the manual's worked lines, or laid out from its encoding tables (R24, R25, R41). -/
theorem decode_scalar :
    decodeWords [0x80056940] = .ok (.sadd 10 (.imm 37)) ∧
    decodeWords [0x80057FC0, 0x000186A0] = .ok (.sadd 10 (.lit 100000)) ∧
    decodeWords [0x81BFDFC0] = .ok (.ssub 383 (.s 383)) ∧
    decodeWords [0x82008080] = .ok (.smul 1 (.s 2)) ∧
    decodeWords [0x83008080] = .ok (.sand 1 (.s 2)) ∧
    decodeWords [0x84008080] = .ok (.sor 1 (.s 2)) ∧
    decodeWords [0x85008080] = .ok (.sxor 1 (.s 2)) ∧
    decodeWords [0x860268C0] = .ok (.sshl 4 (.imm 35)) ∧
    decodeWords [0x8700E000] = .ok (.sshr 1 (.imm 0)) ∧
    decodeWords [0x8800EFC0] = .ok (.ssar 1 (.imm 63)) ∧
    decodeWords [0x89008080] = .ok (.smin 1 (.s 2)) ∧
    decodeWords [0x8A008080] = .ok (.smax 1 (.s 2)) ∧
    decodeWords [0x8B008080] = .ok (.smov 1 (.s 2)) ∧
    decodeWords [0x8C020142] = .ok (.sset .lt 4 (.s 5)) ∧
    decodeWords [0x8D03FFFB] = .ok (.smovi 7 0x7FFB) ∧
    decodeWords [0x8E03A000] = .ok (.slui 7 0x2000) ∧
    decodeWords [0x8F0400C5] = .ok (.v2s 8 false 3 5) ∧
    decodeWords [0x8F0440FF] = .ok (.v2s 8 true 3 63) ∧
    decodeWords [0x90007FF7] = .ok (.sbra 0x7FF7) ∧
    decodeWords [0x91010007] = .ok (.sbz 2 7) ∧
    decodeWords [0x9201FFFC] = .ok (.sbnz 3 0x7FFC) := by
  decide +kernel

/-- Words of the manual's worked lines, or laid out from its encoding tables (R29, R40, R110, R140). -/
theorem decode_identifiersAndWaits :
    decodeWords [0x93006843] = .ok (.qrd 3 (.imm 33)) ∧
    decodeWords [0x94007FC2, 0x24000000] = .ok (.qst 2 (.lit 0x24000000)) ∧
    decodeWords [0x9502EAC0] = .ok (.idrd 5 (.imm 43)) ∧
    decodeWords [0x96FFF03F] = .ok (.waitc 63 63 0 63) ∧
    decodeWords [0x97000003] = .ok (.fence .die) ∧
    decodeWords [0x98000004] = .ok (.ntdrain .module) ∧
    decodeWords [0x99050242] = .ok (.ldu none true 10 (.s 9)) ∧
    decodeWords [0x9902825C] = .ok (.ldu (some .die) false 5 (.s 9)) ∧
    decodeWords [0x9A037FE4, 0x08000028] = .ok (.stu (some .module) false 6 (.lit 0x08000028)) ∧
    decodeWords [0x9B01E7C0] = .ok (.fstat 3 (.imm 31)) ∧
    decodeWords [0x9C000000] = .ok .nop ∧
    decodeWords [0x9CFF8000, 0x0000BEEF] = .ok (.nopLiteral true false 0xBEEF) := by
  decide +kernel

/-- Words of the manual's worked lines, or laid out from its encoding tables (R66, R67, R97–R99, R135, R142). -/
theorem decode_handlesAndBarriers :
    decodeWords [0xA0046804] = .ok (.hload 8 (.imm 32) 4) ∧
    decodeWords [0xA1066984] = .ok (.hadj 12 (.imm 38) 4) ∧
    decodeWords [0xA20A6844] = .ok (.hqry 20 (.imm 33) 4) ∧
    decodeWords [0xA3020140] = .ok (.binit (.s 4) (.s 5)) ∧
    decodeWords [0xA4020181] = .ok (.barrive false true (.s 4) (.s 6)) ∧
    decodeWords [0xA4050002] = .ok (.barrive true false (.s 10) (.s 0)) ∧
    decodeWords [0xA5027FC0, 0x00000070] = .ok (.bexpect false (.s 4) (.lit 112)) ∧
    decodeWords [0xA6050002] = .ok (.bwait true (.s 10) (.s 0)) ∧
    decodeWords [0xA6026800] = .ok (.bwait false (.s 4) (.imm 32)) ∧
    decodeWords [0xA7060020] = .ok (.btest .errc false 12 (.s 0)) ∧
    decodeWords [0xA80A0264] = .ok (.rqenq (some .module) false 20 (.s 9)) ∧
    decodeWords [0xA90B7FCE, 0x14000000] = .ok (.rqdeq (some .workgroup) true 22 (.lit 0x14000000)) ∧
    decodeWords [0xAA040503] = .ok (.pgreq 8 (.s 20) 3) ∧
    decodeWords [0xAB040543] = .ok (.pfh 8 (.s 21) 3) := by
  decide +kernel

/-- Words of the manual's worked lines, or laid out from its encoding tables (R184, R198, R200, R220, R231, R241). -/
theorem decode_descriptorsAndTiles :
    decodeWords [0xB004024F] = .ok (.dsld 8 (.s 9) 15) ∧
    decodeWords [0xB10469C1] = .ok (.gnld 8 (.imm 39) 1) ∧
    decodeWords [0xB2046943, 0x00000000] = .ok (.bld false false 8 (.imm 37) 3) ∧
    decodeWords [0xB2040143, 0x00000002] = .ok (.bld false true 8 (.s 5) 3) ∧
    decodeWords [0xB3006940] = .ok (.bfree (.imm 37)) ∧
    decodeWords [0xB4026C00] = .ok (.accz (.s 4) (.imm 48)) ∧
    decodeWords [0xB5020246, 0x00007C80] = .ok (.accst 15 .sr true (.s 4) (.s 9) 6) ∧
    decodeWords [0xB6000084, 0x00003040] = .ok (.ksinit 1 .module 0 0 false 0 (.s 2) 4) := by
  decide +kernel

/-- Words of the manual's worked lines, or laid out from its encoding tables (R329, R331, R341, R349). -/
theorem decode_launchesAndTraps :
    decodeWords [0xC0060240, 0x00000001] = .ok (.launch true 12 (.s 9)) ∧
    decodeWords [0xC0060240, 0x00000000] = .ok (.launch false 12 (.s 9)) ∧
    decodeWords [0xC1060240, 0x00000001] = .ok (.tapepush true 12 (.s 9)) ∧
    decodeWords [0xC2000001] = .ok (.tret true) ∧
    decodeWords [0xC30268C0] = .ok (.tfrd 4 (.imm 35)) ∧
    decodeWords [0xC402FFC0, 0x00000040] = .ok (.tfwr 5 (.lit 64)) ∧
    decodeWords [0xC5007FC2, 0x00000000, 0x1C000080] = .ok (.watchLoad 2 (.lit 0x1C000080)) ∧
    decodeWords [0xC5000247, 0x00000001] = .ok (.watchStore 7 (.s 9)) ∧
    decodeWords [0xC5000005, 0x00000002] = .ok (.watchClr 5) ∧
    decodeWords [0xC6000001] = .ok (.gend true) := by
  decide +kernel

/-! ## Single steps: results worked by hand from the rules -/

/-- What a field of the group of a next state is. -/
def seen {α : Type} (f : Group → α) : Host.Outcome State Fault Refusal → Option α
  | .next t => (findGroup t k0).map f
  | _ => none

/-- Register r of lane 0, and the FP status. -/
def v0 (r : Nat) (g : Group) : Option Word := (g.lane? 0).map (fun x => x.vreg r)

/-- R14, R150: the first step after a word is placed runs it, and moves the PC past it. -/
theorem test_firstStep : seen (fun g => (v0 3 g, g.eop, (g.lane? 0).map (fun x => x.pc)))
    (step (State.reset.withFetchWord 32 0x010306F1)) = some (some 1, 1, some 68) := by decide +kernel

theorem test_imulh : seen (v0 3) (exec (.imulh 3 (.v 1) .two) (withV 1 0x80000000 base)) = some (some 0xFFFFFFFF) := by
  decide +kernel
theorem test_imulhu : seen (v0 3) (exec (.imulhu 3 (.v 1) .two) (withV 1 0x80000000 base)) = some (some 1) := by
  decide +kernel
theorem test_imad_reads_old_d : seen (v0 3) (exec (.imad 3 (.v 3) (.v 3)) (withV 3 7 base)) = some (some 56) := by
  decide +kernel
/-- R150: 32 copies of the sign for a count of 32 or more. -/
theorem test_sar : seen (v0 3) (exec (.sar 3 (.v 1) (.lit 33)) (withV 1 0x80000000 base)) = some (some 0xFFFFFFFF) := by
  decide +kernel
/-- 1 + 2^-24 lies halfway and goes to the even 1.0; no status bit says inexact (R154, R159). -/
theorem test_fadd_ties_to_even : seen (fun g => (v0 3 g, g.fps)) (exec (.fadd 3 .one (.v 1)) (withV 1 0x33800000 base)) =
    some (some 0x3F800000, 0) := by decide +kernel
/-- The manual's example of R158: 200.7 rounds to 201 and clamps to 127, and invalid is set. -/
theorem test_fcvt_saturates : seen (fun g => (v0 6 g, g.fps)) (exec (.fcvt .i8F32 .rne true 6 (.v 2))
    (withV 2 0x4348B333 base)) = some (some 0x7F, 1) := by decide +kernel
/-- A fused product rounds once: 3 × 5 + 0.5. -/
theorem test_ffma : seen (v0 3) (exec (.ffma 3 (.v 1) (.v 2)) (withV 3 0x3F000000 (withV 2 0x40A00000 (withV 1 0x40400000 base)))) =
    some (some 0x41780000) := by decide +kernel
theorem test_lscan_exclusive : seen (fun g => (g.lane? 3).map (fun x => x.vreg 3)) (exec (.lscan true .iadd 3 .lane) base) =
    some (some 3) := by decide +kernel
theorem test_lshf : seen (fun g => (g.lane? 2).map (fun x => x.vreg 3)) (exec (.lshf 3 .lane (.lit 6)) base) =
    some (some 6) := by decide +kernel
theorem test_brz_backward : seen (fun g => (g.lane? 0).map (fun x => x.pc)) (exec (.brz .zero 0) base) = some (some 64) := by
  decide +kernel
theorem test_slui : seen (fun g => g.sreg 7) (exec (.slui 7 0x2000) base) = some 0x40000000 := by decide +kernel
theorem test_smovi_sign : seen (fun g => g.sreg 7) (exec (.smovi 7 0x7FFB) base) = some 0xFFFFFFFB := by decide +kernel
theorem test_sset_signed : seen (fun g => g.sreg 4) (exec (.sset .lt 4 (.imm 32)) (withS [(4, 0x80000000)] base)) = some 1 := by
  decide +kernel
/-! ## States that meet the hypotheses of the claims: lane instructions -/

theorem wit_IntegerResultInEveryActingLane : ∃ i u, Rules.intRule i = some u ∧ Ready (u.issue i) base :=
  ⟨.imad 15 (.v 2) .one, _, rfl, ready (by decide) (by decide)⟩

theorem wit_FloatResultAndStatus : ∃ i u, Rules.fpRule i = some u ∧ Ready (u.issue i) base :=
  ⟨.ffma 15 (.v 2) .half, _, rfl, ready (by decide) (by decide)⟩

theorem wit_ComparisonWritesMaskBit : ∃ i u, Rules.maskRule i = some u ∧ Ready (Rules.maskIssue i u.srcs) base :=
  ⟨.iset .lt 15 (.v 2) .lane, _, rfl, ready (by decide) (by decide)⟩

theorem wit_ConversionResultAndStreamUse : Ready (fcvtIssue .e4m3F32 .sr false 5 (.v 4)) base :=
  ready (by decide) (by decide)

theorem wit_ConditionalMoveAndMaskOperation : Ready (moveIssue (.cmov 1 .lane 0) 1 [.lane]) base ∧
    Ready (Rules.maskIssue (.mskop .not 0 15 15) []) base := ⟨ready (by decide) (by decide), ready (by decide) (by decide)⟩

theorem wit_LaneExchange : (∃ c, (moveIssue (.lxor 1 (.v 2) (.lit 7)) 1 [.v 2, .lit 7]).Ready (focusAt base k0 64 none) c ∧
      ∀ l ∈ (moveIssue (.lxor 1 (.v 2) (.lit 7)) 1 [.v 2, .lit 7]).acting base c, ∀ x, c.g.lane? l = some x →
        (moveIssue (.lxor 1 (.v 2) (.lit 7)) 1 [.v 2, .lit 7]).operand base c l x 1 = 7) ∧
    Ready (moveIssue (.lshf 1 .lane .lane) 1 [.lane, .lane]) base :=
  ⟨⟨ctx base 2 (by decide), ready_of (ctx_eq _ _ _) (by decide) (by decide), fun _ _ _ _ => rfl⟩, ready (by decide) (by decide)⟩

theorem wit_ReductionAndScanFoldInLaneOrder : Ready (Rules.foldIssue (.lred .fadd 1 .lane) .fadd 1 .lane) base ∧
    Ready (Rules.foldIssue (.lscan true .iadd 1 .lane) .iadd 1 .lane) base :=
  ⟨ready (by decide) (by decide), ready (by decide) (by decide)⟩

theorem wit_MatchAndBallotWriteLaneSets :
    (∃ c, (c.g.width = 64 → (2 : VReg).val % 2 = 0) ∧ (laneSetIssue (.matchv 2 .lane) c 2 .lane).Ready (wide 64 base) c) ∧
    ∃ c, (c.g.width = 64 → (2 : VReg).val % 2 = 0) ∧ (laneSetIssue (.ballot 2 .lane) c 2 .lane).Ready (wide 64 base) c :=
  ⟨⟨ctx (wide 64 base) 1 (by decide), fun _ => rfl, ready_of (ctx_eq _ _ _) (by decide) (by decide)⟩,
   ⟨ctx (wide 64 base) 1 (by decide), fun _ => rfl, ready_of (ctx_eq _ _ _) (by decide) (by decide)⟩⟩

theorem wit_CompactionAndMaskCount : Ready (moveIssue (.cmpct 1 .lane 3) 1 [.lane]) base ∧
    Ready (moveIssue (.mpopc true 1 3) 1 []) base := ⟨ready (by decide) (by decide), ready (by decide) (by decide)⟩

theorem wit_StreamInstructions : Ready (streamIssue (.draw 3 false 15) [] [15] true) base ∧
    Ready (streamIssue (.draw 0 true 14) [] [14, 15] true) base ∧ Ready (streamIssue (.dspos 1 14) [] [14, 15] false) base ∧
    Ready (streamIssue (.dsskip 1 .lane (.lit 9)) [.lane, .lit 9] [] false) base ∧
    Ready (streamIssue (.dssetp 1 .lane .zero) [.lane, .zero] [] false) base ∧
    Ready (streamIssue (.dsfork .lane) [.lane] [] false) base :=
  ⟨ready (by decide) (by decide), ready (by decide) (by decide), ready (by decide) (by decide), ready (by decide) (by decide),
   ready (by decide) (by decide), ready (by decide) (by decide)⟩

theorem wit_CategoricalDrawPicksTheGreatestKey : Ready (catdIssue 0 1 .one) base := ready (by decide) (by decide)

/-- The group with a generator register loaded. -/
def withGn (im : GnImage) (s : State) : State := onGroup (fun g => { g with gn := [(7, im)] }) s

theorem wit_GeneratorEvaluation : ∃ c im, (gnevalIssue true 7 1 .lane).Ready (withGn ⟨1, 0, 0, 0⟩ base) c ∧
    mapFind c.g.gn 7 = some im :=
  ⟨ctx (withGn ⟨1, 0, 0, 0⟩ base) 1 (by decide), _, ready_of (ctx_eq _ _ _) (by decide) (by decide), some_eq _ (by decide)⟩

theorem wit_BranchMovesEachLane : ∃ u c, Rules.branchRule (.brnz .lane 62) = some u ∧
    (branchIssue (.brnz .lane 62) u).Enters base c ∧
    ∀ l ∈ (branchIssue (.brnz .lane 62) u).acting base c, ∀ x, c.g.lane? l = some x →
      inCode c.ln c.g (u.target c ((branchIssue (.brnz .lane 62) u).operand base c l x 0)
        ((branchIssue (.brnz .lane 62) u).drawn base c l x)) = true :=
  ⟨_, c1, rfl, enters_of c1_eq (by decide), by
    have e : ∀ v : Word, ∀ x : Lane, inCode c1.ln c1.g (if v ≠ 0 then Rules.relative c1 62 else c1.nextPc) = true := by
      intro v x; split <;> decide
    intro l _ x _; exact e _ x⟩

theorem wit_ScalarInstructions : (∃ i u, Rules.scalarRule i = some u ∧ Stands base c1 i.len) ∧
    (∃ i t, focusCtx base i.len = some c1 ∧ uniformTarget c1 i = some t ∧ inCode c1.ln c1.g t = true) ∧
    (Stands base c1 1 ∧ (0 : VReg).val < declared c1.ln c1.g ∧ (7 : Fin 64).val ∈ c1.act ∧ Clean base c1 [7] [0] ∧
      ∃ y, c1.g.lane? 7 = some y ∧ y.vreg 0 = 0) ∧
    (Clean base c1 c1.act [0] ∧ ∀ l ∈ c1.act, ∀ y, c1.g.lane? l = some y → y.vreg 0 = 0) := by
  refine ⟨⟨.slui 383 1, _, rfl, stands1⟩, ⟨.sbz 0 63, _, c1_eq, rfl, by decide⟩, ⟨stands1, by decide, by decide, by unfold Clean; decide,
    (c1.g.lane? 7).get (by decide), some_eq _ _, by decide⟩, by unfold Clean; decide, ?_⟩
  have e : ∀ y ∈ c1.g.lanes, y.vreg 0 = 0 := by decide
  intro l _ y h
  exact e y (List.mem_of_getElem? h)
/-! ## Loads, stores and atomics -/

/-- Slot 0 is a data page; v2 is the index of its last word. -/
def sL : State := withV 2 65532 (withH [(0, mkH 0 0x10000 65536 false), (1, mkH 3 0x10000 16384 false)] (withData base))
def cL : Ctx := ctx sL 1 (by decide +kernel)
theorem cL_eq : focusCtx sL 1 = some cL := ctx_eq _ _ _

theorem wit_LaneLoadsAreAcceptedAndBound_ld : ∃ h runs s₀ s₁,
    let q := loadIssue (.ld 1 (.v 2) (.slot 0 .w4)) 1 (.v 2) (.slot 0 .w4) 0 .w4
    q.Ready sL cL ∧ (1 : VReg).val % Width.w4.regs = 0 ∧
      q.Loads sL cL h [0, 1, 2, 3, 4, 5, 6, 7, 8, 9, 10] false (4 * Width.w4.regs) runs [] s₀ s₁ :=
  ⟨_, _, _, _, ready_of cL_eq (by decide +kernel) (by decide +kernel), rfl,
    ⟨⟨rfl, by decide +kernel, by decide +kernel, by decide +kernel, ok_eq _ (by decide +kernel)⟩,
      fun _ => unit_ok (by decide +kernel), ok_eq _ (by decide +kernel),
      _, _, rfl, ok_eq _ (by decide +kernel), ok_eq _ (by decide +kernel)⟩⟩

/-- v2 is the index of the last FP32 element of slot 1. -/
def sE : State := withV 2 16383 sL
def cE : Ctx := ctx sE 1 (by decide +kernel)

theorem wit_LaneLoadsAreAcceptedAndBound_lde : ∃ runs s₀ s₁, let h := cE.slot 1
    let q := loadIssue (.lde 1 (.v 2) (.slot 1 .w4)) 1 (.v 2) (.slot 1 .w4) 1 .w4
    q.Ready sE cE ∧ (1 : VReg).val % Width.w4.regs = 0 ∧
      q.Loads sE cE h (ldeFmts .w4) false (elemBytes h Width.w4.regs) runs (if hTrb h = 0 then [] else tileRuns h runs) s₀ s₁ :=
  ⟨_, _, _, ready_of (ctx_eq _ _ _) (by decide +kernel) (by decide +kernel), rfl,
    ⟨⟨rfl, by decide +kernel, by decide +kernel, by decide +kernel, ok_eq _ (by decide +kernel)⟩,
      fun h => absurd h (by decide +kernel), ok_eq _ (by decide +kernel),
      _, _, ok_eq _ (by decide +kernel), ok_eq _ (by decide +kernel), ok_eq _ (by decide +kernel)⟩⟩

theorem wit_LaneLoadsAreAcceptedAndBound_ldnr : ∃ h runs s₀ s₁,
    let q := loadIssue (.ldnr 1 (.v 2) (.slot 0 .w4)) 1 (.v 2) (.slot 0 .w4) 0 .w4
    q.Ready sL cL ∧ (1 : VReg).val % Width.w4.regs = 0 ∧
      q.Loads sL cL h [0, 1, 2, 3, 4, 5, 6, 7, 8, 9, 10] true (4 * Width.w4.regs) runs [] s₀ s₁ :=
  ⟨_, _, _, _, ready_of (ctx_eq _ _ _) (by decide +kernel) (by decide +kernel), rfl,
    ⟨⟨rfl, by decide +kernel, by decide +kernel, by decide +kernel, ok_eq _ (by decide +kernel)⟩,
      fun _ => unit_ok (by decide +kernel), ok_eq _ (by decide +kernel),
      _, _, rfl, ok_eq _ (by decide +kernel), ok_eq _ (by decide +kernel)⟩⟩

theorem wit_LaneStoresEnterTheFifo_st : ∃ h runs s₁, storeGroupOk (.v 3) .w4 ∧
    let q := storeIssue (.st (.v 3) (.v 2) (.slot 0 .w4)) .int (.v 3) (.v 2) (.slot 0 .w4) 0 .w4
    q.Ready sL cL ∧
      q.Reaches sL cL h [0, 1, 2, 3, 4, 5, 6, 7, 8, 9, 10] .w (4 * Width.w4.regs) runs (runEls h .lw runs) s₁ :=
  ⟨_, _, _, .inl rfl, ready_of cL_eq (by decide +kernel) (by decide +kernel),
    ⟨⟨rfl, by decide +kernel, by decide +kernel, by decide +kernel, ok_eq _ (by decide +kernel)⟩, unit_ok (by decide +kernel),
      _, ok_eq _ (by decide +kernel), ok_eq _ (by decide +kernel)⟩⟩

theorem wit_LaneStoresEnterTheFifo_ste : ∃ h runs s₁, storeGroupOk (.v 3) .w4 ∧
    let q := storeIssue (.ste (.v 3) (.v 2) (.slot 1 .w4)) .fp32 (.v 3) (.v 2) (.slot 1 .w4) 1 .w4
    q.Ready sE cE ∧ q.Reaches sE cE h [1, 3, 4, 5, 6, 7] .w (elemBytes h Width.w4.regs) runs (runEls h .lw runs) s₁ :=
  ⟨cE.slot 1, _, _, .inl rfl, ready_of (ctx_eq _ _ _) (by decide +kernel) (by decide +kernel),
    ⟨⟨rfl, by decide +kernel, by decide +kernel, by decide +kernel, ok_eq _ (by decide +kernel)⟩, unit_ok (by decide +kernel),
      _, ok_eq _ (by decide +kernel), ok_eq _ (by decide +kernel)⟩⟩

theorem wit_LaneStoresEnterTheFifo_stnt : ∃ h runs s₁, storeGroupOk (.v 4) .w16 ∧
    let q := storeIssue (.stnt (.v 4) .zero (.slot 0 .w16)) .int (.v 4) .zero (.slot 0 .w16) 0 .w16
    q.Ready sL cL ∧
      q.Reaches sL cL h [0, 1, 2, 3, 4, 5, 6, 7, 8, 9, 10] .w (4 * Width.w16.regs) runs (runEls h .lw runs) s₁ :=
  ⟨_, _, _, .inr ⟨4, rfl, rfl⟩, ready_of cL_eq (by decide +kernel) (by decide +kernel),
    ⟨⟨rfl, by decide +kernel, by decide +kernel, by decide +kernel, ok_eq _ (by decide +kernel)⟩, unit_ok (by decide +kernel),
      _, ok_eq _ (by decide +kernel), ok_eq _ (by decide +kernel)⟩⟩

/-- Two FP32 handles, the first in memory and the second in the scratchpad. -/
def sP : State := withH [(1, mkH 3 0x10000 256 false), (2, mkH 3 0 256 true)] (withData base)
def cP : Ctx := ctx sP 2 (by decide +kernel)

theorem wit_LaneStoresEnterTheFifo_pst : ∃ h k runs es s₀ s₁ s₂,
    let q := storeIssue (.pst 2 (.v 3) .lane (.slot 1 .w4)) .int (.v 3) .lane (.slot 1 .w4) 1 .w4
    q.Ready sP cP ∧ storeGroupOk (.v 3) .w4 ∧ halfLanes cP.g cP.pc = [] ∧ openPsts cP.g cP.pc = [] ∧ cP.w.watch = [] ∧
    cP.slot 1 = h ∧ cP.slot 2 = k ∧ loaded h = true ∧ loaded k = true ∧ (1 ≤ hFmt h ∧ hFmt h ≤ 7) ∧
    (1 ≤ hFmt k ∧ hFmt k ≤ 7) ∧ hProfile h = false ∧ hProfile k = false ∧ elemSize (hFmt h) = elemSize (hFmt k) ∧
    laneRuns (q.on sP cP) h 4 4 (q.indices sP cP) = .ok runs ∧
    halfElems (q.on sP cP) h k (elemsOf h 4) (q.indices sP cP) = .ok es ∧
    (hScratch k = true → presenceCheck (q.on sP cP) (halfRuns k es) = .ok ()) ∧
    reach (q.on sP cP) (q.after sP cP) h .w false runs = .ok () ∧
    watchStep (q.on sP cP) (q.after sP cP) (runEls h .lw runs) = .ok s₀ ∧
    observeParked (q.on sP cP) s₀ h runs = .ok s₁ ∧ observeParked (q.on sP cP) s₁ k (halfRuns k es) = .ok s₂ ∧
    (hScratch k = false →
      xlCheck (xlLines s₂ cP.ln .w (halfRuns k es)) (xlLines s₂ cP.ln .w (halfRuns k es)) = .ok ()) :=
  ⟨cP.slot 1, cP.slot 2, _, _, _, _, _, ready_of (ctx_eq _ _ _) (by decide +kernel) (by decide +kernel), .inl rfl,
    by decide +kernel, by decide +kernel, by decide +kernel, rfl, rfl, by decide +kernel, by decide +kernel, by decide +kernel,
    by decide +kernel, by decide +kernel, by decide +kernel, by decide +kernel, ok_eq _ (by decide +kernel),
    ok_eq _ (by decide +kernel), fun _ => unit_ok (by decide +kernel), unit_ok (by decide +kernel), ok_eq _ (by decide +kernel),
    ok_eq _ (by decide +kernel), ok_eq _ (by decide +kernel), fun h => absurd h (by decide +kernel)⟩

def cA : Ctx := ctx sL 2 (by decide +kernel)

theorem wit_AtomicEntersTheFifo : ∃ p a hs h runs s₁, atomRule (.atom .add (.acqRel .die) 1 (.v 2) (.slot 0 .w4)) = some (p, a, hs) ∧
    let q := atomIssue p (.atom .add (.acqRel .die) 1 (.v 2) (.slot 0 .w4)) a hs 0 .w4
    q.Ready sL cA ∧ Width.w4 ∈ p.widths ∧ (p.regs .w4 = 1 ∨ ∃ r : VReg, p.data = .v r ∧ r.val % p.regs .w4 = 0) ∧
      q.Updates sL cA h (if p.isFloat then [3] else [0, 2, 3]) (4 * Width.w4.regs) runs
        (runs.flatMap (fun r => runEls h .lr [r] ++ runEls h .lw [r])) s₁ ∧
      hDigest h = false ∧ (p.isFloat = true → cA.ln.det = false) ∧
      atomReqs (q.on sL cA) s₁ h runs (fun l => ⟨l, 0, 0⟩) ≠ [] :=
  ⟨_, _, _, cA.slot 0, _, _, rfl, ready_of (ctx_eq _ _ _) (by decide +kernel) (by decide +kernel), by decide, .inl rfl,
    ⟨⟨rfl, by decide +kernel, by decide +kernel, by decide +kernel, ok_eq _ (by decide +kernel)⟩, _, _, ok_eq _ (by decide +kernel),
      ok_eq _ (by decide +kernel), ok_eq _ (by decide +kernel)⟩, by decide +kernel, fun h => absurd h (by decide), by decide +kernel⟩

/-- s4 names slot 0 and the index of its last eight bytes; s5 those of the PROFILE handle of slot 1. -/
def sU : State :=
  withS [(4, 65528), (5, BitVec.ofNat 32 (2 ^ 26 + 65528))]
    (withH [(0, mkH 0 0x10000 65536 false), (1, mkH 0 0x10000 65536 false (2 ^ 18))] (withData base))
def cU : Ctx := ctx sU 1 (by decide +kernel)
theorem cU_stands : Stands sU cU 1 := ⟨ctx_eq _ _ _, by decide +kernel⟩

theorem wit_UniformLoadsAndStores_ldu : ∃ h r s₁ s₂, Stands sU cU (Instr.len (.ldu (some .die) true 6 (.s 4))) ∧
    PopReaches sU cU (readU cU.g (.s 4)) [0, 2, 3] .r [.lr] 8 h r s₁ ∧ hProfile h = false ∧
    observeParked cU s₁ h r.toList = .ok s₂ ∧ Canon sU ∧ r ≠ none :=
  ⟨cU.slot 0, _, _, _, cU_stands, ⟨by decide +kernel, by decide +kernel, by decide +kernel, pair_eq _ (by decide +kernel)⟩,
    by decide +kernel, ok_eq _ (by decide +kernel), canon _ (by decide +kernel), by decide +kernel⟩

theorem wit_UniformLoadsAndStores_stu : ∃ h r s₁ s₂, Stands sU cU (Instr.len (.stu none true 6 (.s 4))) ∧
    counter sU cU.g.key .store < 63 ∧ PopReaches sU cU (readU cU.g (.s 4)) [0, 2, 3] .w [.lw] 8 h r s₁ ∧ hProfile h = false ∧
    observeParked cU s₁ h r.toList = .ok s₂ :=
  ⟨cU.slot 0, _, _, _, cU_stands, by decide +kernel,
    ⟨by decide +kernel, by decide +kernel, by decide +kernel, pair_eq _ (by decide +kernel)⟩, by decide +kernel,
    ok_eq _ (by decide +kernel)⟩

theorem wit_UniformLoadsAndStores_qst : ∃ h r s₁ s₂, Stands sU cU (Instr.len (.qst 7 (.s 5))) ∧
    counter sU cU.g.key .store < 63 ∧ PopReaches sU cU (readU cU.g (.s 5)) [0, 2] .w [.lw] 8 h r s₁ ∧ hProfile h = true ∧
    observeParked cU s₁ h r.toList = .ok s₂ :=
  ⟨cU.slot 1, _, _, _, cU_stands, by decide +kernel,
    ⟨by decide +kernel, by decide +kernel, by decide +kernel, pair_eq _ (by decide +kernel)⟩, by decide +kernel,
    ok_eq _ (by decide +kernel)⟩

theorem wit_IdentifierAndQueryReads : (∃ n, Stands base c1 (Instr.len (.idrd 1 (.imm 44))) ∧
      identifier c1 (readU c1.g (.imm 44)).toNat = some n) ∧
    (Stands base c1 (Instr.len (.qrd 7 (.imm 35))) ∧ (readU c1.g (.imm 35)).toNat < 4) :=
  ⟨⟨_, stands1, some_eq _ (by decide)⟩, stands1, by decide⟩

/-- A load of the group is outstanding, and its FIFO holds a store. -/
def sW : State :=
  onGroup (fun g => { g with fifo := [.store 3 false none []] })
    { base with ops := [⟨3, k0, .load, .load [], 0, 1, false, [], none, [], 0⟩], seq := 4 }
def cW : Ctx := ctx sW 1 (by decide +kernel)
theorem cW_stands : Stands sW cW 1 := ⟨ctx_eq _ _ _, by decide +kernel⟩

theorem wit_WaitsAndFences : (Stands base c1 1 ∧ counter base c1.g.key .load ≤ 0 ∧ ∀ j ∈ openHits base, waitcHits c1.g 0 63 63 63 j = false) ∧
    (Stands sW cW 1 ∧ ¬ counter sW cW.g.key .load ≤ 0) ∧ fenceReady c1.g .system (base.seq - 1) = true ∧
    fenceReady cW.g .system (sW.seq - 1) = false ∧ drainReady base c1.g c1.w.core .module (base.seq - 1) = true :=
  ⟨⟨stands1, by decide +kernel, by decide +kernel⟩, ⟨cW_stands, by decide +kernel⟩, by decide +kernel, by decide +kernel,
    by decide +kernel⟩
/-! ## Barriers, ring queues and tables -/

theorem stands (s : State) (n : Nat) (h : (focusCtx s n).isSome = true)
    (e : inCode (ctx s n h).ln (ctx s n h).g (ctx s n h).nextPc = true) : Stands s (ctx s n h) n := ⟨ctx_eq _ _ _, e⟩

/-- Bytes of the scratchpad, and of the data page. -/
def withScr (off n v : Nat) (s : State) : State :=
  onWg (fun w => { w with scratch := memSetBytes w.scratch off (leBytes n v) }) s
def poke (off n v : Nat) (s : State) : State := { s with mem := memSetBytes s.mem (0x110000 + off) (leBytes n v) }

/-- Barriers at 0, a ring of one, and at 16, in phase 3. -/
def sB : State :=
  withS [(4, 0), (6, 0x200008), (7, 64), (8, 16)]
    (withScr 0 16 (barInit 8 1).toNat (withScr 16 16 (setBits (barInit 8 0) 3 0 3).toNat base))
def cB : Ctx := ctx sB 1 (by decide +kernel)
theorem cB_stands : Stands sB cB 1 := stands _ _ _ (by decide +kernel)

theorem not_passed {n p : Nat} (h : (List.range 9).all (fun d => d == 0 || (p + d) % 16 != n) = true) : ¬ passed n p := by
  rintro ⟨d, h1, h2, h3⟩
  have := List.all_eq_true.mp h d (List.mem_range.mpr (by omega))
  simp [h3] at this
  omega

theorem wit_BarrierInstructionsUpdateTheirBarrier : let d := drainFifo sB cB.g.key
    (∃ u, Stands sB cB (Instr.len (.binit (.s 4) (.s 6))) ∧
      let a := (readU cB.g (.s 6)).toNat % 2 ^ 20
      let n := (readU cB.g (.s 6)).toNat / 2 ^ 20 % 2 ^ 8
      let b := (readU cB.g (.s 4)).toNat
      (readU cB.g (.s 6)).toNat / 2 ^ 28 = 0 ∧ a ≠ 0 ∧ b % 16 = 0 ∧ b + 16 * max n 1 ≤ cB.scratchSize ∧
      (∀ i < 16 * max n 1, (b + i) / 128 ∉ cB.w.absent) ∧
      observeLines cB d (scratchLines [⟨0, b, 16 * max n 1, 0⟩]) = .ok u) ∧
    (∃ off ph u, Stands sB cB (Instr.len (.barrive true true (.s 4) (.s 7))) ∧ (readU cB.g (.s 7)).toNat < 2 ^ 25 ∧
      locateBar cB d true (.s 4) 0 = .ok (off, ph) ∧ observeBar cB d true (.s 4) off = .ok u) ∧
    (∃ off ph u, Stands sB cB (Instr.len (.bexpect false (.s 8) (.s 7))) ∧ (readU cB.g (.s 7)).toNat < 2 ^ 25 ∧
      locateBar cB d false (.s 8) 0 = .ok (off, ph) ∧ observeBar cB d false (.s 8) off = .ok u) :=
  ⟨⟨_, cB_stands, by decide +kernel, by decide +kernel, by decide +kernel, by decide +kernel, by decide +kernel,
     ok_eq _ (by decide +kernel)⟩,
   ⟨_, _, _, cB_stands, by decide +kernel, pair_eq _ (by decide +kernel), ok_eq _ (by decide +kernel)⟩,
   ⟨_, _, _, cB_stands, by decide +kernel, pair_eq _ (by decide +kernel), ok_eq _ (by decide +kernel)⟩⟩

theorem wit_BarrierWaitAndTest :
    let d := drainFifo sB cB.g.key
    let now := fun (u : State) off => (Rules.Barrier.of (barGet u cB.w.uid off)).phase
    (Stands sB cB (Instr.len (.bwait false (.s 8) (.imm 34))) ∧ Stands sB cB (Instr.len (.btest .test true 8 (.imm 34)))) ∧
    (∃ u, (readU cB.g (.imm 34)).toNat < 16 ∧ locateBar cB d false (.s 8) (readU cB.g (.imm 34)).toNat = .ok (16, 2) ∧
      observeBar cB d false (.s 8) 16 = .ok u ∧ passed (now u 16) 2 ∧ ∀ j ∈ openHits u, barHits cB.w.uid 16 (now u 16) j = false) ∧
    (∃ u, (readU cB.g (.imm 35)).toNat < 16 ∧ locateBar cB d false (.s 8) (readU cB.g (.imm 35)).toNat = .ok (16, 3) ∧
      observeBar cB d false (.s 8) 16 = .ok u ∧ ¬ passed (now u 16) 3) ∧
    (∃ u, locateBar cB d true (.s 4) 0 = .ok (0, 0) ∧ observeBar cB d true (.s 4) 0 = .ok u) :=
  ⟨⟨cB_stands, cB_stands⟩,
   ⟨_, by decide +kernel, by rfl, ok_eq _ (by decide +kernel), ⟨1, by decide, by decide, by decide +kernel⟩, by decide +kernel⟩,
   ⟨_, by decide +kernel, by rfl, ok_eq _ (by decide +kernel), not_passed (by decide +kernel)⟩,
   ⟨_, by rfl, ok_eq _ (by decide +kernel)⟩⟩

/-- A queue of four words at index 0 of slot 0, with one entry, and a full one at 64; s4 and s5 name them, s6 an index out
of bounds. -/
def sR : State :=
  withS [(4, 0), (5, 64), (6, 65536), (7, 128)] (withH [(0, mkH 0 0x10000 65536 false)]
    (poke 0 16 (2 ^ 32 + 2 * 2 ^ 64) (poke 64 16 (4 * 2 ^ 32 + 2 * 2 ^ 64) (poke 128 16 (2 * 2 ^ 64) (withData base)))))
def cR : Ctx := ctx sR 1 (by decide +kernel)
theorem cR_stands : Stands sR cR 1 := stands _ _ _ (by decide +kernel)

theorem ok_some {α : Type} (x : Except Stop (Option α)) (h : isOk x = true) (e : (okOf x h).isSome = true) :
    x = .ok (some ((okOf x h).get e)) := (ok_eq _ h).trans (congrArg _ (some_eq _ e))
theorem ok_some3 {α β γ : Type} (x : Except Stop (Option (α × β × γ))) (h : isOk x = true) (e : (okOf x h).isSome = true) :
    x = .ok (some (((okOf x h).get e).1, ((okOf x h).get e).2.1, ((okOf x h).get e).2.2)) := ok_some x h e
theorem ok_someP {α β : Type} (x : Except Stop (Option α × β)) (h : isOk x = true) (e : (okOf x h).1.isSome = true) :
    x = .ok (some ((okOf x h).1.get e), (okOf x h).2) :=
  (ok_eq _ h).trans (congrArg _ (Prod.ext (some_eq _ e) rfl))
theorem ok_none {α : Type} (x : Except Stop (Option α)) (h : isOk x = true) (e : (okOf x h).isNone = true) :
    x = .ok none := (ok_eq _ h).trans (congrArg _ (Option.isNone_iff_eq_none.mp e))

theorem wit_RingQueueOperations_enq :
    Stands sR cR (Instr.len (.rqenq none false 8 (.s 4))) ∧
    ringOpen cR sR false none (readU cR.g (.s 6)) = .ok none ∧
    (∃ h cb s₁, ringOpen cR sR false none (readU cR.g (.s 5)) = .ok (some (h, cb, s₁)) ∧
      cb.tail = (cb.head + 2 ^ cb.logn) % 2 ^ 32) ∧
    (∃ h cb s₁ e l s₂, ringOpen cR sR false none (readU cR.g (.s 4)) = .ok (some (h, cb, s₁)) ∧
      cb.tail ≠ (cb.head + 2 ^ cb.logn) % 2 ^ 32 ∧
      ringEntry cR s₁ h ((readU cR.g (.s 4)).toNat % 2 ^ 26) 4 cb.tail cb.logn = .ok (some e, s₂) ∧
      ringHead cR s₂ h ((readU cR.g (.s 4)).toNat % 2 ^ 26) = some l) :=
  ⟨cR_stands, ok_none _ (by decide +kernel) (by decide +kernel),
   ⟨_, _, _, ok_some3 _ (by decide +kernel) (by decide +kernel), by decide +kernel⟩,
   ⟨_, _, _, _, _, _, ok_some3 _ (by decide +kernel) (by decide +kernel), by decide +kernel,
     ok_someP _ (by decide +kernel) (by decide +kernel), some_eq _ (by decide +kernel)⟩⟩

theorem wit_RingQueueOperations_deq :
    Stands sR cR (Instr.len (.rqdeq (some .group) false 8 (.s 4))) ∧ wideOpt (some Scope.group) = false ∧
    (∃ h cb s₁, ringOpen cR sR false none (readU cR.g (.s 7)) = .ok (some (h, cb, s₁)) ∧ cb.tail = cb.head) ∧
    (∃ h cb s₁ e l s₂, ringOpen cR sR false none (readU cR.g (.s 4)) = .ok (some (h, cb, s₁)) ∧ cb.tail ≠ cb.head ∧
      ringEntry cR s₁ h ((readU cR.g (.s 4)).toNat % 2 ^ 26) 4 cb.head cb.logn = .ok (some e, s₂) ∧
      ringHead cR s₂ h ((readU cR.g (.s 4)).toNat % 2 ^ 26) = some l) :=
  ⟨cR_stands, rfl, ⟨_, _, _, ok_some3 _ (by decide +kernel) (by decide +kernel), by decide +kernel⟩,
   ⟨_, _, _, _, _, _, ok_some3 _ (by decide +kernel) (by decide +kernel), by decide +kernel,
     ok_someP _ (by decide +kernel) (by decide +kernel), some_eq _ (by decide +kernel)⟩⟩

/-- Handles, distribution and generator descriptors at their offsets; s4.. hold the offsets. -/
def sT : State :=
  withS [(4, 0), (5, 256), (6, 512), (7, 768), (8, 1024), (9, 4096)]
    (withH [(0, mkH 0 0x10000 65536 false), (1, mkH 0 0 1024 true), (2, mkH 0 0x10000 65536 false)]
      (poke 0 32 (mkH 3 0x10000 256 false).toNat
        (poke 256 16 (1 + 2 ^ 4 + 2 ^ 96 * 0x3F800000)
          (poke 512 32 (1 + 2 ^ 4 * 3 + 2 ^ 32 * 0x3F800000 + 2 ^ 192 * 7)
            (poke 768 24 (3 + 2 ^ 4 * 3 + 2 ^ 32 * 0x3F800000 + 2 ^ 128 * 2048) (withData base))))))
def cT : Ctx := ctx sT 1 (by decide +kernel)
theorem cT_stands : Stands sT cT 1 := stands _ _ _ (by decide +kernel)

theorem wit_HandleTableInstructions :
    (∃ h a s₁, Stands sT cT (Instr.len (.hload 4 (.imm 32) 3)) ∧ tableSource cT (readU cT.g (.imm 32)).toNat true = .ok h ∧
      tableRun cT sT h (cT.g.sreg 4).toNat 128 128 = .ok (a, s₁) ∧
      (let d : Handle := BitVec.ofNat 1024 (ofBytes (tableBytes cT s₁ h a 128).1)
       loaded d = true ∧ handleFault d = none)) ∧
    (∃ d, Stands sT cT (Instr.len (.hadj 4 (.imm 32) 2)) ∧ (4 : Nat) % 2 = 0 ∧
      adjusted (cT.slot 2) (readU cT.g (.imm 32)).toNat (cT.g.sreg 4) (cT.g.sreg 5) = some d ∧
      loaded (cT.slot 2) = true ∧ handleFault d = none) ∧
    (∃ n, Stands sT cT (Instr.len (.hqry 9 (.imm 32) 2)) ∧ hqryItem (cT.slot 2) (readU cT.g (.imm 32)).toNat = some n) :=
  ⟨⟨_, _, _, cT_stands, ok_eq _ (by decide +kernel), pair_eq _ (by decide +kernel), by decide +kernel, by decide +kernel⟩,
   ⟨_, cT_stands, rfl, some_eq _ (by decide +kernel), by decide +kernel, by decide +kernel⟩,
   ⟨_, cT_stands, some_eq _ (by decide +kernel)⟩⟩

theorem wit_DistributionAndGeneratorLoads_ds :
    (∃ h a s₁, Stands sT cT (Instr.len (.dsld 9 (.imm 32) 3)) ∧ tableSource cT (readU cT.g (.imm 32)).toNat false = .ok h ∧
      tableRun cT sT h (cT.g.sreg 9).toNat 256 256 = .ok (a, s₁) ∧
      (BitVec.ofNat 2048 (ofBytes (tableBytes cT s₁ h a 256).1) : DsDesc) = 0) ∧
    (∃ h a s₁ k o v, tableSource cT (readU cT.g (.imm 32)).toNat false = .ok h ∧
      tableRun cT sT h (cT.g.sreg 5).toNat 256 256 = .ok (a, s₁) ∧
      (let d : DsDesc := BitVec.ofNat 2048 (ofBytes (tableBytes cT s₁ h a 256).1)
       d ≠ 0 ∧ dsKind (bits d 2 0) = some k ∧ dsValid d k = true ∧ dsTable cT (tableBytes cT s₁ h a 256).2 d k = .ok (o, v) ∧
       ∃ u, observeLines cT v (scratchLines [⟨0, o, dsTableSize k (dsN d), 0⟩]) = .ok u)) :=
  ⟨⟨_, _, _, cT_stands, ok_eq _ (by decide +kernel), pair_eq _ (by decide +kernel), by decide +kernel⟩,
   ⟨_, _, _, _, _, _, ok_eq _ (by decide +kernel), pair_eq _ (by decide +kernel), by decide +kernel, some_eq _ (by decide +kernel),
     by decide +kernel, pair_eq _ (by decide +kernel), _, ok_eq _ (by decide +kernel)⟩⟩

theorem wit_DistributionAndGeneratorLoads_gn :
    (∃ h a s₁, Stands sT cT (Instr.len (.gnld 9 (.imm 32) 3)) ∧ tableSource cT (readU cT.g (.imm 32)).toNat false = .ok h ∧
      tableRun cT sT h (cT.g.sreg 9).toNat 128 128 = .ok (a, s₁) ∧
      (BitVec.ofNat 1024 (ofBytes (tableBytes cT s₁ h a 128).1) : GnDesc) = 0) ∧
    (∃ h a s₁, tableSource cT (readU cT.g (.imm 32)).toNat false = .ok h ∧
      tableRun cT sT h (cT.g.sreg 6).toNat 128 128 = .ok (a, s₁) ∧
      (let d : GnDesc := BitVec.ofNat 1024 (ofBytes (tableBytes cT s₁ h a 128).1)
       d ≠ 0 ∧ gnValid d = true ∧ gnKind d ≠ 2 ∧ gnKind d ≠ 3)) ∧
    (∃ h a s₁ b s₂, tableSource cT (readU cT.g (.imm 32)).toNat false = .ok h ∧
      tableRun cT sT h (cT.g.sreg 7).toNat 128 128 = .ok (a, s₁) ∧
      (let d : GnDesc := BitVec.ofNat 1024 (ofBytes (tableBytes cT s₁ h a 128).1)
       d ≠ 0 ∧ gnValid d = true ∧ gnKind d = 3 ∧ tableRun cT (tableBytes cT s₁ h a 128).2 h (gnTidx d) 512 16 = .ok (b, s₂))) :=
  ⟨⟨_, _, _, cT_stands, ok_eq _ (by decide +kernel), pair_eq _ (by decide +kernel), by decide +kernel⟩,
   ⟨_, _, _, ok_eq _ (by decide +kernel), pair_eq _ (by decide +kernel), by decide +kernel, by decide +kernel, by decide +kernel,
     by decide +kernel⟩,
   ⟨_, _, _, _, _, ok_eq _ (by decide +kernel), pair_eq _ (by decide +kernel), by decide +kernel, by decide +kernel,
     by decide +kernel, pair_eq _ (by decide +kernel)⟩⟩

theorem wit_PageRequestAndPrefetch :
    let a := fun n => (hBase (cT.slot n) + (cT.g.sreg 4).toNat + 2 ^ 32 * (cT.g.sreg 5).toNat) % 2 ^ 64
    let b := fun n => (hBase (cT.slot n) + (cT.g.sreg 10).toNat + 2 ^ 32 * (cT.g.sreg 11).toNat) % 2 ^ 64
    Stands sT cT (Instr.len (.pgreq 4 (.imm 48) 0)) ∧ Stands sT cT (Instr.len (.pfh 4 (.imm 48) 0)) ∧
    (∃ off, barAt cT (readU cT.g (.imm 48)).toNat = .ok off) ∧
    loaded (cT.slot 0) = true ∧ inReach sT cT.w cT.ln (cT.slot 0) (a 0) = false ∧ hTrapOob (cT.slot 0) = false ∧
    loaded (cT.slot 1) = true ∧ inReach sT cT.w cT.ln (cT.slot 1) (b 1) = true ∧ hScratch (cT.slot 1) = true ∧
    inReach sT cT.w cT.ln (cT.slot 0) (b 0) = true ∧ hScratch (cT.slot 0) = false ∧ loaded (cT.slot 5) = false :=
  ⟨cT_stands, cT_stands, ⟨_, ok_eq _ (by decide +kernel)⟩, by decide +kernel⟩

/-- The same where the core holds a line with a dirty byte and the memory-side cache a clean one. -/
def lPf : L1Line := ⟨0x110000, 0, cT.w.owner, [(0, 5)], 1, 0⟩
def sPf : State := { sT with cores := [(0, ⟨[lPf], [], []⟩)], msc := [⟨poolBase, [], false⟩] }
def cPf : Ctx := ctx sPf 1 (by decide +kernel)
theorem wit_PageRequestAndPrefetch_values : Stands sPf cPf (Instr.len (.pfh 4 (.imm 48) 0)) ∧
    (readU cPf.g (.imm 48)).toNat / 2 ^ 24 % 4 ≠ 2 ∧ Machine.Inv sPf ∧ PoolCache sPf ∧ CacheAgrees sPf ∧
    CoreCache sPf cPf.w.core ∧ UpToDate sPf cPf.w.core cPf.w.owner 0x110000 ∧
    (Machine.Inv sT ∧ PoolCache sT ∧ CacheAgrees sT ∧ CoreCache sT cT.w.core ∧ ∀ x ∈ (coreOf sT cT.w.core).l1, x.dirty = 0) :=
  ⟨stands _ _ _ (by decide +kernel), by decide +kernel, ⟨by decide +kernel, by decide +kernel⟩, ⟨by decide +kernel, by decide +kernel⟩,
   ⟨by decide +kernel, by decide +kernel, by decide +kernel⟩, ⟨by decide +kernel, by decide +kernel, by decide +kernel⟩,
   fun x hx => by
     have h : l1Find (coreOf sPf cPf.w.core) (lineOf 0x110000) = some lPf := by decide +kernel
     obtain rfl : lPf = x := Option.some.inj (h.symm.trans hx)
     exact ⟨by decide +kernel, .inl (by decide +kernel)⟩,
   ⟨⟨by decide +kernel, by decide +kernel⟩, ⟨by decide +kernel, by decide +kernel⟩, ⟨by decide +kernel, by decide +kernel, by decide +kernel⟩,
    ⟨by decide +kernel, by decide +kernel, by decide +kernel⟩, by decide +kernel⟩⟩

/-! ## Engines: acceptance -/

/-- A generator register for a key store: a sketch of BF16 with group scope. -/
def skDesc : GnDesc := BitVec.ofNat 1024 (1 + 2 ^ 4 * 6 + 2 ^ 8 + 2 ^ 32 * 0x3F800000 + 2 ^ 192 * 5)

/-- A store of dimension 64 and a block of 8 entries, and an output of 16 words in the scratchpad, in a group of width 32;
s4 and s5 are the base of its keys. -/
def sK : State :=
  withS [(4, 0x18000)] (withH [(0, mkH 11 0x10000 256 false), (1, mkH 2 512 16 true)] (withGn ⟨skDesc, 0, 0, 0⟩
    (poke 0 44 (ksFresh 0x18000 16 skDesc 0 1 4 false).toNat (wide 32 (withData base)))))
def cK : Ctx := ctx sK 1 (by decide +kernel)
def cK2 : Ctx := ctx sK 2 (by decide +kernel)
/-- A result that holds this number. -/
def okIs {n : Nat} (x : Except Stop (BitVec n)) (v : Nat) : Bool := match x with | .ok a => a.toNat == v | .error _ => false
theorem ok_is {n : Nat} {x : Except Stop (BitVec n)} {v : BitVec n} (h : okIs x v.toNat = true) : x = .ok v := by
  cases x with
  | ok a => simp only [okIs, beq_iff_eq] at h; exact congrArg _ (BitVec.eq_of_toNat_eq h)
  | error e => exact absurd h (by simp [okIs])

/-- The state beside the result that holds this number. -/
def sndOf {n : Nat} (x : Except Stop (BitVec n × State)) : State := match x with | .ok a => a.2 | .error _ => base
def fstIs {n : Nat} (x : Except Stop (BitVec n × State)) (v : Nat) : Bool :=
  match x with | .ok a => a.1.toNat == v | .error _ => false
theorem fst_is {n : Nat} {x : Except Stop (BitVec n × State)} {v : BitVec n} (h : fstIs x v.toNat = true) :
    x = .ok (v, sndOf x) := by
  cases x with
  | ok a =>
    obtain ⟨y, t⟩ := a
    obtain rfl : y = v := BitVec.eq_of_toNat_eq (by simpa [fstIs] using h)
    rfl
  | error e => exact absurd h (by simp [fstIs])

/-- The store and its header. -/
def kK : Handle := mkH 11 0x10000 256 false
def hK : KsHead := ksFresh 0x18000 16 skDesc 0 1 4 false
theorem cK2_stands : Stands sK cK2 2 := stands _ _ _ (by decide +kernel)

theorem wit_KeyStoreInitialisation : ∃ im, Stands sK cK2 (Instr.len (.ksinit 7 .group 1 0 false 4 (.imm 48) 0)) ∧
    let k := cK2.slot 0
    let kbase := (cK2.g.sreg 4).toNat + 2 ^ 32 * (cK2.g.sreg 5).toNat
    let cap := (readU cK2.g (.imm 48)).toNat
    ksBusy sK cK2.g.key (hBase k) = false ∧ loaded k = true ∧ hFmt k = 11 ∧ hProfile k = false ∧ hExt k 0 ≤ 2 ^ 31 ∧
    hBase k % 256 = 0 ∧ mapFind cK2.g.gn 7 = some im ∧ gnKind im.desc = 1 ∧ gnScope im.desc = true ∧
    kbase % 256 = 0 ∧ kbase < 2 ^ 60 ∧ cap ≤ 2 ^ 24 ∧
    reach cK2 sK k .w false [⟨0, hBase k, 256 + 8 * 2 ^ (0 + 4), 0⟩] = .ok () :=
  ⟨⟨skDesc, 0, 0, 0⟩, cK2_stands, by decide +kernel, by decide +kernel, by decide +kernel, by decide +kernel, by decide +kernel,
   by decide +kernel, rfl, by decide +kernel, by decide +kernel, by decide +kernel, by decide +kernel, by decide +kernel,
   unit_ok (by decide +kernel)⟩

theorem wit_KeyStoreSignature : ∃ s₀,
    let q := engineIssue (.ksig 2 6 0) [] [6, 2, 3] [6] .none
    q.Ready sK cK ∧ cK.g.width = 32 ∧ ksHandle cK 0 = .ok kK ∧ ksHeader cK sK kK = .ok (hK, s₀) ∧ ksBpl hK cK.g.width ≠ 8 ∧
    ∀ l < ksLanes hK cK.g.width, l ∈ cK.act :=
  ⟨_, ready_of (ctx_eq _ _ _) (by decide +kernel) (by decide +kernel), by decide +kernel, ok_is (by decide +kernel),
   fst_is (by decide +kernel), by decide +kernel, by decide +kernel⟩

/-- An operand is the same in every acting lane, as a decision. -/
def uniform (q : LIssue) (s : State) (c : Ctx) (n : Nat) (v : Word) : Bool :=
  (q.acting s c).all (fun l => match c.g.lane? l with | some x => decide (q.operand s c l x n = v) | none => true)
theorem uniform_of {q : LIssue} {s : State} {c : Ctx} {n : Nat} {v : Word} (h : uniform q s c n v = true) : Uniform q s c n v := by
  intro l hl x hx
  have := List.all_eq_true.mp h l hl
  simpa [hx] using this

theorem wit_KeyStoreOperationsAccepted_kst : ∃ s₀ s₁,
    let q := engineIssue (.kst false false (.v 4) .zero 0) [(.int, .zero), (.int, .v 4)] (srcGroup (.v 4) 1) (srcGroup (.v 4) 1) .tile
    let e := q.on sK cK2
    q.Ready sK cK2 ∧ cK2.g.width = 32 ∧ Uniform q sK cK2 0 0 ∧ ksHandle e 0 = .ok kK ∧
    ksHeader e (q.after sK cK2) kK = .ok (hK, s₀) ∧ ksBpl hK cK2.g.width = 4 ∧ (∀ l < ksLanes hK cK2.g.width, l ∈ e.act) ∧ tokenOk kK hK 0 = true ∧
    reach e s₀ kK .w false (kstRuns e hK 0) = .ok () ∧
    watchStep e s₀ (kstEls e kK hK 0) = .ok s₁ :=
  ⟨_, _, ready_of (ctx_eq _ _ _) (by decide +kernel) (by decide +kernel), by decide +kernel, uniform_of (by decide +kernel),
   ok_is (by decide +kernel), fst_is (by decide +kernel), by decide +kernel, by decide +kernel, by decide +kernel,
   unit_ok (by decide +kernel), ok_eq _ (by decide +kernel)⟩

theorem wit_KeyStoreOperationsAccepted_kgath : ∃ s₀ s₁,
    let q := engineIssue (.kgath 0 1 0 none 7 .zero .zero .zero) [(.int, .zero), (.fp32, .zero), (.int, .zero)] [] [] .copy
    let e := q.on sK cK2
    q.Ready sK cK2 ∧ ksClaiming sK cK2.g.key (hBase (cK2.slot 0)) = false ∧ Uniform q sK cK2 0 0 ∧ Uniform q sK cK2 2 0 ∧
    ksHandle e 0 = .ok kK ∧ ksHeader e (q.after sK cK2) kK = .ok (hK, s₀) ∧ kgathOut e 1 0 8 = .ok (mkH 2 512 16 true) ∧
    (let bs := ksBuckets 0 (probeBits 0 (((q.over sK cK2 (fun l y => (l, (q.operand sK cK2 l y 1).toNat))).filter
        (fun m => decide (m.1 < ksBits hK)))))
     reach e s₀ kK .r false (bs.map (fun n => ⟨0, ksEntryVa kK n, 8, 0⟩)) = .ok () ∧
     watchStep e s₀ [] = .ok s₁ ∧
     (let v := bs.foldl (fun u n => ksIssueRead e u (ksEntryVa kK n) 8) s₁
      fallCause hK (((ksSnap v cK2.w cK2.ln kK bs).map (·.nclm)).foldl (· + ·) 0) 8 = 0 ∧ ksLinking v cK2.g.key (hBase kK) bs = false)) :=
  ⟨_, _, ready_of (ctx_eq _ _ _) (by decide +kernel) (by decide +kernel), by decide +kernel, uniform_of (by decide +kernel),
   uniform_of (by decide +kernel), ok_is (by decide +kernel), fst_is (by decide +kernel), ok_is (by decide +kernel),
   unit_ok (by decide +kernel), ok_eq _ (by decide +kernel), by decide +kernel⟩

/-- Two rising lists of words in the scratchpad behind two words of data in memory. -/
def sC : State := withV 2 65532 (withH [(0, mkH 0 0x10000 65536 false), (2, mkH 2 0 8 true), (3, mkH 2 128 8 true)] (withData base))
def cC : Ctx := ctx sC 1 (by decide +kernel)
def cC2 : Ctx := ctx sC 2 (by decide +kernel)

theorem wit_CollectorOperationsAccepted_gath : ∃ h runs s₁ s₂,
    let q := collIssue (.gath 1 none 4 (.v 2) (.slot 0 .w4)) [(.int, .v 2)] (regRange 4 2) (indexRegs (.v 2) 2) .load false
      (.slot 0 .w4) 0 .w4
    let e := q.on sC cC2
    q.Ready sC cC2 ∧ cC2.slot 0 = h ∧ loaded h = true ∧ hFmt h ≤ 10 ∧ hProfile h = false ∧
    laneRuns e h 4 4 ((collList q sC cC2 none (.v 2) 2).map (fun x => (x.lane, x.idx))) = .ok runs ∧
    reachLines e (q.after sC cC2) h .r false runs = .ok () ∧ watchStep e (q.after sC cC2) (runEls h .lr runs) = .ok s₁ ∧
    observeParked e s₁ h runs = .ok s₂ :=
  ⟨cC2.slot 0, _, _, _, ready_of (ctx_eq _ _ _) (by decide +kernel) (by decide +kernel), by decide +kernel, by decide +kernel,
   by decide +kernel, by decide +kernel, ok_eq _ (by decide +kernel), unit_ok (by decide +kernel), ok_eq _ (by decide +kernel),
   ok_eq _ (by decide +kernel)⟩

theorem wit_CollectorOperationsAccepted_scat : ∃ h runs s₁ s₂,
    let q := collIssue (.scat 1 none (.v 4) (.v 2) (.slot 0 .w4)) [(.int, .v 2), (.int, .v 4)] (srcGroup (.v 4) 2)
      (indexRegs (.v 2) 2) .store true (.slot 0 .w4) 0 .w4
    let e := q.on sC cC2
    q.Ready sC cC2 ∧ (∃ r : VReg, (.v 4 : LSrc) = .v r ∧ r.val % 1 = 0) ∧ cC2.slot 0 = h ∧ loaded h = true ∧ hFmt h ≤ 10 ∧
    hProfile h = false ∧
    laneRuns e h 4 4 ((collList q sC cC2 none (.v 2) 2).map (fun x => (x.lane, x.idx))) = .ok runs ∧
    reachLines e (q.after sC cC2) h .w false runs = .ok () ∧ watchStep e (q.after sC cC2) (runEls h .lw runs) = .ok s₁ ∧
    observeParked e s₁ h runs = .ok s₂ ∧ Canon sC :=
  ⟨cC2.slot 0, _, _, _, ready_of (ctx_eq _ _ _) (by decide +kernel) (by decide +kernel), ⟨4, rfl, rfl⟩, by decide +kernel,
   by decide +kernel, by decide +kernel, by decide +kernel, ok_eq _ (by decide +kernel), unit_ok (by decide +kernel),
   ok_eq _ (by decide +kernel), ok_eq _ (by decide +kernel), canon _ (by decide +kernel)⟩

theorem wit_CollectorOperationsAccepted_sisect : ∃ s₁,
    let q := engineIssue (.sisect 2 3 none none 4 .zero 8) [(.int, .zero)] (regRange 4 4 ++ [8]) (regRange 4 4) .load
    q.Ready sC cC2 ∧ (∀ k ∈ [2, 3], loaded (cC2.slot k) = true ∧ streamOk (cC2.slot k) = true) ∧
    (∀ i ∈ collAct none (q.issue sC cC2), (hTrapOob (cC2.slot 2) = true → (i.lane.vreg (4 + 1)).toNat ≤ hExt (cC2.slot 2) 0) ∧
      (hTrapOob (cC2.slot 3) = true → (i.lane.vreg (4 + 3)).toNat ≤ hExt (cC2.slot 3) 0)) ∧
    watchStep (q.on sC cC2) (q.after sC cC2) [] = .ok s₁ :=
  ⟨_, ready_of (ctx_eq _ _ _) (by decide +kernel) (by decide +kernel), by decide +kernel, by decide +kernel,
   ok_eq _ (by decide +kernel)⟩

/-- A barrier at 0, FP32 data in memory, room for it in the scratchpad. -/
def sY : State :=
  withH [(1, mkH 3 0x10000 256 false), (2, mkH 3 256 16 true)] (withScr 0 16 (barInit 8 0).toNat (withData base))
def cY : Ctx := ctx sY 2 (by decide +kernel)
def yWord : CopyWord := ⟨1, 2, .w4, false, .rne, false, true, true, none⟩

theorem wit_CopyAccepted_cpl : ∃ k bar s₀ s₁ s₂, Canon sY ∧
    let q := engineIssue (.cpl yWord .lane .lane .zero) [(.int, .lane), (.int, .zero), (.int, .lane)] [] [] .copy
    let e := q.on sY cY
    let x := q.issue sY cY
    q.Ready sY cY ∧ Uniform q sY cY 1 0 ∧ copyShape yWord false x = .ok k ∧ barAt e 0 = .ok bar ∧
    copyReach e x.s k (copyAct yWord x) = .ok s₀ ∧ watchStep e s₀ (copyEls k) = .ok s₁ ∧
    observeLines e s₁ (checkedLines e x.s k) = .ok s₂ ∧ copySectors e s₂ yWord k (receivers s₂ cY.w none) ≠ [] :=
  ⟨_, _, _, _, _, canon _ (by decide +kernel),
   ready_of (ctx_eq _ _ _) (by decide +kernel) (by decide +kernel), uniform_of (by decide +kernel), ok_eq _ (by decide +kernel),
   ok_eq _ (by decide +kernel), ok_eq _ (by decide +kernel), ok_eq _ (by decide +kernel), ok_eq _ (by decide +kernel), by decide +kernel⟩

theorem wit_CopyAccepted_cpm : ∃ k bar s₀ s₁ s₂,
    let q := engineIssue (.cpm yWord 1 .lane .lane .zero) [(.int, .lane), (.int, .zero), (.int, .lane)] [] [] .copy
    let e := q.on sY cY
    let x := q.issue sY cY
    q.Ready sY cY ∧ Uniform q sY cY 1 0 ∧ copyShape yWord true x = .ok k ∧ barAt e 0 = .ok bar ∧
    copyReach e x.s k (copyAct yWord x) = .ok s₀ ∧ watchStep e s₀ (copyEls k) = .ok s₁ ∧
    observeLines e s₁ (checkedLines e x.s k) = .ok s₂ :=
  ⟨_, _, _, _, _, ready_of (ctx_eq _ _ _) (by decide +kernel) (by decide +kernel), uniform_of (by decide +kernel), ok_eq _ (by decide +kernel),
   ok_eq _ (by decide +kernel), ok_eq _ (by decide +kernel), ok_eq _ (by decide +kernel), ok_eq _ (by decide +kernel)⟩

/-- A ready B-stack slot of FP16, an A operand in the scratchpad, and a team of one octet. -/
def sM : State :=
  let b : BSlot := { BSlot.fresh 1 0 with ncol := 16, fmt := 4, ordFmt := 4, state := .ready, ordState := .ready }
  let s := withH [(0, mkH 4 0 64 true (2 ^ 20))] base
  { s with
    clusters := [(0, { Cluster.empty with bslots := [b] })]
    launches := s.launches.map (fun l => { l with teams := [1, 0, 0, 0, 0, 0, 0, 0] }) }
def cM : Ctx := ctx sM 2 (by decide +kernel)
def mWord : MatWord := ⟨0, .slot 0, false, true⟩

theorem ok4 {α β γ δ : Type} (x : Except Stop (α × β × γ × δ)) (h : isOk x = true) :
    x = .ok ((okOf x h).1, (okOf x h).2.1, (okOf x h).2.2.1, (okOf x h).2.2.2) := ok_eq x h

theorem slot0 {c : Ctx} (h : (0 : Nat) < c.ln.bslots) : slotNamed mWord c := h

theorem wit_MatrixOperationsAccepted_mmq : ∃ os h bs s₁ ws,
    let q := matIssue (.mmq mWord .zero .zero .zero) mWord .zero .zero .zero
    let x := q.issue sM cM
    q.Ready sM cM ∧ slotNamed mWord cM ∧ (octetNums cM.act).length ≤ tableRoom cM sM ∧ octetsOf (.slot 0) x = .ok os ∧
    matCheck mWord x os = .ok (h, bs, s₁, ws) ∧ bs ≠ [] :=
  ⟨_, _, _, _, _, ready_of (ctx_eq _ _ _) (by decide +kernel) (by decide +kernel), slot0 (by decide +kernel), by decide +kernel,
   ok_eq _ (by decide +kernel), ok4 _ (by decide +kernel), by decide +kernel⟩

/-- Whether every member of the open rounds and of those that an issue opens can arrive, as a decision. -/
def canArriveB (s : State) (c : Ctx) (team : Nat) : Bool :=
  s.clusters.all (fun p => p.2.resv.all (fun e => match e.team, findLaunch s e.launch with
    | some (t, m), some ln => (List.range (teamSize ln t)).all (fun i => !cannotArrive s ln e.wg t m i)
    | _, _ => true))
  && (newRounds c s team).all (fun m => (List.range (teamSize c.ln team)).all (fun i => !cannotArrive s c.ln c.w.uid team m i))
theorem canArrive {s : State} {c : Ctx} {team : Nat} (h : canArriveB s c team = true) : AllCanArrive s c team := by
  simp only [canArriveB, Bool.and_eq_true, List.all_eq_true] at h
  refine ⟨fun p hp e he _ t m ln ht hl i hi => ?_, fun m hm i hi => ?_⟩
  · have := h.1 p hp e he
    simp only [ht, hl, List.all_eq_true] at this
    simpa using this i (List.mem_range.mpr hi)
  · simpa using h.2 m hm i (List.mem_range.mpr hi)

/-- The agreement of all arrivals, as a decision. -/
def allAgreeB (s : State) (c : Ctx) (w : MatWord) (team : Nat) (h : Handle) (bs : List (OctetIn × BRef)) : Bool :=
  bs.all (fun p => (memberOf c.ln c.g team p.1.oct).toList.all (fun i =>
    let held := arrivalsOf s c.w.uid team (mapGet 0 c.g.rounds p.1.oct)
    held.all (fun x => agrees x.2 (arrivalFor c w team h 0 p i) && held.all (fun y => agrees x.2 y.2))
      && bs.all (fun q => (memberOf c.ln c.g team q.1.oct).toList.all (fun j =>
        mapGet 0 c.g.rounds q.1.oct != mapGet 0 c.g.rounds p.1.oct
          || agrees (arrivalFor c w team h 0 p i) (arrivalFor c w team h 0 q j)))))
theorem allAgree {s : State} {c : Ctx} {w : MatWord} {team : Nat} {h : Handle} {bs : List (OctetIn × BRef)}
    (e : allAgreeB s c w team h bs = true) : AllAgree s c w team h bs := by
  simp only [allAgreeB, List.all_eq_true, Bool.and_eq_true] at e
  intro p hp i hi
  have a := e p hp i (by simp [hi])
  refine ⟨fun x hx => ⟨(a.1 x hx).1, (a.1 x hx).2⟩, fun q hq j hj hr => ?_⟩
  have := a.2 q hq j (by simp [hj])
  simpa [hr] using this

/-- An MMT of team 0 stands ready, and its operands pass their checks. -/
structure Mmt (s : State) (c : Ctx) (size : Nat) (h : Handle) (bs : List (OctetIn × BRef)) : Prop where
  ready : (matIssue (.mmt mWord 0 .zero .zero .zero) mWord .zero .zero .zero).Ready s c
  named : slotNamed mWord c
  team : teamSize c.ln 0 = size
  table : (newRounds c s 0).length ≤ tableRoom c s ∧ counter s c.g.key .tile + (octetNums c.act).length ≤ 63
  checks : ∃ os₀ os s₁ ws, let x := (matIssue (.mmt mWord 0 .zero .zero .zero) mWord .zero .zero .zero).issue s c
    octetsOf (.slot 0) x = .ok os₀ ∧ teamDiffer os₀ = [] ∧ memberOctets x.c 0 os₀ = .ok os ∧ matCheck mWord x os = .ok (h, bs, s₁, ws)
  canon : Canon s

theorem wit_MatrixOperationsAccepted_mmt : ∃ h bs, Mmt sM cM 1 h bs ∧ AllCanArrive sM cM 0 ∧ AllAgree sM cM mWord 0 h bs :=
  ⟨_, _, ⟨ready_of (ctx_eq _ _ _) (by decide +kernel) (by decide +kernel), slot0 (by decide +kernel), by decide +kernel,
     by decide +kernel, ⟨_, _, _, _, ok_eq _ (by decide +kernel), by decide +kernel, ok_eq _ (by decide +kernel),
       ok4 _ (by decide +kernel)⟩, canon _ (by decide +kernel)⟩, canArrive (by decide +kernel), allAgree (by decide +kernel)⟩

/-- The same with a team of two, whose other member, in group 1, has arrived at the open round with another word. -/
def sM2 (t : Bool) : State :=
  let word : MatWord := ⟨0, .slot 0, t, true⟩
  let o : OctetOp := ⟨3, mkH 4 0 64 true (2 ^ 20), 0, 0, .slot 0 0, 0, 0, t, true⟩
  let g1 : Group := { freshGroup (probeLaunch 1) 2 0 1 ⟨1, 16, 0, 1, 0⟩ with key := ⟨2, 1⟩ }
  let s := onWg (fun w => { w with accRows := 16 }) sM
  { s with
    groups := s.groups ++ [g1], seq := 9
    launches := s.launches.map (fun l => { l with teams := [2, 0, 0, 0, 0, 0, 0, 0], gpw := 2, accRows := 16 })
    ops := [⟨3, ⟨2, 1⟩, .tile, .team ⟨0, 2, 1, 0, word, 0, 0, 0xFF, o⟩, 0, 1, false, [], none, [], 0⟩]
    clusters := [(0, { clusterOf s 0 with resv := [⟨4, 2, 1, 0, [o], some (0, 0), false, 0, false⟩] })] }

def cMf : Ctx := ctx (sM2 false) 2 (by decide +kernel)
def cMt : Ctx := ctx (sM2 true) 2 (by decide +kernel)

theorem wit_MatrixOperationsAccepted_last : ∃ h bs, Mmt (sM2 false) cMf 2 h bs ∧ AllCanArrive (sM2 false) cMf 0 ∧
    AllAgree (sM2 false) cMf mWord 0 h bs ∧ (arrivalsOf (sM2 false) 2 0 0).length + bs.length = 2 :=
  ⟨_, _, ⟨ready_of (ctx_eq _ _ _) (by decide +kernel) (by decide +kernel), slot0 (by decide +kernel), by decide +kernel,
     by decide +kernel, ⟨_, _, _, _, ok_eq _ (by decide +kernel), by decide +kernel, ok_eq _ (by decide +kernel),
       ok4 _ (by decide +kernel)⟩, canon _ (by decide +kernel)⟩, canArrive (by decide +kernel), allAgree (by decide +kernel),
   by decide +kernel⟩

theorem wit_MatrixOperationsAccepted_disagree : ∃ h bs, Mmt (sM2 true) cMt 2 h bs ∧ bs.length = 1 ∧
    (∀ p ∈ bs, memberOf cMt.ln cMt.g 0 p.1.oct = some 0 ∧
      (arrivalsOf (sM2 true) 2 0 0).any (fun x => !agrees x.2 (arrivalFor cMt mWord 0 h 0 p 0)) = true) ∧
    (arrivalsOf (sM2 true) 2 0 0).length + 1 = 2 :=
  ⟨_, _, ⟨ready_of (ctx_eq _ _ _) (by decide +kernel) (by decide +kernel), slot0 (by decide +kernel), by decide +kernel,
     by decide +kernel, ⟨_, _, _, _, ok_eq _ (by decide +kernel), by decide +kernel, ok_eq _ (by decide +kernel),
       ok4 _ (by decide +kernel)⟩, canon _ (by decide +kernel)⟩, by decide +kernel, by decide +kernel, by decide +kernel⟩
/-! ## Accumulators and the B stack -/

/-- Every mask bit of the group is 1, and slot 0 is an FP32 row in memory, slot 1 an FP16 one. -/
def sG : State :=
  withH [(0, mkH 3 0x10000 256 false), (1, mkH 4 0x10000 64 false)] (onGroup (fun g => { g with lanes := g.lanes.map (fun x => { x with m := 0xFFFF }) })
    (withData base))
def cG : Ctx := ctx sG 1 (by decide +kernel)
def cG2 : Ctx := ctx sG 2 (by decide +kernel)
theorem cG_stands : Stands sG cG 1 := stands _ _ _ (by decide +kernel)
theorem cG2_stands : Stands sG cG2 2 := stands _ _ _ (by decide +kernel)

/-- The same with registers enough for 32 rows at once. -/
def sGw : State := onLaunch (fun l => { l with nregs := 40 }) sG
def cGw : Ctx := ctx sGw 2 (by decide +kernel)

theorem wit_AccumulatorOperationsAccepted_accrd :
    let q := engineIssue (.accrd 31 8 .zero .zero) [(.int, .zero), (.int, .zero)] (regRange 8 32) [] .tile
    q.Ready sGw cGw ∧ Uniform q sGw cGw 0 0 ∧ Uniform q sGw cGw 1 0 ∧
      ∀ e ∈ accList q sGw cGw 0 0 32 8 (fun _ _ _ => 0), e.row < cGw.w.accRows ∧ e.col < 256 ∧
        PoisonLoc.acc cGw.w.uid e.row e.col ∉ sGw.poison :=
  ⟨ready_of (ctx_eq _ _ _) (by decide +kernel) (by decide +kernel), uniform_of (by decide +kernel),
   uniform_of (by decide +kernel), by decide +kernel⟩

theorem wit_AccumulatorOperationsAccepted_accwr :
    let q := engineIssue (.accwr 1 (.v 4) .zero .zero) [(.int, .zero), (.int, .zero), (.int, .v 4)] (srcGroup (.v 4) 2)
      (srcGroup (.v 4) 2) .tile
    q.Ready sG cG2 ∧ Uniform q sG cG2 0 0 ∧ Uniform q sG cG2 1 0 ∧
      ∀ e ∈ accList q sG cG2 0 0 2 0 (fun l y j => ((srcGroup (.v 4) 2).map (q.drawn sG cG2 l y).vreg).getD j 0),
        e.row < cG2.w.accRows ∧ e.col < 256 :=
  ⟨ready_of (ctx_eq _ _ _) (by decide +kernel) (by decide +kernel), uniform_of (by decide +kernel), uniform_of (by decide +kernel),
   by decide +kernel⟩

/-- Something holds in every acting lane, as a decision. -/
def lanes (q : LIssue) (s : State) (c : Ctx) (f : Nat → Lane → Bool) : Bool :=
  (q.acting s c).all (fun l => match c.g.lane? l with | some x => f l x | none => true)
theorem lanes_of {q : LIssue} {s : State} {c : Ctx} {f : Nat → Lane → Bool} (h : lanes q s c f = true) :
    ∀ l ∈ q.acting s c, ∀ y, c.g.lane? l = some y → f l y = true := by
  intro l hl y hy
  have := List.all_eq_true.mp h l hl
  simpa [hy] using this

theorem wit_AccumulatorOperationsAccepted_accpatch :
    let q := engineIssue (.accpatch true .one .lane 3) [(.int, .lane), (.fp32, .one)] [] [] .tile
    let pos := fun l y => (q.operand sG cG2 l y 0).toNat
    let els := (q.over sG cG2 (fun l y => if (q.drawn sG cG2 l y).mbit 3 = true then
      [(⟨l, 0, pos l y % 2 ^ 11, pos l y / 2 ^ 16 % 2 ^ 8, q.operand sG cG2 l y 1⟩ : AccElem)] else [])).flatten
    q.Ready sG cG2 ∧
    (∀ l ∈ q.acting sG cG2, ∀ y, cG2.g.lane? l = some y →
      decide (pos l y / 2 ^ 24 = 0 ∧ pos l y / 2 ^ 11 % 2 ^ 5 = 0) = true) ∧
    els.length = 8 ∧ ∀ e ∈ els, e.row < cG2.w.accRows ∧ PoisonLoc.acc cG2.w.uid e.row e.col ∉ sG.poison :=
  ⟨ready_of (ctx_eq _ _ _) (by decide +kernel) (by decide +kernel), lanes_of (by decide +kernel), by decide +kernel, by decide +kernel⟩

theorem wit_AccumulatorOperationsAccepted_accst : ∃ tiles xl s₁,
    Stands sG cG2 (Instr.len (.accst 1 .rne false (.imm 38) (.imm 32) 0)) ∧
    let h := cG2.slot 0
    let els := accstElems h 6 2 0
    ((readU cG2.g (.imm 38)).toNat = 6 ∧ (readU cG2.g (.imm 32)).toNat = 0 ∧ counter sG cG2.g.key .tile < 63 ∧ loaded h = true ∧
    hFmt h ∈ [3, 4, 6, 7] ∧ hProfile h = false ∧ 6 + 1 + 1 ≤ cG2.w.accRows) ∧ accstTiles h els = some tiles ∧ hTrapOob h = false ∧
    (∀ e ∈ els, e.col = 0 → e.va % 16 = 0) ∧ engineReach cG2 sG h .w (accstRuns h els tiles) = .ok xl ∧
    watchStep cG2 sG (accstEls cG2 h els 6 0) = .ok s₁ :=
  ⟨_, _, _, cG2_stands, by decide +kernel, some_eq _ (by decide +kernel), by decide +kernel, by decide +kernel, ok_eq _ (by decide +kernel),
   ok_eq _ (by decide +kernel)⟩

/-- A move into row 7 is still outstanding. -/
def sQ : State := { sG with ops := [⟨3, k0, .tile, .accwr [⟨0, 0, 7, 0, 1⟩], 0, 1, false, [], none, [], 0⟩], seq := 4 }
def cQ : Ctx := ctx sQ 1 (by decide +kernel)

theorem wit_AccumulatorOperationsAccepted_accz :
    (readU cG.g (.imm 39)).toNat + (readU cG.g (.imm 33)).toNat ≤ cG.w.accRows ∧
    (Stands sG cG (Instr.len (.accz (.imm 39) (.imm 33))) ∧ Canon sG ∧ accTurn sG cG.g.key sG.seq [(7, 1)] = true) ∧
    (Stands sQ cQ (Instr.len (.accz (.imm 39) (.imm 33))) ∧ Canon sQ ∧ accTurn sQ cQ.g.key sQ.seq [(7, 1)] = false) :=
  ⟨by decide +kernel, ⟨cG_stands, canon _ (by decide +kernel),
    by decide +kernel⟩, stands _ _ _ (by decide +kernel),
    canon _ (by decide +kernel), by decide +kernel⟩

theorem wit_BStackInstructions : (∃ xl s₁ s₂, Stands sG cG2 (Instr.len (.bld false true 4 (.imm 32) 1)) ∧
    let h := cG2.slot 1
    let cs := bldChunks h 0 false
    ((cG2.g.sreg 4).toNat = 0 ∧ counter sG cG2.g.key .tile < 63 ∧ (readU cG2.g (.imm 32)).toNat < cG2.ln.bslots ∧ loaded h = true ∧
    hFmt h ∈ [4, 6, 7, 8, 9, 10] ∧ hProfile h = false ∧ hTrapOob h = false ∧ bldMisaligned h 0 cs = false ∧
    hScratch h = false) ∧ engineReach cG2 sG h .r (bldRuns h cs) = .ok xl ∧ watchStep cG2 sG (bldEls cG2 h 0 cs) = .ok s₁ ∧
    observeLines cG2 s₁ (if hScratch h then scratchLines (bldRuns h cs) else []) = .ok s₂) ∧
    (Stands sG cG (Instr.len (.bfree (.imm 32))) ∧ (bslotGet sG (cG.w.core / 4) cG.ln.uid 0).steps = []) ∧
    (Canon sG ∧ (bslotGet sG (cG2.w.core / 4) cG2.ln.uid 0).steps = []) ∧
    (let b := { BSlot.fresh 1 0 with steps := [.load 3], state := .loading }
     let s := { sG with clusters := [(0, { Cluster.empty with bslots := [b] })] }
     focusCtx s 1 ≠ none ∧ (bslotGet s 0 1 0).steps.head? = some (.load 3)) :=
  ⟨⟨_, _, _, cG2_stands, by decide +kernel, ok_eq _ (by decide +kernel), ok_eq _ (by decide +kernel), ok_eq _ (by decide +kernel)⟩,
   ⟨cG_stands, by decide +kernel⟩, ⟨canon _ (by decide +kernel), by decide +kernel⟩, by decide +kernel⟩

/-! ## Launches, trap mode and ends -/

/-- The root region, and a record of it at index 128 of slot 0; `stopped` is its STOPPED bit. -/
def regions (stopped : Nat) (s : State) : State :=
  { s with mem := memSetBytes (memSetBytes s.mem (0x200200 + 58) (leBytes 4 (256 + 0x3FF * 2 ^ 16))) (0x200200 + 84) (leBytes 1 stopped) }
def sN (stopped : Nat) : State :=
  withS [(4, 128)] (withH [(0, mkH 0 0x10000 65536 false)] (regions stopped (poke (128 + 24) 8 0x200200 (withData base))))
def cN0 : Ctx := ctx (sN 0) 2 (by decide +kernel)
def cN1 : Ctx := ctx (sN 1) 2 (by decide +kernel)
theorem cN0_stands : Stands (sN 0) cN0 2 := stands _ _ _ (by decide +kernel)
theorem cN1_stands : Stands (sN 1) cN1 2 := stands _ _ _ (by decide +kernel)

theorem ok3 {α β γ : Type} (x : Except Stop (α × β × γ)) (h : isOk x = true) :
    x = .ok ((okOf x h).1, (okOf x h).2.1, (okOf x h).2.2) := ok_eq x h

theorem wit_LaunchAndTapePush_launch :
    (∃ pa g s₁, Stands (sN 0) cN0 (Instr.len (.launch true 6 (.s 4))) ∧ launchCheck (readU cN0.g (.s 4)) cN0 (sN 0) = .ok (pa, g, s₁) ∧
      recOwned (sN 0) pa = false ∧ chainStopped s₁ (metRcbs s₁ 8 g) = false) ∧
    (∃ pa g s₁, Stands (sN 1) cN1 (Instr.len (.launch true 6 (.s 4))) ∧ launchCheck (readU cN1.g (.s 4)) cN1 (sN 1) = .ok (pa, g, s₁) ∧
      recOwned (sN 1) pa = false ∧ chainStopped s₁ (metRcbs s₁ 8 g) = true) :=
  ⟨⟨_, _, _, cN0_stands, ok3 _ (by decide +kernel), by decide +kernel, by decide +kernel⟩,
   ⟨_, _, _, cN1_stands, ok3 _ (by decide +kernel), by decide +kernel, by decide +kernel⟩⟩

/-- The launch has a tape of one record at the end of the data page. -/
def sTp : State := onLaunch (fun l => { l with tapeb := 0x1FF00, tapecap := 1 }) (sN 0)
def cTp : Ctx := ctx sTp 2 (by decide +kernel)
theorem cTp_stands : Stands sTp cTp 2 := stands _ _ _ (by decide +kernel)

theorem wit_LaunchAndTapePush_tapepush : ∃ h run s₁, Stands sTp cTp (Instr.len (.tapepush true 6 (.s 4))) ∧
    recordRun cTp sTp (readU cTp.g (.s 4)) 64 = .ok (h, run, s₁) ∧
    let sp := rcbTapesp s₁ cTp.ln.region
    let va := cTp.ln.tapeb.toNat + 64 * sp
    let x : XLine := ⟨cTp.act.headD 0, lineOf va, translate s₁ cTp.ln .w (lineOf va)⟩
    sp < cTp.ln.tapecap ∧ xlCheck [x] [x] = .ok () ∧ rcbTapeRun s₁ cTp.ln.region = false :=
  ⟨_, _, _, cTp_stands, ok3 _ (by decide +kernel), by decide +kernel, unit_ok (by decide +kernel),
   by decide +kernel⟩

/-- A handler stands at the data page. -/
def sH : State :=
  onLaunch (fun l => { l with traph := 0x10000 }) (poke 0 25 (0x4A580001 + 2 ^ 40 + 2 ^ 160 * 16) (withData base))
def cH : Ctx := ctx sH 1 (by decide +kernel)

/-- The group runs its handler; its frame holds the PCs of its lanes. -/
def sF : State :=
  let s := onGroup (fun g => { g with
    trapMode := true, handler := 0x10000, handlerN := 16, handlerLen := 64
    lanes := g.lanes.map (fun x => { x with pc := 0x10040 }) }) sH
  let m := memSetBytes s.mem 0x304100 (leBytes 32 (68 * ((2 ^ 256 - 1) / (2 ^ 32 - 1))))
  let ks := (List.range 16).map (fun i => (0x304000 + 256 * i, keyOr base 0))
  focusAt { s with mem := m, lineKeys := ks } k0 0x10040 none
def cF : Ctx := ctx sF 1 (by decide +kernel)
theorem cF_stands : Stands sF cF 1 := stands _ _ _ (by decide +kernel)

/-- A load from before the trap is outstanding. -/
def sF2 : State :=
  let s := onGroup (fun g => { g with era := 1 }) sF
  { s with mem := memSetBytes s.mem 0x304018 [0xFF], seq := 4, ops := [⟨3, k0, .load, .load [⟨7, 3, 9⟩], 0, 1, false, [], none, [], 0⟩] }
def cF2 : Ctx := ctx sF2 1 (by decide +kernel)
theorem found_ctx {s : State} {k : GKey} (h : (findCtx s k).isSome = true) :
    findCtx s k = some (((findCtx s k).get h).1, ((findCtx s k).get h).2.1, ((findCtx s k).get h).2.2) := some_eq _ h
theorem byLines {α : Type} {m : SMap α} {b : Nat} {k : α} (hb : b % 256 = 0) (h : ∀ j < 16, mapFind m (b + 256 * j) = some k) :
    ∀ i < 4096, mapFind m (lineOf (b + i)) = some k := by
  intro i hi
  rw [lineOf, show (b + i) / 256 * 256 = b + 256 * (i / 256) by omega]
  exact h _ (by omega)

theorem wit_TrapFrameInstructions :
    (focusCtx sF 1 = some cF ∧ cF.g.trapMode = true ∧ Stands sF cF 1 ∧ (readU cF.g (.imm 63)).toNat < 1024 ∧ Machine.Inv sF ∧
      frameBase sF cF.w cF.g.key.g + 4096 ≤ poolBase ∧
      ∀ i < 4096, mapFind sF.lineKeys (lineOf (frameBase sF cF.w cF.g.key.g + i)) = some (keyOr sF cF.w.owner)) ∧
    focusCtx sF2 1 = some cF2 ∧ cF2.g.trapMode = true ∧ ∃ g w ln, let u := completeAccesses sF2 cF2.g.key
      findCtx u cF2.g.key = some (g, w, ln) ∧ let word := fun off n => frameGet u w cF2.g.key.g off n
      word (0x200 + 256 * 3 + 4 * 7) 4 = 9 ∧ ∀ l < g.width, inCode ln { g with trapMode := false } (ln.kernel + BitVec.ofNat 64
        (word (0x100 + 4 * l) 4 + (if word 0x10 8 / 2 ^ l % 2 = 1 then 4 * (word 0 4 / 2 ^ 16 % 4) else 0))) = true :=
  ⟨⟨ctx_eq _ _ _, by decide +kernel, cF_stands, by decide +kernel, ⟨by decide +kernel, by decide +kernel⟩, by decide +kernel,
    byLines (by decide +kernel) (by decide +kernel)⟩, ctx_eq _ _ _, by decide +kernel, _, _, _, found_ctx (by decide +kernel),
    by decide +kernel, by decide +kernel⟩
theorem wit_EndsOfLanesAndGroups :
    (let q : LIssue := { instr := .exit, srcs := [], named := [], reads := [], own := false }
     q.Enters base c1) ∧ focusCtx base 1 = some c1 ∧ (focusCtx sF 1 = some cF ∧ cF.g.trapMode = true ∧ Machine.Inv sF ∧ PoolCache sF ∧
      cF.ln.region + 512 ≤ poolBase ∧ ∀ w ∈ sF.wgs, findWg sF w.uid = some w) ∧
    (let s := onGroup (fun g => { g with lanes := g.lanes.map (fun x => { x with exited := true }) }) base
     ∃ g w, findGroup s k0 = some g ∧ findWg s k0.wg = some w ∧ g.live = [] ∧ g.fifo = [] ∧
       (∀ o ∈ s.ops, o.grp = k0 → o.cls = .none) ∧ ∀ g' ∈ s.groups, g'.key.wg = k0.wg → g'.key = k0) ∧
    (let s := onGroup (fun g => { g with lanes := g.lanes.map (fun x => { x with exited := true }) }) base
     ∃ g' ∈ (s.groups ++ s.groups.map (fun g => { g with key := ⟨2, 1⟩ })), g'.key ≠ k0 ∧ g'.key.wg = k0.wg) :=
  ⟨enters_of c1_eq (by decide), c1_eq, ⟨ctx_eq _ _ _, by decide +kernel, ⟨by decide +kernel, by decide +kernel⟩,
    ⟨by decide +kernel, by decide +kernel⟩, by decide +kernel, by decide +kernel⟩,
   ⟨_, _, some_eq _ (by decide +kernel), some_eq _ (by decide +kernel), by decide +kernel, by decide +kernel, by decide +kernel,
     by decide +kernel⟩, by decide +kernel⟩

/-- A watch definition at index 0 of slot 0: tag 0, writes of lanes, the first 16 coordinates. -/
def sWa : State := withH [(0, mkH 0 0x10000 65536 false)] (poke 0 32 (2 ^ 33 + 15 * 2 ^ 160) (withData base))
def cWa : Ctx := ctx sWa 2 (by decide +kernel)
theorem cWa_stands : Stands sWa cWa 2 := stands _ _ _ (by decide +kernel)

theorem wit_WatchInstructions :
    (∃ h a s₁, Stands sWa cWa (Instr.len (.watchLoad 7 (.s 4))) ∧ watchHandle cWa (readU cWa.g (.s 4)) = .ok h ∧
      tableRun cWa sWa h ((readU cWa.g (.s 4)).toNat % 2 ^ 26) 32 32 = .ok (a, s₁) ∧
      watchValid (BitVec.ofNat 256 (ofBytes (tableBytes cWa s₁ h a 32).1)) = true) ∧
    (∃ h run s₁, Stands sWa cWa (Instr.len (.watchStore 7 (.s 4))) ∧ counter sWa cWa.g.key .store < 63 ∧
      watchHandle cWa (readU cWa.g (.s 4)) = .ok h ∧
      tableStoreRun cWa sWa h ((readU cWa.g (.s 4)).toNat % 2 ^ 26) 32 32 .w = .ok (run, s₁)) ∧
    Stands sWa cWa (Instr.len (.watchClr 7)) :=
  ⟨⟨_, _, _, cWa_stands, ok_eq _ (by decide +kernel), pair_eq _ (by decide +kernel), by decide +kernel⟩,
   ⟨_, _, _, cWa_stands, by decide +kernel, ok_eq _ (by decide +kernel), pair_eq _ (by decide +kernel)⟩, cWa_stands⟩

/-! ## Traps -/

/-- The handler of `sH` serves the traps of its group in every state that differs from it only in its group. -/
theorem handled {s : State} {g : Group} {w : Wg} {ln : Launch} (hf : findCtx s k0 = some (g, w, ln))
    (x : g.trapMode = false ∧ bit s.mcb.mode 1 = false ∧ Memory.wf s.mem = true ∧ s.focus.partner = none ∧ g.width ≤ 64 ∧
      ∀ l ∈ s.msc, poolBase ≤ l.base)
    (y : translate s ln .r ln.traph.toNat = .ok 0x110000 0 false ∧ (handlerHeader s ln).isSome = true ∧
      0x110000 + 64 ≤ frameBase s w 0 ∧ frameBase s w 0 + 4096 ≤ poolBase ∧ frameBase s w 0 % 256 = 0)
    (z : (∀ i < 64, mapFind s.lineKeys (lineOf (0x110000 + i)) = none) ∧
      ∀ i < 64, mapFind (putBlockKeyed s (keyOr s w.owner) (frameBase s w 0) 4096 []).lineKeys (lineOf (0x110000 + i)) = none) :
    Handled s k0 g w ln := by
  obtain ⟨hu, hh, hm, hp, hw, hc⟩ := x
  obtain ⟨hx, hd, h1, h2⟩ := y
  refine ⟨hf, hu, hh, h2, hc, fun b _ hb => ?_, hp, hw⟩
  rw [show k0.g = 0 from rfl, handlerHeader_frame hm hb hx h1 (by omega) z.1 z.2]
  exact hd

theorem handledV (s : State) (c : Ctx) (e : c.g.key = k0 ∧ findCtx s k0 = some (c.g, c.w, c.ln))
    (x : c.g.trapMode = false ∧ bit s.mcb.mode 1 = false ∧ Memory.wf s.mem = true ∧ s.focus.partner = none ∧ c.g.width ≤ 64 ∧
      ∀ l ∈ s.msc, poolBase ≤ l.base)
    (y : translate s c.ln .r c.ln.traph.toNat = .ok 0x110000 0 false ∧ (handlerHeader s c.ln).isSome = true ∧
      0x110000 + 64 ≤ frameBase s c.w 0 ∧ frameBase s c.w 0 + 4096 ≤ poolBase ∧ frameBase s c.w 0 % 256 = 0)
    (z : (∀ i < 64, mapFind s.lineKeys (lineOf (0x110000 + i)) = none) ∧
      ∀ i < 64, mapFind (putBlockKeyed s (keyOr s c.w.owner) (frameBase s c.w 0) 4096 []).lineKeys (lineOf (0x110000 + i)) = none) :
    Handled s c.g.key c.g c.w c.ln := e.1 ▸ handled e.2 x y z

theorem wit_TrapsEnterTheHandler_trap :
    (let q : LIssue := { instr := .trap 0xBEEF, srcs := [], named := [], reads := [], own := false }
     q.Enters sH cH) ∧ Machine.Inv sH ∧ focusCtx sH 1 = some cH ∧ Handled sH cH.g.key cH.g cH.w cH.ln :=
  ⟨enters_of (ctx_eq _ _ _) (by decide +kernel), ⟨by decide +kernel, by decide +kernel⟩, ctx_eq _ _ _,
   handledV _ _ (by decide +kernel) (by decide +kernel) (by decide +kernel) (by decide +kernel)⟩

theorem wit_TrapsEnterTheHandler_encoding : noInstr (0x7F010203 : Word).toNat = true ∧ noInstr (0 : Word).toNat = true := by decide

/-- The lanes stand at a virtual address; pages 3 and 4 are migrating and not resident; `host` is bit 0 of MODE. -/
def sV (va : Nat) (host : BitVec 5) : State :=
  let f := fun m => memSetBytes (memSetBytes m 0xD0018 (leBytes 8 0x12002F)) 0xD0020 (leBytes 8 0x13002C)
  let s := onGroup (fun g => { g with lanes := g.lanes.map (fun x => { x with pc := BitVec.ofNat 64 va }) }) sH
  focusAt { s with mem := f s.mem, xmem := f s.xmem, mcb := { s.mcb with mode := host } } k0 (BitVec.ofNat 64 va) none
def cV2 : Ctx := ctx (sV 0x20000 0) 1 (by decide +kernel)
def cV3 : Ctx := ctx (sV 0x30000 0) 1 (by decide +kernel)
def cV4 : Ctx := ctx (sV 0x40000 1) 1 (by decide +kernel)
def cV5 : Ctx := ctx (sV 0x40000 0) 1 (by decide +kernel)

theorem err_eq (x : Except FetchStop (List Nat)) (e : FetchStop) (h : (match x with | .error f => decide (f = e) | .ok _ => false) = true) :
    x = .error e := by
  cases x with
  | ok a => simp at h
  | error f => simpa using h

theorem wit_TrapsEnterTheHandler_fetch :
    (fetch (sV 0x20000 0) cV2.ln cV2.pc = .error (.fault 3 0x20000) ∧ Handled (sV 0x20000 0) cV2.g.key cV2.g cV2.w cV2.ln) ∧
    (fetch (sV 0x40000 1) cV4.ln cV4.pc = .error (.nonres 0x40000) ∧ bit (sV 0x40000 1).mcb.mode 0 = true ∧
      Handled (sV 0x40000 1) cV4.g.key cV4.g cV4.w cV4.ln) ∧
    fetch (sV 0x30000 0) cV3.ln cV3.pc = .error (.migrating 0x30000) ∧
    (fetch (sV 0x40000 0) cV5.ln cV5.pc = .error (.nonres 0x40000) ∧ bit (sV 0x40000 0).mcb.mode 0 = false ∧
      (match walk (sV 0x40000 0) cV5.ln.ptroot 0x40000 with | .nonres _ _ _ => true | _ => false) = true) :=
  ⟨⟨err_eq _ _ (by decide +kernel), handledV _ _ (by decide +kernel) (by decide +kernel) (by decide +kernel) (by decide +kernel)⟩,
   ⟨err_eq _ _ (by decide +kernel), by decide +kernel, handledV _ _ (by decide +kernel) (by decide +kernel) (by decide +kernel) (by decide +kernel)⟩,
   err_eq _ _ (by decide +kernel), err_eq _ _ (by decide +kernel), by decide +kernel⟩

/-- The group has a failed team round to take. -/
def sTm : State := onGroup (fun g => { g with teamFails := [⟨3, 1, 0xFF, 0, false⟩] }) sH

theorem wit_TrapsEnterTheHandler_team : ∃ g w ln f rest l x, let s₁ := failTeamRounds sTm
    findGroup s₁ k0 = some g ∧ g.frozen = false ∧ g.teamFails = f :: rest ∧
    let s₂ := updGroup s₁ k0 (fun g => { g with teamFails := rest })
    Machine.Inv s₂ ∧ Handled s₂ k0 { g with teamFails := rest } w ln ∧
    ((setBitsOf 64 f.mask.toNat).filter (fun l => g.live.contains l)).head? = some l ∧ g.lane? l = some x := by
  refine ⟨(findGroup (failTeamRounds sTm) k0).get (by decide +kernel), (findWg sTm 2).get (by decide +kernel), (findLaunch sTm 1).get (by decide +kernel),
    ⟨3, 1, 0xFF, 0, false⟩, [], 0, _, some_eq _ _, by decide +kernel, by decide +kernel, ⟨by decide +kernel, by decide +kernel⟩, ?_, by decide +kernel,
    some_eq _ (by decide +kernel)⟩
  exact handled (by decide +kernel) (by decide +kernel) (by decide +kernel) (by decide +kernel)

theorem wit_FormsThatTrap :
    (∃ u, Rules.intRule (.iadd 16 (.v 2) .one) = some u ∧ focusCtx sH (Instr.len (.iadd 16 (.v 2) .one)) = some cH ∧
      ∃ r ∈ (u.issue (.iadd 16 (.v 2) .one)).named ++ (u.issue (.iadd 16 (.v 2) .one)).vregs, declared cH.ln cH.g ≤ r) ∧
    ((gnevalIssue true 7 1 .lane).Ready sH cH ∧ (gnevalIssue true 7 1 .lane).reject cH.g = none ∧ mapFind cH.g.gn 7 = none) ∧
    (∃ l x, let q := moveIssue (.lxor 1 (.v 2) .lane) 1 [.v 2, .lane]
      q.Ready sH cH ∧ q.reject cH.g = none ∧ cH.act.head? = some l ∧ cH.g.lane? l = some x ∧
      q.lanesWith sH cH (fun j y => decide (q.operand sH cH j y 1 ≠ q.operand sH cH l x 1)) ≠ []) :=
  ⟨⟨_, rfl, ctx_eq _ _ _, by decide +kernel⟩,
   ⟨ready_of (ctx_eq _ _ _) (by decide +kernel) (by decide +kernel), by decide +kernel, by decide +kernel⟩,
   ⟨0, (cH.g.lane? 0).get (by decide +kernel), ready_of (ctx_eq _ _ _) (by decide +kernel) (by decide +kernel), by decide +kernel,
     by decide +kernel, some_eq _ _, by decide +kernel⟩⟩

/-! ## Events of the path to memory -/

/-- An operation of the group, and a state with some. -/
def op (id : Nat) (cls : OpClass) (kind : OpKind) : Op := ⟨id, k0, cls, kind, 0, 1, false, [], none, [], 0⟩
def withOps (os : List Op) (s : State) : State := { s with ops := os, seq := 9 }
def withFifo (es : List FifoEntry) (s : State) : State := onGroup (fun g => { g with fifo := es }) s
/-- A byte of the data page, and one of the scratchpad. -/
def bm : StoreByte := ⟨.mem 0x110000 0, 7⟩
def bs : StoreByte := ⟨.scr 2 9, 7⟩

theorem wit_FifoAndLoadEvents_load : let s := withOps [op 3 .load (.load [⟨7, 3, 9⟩])] base
    ∃ g, findOp s 3 = some (op 3 .load (.load [⟨7, 3, 9⟩])) ∧ headsClass s (op 3 .load (.load [⟨7, 3, 9⟩])) = true ∧ findGroup s k0 = some g :=
  ⟨_, by decide +kernel, by decide +kernel, some_eq _ (by decide +kernel)⟩

/-- The store at the head of the FIFO: non-temporal, plain, or with a wide release. -/
def sSt (nt : Bool) (rel : Option Scope) : State := withFifo [.store 3 nt rel [bm, bs]] (withOps [op 3 .store (.store 1)] base)
theorem wit_FifoAndLoadEvents_store : wideOpt (some Scope.die) = true ∧ wideOpt none = false ∧
    ∀ x ∈ [(true, none), (false, none), (false, some Scope.die)], ∃ g w, Canon (sSt x.1 x.2) ∧ findGroup (sSt x.1 x.2) k0 = some g ∧
      findWg (sSt x.1 x.2) 2 = some w ∧ g.fifo = [.store 3 x.1 x.2 [bm, bs]] ∧
      scatBlocks (sSt x.1 x.2) k0 (.store 3 x.1 x.2 [bm, bs]) = false := by
  refine ⟨by decide, by decide, fun x hx => ?_⟩
  have h : canonical (sSt x.1 x.2) = true ∧ (findGroup (sSt x.1 x.2) k0).map (·.fifo) = some [.store 3 x.1 x.2 [bm, bs]] ∧
      (findWg (sSt x.1 x.2) 2).isSome = true ∧ scatBlocks (sSt x.1 x.2) k0 (.store 3 x.1 x.2 [bm, bs]) = false := by
    revert x; decide +kernel
  obtain ⟨g, hg, hf⟩ := Option.map_eq_some_iff.mp h.2.1
  exact ⟨g, _, canon _ h.1, hg, some_eq _ h.2.2.1, hf, h.2.2.2⟩

/-- The entry of the second halves of operations 3 and 4. -/
def sSe : State := withFifo [.store 5 false none [bm]]
  (withOps [op 3 .store (.store 1), op 4 .store (.store 1), op 5 .none (.second [3, 4])] base)
theorem wit_FifoAndLoadEvents_second : ∃ g w, Canon sSe ∧ findGroup sSe k0 = some g ∧ findWg sSe 2 = some w ∧
    g.fifo = [.store 5 false none [bm]] ∧ scatBlocks sSe k0 (.store 5 false none [bm]) = false ∧
    findOp sSe 5 = some (op 5 .none (.second [3, 4])) ∧ ∀ n ∈ [3, 4], ∃ x, findOp sSe n = some x ∧ x.kind = .store 1 := by
  have h : (findGroup sSe k0).map (·.fifo) = some [.store 5 false none [bm]] := by decide +kernel
  obtain ⟨g, hg, hf⟩ := Option.map_eq_some_iff.mp h
  refine ⟨g, _, canon _ (by decide +kernel), hg, some_eq _ (by decide +kernel), hf, by decide +kernel, by decide +kernel, fun n hn => ?_⟩
  have : n = 3 ∨ n = 4 := by simpa using hn
  rcases this with rfl | rfl
  · exact ⟨op 3 .store (.store 1), by decide +kernel, rfl⟩
  · exact ⟨op 4 .store (.store 1), by decide +kernel, rfl⟩

theorem wit_FifoAndLoadEvents_ntStore : let s : State := { base with cores := [(0, ⟨[], [⟨k0, 1, 0, [bm]⟩, ⟨k0, 2, 0, [⟨.mem 0x110001 0, 1⟩]⟩], []⟩)] }
    Canon s ∧ (coreOf s 0).wc[1]? = some ⟨k0, 2, 0, [⟨.mem 0x110001 0, 1⟩]⟩ ∧
    ∀ o ∈ (coreOf s 0).wc.take 1, ∀ b ∈ o.bytes, ∀ x ∈ [(⟨.mem 0x110001 0, 1⟩ : StoreByte)], b.loc.same x.loc = false :=
  ⟨canon _ (by decide +kernel), by decide +kernel, by decide +kernel⟩

/-- An atomic addition with two requests. -/
def at2 : Atomic := ⟨.rmw .add, 4, some 3, none, none,
  [⟨.mem 0x110000 0, [⟨0, 0, 1⟩, ⟨1, 0, 2⟩], false, false⟩, ⟨.mem 0x110004 0, [⟨2, 0, 1⟩], false, false⟩], [], false, []⟩

/-- One that adds at the first address only. -/
def at1 : Atomic := { at2 with reqs := [⟨.mem 0x110000 0, [⟨0, 0, 1⟩], false, false⟩] }

theorem wit_FifoAndLoadEvents_atomic :
    let s := withFifo [.atomic 2, .atomic 3] (withOps [op 2 .load (.atomic at1), op 3 .load (.atomic at2)] base)
    ∃ g w, Canon s ∧ findOp s 3 = some (op 3 .load (.atomic at2)) ∧ findGroup s k0 = some g ∧ findWg s 2 = some w ∧
      atomicsBefore s 2 g.fifo = some [] ∧ at1.reqs[0]? = some ⟨.mem 0x110000 0, [⟨0, 0, 1⟩], false, false⟩ ∧
      atomicsBefore s 3 g.fifo = some [(2, at1)] ∧ at2.reqs[1]? = some ⟨.mem 0x110004 0, [⟨2, 0, 1⟩], false, false⟩ ∧
      mayPass at2 ⟨.mem 0x110004 0, [⟨2, 0, 1⟩], false, false⟩ [(2, at1)] = true ∧ (∀ p ∈ [(3, at2), (2, at1)], scatBlocks s k0 (.atomic p.1) = false) ∧
      wideOpt at2.acqScope = false ∧ at2.reqs[0]? = some ⟨.mem 0x110000 0, [⟨0, 0, 1⟩, ⟨1, 0, 2⟩], false, false⟩ :=
  ⟨_, _, canon _ (by decide +kernel), by decide +kernel, some_eq _ (by decide +kernel), some_eq _ (by decide +kernel),
   by decide +kernel, rfl, by decide +kernel, rfl, by decide +kernel, by decide +kernel, rfl, rfl⟩

/-- The population of PC 64 is parked or held for a reason. -/
def parked (p : ParkWhy) : State := onGroup (fun g => { g with parks := [⟨64, p, false, 0xFF, []⟩] }) base
def held (h : HoldWhy) (s : State := base) : State := onGroup (fun g => { g with holds := [⟨64, 0xFF, 1, h⟩] }) s

theorem found_hold {s : State} {k : GKey} {pc : DWord} {f : Group → Wg → HoldWhy → Bool} (h : (holdAt s k pc f).isSome = true) :
    holdAt s k pc f = some (((holdAt s k pc f).get h).1, ((holdAt s k pc f).get h).2.1, ((holdAt s k pc f).get h).2.2) := some_eq _ h

def pM : State := parked (.fetchMig 0)
theorem wit_ReturnsAndUnparks_parks :
    (∃ w, parkOf (parked (.presence 2 [3])) k0 64 = some ⟨64, .presence 2 [3], false, 0xFF, []⟩ ∧ findWg (parked (.presence 2 [3])) 2 = some w ∧ 3 ∉ w.absent) ∧
    (∃ g w ln, parkOf pM k0 64 = some ⟨64, .fetchMig 0, false, 0xFF, []⟩ ∧ findCtx pM k0 = some (g, w, ln) ∧ migOver pM ln.ptroot 0 = true) :=
  ⟨⟨_, by decide +kernel, some_eq _ (by decide +kernel), by decide +kernel⟩,
   ⟨_, _, _, by decide +kernel, found_ctx (by decide +kernel), by decide +kernel⟩⟩

def hB : State := held (.bwait 16 2 none) (withScr 16 16 (setBits (barInit 8 0) 3 0 3).toNat base)
def hM : State := held (.bwait 16 2 (some 4))
def hW : State := held (.waitc 0 0 0 0)
def hN : State := held (.ntdrain .module 2)
def hF : State := held (.fence .die 2)
theorem wit_ReturnsAndUnparks_holds :
    (∃ g w h, holdAt hB k0 64 (bwaitOver hB) = some (g, w, h) ∧ h.why = .bwait 16 2 none ∧ passed (Rules.Barrier.of (barGet hB w.uid 16)).phase 2 ∧ openHits hB = []) ∧
    (∃ g w h, holdAt hM k0 64 (bwaitOver hM) = some (g, w, h) ∧ h.why = .bwait 16 2 (some 4) ∧ passed 4 2 ∧ openHits hM = []) ∧
    (∃ g w h, holdAt hW k0 64 (waitcOver hW) = some (g, w, h) ∧ h.why = .waitc 0 0 0 0 ∧ countersLow hW k0 0 0 0 0 = true ∧ openHits hW = []) ∧
    (∃ g w h, holdAt hN k0 64 (drainOver hN) = some (g, w, h) ∧ h.why = .ntdrain .module 2 ∧ drainReady hN g w.core .module 2 = true) ∧
    (∃ g w h, holdAt hF k0 64 fenceOver = some (g, w, h) ∧ h.why = .fence .die 2 ∧ fenceReady g .die 2 = true) :=
  ⟨⟨_, _, _, found_hold (by decide +kernel), by decide +kernel, ⟨1, by decide, by decide, by decide +kernel⟩, by decide +kernel⟩,
   ⟨_, _, _, found_hold (by decide +kernel), by decide +kernel, ⟨2, by decide, by decide, by decide⟩, by decide +kernel⟩,
   ⟨_, _, _, found_hold (by decide +kernel), by decide +kernel, by decide +kernel, by decide +kernel⟩,
   ⟨_, _, _, found_hold (by decide +kernel), by decide +kernel, by decide +kernel⟩,
   ⟨_, _, _, found_hold (by decide +kernel), by decide +kernel, by decide +kernel⟩⟩
/-! ## Events of the engines -/

/-- A copy of one quad into the scratchpad. -/
def cp1 (target : Nat) : CopyOp :=
  ⟨mkH 3 0x10000 256 false, mkH 3 256 16 true, false, .rne, false, 0,
    [⟨target, 0, [⟨.scr 2 256, 0, some [⟨.mem 0x110000 0, false, 0⟩, ⟨.mem 0x110001 0, false, 0⟩, ⟨.mem 0x110002 0, false, 0⟩,
      ⟨.mem 0x110003 0, false, 0⟩]⟩], none, [], false, false⟩], [], []⟩
def sCp (target : Nat) : State := withOps [op 3 .copy (.copy (cp1 target))] (withScr 0 16 (barInit 8 0).toNat (withData base))

theorem wit_CopyAndCollectorEvents_copy : ∀ target ∈ [2, 5], ∃ g w ln x, Canon (sCp target) ∧
    findOp (sCp target) 3 = some (op 3 .copy (.copy (cp1 target))) ∧ findCtx (sCp target) k0 = some (g, w, ln) ∧
    (cp1 target).sectors[0]? = some x ∧ sectorReady (sCp target) (op 3 .copy (.copy (cp1 target))) (cp1 target) x = true ∧
    (findWg (sCp 5) 5 = none ∧ findWg (sCp 2) 2 ≠ none) := by
  intro t ht
  simp only [List.mem_cons, List.not_mem_nil, or_false] at ht
  rcases ht with rfl | rfl <;>
    exact ⟨_, _, _, _, canon _ (by decide +kernel), by decide +kernel,
      found_ctx (by decide +kernel), some_eq _ (by decide +kernel), by decide +kernel, by decide +kernel, by decide +kernel⟩

/-- A collector with one entry, open for 32 clocks, or dispatched. -/
def sCl (d : Bool) : State := { base with cores := [(0, ⟨[], [], [⟨0x110000, [3], 32, 0, d⟩]⟩)] }

theorem wit_CopyAndCollectorEvents_collector :
    (Canon (sCl false) ∧ ∃ e ∈ (coreOf (sCl false) 0).coll.take 64, e.dispatched = false ∧ (32 ≤ e.opened ∨ 4 ≤ e.idle)) ∧
    (Canon (sCl true) ∧ (coreOf (sCl true) 0).coll.find? (fun x => x.line == 0x110000 && x.dispatched) = some ⟨0x110000, [3], 32, 0, true⟩) :=
  ⟨⟨canon _ (by decide +kernel), by decide +kernel⟩,
   canon _ (by decide +kernel), by decide +kernel⟩

def oGa : Op := op 3 .load (.gath [⟨1, 4, some (.mem 0x110000 0)⟩, ⟨2, 4, none⟩] none)
def oGb : Op := op 3 .load (.gath [⟨1, 4, some (.mem 0x110000 0)⟩] (some ([⟨1, 4, 9⟩], [])))
def oSc : Op := op 3 .store (.scat [bm, bs])
def si1 : SiOp := ⟨mkH 2 0 8 true, mkH 2 128 8 true, none, 4, 8, [⟨0, 0, 2, 0, 2, 0⟩]⟩
def oSi : Op := op 3 .load (.sisect si1)
def sGa : State := withOps [oGa] base
def sSc : State := withOps [oSc] base
def sSi : State := withOps [oSi] base

theorem wit_CopyAndCollectorEvents_gather :
    (∃ w g, findOp sGa 3 = some oGa ∧ findWg sGa 2 = some w ∧ collReady sGa w oGa = true ∧ headsClass sGa oGa = true ∧ findGroup sGa k0 = some g) ∧
    (∃ w g, let s := withOps [oGb] base
      findOp s 3 = some oGb ∧ findWg s 2 = some w ∧ headsClass s oGb = true ∧ findGroup s k0 = some g) ∧
    (∃ w, findOp sSc 3 = some oSc ∧ findWg sSc 2 = some w ∧ collReady sSc w oSc = true) ∧
    (∃ g w ln u, findOp sSi 3 = some oSi ∧ findCtx sSi k0 = some (g, w, ln) ∧ (∃ w, findWg sSi 2 = some w ∧ collReady sSi w oSi = true) ∧
      headsClass sSi oSi = true ∧ siLanes w ln oSi si1 si1.lanes sSi = some u) :=
  ⟨⟨_, _, by decide +kernel, some_eq _ (by decide +kernel), by decide +kernel, by decide +kernel, some_eq _ (by decide +kernel)⟩,
   ⟨_, _, by decide +kernel, some_eq _ (by decide +kernel), by decide +kernel, some_eq _ (by decide +kernel)⟩,
   ⟨_, by decide +kernel, some_eq _ (by decide +kernel), by decide +kernel⟩,
   ⟨_, _, _, _, by decide +kernel, found_ctx (by decide +kernel), ⟨_, some_eq _ (by decide +kernel), by decide +kernel⟩,
     by decide +kernel, some_eq _ (by decide +kernel)⟩⟩

/-- A load into slot 0 of the B stack with the steps behind it, and moves of the accumulator. -/
def pBl : BldOp := ⟨0, 1, 0, mkH 4 0 64 true, 0, false, false, []⟩
def oBl (id : Nat) : Op := op id .tile (.bld pBl)
def sBl (rest : List SlotStep) : State :=
  let b : BSlot := { BSlot.fresh 1 0 with steps := .load 3 :: rest, state := .loading }
  withOps [oBl 3, oBl 4] { base with clusters := [(0, { Cluster.empty with bslots := [b] })] }

theorem wit_TileAndAccumulatorEvents_bld : ∀ r ∈ [[], [SlotStep.read 7], [.free], [.load 4]], ∃ w, Canon (sBl r) ∧
    findWg (sBl r) 2 = some w ∧ findOp (sBl r) 3 = some (oBl 3) ∧ fifoPassed (sBl r) (oBl 3) = true ∧
    (bslotGet (sBl r) 0 1 0).steps = .load 3 :: r ∧ (bslotGet (sBl r) 0 1 0).state = .loading ∧ findOp (sBl r) 4 = some (oBl 4) := by
  intro r hr
  have h : canonical (sBl r) = true ∧ (findWg (sBl r) 2).isSome = true := by revert r; decide +kernel
  refine ⟨_, canon _ h.1, some_eq _ h.2, ?_⟩
  revert r
  decide +kernel

def oAc (k : OpKind) : Op := op 3 .tile k
def sAc (k : OpKind) : State := withOps [oAc k] (withData base)
/-- An ACCST into the scratchpad, and one of four rows that fill a tile, with its trailer. -/
def hSt (trb : Nat) : Handle := mkH 3 0 256 (trb == 0) (2 ^ 4) + BitVec.ofNat 1024 (3 * 2 ^ 160 + 1024 * 2 ^ 256 + 2 ^ 448 * trb)
def kSt (trb : Nat) : OpKind := .accst (hSt trb) 0 4 0 .rne false []

theorem wit_TileAndAccumulatorEvents :
    (∃ g w, findOp (sAc (.accrd [⟨0, 4, 0, 0, 0⟩])) 3 = some (oAc (.accrd [⟨0, 4, 0, 0, 0⟩])) ∧
      accReady (sAc (.accrd [⟨0, 4, 0, 0, 0⟩])) (oAc (.accrd [⟨0, 4, 0, 0, 0⟩])) = true ∧
      findGroup (sAc (.accrd [⟨0, 4, 0, 0, 0⟩])) k0 = some g ∧ findWg (sAc (.accrd [⟨0, 4, 0, 0, 0⟩])) 2 = some w) ∧
    (∀ k ∈ [OpKind.accwr [⟨0, 4, 0, 0, 1⟩], .accpatch true [⟨0, 4, 7, 255, 1⟩], .accpatch false [⟨0, 4, 7, 255, 1⟩]],
      findOp (sAc k) 3 = some (oAc k) ∧ accReady (sAc k) (oAc k) = true ∧ ∀ o ∈ (sAc k).ops, o = oAc k) ∧
    (∀ b ∈ [0, 0x30000], ∃ g w ln, findCtx (sAc (kSt b)) k0 = some (g, w, ln) ∧ findOp (sAc (kSt b)) 3 = some (oAc (kSt b)) ∧
      accReady (sAc (kSt b)) (oAc (kSt b)) = true ∧ fifoPassed (sAc (kSt b)) (oAc (kSt b)) = true ∧ hTrb (hSt b) = b ∧
      accstTiles (hSt b) (accstElems (hSt b) 0 4 0) = some (if b = 0 then [] else [0])) :=
  ⟨⟨_, _, by decide +kernel, by decide +kernel, some_eq _ (by decide +kernel), some_eq _ (by decide +kernel)⟩, by decide +kernel, fun b hb =>
     ⟨_, _, _, found_ctx ((by decide +kernel : ∀ b ∈ [0, 0x30000], (findCtx (sAc (kSt b)) k0).isSome = true) b hb),
      by revert b; decide +kernel⟩⟩

/-- A KST of token 1 in bucket 3, at a stage; the store's head has `pooln` blocks of a pool of `cap`, bucket 3 `n` entries in
block 0. `b` is the base of the store. -/
def kSt' (b : Nat) : Handle := mkH 11 b 256 false
def kst1 (b : Nat) (rowDone : Bool) (st : KstStage) : KstOp := ⟨kSt' b, hK, 1, 3, [bs], rowDone, st⟩
def oKs (b : Nat) (r : Bool) (st : KstStage) : Op := op 3 .tile (.kst (kst1 b r st))
def sKs (b : Nat) (r : Bool) (st : KstStage) (cap pooln n : Nat) : State :=
  withOps [oKs b r st] (poke (256 + 8 * 3) 8 (1 + 2 ^ 32 * n) (poke 12 4 pooln
    (poke 0 44 (ksFresh 0x18000 cap skDesc 0 1 4 false).toNat (withData base))))

theorem wit_KeyStoreEvents_row : let s := sKs 0x10000 false .claim 16 0 0
    ∃ w, Canon s ∧ findOp s 3 = some (oKs 0x10000 false .claim) ∧ findWg s 2 = some w ∧ fifoPassed s (oKs 0x10000 false .claim) = true ∧
    olderKst s (oKs 0x10000 false .claim) (kst1 0x10000 false .claim) (fun y => !y.rowDone) = false :=
  ⟨_, canon _ (by decide +kernel), by decide +kernel, some_eq _ (by decide +kernel), by decide +kernel, by decide +kernel⟩

/-- A claim is due in a state, and something holds of it once the header and the entry have been read. -/
def KsClaims (s : State) (b : Nat) (f : State → Launch → KsHead → Nat → Bool) : Prop := ∃ g w ln, let o := oKs b false .claim
  let k := kst1 b false .claim
  let v := ksTouch (ksTouch s w ln (hBase k.store) 256) w ln (ksEntryVa k.store k.sigma) 8
  findCtx s k0 = some (g, w, ln) ∧ (findOp s 3 = some o ∧ o.done = false ∧ fifoPassed s o = true ∧
  olderKst s o k (fun y => y.stage == .claim) = false) ∧ ksClaimMig s w ln k.store k.sigma = false ∧ Canon s ∧
  f v ln (ksHeadNow v w ln k.store) (ksNum v w ln (ksEntryVa k.store k.sigma + 4) 4) = true

/-- The same as a check that can be run. -/
def ksClaimDue (s : State) (b : Nat) (f : State → Launch → KsHead → Nat → Bool) : Bool :=
  match findCtx s k0 with
  | none => false
  | some (_, w, ln) =>
    let v := ksTouch (ksTouch s w ln (hBase (kSt' b)) 256) w ln (ksEntryVa (kSt' b) 3) 8
    (findOp s 3 == some (oKs b false .claim) && fifoPassed s (oKs b false .claim) &&
      !olderKst s (oKs b false .claim) (kst1 b false .claim) (fun y => y.stage == .claim)) && !ksClaimMig s w ln (kSt' b) 3 &&
    canonical s && f v ln (ksHeadNow v w ln (kSt' b)) (ksNum v w ln (ksEntryVa (kSt' b) 3 + 4) 4)

theorem ksClaims {s : State} {b : Nat} {f : State → Launch → KsHead → Nat → Bool} (h : ksClaimDue s b f = true) : KsClaims s b f := by
  unfold ksClaimDue at h
  split at h
  · exact absurd h (by decide)
  · rename_i g w ln hc
    simp only [Bool.and_eq_true, Bool.not_eq_true', beq_iff_eq] at h
    exact ⟨g, w, ln, hc, ⟨h.1.1.1.1.1, rfl, h.1.1.1.1.2, h.1.1.1.2⟩, h.1.1.2, canon _ h.1.2, h.2⟩

/-- Which claim it is: the header and the entry can be reached, the bucket's block is full, the pool is used up, and the next block
can be reached. -/
def claimIs (b : Nat) (head entry full used next : Bool) (v : State) (ln : Launch) (h : KsHead) (n : Nat) : Bool :=
  ksOk v ln .rw (hBase (kSt' b)) 256 == head && (!head || (ksOk v ln .rw (ksEntryVa (kSt' b) 3) 8 == entry && (!entry ||
    ((n % ksC h == 0) == full && (ksPooln h == ksPoolcap h) == used &&
      ksOk v ln .rw (ksBlockVa (kSt' b) h (ksPooln h)) (ksZ h) == next))))

/-- Room in the head block; a block to take; none to take. -/
theorem wit_KeyStoreEvents_claim : KsClaims (sKs 0x10000 false .claim 16 1 1) 0x10000 (claimIs 0x10000 true true false false true) ∧
    KsClaims (sKs 0x10000 false .claim 16 1 8) 0x10000 (claimIs 0x10000 true true true false true) ∧
    KsClaims (sKs 0x10000 false .claim 16 16 0) 0x10000 (claimIs 0x10000 true true true true true) :=
  ⟨ksClaims (by decide +kernel), ksClaims (by decide +kernel), ksClaims (by decide +kernel)⟩

/-- A block whose page is missing; an entry and a header that are. -/
theorem wit_KeyStoreEvents_claimMissing : KsClaims (sKs 0x10000 false .claim 4096 4000 0) 0x10000 (claimIs 0x10000 true true true false false) ∧
    KsClaims (sKs 0x1FF00 false .claim 16 0 0) 0x1FF00 (claimIs 0x1FF00 true false true false true) ∧
    KsClaims (sKs 0x20000 false .claim 16 0 0) 0x20000 (claimIs 0x20000 false false true false true) :=
  ⟨ksClaims (by decide +kernel), ksClaims (by decide +kernel), ksClaims (by decide +kernel)⟩

def va1 : Nat := 0x10000 + 256 + 8 * 16 + 16
def sPb (b va : Nat) : State := sKs b true (.publish va) 16 1 1
def kg1 : KgathOp := ⟨kK, hK, mkH 2 512 16 true, 0, 1, false, [⟨3, 1, 1⟩], [4]⟩
def oKg : Op := op 3 .copy (.kgath kg1)
def sKg : State := withOps [oKg] (sPb 0x10000 va1)

/-- A publication at an address is due; whether it and the header can be reached. -/
def KsPublishes (b va : Nat) (entry head : Bool) : Prop := let s := sPb b va
  let o := oKs b true (.publish va)
  ∃ g w ln, findCtx s k0 = some (g, w, ln) ∧ findOp s 3 = some o ∧ fifoPassed s o = true ∧ ksPublishMig s ln (kst1 b true (.publish va)) va = false ∧
    ksWide hK = false ∧ ksOk s ln .w va 4 = entry ∧ ksOk s ln .rw (hBase (kSt' b)) 256 = head ∧ Canon s

theorem ksPublishes {b va : Nat} {e h : Bool} (hf : (findCtx (sPb b va) k0).isSome = true)
    (hp : let ln := ((findCtx (sPb b va) k0).get hf).2.2
      ksPublishMig (sPb b va) ln (kst1 b true (.publish va)) va = false ∧ ksOk (sPb b va) ln .w va 4 = e ∧
      ksOk (sPb b va) ln .rw (hBase (kSt' b)) 256 = h)
    (hw : findOp (sPb b va) 3 = some (oKs b true (.publish va)) ∧ fifoPassed (sPb b va) (oKs b true (.publish va)) = true ∧
      ksWide hK = false ∧ canonical (sPb b va) = true) : KsPublishes b va e h :=
  ⟨_, _, _, found_ctx hf, hw.1, hw.2.1, hp.1, hw.2.2.1, hp.2.1, hp.2.2, canon _ hw.2.2.2⟩

theorem wit_KeyStoreEvents_publish : KsPublishes 0x10000 va1 true true ∧ KsPublishes 0x10000 0x20000 false true ∧
    KsPublishes 0x20000 0x20000 false false :=
  ⟨ksPublishes (by decide +kernel) (by decide +kernel) (by decide +kernel), ksPublishes (by decide +kernel) (by decide +kernel) (by decide +kernel),
   ksPublishes (by decide +kernel) (by decide +kernel) (by decide +kernel)⟩

theorem wit_KeyStoreEvents_walk : ∃ g w ln, findOp sKg 3 = some oKg ∧ findCtx sKg k0 = some (g, w, ln) ∧ fifoPassed sKg oKg = true ∧
    Canon sKg :=
  ⟨_, _, _, by decide +kernel, found_ctx (by decide +kernel), by decide +kernel, canon _ (by decide +kernel)⟩

/-! ## The matrix engine, translation, dispatch -/

/-- Two entries of the reservation table that read the ready slot 0, behind one another. -/
def oct (op row : Nat) : OctetOp := ⟨op, mkH 4 0 64 true (2 ^ 20), 0, row, .slot 0 0, 0, 0, false, true⟩
def resv (id op row : Nat) : Resv := ⟨id, 2, 1, 0, [oct op row], none, true, 1984, false⟩
def sMx (rs pass : List Resv) (hat : Bool) (burst : Nat) : State :=
  let b : BSlot := { BSlot.fresh 1 0 with
                       ncol := 16, fmt := 4, ordFmt := 4, state := .ready, ordState := .ready, steps := rs.map (fun r => .read r.id) }
  withOps [op 3 .tile (.matrix [0]), op 4 .tile (.matrix [8])]
    (onWg (fun w => { w with accRows := 16 }) { base with clusters := [(0, ⟨[b], rs, pass, hat, burst, 0⟩)] })

theorem wit_MatrixEngineEvents_grant :
    let s := sMx [resv 5 3 0, resv 6 4 8] [] true 240
    let e := resv 5 3 0
    let c := clusterOf s 0
    let others := c.resv.filter (fun x => [6].contains x.id)
    pickEntry s 0 = some e ∧ c.hat = true ∧ c.pass = [] ∧ others.length = 1 ∧ e.id ∉ [6] ∧
    (∀ x ∈ others, entryReady s 0 x = true ∧ sameB e x = true) ∧ entryRows (e :: others) ≤ 64 ∧
    c.burst + entryRows (e :: others) ≤ 256 ∧ (resv 5 3 0 ∈ c.resv ∧ 1984 ≤ e.wait ∧ e.aged = false) := by decide +kernel

theorem wit_MatrixEngineEvents_hat :
    (let s := sMx [resv 5 3 0] [] false 0
     (clusterOf s 0).hat = false ∧ pickEntry s 0 = some (resv 5 3 0) ∧ hatsHeld s 0 < s.mcb.hats) ∧
    (let s := sMx [resv 5 3 0] [] true 249
     (clusterOf s 0).hat = true ∧ (clusterOf s 0).pass = [] ∧ 256 < (clusterOf s 0).burst + entryRows [resv 5 3 0] ∧
     pickEntry s 0 = some (resv 5 3 0)) := by decide +kernel

theorem wit_MatrixEngineEvents_pass : let s := sMx [] [resv 5 3 0] true 8
    ∃ w, Canon s ∧ (clusterOf s 0).pass = [resv 5 3 0] ∧ (resv 5 3 0).octets = [oct 3 0] ∧ findWg s 2 = some w ∧ s.poison = [] ∧
      (octetSlot s 0 1 (oct 3 0)).state ≠ .poisoned ∧ bCols s 0 1 (oct 3 0).b ≤ 256 ∧
      ∀ o ∈ s.ops, o = op 3 .tile (.matrix [0]) ∨ o = op 4 .tile (.matrix [8]) :=
  ⟨_, canon _ (by decide +kernel), by decide +kernel, rfl,
   some_eq _ (by decide +kernel), by decide +kernel, by decide +kernel, by decide +kernel, by decide +kernel⟩

/-- A PGREQ for an address, with pages 3 and 4 as in `sV`. -/
def oPg (va : Nat) : Op := op 3 .none (.pgreq ⟨va, 0, probeRoot, 0, none⟩)
def sPg (va : Nat) : State := withOps [oPg va] (sV 0x20000 0)
def Pgreq (va : Nat) (f : Walk → Bool) : Prop := ∃ o p, findPgreq (sPg va) 3 = some (o, p) ∧ o.done = false ∧ p.req = none ∧
  fifoPassed (sPg va) o = true ∧ p.va < 2 ^ 60 ∧ f (walk (sPg va) p.root p.va) = true

theorem wit_TranslationAndResidencyEvents_pgreq : Pgreq 0x20000 (fun w => w == .unmapped) ∧
    Pgreq 0x10000 (fun w => match w with | .leaf _ _ e => !ebit e 1 | _ => false) ∧
    Pgreq 0x40000 (fun w => match w with | .nonres _ _ _ => true | _ => false) :=
  ⟨⟨_, _, some_eq _ (by decide +kernel), by decide +kernel⟩, ⟨_, _, some_eq _ (by decide +kernel), by decide +kernel⟩,
   ⟨_, _, some_eq _ (by decide +kernel), by decide +kernel⟩⟩

/-- A request for page 4, which the pool backs at its start, and a free page for it; the host has answered or not. -/
def req (v : Option (Bool × Nat × BitVec 16)) : ResReq := ⟨7, probeRoot, 0, 0x40000, [], false, v⟩
def sRq (v : Option (Bool × Nat × BitVec 16)) : State :=
  let s := sV 0x20000 0
  let f := fun m => memSetBytes m 0xD0020 (leBytes 8 (poolBase + 0x2C))
  let m := memSetBytes (memSetBytes (f s.mem) 0x400000 (leBytes 12 (0x401000 + 2 ^ 64))) 0x401000 (leBytes 8 0x140000)
  { s with
    mem := m, xmem := f s.xmem, reqs := [req v], mcb := { s.mcb with freel := 0x400000 }
    boot := { s.boot with poolBytes := 65536 } }

/-- The same for a table that the pool backs: the pages of the second 2 MiB. -/
def sRt : State :=
  let f := fun m => memSetBytes m 0xC0008 (leBytes 8 poolBase)
  { sRq none with mem := f (sRq none).mem, xmem := f (sRq none).xmem, reqs := [{ req none with va := 0x200000 }] }

/-- What the service asks for: a missing entry, a page for it, and structures that lie apart. -/
def Serves (s : State) (r : ResReq) (leaf : Bool) : Prop := ∃ l epa e,
  let z := serviceSize l e
  let page := freePage s z.1
  let count := s.mcb.freel + 16 * z.1 + 8
  s.reqs.find? (fun x => x.id = 7) = some r ∧ r.verdict = none ∧ bit s.mcb.mode 0 = false ∧
  walk s r.ptroot r.va = .nonres l epa e ∧ ebit e 2 = leaf ∧
  (freeCount s z.1 ≠ 0 ∧ inPool s (entryAddr e) z.2 = true ∧ page % levelSpan z.1 = 0 ∧ inNear s page (levelSpan z.1) = true) ∧
  (Machine.Inv s ∧ PoolCache s ∧ (∀ w ∈ s.wgs, w.status ≠ .saved) ∧ entryAddr e % 256 = 0 ∧ count + 4 ≤ poolBase ∧
    epa + 8 ≤ poolBase ∧ (count + 4 ≤ epa ∨ epa + 8 ≤ count) ∧ (count + 4 ≤ page ∨ page + z.2 ≤ count) ∧
    (epa + 8 ≤ page ∨ page + z.2 ≤ epa))

theorem wit_TranslationAndResidencyEvents_service : Serves (sRq none) (req none) true ∧
    Serves sRt { req none with va := 0x200000 } false ∧
    freeCount { sRq none with mcb := { (sRq none).mcb with freel := 0x410000 } } 0 = 0 :=
  ⟨⟨0, 0xD0020, poolBase + 0x2C, by decide +kernel, rfl, by decide +kernel, by decide +kernel, by decide +kernel, by decide +kernel,
     ⟨by decide +kernel, by decide +kernel⟩, ⟨by decide +kernel, by decide +kernel⟩, by decide +kernel⟩,
   ⟨1, 0xC0008, poolBase, by decide +kernel, rfl, by decide +kernel, by decide +kernel, by decide +kernel, by decide +kernel,
     ⟨by decide +kernel, by decide +kernel⟩, ⟨by decide +kernel, by decide +kernel⟩, by decide +kernel⟩, by decide +kernel⟩

theorem wit_TranslationAndResidencyEvents_answer : let s := sRq (some (true, 3, 9))
    s.reqs.find? (fun x => x.id = 7) = some (req (some (true, 3, 9))) ∧ updPending s probeRoot 0x40000 = false := by decide +kernel

theorem wit_TranslationAndResidencyEvents_update : let s : State := { sH with xupds := [⟨7, probeRoot, 0, 2 ^ 60, none⟩] }
    Machine.Inv s ∧ PoolCache s ∧ s.xupds.find? (fun x => x.id = 7) = some ⟨7, probeRoot, 0, 2 ^ 60, none⟩ ∧
    (0x110000 % 256 = 0 ∧ 0x140000 % 256 = 0 ∧ 0x140000 + 256 ≤ poolBase) :=
  ⟨⟨by decide +kernel, by decide +kernel⟩, ⟨by decide +kernel, by decide +kernel⟩,
   by decide +kernel, by decide +kernel⟩
/-! ## Dispatch -/

/-- A root region with tables and a queued launch whose kernel is the header of `sH`. -/
def qd : Queued := ⟨0x110080, 0x200200, 5, none, false⟩
def sDp : State :=
  let s := regions 0 (poke (128 + 36) 1 1 (poke (128 + 32) 4 1 (poke (128 + 24) 8 0x200200 (poke (128 + 8) 8 0x10000 sH))))
  { s with mem := memSetBytes s.mem (0x200200 + 8) (leBytes 8 probeRoot), queued := [qd] }

/-- A port of the link is up. -/
def up (s : State) : State := { s with mcb := { s.mcb with portup := 1 } }

/-- A region whose queue is empty, and one that names a first and a last launch. -/
def sDq (n : Nat) : State :=
  let m := memSetBytes (memSetBytes sDp.mem (0x200200 + 64) (leBytes 8 n)) (0x200200 + 72) (leBytes 8 n)
  up { sDp with queued := [], mem := m }
theorem wit_DispatchEvents_post : (∀ n ∈ [0, 0x110180], let s := sDq n
    linkUp s = true ∧ recOwned s 0x110080 = false ∧ inNear s 0x110080 128 = true ∧ rcbChain s (recRegion s 0x110080) = some [0x200200] ∧
    recRegion s 0x110080 = 0x200200 ∧ rcbQhead s 0x200200 = n ∧ rcbQtail s 0x200200 = n) ∧
    ∀ n, n = 0 ∨ n = 0x110180 → Machine.Inv (sDq n) ∧ PoolCache (sDq n) :=
  ⟨by decide +kernel, fun n h => by
    rcases h with rfl | rfl <;> exact ⟨⟨by decide +kernel, by decide +kernel⟩, by decide +kernel, by decide +kernel⟩⟩

theorem wit_DispatchEvents_take : let s := sDp
    let l₀ := resolveLaunch { s with seq := s.seq + 1 } qd [0x200200] s.seq
    nextQueued s = some qd ∧ rcbChain s qd.region = some [0x200200] ∧ chainStopped s [0x200200] = false ∧
    rootSeen s l₀.ptroot = true ∧ (judge { s with seq := s.seq + 1 } l₀).1 = none := by
  decide +kernel

/-- A launch of eight workgroups has none placed, one saved, or one that runs. -/
def lq (n : Nat) : Launch := { probeLaunch 1 with nwg := 8, live := 8, unplaced := (List.range 8).drop n }
def sPl : State := { regions 0 base with groups := [], wgs := [], launches := [lq 0] }
def saved (st : WgStatus) : State := { onWg (fun w => { w with status := st }) (regions 0 base) with launches := [lq 1] }

theorem wit_DispatchEvents_place : ∃ l u, served sPl (255 / 64) = some l ∧ awaited sPl l.uid = none ∧ placeQuartet sPl l 255 = some u :=
  ⟨_, _, some_eq _ (by decide +kernel), by decide +kernel, some_eq _ (by decide +kernel)⟩

theorem wit_DispatchEvents_save : ∃ w l, let s := saved .stopping
    findWg s 2 = some w ∧ findLaunch s w.launch = some l ∧ w.status = .stopping ∧ drained s w = true :=
  ⟨_, _, some_eq _ (by decide +kernel), some_eq _ (by decide +kernel), by decide +kernel, by decide +kernel⟩

theorem wit_DispatchEvents_restore : ∃ l w u, let s := saved .saved
    served s (9 / 64) = some l ∧ awaited s l.uid = some w ∧ w.status = .saved ∧ restoreQuartet s w 9 = some u :=
  ⟨_, _, _, some_eq _ (by decide +kernel), some_eq _ (by decide +kernel), by decide +kernel, some_eq _ (by decide +kernel)⟩

/-- A launch that needs every row of a cluster finds the one core that its region may use taken. -/
def big (prio : Nat) : Launch := { probeLaunch 9 with prio := prio, accRows := 2048, caps := [1], unplaced := [0] }
def full (prio : Nat) : State :=
  let s := regions 0 base
  { s with launches := s.launches.map (fun l => { l with caps := [1], sliceLeft := some 0 }) ++ [big prio] }

theorem wit_DispatchEvents_preempt : ∃ l ls r rs, eligibles (full 7) = l :: ls ∧
    queuedBefore (full 7) l = false ∧ fitsSoon (full 7) l = false ∧ removals (full 7) l = r :: rs :=
  ⟨big 7, [], [2], [[2]], by decide +kernel, by decide +kernel, by decide +kernel, by decide +kernel⟩

theorem wit_DispatchEvents_slice : ∃ l x w, let s := full 0
    findLaunch s 1 = some l ∧ l.sliceLeft = some 0 ∧ x ∈ eligibles s ∧ x.uid ≠ 1 ∧ x.prio = l.prio ∧ fitsNow s x = false ∧
    w ∈ s.wgs ∧ w.launch = 1 ∧ w.status = .resident ∧
    ¬ ∀ w' ∈ (residents s).filter (fun w' => w'.launch = 1), ∀ g ∈ groupsOf s w'.uid, groupDue s g = true :=
  ⟨(findLaunch (full 0) 1).get (by decide +kernel), big 0, (findWg (full 0) 2).get (by decide +kernel), some_eq _ _, by decide +kernel⟩

/-- A launch that has ended, its record on the data page. -/
def lEnd : Launch := { probeLaunch 1 with live := 0, recPa := 0x110080, region := 0x200200 }
def sEnd : State := { base with groups := [], wgs := [], launches := [lEnd], mcb := { base.mcb with nqbase := 0x500000, nqlog := 4 } }
theorem wit_DispatchEvents_complete : (findLaunch sEnd 1 = some lEnd ∧ lEnd.live = 0 ∧ lEnd.unplaced = [] ∧ lEnd.tape = false ∧
      lEnd.endFwd = false ∧ queueNamed sEnd.mcb = true ∧ queueFull sEnd.mcb = false ∧ sEnd.held = [] ∧ sEnd.mcb.nqtail = 0) ∧
    (Machine.Inv sEnd ∧ PoolCache sEnd) ∧
    ∀ p ∈ sEnd.queued.map (·.recPa) ++ sEnd.launches.map (·.recPa), p = lEnd.recPa :=
  ⟨by decide +kernel, ⟨⟨by decide +kernel, by decide +kernel⟩, by decide +kernel, by decide +kernel⟩, by decide +kernel⟩

/-! ## The host, the module and the link -/

/-- A command waits in slot 3 with its operands; every function is the host's. -/
def cmd (code a0 a1 a2 : Nat) (s : State) : State :=
  { s with cmds := [(3, BitVec.ofNat 512 (code + 2 ^ 16 * 77 + 2 ^ 64 * a0 + 2 ^ 128 * a1 + 2 ^ 192 * a2))]
           mcb := { s.mcb with mode := 31, nqbase := 0x500000, nqlog := 4 }, boot := { s.boot with hostUp := true } }
/-- A queue is named and may be full. -/
def quiet (n : Word) : State := { sH with mcb := { sH.mcb with nqbase := 0x500000, nqlog := 4, nqtail := n } }

/-- The module at step 4 of a host-assisted start, and after a start that has failed. -/
def sBu (fails : Nat) (ports : BitVec 18) : State :=
  { sH with
    boot := { sH.boot with hostUp := true, step := 4 }, mcb := { sH.mcb with portup := ports }
    link := [(0, ⟨fails, [⟨5, 0, [], 0, none⟩], [⟨6, 0, [], 2, none⟩], [⟨0, false⟩, ⟨0, false⟩, ⟨0, false⟩, ⟨0, false⟩]⟩)] }
theorem wit_HostAccesses_window : (linkUp (sBu 0 0) = false ∧ windowReads (sBu 0 0) = true) ∧
    (linkUp State.reset = false ∧ bringUpVia State.reset = none ∧ windowReads State.reset = false) ∧
    windowReads { sH with boot := { sH.boot with dead := true } } = true ∧ windowReads (up sH) = true := by decide +kernel

theorem wit_HostAccesses : let s := up sH
    (s.boot.step = 10 ∧ linkUp s = true ∧ linkUp sH = false ∧ inWindow 0x110000 = false ∧ inMemory s 0x110000 256 = true ∧
      hitsOwned s 0x110000 256 = false ∧ keyVal s 0 = some 0 ∧ keyVal s 4 = none) ∧ (Machine.Inv s ∧ PoolCache s) ∧
    (cmdCode s 63 = 0 ∧ mapWf 0 s.cmds = true ∧ ofBytes (leBytes 8 1) % 256 ≠ 0 ∧ ofBytes (leBytes 8 0x30000) % 256 = 0) ∧
    (s.queued ≠ [] ∨ s.launches ≠ []) ∧ (State.reset.queued = [] ∧ State.reset.launches = [] ∧ State.reset.boot.step ≠ 10) ∧
    (0x110000 : DWord).toNat % 65536 = 0 ∧ inNear s 0x110000 65536 = true :=
  ⟨by decide +kernel, ⟨⟨by decide +kernel, by decide +kernel⟩, ⟨by decide +kernel, by decide +kernel⟩⟩, by decide +kernel,
   by decide +kernel, ⟨rfl, rfl, by decide +kernel⟩, by decide +kernel, by decide +kernel⟩

theorem wit_HostCommands_posted : Machine.Inv (quiet 3) ∧ PoolCache (quiet 3) ∧
    (queueNamed (quiet 3).mcb = true ∧ queueFull (quiet 3).mcb = false ∧ (quiet 3).held = [] ∧ 0x500000 + 32 * 3 + 32 ≤ poolBase) ∧
    queueFull (quiet 16).mcb = true ∧ queueNamed sH.mcb = false :=
  ⟨⟨by decide +kernel, by decide +kernel⟩, ⟨by decide +kernel, by decide +kernel⟩, by decide +kernel, by decide +kernel, by decide +kernel⟩

theorem cmdReady {s : State} {slot code : Nat} (h : s.boot.step = 10 ∧ cmdCode s slot = code ∧ cmdAllowed s code = true ∧
    operandsOk s slot = true ∧ mapWf 0 s.cmds = true) : CmdReady s slot code := h

/-- A pool line is cached, clean or dirty. -/
def sFl (d : Bool) : State :=
  let s := cmd 1 poolBase 0x100 0 sH
  { s with
    mem := memSet s.mem (poolBase + 5) 7
    msc := [⟨poolBase, if d then [(5, 7), (6, 1)] else [(5, 7)], d⟩], boot := { s.boot with poolBytes := 65536 } }

theorem wit_HostCommands_flush : ∀ d : Bool, CmdReady (sFl d) 3 1 ∧ Machine.Inv (sFl d) ∧ PoolCache (sFl d) ∧ CacheAgrees (sFl d) := by
  intro d
  cases d <;>
    exact ⟨cmdReady (by decide +kernel), ⟨by decide +kernel, by decide +kernel⟩, ⟨by decide +kernel, by decide +kernel⟩,
      ⟨by decide +kernel, by decide +kernel, by decide +kernel⟩⟩

theorem wit_HostCommands_operands : ∀ n ∈ [1, 2, 4, 5, 6, 7], let s := cmd n 257 3 0 sH
    s.boot.step = 10 ∧ 1 ≤ cmdCode s 3 ∧ cmdAllowed s (cmdCode s 3) = true ∧ operandsOk s 3 = false := by decide +kernel

def frozen (a1 : Nat) : State :=
  cmd 4 (groupId k0) a1 68 (onGroup (fun g => { g with frozen := true, trapMode := false }) sH)

theorem wit_HostCommands_ready : CmdReady (cmd 1 0x110000 0x100 0 sH) 3 1 ∧ CmdReady (cmd 2 0x80000 0 (2 ^ 60) sH) 3 2 ∧
    CmdReady (cmd 3 7 1 0 (sRq none)) 3 3 ∧ (∀ a < 3, CmdReady (frozen a) 3 4) ∧ CmdReady (cmd 5 5 0x110000 0 sH) 3 5 ∧
    CmdReady (cmd 6 5 0 0 sH) 3 6 ∧ CmdReady (cmd 7 0x200200 0 0 sDp) 3 7 ∧ CmdReady (cmd 9 0 0 0 sH) 3 9 := by
  refine ⟨cmdReady (by decide +kernel), cmdReady (by decide +kernel), cmdReady (by decide +kernel), fun a h => ?_,
    cmdReady (by decide +kernel), cmdReady (by decide +kernel), cmdReady (by decide +kernel), cmdReady (by decide +kernel)⟩
  have : a = 0 ∨ a = 1 ∨ a = 2 := by omega
  rcases this with rfl | rfl | rfl <;> exact cmdReady (by decide +kernel)
def fz (a1 : Nat) : State := cmd 4 (groupId k0) a1 68 (onGroup (fun g => { g with frozen := true, trapMode := false }) sF)

theorem wit_HostCommands_trapgo : (∀ a < 3, CmdReady (fz a) 3 4) ∧
    ∃ g w ln g₁ w₁ ln₁, frozenGroup (fz 1) (cmdArg (fz 1) 3 0) = some g ∧ findCtx (fz 1) g.key = some (g, w, ln) ∧
      (handlerHeader (acceptCmd (fz 1) 3) ln).isSome = true ∧ cmdArg (fz 1) 3 1 = 1 ∧ cmdArg (fz 1) 3 2 % 2 = 0 ∧
      let v := completeAccesses (acceptCmd (fz 1) 3) g.key
      findCtx v g.key = some (g₁, w₁, ln₁) ∧ ∀ l < g₁.width, inCode ln₁ { g₁ with trapMode := false }
        (ln₁.kernel + BitVec.ofNat 64 (frameGet v w₁ g.key.g (0x100 + 4 * l) 4)) = true := by
  refine ⟨fun a h => ?_, ⟨(frozenGroup (fz 1) (cmdArg (fz 1) 3 0)).get (by decide +kernel), (findWg (fz 1) 2).get (by decide +kernel),
    (findLaunch (fz 1) 1).get (by decide +kernel), _, _, _, some_eq _ _, by decide +kernel, by decide +kernel, by decide +kernel,
    by decide +kernel, found_ctx (by decide +kernel), by decide +kernel⟩⟩
  have : a = 0 ∨ a = 1 ∨ a = 2 := by omega
  rcases this with rfl | rfl | rfl <;> exact cmdReady (by decide +kernel)

/-- A tape of one record on the data page, with its area. -/
def sTg (n : Nat) : State :=
  let s := cmd 7 0x200200 0 0 sDp
  let m := memSetBytes s.mem (0x200200 + 40) (leBytes 8 0x11000)
  let m := memSetBytes m (0x200200 + 52) (leBytes 4 n)
  { s with mem := memSetBytes m (0x200200 + 120) (leBytes 8 0x10200) }

theorem wit_HostCommands_tapego : let s := sTg 1
    let s₁ := rcbSetBit (acceptCmd s 3) 0x200200 1 true
    CmdReady s 3 7 ∧ rcbTapeRun s 0x200200 = false ∧ rcbChain s₁ 0x200200 = some [0x200200] ∧
    tapeArea s₁ (regionLaunch s₁ [0x200200]) 0x200200 = some (0x110200, 0) ∧ rcbTapesp s₁ 0x200200 ≠ 0 ∧
    (virtBytes s₁ (regionLaunch s₁ [0x200200]) (resolved s₁ [0x200200] 3 383 320 + 64 * (rcbTapesp s₁ 0x200200 - 1)) 64).isSome = true ∧
    rcbTapeRun { s with mem := memSetBytes s.mem (0x200200 + 84) [2] } 0x200200 = true :=
  ⟨cmdReady (by decide +kernel), by decide +kernel, by decide +kernel, by decide +kernel, by decide +kernel, by decide +kernel, by decide +kernel⟩

/-- The module waits at step 4 of a start for the host. -/
def sGo (a0 a1 : Nat) : State :=
  let s : State := { State.reset with cmds := [(0, BitVec.ofNat 512 (8 + 2 ^ 64 * a0 + 2 ^ 128 * a1))] }
  { s with boot := { s.boot with step := 4, waiting := true, hostUp := true, env := some StartEnv.fair, record := List.replicate 9 (0, 0) } }

theorem wit_HostCommands_stepgo : (∀ p ∈ [(4, 0), (5, 0), (4, 3)], let s := sGo p.1 p.2
    s.boot.waiting = true ∧ cmdCode s 0 = 8 ∧ s.boot.env = some StartEnv.fair ∧ 1 ≤ s.boot.step ∧ s.boot.step ≤ 9 ∧ s.boot.record.length = 9) ∧
    cmdArg (sGo 4 0) 0 0 = 4 ∧ cmdArg (sGo 4 0) 0 1 = 0 ∧ cmdArg (sGo 5 0) 0 0 ≠ 4 ∧ 2 < cmdArg (sGo 4 3) 0 1 := by decide +kernel

/-- The commands in hardware mode. -/
def hard (code : Nat) : State := { cmd code 0 0 0 sH with mcb := sH.mcb, boot := { sH.boot with hostUp := false } }

theorem wit_HostCommands_refused : ((hard 8).boot.waiting = false ∧ (hard 8).boot.step = 10 ∧ cmdCode (hard 8) 3 = 8 ∧ (hard 8).boot.hostUp = false) ∧
    9 < cmdCode (hard 10) 3 ∧ ∀ n ∈ [3, 4, 5, 6, 7], cmdCode (hard n) 3 = n ∧ cmdAllowed (hard n) n = false := by decide +kernel

theorem wit_ModuleEvents_start : (StartEnv.fair.primaryFails = [] ∧ StartEnv.fair.alternateFails = [] ∧ StartEnv.fair.halfRate = 0 ∧
      StartEnv.fair.badClusters = [] ∧ StartEnv.fair.fuses.length = 4) ∧ (∀ m ∈ StartEnv.fair.fuses, (fusedClusters m).length = 16) ∧
    bit State.reset.boot.flashMode 4 = false ∧ (∀ e ∈ State.reset.boot.flash, e.1 = 0 ∨ e.1 = 1) ∧ State.reset.boot.flashNqbase = 0 ∧
    State.reset.boot.flash.length = 9 ∧ Machine.Inv State.reset :=
  ⟨by decide +kernel, fun m h => by rw [List.eq_of_mem_replicate h]; decide +kernel, by decide +kernel, by decide +kernel, by decide +kernel,
   by decide +kernel, ⟨by decide +kernel, by decide +kernel⟩⟩

/-- Flash names a queue. -/
def sFq : State := { State.reset with boot := { State.reset.boot with flashNqbase := 0x500000, flashNqlog := 4 } }

/-- R372, R376: the start reports itself at the first entry: KIND 6. -/
theorem test_start_reports : (match exec (.start StartEnv.fair) sFq with
    | .next t => queueNamed t.mcb && t.mcb.nqtail == 1 && memGet t.mem 0x500000 == 6 | _ => false) = true := by decide +kernel

theorem wit_ModuleEvents_soft : let s : State := { sM with issueSlots := [⟨0, 0, 0, 1, 0, 56, none, none⟩], ports := [⟨1, 0, 0, 1, 0, none⟩, ⟨2, 0, 0, 5, 56, none⟩] }
    (∃ x ∈ s.issueSlots, 56 ≤ x.wait ∧ x.promoted = none) ∧
    (∀ x ∈ s.ports, x.promoted = none ∧ (match x.cls with | 1 => 8 | 2 => 16 | 3 => 32 | 4 => 48 | _ => 64) ≤ x.wait + 8) ∧
    (∀ p ∈ [PoisonLoc.vreg k0 7 15, .scratch 2 7, .acc 2 7 255, .line 0x110000], poisonable s p = true) ∧
    poisonable s (.bslot 0 1 0) = true := by decide +kernel

/-- Port 0 holds flits, has failed n times in a row, and has a channel; port 1 is up as well. -/
def sLk (n : Nat) (v : VChan) : State :=
  { sH with
    link := [(0, ⟨n, [⟨5, 1, [], 0, none⟩], [⟨6, 0, [], 2, none⟩, ⟨7, 3, [], 14, none⟩, ⟨8, 1, [], 62, none⟩], [⟨0, false⟩, ⟨0, false⟩, v, ⟨0, false⟩]⟩)]
    mcb := { sH.mcb with portup := 3 } }

theorem wit_LinkEvents : ((portOf (sLk 16 ⟨0, false⟩) 0).replay = [⟨5, 1, [], 0, none⟩] ∧ portCarries (sLk 16 ⟨0, false⟩) 0 1 = true ∧ (portOf (sLk 16 ⟨0, false⟩) 0).fails ≤ 16) ∧
    (mapWf Port.quiet (sLk 17 ⟨0, false⟩).link = true ∧ (sLk 17 ⟨0, false⟩).boot.step = 10 ∧ portUp (sLk 17 ⟨0, false⟩) 0 = true ∧ 16 < (portOf (sLk 17 ⟨0, false⟩) 0).fails ∧
      portUp (sLk 17 ⟨0, false⟩) 1 = true) ∧
    (((portOf (sLk 0 ⟨Config.vcHigh + 1, false⟩) 0).vc 2).paused = false ∧
      Config.vcHigh < ((portOf (sLk 0 ⟨Config.vcHigh + 1, false⟩) 0).vc 2).fill) ∧
    (mapWf Port.quiet (sLk 0 ⟨0, true⟩).link = true ∧ ((portOf (sLk 0 ⟨0, true⟩) 0).vc 2).paused = true ∧
      ((portOf (sLk 0 ⟨0, true⟩) 0).vc 2).fill ≤ Config.vcLow) ∧
    ∀ f ∈ (portOf (sLk 0 ⟨0, true⟩) 0).queue, f.promoted = none ∧ (match f.vc with | 0 => 4 | 3 => 16 | _ => 64) ≤ f.wait + 2 :=
  ⟨by decide +kernel, ⟨by decide +kernel, by decide +kernel, by decide +kernel, by decide +kernel⟩,
   ⟨by simp [sLk, portOf, mapGet, Port.vc], by simp [sLk, portOf, mapGet, Port.vc]⟩,
   ⟨by decide +kernel, by decide +kernel, by simp [sLk, portOf, mapGet, Port.vc]⟩, by decide +kernel⟩

theorem wit_LinkEvents_bringUp :
    (mapWf Port.quiet (sBu 17 0).link = true ∧ bringUpPort (sBu 17 0) = true ∧ 16 < (portOf (sBu 17 0) 0).fails ∧
      ∀ q < 18, portUp (sBu 17 0) q = false) ∧
    (mapWf Port.quiet (sBu 17 6).link = true ∧ bringUpPort (sBu 17 6) = true ∧ 16 < (portOf (sBu 17 6) 0).fails ∧
      portUp (sBu 17 6) 1 = true) :=
  ⟨⟨by decide +kernel, by decide +kernel, by decide +kernel, by decide +kernel⟩, by decide +kernel, by decide +kernel, by decide +kernel,
   by decide +kernel⟩

/-! ## Operands, steps and invariants -/

theorem wit_OperandValues : ∀ k ∈ [DsType.uniform, .inverse, .aliased, .reject], ∃ g im, dsOf g 3 = some im ∧ im.kind = k := by
  intro k _
  exact ⟨{ (freshGroup (probeLaunch 1) 2 0 0 ⟨1, 16, 0, 0, 0⟩) with ds := [(3, ⟨k, 1, 4, 0, 0, 0⟩)] }, ⟨k, 1, 4, 0, 0, 0⟩, rfl, rfl⟩

/-- A word stands where the next step fetches. -/
def sW1 (w : Nat) : State := State.reset.withFetchWord 32 w
def sW0 (w : Nat) : State := { sW1 w with turns := [] }

theorem words_eq {x : Except FetchStop (List Nat)} {ws : List Nat}
    (h : (match x with | .ok a => a == ws | .error _ => false) = true) : x = .ok ws := by
  cases x with
  | ok a => simp only [beq_iff_eq] at h; rw [h]
  | error f => simp at h

theorem wit_StepRunsDecodedInstruction : ∃ g w ln ws, (sW1 0x010306F1).turns = .issue k0 64 none :: [] ∧ issuable (sW0 0x010306F1) k0 64 = true ∧
    alone (sW0 0x010306F1) k0 64 = true ∧
    findCtx (sW0 0x010306F1) k0 = some (g, w, ln) ∧ fetch (focusAt (sW0 0x010306F1) k0 64 none) ln 64 = .ok ws ∧
    decodeWords ws = .ok (.iadd 3 (.v 6) .one) :=
  ⟨_, _, _, [0x010306F1], by decide +kernel, by decide +kernel, by decide +kernel, found_ctx (by decide +kernel), words_eq (by decide +kernel),
   by decide +kernel⟩

/-- A result is a next state. -/
def isNext (r : Result) : Bool := match r with | .next _ => true | _ => false
theorem next_of {r : Result} (h : isNext r = true) : ∃ t, r = .next t := by
  cases r with
  | next t => exact ⟨t, rfl⟩
  | fault f => simp [isNext] at h
  | refused f => simp [isNext] at h

theorem wit_StepKeepsMemoryCanonical : Machine.Inv (sW1 0x010306F1) ∧ ∃ t, step (sW1 0x010306F1) = .next t :=
  ⟨⟨by decide +kernel, by decide +kernel⟩, next_of (by decide +kernel)⟩

theorem wit_StepKeepsTablesCanonical : Canon (sW1 0x010306F1) ∧ ∃ t, step (sW1 0x010306F1) = .next t :=
  ⟨canon _ (by decide +kernel), next_of (by decide +kernel)⟩

end Sys2Proof.Tests
end

/-! SUPPORT. What a write of memory leaves alone, and what a read under the writer's key finds after it (R51, R69). -/

namespace Sys2Proof.Machine

/-! ## The frame of a write of memory -/

/-- Only memory, the memory-side cache, the keys of lines, the L2s and the notes of poison of `t` may differ from those of `s`. -/
def MemoryOnly (s t : State) : Prop :=
  { t with mem := s.mem, msc := s.msc, lineKeys := s.lineKeys, l2 := s.l2, poison := s.poison } = s

namespace MemoryOnly

theorem refl (s : State) : MemoryOnly s s := rfl

theorem trans {s t u : State} (h : MemoryOnly s t) (h' : MemoryOnly t u) : MemoryOnly s u := by
  have e := congrArg (fun x : State =>
    { x with mem := s.mem, msc := s.msc, lineKeys := s.lineKeys, l2 := s.l2, poison := s.poison }) h'
  exact Eq.trans e h

theorem foldl {α : Type} {f : State → α → State} (hf : ∀ s a, MemoryOnly s (f s a)) (l : List α) (s : State) :
    MemoryOnly s (l.foldl f s) := by
  induction l generalizing s with
  | nil => exact refl s
  | cons a l ih => exact (hf s a).trans (ih (f s a))

theorem ite {c : Prop} [Decidable c] {s t u : State} (h : MemoryOnly s t) (h' : MemoryOnly s u) :
    MemoryOnly s (if c then t else u) := by
  split
  · exact h
  · exact h'

theorem written {s t : State} (h : MemoryOnly s t) (m : List Host.Cell) (c : List MscLine) :
    MemoryOnly s { t with mem := m, msc := c } := h.trans rfl

theorem groups {s t : State} (h : MemoryOnly s t) : t.groups = s.groups := (congrArg State.groups h :)

theorem wgs {s t : State} (h : MemoryOnly s t) : t.wgs = s.wgs := (congrArg State.wgs h :)

theorem mcb {s t : State} (h : MemoryOnly s t) : t.mcb = s.mcb := (congrArg State.mcb h :)

theorem cmds {s t : State} (h : MemoryOnly s t) : t.cmds = s.cmds := (congrArg State.cmds h :)

theorem keys {s t : State} (h : MemoryOnly s t) : t.keys = s.keys := (congrArg State.keys h :)

end MemoryOnly

theorem memoryOnly_mscDrop (s : State) (base : Nat) : MemoryOnly s (mscDrop s base) := by
  unfold mscDrop
  split
  · rfl
  · unfold mscWriteBack
    split <;> rfl

theorem memoryOnly_mscFill (s : State) (base : Nat) : MemoryOnly s (mscFill s base) := by
  unfold mscFill
  split
  · rfl
  · exact (MemoryOnly.foldl memoryOnly_mscDrop _ s).trans rfl

theorem memoryOnly_rekeyLine (s : State) (key : BitVec 512) (base : Nat) : MemoryOnly s (rekeyLine s key base) := by
  unfold rekeyLine
  split
  · rfl
  · split
    · rfl
    · dsimp only
      split
      · split <;> rfl
      · rfl

theorem memoryOnly_homeSet (s : State) (key : BitVec 512) (ca pa : Nat) (b : Byte) : MemoryOnly s (homeSet s key ca pa b) := by
  have dropped (c : Bool) := MemoryOnly.ite (c := c = true) (memoryOnly_mscDrop s (lineOf pa)) (.refl s)
  have filled (c : Bool) := ((dropped c).trans (memoryOnly_mscFill _ (lineOf pa))).trans (memoryOnly_rekeyLine _ key (lineOf pa))
  unfold homeSet
  dsimp only
  split
  · split <;> exact (filled _).written _ _
  · exact ((dropped _).trans (memoryOnly_rekeyLine _ key (lineOf pa))).written _ _

theorem memoryOnly_homeSetBytes (s : State) (key : BitVec 512) (ca pa : Nat) (bs : List Byte) :
    MemoryOnly s (homeSetBytes s key ca pa bs) := by
  induction bs generalizing s pa with
  | nil => rfl
  | cons b bs ih => exact (memoryOnly_homeSet s key ca pa b).trans (ih _ _)

theorem memoryOnly_ownSetBytes (s : State) (owner ca pa : Nat) (bs : List Byte) :
    MemoryOnly s (ownSetBytes s owner ca pa bs) :=
  (memoryOnly_homeSetBytes ..).trans (MemoryOnly.foldl (f := fun s l => l2Touch s owner l) (fun _ _ => rfl) _ _)

theorem memoryOnly_clearPoisonFor (s : State) (bs : List StoreByte) : MemoryOnly s (clearPoisonFor s bs) := by
  unfold clearPoisonFor
  split <;> rfl

theorem memoryOnly_plainSet (s : State) (pa : Nat) (bs : List Byte) : MemoryOnly s (plainSet s pa bs) := by
  induction bs generalizing s pa with
  | nil => rfl
  | cons b bs ih =>
    have byte : MemoryOnly s (plainSetByte s pa b) := by
      unfold plainSetByte
      split <;> rfl
    exact byte.trans (ih _ _)

/-! ## Maps and cells -/

/-- What a map holds after a list of its keys has been written, one after another. -/
theorem mapGet_foldl_mapSet {α : Type} [DecidableEq α] {d : α} (f : Nat → α) (is : List Nat) {m : SMap α} (h : mapWf d m = true)
    (j : Nat) : mapGet d (is.foldl (fun m i => mapSet d m i (f i)) m) j = if j ∈ is then f j else mapGet d m j := by
  induction is generalizing m with
  | nil => simp
  | cons i is ih =>
    rw [List.foldl_cons, ih (mapWf_mapSet i _ h), mapGet_mapSet _ _ _ h]
    by_cases hj : j = i
    · subst hj; simp
    · simp [hj]

theorem mapWf_foldl_mapSet {α : Type} [DecidableEq α] {d : α} (f : Nat → α) (is : List Nat) {m : SMap α} (h : mapWf d m = true) :
    mapWf d (is.foldl (fun m i => mapSet d m i (f i)) m) = true := by
  induction is generalizing m with
  | nil => exact h
  | cons i is ih => exact ih (mapWf_mapSet i _ h)

theorem filter_mapErase {α : Type} (p : Nat × α → Bool) (m : SMap α) (k : Nat) (hp : ∀ v, p (k, v) = false) :
    (mapErase m k).filter p = m.filter p := by
  induction m with
  | nil => rfl
  | cons c m ih =>
    obtain ⟨k', v'⟩ := c
    unfold mapErase
    split
    · next e => subst e; simp [hp]
    · split
      · rfl
      · simp [List.filter_cons, ih]

theorem filter_mapPut {α : Type} (p : Nat × α → Bool) (m : SMap α) (k : Nat) (v : α) (hp : ∀ v, p (k, v) = false) :
    (mapPut m k v).filter p = m.filter p := by
  induction m with
  | nil => simp [mapPut, hp]
  | cons c m ih =>
    obtain ⟨k', v'⟩ := c
    unfold mapPut
    split
    · next e => subst e; simp [hp]
    · split
      · simp [List.filter_cons, hp]
      · simp [List.filter_cons, ih]

/-- A write of a key that a filter leaves out is not seen through it. -/
theorem filter_mapSet {α : Type} [DecidableEq α] {d : α} (p : Nat × α → Bool) (m : SMap α) (k : Nat) (v : α)
    (hp : ∀ v, p (k, v) = false) : (mapSet d m k v).filter p = m.filter p := by
  unfold mapSet
  split
  · exact filter_mapErase p m k hp
  · exact filter_mapPut p m k v hp

theorem mem_mapSet {α : Type} [DecidableEq α] {d : α} {m : SMap α} {k : Nat} {v : α} {x : Nat × α} (h : x ∈ mapSet d m k v) :
    x.1 = k ∨ x ∈ m := by
  by_contra hn
  obtain ⟨hk, hm⟩ := not_or.mp hn
  have keep : x ∈ (mapSet d m k v).filter (fun c => decide (c.1 ≠ k)) := List.mem_filter.mpr ⟨h, by simpa using hk⟩
  rw [filter_mapSet _ m k v (by simp)] at keep
  exact hm (List.mem_filter.mp keep).1

theorem mem_foldl_mapSet {α : Type} [DecidableEq α] {d : α} {f : Nat → α} {is : List Nat} {m : SMap α} {x : Nat × α}
    (h : x ∈ is.foldl (fun m i => mapSet d m i (f i)) m) : x.1 ∈ is ∨ x ∈ m := by
  induction is generalizing m with
  | nil => exact Or.inr h
  | cons i is ih =>
    rcases ih h with hi | hm
    · exact Or.inl (List.mem_cons_of_mem _ hi)
    · exact (mem_mapSet hm).imp_left (fun e : x.1 = i => e ▸ List.mem_cons_self ..)

/-- A write outside a range leaves the cells of the range as they are. -/
theorem cellsIn_memSet (m : List Host.Cell) (pa : Nat) (b : Byte) (base n : Nat) (h : pa < base ∨ base + n ≤ pa) :
    cellsIn (memSet m pa b) base n = cellsIn m base n := by
  unfold cellsIn memSet
  rw [filter_mapSet _ m pa b (fun _ => by
    simp only [Bool.and_eq_false_iff, decide_eq_false_iff_not]
    omega)]

/-- A block that is written outside a range leaves the cells of the range as they are. -/
theorem cellsIn_memPutBlock (m : List Host.Cell) (b : SMap Byte) (at' k base n : Nat) (hb : ∀ x ∈ b, x.1 < k)
    (h : at' + k ≤ base ∨ base + n ≤ at') : cellsIn (memPutBlock m at' k b) base n = cellsIn m base n := by
  have clear : cellsIn (memClear m at' k) base n = cellsIn m base n := by
    unfold cellsIn memClear
    rw [List.filter_filter]
    congr 1
    apply List.filter_congr
    intro c _
    rw [Bool.eq_iff_iff]
    simp only [Bool.and_eq_true, decide_eq_true_eq, Bool.not_eq_true', Bool.and_eq_false_iff, decide_eq_false_iff_not]
    omega
  have put : ∀ (b : SMap Byte) (m : List Host.Cell), (∀ x ∈ b, x.1 < k) →
      cellsIn (b.foldl (fun m c => memSet m (at' + c.1) c.2) m) base n = cellsIn m base n := by
    intro b
    induction b with
    | nil => intro m _; rfl
    | cons c b ih =>
      intro m hb
      have hc := hb c (List.mem_cons_self ..)
      rw [List.foldl_cons, ih _ (fun x hx => hb x (List.mem_cons_of_mem _ hx)), cellsIn_memSet _ _ _ _ _ (by omega)]
  exact (put b _ hb).trans clear

/-! ## Reads at the home -/

/-- A read at the home depends on memory, its cache and its keys alone. -/
theorem homeByte_of_homeAs {s t : State} (h : Claims.HomeAs t s) (key : BitVec 512) (pa : Nat) :
    homeByte t key pa = homeByte s key pa := by
  obtain ⟨hm, hc, hk⟩ := h
  unfold homeByte plainByte plainLine mscFind
  rw [hm, hc, hk]

theorem sameBytes_of_homeAs {s t : State} (h : Claims.HomeAs t s) (hw : t.wgs = s.wgs) : SameBytes s t := by
  refine ⟨fun pa => ?_, fun uid off => ?_, fun key pa => homeByte_of_homeAs h key pa⟩
  · obtain ⟨hm, hc, _⟩ := h
    unfold plainByte mscFind
    rw [hm, hc]
  · unfold scratchByte findWg
    rw [hw]

/-- A read of a line whose key and content are as before. -/
theorem homeByte_of_line {s t : State} (key : BitVec 512) (p : Nat) (hc : t.msc = s.msc)
    (hk : mapFind t.lineKeys (lineOf p) = mapFind s.lineKeys (lineOf p))
    (hl : cellsIn t.mem (lineOf p) 256 = cellsIn s.mem (lineOf p) 256) (hm : memGet t.mem p = memGet s.mem p) :
    homeByte t key p = homeByte s key p := by
  unfold homeByte plainByte plainLine mscFind
  rw [hc, hk, hl, hm]

/-- A line that no key or this one was written under last reads as its plain bytes. -/
theorem homeByte_own {s : State} {key : BitVec 512} {p : Nat} (h : ∀ k, mapFind s.lineKeys (lineOf p) = some k → k = key) :
    homeByte s key p = plainByte s p := by
  unfold homeByte
  split
  · rfl
  · next k e => rw [if_pos (h k e)]

theorem lineOf_bounds {a : Nat} : lineOf a ≤ a ∧ a < lineOf a + 256 := by
  unfold lineOf
  omega

theorem lineOf_apart {a b : Nat} (h : lineOf a ≠ lineOf b) : lineOf a + 256 ≤ lineOf b ∨ lineOf b + 256 ≤ lineOf a := by
  unfold lineOf at *
  omega

/-! ## Writes below the pool -/

/-- Memory is in canonical form, and only pool lines stand in the memory-side cache (R51). -/
structure PlainBelow (s : State) : Prop where
  wf : MemWf s
  pool : ∀ l ∈ s.msc, poolBase ≤ l.base

theorem mscFind_below {s : State} (h : PlainBelow s) {base : Nat} (hb : base < poolBase) : mscFind s base = none := by
  refine List.find?_eq_none.mpr (fun l hl => ?_)
  have := h.pool l hl
  simp only [decide_eq_true_eq]
  omega

theorem plainByte_below {s : State} {p : Nat} (hp : p < poolBase) : plainByte s p = memGet s.mem p := if_neg (by omega)

/-- What a reader under another key than the line's sees of it, as a map of its 256 bytes (R69). -/
theorem homeLine_canon {s : State} {key k : BitVec 512} {base : Nat} (h : mapFind s.lineKeys base = some k) (hk : k ≠ key) :
    mapWf 0 (homeLine s key base) = true ∧ (∀ x ∈ homeLine s key base, x.1 < 256) ∧
      ∀ i < 256, mapGet 0 (homeLine s key base) i = Config.xtsView k key base (plainLine s base) i := by
  have e : homeLine s key base = (List.range 256).foldl
      (fun m i => mapSet 0 m i (Config.xtsView k key base (plainLine s base) i)) [] := by
    unfold homeLine
    rw [h]
    exact if_neg hk
  rw [e]
  refine ⟨mapWf_foldl_mapSet _ _ rfl, fun x hx => by simpa using mem_foldl_mapSet hx, fun i hi => ?_⟩
  rw [mapGet_foldl_mapSet _ _ rfl, if_pos (List.mem_range.mpr hi)]

/-- A line below the pool takes the key of its next writer: the writer reads of every byte what it read before (R69). -/
theorem rekeyLine_below {s : State} (h : PlainBelow s) (key : BitVec 512) {pa : Nat} (hpa : pa < poolBase) :
    (rekeyLine s key (lineOf pa)).msc = s.msc ∧ mapFind (rekeyLine s key (lineOf pa)).lineKeys (lineOf pa) = some key ∧
      ∀ p, homeByte (rekeyLine s key (lineOf pa)) key p = homeByte s key p := by
  have hbase : lineOf pa < poolBase := by have := lineOf_bounds (a := pa); omega
  unfold rekeyLine
  split
  · next e =>
    refine ⟨rfl, mapFind_mapPut_self .., fun p => ?_⟩
    by_cases hp : lineOf p = lineOf pa
    · rw [homeByte_own (by simp [hp, mapFind_mapPut_self]), homeByte_own (s := s) (by simp [hp, e])]
      rfl
    · exact homeByte_of_line key p rfl (mapFind_mapPut_other _ _ _ _ hp) rfl rfl
  · next k e =>
    split
    · next hk => exact ⟨rfl, hk ▸ e, fun _ => rfl⟩
    · next hk =>
      obtain ⟨hwf, hin, hget⟩ := homeLine_canon e hk
      have hnone : mscFind { s with lineKeys := mapPut s.lineKeys (lineOf pa) key } (lineOf pa) = none :=
        mscFind_below ⟨h.wf, h.pool⟩ hbase
      dsimp only
      rw [hnone]
      refine ⟨rfl, mapFind_mapPut_self .., fun p => ?_⟩
      have hin' := lineOf_bounds (a := p)
      by_cases hp : lineOf p = lineOf pa
      · rw [homeByte_own (by simp [hp, mapFind_mapPut_self])]
        have hbelow : p < poolBase := by unfold lineOf at hp; unfold poolBase at *; omega
        have hoff : p - lineOf pa = p % 256 := by unfold lineOf at *; omega
        rw [plainByte_below hbelow, memGet_memPutBlock _ _ _ h.wf hwf (by omega) (by omega), hoff, hget _ (by omega)]
        unfold homeByte
        rw [hp, e]
        exact (if_neg hk).symm
      · have hap := lineOf_apart hp
        exact homeByte_of_line key p rfl (mapFind_mapPut_other _ _ _ _ hp) (cellsIn_memPutBlock _ _ _ _ _ _ hin (by omega))
          (memGet_memPutBlock_other _ _ _ h.wf hin (by omega))

/-- A byte written in a line that stands under the writer's key. -/
theorem homeByte_memSet {s : State} (h : PlainBelow s) {key : BitVec 512} {pa : Nat} (hpa : pa < poolBase)
    (hk : mapFind s.lineKeys (lineOf pa) = some key) (b : Byte) (p : Nat) :
    homeByte { s with mem := memSet s.mem pa b } key p = if p = pa then b else homeByte s key p := by
  have hin := lineOf_bounds (a := pa)
  by_cases hp : lineOf p = lineOf pa
  · have hbelow : p < poolBase := by unfold lineOf at hp; unfold poolBase at *; omega
    have own : ∀ k, mapFind s.lineKeys (lineOf p) = some k → k = key := by simp [hp, hk]
    rw [homeByte_own (s := { s with mem := memSet s.mem pa b }) own, homeByte_own own, plainByte_below hbelow, plainByte_below hbelow]
    exact memGet_memSet pa p b h.wf
  · have hap := lineOf_apart hp
    have hne : p ≠ pa := fun e => hp (by rw [e])
    rw [if_neg hne]
    exact homeByte_of_line key p rfl rfl (cellsIn_memSet _ _ _ _ _ (by omega)) ((memGet_memSet pa p b h.wf).trans (if_neg hne))

theorem homeSet_below {s : State} (key : BitVec 512) (ca : Nat) {pa : Nat} (hpa : pa < poolBase) (b : Byte) :
    homeSet s key ca pa b =
      { rekeyLine s key (lineOf pa) with mem := memSet (rekeyLine s key (lineOf pa)).mem pa b } := by
  unfold homeSet
  simp [show ¬ poolBase ≤ pa by omega]

theorem plainBelow_homeSet {s : State} (h : PlainBelow s) (key : BitVec 512) (ca : Nat) {pa : Nat} (hpa : pa < poolBase) (b : Byte) :
    PlainBelow (homeSet s key ca pa b) := by
  obtain ⟨hmsc, _, _⟩ := rekeyLine_below h key hpa
  refine ⟨homeSet_wf _ _ _ _ h.wf, ?_⟩
  rw [homeSet_below key ca hpa]
  exact hmsc ▸ h.pool

/-- A byte that is written below the pool is what its writer reads there, and of every other byte it reads what it read before
(R51, R69). -/
theorem homeByte_homeSet {s : State} (h : PlainBelow s) (key : BitVec 512) (ca : Nat) {pa : Nat} (hpa : pa < poolBase) (b : Byte)
    (p : Nat) : homeByte (homeSet s key ca pa b) key p = if p = pa then b else homeByte s key p := by
  obtain ⟨hmsc, hkey, hsame⟩ := rekeyLine_below h key hpa
  rw [homeSet_below key ca hpa, homeByte_memSet ⟨rekeyLine_wf _ _ h.wf, hmsc ▸ h.pool⟩ hpa hkey, hsame]

theorem homeByte_homeSetBytes {s : State} (h : PlainBelow s) (key : BitVec 512) (ca pa : Nat) (bs : List Byte)
    (hpa : pa + bs.length ≤ poolBase) (p : Nat) : homeByte (homeSetBytes s key ca pa bs) key p =
      if pa ≤ p ∧ p < pa + bs.length then bs.getD (p - pa) 0 else homeByte s key p := by
  induction bs generalizing s pa with
  | nil => simp [homeSetBytes, show ¬ (pa ≤ p ∧ p < pa) by omega]
  | cons b bs ih =>
    rw [List.length_cons] at hpa ⊢
    have hlt : pa < poolBase := by omega
    rw [homeSetBytes, ih (plainBelow_homeSet h key ca hlt b) (pa + 1) (by omega), homeByte_homeSet h key ca hlt]
    by_cases e : p = pa
    · subst e; simp
    · rw [if_neg e]
      by_cases l : pa + 1 ≤ p ∧ p < pa + 1 + bs.length
      · rw [if_pos l, if_pos (by omega), show p - pa = (p - (pa + 1)) + 1 by omega, List.getD_cons_succ]
      · rw [if_neg l, if_neg (by omega)]

theorem homeAs_l2TouchAll (s : State) (owner : Nat) (ls : List Nat) : Claims.HomeAs (l2TouchAll s owner ls) s := by
  unfold l2TouchAll
  induction ls generalizing s with
  | nil => exact ⟨rfl, rfl, rfl⟩
  | cons l ls ih => exact ih (l2Touch s owner l)

/-- An owner's write below the pool, as that owner reads it. -/
theorem homeByte_ownSetBytes {s : State} (h : PlainBelow s) (owner ca pa : Nat) (bs : List Byte)
    (hpa : pa + bs.length ≤ poolBase) (p : Nat) : homeByte (ownSetBytes s owner ca pa bs) (keyOr s owner) p =
      if pa ≤ p ∧ p < pa + bs.length then bs.getD (p - pa) 0 else homeByte s (keyOr s owner) p :=
  (homeByte_of_homeAs (homeAs_l2TouchAll ..) _ p).trans (homeByte_homeSetBytes h _ ca pa bs hpa p)

/-- The bytes that an owner has written below the pool are those that it reads there. -/
theorem homeBytes_ownSetBytes {s : State} (h : PlainBelow s) (owner ca pa : Nat) (bs : List Byte)
    (hpa : pa + bs.length ≤ poolBase) : homeBytes (ownSetBytes s owner ca pa bs) (keyOr s owner) pa bs.length = bs := by
  refine List.ext_getElem (by simp [homeBytes]) (fun i hi hb => ?_)
  simp only [homeBytes, List.getElem_map, List.getElem_range]
  rw [homeByte_ownSetBytes h owner ca pa bs hpa, if_pos (by omega), Nat.add_sub_cancel_left, List.getD_eq_getElem]

end Sys2Proof.Machine

/-! SUPPORT. The control block, the command slots and the host's accesses as the events of the host use them (R368–R373). -/

namespace Sys2Proof.Machine

/-! ## Numbers and bytes -/

theorem leBytes_length (n v : Nat) : (leBytes n v).length = n := by
  induction n generalizing v with
  | zero => rfl
  | succ n ih => rw [leBytes, List.length_cons, ih]

theorem ofBytes_lt (bs : List Byte) : ofBytes bs < 256 ^ bs.length := by
  induction bs with
  | nil => simp [ofBytes]
  | cons b bs ih =>
    have hb : b.toNat < 256 := b.isLt
    rw [ofBytes, List.length_cons, Nat.pow_succ]
    omega

/-! ## Notifications -/

/-- Writing an entry moves NQTAIL alone among the fields of the control block, and touches no command slot. -/
theorem writeNotif_frame (s : State) (n : Notif) :
    (writeNotif s n).mcb = { s.mcb with nqtail := s.mcb.nqtail + 1 } ∧ (writeNotif s n).cmds = s.cmds := by
  have h := memoryOnly_plainSet s (s.mcb.nqbase + 32 * (s.mcb.nqtail.toNat % 2 ^ s.mcb.nqlog)) n.bytes
  unfold writeNotif
  generalize plainSet s (s.mcb.nqbase + 32 * (s.mcb.nqtail.toNat % 2 ^ s.mcb.nqlog)) n.bytes = u at h ⊢
  exact ⟨congrArg (fun m : Mcb => { m with nqtail := m.nqtail + 1 }) h.mcb, h.cmds⟩

theorem post_cmds (s : State) (n : Notif) : (post s n).cmds = s.cmds := by
  unfold post
  split
  · split
    · rfl
    · exact (writeNotif_frame s n).2
  · split <;> rfl

/-- Held notifications that are written move NQTAIL alone among the fields of the control block. -/
theorem drainHeldN_mcb (k : Nat) (s : State) : (drainHeldN k s).mcb = { s.mcb with nqtail := (drainHeldN k s).mcb.nqtail } := by
  induction k generalizing s with
  | zero => rfl
  | succ k ih =>
    unfold drainHeldN
    split
    · rfl
    · next n ns _ =>
      split
      · have entry := (writeNotif_frame { s with held := ns } n).1
        rw [ih, entry]
      · rfl

theorem drainHeld_mcb (s : State) : (drainHeld s).mcb = { s.mcb with nqtail := (drainHeld s).mcb.nqtail } := drainHeldN_mcb _ s

theorem drainHeld_of_none {s : State} (h : s.held = []) : drainHeld s = s := by
  unfold drainHeld
  rw [h]
  rfl

theorem setNqhead_nqhead (s : State) (v : Word) : (setNqhead s v).mcb.nqhead = v := by
  unfold setNqhead
  rw [drainHeld_mcb]

/-! ## Fields of the control block (R369) -/

theorem idle_iff (s : State) : idle s = true ↔ s.queued = [] ∧ s.launches = [] := by
  simp [idle]

/-- The limits of NQBASE and NQLOG: no valid queue is named or the module is idle, and the base is a page of near memory. -/
def NqFits (s : State) (base : Nat) : Prop :=
  (queueNamed s.mcb = false ∨ (s.queued = [] ∧ s.launches = [])) ∧ base % 4096 = 0 ∧ inNear s base 4096 = true

theorem nqFits_iff (s : State) (base : Nat) : NqFits s base ↔
    ¬ ((queueNamed s.mcb = true ∧ idle s = false) ∨ base % 4096 ≠ 0 ∨ inNear s base 4096 = false) := by
  unfold NqFits
  rw [← idle_iff]
  cases queueNamed s.mcb <;> cases idle s <;> cases inNear s base 4096 <;> simp

theorem setNq_fits {s : State} {base : Nat} (log : Nat) (h : NqFits s base) :
    (setNq s base log).mcb.nqbase = base ∧ (setNq s base log).mcb.nqlog = log := by
  unfold setNq
  rw [if_neg ((nqFits_iff s base).mp h), drainHeld_mcb]
  exact ⟨rfl, rfl⟩

theorem setNq_dropped {s : State} {base : Nat} (log : Nat) (h : ¬ NqFits s base) : setNq s base log = s :=
  if_pos (not_not.mp (mt (nqFits_iff s base).mpr h))

theorem inService_down {s : State} (h : linkUp s = false) (f : State → State) : inService s f = .next s := by
  simp [inService, h]

theorem inService_up {s : State} (h : linkUp s = true) (f : State → State) : inService s f = .next (f s) := by
  simp [inService, h]

theorem linkUp_step {s : State} (h : linkUp s = true) : s.boot.step = 10 := by
  simp only [linkUp, Bool.and_eq_true, beq_iff_eq] at h
  exact h.1

/-! ## Command slots (R371) -/

/-- A field that lies in the doorbell, from the doorbell. -/
theorem cmdNum_of_doorbell (s : State) (slot : Nat) {hi lo : Nat} (h : hi ≤ 63) (hl : lo ≤ hi) :
    cmdNum s slot hi lo = cmdNum s slot 63 0 / 2 ^ lo % 2 ^ (hi + 1 - lo) := by
  have e : 2 ^ (63 + 1 - 0) = 2 ^ lo * 2 ^ (63 + 1 - lo) := by rw [← Nat.pow_add]; congr 1; omega
  simp only [cmdNum, bits]
  rw [Nat.pow_zero, Nat.div_one, e, Nat.mod_mul_right_div_self, Nat.mod_mod_of_dvd _ (Nat.pow_dvd_pow 2 (by omega))]

/-- The doorbell of a slot takes the eight bytes that are written to it, and the slot's operands stay. -/
theorem cmdNum_writeDoorbell {s : State} (slot : Nat) {bs : List Byte} (hw : mapWf 0 s.cmds = true) (hn : bs.length = 8) :
    cmdNum (writeSlot s slot 0 bs) slot 63 0 = ofBytes bs ∧
      cmdNum (writeSlot s slot 0 bs) slot 511 64 = cmdNum s slot 511 64 := by
  have hb := ofBytes_lt bs
  have hx := (mapGet 0 s.cmds slot).isLt
  rw [hn] at hb
  unfold writeSlot
  rw [if_pos (Or.inl ⟨rfl, hn⟩), hn]
  simp only [cmdNum, mapGet_mapSet _ _ _ hw, if_true, bits, BitVec.toNat_ofNat]
  omega

theorem writeSlot_frame (s : State) (slot at' : Nat) (bs : List Byte) :
    writeSlot s slot at' bs = { s with cmds := (writeSlot s slot at' bs).cmds } := by
  unfold writeSlot
  dsimp only
  split <;> rfl

/-! ## The events of the host -/

section

variable (s : State) (key : Nat)

theorem exec_hostRead (pa n : Nat) : exec (.hostRead pa n key) s = execHostRead pa n key s := rfl

theorem exec_hostWrite (pa : Nat) (bytes : List Byte) : exec (.hostWrite pa bytes key) s = execHostWrite pa bytes key s := rfl

theorem exec_hostAtomic (a : HostAtomic) : exec (.hostAtomic a) s = execHostAtomic a s := rfl

theorem exec_nqheadWrite (v : Word) : exec (.nqheadWrite v) s = inService s (fun s => setNqhead s v) := rfl

theorem exec_nqConfigWrite (base : DWord) (log : BitVec 8) :
    exec (.nqConfigWrite base log) s = inService s (fun s => setNq s base.toNat log.toNat) := rfl

theorem exec_capwWrite (v : BitVec 16) : exec (.capwWrite v) s = inService s (fun s => setCapw s v.toNat) := rfl

theorem exec_modeWrite (v : BitVec 5) : exec (.modeWrite v) s = inService s (fun s => setMode s v) := rfl

theorem exec_mcbWrite (f : McbField) (v : DWord) : exec (.mcbWrite f v) s = inService s (fun s => setField s f v.toNat) := rfl

theorem exec_launchPost (a : DWord) : exec (.launchPost a) s = execLaunchPost a s := rfl

theorem launchPost_down (a : DWord) (h : linkUp s = false) : exec (.launchPost a) s = .next s := by
  simp [exec_launchPost, execLaunchPost, h]

end

section Memory

variable {s : State} {key pa : Nat}

theorem keyOr_of_keyVal {k : BitVec 512} (h : keyVal s key = some k) : keyOr s key = k := by
  simp [keyOr, h]

/-- A read of memory that nothing carries has no answer (R4). -/
theorem hostRead_down (n : Nat) (hw : inWindow pa = false) (hl : linkUp s = false) :
    exec (.hostRead pa n key) s = .next { s with reply := none } := by
  simp [exec_hostRead, execHostRead, overLink, carried, hw, hl]

theorem hostWrite_down (bytes : List Byte) (hw : inWindow pa = false) (hl : linkUp s = false) :
    exec (.hostWrite pa bytes key) s = .next { s with reply := none } := by
  simp [exec_hostWrite, execHostWrite, overLink, carried, hw, hl]

/-- A read of memory answers the bytes at the home under the slot's key (R69). -/
theorem hostRead_memory {n : Nat} {k : BitVec 512} (hw : inWindow pa = false) (hl : linkUp s = true) (hm : inMemory s pa n = true)
    (hk : keyVal s key = some k) :
    exec (.hostRead pa n key) s = .next { s with reply := some ⟨homeBytes s k pa n, false⟩ } := by
  simp [exec_hostRead, execHostRead, overLink, carried, hostReaches, keyOr, hw, hl, hm, hk]

/-- Under an empty slot a read answers zeros and an error, and a write does nothing (R69). -/
theorem hostRead_keyless (n : Nat) (hw : inWindow pa = false) (hl : linkUp s = true) (hk : keyVal s key = none) :
    exec (.hostRead pa n key) s = .next { s with reply := some ⟨List.replicate n 0, true⟩ } := by
  simp [exec_hostRead, execHostRead, overLink, carried, hostReaches, hw, hl, hk]

theorem hostWrite_keyless (bytes : List Byte) (hw : inWindow pa = false) (hl : linkUp s = true) (hk : keyVal s key = none) :
    exec (.hostWrite pa bytes key) s = .next { s with reply := some ⟨[], true⟩ } := by
  simp [exec_hostWrite, execHostWrite, overLink, carried, hostReaches, hw, hl, hk]

/-- The state that a host's write of memory leaves, but for its answer. -/
def hostWritten (s : State) (pa : Nat) (bytes : List Byte) (key : Nat) : State :=
  ownSetBytes (clearPoisonFor s (hostBytes pa bytes)) key 0 pa bytes

theorem hostWrite_memory {bytes : List Byte} {k : BitVec 512} (hw : inWindow pa = false) (hl : linkUp s = true)
    (hm : inMemory s pa bytes.length = true) (hk : keyVal s key = some k) (ho : hitsOwned s pa bytes.length = false) :
    exec (.hostWrite pa bytes key) s = .next { hostWritten s pa bytes key with reply := some ⟨[], false⟩ } := by
  simp [exec_hostWrite, execHostWrite, overLink, carried, hostReaches, hostWritten, hw, hl, hm, hk, ho]

theorem memoryOnly_hostWritten (s : State) (pa : Nat) (bytes : List Byte) (key : Nat) :
    MemoryOnly s (hostWritten s pa bytes key) := (memoryOnly_clearPoisonFor ..).trans (memoryOnly_ownSetBytes ..)

theorem homeAs_clearPoisonFor (s : State) (bs : List StoreByte) : Claims.HomeAs (clearPoisonFor s bs) s := by
  unfold clearPoisonFor
  split <;> exact ⟨rfl, rfl, rfl⟩

theorem plainBelow_of_inv (hi : Machine.Inv s) (hc : Claims.PoolCache s) : PlainBelow s := ⟨hi.1, hc.pool⟩

/-- What a read under the writer's key finds after a host's write below the pool. -/
theorem homeByte_hostWritten {bytes : List Byte} {k : BitVec 512} (h : PlainBelow s) (hk : keyVal s key = some k)
    (hpa : pa + bytes.length ≤ poolBase) (p : Nat) : homeByte (hostWritten s pa bytes key) k p =
      if pa ≤ p ∧ p < pa + bytes.length then bytes.getD (p - pa) 0 else homeByte s k p := by
  have hs := homeAs_clearPoisonFor s (hostBytes pa bytes)
  have hkeys := (memoryOnly_clearPoisonFor s (hostBytes pa bytes)).keys
  obtain ⟨hmem, hmsc, _⟩ := id hs
  have h' : PlainBelow (clearPoisonFor s (hostBytes pa bytes)) :=
    ⟨by unfold MemWf; rw [hmem]; exact h.wf, by rw [hmsc]; exact h.pool⟩
  have hk' : keyOr (clearPoisonFor s (hostBytes pa bytes)) key = k := by
    unfold keyOr keyVal
    rw [hkeys]
    exact keyOr_of_keyVal hk
  have written := homeByte_ownSetBytes h' key 0 pa bytes hpa p
  rw [hk', homeByte_of_homeAs hs] at written
  exact written

end Memory

/-! ### Atomics (R370) -/

/-- The width of a host atomic in bytes. -/
def atomWidth (a : HostAtomic) : Nat := if a.wide then 8 else 4

/-- The bytes that a host atomic puts at its address under a key. -/
def atomBytes (s : State) (a : HostAtomic) (k : BitVec 512) : List Byte :=
  leBytes (atomWidth a) (atomStep a.op (atomWidth a) (ofBytes (homeBytes s k a.pa (atomWidth a)))
    (a.operand.toNat % 256 ^ atomWidth a))

theorem hostAtomic_memory {s : State} {a : HostAtomic} {k : BitVec 512} (ho : hitsOwned s a.pa (atomWidth a) = false)
    (hw : inWindow a.pa = false) (hl : linkUp s = true) (hm : inMemory s a.pa (atomWidth a) = true) (hk : keyVal s a.key = some k) :
    exec (.hostAtomic a) s = .next { ownSetBytes s a.key 0 a.pa (atomBytes s a k) with
      reply := some ⟨leBytes (atomWidth a) (ofBytes (homeBytes s k a.pa (atomWidth a))), false⟩ } := by
  unfold atomWidth at ho hm
  simp [exec_hostAtomic, execHostAtomic, overLink, carried, hostReaches, atomBytes, atomWidth, keyOr, hw, hl, hm, hk, ho]

/-! ### The window (R368, R377) -/

theorem windowReads_iff (s : State) : windowReads s = true ↔ linkUp s = true ∨ bringUpVia s ≠ none ∨ s.boot.dead = true := by
  simp [windowReads, windowUp, Option.isSome_iff_ne_none, or_assoc]

theorem inWindow_offset {off : Nat} (h : off < 2 ^ 48) : inWindow (windowBase + off) = true := by
  simp only [inWindow, Bool.and_eq_true, decide_eq_true_eq]
  omega

section Window

variable {s : State} {off : Nat} (key : Nat) (h : off < 2 ^ 48)
include h

theorem hostRead_window (n : Nat) (hr : windowReads s = true) : exec (.hostRead (windowBase + off) n key) s =
    .next { s with reply := some ⟨(List.range n).map (fun i => windowByte s (off + i)), false⟩ } := by
  simp [exec_hostRead, execHostRead, carried, inWindow_offset h, hr]

theorem hostRead_window_down (n : Nat) (hr : windowReads s = false) :
    exec (.hostRead (windowBase + off) n key) s = .next { s with reply := none } := by
  simp [exec_hostRead, execHostRead, carried, inWindow_offset h, hr]

theorem hostWrite_window_down (bytes : List Byte) (hl : linkUp s = false) (hb : bringUpVia s = none) :
    exec (.hostWrite (windowBase + off) bytes key) s = .next { s with reply := none } := by
  simp [exec_hostWrite, execHostWrite, carried, windowUp, inWindow_offset h, hl, hb]

end Window

/-! ### The doorbell of a command slot (R371) -/

/-- A doorbell that reaches a free slot in service is written there, and one of code 0 is answered. -/
theorem hostWrite_doorbell {s : State} (slot : Slot) {bytes : List Byte} (key : Nat) (hl : linkUp s = true)
    (hc : cmdCode s slot.val = 0) (hn : bytes.length = 8) :
    exec (.hostWrite (windowBase + 0x1000 + 64 * slot.val) bytes key) s =
      .next { answerCodeZero (writeSlot s slot.val 0 bytes) slot.val 0 8 with reply := some ⟨[], false⟩ } := by
  have hs : slot.val < 64 := slot.isLt
  have hin : inWindow (windowBase + (0x1000 + 64 * slot.val)) = true := inWindow_offset (by omega)
  have hoff : 0x1000 + 64 * slot.val - 0x1000 = 64 * slot.val := by omega
  have hpost : ¬ windowBase + (0x1000 + 64 * slot.val) = windowBase + 0x200 := by omega
  have hfree : slotBusy s (windowBase + (0x1000 + 64 * slot.val)) = false := by
    simp [slotBusy, hc]
  have hwrite : windowWrite s (0x1000 + 64 * slot.val) bytes = answerCodeZero (writeSlot s slot.val 0 bytes) slot.val 0 8 := by
    unfold windowWrite
    rw [if_pos ⟨by omega, by omega, Or.inl (linkUp_step hl)⟩, hn, show (0x1000 + 64 * slot.val) % 64 = 0 by omega]
    simp
  rw [Nat.add_assoc, exec_hostWrite, execHostWrite, if_pos hin, if_neg (fun e => hpost e.1), hfree, Nat.add_sub_cancel_left, hwrite]
  simp [carried, windowUp, hl]

theorem cmdCode_writeDoorbell {s : State} (slot : Nat) {bs : List Byte} (hw : mapWf 0 s.cmds = true) (hn : bs.length = 8) :
    cmdCode (writeSlot s slot 0 bs) slot = ofBytes bs % 256 := by
  rw [cmdCode, cmdNum_of_doorbell _ _ (by omega) (by omega), (cmdNum_writeDoorbell slot hw hn).1]
  simp

theorem cmdTag_writeDoorbell {s : State} (slot : Nat) {bs : List Byte} (hw : mapWf 0 s.cmds = true) (hn : bs.length = 8) :
    cmdTag (writeSlot s slot 0 bs) slot = BitVec.ofNat 16 (ofBytes bs / 2 ^ 16) := by
  rw [cmdTag, cmdNum_of_doorbell _ _ (by omega) (by omega), (cmdNum_writeDoorbell slot hw hn).1]
  exact BitVec.eq_of_toNat_eq (by simp)

theorem answerCodeZero_other {s : State} {slot : Nat} (h : cmdCode s slot ≠ 0) : answerCodeZero s slot 0 8 = s := by
  simp [answerCodeZero, h]

theorem answerCodeZero_zero {s : State} {slot : Nat} (h : cmdCode s slot = 0) :
    answerCodeZero s slot 0 8 = post s { notif 5 slot 0 0 with tag := cmdTag s slot, status := 2 } := by
  simp [answerCodeZero, commandDone, h]

theorem answerCodeZero_cmds (s : State) (slot at' n : Nat) : (answerCodeZero s slot at' n).cmds = s.cmds := by
  unfold answerCodeZero
  split
  · exact post_cmds _ _
  · rfl

theorem cmdNum_congr {s t : State} (h : t.cmds = s.cmds) (slot hi lo : Nat) : cmdNum t slot hi lo = cmdNum s slot hi lo := by
  unfold cmdNum
  rw [h]

theorem sameBytes_writeSlot (s : State) (slot at' : Nat) (bs : List Byte) : SameBytes s (writeSlot s slot at' bs) := by
  rw [writeSlot_frame]
  exact sameBytes_of_homeAs ⟨rfl, rfl, rfl⟩ rfl

theorem writeSlot_mcb (s : State) (slot at' : Nat) (bs : List Byte) : (writeSlot s slot at' bs).mcb = s.mcb := by
  rw [writeSlot_frame]

theorem writeSlot_held (s : State) (slot at' : Nat) (bs : List Byte) : (writeSlot s slot at' bs).held = s.held := by
  rw [writeSlot_frame]

/-! ### Writes of the control block -/

/-- Without the link no write of the control block and no launch post does anything (R4, R48, R377). -/
theorem mcbWrites_down {s : State} (hl : linkUp s = false) (v : Word) (base v' : DWord) (log : BitVec 8) (capw : BitVec 16)
    (mode : BitVec 5) (f : McbField) :
    ∀ i ∈ [Instr.nqheadWrite v, .nqConfigWrite base log, .capwWrite capw, .modeWrite mode, .mcbWrite f v', .launchPost base],
      exec i s = .next s := by
  intro i hi
  simp only [List.mem_cons, List.not_mem_nil, or_false] at hi
  rcases hi with rfl | rfl | rfl | rfl | rfl | rfl
  · rw [exec_nqheadWrite, inService_down hl]
  · rw [exec_nqConfigWrite, inService_down hl]
  · rw [exec_capwWrite, inService_down hl]
  · rw [exec_modeWrite, inService_down hl]
  · rw [exec_mcbWrite, inService_down hl]
  · exact launchPost_down s base hl

end Sys2Proof.Machine

namespace Sys2Proof.Proofs

open Sys2Proof.Machine Sys2Proof.Claims

theorem hostWrite_ends {s : State} {pa : Nat} {bytes : List Byte} {key : Nat} {k : BitVec 512} (hw : inWindow pa = false)
    (hl : linkUp s = true) (hm : inMemory s pa bytes.length = true) (hk : keyVal s key = some k)
    (ho : hitsOwned s pa bytes.length = false) :
    Ends (.hostWrite pa bytes key) s (fun t => t.reply = some ⟨[], false⟩ ∧ t.groups = s.groups ∧ t.wgs = s.wgs ∧
      (Machine.Inv s → PoolCache s → pa + bytes.length ≤ poolBase →
        (∀ i < bytes.length, homeByte t k (pa + i) = bytes.getD i 0) ∧
        ∀ p, (p < pa ∨ pa + bytes.length ≤ p) → homeByte t k p = homeByte s k p)) := by
  have frame := memoryOnly_hostWritten s pa bytes key
  refine ⟨_, hostWrite_memory hw hl hm hk ho, rfl, frame.groups, frame.wgs, fun hi hc hpa => ?_⟩
  have reads (p : Nat) := homeByte_hostWritten (plainBelow_of_inv hi hc) hk hpa p
  refine ⟨fun i hlt => ?_, fun p hp => ?_⟩
  · refine (reads (pa + i)).trans ?_
    rw [if_pos (by omega), Nat.add_sub_cancel_left]
  · exact (reads p).trans (if_neg (by omega))

theorem hostAtomic_ends {s : State} {a : HostAtomic} {k : BitVec 512} (ho : hitsOwned s a.pa (atomWidth a) = false)
    (hw : inWindow a.pa = false) (hl : linkUp s = true) (hm : inMemory s a.pa (atomWidth a) = true) (hk : keyVal s a.key = some k) :
    Ends (.hostAtomic a) s (fun t =>
      t.reply = some ⟨leBytes (atomWidth a) (ofBytes (homeBytes s k a.pa (atomWidth a))), false⟩ ∧
      (Machine.Inv s → PoolCache s → a.pa + atomWidth a ≤ poolBase → homeBytes t k a.pa (atomWidth a) = atomBytes s a k ∧
        ∀ p, (p < a.pa ∨ a.pa + atomWidth a ≤ p) → homeByte t k p = homeByte s k p)) := by
  refine ⟨_, hostAtomic_memory ho hw hl hm hk, rfl, fun hi hc hpa => ?_⟩
  have hn : (atomBytes s a k).length = atomWidth a := leBytes_length ..
  have hbelow := plainBelow_of_inv hi hc
  have bytes := homeBytes_ownSetBytes hbelow a.key 0 a.pa (atomBytes s a k) (hn.symm ▸ hpa)
  have reads := homeByte_ownSetBytes hbelow a.key 0 a.pa (atomBytes s a k) (hn.symm ▸ hpa)
  rw [keyOr_of_keyVal hk, hn] at bytes reads
  exact ⟨bytes, fun p hp => (reads p).trans (if_neg (by omega))⟩

/-- What a doorbell of a free slot leaves: the slot's command, and where its code is 0 the answer with STATUS 2. -/
theorem doorbell_ends {s : State} (slot : Slot) {bytes : List Byte} (key : Nat) (hl : linkUp s = true)
    (hc : cmdCode s slot.val = 0) (hw : mapWf 0 s.cmds = true) (hn : bytes.length = 8) :
    Ends (.hostWrite (windowBase + 0x1000 + 64 * slot.val) bytes key) s (fun t =>
      cmdNum t slot.val 63 0 = ofBytes bytes ∧ cmdNum t slot.val 511 64 = cmdNum s slot.val 511 64 ∧
      (ofBytes bytes % 256 ≠ 0 → SameBytes s t ∧ t.mcb = s.mcb) ∧
      (ofBytes bytes % 256 = 0 → ∃ u, SameBytes s u ∧ u.mcb = s.mcb ∧ u.held = s.held ∧
        t = { post u { notif 5 slot.val 0 0 with tag := BitVec.ofNat 16 (ofBytes bytes / 2 ^ 16), status := 2 } with
          reply := some ⟨[], false⟩ })) := by
  obtain ⟨hbell, hargs⟩ := cmdNum_writeDoorbell slot.val hw hn
  have hcode := cmdCode_writeDoorbell slot.val hw hn
  have hcmds := answerCodeZero_cmds (writeSlot s slot.val 0 bytes) slot.val 0 8
  refine ⟨_, hostWrite_doorbell slot key hl hc hn, (cmdNum_congr hcmds ..).trans hbell, (cmdNum_congr hcmds ..).trans hargs,
    fun hne => ?_, fun hz => ?_⟩
  · rw [answerCodeZero_other (hcode ▸ hne)]
    exact ⟨sameBytes_writeSlot s slot.val 0 bytes, writeSlot_mcb ..⟩
  · refine ⟨writeSlot s slot.val 0 bytes, sameBytes_writeSlot .., writeSlot_mcb .., writeSlot_held .., ?_⟩
    rw [answerCodeZero_zero (hcode.trans hz), cmdTag_writeDoorbell slot.val hw hn]

/-- Settles O50: each access by the lemma about its event, writes of memory by what they leave at the home under the writer's key. -/
theorem hostAccesses : Obligations.HostAccesses := by
  unfold Obligations.HostAccesses
  refine ⟨fun s pa n key hw hl => ⟨hostRead_down n hw hl, fun bytes => hostWrite_down bytes hw hl⟩,
    fun s pa n key hw hl hm => ⟨fun k hk => hostRead_memory hw hl hm hk, fun hk => ⟨hostRead_keyless n hw hl hk,
      fun bytes => hostWrite_keyless bytes hw hl hk⟩⟩,
    fun s off n key hoff hn => ?window, windowReads_iff,
    fun s pa bytes key k hw hl hm hk ho => hostWrite_ends hw hl hm hk ho,
    fun s slot bytes key hl hc hw hn => doorbell_ends slot key hl hc hw hn,
    fun s a k ho hw hl hm hk => hostAtomic_ends ho hw hl hm hk,
    fun s v base v' log capw mode f hl => mcbWrites_down hl v base v' log capw mode f,
    fun s v hl => ?nqhead, fun s base log hl => ?nqConfig, fun s v hl => ?capw, fun s v hl => ?mode,
    fun s v hl hq hr => ?fields⟩
  case window =>
    have h : off < 2 ^ 48 := by omega
    exact ⟨hostRead_window key h n, hostRead_window_down key h n, fun hl hb bytes => hostWrite_window_down key h bytes hl hb⟩
  case nqhead =>
    exact ⟨_, (exec_nqheadWrite s v).trans (inService_up hl _), setNqhead_nqhead s v, fun hh => drainHeld_of_none hh⟩
  case nqConfig =>
    have run := (exec_nqConfigWrite s base log).trans (inService_up hl _)
    exact ⟨fun hf hp hm => ⟨_, run, setNq_fits _ ⟨hf, hp, hm⟩⟩, fun h => by rw [run, setNq_dropped _ h]⟩
  case capw => exact (exec_capwWrite s v).trans (inService_up hl _)
  case mode =>
    have run := (exec_modeWrite s v).trans (inService_up hl _)
    exact ⟨fun h => by rw [run, setMode, if_pos ((idle_iff s).mpr h)],
      fun h => by rw [run, setMode, if_neg (mt (idle_iff s).mp h)]⟩
  case fields =>
    have hi : idle s = true := (idle_iff s).mpr ⟨hq, hr⟩
    have run (f : McbField) := (exec_mcbWrite s f v).trans (inService_up hl _)
    refine ⟨fun h1 h9 => ?_, ?_, fun ha hm => ?_, fun ha hm => ?_⟩
    · rw [run, setField, if_pos ⟨h1, h9⟩]
    · rw [run, setField, if_pos hi]
    · rw [run, setField, if_pos (by simp [hi, ha, hm])]
    · rw [run, setField, if_pos (by simp [hi, ha, hm])]

end Sys2Proof.Proofs

/-! SUPPORT. The decoder reads back what the encoder writes: fields of words, codes, operands, and the words of a row of the
opcode table (R12–R25, R32–R42). -/

namespace Sys2Proof

set_option Elab.async false

/-! ## Fields of words -/

theorem noInstr_lrWord {op d a b : Nat} (hop : op < 128) (hd : d < 256) (ha : a < 256) (hb : b < 256) :
    noInstr (lrWord op d a b) = reservedL op := by
  have top : lrWord op d a b / 2147483648 % 2 = 0 := by unfold lrWord; omega
  have opc : lrWord op d a b / 16777216 % 128 = op := by unfold lrWord; omega
  have ones : (lrWord op d a b == 0xFFFFFFFF) = false := by simp only [beq_eq_false_iff_ne]; unfold lrWord; omega
  unfold noInstr
  rw [top, opc, ones, if_pos rfl]
  by_cases h0 : op = 0
  · subst h0; simp [reservedL]
  · have : (lrWord op d a b == 0) = false := by simp only [beq_eq_false_iff_ne]; unfold lrWord; omega
    simp [this]

theorem noInstr_urWord {op sd sb x : Nat} (hop : op < 127) (hd : sd < 512) (hb : sb < 512) (hx : x < 64) :
    noInstr (urWord op sd sb x) = reservedU op := by
  have top : urWord op sd sb x / 2147483648 % 2 = 1 := by unfold urWord; omega
  have opc : urWord op sd sb x / 16777216 % 128 = op := by unfold urWord; omega
  have zero : (urWord op sd sb x == 0) = false := by simp only [beq_eq_false_iff_ne]; unfold urWord; omega
  have ones : (urWord op sd sb x == 0xFFFFFFFF) = false := by simp only [beq_eq_false_iff_ne]; unfold urWord; omega
  unfold noInstr
  rw [top, opc, zero, ones]
  rfl

/-- The fields of an L-set word (R16). -/
structure LFields (w op d a b : Nat) : Prop where
  set : fld w 31 31 = 0
  op : fld w 30 24 = op
  d : fld w 23 16 = d
  a : fld w 15 8 = a
  b : fld w 7 0 = b

/-- The fields of a U-set word (R25). -/
structure UFields (w op sd sb x : Nat) : Prop where
  set : fld w 31 31 = 1
  op : fld w 30 24 = op
  sd : fld w 23 15 = sd
  sb : fld w 14 6 = sb
  x : fld w 5 0 = x

theorem lFields_lrWord {op d a b : Nat} (hop : op < 128) (hd : d < 256) (ha : a < 256) (hb : b < 256) :
    LFields (lrWord op d a b) op d a b := by
  constructor <;> (simp only [fld, lrWord]; omega)

theorem uFields_urWord {op sd sb x : Nat} (hop : op < 128) (hd : sd < 512) (hb : sb < 512) (hx : x < 64) :
    UFields (urWord op sd sb x) op sd sb x := by
  constructor <;> (simp only [fld, urWord]; omega)

/-- A displacement in the place of A and B (R16). -/
theorem lbWord_eq (op d disp : Nat) : lbWord op d disp = lrWord op d (disp / 256) (disp % 256) := by
  unfold lbWord lrWord; omega

/-- An immediate in the place of sb and X (R25). -/
theorem uiWord_eq (op sd imm : Nat) : uiWord op sd imm = urWord op sd (imm / 64) (imm % 64) := by
  unfold uiWord urWord; omega

theorem uwWord_eq (op nld nst ncp ntl : Nat) : uwWord op nld nst ncp ntl =
    urWord op (8 * nld + nst / 8) (64 * (nst % 8) + ncp) ntl := by
  unfold uwWord urWord; omega

/-! ## Codes -/

section Codes

@[simp] theorem vregOf_val (r : VReg) : vregOf r.val = some r := dif_pos r.isLt

@[simp] theorem sregOf_val (r : SReg) : sregOf r.val = some r := dif_pos r.isLt

@[simp] theorem finOf_val {n : Nat} (c : Fin n) : finOf n c.val = some c := dif_pos c.isLt

@[simp] theorem lowFin_val {n : Nat} (c : Fin n) (h : 0 < n) : lowFin n c.val h = c :=
  Fin.ext (Nat.mod_eq_of_lt c.isLt)

@[simp] theorem scopeOf_code (c : Scope) : scopeOf c.code = some c := by cases c <;> rfl
@[simp] theorem widthOf_code (c : Width) : widthOf c.code = some c := by cases c <;> rfl
@[simp] theorem rndOf_code (c : Rnd) : rndOf c.code = some c := by cases c <;> rfl
@[simp] theorem iunyOf_code (c : IunyOp) : iunyOf c.code = some c := by cases c <;> rfl
@[simp] theorem funyOf_code (c : FunyOp) : funyOf c.code = some c := by cases c <;> rfl
@[simp] theorem pairOf_code (c : FcvtPair) : pairOf c.code = c := by cases c <;> rfl
@[simp] theorem icondOf_code (c : ICond) : icondOf c.code = some c := by cases c <;> rfl
@[simp] theorem fcondOf_code (c : FCond) : fcondOf c.code = some c := by cases c <;> rfl
@[simp] theorem redOf_code (c : RedOp) : redOf c.code = some c := by cases c <;> rfl
@[simp] theorem mskOf_code (c : MskOp) : mskOf c.code = some c := by cases c <;> rfl
@[simp] theorem atomOf_code (c : AtomOp) : atomOf c.code = some c := by cases c <;> rfl
@[simp] theorem btModeOf_code (c : BtMode) : btModeOf c.code = some c := by cases c <;> rfl

@[simp] theorem bsrcOf_code (c : BSrc) : bsrcOf c.code = some c := by
  cases c with
  | slot n => simp [bsrcOf, BSrc.code]
  | reg r =>
    have hr := r.isLt
    simp [bsrcOf, BSrc.code, show 256 + r.val < 448 by omega]
  | gen g =>
    have hg := g.isLt
    simp [bsrcOf, BSrc.code, show ¬ 448 + g.val < 256 by omega, show 448 + g.val < 456 by omega]

theorem Scope.code_lt (c : Scope) : c.code < 6 := by cases c <;> decide
theorem Width.code_lt (c : Width) : c.code < 3 := by cases c <;> decide
theorem Rnd.code_lt (c : Rnd) : c.code < 5 := by cases c <;> decide
theorem IunyOp.code_lt (c : IunyOp) : c.code < 256 := by cases c <;> decide
theorem FunyOp.code_lt (c : FunyOp) : c.code < 256 := by cases c <;> decide
theorem FcvtPair.code_lt (c : FcvtPair) : c.code < 16 := by cases c <;> decide
theorem ICond.code_lt (c : ICond) : c.code < 16 := by cases c <;> decide
theorem FCond.code_lt (c : FCond) : c.code < 16 := by cases c <;> decide
theorem RedOp.code_lt (c : RedOp) : c.code < 128 := by cases c <;> decide
theorem MskOp.code_lt (c : MskOp) : c.code < 256 := by cases c <;> decide
theorem AtomOp.code_lt (c : AtomOp) : c.code < 13 := by cases c <;> decide
theorem BtMode.code_lt (c : BtMode) : c.code < 3 := by cases c <;> decide
theorem bitOf_lt (b : Bool) : bitOf b < 2 := by cases b <;> decide
theorem menBits_lt (m : Option MReg) : menBits m < 32 := by
  cases m with
  | none => decide
  | some m => have := m.isLt; simp only [menBits]; omega
theorem BSrc.code_lt (c : BSrc) : c.code < 456 := by
  cases c <;> simp only [BSrc.code] <;> omega

@[simp] theorem bitOf_beq_one (b : Bool) : (bitOf b == 1) = b := by cases b <;> rfl

/-- The bits of H and W give the slot and width, or the register, back (R16, R19). -/
theorem hselOf_bits {h : HSel} {x y : Nat} (hx : x = h.bits / 4) (hy : y = h.bits % 4) : hselOf x y = h := by
  subst hx hy
  cases h with
  | slot s w =>
    have hw := w.code_lt
    have e1 : (4 * s.val + w.code) / 4 = s.val := by omega
    have e2 : (4 * s.val + w.code) % 4 = w.code := by omega
    simp [hselOf, HSel.bits, e1, e2]
  | reg r =>
    have e1 : (4 * r.val + 3) / 4 = r.val := by omega
    have e2 : (4 * r.val + 3) % 4 = 3 := by omega
    simp [hselOf, HSel.bits, e1, e2, widthOf]

theorem HSel.bits_lt (h : HSel) : h.bits < 256 := by
  cases h with
  | slot s w => have := w.code_lt; simp only [HSel.bits]; omega
  | reg r => simp only [HSel.bits]; omega

end Codes

/-! ## Operands -/

/-- Every literal that an operand asks for is the literal word of the instruction (R13). -/
def Carried (lit : Nat) (ws : List Word) : Prop := ∀ w ∈ ws, w.toNat = lit

@[simp] theorem carried_append {lit : Nat} {u v : List Word} : Carried lit (u ++ v) ↔ Carried lit u ∧ Carried lit v :=
  List.forall_mem_append

theorem not_isEmpty_append {α : Type} (u v : List α) : (!(u ++ v).isEmpty) = (!u.isEmpty || !v.isEmpty) := by
  cases u <;> simp

theorem VReg.lt_256 (r : VReg) : r.val < 256 := by omega

theorem MReg.lt_256 (m : MReg) : m.val < 256 := by omega

theorem LSrc.code_lt (a : LSrc) : a.code < 256 := by cases a <;> simp only [LSrc.code] <;> omega

theorem USrc.code_lt (a : USrc) : a.code < 512 := by cases a <;> simp only [USrc.code] <;> omega

/-- Only the literal operand has the literal code (R13, R21). -/
@[simp] theorem LSrc.code_beq (a : LSrc) : (a.code == 255) = !a.lits.isEmpty := by
  cases a <;> simp [LSrc.code, LSrc.lits] <;> omega

@[simp] theorem USrc.code_beq (a : USrc) : (a.code == 511) = !a.lits.isEmpty := by
  cases a <;> simp [USrc.code, USrc.lits] <;> omega

@[simp] theorem vreg_beq (r : VReg) : (r.val == 255) = false := by simp; omega

@[simp] theorem sreg_beq (r : SReg) : (r.val == 511) = false := by simp; omega

theorem lsrcFp_code {a : LSrc} {lit : Nat} (h : Carried lit a.lits) : lsrcFp lit a.code = some a := by
  cases a with
  | v r => simp [lsrcFp, LSrc.code]
  | s r =>
    have := r.isLt
    simp [lsrcFp, LSrc.code, show 192 + r.val < 224 by omega]
  | ds r =>
    have := r.isLt
    simp [lsrcFp, LSrc.code, show ¬ 224 + r.val < 192 by omega, show 224 + r.val < 240 by omega]
  | lit w => rw [← h w (List.mem_singleton_self w)]; simp [lsrcFp, LSrc.code]
  | zero | one | negOne | two | half | lane | octet | width => rfl

theorem lsrcInt_code {a : LSrc} {lit : Nat} (hi : a.intOk = true) (h : Carried lit a.lits) : lsrcInt lit a.code = some a := by
  have ne : a.code ≠ 244 := by
    cases a with
    | half => cases hi
    | _ => simp only [LSrc.code]; omega
  rw [lsrcInt, if_neg ne, lsrcFp_code h]

theorem usrcOf_code {a : USrc} {lit : Nat} (h : Carried lit a.lits) : usrcOf lit a.code = some a := by
  cases a with
  | s r => simp [usrcOf, USrc.code]
  | imm c =>
    have := c.isLt
    simp [usrcOf, USrc.code, show 384 + c.val < 448 by omega]
  | lit w => rw [← h w (List.mem_singleton_self w)]; simp [usrcOf, USrc.code]

/-- A source in a position that is floating-point or integer. -/
theorem lsrc_code {fp : Bool} {a : LSrc} {lit : Nat} (h : (fp || a.intOk) = true) (hl : Carried lit a.lits) :
    (if fp = true then lsrcFp lit a.code else lsrcInt lit a.code) = some a := by
  cases fp with
  | true => exact lsrcFp_code hl
  | false => exact lsrcInt_code h hl

theorem vregOf_code {a : LSrc} (h : a.isVec = true) : (vregOf a.code).map LSrc.v = some a := by
  cases a with
  | v r => simp [LSrc.code]
  | _ => cases h

theorem LSrc.isVec_of_vecMul {a : LSrc} {n : Nat} (h : a.vecMul n = true) : a.isVec = true := by
  cases a with
  | v r => rfl
  | _ => cases h

/-- A source that must be a vector register in the forms with more than one element. -/
theorem lsrcOrVec_code {n : Nat} {a : LSrc} {lit : Nat} (h : (if n = 0 then a.intOk else a.isVec) = true)
    (hl : Carried lit a.lits) : (if n = 0 then lsrcInt lit a.code else (vregOf a.code).map LSrc.v) = some a := by
  split
  · next hn => rw [if_pos hn] at h; exact lsrcInt_code h hl
  · next hn => rw [if_neg hn] at h; exact vregOf_code h

/-! ## The steps of the decoder that pass -/

section Steps

variable {α β : Type} (x : α)

@[simp] theorem step4_some : step4 (some x) = .ok x := rfl
@[simp] theorem step7a_some : step7a (some x) = .ok x := rfl
@[simp] theorem step5_true : step5 true = .ok () := rfl
@[simp] theorem step6_true : step6 true = .ok () := rfl
@[simp] theorem step7b_true : step7b true = .ok () := rfl
@[simp] theorem needThat_true (e : DecodeTrap) : needThat true e = .ok () := rfl
@[simp] theorem decode_ok_bind (f : α → Except DecodeTrap β) : (Except.ok x >>= f) = f x := rfl
@[simp] theorem decode_map_ok (f : α → β) : (f <$> (Except.ok x : Except DecodeTrap α)) = .ok (f x) := rfl

end Steps

/-! ## The words of an instruction -/

/-- Only an E-form has a command word (R12). -/
theorem commandWord_of_not_eform {i : Instr} (h : i.eform = false) : commandWord i = 0 := by
  unfold commandWord
  split
  case h_26 => rfl
  all_goals exact Bool.noConfusion h

/-- What an instruction's words decode to: its base word, command word and literal word, each where it is looked for (R12). -/
theorem decodeWords_encode {i : Instr} (h0 : noInstr (baseWord i) = false) (hc : hasCommand (baseWord i) = i.eform)
    (hl : hasLiteral (baseWord i) (commandWord i) = !i.lits.isEmpty) :
    decodeWords (encode i) = decode (baseWord i) (commandWord i) (literalWord i) := by
  have e0 : i.eform = false → commandWord i = 0 := commandWord_of_not_eform
  unfold decodeWords encode
  simp only [List.headD_cons, hc, List.drop_succ_cons, List.drop_zero]
  cases he : i.eform with
  | true =>
    cases hn : i.lits with
    | nil => simp [hl, hn, literalWord]
    | cons w ws => simp [hl, hn, wordCount, h0, hc, he]
  | false =>
    rw [e0 he] at hl ⊢
    cases hn : i.lits with
    | nil => simp [hl, hn, literalWord]
    | cons w ws => simp [hl, hn, wordCount, h0, hc, he]

/-- All literals of a well-formed instruction are its literal word (R13). -/
theorem carried_literalWord {i : Instr} (h : oneLiteral i.lits = true) : Carried (literalWord i) i.lits := by
  unfold literalWord
  intro w hw
  cases hn : i.lits with
  | nil => rw [hn] at hw; cases hw
  | cons v vs =>
    rw [hn] at h hw
    rcases List.mem_cons.mp hw with rfl | hm
    · rfl
    · exact congrArg BitVec.toNat (beq_iff_eq.mp (List.all_eq_true.mp h w hm))

/-- The words of a well-formed instruction decode to it (R12–R24). -/
def RoundTrips (i : Instr) : Prop := i.wellFormed = true → decodeWords (encode i) = .ok i

theorem roundTrips_of_decode {i : Instr} (h0 : noInstr (baseWord i) = false) (hc : hasCommand (baseWord i) = i.eform)
    (hl : i.shapeOk = true → hasLiteral (baseWord i) (commandWord i) = !i.lits.isEmpty)
    (hd : i.shapeOk = true → ∀ lit, Carried lit i.lits → decode (baseWord i) (commandWord i) lit = .ok i) : RoundTrips i := by
  intro h
  obtain ⟨shape, one⟩ := Bool.and_eq_true_iff.mp h
  exact (decodeWords_encode h0 hc (hl shape)).trans (hd shape _ (carried_literalWord one))

/-- A row of the L-set: the opcode has a format, which says where its literal may stand, and the decoder reads the fields back. -/
theorem roundTrips_of_l {i : Instr} (op : Nat) {d a b : Nat} (hw : baseWord i = lrWord op d a b)
    (hd : d < 256) (ha : a < 256) (hb : b < 256)
    (dec : i.shapeOk = true → ∀ w lit, LFields w op d a b → Carried lit i.lits → decodeL w (commandWord i) lit = .ok i)
    (hn : reservedL op = false := by rfl)
    (he : eformOp false op = i.eform := by rfl) (hop : op < 128 := by decide)
    (hl : ((lOperandFields op).1 && d == 255 || (lOperandFields op).2.1 && a == 255 || (lOperandFields op).2.2 && b == 255)
      = !i.lits.isEmpty := by simp [lOperandFields, Instr.lits, not_isEmpty_append]) : RoundTrips i := by
  have f := lFields_lrWord hop hd ha hb
  have h0 : noInstr (lrWord op d a b) = false := (noInstr_lrWord hop hd ha hb).trans hn
  have hc : hasCommand (lrWord op d a b) = i.eform := by simp [hasCommand, h0, f.set, f.op, he]
  refine roundTrips_of_decode (hw ▸ h0) (hw ▸ hc) (fun _ => ?_) (fun ok lit hlit => ?_)
  · rw [hw, hasLiteral, if_pos f.set, f.op, f.d, f.a, f.b]
    exact hl
  · rw [hw, decode, h0, if_neg (by simp), if_pos f.set]
    exact dec ok _ lit f hlit

/-- A row of the U-set. -/
theorem roundTrips_of_u {i : Instr} (op : Nat) {sd sb x : Nat} (hw : baseWord i = urWord op sd sb x)
    (hd : sd < 512) (hb : sb < 512) (hx : x < 64)
    (dec : i.shapeOk = true → ∀ w lit, UFields w op sd sb x → Carried lit i.lits → decodeU w (commandWord i) lit = .ok i)
    (hn : reservedU op = false := by rfl)
    (he : eformOp true op = i.eform := by rfl) (hop : op < 127 := by decide)
    (hl : i.shapeOk = true →
      ((uOperandFields op x (commandWord i)).1 && sd == 511 || (uOperandFields op x (commandWord i)).2 && sb == 511)
      = !i.lits.isEmpty := by
        intro _; simp [uOperandFields, Instr.lits, not_isEmpty_append]) : RoundTrips i := by
  have f := uFields_urWord (by omega : op < 128) hd hb hx
  have h0 : noInstr (urWord op sd sb x) = false := (noInstr_urWord hop hd hb hx).trans hn
  have hc : hasCommand (urWord op sd sb x) = i.eform := by simp [hasCommand, h0, f.set, f.op, he]
  have hs : ¬ fld (urWord op sd sb x) 31 31 = 0 := by rw [f.set]; decide
  refine roundTrips_of_decode (hw ▸ h0) (hw ▸ hc) (fun ok => ?_) (fun ok lit hlit => ?_)
  · rw [hw, hasLiteral, if_neg hs, f.op, f.sd, f.sb, f.x]
    exact hl ok
  · rw [hw, decode, h0, if_neg (by simp), if_neg hs]
    exact dec ok _ lit f hlit

/-! ## Rows of the L-set: arithmetic, moves and streams -/

section LRows

variable {d : VReg} {a b : LSrc}

/-- D, A and B are operands, A and B in integer positions. -/
theorem roundTrips_int2 (mk : VReg → LSrc → LSrc → Instr) (op : Nat)
    (hw : baseWord (mk d a b) = lrWord op d.val a.code b.code := by rfl)
    (hlits : (mk d a b).lits = a.lits ++ b.lits := by rfl) (hs : (mk d a b).shapeOk = (a.intOk && b.intOk) := by rfl)
    (hn : reservedL op = false := by rfl) (he : eformOp false op = (mk d a b).eform := by rfl)
    (hf : lOperandFields op = (true, true, true) := by rfl) (hop : op < 128 := by decide)
    (dec : ∀ w cmd lit, fld w 30 24 = op → decodeL w cmd lit = decInt2 mk w lit := by
      intro w cmd lit h; simp only [decodeL, decodeArith, decodeMove, h]; rfl) : RoundTrips (mk d a b) := by
  refine roundTrips_of_l op hw d.lt_256 a.code_lt b.code_lt (fun ok w lit f hl => ?_) hn he hop
    (by simp [hf, hlits, not_isEmpty_append])
  rw [hs, Bool.and_eq_true] at ok
  rw [hlits, carried_append] at hl
  simp [dec w _ lit f.op, decInt2, f.d, f.a, f.b, lsrcInt_code ok.1 hl.1, lsrcInt_code ok.2 hl.2]

/-- D, A and B are operands, A and B in floating-point positions. -/
theorem roundTrips_fp2 (mk : VReg → LSrc → LSrc → Instr) (op : Nat)
    (hw : baseWord (mk d a b) = lrWord op d.val a.code b.code := by rfl)
    (hlits : (mk d a b).lits = a.lits ++ b.lits := by rfl)
    (hn : reservedL op = false := by rfl) (he : eformOp false op = (mk d a b).eform := by rfl)
    (hf : lOperandFields op = (true, true, true) := by rfl) (hop : op < 128 := by decide)
    (dec : ∀ w cmd lit, fld w 30 24 = op → decodeL w cmd lit = decFp2 mk w lit := by
      intro w cmd lit h; simp only [decodeL, decodeArith, h]; rfl) : RoundTrips (mk d a b) := by
  refine roundTrips_of_l op hw d.lt_256 a.code_lt b.code_lt (fun _ w lit f hl => ?_) hn he hop
    (by simp [hf, hlits, not_isEmpty_append])
  rw [hlits, carried_append] at hl
  simp [dec w _ lit f.op, decFp2, f.d, f.a, f.b, lsrcFp_code hl.1, lsrcFp_code hl.2]

/-- D and A are operands, A in an integer position; B is zero. -/
theorem roundTrips_int1 (mk : VReg → LSrc → Instr) (op : Nat)
    (hw : baseWord (mk d a) = lrWord op d.val a.code 0 := by rfl)
    (hlits : (mk d a).lits = a.lits := by rfl) (hs : (mk d a).shapeOk = a.intOk := by rfl)
    (hn : reservedL op = false := by rfl) (he : eformOp false op = (mk d a).eform := by rfl)
    (hf : lOperandFields op = (true, true, false) := by rfl) (hop : op < 128 := by decide)
    (dec : ∀ w cmd lit, fld w 30 24 = op → decodeL w cmd lit = decInt1 mk (fld w 7 0 == 0) w lit := by
      intro w cmd lit h; simp only [decodeL, decodeMove, h]; rfl) : RoundTrips (mk d a) := by
  refine roundTrips_of_l op hw d.lt_256 a.code_lt (by decide) (fun ok w lit f hl => ?_) hn he hop (by simp [hf, hlits])
  rw [hs] at ok
  rw [hlits] at hl
  simp [dec w _ lit f.op, decInt1, f.d, f.a, f.b, lsrcInt_code ok hl]

end LRows

section Arith

variable (d : VReg) (a b : LSrc)

theorem roundTrips_iuny (op) : RoundTrips (.iuny op d a) := by
  refine roundTrips_of_l 0x0F rfl d.lt_256 a.code_lt op.code_lt (fun ok w lit f hl => ?_)
  simp [decodeL, decodeArith, f.op, f.d, f.a, f.b, lsrcInt_code ok hl]

theorem roundTrips_iset (c m) : RoundTrips (.iset c m a b) := by
  have hc := c.code_lt
  refine roundTrips_of_l 0x10 rfl (by omega) a.code_lt b.code_lt (fun ok w lit f hl => ?_)
  have e1 : fld w 23 20 = c.code := by have := f.d; simp only [fld] at *; omega
  have e2 : fld w 19 16 = m.val := by have := f.d; simp only [fld] at *; omega
  obtain ⟨ha, hb⟩ := carried_append.mp hl
  obtain ⟨ia, ib⟩ := Bool.and_eq_true_iff.mp ok
  simp [decodeL, decodeArith, f.op, e1, e2, f.a, f.b, lsrcInt_code ia ha, lsrcInt_code ib hb]

theorem roundTrips_fset (c m) : RoundTrips (.fset c m a b) := by
  have hc := c.code_lt
  refine roundTrips_of_l 0x17 rfl (by omega) a.code_lt b.code_lt (fun ok w lit f hl => ?_)
  have e1 : fld w 23 20 = c.code := by have := f.d; simp only [fld] at *; omega
  have e2 : fld w 19 16 = m.val := by have := f.d; simp only [fld] at *; omega
  obtain ⟨ha, hb⟩ := carried_append.mp hl
  simp [decodeL, decodeArith, f.op, e1, e2, f.a, f.b, lsrcFp_code ha, lsrcFp_code hb]

theorem roundTrips_funy (op) : RoundTrips (.funy op d a) := by
  refine roundTrips_of_l 0x18 rfl d.lt_256 a.code_lt op.code_lt (fun _ w lit f hl => ?_)
  simp [decodeL, decodeArith, f.op, f.d, f.a, f.b, lsrcFp_code hl]

theorem roundTrips_fcvt (p r sat) : RoundTrips (.fcvt p r sat d a) := by
  have hp := p.code_lt
  have hr := r.code_lt
  have hs := bitOf_lt sat
  refine roundTrips_of_l 0x19 rfl d.lt_256 a.code_lt (by omega) (fun ok w lit f hl => ?_)
  have e1 : fld w 7 4 = p.code := by have := f.b; simp only [fld] at *; omega
  have e2 : fld w 3 1 = r.code := by have := f.b; simp only [fld] at *; omega
  have e3 : fld w 0 0 = bitOf sat := by have := f.b; simp only [fld] at *; omega
  obtain ⟨pos, exact⟩ := Bool.and_eq_true_iff.mp ok
  simp [decodeL, decodeArith, f.op, f.d, f.a, e1, e2, e3, exact, lsrc_code pos hl]

end Arith

section Move

variable (d : VReg) (a b : LSrc)

theorem roundTrips_cmov (m) : RoundTrips (.cmov d a m) := by
  refine roundTrips_of_l 0x21 rfl d.lt_256 a.code_lt m.lt_256 (fun ok w lit f hl => ?_)
  have e1 : fld w 7 4 = 0 := by have := f.b; simp only [fld] at *; omega
  have e2 : fld w 3 0 = m.val := by have := f.b; simp only [fld] at *; omega
  simp [decodeL, decodeMove, decInt1, f.op, f.d, f.a, e1, e2, lsrcInt_code ok hl]

theorem roundTrips_cmpct (m) : RoundTrips (.cmpct d a m) := by
  refine roundTrips_of_l 0x27 rfl d.lt_256 a.code_lt m.lt_256 (fun ok w lit f hl => ?_)
  have e1 : fld w 7 4 = 0 := by have := f.b; simp only [fld] at *; omega
  have e2 : fld w 3 0 = m.val := by have := f.b; simp only [fld] at *; omega
  simp [decodeL, decodeMove, decInt1, f.op, f.d, f.a, e1, e2, lsrcInt_code ok hl]

theorem roundTrips_lred (op) : RoundTrips (.lred op d a) := by
  have ho := op.code_lt
  refine roundTrips_of_l 0x24 rfl d.lt_256 a.code_lt (by omega) (fun ok w lit f hl => ?_)
  have e1 : fld w 6 0 = op.code := by have := f.b; simp only [fld] at *; omega
  have e2 : fld w 7 7 = 0 := by have := f.b; simp only [fld] at *; omega
  simp [decodeL, decodeMove, f.op, f.d, f.a, e1, e2, lsrc_code ok hl]

theorem roundTrips_lscan (excl op) : RoundTrips (.lscan excl op d a) := by
  have ho := op.code_lt
  have he := bitOf_lt excl
  refine roundTrips_of_l 0x25 rfl d.lt_256 a.code_lt (by omega) (fun ok w lit f hl => ?_)
  have e1 : fld w 6 0 = op.code := by have := f.b; simp only [fld] at *; omega
  have e2 : fld w 7 7 = bitOf excl := by have := f.b; simp only [fld] at *; omega
  simp [decodeL, decodeMove, f.op, f.d, f.a, e1, e2, lsrc_code ok hl]

theorem roundTrips_mskop (op m p q) : RoundTrips (.mskop op m p q) := by
  refine roundTrips_of_l 0x29 rfl m.lt_256 (by omega) op.code_lt (fun ok w lit f _ => ?_)
  have e1 : fld w 23 20 = 0 := by have := f.d; simp only [fld] at *; omega
  have e2 : fld w 19 16 = m.val := by have := f.d; simp only [fld] at *; omega
  have e3 : fld w 15 12 = q.val := by have := f.a; simp only [fld] at *; omega
  have e4 : fld w 11 8 = p.val := by have := f.a; simp only [fld] at *; omega
  cases op with
  | not | mov =>
    have hq : (q.val == 0) = true := ok
    simp [decodeL, decodeMove, f.op, f.b, e1, e2, e3, e4, hq]
  | set | clr =>
    have zero : (p.val == 0 && q.val == 0) = true := ok
    have hpq : fld w 15 8 = 0 := by simp only [Bool.and_eq_true, beq_iff_eq] at zero; have := f.a; omega
    simp [decodeL, decodeMove, f.op, f.b, e1, e2, e3, e4, hpq]
  | and | or | xor | andn => simp [decodeL, decodeMove, f.op, f.b, e1, e2, e3, e4]

theorem roundTrips_mpopc (pre m) : RoundTrips (.mpopc pre d m) := by
  have hp := bitOf_lt pre
  refine roundTrips_of_l 0x2A rfl d.lt_256 m.lt_256 (by omega) (fun _ w lit f _ => ?_)
  have e1 : fld w 7 1 = 0 := by have := f.b; simp only [fld] at *; omega
  have e2 : fld w 0 0 = bitOf pre := by have := f.b; simp only [fld] at *; omega
  have e3 : fld w 15 12 = 0 := by have := f.a; simp only [fld] at *; omega
  have e4 : fld w 11 8 = m.val := by have := f.a; simp only [fld] at *; omega
  simp [decodeL, decodeMove, f.op, f.d, e1, e2, e3, e4]

theorem roundTrips_draw (n w2) : RoundTrips (.draw n w2 d) := by
  have hw := bitOf_lt w2
  refine roundTrips_of_l 0x2B rfl d.lt_256 (by decide) (by omega) (fun ok w lit f _ => ?_)
  have e1 : fld w 7 3 = 0 := by have := f.b; simp only [fld] at *; omega
  have e2 : fld w 2 2 = bitOf w2 := by have := f.b; simp only [fld] at *; omega
  have e3 : fld w 1 0 = n.val := by have := f.b; simp only [fld] at *; omega
  have pair : (!w2 || d.val % 2 == 0) = true := ok
  simp [decodeL, decodeMove, f.op, f.d, f.a, e1, e2, e3, pair]

theorem roundTrips_catd (n) : RoundTrips (.catd n d a) := by
  refine roundTrips_of_l 0x2C rfl d.lt_256 a.code_lt (by omega) (fun _ w lit f hl => ?_)
  have e1 : fld w 7 2 = 0 := by have := f.b; simp only [fld] at *; omega
  have e2 : fld w 1 0 = n.val := by have := f.b; simp only [fld] at *; omega
  simp [decodeL, decodeMove, f.op, f.d, f.a, e1, e2, lsrcFp_code hl]

theorem roundTrips_dsskip (n) : RoundTrips (.dsskip n a b) := by
  refine roundTrips_of_l 0x2D rfl (by omega) a.code_lt b.code_lt (fun ok w lit f hl => ?_)
  have e1 : fld w 23 18 = 0 := by have := f.d; simp only [fld] at *; omega
  have e2 : fld w 17 16 = n.val := by have := f.d; simp only [fld] at *; omega
  obtain ⟨ha, hb⟩ := carried_append.mp hl
  obtain ⟨ia, ib⟩ := Bool.and_eq_true_iff.mp ok
  simp [decodeL, decodeMove, f.op, f.a, f.b, e1, e2, lsrcInt_code ia ha, lsrcInt_code ib hb]

theorem roundTrips_dssetp (n) : RoundTrips (.dssetp n a b) := by
  refine roundTrips_of_l 0x2F rfl (by omega) a.code_lt b.code_lt (fun ok w lit f hl => ?_)
  have e1 : fld w 23 18 = 0 := by have := f.d; simp only [fld] at *; omega
  have e2 : fld w 17 16 = n.val := by have := f.d; simp only [fld] at *; omega
  obtain ⟨ha, hb⟩ := carried_append.mp hl
  obtain ⟨ia, ib⟩ := Bool.and_eq_true_iff.mp ok
  simp [decodeL, decodeMove, f.op, f.a, f.b, e1, e2, lsrcInt_code ia ha, lsrcInt_code ib hb]

theorem roundTrips_dsfork : RoundTrips (.dsfork a) := by
  refine roundTrips_of_l 0x2E rfl (by decide) a.code_lt (by decide) (fun ok w lit f hl => ?_)
  simp [decodeL, decodeMove, f.op, f.d, f.a, f.b, lsrcInt_code ok hl]

theorem roundTrips_dspos (n) : RoundTrips (.dspos n d) := by
  refine roundTrips_of_l 0x30 rfl d.lt_256 (by decide) (by omega) (fun ok w lit f _ => ?_)
  have e1 : fld w 7 2 = 0 := by have := f.b; simp only [fld] at *; omega
  have e2 : fld w 1 0 = n.val := by have := f.b; simp only [fld] at *; omega
  have pair : (d.val % 2 == 0) = true := ok
  simp [decodeL, decodeMove, f.op, f.d, f.a, e1, e2, pair]

theorem roundTrips_gneval (t g) : RoundTrips (.gneval t g d a) := by
  have ht := bitOf_lt t
  refine roundTrips_of_l 0x31 rfl d.lt_256 a.code_lt (by omega) (fun ok w lit f hl => ?_)
  have e1 : fld w 7 4 = 0 := by have := f.b; simp only [fld] at *; omega
  have e2 : fld w 3 3 = bitOf t := by have := f.b; simp only [fld] at *; omega
  have e3 : fld w 2 0 = g.val := by have := f.b; simp only [fld] at *; omega
  simp [decodeL, decodeMove, f.op, f.d, f.a, e1, e2, e3, lsrcInt_code ok hl]

theorem roundTrips_ksig (r : VReg) (h) : RoundTrips (.ksig d r h) := by
  refine roundTrips_of_l 0x32 rfl d.lt_256 r.lt_256 (by omega) (fun ok w lit f _ => ?_)
  have e1 : fld w 7 6 = 0 := by have := f.b; simp only [fld] at *; omega
  have e2 : fld w 5 0 = h.val := by have := f.b; simp only [fld] at *; omega
  have pair : (d.val % 2 == 0) = true := ok
  simp [decodeL, decodeMove, f.op, f.d, f.a, e1, e2, pair]

end Move

/-! ## Rows of the L-set: lane memory -/

/-- Bits [7:0] of LM give H and W back (R16, R19). -/
theorem LFields.hsel {w op d a : Nat} {h : HSel} (f : LFields w op d a h.bits) : hselOf (fld w 7 2) (fld w 1 0) = h := by
  have := f.b
  refine hselOf_bits ?_ ?_ <;> (simp only [fld] at *; omega)

/-- D of a store: one source, or an aligned group of registers (R18). -/
theorem storeData_code {fp : Bool} {n w lit : Nat} {d : LSrc} (hw : fld w 23 16 = d.code)
    (ok : (if n = 1 then fp || d.intOk else d.vecMul n) = true) (hl : Carried lit d.lits) :
    storeData fp n w lit = some d ∧ storeAligned n d = true := by
  unfold storeData storeAligned
  rw [hw]
  split
  · next hn => rw [if_pos hn] at ok; exact ⟨lsrc_code ok hl, by simp [hn]⟩
  · next hn => rw [if_neg hn] at ok; exact ⟨vregOf_code (LSrc.isVec_of_vecMul ok), by simp [ok]⟩

/-- ORD and SCOPE of the memory-order word give the ordering back (R260). -/
theorem MemOrd.fields (ord : MemOrd) :
    ∃ (o : Nat) (sc : Scope), o < 4 ∧ ord.bits = 4096 * sc.code + 1024 * o ∧ ordOf o sc = ord ∧
    (o != 0 || sc.code == 0) = true := by
  cases ord with
  | plain => exact ⟨0, .group, by decide, rfl, rfl, rfl⟩
  | acq sc => exact ⟨1, sc, by decide, rfl, rfl, rfl⟩
  | rel sc => exact ⟨2, sc, by decide, rfl, rfl, rfl⟩
  | acqRel sc => exact ⟨3, sc, by decide, rfl, rfl, rfl⟩

/-- The enable bit and the number give an optional mask back (R113, R294). -/
theorem menOf_bits {men : Option MReg} {en m : Nat} (hen : en = menBits men / 16) (hm : m = menBits men % 16) :
    menOf en m = men ∧ menOk en m = true := by
  subst hen hm
  cases men with
  | none => exact ⟨rfl, rfl⟩
  | some m =>
    have e1 : (16 + m.val) / 16 = 1 := by omega
    have e2 : (16 + m.val) % 16 = m.val := by omega
    simp [menBits, menOf, menOk, e1, e2]

section LaneMem

theorem roundTrips_load (mk : VReg → LSrc → HSel → Instr) (op : Nat) {d : VReg} {a : LSrc} {h : HSel}
    (hw : baseWord (mk d a h) = lrWord op d.val a.code h.bits := by rfl)
    (hlits : (mk d a h).lits = a.lits := by rfl) (hs : (mk d a h).shapeOk = (a.intOk && d.val % h.regs == 0) := by rfl)
    (hn : reservedL op = false := by rfl) (he : eformOp false op = (mk d a h).eform := by rfl)
    (hf : lOperandFields op = (true, true, false) := by rfl) (hop : op < 128 := by decide)
    (dec : ∀ w cmd lit, fld w 30 24 = op → decodeL w cmd lit = decLoad mk w lit := by
      intro w cmd lit h; simp only [decodeL, decodeLaneMem, h]; rfl) : RoundTrips (mk d a h) := by
  refine roundTrips_of_l op hw d.lt_256 a.code_lt h.bits_lt (fun ok w lit f hl => ?_) hn he hop (by simp [hf, hlits])
  rw [hs, Bool.and_eq_true] at ok
  rw [hlits] at hl
  simp [dec w _ lit f.op, decLoad, f.d, f.a, f.hsel, lsrcInt_code ok.1 hl, ok.2]

theorem roundTrips_store (fp : Bool) (mk : LSrc → LSrc → HSel → Instr) (op : Nat) {d a : LSrc} {h : HSel}
    (hs : (mk d a h).shapeOk = true → (if h.regs = 1 then fp || d.intOk else d.vecMul h.regs) = true ∧ a.intOk = true)
    (dec : ∀ w lit, fld w 30 24 = op → decodeL w (commandWord (mk d a h)) lit = decStore fp mk w lit)
    (hw : baseWord (mk d a h) = lrWord op d.code a.code h.bits := by rfl)
    (hlits : (mk d a h).lits = d.lits ++ a.lits := by rfl)
    (hn : reservedL op = false := by rfl) (he : eformOp false op = (mk d a h).eform := by rfl)
    (hf : lOperandFields op = (true, true, false) := by rfl) (hop : op < 128 := by decide) : RoundTrips (mk d a h) := by
  refine roundTrips_of_l op hw d.code_lt a.code_lt h.bits_lt (fun ok w lit f hl => ?_) hn he hop
    (by simp [hf, hlits, not_isEmpty_append])
  obtain ⟨od, oa⟩ := hs ok
  rw [hlits, carried_append] at hl
  obtain ⟨data, aligned⟩ := storeData_code f.d od hl.1
  simp [dec w lit f.op, decStore, f.a, f.hsel, data, aligned, lsrcInt_code oa hl.2]

theorem roundTrips_st (d a h) : RoundTrips (.st d a h) := by
  refine roundTrips_store false .st 0x43 (fun ok => Bool.and_eq_true_iff.mp ok) (fun w lit hop => ?_)
  simp only [decodeL, decodeLaneMem, hop]; rfl

theorem roundTrips_stnt (d a h) : RoundTrips (.stnt d a h) := by
  refine roundTrips_store false .stnt 0x45 (fun ok => Bool.and_eq_true_iff.mp ok) (fun w lit hop => ?_)
  simp only [decodeL, decodeLaneMem, hop]; rfl

theorem roundTrips_ste (d a h) : RoundTrips (.ste d a h) := by
  refine roundTrips_store true .ste 0x44 (fun ok => ?_) (fun w lit hop => ?_)
  · obtain ⟨od, oa⟩ := Bool.and_eq_true_iff.mp ok
    refine ⟨?_, oa⟩
    split
    · rfl
    · next hn => simpa [hn] using od
  · simp only [decodeL, decodeLaneMem, hop]; rfl

theorem roundTrips_pst (h2 d a h) : RoundTrips (.pst h2 d a h) := by
  refine roundTrips_store false (.pst h2) 0x46 (fun ok => Bool.and_eq_true_iff.mp ok) (fun w lit hop => ?_)
  show decodeL w (67108864 * h2.val) lit = _
  generalize hcmd : 67108864 * h2.val = cmd
  have e1 : fld cmd 31 26 = h2.val := by simp only [fld]; omega
  have e2 : fld cmd 25 20 = 0 := by simp only [fld]; omega
  have e3 : fld cmd 19 16 = 0 := by simp only [fld]; omega
  have e4 : fld cmd 15 15 = 0 := by simp only [fld]; omega
  have e5 : fld cmd 14 12 = 0 := by simp only [fld]; omega
  have e6 : fld cmd 11 10 = 0 := by simp only [fld]; omega
  have e7 : fld cmd 9 0 = 0 := by simp only [fld]; omega
  simp [decodeL, decodeLaneMem, hop, e1, e2, e3, e4, e5, e6, e7]

theorem roundTrips_atom (op ord d a h) : RoundTrips (.atom op ord d a h) := by
  refine roundTrips_of_l 0x47 rfl d.lt_256 a.code_lt h.bits_lt (fun ok w lit f hl => ?_)
  obtain ⟨ok, width⟩ := Bool.and_eq_true_iff.mp ok
  obtain ⟨oa, aligned⟩ := Bool.and_eq_true_iff.mp ok
  have width : atomWidthOk op h = true := width
  obtain ⟨o, sc, ho, bits, rfl, plain⟩ := ord.fields
  have hop := op.code_lt
  have hsc := sc.code_lt
  have hcmd : commandWord (.atom op (ordOf o sc) d a h) = 65536 * op.code + (ordOf o sc).bits := rfl
  rw [bits] at hcmd
  generalize commandWord (.atom op (ordOf o sc) d a h) = cmd at hcmd ⊢
  have e1 : fld cmd 31 26 = 0 := by simp only [fld]; omega
  have e2 : fld cmd 25 20 = 0 := by simp only [fld]; omega
  have e3 : fld cmd 19 16 = op.code := by simp only [fld]; omega
  have e4 : fld cmd 15 15 = 0 := by simp only [fld]; omega
  have e5 : fld cmd 14 12 = sc.code := by simp only [fld]; omega
  have e6 : fld cmd 11 10 = o := by simp only [fld]; omega
  have e7 : fld cmd 9 0 = 0 := by simp only [fld]; omega
  simp [decodeL, decodeLaneMem, f.op, f.d, f.a, f.hsel, e1, e2, e3, e4, e5, e6, e7, plain, width, aligned, lsrcInt_code oa hl]

theorem roundTrips_atomr (op d a h) : RoundTrips (.atomr op d a h) := by
  refine roundTrips_of_l 0x48 rfl d.code_lt a.code_lt h.bits_lt (fun ok w lit f hl => ?_)
  obtain ⟨ok, width⟩ := Bool.and_eq_true_iff.mp ok
  obtain ⟨od, oa⟩ := Bool.and_eq_true_iff.mp ok
  have width : atomWidthOk op h = true := width
  obtain ⟨ld, la⟩ := carried_append.mp hl
  obtain ⟨data, aligned⟩ := storeData_code (fp := false) f.d od ld
  have hop := op.code_lt
  have hcmd : commandWord (.atomr op d a h) = 65536 * op.code := rfl
  generalize commandWord (.atomr op d a h) = cmd at hcmd ⊢
  have e1 : fld cmd 31 26 = 0 := by simp only [fld]; omega
  have e2 : fld cmd 25 20 = 0 := by simp only [fld]; omega
  have e3 : fld cmd 19 16 = op.code := by simp only [fld]; omega
  have e4 : fld cmd 15 15 = 0 := by simp only [fld]; omega
  have e5 : fld cmd 14 12 = 0 := by simp only [fld]; omega
  have e6 : fld cmd 11 10 = 0 := by simp only [fld]; omega
  have e7 : fld cmd 9 0 = 0 := by simp only [fld]; omega
  simp [decodeL, decodeLaneMem, f.op, f.a, f.hsel, e1, e2, e3, e4, e5, e6, e7, width, data, aligned, lsrcInt_code oa la]

/-- The widths and register groups of CAS (R261). -/
theorem cas_shape {ord : MemOrd} {d : VReg} {a : LSrc} {h : HSel} (ok : (Instr.cas ord d a h).shapeOk = true) :
    a.intOk = true ∧ h.bits % 4 ≠ 2 ∧ d.val % (2 * h.regs) = 0 := by
  obtain ⟨oa, group⟩ := Bool.and_eq_true_iff.mp ok
  refine ⟨oa, ?_⟩
  cases h with
  | slot s w =>
    cases w with
    | w4 | w8 => exact ⟨by simp only [HSel.bits, Width.code]; omega, beq_iff_eq.mp group⟩
    | w16 => cases group
  | reg r => exact ⟨by simp only [HSel.bits]; omega, beq_iff_eq.mp group⟩

/-- The widths and register groups of CAS128 (R261). -/
theorem cas128_shape {ord : MemOrd} {d : VReg} {a : LSrc} {h : HSel} (ok : (Instr.cas128 ord d a h).shapeOk = true) :
    a.intOk = true ∧ 2 ≤ h.bits % 4 ∧ (h.width? = none ∨ ∃ w, h.width? = some w ∧ d.val % 8 = 0) := by
  obtain ⟨oa, group⟩ := Bool.and_eq_true_iff.mp ok
  refine ⟨oa, ?_⟩
  cases h with
  | slot s w =>
    cases w with
    | w4 | w8 => cases group
    | w16 => exact ⟨by simp only [HSel.bits, Width.code]; omega, .inr ⟨_, rfl, beq_iff_eq.mp group⟩⟩
  | reg r => exact ⟨by simp only [HSel.bits]; omega, .inl rfl⟩

theorem roundTrips_cas (ord d a h) : RoundTrips (.cas ord d a h) := by
  refine roundTrips_of_l 0x49 rfl d.lt_256 a.code_lt h.bits_lt (fun ok w lit f hl => ?_)
  obtain ⟨oa, width, aligned⟩ := cas_shape ok
  obtain ⟨o, sc, ho, bits, rfl, plain⟩ := ord.fields
  have hsc := sc.code_lt
  have hcmd : commandWord (.cas (ordOf o sc) d a h) = (ordOf o sc).bits := rfl
  rw [bits] at hcmd
  generalize commandWord (.cas (ordOf o sc) d a h) = cmd at hcmd ⊢
  have e0 : (fld w 1 0 != 2) = true := by have := f.b; simp only [fld, bne_iff_ne] at *; omega
  have e1 : fld cmd 31 26 = 0 := by simp only [fld]; omega
  have e2 : fld cmd 25 20 = 0 := by simp only [fld]; omega
  have e3 : fld cmd 19 16 = 0 := by simp only [fld]; omega
  have e4 : fld cmd 15 15 = 0 := by simp only [fld]; omega
  have e5 : fld cmd 14 12 = sc.code := by simp only [fld]; omega
  have e6 : fld cmd 11 10 = o := by simp only [fld]; omega
  have e7 : fld cmd 9 0 = 0 := by simp only [fld]; omega
  simp [decodeL, decodeLaneMem, f.op, f.d, f.a, f.hsel, e0, e1, e2, e3, e4, e5, e6, e7, plain, aligned, lsrcInt_code oa hl]

theorem roundTrips_cas128 (ord d a h) : RoundTrips (.cas128 ord d a h) := by
  refine roundTrips_of_l 0x4A rfl d.lt_256 a.code_lt h.bits_lt (fun ok w lit f hl => ?_)
  obtain ⟨oa, width, aligned⟩ := cas128_shape ok
  obtain ⟨o, sc, ho, bits, rfl, plain⟩ := ord.fields
  have hsc := sc.code_lt
  have hcmd : commandWord (.cas128 (ordOf o sc) d a h) = (ordOf o sc).bits := rfl
  rw [bits] at hcmd
  generalize commandWord (.cas128 (ordOf o sc) d a h) = cmd at hcmd ⊢
  have e0 : 2 ≤ fld w 1 0 := by have := f.b; simp only [fld] at *; omega
  have e1 : fld cmd 31 26 = 0 := by simp only [fld]; omega
  have e2 : fld cmd 25 20 = 0 := by simp only [fld]; omega
  have e3 : fld cmd 19 16 = 0 := by simp only [fld]; omega
  have e4 : fld cmd 15 15 = 0 := by simp only [fld]; omega
  have e5 : fld cmd 14 12 = sc.code := by simp only [fld]; omega
  have e6 : fld cmd 11 10 = o := by simp only [fld]; omega
  have e7 : fld cmd 9 0 = 0 := by simp only [fld]; omega
  rcases aligned with none | ⟨x, some, group⟩
  · simp [decodeL, decodeLaneMem, f.op, f.d, f.a, f.hsel, e0, e1, e2, e3, e4, e5, e6, e7, plain, none, lsrcInt_code oa hl]
  · simp [decodeL, decodeLaneMem, f.op, f.d, f.a, f.hsel, e0, e1, e2, e3, e4, e5, e6, e7, plain, some, group, lsrcInt_code oa hl]

/-- The command word of GATH and SCAT (R294). -/
theorem collWord_fields {men : Option MReg} {n : Fin 8} {cmd : Nat} (hcmd : cmd = 128 * menBits men + n.val) :
    fld cmd 31 12 = 0 ∧ fld cmd 6 3 = 0 ∧ fld cmd 2 0 = n.val ∧ menOf (fld cmd 11 11) (fld cmd 10 7) = men ∧
      menOk (fld cmd 11 11) (fld cmd 10 7) = true := by
  have hm := menBits_lt men
  refine ⟨?_, ?_, ?_, menOf_bits ?_ ?_⟩ <;> (simp only [fld]; omega)

theorem roundTrips_gath (n men d a h) : RoundTrips (.gath n men d a h) := by
  refine roundTrips_of_l 0x4B rfl d.lt_256 a.code_lt h.bits_lt (fun ok w lit f hl => ?_)
  obtain ⟨oa, aligned⟩ := Bool.and_eq_true_iff.mp ok
  have hcmd : commandWord (.gath n men d a h) = 128 * menBits men + n.val := rfl
  generalize commandWord (.gath n men d a h) = cmd at hcmd ⊢
  obtain ⟨e1, e2, e3, e4, e5⟩ := collWord_fields hcmd
  have index : (if fld cmd 2 0 = 0 then lsrcInt lit (fld w 15 8) else (vregOf (fld w 15 8)).map LSrc.v) = some a := by
    rw [e3, f.a]
    exact lsrcOrVec_code oa hl
  have number : lowFin 8 (fld cmd 2 0) (by decide) = n := by simp [e3]
  simp [decodeL, decodeLaneMem, f.op, f.d, f.hsel, e1, e2, e4, e5, index, number, aligned]

theorem roundTrips_scat (n men d a h) : RoundTrips (.scat n men d a h) := by
  refine roundTrips_of_l 0x4C rfl d.code_lt a.code_lt h.bits_lt (fun ok w lit f hl => ?_)
  obtain ⟨ld, la⟩ := carried_append.mp hl
  have hcmd : commandWord (.scat n men d a h) = 128 * menBits men + n.val := rfl
  generalize commandWord (.scat n men d a h) = cmd at hcmd ⊢
  obtain ⟨e1, e2, e3, e4, e5⟩ := collWord_fields hcmd
  simp only [Instr.shapeOk] at ok
  by_cases hn : n.val = 0
  · have one : lowFin 8 0 (by decide) = n := Fin.ext hn.symm
    rw [if_pos hn, Bool.and_eq_true] at ok
    obtain ⟨data, aligned⟩ := storeData_code (fp := false) f.d ok.2 ld
    simp [decodeL, decodeLaneMem, f.op, f.a, f.hsel, e1, e2, e4, e5, e3.trans hn, one, data, aligned, lsrcInt_code ok.1 la]
  · rw [if_neg hn, Bool.and_eq_true] at ok
    have many : ¬ fld cmd 2 0 = 0 := e3 ▸ hn
    have number : lowFin 8 (fld cmd 2 0) (by decide) = n := by simp [e3]
    simp [decodeL, decodeLaneMem, f.op, f.d, f.a, f.hsel, e1, e2, e4, e5, many, number, ok.2, vregOf_code ok.1,
      vregOf_code (LSrc.isVec_of_vecMul ok.2)]

/-- The output slot of SISECT (R298). -/
def outBits (out : Option Slot) : Nat :=
  match out with
  | some oh => 16384 * oh.val + 8192
  | none => 0

theorem roundTrips_sisect (ha hb out men d a) (b : VReg) : RoundTrips (.sisect ha hb out men d a b) := by
  refine roundTrips_of_l 0x4D rfl d.lt_256 a.code_lt b.lt_256 (fun ok w lit f hl => ?_)
  obtain ⟨oa, aligned⟩ := Bool.and_eq_true_iff.mp ok
  have hm := menBits_lt men
  have hcmd : commandWord (.sisect ha hb out men d a b) =
    67108864 * ha.val + 1048576 * hb.val + outBits out + 128 * menBits men := rfl
  generalize commandWord (.sisect ha hb out men d a b) = cmd at hcmd ⊢
  have ho : outBits out % 8192 = 0 ∧ outBits out < 1048576 := by
    cases out with
    | none => decide
    | some oh => simp only [outBits]; omega
  have e1 : fld cmd 31 26 = ha.val := by simp only [fld]; omega
  have e2 : fld cmd 25 20 = hb.val := by simp only [fld]; omega
  have e3 : fld cmd 12 12 = 0 := by simp only [fld]; omega
  have e4 : fld cmd 6 3 = 0 := by simp only [fld]; omega
  have e5 : fld cmd 2 0 = 0 := by simp only [fld]; omega
  obtain ⟨e6, e7⟩ := menOf_bits (men := men) (en := fld cmd 11 11) (m := fld cmd 10 7)
    (by simp only [fld]; omega) (by simp only [fld]; omega)
  cases out with
  | none =>
    simp only [outBits] at hcmd
    have e8 : fld cmd 13 13 = 0 := by simp only [fld]; omega
    have e9 : fld cmd 19 14 = 0 := by simp only [fld]; omega
    simp [decodeL, decodeLaneMem, f.op, f.d, f.a, f.b, e1, e2, e3, e4, e5, e6, e7, e8, e9, aligned, lsrcInt_code oa hl]
  | some oh =>
    simp only [outBits] at hcmd
    have e8 : fld cmd 13 13 = 1 := by simp only [fld]; omega
    have e9 : fld cmd 19 14 = oh.val := by simp only [fld]; omega
    simp [decodeL, decodeLaneMem, f.op, f.d, f.a, f.b, e1, e2, e3, e4, e5, e6, e7, e8, e9, aligned, lsrcInt_code oa hl]

theorem roundTrips_kst (nl wide d a h) : RoundTrips (.kst nl wide d a h) := by
  have hn := bitOf_lt nl
  have hw := bitOf_lt wide
  refine roundTrips_of_l 0x4E rfl d.code_lt a.code_lt (by omega) (fun ok w lit f hl => ?_)
  obtain ⟨oa, od⟩ := Bool.and_eq_true_iff.mp ok
  obtain ⟨ld, la⟩ := carried_append.mp hl
  have hcmd : commandWord (.kst nl wide d a h) = bitOf nl := rfl
  generalize commandWord (.kst nl wide d a h) = cmd at hcmd ⊢
  have e1 : fld cmd 31 1 = 0 := by simp only [fld]; omega
  have e2 : fld cmd 0 0 = bitOf nl := by simp only [fld]; omega
  have e3 : fld w 7 2 = h.val := by have := f.b; simp only [fld] at *; omega
  have e4 : fld w 1 0 = bitOf wide := by have := f.b; simp only [fld] at *; omega
  cases wide with
  | false =>
    obtain ⟨data, aligned⟩ := storeData_code (fp := false) (n := 1) f.d od ld
    have e5 : fld w 1 0 = 0 := e4
    simp [decodeL, decodeLaneMem, f.op, f.a, e1, e2, e3, e5, data, aligned, lsrcInt_code oa la]
  | true =>
    obtain ⟨data, aligned⟩ := storeData_code (fp := false) (n := 2) f.d od ld
    have e5 : fld w 1 0 = 1 := e4
    simp [decodeL, decodeLaneMem, f.op, f.a, e1, e2, e3, e5, data, aligned, lsrcInt_code oa la]

end LaneMem

/-! ## Rows of the L-set: engines and control flow -/

section Engine

variable (d a b : LSrc)

/-- D, A and B are operands in integer positions, and the command word passes its checks. -/
theorem roundTrips_engine3 {d a b : LSrc} (mk : LSrc → LSrc → LSrc → Instr) (op : Nat)
    (hs : (mk d a b).shapeOk = true → d.intOk = true ∧ a.intOk = true ∧ b.intOk = true)
    (dec : (mk d a b).shapeOk = true → ∀ w lit, fld w 30 24 = op → decodeL w (commandWord (mk d a b)) lit = decEngine3 mk w lit)
    (hw : baseWord (mk d a b) = lrWord op d.code a.code b.code := by rfl)
    (hlits : (mk d a b).lits = d.lits ++ (a.lits ++ b.lits) := by rfl)
    (hn : reservedL op = false := by rfl) (he : eformOp false op = (mk d a b).eform := by rfl)
    (hf : lOperandFields op = (true, true, true) := by rfl) (hop : op < 128 := by decide) : RoundTrips (mk d a b) := by
  refine roundTrips_of_l op hw d.code_lt a.code_lt b.code_lt (fun ok w lit f hl => ?_) hn he hop
    (by simp [hf, hlits, not_isEmpty_append, Bool.or_assoc])
  obtain ⟨od, oa, ob⟩ := hs ok
  rw [hlits, carried_append, carried_append] at hl
  obtain ⟨ld, la, lb⟩ := hl
  simp [dec ok w lit f.op, decEngine3, f.d, f.a, f.b, lsrcInt_code od ld, lsrcInt_code oa la, lsrcInt_code ob lb]

/-- The fields of the copy word (R113). -/
theorem copyWord_fields {c : CopyWord} {tgt cmd : Nat} (ht : tgt < 16) (hcmd : cmd = c.bits tgt)
    (ok : (c.cvt || (c.rnd == .rne && !c.sat)) = true) :
    widthOf (fld cmd 19 18) = some c.size ∧ rndOf (fld cmd 16 14) = some c.rnd ∧ fld cmd 3 0 = tgt ∧ copyZeros cmd = true ∧
      copyWordOf cmd c.size c.rnd = c := by
  have h1 := c.size.code_lt
  have h2 := c.rnd.code_lt
  have h3 := bitOf_lt c.cvt
  have h4 := bitOf_lt c.sat
  have h5 := bitOf_lt c.exp
  have h6 := bitOf_lt c.arr
  have h7 := menBits_lt c.men
  unfold CopyWord.bits at hcmd
  have e1 : fld cmd 31 26 = c.src.val := by simp only [fld]; omega
  have e2 : fld cmd 25 20 = c.dst.val := by simp only [fld]; omega
  have e3 : fld cmd 19 18 = c.size.code := by simp only [fld]; omega
  have e4 : fld cmd 17 17 = bitOf c.cvt := by simp only [fld]; omega
  have e5 : fld cmd 16 14 = c.rnd.code := by simp only [fld]; omega
  have e6 : fld cmd 13 13 = bitOf c.sat := by simp only [fld]; omega
  have e7 : fld cmd 12 12 = bitOf c.exp := by simp only [fld]; omega
  have e8 : fld cmd 11 11 = bitOf c.arr := by simp only [fld]; omega
  have e9 : fld cmd 5 4 = 0 := by simp only [fld]; omega
  obtain ⟨men, zero⟩ := menOf_bits (men := c.men) (en := fld cmd 10 10) (m := fld cmd 9 6)
    (by simp only [fld]; omega) (by simp only [fld]; omega)
  refine ⟨by simp [e3], by simp [e5], by simp only [fld]; omega, ?_, by simp [copyWordOf, e1, e2, e4, e6, e7, e8, men]⟩
  have plain : (c.cvt || (c.rnd.code == 0 && bitOf c.sat == 0)) = true := by
    cases hc : c.cvt with
    | true => rfl
    | false =>
      rw [hc] at ok
      simp only [Bool.false_or, Bool.and_eq_true, beq_iff_eq, Bool.not_eq_true'] at ok
      rw [ok.1, ok.2]
      rfl
  simp [copyZeros, e9, e4, e5, e6, zero, plain]

theorem roundTrips_cpl (c) : RoundTrips (.cpl c d a b) := by
  refine roundTrips_engine3 (.cpl c) 0x50 (fun ok => ?_) (fun ok w lit hop => ?_)
  · simp only [Instr.shapeOk, Bool.and_eq_true] at ok
    exact ⟨ok.1.1.2, ok.1.2, ok.2⟩
  · have word : (c.cvt || (c.rnd == .rne && !c.sat)) = true := by
      simp only [Instr.shapeOk, Bool.and_eq_true] at ok
      exact ok.1.1.1
    have hcmd : commandWord (.cpl c d a b) = c.bits 0 := rfl
    generalize commandWord (.cpl c d a b) = cmd at hcmd ⊢
    obtain ⟨e1, e2, e3, e4, e5⟩ := copyWord_fields (by decide) hcmd word
    simp [decodeL, decodeEngine, hop, e1, e2, e3, e4, e5]

theorem roundTrips_cpm (c t) : RoundTrips (.cpm c t d a b) := by
  refine roundTrips_engine3 (.cpm c t) 0x51 (fun ok => ?_) (fun ok w lit hop => ?_)
  · simp only [Instr.shapeOk, Bool.and_eq_true] at ok
    exact ⟨ok.1.1.2, ok.1.2, ok.2⟩
  · obtain ⟨target, word⟩ : (t.val != 0) = true ∧ (c.cvt || (c.rnd == .rne && !c.sat)) = true := by
      simp only [Instr.shapeOk, Bool.and_eq_true] at ok
      exact ok.1.1.1
    have hcmd : commandWord (.cpm c t d a b) = c.bits t.val := rfl
    generalize commandWord (.cpm c t d a b) = cmd at hcmd ⊢
    obtain ⟨e1, e2, e3, e4, e5⟩ := copyWord_fields t.isLt hcmd word
    have e6 : (fld cmd 3 0 != 0) = true := by rw [e3]; exact target
    have e7 : lowFin 16 (fld cmd 3 0) (by decide) = t := by simp [e3]
    simp [decodeL, decodeEngine, hop, e1, e2, e4, e5, e6, e7]

/-- The fields of the matrix word (R202). -/
theorem matWord_fields {m : MatWord} {team cmd : Nat} (ht : team < 8) (hcmd : cmd = m.bits team) :
    fld cmd 14 12 = team ∧ fld cmd 11 0 = 0 ∧ bsrcOf (fld cmd 25 17) = some m.bsrc ∧
      (⟨lowFin 64 (fld cmd 31 26) (by decide), m.bsrc, fld cmd 16 16 == 1, fld cmd 15 15 == 1⟩ : MatWord) = m := by
  have h1 := m.bsrc.code_lt
  have h2 := bitOf_lt m.t
  have h3 := bitOf_lt m.acc
  unfold MatWord.bits at hcmd
  have e1 : fld cmd 31 26 = m.ah.val := by simp only [fld]; omega
  have e2 : fld cmd 25 17 = m.bsrc.code := by simp only [fld]; omega
  have e3 : fld cmd 16 16 = bitOf m.t := by simp only [fld]; omega
  have e4 : fld cmd 15 15 = bitOf m.acc := by simp only [fld]; omega
  refine ⟨by simp only [fld]; omega, by simp only [fld]; omega, by simp [e2], by simp [e1, e3, e4]⟩

theorem roundTrips_mmq (m) : RoundTrips (.mmq m d a b) := by
  refine roundTrips_engine3 (.mmq m) 0x52 (fun ok => ?_) (fun _ w lit hop => ?_)
  · simp only [Instr.shapeOk, Bool.and_eq_true] at ok
    exact ⟨ok.1.1, ok.1.2, ok.2⟩
  · have hcmd : commandWord (.mmq m d a b) = m.bits 0 := rfl
    generalize commandWord (.mmq m d a b) = cmd at hcmd ⊢
    obtain ⟨e1, e2, e3, e4⟩ := matWord_fields (by decide) hcmd
    simp [decodeL, decodeEngine, hop, e1, e2, e3, e4]

theorem roundTrips_mmt (m t) : RoundTrips (.mmt m t d a b) := by
  refine roundTrips_engine3 (.mmt m t) 0x53 (fun ok => ?_) (fun _ w lit hop => ?_)
  · simp only [Instr.shapeOk, Bool.and_eq_true] at ok
    exact ⟨ok.1.1, ok.1.2, ok.2⟩
  · have hcmd : commandWord (.mmt m t d a b) = m.bits t.val := rfl
    generalize commandWord (.mmt m t d a b) = cmd at hcmd ⊢
    obtain ⟨e1, e2, e3, e4⟩ := matWord_fields t.isLt hcmd
    simp [decodeL, decodeEngine, hop, e1, e2, e3, e4]

theorem roundTrips_accrd (mm1) (d : VReg) : RoundTrips (.accrd mm1 d a b) := by
  refine roundTrips_of_l 0x54 rfl d.lt_256 a.code_lt b.code_lt (fun ok w lit f hl => ?_)
  obtain ⟨la, lb⟩ := carried_append.mp hl
  obtain ⟨oa, ob⟩ := Bool.and_eq_true_iff.mp ok
  have hcmd : commandWord (.accrd mm1 d a b) = mm1.val := rfl
  generalize commandWord (.accrd mm1 d a b) = cmd at hcmd ⊢
  have e1 : fld cmd 31 5 = 0 := by simp only [fld]; omega
  have e2 : fld cmd 10 8 = 0 := by simp only [fld]; omega
  have e3 : fld cmd 4 0 = mm1.val := by simp only [fld]; omega
  simp [decodeL, decodeEngine, f.op, f.d, f.a, f.b, e1, e2, e3, lsrcInt_code oa la, lsrcInt_code ob lb]

theorem roundTrips_accwr (mm1) : RoundTrips (.accwr mm1 d a b) := by
  refine roundTrips_of_l 0x55 rfl d.code_lt a.code_lt b.code_lt (fun ok w lit f hl => ?_)
    (hl := by simp [lOperandFields, Instr.lits, not_isEmpty_append, Bool.or_assoc])
  obtain ⟨ld, hl⟩ := carried_append.mp hl
  obtain ⟨la, lb⟩ := carried_append.mp hl
  obtain ⟨ok, ob⟩ := Bool.and_eq_true_iff.mp ok
  obtain ⟨od, oa⟩ := Bool.and_eq_true_iff.mp ok
  have hcmd : commandWord (.accwr mm1 d a b) = mm1.val := rfl
  generalize commandWord (.accwr mm1 d a b) = cmd at hcmd ⊢
  have e1 : fld cmd 31 5 = 0 := by simp only [fld]; omega
  have e2 : fld cmd 10 8 = 0 := by simp only [fld]; omega
  have e3 : fld cmd 4 0 = mm1.val := by simp only [fld]; omega
  have data : (if fld cmd 4 0 = 0 then lsrcInt lit (fld w 23 16) else (vregOf (fld w 23 16)).map LSrc.v) = some d := by
    rw [e3, f.d]
    exact lsrcOrVec_code od ld
  have number : lowFin 32 (fld cmd 4 0) (by decide) = mm1 := by simp [e3]
  simp [decodeL, decodeEngine, f.op, f.a, f.b, e1, e2, data, number, lsrcInt_code oa la, lsrcInt_code ob lb]

theorem roundTrips_accpatch (add m) : RoundTrips (.accpatch add d a m) := by
  refine roundTrips_of_l 0x56 rfl d.code_lt a.code_lt m.lt_256 (fun oa w lit f hl => ?_)
  obtain ⟨ld, la⟩ := carried_append.mp hl
  have hadd := bitOf_lt add
  have hcmd : commandWord (.accpatch add d a m) = 64 * bitOf add := rfl
  generalize commandWord (.accpatch add d a m) = cmd at hcmd ⊢
  have e1 : fld cmd 31 7 = 0 := by simp only [fld]; omega
  have e2 : fld cmd 10 8 = 0 := by simp only [fld]; omega
  have e3 : fld cmd 6 6 = bitOf add := by simp only [fld]; omega
  have e4 : fld cmd 5 0 = 0 := by simp only [fld]; omega
  have e5 : fld w 7 4 = 0 := by have := f.b; simp only [fld] at *; omega
  have e6 : fld w 3 0 = m.val := by have := f.b; simp only [fld] at *; omega
  simp [decodeL, decodeEngine, f.op, f.d, f.a, e1, e2, e3, e4, e5, e6, lsrcFp_code ld, lsrcInt_code oa la]

theorem roundTrips_kgath (kh oh p men cap) : RoundTrips (.kgath kh oh p men cap d a b) := by
  refine roundTrips_of_l 0x57 rfl d.code_lt a.code_lt b.code_lt (fun ok w lit f hl => ?_)
    (hl := by simp [lOperandFields, Instr.lits, not_isEmpty_append, Bool.or_assoc])
  obtain ⟨ld, hl⟩ := carried_append.mp hl
  obtain ⟨la, lb⟩ := carried_append.mp hl
  obtain ⟨od, oa⟩ := Bool.and_eq_true_iff.mp ok
  have hm := menBits_lt men
  have hcmd : commandWord (.kgath kh oh p men cap d a b) =
    67108864 * kh.val + 1048576 * oh.val + 65536 * p.val + 2048 * menBits men + cap.val := rfl
  generalize commandWord (.kgath kh oh p men cap d a b) = cmd at hcmd ⊢
  have e1 : fld cmd 31 26 = kh.val := by simp only [fld]; omega
  have e2 : fld cmd 25 20 = oh.val := by simp only [fld]; omega
  have e3 : fld cmd 19 16 = p.val := by simp only [fld]; omega
  have e4 : fld cmd 10 0 = cap.val := by simp only [fld]; omega
  obtain ⟨e5, e6⟩ := menOf_bits (men := men) (en := fld cmd 15 15) (m := fld cmd 14 11)
    (by simp only [fld]; omega) (by simp only [fld]; omega)
  simp [decodeL, decodeEngine, f.op, f.d, f.a, f.b, e1, e2, e3, e4, e5, e6, lsrcInt_code od ld, lsrcInt_code oa la,
    lsrcFp_code lb]

end Engine

section Control

/-- A displacement in the place of A and B reads back (R16). -/
theorem LFields.disp {w op d n : Nat} (f : LFields w op d (n / 256) (n % 256)) : fld w 15 0 = n := by
  have := f.a
  have := f.b
  simp only [fld] at *
  omega

variable (disp : BitVec 16)

theorem roundTrips_bra : RoundTrips (.bra disp) := by
  refine roundTrips_of_l 0x60 (lbWord_eq ..) (by decide) (by omega) (by omega) (fun _ w lit f _ => ?_)
  simp [decodeL, decodeControl, f.op, f.d, f.disp]

theorem roundTrips_call : RoundTrips (.call disp) := by
  refine roundTrips_of_l 0x65 (lbWord_eq ..) (by decide) (by omega) (by omega) (fun _ w lit f _ => ?_)
  simp [decodeL, decodeControl, f.op, f.d, f.disp]

theorem roundTrips_braKernelAbsolute (off) : RoundTrips (.braKernelAbsolute off) := by
  refine roundTrips_of_l 0x60 (lbWord_eq ..) (by decide) (by decide) (by decide) (fun _ w lit f hl => ?_)
  have e : off.toNat = lit := hl off (List.mem_singleton_self off)
  simp [decodeL, decodeControl, f.op, f.d, f.disp, ← e]

theorem roundTrips_callKernelAbsolute (off) : RoundTrips (.callKernelAbsolute off) := by
  refine roundTrips_of_l 0x65 (lbWord_eq ..) (by decide) (by decide) (by decide) (fun _ w lit f hl => ?_)
  have e : off.toNat = lit := hl off (List.mem_singleton_self off)
  simp [decodeL, decodeControl, f.op, f.d, f.disp, ← e]

theorem roundTrips_brm (m) : RoundTrips (.brm m disp) := by
  refine roundTrips_of_l 0x61 (lbWord_eq ..) m.lt_256 (by omega) (by omega) (fun _ w lit f _ => ?_)
  have e1 : fld w 23 20 = 0 := by have := f.d; simp only [fld] at *; omega
  have e2 : fld w 19 16 = m.val := by have := f.d; simp only [fld] at *; omega
  simp [decodeL, decodeControl, f.op, f.disp, e1, e2]

theorem roundTrips_brmn (m) : RoundTrips (.brmn m disp) := by
  refine roundTrips_of_l 0x62 (lbWord_eq ..) m.lt_256 (by omega) (by omega) (fun _ w lit f _ => ?_)
  have e1 : fld w 23 20 = 0 := by have := f.d; simp only [fld] at *; omega
  have e2 : fld w 19 16 = m.val := by have := f.d; simp only [fld] at *; omega
  simp [decodeL, decodeControl, f.op, f.disp, e1, e2]

theorem roundTrips_brz (d) : RoundTrips (.brz d disp) := by
  refine roundTrips_of_l 0x63 (lbWord_eq ..) d.code_lt (by omega) (by omega) (fun ok w lit f hl => ?_)
  simp [decodeL, decodeControl, f.op, f.d, f.disp, lsrcInt_code ok hl]

theorem roundTrips_brnz (d) : RoundTrips (.brnz d disp) := by
  refine roundTrips_of_l 0x64 (lbWord_eq ..) d.code_lt (by omega) (by omega) (fun ok w lit f hl => ?_)
  simp [decodeL, decodeControl, f.op, f.d, f.disp, lsrcInt_code ok hl]

theorem roundTrips_ret (a) : RoundTrips (.ret a) := by
  refine roundTrips_of_l 0x66 rfl (by decide) a.code_lt (by decide) (fun ok w lit f hl => ?_)
  simp [decodeL, decodeControl, f.op, f.d, f.a, f.b, lsrcInt_code ok hl]

theorem roundTrips_exit : RoundTrips .exit := by
  refine roundTrips_of_l 0x67 (lbWord_eq ..) (by decide) (by decide) (by decide) (fun _ w lit f _ => ?_)
  have e1 : fld w 23 0 = 0 := by have := f.d; have := f.disp; simp only [fld] at *; omega
  simp [decodeL, decodeControl, f.op, e1]

theorem roundTrips_trap (code) : RoundTrips (.trap code) := by
  refine roundTrips_of_l 0x68 (lbWord_eq ..) (by decide) (by omega) (by omega) (fun _ w lit f _ => ?_)
  simp [decodeL, decodeControl, f.op, f.d, f.disp]

end Control

/-! ## Rows of the U-set -/

theorem SReg.lt_512 (r : SReg) : r.val < 512 := by omega

section Scalar

variable (sd : SReg) (sb : USrc)

/-- sd and sb are operands, sd a register, and X passes its checks. -/
theorem roundTrips_s {sd : SReg} {sb : USrc} (mk : SReg → USrc → Instr) (op x : Nat)
    (hw : baseWord (mk sd sb) = urWord op sd.val sb.code x := by rfl)
    (dec : ∀ w lit, UFields w op sd.val sb.code x → decodeU w (commandWord (mk sd sb)) lit = decS mk true w lit := by
      intro w lit f
      simp only [decodeU, decodeScalar, decodeUniform, decodeHandle, decodeSystem, f.op, f.x, lowFin_val]
      rfl)
    (hx : x < 64 := by omega) (hlits : (mk sd sb).lits = sb.lits := by rfl)
    (hn : reservedU op = false := by rfl) (he : eformOp true op = (mk sd sb).eform := by rfl)
    (hf : uOperandFields op x (commandWord (mk sd sb)) = (true, true) := by rfl) (hop : op < 127 := by decide) :
    RoundTrips (mk sd sb) := by
  refine roundTrips_of_u op hw sd.lt_512 sb.code_lt hx (fun _ w lit f hl => ?_) hn he hop (fun _ => by simp [hf, hlits])
  rw [hlits] at hl
  simp [dec w lit f, decS, f.sd, f.sb, usrcOf_code hl]

theorem roundTrips_sset (c) : RoundTrips (.sset c sd sb) := by
  have hc := c.code_lt
  refine roundTrips_s (.sset c) 0x0C c.code rfl (fun w lit f => ?_)
  have e1 : fld w 5 4 = 0 := by have := f.x; simp only [fld] at *; omega
  have e2 : fld w 3 0 = c.code := by have := f.x; simp only [fld] at *; omega
  simp [decodeU, decodeScalar, f.op, e1, e2]

theorem roundTrips_dsld (d) : RoundTrips (.dsld sd sb d) := by
  refine roundTrips_s (fun sd sb => .dsld sd sb d) 0x30 d.val rfl (fun w lit f => ?_)
  have e1 : fld w 5 4 = 0 := by have := f.x; simp only [fld] at *; omega
  have e2 : fld w 3 0 = d.val := by have := f.x; simp only [fld] at *; omega
  simp [decodeU, decodeSystem, f.op, e1, e2]

theorem roundTrips_gnld (g) : RoundTrips (.gnld sd sb g) := by
  refine roundTrips_s (fun sd sb => .gnld sd sb g) 0x31 g.val rfl (fun w lit f => ?_)
  have e1 : fld w 5 3 = 0 := by have := f.x; simp only [fld] at *; omega
  have e2 : fld w 2 0 = g.val := by have := f.x; simp only [fld] at *; omega
  simp [decodeU, decodeSystem, f.op, e1, e2]

theorem roundTrips_bld (t nt x) : RoundTrips (.bld t nt sd sb x) := by
  refine roundTrips_s (fun sd sb => .bld t nt sd sb x) 0x32 x.val rfl (fun w lit f => ?_)
  have ht := bitOf_lt t
  have hnt := bitOf_lt nt
  have hcmd : commandWord (.bld t nt sd sb x) = 2 * bitOf nt + bitOf t := rfl
  show decodeU w (commandWord (.bld t nt sd sb x)) lit = _
  generalize commandWord (.bld t nt sd sb x) = cmd at hcmd ⊢
  have e1 : fld cmd 31 2 = 0 := by simp only [fld]; omega
  have e2 : fld cmd 1 1 = bitOf nt := by simp only [fld]; omega
  have e3 : fld cmd 0 0 = bitOf t := by simp only [fld]; omega
  simp [decodeU, decodeSystem, f.op, f.x, e1, e2, e3]

theorem roundTrips_launch (after) : RoundTrips (.launch after sd sb) := by
  refine roundTrips_s (.launch after) 0x40 0 rfl (fun w lit f => ?_)
  have ha := bitOf_lt after
  have hcmd : commandWord (.launch after sd sb) = bitOf after := rfl
  generalize commandWord (.launch after sd sb) = cmd at hcmd ⊢
  have e1 : fld cmd 31 2 = 0 := by simp only [fld]; omega
  have e2 : fld cmd 1 0 = bitOf after := by simp only [fld]; omega
  simp [decodeU, decodeSystem, f.op, f.x, e1, e2, ha]

theorem roundTrips_tapepush (e) : RoundTrips (.tapepush e sd sb) := by
  refine roundTrips_s (.tapepush e) 0x41 0 rfl (fun w lit f => ?_)
  have he := bitOf_lt e
  have hcmd : commandWord (.tapepush e sd sb) = bitOf e := rfl
  generalize commandWord (.tapepush e sd sb) = cmd at hcmd ⊢
  have e1 : fld cmd 31 1 = 0 := by simp only [fld]; omega
  have e2 : fld cmd 0 0 = bitOf e := by simp only [fld]; omega
  simp [decodeU, decodeSystem, f.op, f.x, e1, e2]

/-- An immediate in the place of sb and X reads back (R25). -/
theorem UFields.imm {w op sd n : Nat} (f : UFields w op sd (n / 64) (n % 64)) : fld w 14 0 = n := by
  have := f.sb
  have := f.x
  simp only [fld] at *
  omega

theorem roundTrips_smovi (imm) : RoundTrips (.smovi sd imm) := by
  refine roundTrips_of_u 0x0D (uiWord_eq ..) sd.lt_512 (by omega) (by omega) (fun _ w lit f _ => ?_)
  simp [decodeU, decodeScalar, f.op, f.sd, f.imm]

theorem roundTrips_slui (imm) : RoundTrips (.slui sd imm) := by
  refine roundTrips_of_u 0x0E (uiWord_eq ..) sd.lt_512 (by omega) (by omega) (fun _ w lit f _ => ?_)
  simp [decodeU, decodeScalar, f.op, f.sd, f.imm]

theorem roundTrips_v2s (lane) (v : VReg) (x) : RoundTrips (.v2s sd lane v x) := by
  have hl := bitOf_lt lane
  refine roundTrips_of_u 0x0F rfl sd.lt_512 (by omega) x.isLt (fun _ w lit f _ => ?_)
  have e1 : fld w 14 14 = bitOf lane := by have := f.sb; simp only [fld] at *; omega
  have e2 : fld w 13 6 = v.val := by have := f.sb; simp only [fld] at *; omega
  simp [decodeU, decodeScalar, f.op, f.sd, f.x, e1, e2]

theorem roundTrips_sbra (disp) : RoundTrips (.sbra disp) := by
  refine roundTrips_of_u 0x10 (uiWord_eq ..) (by decide) (by omega) (by omega) (fun _ w lit f _ => ?_)
  simp [decodeU, decodeScalar, f.op, f.sd, f.imm]

theorem roundTrips_sbz (disp) : RoundTrips (.sbz sd disp) := by
  refine roundTrips_of_u 0x11 (uiWord_eq ..) sd.lt_512 (by omega) (by omega) (fun _ w lit f _ => ?_)
  simp [decodeU, decodeScalar, f.op, f.sd, f.imm]

theorem roundTrips_sbnz (disp) : RoundTrips (.sbnz sd disp) := by
  refine roundTrips_of_u 0x12 (uiWord_eq ..) sd.lt_512 (by omega) (by omega) (fun _ w lit f _ => ?_)
  simp [decodeU, decodeScalar, f.op, f.sd, f.imm]

end Scalar

section Uniform

variable (sd : SReg) (sb : USrc)

theorem roundTrips_qrd (q) : RoundTrips (.qrd q sb) := by
  refine roundTrips_of_u 0x13 rfl (by decide) sb.code_lt (by omega) (fun _ w lit f hl => ?_)
  have e1 : fld w 5 3 = 0 := by have := f.x; simp only [fld] at *; omega
  have e2 : fld w 2 0 = q.val := by have := f.x; simp only [fld] at *; omega
  simp [decodeU, decodeUniform, f.op, f.sd, f.sb, e1, e2, usrcOf_code hl]

theorem roundTrips_qst (q) : RoundTrips (.qst q sb) := by
  refine roundTrips_of_u 0x14 rfl (by decide) sb.code_lt (by omega) (fun _ w lit f hl => ?_)
  have e1 : fld w 5 3 = 0 := by have := f.x; simp only [fld] at *; omega
  have e2 : fld w 2 0 = q.val := by have := f.x; simp only [fld] at *; omega
  simp [decodeU, decodeUniform, f.op, f.sd, f.sb, e1, e2, usrcOf_code hl]

theorem roundTrips_waitc (nld nst ncp ntl) : RoundTrips (.waitc nld nst ncp ntl) := by
  refine roundTrips_of_u 0x16 (uwWord_eq ..) (by omega) (by omega) ntl.isLt (fun _ w lit f _ => ?_)
  have e1 : fld w 23 18 = nld.val := by have := f.sd; simp only [fld] at *; omega
  have e2 : fld w 17 12 = nst.val := by have := f.sd; have := f.sb; simp only [fld] at *; omega
  have e3 : fld w 11 6 = ncp.val := by have := f.sb; simp only [fld] at *; omega
  simp [decodeU, decodeUniform, f.op, f.x, e1, e2, e3]

theorem roundTrips_fence (sc) : RoundTrips (.fence sc) := by
  have hs := sc.code_lt
  refine roundTrips_of_u 0x17 rfl (by decide) (by decide) (by omega) (fun _ w lit f _ => ?_)
  have e1 : fld w 23 6 = 0 := by have := f.sd; have := f.sb; simp only [fld] at *; omega
  simp [decodeU, decodeUniform, f.op, f.x, e1]

theorem roundTrips_ntdrain (sc) : RoundTrips (.ntdrain sc) := by
  have hs := sc.code_lt
  refine roundTrips_of_u 0x18 rfl (by decide) (by decide) (by omega) (fun _ w lit f _ => ?_)
  have e1 : fld w 23 6 = 0 := by have := f.sd; have := f.sb; simp only [fld] at *; omega
  simp [decodeU, decodeUniform, f.op, f.x, e1]

theorem itemBits_lt (ord : Option Scope) (wide : Bool) : itemBits ord wide < 64 := by
  have hw := bitOf_lt wide
  cases ord with
  | none => simp only [itemBits]; omega
  | some sc => have := sc.code_lt; simp only [itemBits]; omega

/-- X of LDU, STU, RQENQ and RQDEQ gives the ordering and the width back (R110). -/
theorem item_fields {w : Nat} {ord : Option Scope} {wide : Bool} (h : fld w 5 0 = itemBits ord wide) :
    fld w 1 1 = bitOf wide ∧ fld w 0 0 = 0 ∧ (fld w 2 2 == 1 || fld w 5 3 == 0) = true ∧
      ∃ sc : Scope, fld w 5 3 = sc.code ∧ scopeIf (fld w 2 2) sc = ord := by
  have hw := bitOf_lt wide
  cases ord with
  | none =>
    simp only [itemBits] at h
    have e1 : fld w 2 2 = 0 := by simp only [fld] at *; omega
    have e2 : fld w 5 3 = 0 := by simp only [fld] at *; omega
    exact ⟨by simp only [fld] at *; omega, by simp only [fld] at *; omega, by simp [e2], .group, e2, by simp [e1, scopeIf]⟩
  | some sc =>
    have hs := sc.code_lt
    simp only [itemBits] at h
    have e1 : fld w 2 2 = 1 := by simp only [fld] at *; omega
    have e2 : fld w 5 3 = sc.code := by simp only [fld] at *; omega
    exact ⟨by simp only [fld] at *; omega, by simp only [fld] at *; omega, by simp [e1], sc, e2, by simp [e1, scopeIf]⟩

/-- LDU, STU, RQENQ and RQDEQ, whose registers keep the rule of the instruction. -/
theorem roundTrips_item {sd : SReg} {sb : USrc} (mk : Option Scope → Bool → SReg → USrc → Instr) (op : Nat)
    (regsOk : Bool → SReg → Bool)
    {ord : Option Scope} {wide : Bool}
    (hw : baseWord (mk ord wide sd sb) = urWord op sd.val sb.code (itemBits ord wide) := by rfl)
    (dec : ∀ w cmd lit, fld w 30 24 = op → decodeU w cmd lit = decItem mk regsOk w lit := by
      intro w cmd lit h; simp only [decodeU, decodeUniform, decodeHandle, h]; rfl)
    (hs : (mk ord wide sd sb).shapeOk = regsOk wide sd := by rfl)
    (hlits : (mk ord wide sd sb).lits = sb.lits := by rfl)
    (hn : reservedU op = false := by rfl) (he : eformOp true op = (mk ord wide sd sb).eform := by rfl)
    (hf : ∀ x cmd, uOperandFields op x cmd = (true, true) := by intro _ _; rfl) (hop : op < 127 := by decide) :
    RoundTrips (mk ord wide sd sb) := by
  refine roundTrips_of_u op hw sd.lt_512 sb.code_lt (itemBits_lt ..) (fun ok w lit f hl => ?_) hn he hop
    (fun _ => by simp [hf, hlits])
  rw [hlits] at hl
  rw [hs] at ok
  obtain ⟨e1, e2, e3, sc, e4, e5⟩ := item_fields f.x
  rw [e4] at e3
  simp [dec w _ lit f.op, decItem, f.sd, f.sb, e1, e2, e3, e4, e5, ok, usrcOf_code hl]

theorem roundTrips_nop : RoundTrips .nop := by
  refine roundTrips_of_u 0x1C rfl (by decide) (by decide) (by decide) (fun _ w lit f _ => ?_)
  simp [decodeU, decodeUniform, f.op, f.sd, f.sb, f.x]

/-- The fields of a NOP with a literal are zero or the literal code (R29). -/
@[simp] theorem literalField (b : Bool) : (511 * bitOf b == 511) = b ∧ (511 * bitOf b == 0) = !b ∧
    (bitOf b = 0 ↔ b = false) := by
  cases b <;> decide

theorem roundTrips_nopLiteral (inSd inSb lit) : RoundTrips (.nopLiteral inSd inSb lit) := by
  have h1 := bitOf_lt inSd
  have h2 := bitOf_lt inSb
  refine roundTrips_of_u 0x1C rfl (by omega) (by omega) (by decide) (fun ok w l f hl => ?_) (hl := fun ok => ?_)
  · have e : lit.toNat = l := hl lit (List.mem_singleton_self lit)
    have some : ¬ (inSd = false ∧ inSb = false) := by
      rintro ⟨rfl, rfl⟩
      cases ok
    simp [decodeU, decodeUniform, f.op, f.sd, f.sb, f.x, some, ← e]
  · have some : (inSd || inSb) = true := ok
    simp [uOperandFields, Instr.lits, some]

end Uniform

section Barriers

variable (d sb : USrc)

/-- A field that must be raw zero holds no literal (R135). -/
theorem zeroField {sb : USrc} (h : sb.isZeroField = true) : sb.code = 0 ∧ sb.lits = [] := by
  cases sb with
  | s r => exact ⟨beq_iff_eq.mp h, rfl⟩
  | _ => cases h

/-- sd of a barrier instruction: a register with a successor in a ring form, else any source (R135). -/
theorem ringSrc_code {ring : Bool} {d : USrc} {lit : Nat} (ok : (!ring || d.ringReg) = true) (hl : Carried lit d.lits) :
    ringSrc ring lit d.code = some d ∧ ringOk ring d = true := by
  refine ⟨?_, ok⟩
  cases ring with
  | false => exact usrcOf_code hl
  | true =>
    cases d with
    | s r => simp [ringSrc, USrc.code]
    | _ => cases ok

theorem roundTrips_binit : RoundTrips (.binit d sb) := by
  refine roundTrips_of_u 0x23 rfl d.code_lt sb.code_lt (by decide) (fun _ w lit f hl => ?_)
  obtain ⟨ld, lb⟩ := carried_append.mp hl
  simp [decodeU, decodeHandle, f.op, f.sd, f.sb, f.x, usrcOf_code ld, usrcOf_code lb]

theorem roundTrips_barrive (ring exp) : RoundTrips (.barrive ring exp d sb) := by
  have hr := bitOf_lt ring
  have he := bitOf_lt exp
  refine roundTrips_of_u 0x24 rfl d.code_lt sb.code_lt (by omega) (fun ok w lit f hl => ?_) (hl := fun ok => ?_)
  · obtain ⟨ld, lb⟩ := carried_append.mp hl
    obtain ⟨od, ob⟩ := Bool.and_eq_true_iff.mp ok
    obtain ⟨src, reg⟩ := ringSrc_code od ld
    have e1 : fld w 5 2 = 0 := by have := f.x; simp only [fld] at *; omega
    have e2 : fld w 1 1 = bitOf ring := by have := f.x; simp only [fld] at *; omega
    have e3 : fld w 0 0 = bitOf exp := by have := f.x; simp only [fld] at *; omega
    have zero : (exp || sb.code == 0) = true := by
      rcases Bool.or_eq_true_iff.mp ob with h | h
      · simp [h]
      · simp [(zeroField h).1]
    simp [decodeU, decodeHandle, f.op, f.sd, f.sb, e1, e2, e3, zero, src, reg, usrcOf_code lb]
  · obtain ⟨od, ob⟩ := Bool.and_eq_true_iff.mp ok
    cases exp with
    | true => cases ring <;> simp [uOperandFields, Instr.lits, bitOf, not_isEmpty_append]
    | false => cases ring <;> simp [uOperandFields, Instr.lits, bitOf, (zeroField ob).2]

theorem roundTrips_bexpect (ring) : RoundTrips (.bexpect ring d sb) := by
  have hr := bitOf_lt ring
  refine roundTrips_of_u 0x25 rfl d.code_lt sb.code_lt (by omega) (fun ok w lit f hl => ?_)
  obtain ⟨ld, lb⟩ := carried_append.mp hl
  obtain ⟨src, reg⟩ := ringSrc_code ok ld
  have e1 : fld w 5 2 = 0 := by have := f.x; simp only [fld] at *; omega
  have e2 : fld w 1 1 = bitOf ring := by have := f.x; simp only [fld] at *; omega
  have e3 : fld w 0 0 = 0 := by have := f.x; simp only [fld] at *; omega
  simp [decodeU, decodeHandle, f.op, f.sd, f.sb, e1, e2, e3, src, reg, usrcOf_code lb]

theorem roundTrips_bwait (ring) : RoundTrips (.bwait ring d sb) := by
  have hr := bitOf_lt ring
  refine roundTrips_of_u 0x26 rfl d.code_lt sb.code_lt (by omega) (fun ok w lit f hl => ?_) (hl := fun ok => ?_)
  · obtain ⟨ld, lb⟩ := carried_append.mp hl
    have e1 : fld w 5 2 = 0 := by have := f.x; simp only [fld] at *; omega
    have e2 : fld w 1 1 = bitOf ring := by have := f.x; simp only [fld] at *; omega
    have e3 : fld w 0 0 = 0 := by have := f.x; simp only [fld] at *; omega
    have form : (!ring || d.ringReg) = true ∧ (!ring || sb.code == 0) = true := by
      cases ring with
      | false => exact ⟨rfl, rfl⟩
      | true =>
        obtain ⟨od, ob⟩ := Bool.and_eq_true_iff.mp ok
        exact ⟨od, by simp [(zeroField ob).1]⟩
    obtain ⟨src, reg⟩ := ringSrc_code form.1 ld
    simp [decodeU, decodeHandle, f.op, f.sd, f.sb, e1, e2, e3, form.2, src, reg, usrcOf_code lb]
  · cases ring with
    | false => simp [uOperandFields, Instr.lits, bitOf, not_isEmpty_append]
    | true =>
      obtain ⟨_, ob⟩ := Bool.and_eq_true_iff.mp ok
      simp [uOperandFields, Instr.lits, bitOf, (zeroField ob).2]

theorem roundTrips_btest (mode ring) (sd : SReg) : RoundTrips (.btest mode ring sd sb) := by
  have hr := bitOf_lt ring
  have hm := mode.code_lt
  refine roundTrips_of_u 0x27 rfl sd.lt_512 sb.code_lt (by omega) (fun ok w lit f hl => ?_) (hl := fun ok => ?_)
  · obtain ⟨pair, ob⟩ := Bool.and_eq_true_iff.mp ok
    have e1 : fld w 5 4 = mode.code := by have := f.x; simp only [fld] at *; omega
    have e2 : fld w 3 2 = 0 := by have := f.x; simp only [fld] at *; omega
    have e3 : fld w 1 1 = bitOf ring := by have := f.x; simp only [fld] at *; omega
    have e4 : fld w 0 0 = 0 := by have := f.x; simp only [fld] at *; omega
    have zero : (mode == .test && !ring || sb.code == 0) = true := by
      rcases Bool.or_eq_true_iff.mp ob with h | h
      · simp only [h, Bool.true_or]
      · simp [(zeroField h).1]
    simp [decodeU, decodeHandle, f.op, f.sd, f.sb, e1, e2, e3, e4, zero, pair, usrcOf_code hl]
  · obtain ⟨_, ob⟩ := Bool.and_eq_true_iff.mp ok
    rcases Bool.or_eq_true_iff.mp ob with h | h
    · obtain ⟨hmode, hring⟩ := Bool.and_eq_true_iff.mp h
      rw [beq_iff_eq] at hmode
      rw [Bool.not_eq_true'] at hring
      subst hmode hring
      simp [uOperandFields, Instr.lits, BtMode.code, bitOf]
    · simp [uOperandFields, Instr.lits, (zeroField h).1, (zeroField h).2]

/-- PGREQ and PFH, whose sd is even (R66). -/
theorem roundTrips_pgreq (sd : SReg) (x) : RoundTrips (.pgreq sd sb x) := by
  refine roundTrips_of_u 0x2A rfl sd.lt_512 sb.code_lt x.isLt (fun ok w lit f hl => ?_)
  have even : SReg.even sd = true := ok
  simp [decodeU, decodeHandle, f.op, f.sd, f.sb, f.x, even, usrcOf_code hl]

theorem roundTrips_pfh (sd : SReg) (x) : RoundTrips (.pfh sd sb x) := by
  refine roundTrips_of_u 0x2B rfl sd.lt_512 sb.code_lt x.isLt (fun ok w lit f hl => ?_)
  have even : SReg.even sd = true := ok
  simp [decodeU, decodeHandle, f.op, f.sd, f.sb, f.x, even, usrcOf_code hl]

end Barriers

section System

variable (d sb : USrc)

theorem roundTrips_bfree : RoundTrips (.bfree sb) := by
  refine roundTrips_of_u 0x33 rfl (by decide) sb.code_lt (by decide) (fun _ w lit f hl => ?_)
  simp [decodeU, decodeSystem, f.op, f.sd, f.sb, f.x, usrcOf_code hl]

theorem roundTrips_accz : RoundTrips (.accz d sb) := by
  refine roundTrips_of_u 0x34 rfl d.code_lt sb.code_lt (by decide) (fun _ w lit f hl => ?_)
  obtain ⟨ld, lb⟩ := carried_append.mp hl
  simp [decodeU, decodeSystem, f.op, f.sd, f.sb, f.x, usrcOf_code ld, usrcOf_code lb]

theorem roundTrips_accst (rows r sat x) : RoundTrips (.accst rows r sat d sb x) := by
  refine roundTrips_of_u 0x35 rfl d.code_lt sb.code_lt x.isLt (fun _ w lit f hl => ?_)
  obtain ⟨ld, lb⟩ := carried_append.mp hl
  have hr := r.code_lt
  have hs := bitOf_lt sat
  have hcmd : commandWord (.accst rows r sat d sb x) = 2048 * rows.val + 256 * r.code + 128 * bitOf sat := rfl
  generalize commandWord (.accst rows r sat d sb x) = cmd at hcmd ⊢
  have e1 : fld cmd 31 22 = 0 := by simp only [fld]; omega
  have e2 : fld cmd 21 11 = rows.val := by simp only [fld]; omega
  have e3 : fld cmd 10 8 = r.code := by simp only [fld]; omega
  have e4 : fld cmd 7 7 = bitOf sat := by simp only [fld]; omega
  have e5 : fld cmd 6 0 = 0 := by simp only [fld]; omega
  simp [decodeU, decodeSystem, f.op, f.sd, f.sb, f.x, e1, e2, e3, e4, e5, usrcOf_code ld, usrcOf_code lb]

theorem roundTrips_ksinit (gn psc cl bb d128) (sd : SReg) (x) : RoundTrips (.ksinit gn psc cl bb d128 sd sb x) := by
  refine roundTrips_of_u 0x36 rfl sd.lt_512 sb.code_lt x.isLt (fun ok w lit f hl => ?_)
  have even : SReg.even sd = true := ok
  have hp := psc.code_lt
  have hd := bitOf_lt d128
  have hcmd : commandWord (.ksinit gn psc cl bb d128 sd sb x) =
    8192 * gn.val + 1024 * psc.code + 256 * cl.val + 16 * (bb.val + 4) + bitOf d128 := rfl
  generalize commandWord (.ksinit gn psc cl bb d128 sd sb x) = cmd at hcmd ⊢
  have e1 : fld cmd 31 16 = 0 := by simp only [fld]; omega
  have e2 : fld cmd 15 13 = gn.val := by simp only [fld]; omega
  have e3 : fld cmd 12 10 = psc.code := by simp only [fld]; omega
  have e4 : fld cmd 9 8 = cl.val := by simp only [fld]; omega
  have e5 : fld cmd 7 4 = bb.val + 4 := by simp only [fld]; omega
  have e6 : fld cmd 3 1 = 0 := by simp only [fld]; omega
  have e7 : fld cmd 0 0 = bitOf d128 := by simp only [fld]; omega
  simp [decodeU, decodeSystem, f.op, f.sd, f.sb, f.x, e1, e2, e3, e4, e5, e6, e7, even, usrcOf_code hl]

theorem roundTrips_tret (skip) : RoundTrips (.tret skip) := by
  have hs := bitOf_lt skip
  refine roundTrips_of_u 0x42 rfl (by decide) (by decide) (by omega) (fun _ w lit f _ => ?_)
  have e1 : fld w 23 1 = 0 := by have := f.sd; have := f.sb; have := f.x; simp only [fld] at *; omega
  have e2 : fld w 0 0 = bitOf skip := by have := f.x; simp only [fld] at *; omega
  simp [decodeU, decodeSystem, f.op, e1, e2]

theorem roundTrips_gend (rcd) : RoundTrips (.gend rcd) := by
  have hs := bitOf_lt rcd
  refine roundTrips_of_u 0x46 rfl (by decide) (by decide) (by omega) (fun _ w lit f _ => ?_)
  have e1 : fld w 23 1 = 0 := by have := f.sd; have := f.sb; have := f.x; simp only [fld] at *; omega
  have e2 : fld w 0 0 = bitOf rcd := by have := f.x; simp only [fld] at *; omega
  simp [decodeU, decodeSystem, f.op, e1, e2]

/-- The number of a watch stands in the low bits of X (R349). -/
theorem watch_fields {w op sd sb : Nat} {n : Fin 8} (f : UFields w op sd sb n.val) : fld w 5 3 = 0 ∧ fld w 2 0 = n.val := by
  have := f.x
  constructor <;> (simp only [fld] at *; omega)

theorem roundTrips_watchLoad (n) : RoundTrips (.watchLoad n sb) := by
  refine roundTrips_of_u 0x45 rfl (by decide) sb.code_lt (by omega) (fun _ w lit f hl => ?_)
    (hl := fun _ => by simp [uOperandFields, commandWord, Instr.lits])
  obtain ⟨e1, e2⟩ := watch_fields f
  have e3 : fld 0 1 0 = 0 := rfl
  have e4 : fld 0 31 2 = 0 := rfl
  simp [decodeU, decodeSystem, commandWord, f.op, f.sd, f.sb, e1, e2, e3, e4, usrcOf_code hl]

theorem roundTrips_watchStore (n) : RoundTrips (.watchStore n sb) := by
  refine roundTrips_of_u 0x45 rfl (by decide) sb.code_lt (by omega) (fun _ w lit f hl => ?_)
    (hl := fun _ => by simp [uOperandFields, commandWord, Instr.lits])
  obtain ⟨e1, e2⟩ := watch_fields f
  have e3 : fld 1 1 0 = 1 := rfl
  have e4 : fld 1 31 2 = 0 := rfl
  simp [decodeU, decodeSystem, commandWord, f.op, f.sd, f.sb, e1, e2, e3, e4, usrcOf_code hl]

theorem roundTrips_watchClr (n) : RoundTrips (.watchClr n) := by
  refine roundTrips_of_u 0x45 rfl (by decide) (by decide) (by omega) (fun _ w lit f _ => ?_)
  obtain ⟨e1, e2⟩ := watch_fields f
  have e3 : fld 2 1 0 = 2 := rfl
  have e4 : fld 2 31 2 = 0 := rfl
  simp [decodeU, decodeSystem, commandWord, f.op, f.sd, f.sb, e1, e2, e3, e4]

end System

/-- A word that is no instruction is the event that its issue is (R43). -/
theorem roundTrips_illegalEncoding (w) : RoundTrips (.illegalEncoding w) := by
  intro h
  have none : noInstr w.toNat = true := (Bool.and_eq_true_iff.mp h).1
  simp [decodeWords, encode, decode, baseWord, Instr.eform, Instr.lits, none]

/-- Every row of the opcode table reads back what it writes; an event has no words (R12–R24). -/
theorem roundTrips (i : Instr) : RoundTrips i := by
  cases i with
  | iadd => exact roundTrips_int2 .iadd 0x01
  | isub => exact roundTrips_int2 .isub 0x02
  | imul => exact roundTrips_int2 .imul 0x03
  | imulh => exact roundTrips_int2 .imulh 0x04
  | imulhu => exact roundTrips_int2 .imulhu 0x05
  | imad => exact roundTrips_int2 .imad 0x06
  | imin => exact roundTrips_int2 .imin 0x07
  | imax => exact roundTrips_int2 .imax 0x08
  | and => exact roundTrips_int2 .and 0x09
  | or => exact roundTrips_int2 .or 0x0A
  | xor => exact roundTrips_int2 .xor 0x0B
  | shl => exact roundTrips_int2 .shl 0x0C
  | shr => exact roundTrips_int2 .shr 0x0D
  | sar => exact roundTrips_int2 .sar 0x0E
  | iuny => apply roundTrips_iuny
  | iset => apply roundTrips_iset
  | fadd => exact roundTrips_fp2 .fadd 0x11
  | fsub => exact roundTrips_fp2 .fsub 0x12
  | fmul => exact roundTrips_fp2 .fmul 0x13
  | ffma => exact roundTrips_fp2 .ffma 0x14
  | fmin => exact roundTrips_fp2 .fmin 0x15
  | fmax => exact roundTrips_fp2 .fmax 0x16
  | fset => apply roundTrips_fset
  | funy => apply roundTrips_funy
  | fcvt => apply roundTrips_fcvt
  | hfma2 => exact roundTrips_fp2 .hfma2 0x1A
  | bfma2 => exact roundTrips_fp2 .bfma2 0x1B
  | mov => exact roundTrips_int1 .mov 0x20
  | cmov => apply roundTrips_cmov
  | lxor => exact roundTrips_int2 .lxor 0x22
  | lshf => exact roundTrips_int2 .lshf 0x23
  | lred => apply roundTrips_lred
  | lscan => apply roundTrips_lscan
  | matchv => exact roundTrips_int1 .matchv 0x26
  | cmpct => apply roundTrips_cmpct
  | ballot => exact roundTrips_int1 .ballot 0x28
  | mskop => apply roundTrips_mskop
  | mpopc => apply roundTrips_mpopc
  | draw => apply roundTrips_draw
  | catd => apply roundTrips_catd
  | dsskip => apply roundTrips_dsskip
  | dsfork => apply roundTrips_dsfork
  | dssetp => apply roundTrips_dssetp
  | dspos => apply roundTrips_dspos
  | gneval => apply roundTrips_gneval
  | ksig => apply roundTrips_ksig
  | ld => exact roundTrips_load .ld 0x40
  | lde => exact roundTrips_load .lde 0x41
  | ldnr => exact roundTrips_load .ldnr 0x42
  | st => apply roundTrips_st
  | ste => apply roundTrips_ste
  | stnt => apply roundTrips_stnt
  | pst => apply roundTrips_pst
  | atom => apply roundTrips_atom
  | atomr => apply roundTrips_atomr
  | cas => apply roundTrips_cas
  | cas128 => apply roundTrips_cas128
  | gath => apply roundTrips_gath
  | scat => apply roundTrips_scat
  | sisect => apply roundTrips_sisect
  | kst => apply roundTrips_kst
  | cpl => apply roundTrips_cpl
  | cpm => apply roundTrips_cpm
  | mmq => apply roundTrips_mmq
  | mmt => apply roundTrips_mmt
  | accrd => apply roundTrips_accrd
  | accwr => apply roundTrips_accwr
  | accpatch => apply roundTrips_accpatch
  | kgath => apply roundTrips_kgath
  | bra => apply roundTrips_bra
  | braKernelAbsolute => apply roundTrips_braKernelAbsolute
  | brm => apply roundTrips_brm
  | brmn => apply roundTrips_brmn
  | brz => apply roundTrips_brz
  | brnz => apply roundTrips_brnz
  | call => apply roundTrips_call
  | callKernelAbsolute => apply roundTrips_callKernelAbsolute
  | ret => apply roundTrips_ret
  | exit => apply roundTrips_exit
  | trap => apply roundTrips_trap
  | sadd => exact roundTrips_s .sadd 0x00 0
  | ssub => exact roundTrips_s .ssub 0x01 0
  | smul => exact roundTrips_s .smul 0x02 0
  | sand => exact roundTrips_s .sand 0x03 0
  | sor => exact roundTrips_s .sor 0x04 0
  | sxor => exact roundTrips_s .sxor 0x05 0
  | sshl => exact roundTrips_s .sshl 0x06 0
  | sshr => exact roundTrips_s .sshr 0x07 0
  | ssar => exact roundTrips_s .ssar 0x08 0
  | smin => exact roundTrips_s .smin 0x09 0
  | smax => exact roundTrips_s .smax 0x0A 0
  | smov => exact roundTrips_s .smov 0x0B 0
  | sset => apply roundTrips_sset
  | smovi => apply roundTrips_smovi
  | slui => apply roundTrips_slui
  | v2s => apply roundTrips_v2s
  | sbra => apply roundTrips_sbra
  | sbz => apply roundTrips_sbz
  | sbnz => apply roundTrips_sbnz
  | qrd => apply roundTrips_qrd
  | qst => apply roundTrips_qst
  | idrd => exact roundTrips_s .idrd 0x15 0
  | waitc => apply roundTrips_waitc
  | fence => apply roundTrips_fence
  | ntdrain => apply roundTrips_ntdrain
  | ldu => exact roundTrips_item .ldu 0x19 itemRegsOk
  | stu => exact roundTrips_item .stu 0x1A itemRegsOk
  | fstat => exact roundTrips_s .fstat 0x1B 0
  | nop => apply roundTrips_nop
  | nopLiteral => apply roundTrips_nopLiteral
  | hload _ _ x => exact roundTrips_s (fun sd sb => .hload sd sb x) 0x20 x.val
  | hadj _ _ x => exact roundTrips_s (fun sd sb => .hadj sd sb x) 0x21 x.val
  | hqry _ _ x => exact roundTrips_s (fun sd sb => .hqry sd sb x) 0x22 x.val
  | binit => apply roundTrips_binit
  | barrive => apply roundTrips_barrive
  | bexpect => apply roundTrips_bexpect
  | bwait => apply roundTrips_bwait
  | btest => apply roundTrips_btest
  | rqenq => exact roundTrips_item .rqenq 0x28 queueRegsOk
  | rqdeq => exact roundTrips_item .rqdeq 0x29 queueRegsOk
  | pgreq => apply roundTrips_pgreq
  | pfh => apply roundTrips_pfh
  | dsld => apply roundTrips_dsld
  | gnld => apply roundTrips_gnld
  | bld => apply roundTrips_bld
  | bfree => apply roundTrips_bfree
  | accz => apply roundTrips_accz
  | accst => apply roundTrips_accst
  | ksinit => apply roundTrips_ksinit
  | launch => apply roundTrips_launch
  | tapepush => apply roundTrips_tapepush
  | tret => apply roundTrips_tret
  | tfrd => exact roundTrips_s .tfrd 0x43 0
  | tfwr => exact roundTrips_s .tfwr 0x44 0
  | watchLoad => apply roundTrips_watchLoad
  | watchStore => apply roundTrips_watchStore
  | watchClr => apply roundTrips_watchClr
  | gend => apply roundTrips_gend
  | illegalEncoding => apply roundTrips_illegalEncoding
  | _ => exact fun h => Bool.noConfusion h

end Sys2Proof

namespace Sys2Proof.Proofs

/-- Settles O56, row by row of the opcode table: the fields of the words, then the codes in them. -/
theorem encodeDecodeRoundTrip : Obligations.EncodeDecodeRoundTrip := by
  unfold Obligations.EncodeDecodeRoundTrip
  exact fun i h => roundTrips i h

end Sys2Proof.Proofs

/-! SUPPORT. Control flow of the lanes: where a branch takes each lane, and the issue of a branch (R20, R167–R169). -/

namespace Sys2Proof.Machine

open Sys2Proof.Claims

/-! ## Targets -/

theorem ofInt_add_four_mul (pc : DWord) {n : Nat} (disp : BitVec n) :
    BitVec.ofInt 64 (pc.toNat + 4 * disp.toInt) = pc + 4 * disp.signExtend 64 := by
  rw [BitVec.ofInt_add, BitVec.ofInt_mul, BitVec.signExtend, BitVec.ofInt_natCast, BitVec.ofNat_toNat, BitVec.setWidth_eq]
  rfl

theorem relTarget_eq (c : Ctx) (disp : BitVec 16) : relTarget c.pc disp = Rules.relative c disp :=
  (ofInt_add_four_mul c.pc disp).symm

theorem absTarget_eq (c : Ctx) (off : Word) : absTarget c off = Rules.absolute c off := by
  apply BitVec.eq_of_toNat_eq
  simp [absTarget, Rules.absolute]

/-! ## An issue whose lanes move to targets of their own -/

/-- Lanes that are the same where they exist. -/
theorem Completes.congr {i : Instr} {s : State} {c : Ctx} {sr : SMap Word} {fps : BitVec 6} {ls rs : List Nat}
    {f f' : Nat → Lane → Lane} (h : Completes i s c sr fps ls rs f) (he : ∀ l x, c.g.lane? l = some x → f l x = f' l x) :
    Completes i s c sr fps ls rs f' := by
  obtain ⟨t, hx, hs, hb, ho, hp, g, hg, hsame, h1, h2, h3, hl⟩ := h
  refine ⟨t, hx, hs, hb, ho, hp, g, hg, hsame, h1, h2, h3, fun l => ?_⟩
  rw [hl]
  cases hx : c.g.lane? l with
  | none => rfl
  | some x => exact congrArg some (he l x hx)

/-- What a lane is after a commit. -/
def committed (outs : List LaneOut) (l : Nat) (x : Lane) : Lane :=
  match outs.find? (fun o => o.idx = l) with
  | some o => o.apply
  | none => x

theorem lane_commitG (outs : List LaneOut) (fl : FpStatus) (g : Group) (l : Nat) :
    (commitG outs fl g).lane? l = (g.lane? l).map (committed outs l) := by
  simp only [Group.lane?, commitG, List.getElem?_mapIdx]
  rfl

theorem dropSkips_keeps (g : Group) (pc : DWord) (ls : List Nat) :
    (dropSkips g pc ls).s = g.s ∧ (dropSkips g pc ls).fps = g.fps ∧ (dropSkips g pc ls).eop = g.eop := by
  unfold dropSkips
  split <;> exact ⟨rfl, rfl, rfl⟩

/-- The lanes of an issue are committed and move, each to its own target. -/
theorem LIssue.completes_of_move {q : LIssue} {p : LSpec} {s : State} {c : Ctx} {fl : FpStatus} {wl regs : List Nat}
    {target : Nat → DWord} {outs : List LaneOut} (hp : p.Plain q) (r : q.Enters s c)
    (hx : exec q.instr s = .next (markFocus (countIssue (moveLanes (commitLanes (p.spend c s) c.g.key outs fl) c.g.key c.pc
      (q.acting s c) target) c.g.key c.pc) 1))
    (hf : ∀ o ∈ outs, o.idx ∈ q.acting s c)
    (hw : ∀ l r, (∃ o ∈ outs, ∃ w ∈ o.writes, l = o.idx ∧ r = w.1) ↔ l ∈ wl ∧ r ∈ regs) :
    Completes q.instr s c c.g.s (c.g.fps ||| fl) wl regs (fun l x =>
      if l ∈ q.acting s c then { committed outs l x with pc := target l } else q.spent c l x) := by
  obtain ⟨hg, -⟩ := focusCtx_group r.ctx
  obtain ⟨g1, hg1, hs1, hss, hfps, heop, hl1⟩ := spend_group p hp hg
  have hg1' : findGroup (clearRegPoison (p.spend c s) c.g.key
      (outs.flatMap (fun o => o.writes.map (fun w => (o.idx, w.1))))) c.g.key = some g1 := by
    rw [findGroup_congr (clearRegPoison_groups _ _ _)]
    exact hg1
  have h2 : findGroup (commitLanes (p.spend c s) c.g.key outs fl) c.g.key = some (commitG outs fl g1) :=
    findGroup_updGroup_self (commitG outs fl) (fun _ => rfl) hg1'
  have h3 := moveLanes_group c.pc (q.acting s c) target h2
  have rest : SameGroup g1 (dropSkips ((commitG outs fl g1).mapLanes (q.acting s c)
      (fun l x => { x with pc := target l })) c.pc (q.acting s c)) :=
    SameGroup.trans (g' := (commitG outs fl g1).mapLanes (q.acting s c) (fun l x => { x with pc := target l })) rfl
      (sameGroup_dropSkips _ _ _)
  obtain ⟨ks, kf, ke⟩ := dropSkips_keeps ((commitG outs fl g1).mapLanes (q.acting s c) (fun l x => { x with pc := target l }))
    c.pc (q.acting s c)
  have done := completes_of_group (ls := wl) (rs := regs) (lane := fun l x =>
      if l ∈ q.acting s c then { committed outs l x with pc := target l } else q.spent c l x) hx
    (((sameElsewhere_spend p c s).trans ((sameElsewhere_clearRegPoison _ _ _).trans
      (sameElsewhere_updGroup _ _ _))).trans (sameElsewhere_updGroup _ _ _)) ?_ ?_ h3 (hs1.trans rest)
    (ke.trans heop) ?_
  · rw [ks, kf] at done
    have e1 : ((commitG outs fl g1).mapLanes (q.acting s c) (fun l x => { x with pc := target l })).s = c.g.s := hss
    have e2 : ((commitG outs fl g1).mapLanes (q.acting s c) (fun l x => { x with pc := target l })).fps = c.g.fps ||| fl :=
      congrArg (· ||| fl) hfps
    rw [e1, e2] at done
    exact done
  · have spent : SameOthers s (p.spend c s) c.g.key := by
      unfold LSpec.spend
      split
      · exact fun _ _ => rfl
      · exact sameOthers_updGroup _ (fun _ => rfl)
    exact (spent.trans (sameOthers_commit _ _ _ _)).trans (sameOthers_updGroup _ (fun g => (dropSkips_key _ _ _).trans rfl))
  · intro x
    show x ∈ (commitLanes (p.spend c s) c.g.key outs fl).poison ↔ _
    rw [poison_commit, spend_poison]
    refine and_congr_right (fun _ => not_congr ?_)
    constructor
    · rintro ⟨o, ho', w, hw', rfl⟩
      obtain ⟨hl, hr⟩ := (hw o.idx w.1).mp ⟨o, ho', w, hw', rfl, rfl⟩
      exact ⟨_, hl, _, hr, rfl⟩
    · rintro ⟨l, hl, r', hr', rfl⟩
      obtain ⟨o, ho', w, hw', rfl, rfl⟩ := (hw l r').mpr ⟨hl, hr'⟩
      exact ⟨o, ho', w, hw', rfl⟩
  · intro l
    rw [lane_dropSkips, lane_mapLanes, lane_commitG, hl1]
    cases c.g.lane? l with
    | none => rfl
    | some x =>
      simp only [Option.map_some, Option.some.injEq]
      by_cases hl : l ∈ q.acting s c
      · simp only [hl, if_true]
      · have none : outs.find? (fun o => o.idx = l) = none :=
          List.find?_eq_none.mpr (fun o ho he => hl (of_decide_eq_true he ▸ hf o ho))
        simp only [hl, if_false, committed, none]

/-! ## Branches -/

theorem mem_ins {q : LIssue} {s : State} {c : Ctx} {i : LaneIn} (h : i ∈ q.ins s c) :
    ∃ l x, l ∈ q.acting s c ∧ c.g.lane? l = some x ∧ i = ⟨l, q.drawn s c l x, (q.operands s c l x).1⟩ := by
  simp only [LIssue.ins, LIssue.over, List.mem_filterMap, Option.map_eq_some_iff] at h
  obtain ⟨l, hl, x, hx, rfl⟩ := h
  exact ⟨l, x, hl, hx, rfl⟩

theorem mem_ins_of_acting {q : LIssue} {s : State} {c : Ctx} {l : Nat} {x : Lane} (hl : l ∈ q.acting s c)
    (hx : c.g.lane? l = some x) : ⟨l, q.drawn s c l x, (q.operands s c l x).1⟩ ∈ q.ins s c := by
  simp only [LIssue.ins, LIssue.over, List.mem_filterMap, Option.map_eq_some_iff]
  exact ⟨l, hl, x, hx, rfl⟩

/-- What one lane of an issue brings, found by its number. -/
theorem find_map_ins {q : LIssue} {s : State} {c : Ctx} {α : Type} (f : LaneIn → α) (idx : α → Nat)
    (hf : ∀ i, idx (f i) = i.idx)
    {l : Nat} {x : Lane} (hl : l ∈ q.acting s c) (hx : c.g.lane? l = some x) :
    ((q.ins s c).map f).find? (fun o => idx o = l) = some (f ⟨l, q.drawn s c l x, (q.operands s c l x).1⟩) := by
  rw [LIssue.map_ins, find_over _ idx (fun l x => hf _), if_pos hl, hx]
  rfl

/-- A branch whose targets lie in the code: the lanes write the link and move, each to its own target (R167, R169). -/
theorem branch_completes {i : Instr} {u : Rules.BranchRule} {s : State} {c : Ctx} {next : Ctx → LaneIn → DWord}
    {link : Ctx → List (Nat × Word)}
    (hx : exec i s = branch (LSpec.mk0 i u.srcs []) next link s) (r : (branchIssue i u).Enters s c)
    (hn : ∀ l x, next ((branchIssue i u).on s c) ⟨l, (branchIssue i u).drawn s c l x, ((branchIssue i u).operands s c l x).1⟩ =
      u.target c ((branchIssue i u).operand s c l x 0) ((branchIssue i u).drawn s c l x))
    (hl : link ((branchIssue i u).on s c) =
      if u.link then [(declared c.ln c.g - 1, (c.nextPc - kernelBase c.ln c.g).setWidth 32)] else [])
    (hc : ∀ l ∈ (branchIssue i u).acting s c, ∀ x, c.g.lane? l = some x →
      inCode c.ln c.g (u.target c ((branchIssue i u).operand s c l x 0) ((branchIssue i u).drawn s c l x)) = true) :
    Completes i s c c.g.s c.g.fps ((branchIssue i u).acting s c) (Rules.linkRegs u.link c) (fun l x =>
      if l ∈ (branchIssue i u).acting s c then
        { Rules.linked u.link c ((branchIssue i u).drawn s c l x) with
          pc := u.target c ((branchIssue i u).operand s c l x 0) ((branchIssue i u).drawn s c l x) }
      else (branchIssue i u).spent c l x) := by
  generalize hq : branchIssue i u = q at *
  have hp : (LSpec.mk0 i u.srcs []).Plain q := hq ▸ LSpec.mk0_plain i u.srcs []
  have ho : (LSpec.mk0 i u.srcs []).Open q s c := ⟨rfl, rfl, rfl⟩
  have hi : q.instr = i := hq ▸ rfl
  let ts := (q.ins s c).map (fun i => (i.idx, next (q.on s c) i))
  let outs := (q.ins s c).map (fun i => (⟨i.idx, i.lane, link (q.on s c)⟩ : LaneOut))
  have good : badTargets (q.on s c) ts = [] := by
    simp only [badTargets, List.map_eq_nil_iff, List.filter_eq_nil_iff]
    intro t ht
    obtain ⟨j, hj, rfl⟩ := List.mem_map.mp ht
    obtain ⟨l, x, hl', hx', rfl⟩ := mem_ins hj
    have inside := hc l hl' x hx'
    rw [← hn] at inside
    have passes : ¬ (!inCode c.ln c.g (next (q.on s c) ⟨l, q.drawn s c l x, (q.operands s c l x).1⟩)) = true := by
      simp [inside]
    exact passes
  have run := hp.perLaneAt r ho false (by simp) (body := fun x => do
      let ts := x.ins.map (fun i => (i.idx, next x.c i))
      demandNone (badTargets x.c ts) cOperand 3
      let s := x.commit x.s (x.ins.map (fun i => ⟨i.idx, i.lane, link x.c⟩)) 0
      .ok (moveLanes s x.c.g.key x.c.pc x.c.act (targetOf x.c ts)))
    (s' := moveLanes (commitLanes ((LSpec.mk0 i u.srcs []).spend c s) c.g.key outs 0) c.g.key c.pc (q.acting s c)
      (targetOf (q.on s c) ts)) (by
        show (do demandNone (badTargets (q.on s c) ts) cOperand 3; _) = _
        rw [good]
        rfl)
  have done := LIssue.completes_of_move (wl := q.acting s c) (regs := Rules.linkRegs u.link c) hp r
    (hi ▸ hx.trans run) (fun o ho' => ?_) (fun l rg => ?_)
  · have status : c.g.fps ||| 0 = c.g.fps := BitVec.or_zero
    rw [hi, status] at done
    refine done.congr (fun l x hx' => ?_)
    by_cases hl' : l ∈ q.acting s c
    · have e1 : targetOf (q.on s c) ts l = u.target c (q.operand s c l x 0) (q.drawn s c l x) := by
        unfold targetOf
        rw [find_map_ins (fun i => (i.idx, next (q.on s c) i)) Prod.fst (fun _ => rfl) hl' hx']
        exact hn l x
      have e2 : committed outs l x = Rules.linked u.link c (q.drawn s c l x) := by
        unfold committed
        rw [find_map_ins (fun i => (⟨i.idx, i.lane, link (q.on s c)⟩ : LaneOut)) LaneOut.idx (fun _ => rfl) hl' hx']
        simp only [LaneOut.apply, hl, Rules.linked]
        split <;> rfl
      simp only [hl', if_true, e1, e2]
    · simp only [hl', if_false]
  · obtain ⟨j, hj, rfl⟩ := List.mem_map.mp ho'
    obtain ⟨l, x, hl', -, rfl⟩ := mem_ins hj
    exact hl'
  · constructor
    · rintro ⟨o, ho', w, hw, rfl, rfl⟩
      obtain ⟨j, hj, rfl⟩ := List.mem_map.mp ho'
      obtain ⟨l, x, hl', -, rfl⟩ := mem_ins hj
      refine ⟨hl', ?_⟩
      rw [hl] at hw
      unfold Rules.linkRegs
      split at hw
      · next e => simp [List.mem_singleton.mp hw, e]
      · cases hw
    · rintro ⟨hl', hr⟩
      obtain ⟨x, hx', -⟩ := LIssue.lane_of_acting r hl'
      refine ⟨_, List.mem_map_of_mem (mem_ins_of_acting hl' hx'), ?_⟩
      rw [hl]
      unfold Rules.linkRegs at hr
      split at hr
      · next e => rw [if_pos e]; exact ⟨_, List.mem_singleton_self _, rfl, List.mem_singleton.mp hr⟩
      · cases hr

/-! ## The instruction of each branch (R167–R169) -/

theorem exec_bra (d : BitVec 16) (s : State) :
    exec (.bra d) s = branch (LSpec.mk0 (.bra d) [] []) (fun c _ => relTarget c.pc d) (fun _ => []) s := rfl

theorem exec_braKernelAbsolute (off : Word) (s : State) :
    exec (.braKernelAbsolute off) s =
      branch (LSpec.mk0 (.braKernelAbsolute off) [] []) (fun c _ => absTarget c off) (fun _ => []) s := rfl

theorem exec_brm (m : MReg) (d : BitVec 16) (s : State) :
    exec (.brm m d) s = branch (LSpec.mk0 (.brm m d) [] [])
      (fun c i => if i.lane.mbit m.val then relTarget c.pc d else c.nextPc) (fun _ => []) s := rfl

theorem exec_brmn (m : MReg) (d : BitVec 16) (s : State) :
    exec (.brmn m d) s = branch (LSpec.mk0 (.brmn m d) [] [])
      (fun c i => if i.lane.mbit m.val then c.nextPc else relTarget c.pc d) (fun _ => []) s := rfl

theorem exec_brz (a : LSrc) (d : BitVec 16) (s : State) :
    exec (.brz a d) s = branch (LSpec.mk0 (.brz a d) [(.int, a)] [])
      (fun c i => if i.arg 0 = 0 then relTarget c.pc d else c.nextPc) (fun _ => []) s := rfl

theorem exec_brnz (a : LSrc) (d : BitVec 16) (s : State) :
    exec (.brnz a d) s = branch (LSpec.mk0 (.brnz a d) [(.int, a)] [])
      (fun c i => if i.arg 0 = 0 then c.nextPc else relTarget c.pc d) (fun _ => []) s := rfl

theorem exec_call (d : BitVec 16) (s : State) :
    exec (.call d) s = branch (LSpec.mk0 (.call d) [] []) (fun c _ => relTarget c.pc d) callLink s := rfl

theorem exec_callKernelAbsolute (off : Word) (s : State) :
    exec (.callKernelAbsolute off) s =
      branch (LSpec.mk0 (.callKernelAbsolute off) [] []) (fun c _ => absTarget c off) callLink s := rfl

theorem exec_ret (a : LSrc) (s : State) :
    exec (.ret a) s = branch (LSpec.mk0 (.ret a) [(.int, a)] []) (fun c i => absTarget c (i.arg 0)) (fun _ => []) s := rfl

end Sys2Proof.Machine

namespace Sys2Proof.Proofs

open Sys2Proof.Machine Sys2Proof.Claims

/-- Settles O14: each branch is one issue whose lanes move; what differs is the target, and CALL's link. -/
theorem branchMovesEachLane : Obligations.BranchMovesEachLane := by
  unfold Obligations.BranchMovesEachLane
  intro i u hu s c r hc
  cases i with
  | bra d =>
    cases hu
    exact branch_completes (exec_bra d s) r (fun _ _ => relTarget_eq c d) rfl hc
  | braKernelAbsolute off =>
    cases hu
    exact branch_completes (exec_braKernelAbsolute off s) r (fun _ _ => absTarget_eq c off) rfl hc
  | brm m d =>
    cases hu
    exact branch_completes (exec_brm m d s) r (fun _ _ => by simp only [← relTarget_eq]; rfl) rfl hc
  | brmn m d =>
    cases hu
    exact branch_completes (exec_brmn m d s) r (fun _ _ => by simp only [← relTarget_eq]; rfl) rfl hc
  | brz a d =>
    cases hu
    exact branch_completes (exec_brz a d s) r (fun _ _ => by simp only [← relTarget_eq]; rfl) rfl hc
  | brnz a d =>
    cases hu
    exact branch_completes (exec_brnz a d s) r (fun _ _ => by simp only [← relTarget_eq, ne_eq, ite_not]; rfl) rfl hc
  | call d =>
    cases hu
    exact branch_completes (exec_call d s) r (fun _ _ => relTarget_eq c d) rfl hc
  | callKernelAbsolute off =>
    cases hu
    exact branch_completes (exec_callKernelAbsolute off s) r (fun _ _ => absTarget_eq c off) rfl hc
  | ret a =>
    cases hu
    exact branch_completes (exec_ret a s) r (fun _ _ => absTarget_eq c _) rfl hc
  | _ => cases hu

end Sys2Proof.Proofs

/-! SUPPORT. The example words of the manual. -/

namespace Sys2Proof.Proofs

/-- Settles O55: the decoder is run on the manual's words. -/
theorem decodingOfWords : Obligations.DecodingOfWords := by
  unfold Obligations.DecodingOfWords
  decide

end Sys2Proof.Proofs

/-! SUPPORT. The values of operand codes (R21, R24, R185). -/

namespace Sys2Proof.Machine

open Sys2Proof.Claims

/-- The code of the whole number n that each floating-point position is specified to hold. -/
def wholeOf (t : SrcTy) (n : Nat) : Word :=
  match t with
  | .int => BitVec.ofNat 32 n
  | .fp32 => BitVec.ofNat 32 (codeOf 127 23 n)
  | .fp16 => BitVec.ofNat 32 (65537 * codeOf 15 10 n)
  | .bf16 => BitVec.ofNat 32 (65537 * codeOf 127 7 n)

theorem rne_fp32_eq_codeOf : ∀ n : Nat, n < 65 → rne .fp32 (ofInt n) = codeOf 127 23 n := by decide

theorem rne_fp16_eq_codeOf : ∀ n : Nat, n < 65 → rne .fp16 (ofInt n) = codeOf 15 10 n := by decide

theorem rne_bf16_eq_codeOf : ∀ n : Nat, n < 65 → rne .bf16 (ofInt n) = codeOf 127 7 n := by decide

/-- A lane's place and a group's width are exact in every operand position (R21). -/
theorem smallConst_eq_wholeOf (t : SrcTy) {n : Nat} (hn : n ≤ 64) : smallConst t n = wholeOf t n := by
  have lt : n < 65 := Nat.lt_succ_of_le hn
  cases t with
  | int => simp only [smallConst, wholeOf, BitVec.ofInt_natCast]
  | fp32 => simp only [smallConst, wholeOf, rne_fp32_eq_codeOf n lt]
  | fp16 => simp only [smallConst, wholeOf, rne_fp16_eq_codeOf n lt, Nat.mul_comm]
  | bf16 => simp only [smallConst, wholeOf, rne_bf16_eq_codeOf n lt, Nat.mul_comm]

theorem smallConst_zero (t : SrcTy) : smallConst t 0 = 0 := by
  cases t <;> decide

theorem readSrc_ds {s : State} {g : Group} {r : Fin 16} {im : DsImage} (h : dsOf g r.val = some im) (l : Nat) (t : SrcTy)
    (x : Lane) : readSrc s g l t (.ds r) x = drawValue s g im x := by
  simp only [readSrc, h]

end Sys2Proof.Machine

namespace Sys2Proof.Proofs

open Sys2Proof.Machine Sys2Proof.Claims

/-- Settles O54: the constants are computed, the lane's place by `smallConst_eq_wholeOf`, a draw by its kind. -/
theorem operandValues : Obligations.OperandValues := by
  unfold Obligations.OperandValues
  refine ⟨fun s g l x t => ?_, fun g c w r => ⟨rfl, rfl, rfl⟩, fun s g l t x r im hr => ?_⟩
  · refine ⟨congrArg (·, x) (smallConst_zero t), ?_, ?_, ?_, ?_, fun _ => rfl, fun _ => rfl, fun _ => rfl, fun hl hw => ?_⟩
    · cases t <;> exact congrArg (·, x) (by decide)
    · cases t <;> exact congrArg (·, x) (by decide)
    · cases t <;> exact congrArg (·, x) (by decide)
    · intro ht
      cases t with
      | int => exact absurd rfl ht
      | fp32 | fp16 | bf16 => rfl
    · exact ⟨congrArg (·, x) (smallConst_eq_wholeOf t (by omega)), congrArg (·, x) (smallConst_eq_wholeOf t (by omega)),
        congrArg (·, x) (smallConst_eq_wholeOf t hw)⟩
  · simp only [readSrc_ds hr]
    refine ⟨fun hk => ?_, fun hk => ?_, fun hk => ?_, fun hk => ?_⟩
    · simp only [drawValue, hk]; rfl
    · simp only [drawValue, hk]; rfl
    · simp only [drawValue, hk]; rfl
    · simp only [drawValue, hk, ← Nat.not_lt, ite_not, Nat.reducePow]

end Sys2Proof.Proofs

/-! SUPPORT. An issue turn runs the instruction at its PC (R318, R319). -/

namespace Sys2Proof.Machine

/-- The instruction at the focus, its words having been fetched and decoded. -/
theorem runFocus_of_decoded {s : State} {g : Group} {w : Wg} {ln : Launch} {ws : List Nat} {i : Instr}
    (hc : findCtx s s.focus.grp = some (g, w, ln)) (hf : fetch s ln s.focus.pc = .ok ws) (hi : decodeWords ws = .ok i) :
    runFocus s = exec i (touchCode s ln ws.length) := by
  simp only [runFocus, hc, hf, hi]

/-- A turn that names one PC is the issue there. -/
theorem step_issue {s : State} {k : GKey} {pc : DWord} {ts : List Turn} (ht : s.turns = .issue k pc none :: ts)
    (hi : issuable { s with turns := ts } k pc = true) (ha : alone { s with turns := ts } k pc = true) :
    step s = afterIssue { s with turns := ts } k (runFocus (focusAt { s with turns := ts } k pc none)) := by
  simp only [step, runNext, ht, runTurn, runIssue, hi, ha, Bool.and_self, if_true]

end Sys2Proof.Machine

namespace Sys2Proof.Proofs

open Sys2Proof.Machine

/-- Settles O57: the turn is the issue at its PC, and the issue there is the execution of what the words decode to. -/
theorem stepRunsDecodedInstruction : Obligations.StepRunsDecodedInstruction := by
  unfold Obligations.StepRunsDecodedInstruction
  intro s k pc ts g w ln ws i ht hi ha hc u hf hd
  rw [step_issue ht hi ha, runFocus_of_decoded (s := focusAt { s with turns := ts } k pc none) hc hf hd]
  unfold afterIssue
  cases exec i (touchCode (focusAt { s with turns := ts } k pc none) ln ws.length) <;> rfl

end Sys2Proof.Proofs

/-! SUPPORT. The scalar set: the values of its operations, and its issue (R150, R172–R175). -/

namespace Sys2Proof.Machine

open Sys2Proof.Claims

/-! ## Integer operations as arithmetic on the values -/

theorem add_eq_ofInt (x y : Word) : x + y = BitVec.ofInt 32 (x.toInt + y.toInt) := by
  rw [BitVec.ofInt_add, BitVec.ofInt_toInt, BitVec.ofInt_toInt]

theorem sub_eq_ofInt (x y : Word) : x - y = BitVec.ofInt 32 (x.toInt - y.toInt) := by
  apply BitVec.eq_of_toInt_eq
  rw [BitVec.toInt_sub, BitVec.toInt_ofInt]

theorem mul_eq_ofInt (x y : Word) : x * y = BitVec.ofInt 32 (x.toInt * y.toInt) := by
  rw [BitVec.ofInt_mul, BitVec.ofInt_toInt, BitVec.ofInt_toInt]

theorem shlW_eq (x y : Word) : shlW x y = BitVec.ofNat 32 (x.toNat * 2 ^ y.toNat) := by
  apply BitVec.eq_of_toNat_eq
  unfold shlW
  split
  · rw [BitVec.toNat_shiftLeft, BitVec.toNat_ofNat, Nat.shiftLeft_eq]
  · next h =>
    have big : 2 ^ 32 ∣ x.toNat * 2 ^ y.toNat := (Nat.pow_dvd_pow 2 (Nat.le_of_not_lt h)).mul_left _
    rw [BitVec.toNat_ofNat, Nat.mod_eq_zero_of_dvd big]
    rfl

theorem shrW_eq (x y : Word) : shrW x y = BitVec.ofNat 32 (x.toNat / 2 ^ y.toNat) := by
  apply BitVec.eq_of_toNat_eq
  have small : x.toNat / 2 ^ y.toNat < 2 ^ 32 := Nat.lt_of_le_of_lt (Nat.div_le_self _ _) x.isLt
  rw [BitVec.toNat_ofNat, Nat.mod_eq_of_lt small]
  unfold shrW
  split
  · rw [BitVec.toNat_ushiftRight, Nat.shiftRight_eq_div_pow]
  · next h =>
    have big : x.toNat < 2 ^ y.toNat := Nat.lt_of_lt_of_le x.isLt (Nat.pow_le_pow_right (by decide) (Nat.le_of_not_lt h))
    rw [Nat.div_eq_of_lt big]
    rfl

/-- From 31 places on, a shift of a 32-bit integer leaves its sign. -/
theorem int_div_two_pow_of_le {z : Int} (lo : -2 ^ 31 ≤ z) (hi : z < 2 ^ 31) {n : Nat} (hn : 31 ≤ n) :
    z / 2 ^ n = z / 2 ^ 31 := by
  obtain ⟨m, rfl⟩ := Nat.exists_eq_add_of_le hn
  have pos : (0 : Int) < 2 ^ m := Int.pow_pos (by decide)
  rw [Int.pow_add, ← Int.ediv_ediv_of_nonneg (by decide)]
  rcases lt_or_ge z 0 with h | h
  · have e : z / 2 ^ 31 = -1 := by omega
    rw [e, Int.neg_one_ediv, Int.sign_eq_one_of_pos pos]
  · have e : z / 2 ^ 31 = 0 := by omega
    rw [e, Int.zero_ediv]

theorem sarW_eq (x y : Word) : sarW x y = BitVec.ofInt 32 (x.toInt / 2 ^ y.toNat) := by
  have lo : -2 ^ 31 ≤ x.toInt := x.le_toInt
  have hi : x.toInt < 2 ^ 31 := x.toInt_lt
  show BitVec.ofInt 32 (x.toInt >>> (min y.toNat 31)) = _
  rw [Int.shiftRight_eq_div_pow]
  rcases Nat.le_total y.toNat 31 with h | h
  · rw [Nat.min_eq_left h]; rfl
  · rw [Nat.min_eq_right h, int_div_two_pow_of_le lo hi h]; rfl

theorem sminW_eq (x y : Word) : sminW x y = if y.toInt < x.toInt then y else x := by
  simp only [sminW, BitVec.slt, decide_eq_true_eq]

theorem smaxW_eq (x y : Word) : smaxW x y = if x.toInt < y.toInt then y else x := by
  simp only [smaxW, BitVec.slt, decide_eq_true_eq]

theorem condI_eq (c : ICond) (x y : Word) : condI c x y = Rules.icond c x y := by
  cases c with
  | eq => exact beq_eq_decide x y
  | ne => simp only [condI, Rules.icond, bne, beq_eq_decide, decide_not]
  | lt | le | gt | ge | ltu | leu | gtu | geu => rfl

theorem signExtend_eq_ofInt (imm : BitVec 15) : imm.signExtend 32 = BitVec.ofInt 32 imm.toInt := rfl

theorem slui_eq (imm : BitVec 15) (x : Word) :
    (imm.setWidth 32 <<< 17) ||| (x &&& 0x0001FFFF) = BitVec.ofNat 32 (imm.toNat * 2 ^ 17 + x.toNat % 2 ^ 17) := by
  apply BitVec.eq_of_toNat_eq
  have hi := imm.isLt
  have low : x.toNat &&& 0x1FFFF = x.toNat % 2 ^ 17 := Nat.and_two_pow_sub_one_eq_mod x.toNat 17
  have high : (imm.toNat % 2 ^ 32) <<< 17 % 2 ^ 32 = imm.toNat <<< 17 := by
    rw [Nat.shiftLeft_eq]; omega
  rw [BitVec.toNat_or, BitVec.toNat_and, BitVec.toNat_shiftLeft, BitVec.toNat_setWidth, BitVec.toNat_ofNat, high,
    show (0x0001FFFF : Word).toNat = 0x1FFFF from rfl, low, ← Nat.shiftLeft_add_eq_or_of_lt (Nat.mod_lt _ (by decide)),
    Nat.shiftLeft_eq]
  omega

/-! ## An issue that moves its population as one -/

/-- An instruction for its whole population, which has changed no more than the scalar registers and FP status of its group, moves
the population to one target (R172). -/
theorem uDone_of_settle {i : Instr} {s s1 : State} {c : Ctx} {g1 : Group} {t : DWord}
    (hx : exec i s = c.settle s (.ok (moveLanes s1 c.g.key c.pc c.act (fun _ => t)))) (he : SameElsewhere s s1)
    (ho : SameOthers s s1 c.g.key) (hp : s1.poison = s.poison) (hg : findGroup s1 c.g.key = some g1)
    (h1 : g1 = { c.g with s := g1.s, fps := g1.fps }) : UDone i s c g1.s g1.fps t := by
  have moved := moveLanes_group c.pc c.act (fun _ => t) hg
  have same : SameGroup c.g g1 := by rw [h1]; rfl
  have eop : g1.eop = c.g.eop := (congrArg Group.eop h1).trans rfl
  have lanes : g1.lanes = c.g.lanes := (congrArg Group.lanes h1).trans rfl
  obtain ⟨ks, kf, ke⟩ := dropSkips_keeps (g1.mapLanes c.act (fun _ x => { x with pc := t })) c.pc c.act
  have done := completes_of_group (ls := []) (rs := []) (lane := fun l x => if l ∈ c.act then { x with pc := t } else x) hx
    (he.trans (sameElsewhere_updGroup _ _ _)) (ho.trans (sameOthers_updGroup _ (fun g => by rw [dropSkips_key]; rfl)))
    (fun p => by simp [moveLanes, updGroup, hp]) moved
    (same.trans (SameGroup.trans (g' := g1.mapLanes c.act (fun _ x => { x with pc := t })) rfl (sameGroup_dropSkips _ _ _)))
    (ke.trans eop) (fun l => by rw [lane_dropSkips, lane_mapLanes]; simp only [Group.lane?, lanes])
  rw [ks, kf] at done
  exact done

theorem uDone_of_move {i : Instr} {s : State} {c : Ctx} {t : DWord} (hc : focusCtx s i.len = some c)
    (hx : exec i s = c.settle s (.ok (moveLanes s c.g.key c.pc c.act (fun _ => t)))) : UDone i s c c.g.s c.g.fps t :=
  uDone_of_settle hx (SameElsewhere.rfl' s) (fun _ _ => rfl) rfl (focusCtx_group hc).1 rfl

/-! ## Scalar instructions (R173, R174, R160) -/

theorem uniformGroup_done {i : Instr} {f : Group → Group} {s : State} {c : Ctx}
    (hx : exec i s = uniform i (fun c s => .ok (updGroup s c.g.key f)) s) (hr : Stands s c i.len)
    (hf : ∀ g, f g = { g with s := (f g).s, fps := (f g).fps }) : UDone i s c (f c.g).s (f c.g).fps c.nextPc :=
  uniform_done hx hr rfl hf

theorem scalarOp_done {i : Instr} {sd : SReg} {sb : USrc} {f : Word → Word → Word} {s : State} {c : Ctx}
    (hx : exec i s = scalarOp i sd sb f s) (hr : Stands s c i.len) :
    UDone i s c (mapSet 0 c.g.s sd.val (f (c.g.sreg sd.val) (readU c.g sb))) c.g.fps c.nextPc :=
  uniformGroup_done (f := fun g => g.setS sd.val (f (g.sreg sd.val) (readU g sb))) hx hr (fun _ => rfl)

/-! ## The U-set branches and NOP (R29, R172) -/

theorem uniformBranch_done {i : Instr} {d : BitVec 15} {taken : Ctx → Bool} {s : State} {c : Ctx}
    (hx : exec i s = uniformBranch i d taken s) (hc : focusCtx s i.len = some c)
    (ht : inCode c.ln c.g (if taken c then BitVec.ofInt 64 (c.pc.toNat + 4 * d.toInt) else c.nextPc) = true) :
    UDone i s c c.g.s c.g.fps (if taken c then BitVec.ofInt 64 (c.pc.toNat + 4 * d.toInt) else c.nextPc) := by
  refine uDone_of_move hc ?_
  rw [ofInt_add_four_mul] at ht ⊢
  simp only [hx, uniformBranch, hc, demand, ht, if_true]
  rfl

theorem nop_done {i : Instr} {s : State} {c : Ctx} (hx : exec i s = uniform i (fun _ s => .ok s) s)
    (hc : focusCtx s i.len = some c) (ht : inCode c.ln c.g c.nextPc = true) : UDone i s c c.g.s c.g.fps c.nextPc := by
  refine uDone_of_move hc ?_
  simp only [hx, uniform, hc, fallOk_ok ht]
  rfl

/-! ## V2S (R175) -/

theorem lt_width_of_mem_act {s : State} {n : Nat} {c : Ctx} (hc : focusCtx s n = some c) {l : Nat} (hl : l ∈ c.act) :
    l < c.g.width := by
  obtain ⟨-, -, -, -, act, -⟩ := focusCtx_group hc
  obtain ⟨x, hx, -⟩ := mem_act (act ▸ hl)
  exact (List.getElem?_eq_some_iff.mp hx).1

theorem differing_eq_nil {vs : List (Nat × Word)} {w : Word} (h : ∀ p ∈ vs, p.2 = w) : differing vs = [] := by
  cases vs with
  | nil => rfl
  | cons p ps =>
    have hp : p.2 = w := h p (List.mem_cons_self ..)
    simp only [differing, List.map_eq_nil_iff, List.filter_eq_nil_iff]
    intro q hq
    simp [h q (List.mem_cons_of_mem _ hq), hp]

/-- The word that V2S copies: a named lane's, or that of the first lane. -/
def v2sWord (named : Bool) (v : VReg) (x : Fin 64) (c : Ctx) : Word :=
  match c.g.lane? (if named then x.val else c.act.headD 0) with
  | some y => y.vreg v.val
  | none => 0

/-- V2S, all of its checks passed. -/
theorem v2s_done {sd : SReg} {lane : Bool} {v : VReg} {x : Fin 64} {s : State} {c : Ctx} {named : Bool}
    (hn : (lane || x.val != 63) = named) (hr : Stands s c 1) (hv : v.val < declared c.ln c.g)
    (hin : named = true → x.val ∈ c.act ∧ Clean s c [x.val] [v.val])
    (hun : named = false → Clean s c c.act [v.val] ∧ differing (c.vregs v.val) = []) :
    UDone (.v2s sd lane v x) s c (mapSet 0 c.g.s sd.val (v2sWord named v x c)) c.g.fps c.nextPc := by
  obtain ⟨hg, -⟩ := focusCtx_group hr.ctx
  refine uDone_of_settle (g1 := c.g.setS sd.val (v2sWord named v x c))
    (s1 := updGroup s c.g.key (fun g => g.setS sd.val (v2sWord named v x c))) ?_ (sameElsewhere_updGroup _ _ _)
    (sameOthers_updGroup _ (fun _ => rfl)) rfl (findGroup_updGroup_self _ (fun _ => rfl) hg) rfl
  show execV2s sd lane v x s = _
  simp only [execV2s, hr.ctx, hn, demand, demandNone, hv, fallOk_ok hr.falls, v2sWord]
  cases named with
  | true =>
    obtain ⟨hx, clean⟩ := hin rfl
    have clear : PoisonLoc.vreg c.g.key x.val v.val ∉ s.poison :=
      clean _ (List.mem_singleton_self _) _ (List.mem_singleton_self _)
    simp [lt_width_of_mem_act hr.ctx hx, hx, clear, Ctx.advance, bind, Except.bind] <;> rfl
  | false =>
    obtain ⟨clean, same⟩ := hun rfl
    have clear : ∀ l ∈ c.act, PoisonLoc.vreg c.g.key l v.val ∉ s.poison :=
      fun l hl => clean l hl _ (List.mem_singleton_self _)
    simp +contextual [same, clear, Ctx.advance, bind, Except.bind] <;> rfl

theorem v2sWord_of_named {v : VReg} {x : Fin 64} {c : Ctx} {y : Lane} (hy : c.g.lane? x.val = some y) :
    v2sWord true v x c = y.vreg v.val := by
  simp only [v2sWord, if_true, hy]

theorem v2sWord_of_uniform {s : State} {n : Nat} {v : VReg} {x : Fin 64} {c : Ctx} {w : Word} (hc : focusCtx s n = some c)
    (hw : ∀ l ∈ c.act, ∀ y, c.g.lane? l = some y → y.vreg v.val = w) : v2sWord false v x c = w := by
  obtain ⟨-, -, -, -, act, some, -⟩ := focusCtx_group hc
  obtain ⟨l, ls, e⟩ := List.exists_cons_of_ne_nil some
  have hl : l ∈ c.act := e ▸ List.mem_cons_self ..
  obtain ⟨y, hy, -⟩ := mem_act (act ▸ hl)
  simp only [v2sWord, e, List.headD_cons, Bool.false_eq_true, if_false, hy]
  exact hw l hl y hy

theorem vregs_eq {s : State} {n : Nat} {v : Nat} {c : Ctx} {w : Word} (hc : focusCtx s n = some c)
    (hw : ∀ l ∈ c.act, ∀ y, c.g.lane? l = some y → y.vreg v = w) : ∀ p ∈ c.vregs v, p.2 = w := by
  obtain ⟨-, -, -, -, act, -⟩ := focusCtx_group hc
  intro p hp
  obtain ⟨l, hl, rfl⟩ := List.mem_map.mp hp
  obtain ⟨y, hy, -⟩ := mem_act (act ▸ hl)
  simp only [hy]
  exact hw l hl y hy

end Sys2Proof.Machine

namespace Sys2Proof.Proofs

open Sys2Proof.Machine Sys2Proof.Claims

/-- The scalar instructions, each by the value of its operation. -/
theorem scalarRule_done {i : Instr} {u : Rules.ScalarRule} (hu : Rules.scalarRule i = some u) {s : State} {c : Ctx}
    (hr : Stands s c i.len) :
    UDone i s c (mapSet 0 c.g.s u.sd.val (u.val c.g)) (Rules.statusAfter i c.g) c.nextPc := by
  cases i with
  | sadd d b => cases hu; simp only [← add_eq_ofInt]; exact scalarOp_done (f := fun x y => x + y) rfl hr
  | ssub d b => cases hu; simp only [← sub_eq_ofInt]; exact scalarOp_done (f := fun x y => x - y) rfl hr
  | smul d b => cases hu; simp only [← mul_eq_ofInt]; exact scalarOp_done (f := fun x y => x * y) rfl hr
  | sand d b => cases hu; exact scalarOp_done (f := fun x y => x &&& y) rfl hr
  | sor d b => cases hu; exact scalarOp_done (f := fun x y => x ||| y) rfl hr
  | sxor d b => cases hu; exact scalarOp_done (f := fun x y => x ^^^ y) rfl hr
  | sshl d b => cases hu; simp only [← shlW_eq]; exact scalarOp_done (f := shlW) rfl hr
  | sshr d b => cases hu; simp only [← shrW_eq]; exact scalarOp_done (f := shrW) rfl hr
  | ssar d b => cases hu; simp only [← sarW_eq]; exact scalarOp_done (f := sarW) rfl hr
  | smin d b => cases hu; simp only [← sminW_eq]; exact scalarOp_done (f := sminW) rfl hr
  | smax d b => cases hu; simp only [← smaxW_eq]; exact scalarOp_done (f := smaxW) rfl hr
  | smov d b => cases hu; exact scalarOp_done (f := fun _ y => y) rfl hr
  | sset k d b => cases hu; simp only [← condI_eq]; exact scalarOp_done (f := fun x y => if condI k x y then 1 else 0) rfl hr
  | smovi d imm =>
    cases hu
    simp only [← signExtend_eq_ofInt]
    exact uniformGroup_done (f := fun g => g.setS d.val (imm.signExtend 32)) rfl hr (fun _ => rfl)
  | slui d imm =>
    cases hu
    simp only [← slui_eq]
    exact uniformGroup_done (f := fun g => g.setS d.val ((imm.setWidth 32 <<< 17) ||| (g.sreg d.val &&& 0x0001FFFF))) rfl hr
      (fun _ => rfl)
  | fstat d b =>
    cases hu
    exact uniformGroup_done (f := fun g => { g.setS d.val (g.fps.setWidth 32) with fps := clearStatus g.fps (readU g b) }) rfl hr
      (fun _ => rfl)
  | _ => cases hu

/-- The U-set branches and NOP move the whole population. -/
theorem uniformTarget_done {i : Instr} {s : State} {c : Ctx} {t : DWord} (hc : focusCtx s i.len = some c)
    (ht : uniformTarget c i = some t) (hin : inCode c.ln c.g t = true) : UDone i s c c.g.s c.g.fps t := by
  cases i with
  | nop => cases ht; exact nop_done rfl hc hin
  | nopLiteral a b w => cases ht; exact nop_done rfl hc hin
  | sbra d => cases ht; exact uniformBranch_done (taken := fun _ => true) rfl hc hin
  | sbz r d =>
    cases ht
    simpa using uniformBranch_done (taken := fun c => c.g.sreg r.val == 0) rfl hc (by simpa using hin)
  | sbnz r d =>
    cases ht
    simpa using uniformBranch_done (taken := fun c => c.g.sreg r.val != 0) rfl hc (by simpa using hin)
  | _ => cases ht

/-- Settles O15: the scalar set through `uniform_done`, the branches and V2S as moves of the whole population. -/
theorem scalarInstructions : Obligations.ScalarInstructions := by
  unfold Obligations.ScalarInstructions
  refine ⟨fun i u hu s c hr => scalarRule_done hu hr, fun i s c t hc ht hin => uniformTarget_done hc ht hin, ?_⟩
  intro sd lane v x s c w hr hv hnamed huniform
  cases hn : lane || x.val != 63 with
  | true =>
    obtain ⟨hx, clean, y, hy, rfl⟩ := hnamed (by simpa using hn)
    rw [← v2sWord_of_named hy]
    exact v2s_done hn hr hv (fun _ => ⟨hx, clean⟩) (fun h => by cases h)
  | false =>
    simp only [Bool.or_eq_false_iff, bne_eq_false_iff_eq] at hn
    obtain ⟨clean, hw⟩ := huniform hn.1 hn.2
    rw [← v2sWord_of_uniform (x := x) hr.ctx hw]
    exact v2s_done (by simp [hn]) hr hv (fun h => by cases h) (fun _ => ⟨clean, differing_eq_nil (vregs_eq hr.ctx hw)⟩)

end Sys2Proof.Proofs

/-! SUPPORT. The trap frame as it is read back, and what the entry of the handler leaves of memory (R51, R336–R338). -/

namespace Sys2Proof.Machine

open Sys2Proof.Claims

/-! ## The fields of the frame (R337) -/

/-- The bytes that a field of the frame takes. -/
def Covers (f : Nat × Nat × Nat) (j : Nat) : Prop := f.1 ≤ j ∧ j < f.1 + f.2.1

/-- Two fields that share no byte. -/
def Apart (f f' : Nat × Nat × Nat) : Prop := f.1 + f.2.1 ≤ f'.1 ∨ f'.1 + f'.2.1 ≤ f.1

/-- Of a list of fields apart from each other, only one takes a byte. -/
theorem eq_of_covers {fs : List (Nat × Nat × Nat)} (hp : fs.Pairwise Apart) {f f' : Nat × Nat × Nat}
    (hf : f ∈ fs) (hf' : f' ∈ fs)
    {j : Nat} (h : Covers f j) (h' : Covers f' j) : f' = f := by
  by_contra hne
  have : Std.Symm Apart := ⟨fun _ _ h => h.symm⟩
  have apart : Apart f' f := hp.forall hf' hf hne
  unfold Apart at apart
  unfold Covers at h h'
  omega

theorem blockPut_eq (b : SMap Byte) (off n v : Nat) :
    blockPut b off n v =
      ((List.range n).map (off + ·)).foldl (fun b j => mapSet 0 b j (BitVec.ofNat 8 (v / 256 ^ (j - off)))) b := by
  simp only [blockPut, List.foldl_map, Nat.add_sub_cancel_left]

theorem mapWf_blockPut {b : SMap Byte} (h : mapWf 0 b = true) (off n v : Nat) : mapWf 0 (blockPut b off n v) = true := by
  rw [blockPut_eq]
  exact mapWf_foldl_mapSet _ _ h

open Classical in
theorem mapGet_blockPut {b : SMap Byte} (h : mapWf 0 b = true) (f : Nat × Nat × Nat) (j : Nat) :
    mapGet 0 (blockPut b f.1 f.2.1 f.2.2) j =
      if Covers f j then BitVec.ofNat 8 (f.2.2 / 256 ^ (j - f.1)) else mapGet 0 b j := by
  rw [blockPut_eq, mapGet_foldl_mapSet _ _ h]
  have mem : j ∈ (List.range f.2.1).map (f.1 + ·) ↔ Covers f j := by
    simp only [List.mem_map, List.mem_range, Covers]
    constructor
    · rintro ⟨i, hi, rfl⟩; omega
    · rintro ⟨h1, h2⟩; exact ⟨j - f.1, by omega, by omega⟩
  simp only [mem]

theorem mem_blockPut {b : SMap Byte} {off n v : Nat} {x : Nat × Byte} (h : x ∈ blockPut b off n v) :
    x.1 < off + n ∨ x ∈ b := by
  rw [blockPut_eq] at h
  refine (mem_foldl_mapSet h).imp_left (fun hx => ?_)
  obtain ⟨i, hi, e⟩ := List.mem_map.mp hx
  have := List.mem_range.mp hi
  omega

theorem mapWf_frameBlock (fs : List (Nat × Nat × Nat)) : mapWf 0 (frameBlock fs) = true := by
  have go : ∀ (fs : List (Nat × Nat × Nat)) (b : SMap Byte), mapWf 0 b = true →
      mapWf 0 (fs.foldl (fun b f => blockPut b f.1 f.2.1 f.2.2) b) = true := by
    intro fs
    induction fs with
    | nil => intro b h; exact h
    | cons f fs ih => intro b h; exact ih _ (mapWf_blockPut h ..)
  exact go fs [] rfl

theorem mem_frameBlock {fs : List (Nat × Nat × Nat)} {n : Nat} (hn : ∀ f ∈ fs, f.1 + f.2.1 ≤ n) :
    ∀ x ∈ frameBlock fs, x.1 < n := by
  have go : ∀ (fs : List (Nat × Nat × Nat)) (b : SMap Byte), (∀ f ∈ fs, f.1 + f.2.1 ≤ n) → (∀ x ∈ b, x.1 < n) →
      ∀ x ∈ fs.foldl (fun b f => blockPut b f.1 f.2.1 f.2.2) b, x.1 < n := by
    intro fs
    induction fs with
    | nil => intro b _ h; exact h
    | cons f fs ih =>
      intro b hn h
      refine ih _ (fun g hg => hn g (List.mem_cons_of_mem _ hg)) (fun x hx => ?_)
      have := hn f (List.mem_cons_self ..)
      rcases mem_blockPut hx with hx | hx
      · omega
      · exact h x hx
  exact go fs [] hn (fun x hx => by cases hx)

/-- Each byte of a block is that of the field that takes it. -/
theorem mapGet_frameBlock {fs : List (Nat × Nat × Nat)} (hp : fs.Pairwise Apart) {f : Nat × Nat × Nat} (hf : f ∈ fs) {j : Nat}
    (hj : Covers f j) : mapGet 0 (frameBlock fs) j = BitVec.ofNat 8 (f.2.2 / 256 ^ (j - f.1)) := by
  have one : ∀ f' ∈ fs, Covers f' j → f' = f := fun f' hf' h' => eq_of_covers hp hf hf' hj h'
  have go : ∀ (fs : List (Nat × Nat × Nat)) (b : SMap Byte), mapWf 0 b = true → (∀ f' ∈ fs, Covers f' j → f' = f) →
      (f ∈ fs ∨ mapGet 0 b j = BitVec.ofNat 8 (f.2.2 / 256 ^ (j - f.1))) →
      mapGet 0 (fs.foldl (fun b f => blockPut b f.1 f.2.1 f.2.2) b) j = BitVec.ofNat 8 (f.2.2 / 256 ^ (j - f.1)) := by
    intro fs
    induction fs with
    | nil => intro b _ _ h; exact h.resolve_left (by simp)
    | cons f' fs ih =>
      intro b hb one h
      refine ih _ (mapWf_blockPut hb ..) (fun g hg => one g (List.mem_cons_of_mem _ hg)) ?_
      rw [mapGet_blockPut hb]
      by_cases hc : Covers f' j
      · rw [if_pos hc, one f' (List.mem_cons_self ..) hc]
        exact Or.inr rfl
      · rw [if_neg hc]
        refine h.imp_left (fun hm => (List.mem_cons.mp hm).resolve_left (fun e => hc (by rw [← e]; exact hj)))
  exact go fs [] rfl one (Or.inl hf)

/-- A lane of a group that is live. -/
theorem lt_width_of_mem_live {g : Group} {l : Nat} (h : l ∈ g.live) : l < g.width := by
  unfold Group.live at h
  exact List.mem_range.mp (List.mem_filter.mp h).1

theorem live_pairwise (g : Group) : g.live.Pairwise (· < ·) := by
  unfold Group.live
  exact List.pairwise_lt_range.filter _

/-- Fields that share no byte and take theirs between two offsets. -/
structure Packed (lo hi : Nat) (fs : List (Nat × Nat × Nat)) : Prop where
  apart : fs.Pairwise Apart
  within : ∀ f ∈ fs, lo ≤ f.1 ∧ f.1 + f.2.1 ≤ hi

namespace Packed

theorem nil (lo hi : Nat) : Packed lo hi [] := ⟨List.Pairwise.nil, fun f hf => by cases hf⟩

theorem cons {lo hi off n v : Nat} {fs : List (Nat × Nat × Nat)} (hlo : lo ≤ off) (hhi : off + n ≤ hi)
    (h : Packed (off + n) hi fs) : Packed lo hi ((off, n, v) :: fs) := by
  refine ⟨List.pairwise_cons.mpr ⟨fun f hf => Or.inl (h.within f hf).1, h.apart⟩, fun f hf => ?_⟩
  rcases List.mem_cons.mp hf with rfl | hf
  · exact ⟨hlo, hhi⟩
  · obtain ⟨h1, h2⟩ := h.within f hf
    exact ⟨by omega, h2⟩

theorem append {a b c d : Nat} {fs gs : List (Nat × Nat × Nat)} (h : Packed a b fs) (h' : Packed c d gs)
    (hac : a ≤ c) (hbc : b ≤ c) (hbd : b ≤ d) : Packed a d (fs ++ gs) := by
  refine ⟨List.pairwise_append.mpr ⟨h.apart, h'.apart, fun f hf g hg => Or.inl ?_⟩, fun f hf => ?_⟩
  · exact ((h.within f hf).2.trans hbc).trans (h'.within g hg).1
  · rcases List.mem_append.mp hf with hf | hf
    · exact ⟨(h.within f hf).1, (h.within f hf).2.trans hbd⟩
    · exact ⟨hac.trans (h'.within f hf).1, (h'.within f hf).2⟩

/-- Entries of one size, one behind the other. -/
theorem table (off size n : Nat) (v : Nat → Nat) :
    Packed off (off + size * n) ((List.range n).map (fun i => (off + size * i, size, v i))) := by
  refine ⟨List.pairwise_map.mpr (List.pairwise_lt_range.imp (fun {i j} hij => Or.inl ?_)), fun f hf => ?_⟩
  · have := Nat.mul_le_mul_left size hij
    rw [Nat.mul_succ] at this
    show off + size * i + size ≤ off + size * j
    omega
  · obtain ⟨i, hi, rfl⟩ := List.mem_map.mp hf
    have := Nat.mul_le_mul_left size (List.mem_range.mp hi)
    rw [Nat.mul_succ] at this
    exact ⟨Nat.le_add_right .., by show off + size * i + size ≤ _; omega⟩

end Packed

/-- The saved words of v0–v7, of the live lanes. -/
theorem packed_saved {ls : List Nat} (hs : ls.Pairwise (· < ·)) (hl : ∀ l ∈ ls, l < 64) (v : Nat → Nat → Nat) :
    Packed 0x200 0xA00 (ls.flatMap (fun l => (List.range 8).map (fun r => (0x200 + 256 * r + 4 * l, 4, v l r)))) := by
  refine ⟨List.pairwise_flatMap.mpr ⟨fun l _ => List.pairwise_map.mpr (List.pairwise_lt_range.imp (fun h => ?_)), ?_⟩, ?_⟩
  · exact Or.inl (by dsimp only; omega)
  · refine List.Pairwise.imp_of_mem (fun {l l'} ml ml' h f hf f' hf' => ?_) hs
    obtain ⟨r, hr, rfl⟩ := List.mem_map.mp hf
    obtain ⟨r', hr', rfl⟩ := List.mem_map.mp hf'
    have := hl l ml
    have := hl l' ml'
    show 0x200 + 256 * r + 4 * l + 4 ≤ 0x200 + 256 * r' + 4 * l' ∨ 0x200 + 256 * r' + 4 * l' + 4 ≤ 0x200 + 256 * r + 4 * l
    omega
  · intro f hf
    obtain ⟨l, ml, hf⟩ := List.mem_flatMap.mp hf
    obtain ⟨r, hr, rfl⟩ := List.mem_map.mp hf
    have := hl l ml
    have := List.mem_range.mp hr
    show 0x200 ≤ 0x200 + 256 * r + 4 * l ∧ 0x200 + 256 * r + 4 * l + 4 ≤ 0xA00
    omega

/-- The fields of a frame share no byte and lie in its 4 KiB (R337). -/
theorem packed_frameFields {g : Group} (hw : g.width ≤ 64) (w : Wg) (ln : Launch) (pc : DWord) (t : TrapInfo)
    (opc : Option DWord) (ostate : Nat) : Packed 0 4096 (frameFields g w ln pc t opc ostate) := by
  have live : ∀ l ∈ g.live, l < 64 := fun l hl => Nat.lt_of_lt_of_le (lt_width_of_mem_live hl) hw
  have trap : Packed 0 0x30 [(0x000, 4, cswOf t ostate), (0x004, 4, t.code.toNat), (0x008, 4, pcOffset ln.kernel pc),
      (0x00C, 4, match opc with | some p => pcOffset ln.kernel p | none => 0xFFFFFFFF), (0x010, 8, t.mask.toNat),
      (0x018, 8, (maskOf g.live).toNat), (0x020, 8, t.half.toNat), (0x028, 8, t.addr.toNat)] := by
    repeat refine Packed.cons (by decide) (by decide) ?_
    exact .nil _ _
  have place : Packed 0x40 0x64 [(0x040, 4, t.tag.toNat), (0x044, 4, t.aux.toNat), (0x048, 8, t.eopid.toNat),
      (0x050, 8, ln.kernel.toNat), (0x058, 4, ln.lidx.toNat), (0x05C, 4, w.index), (0x060, 4, g.key.g)] := by
    repeat refine Packed.cons (by decide) (by decide) ?_
    exact .nil _ _
  have status : Packed 0xA20 0xA24 [(0xA20, 4, g.fps.toNat)] := .cons (by decide) (by decide) (.nil _ _)
  have head := (trap.append (.table 0x30 4 4 fun i => (t.coord.getD i 0).toNat) (by decide) (by decide) (by decide)).append place
    (by decide) (by decide) (by decide)
  have pcs := head.append (.table 0x100 4 64 fun l => match if g.live.contains l then g.lane? l else none with
    | some x => pcOffset ln.kernel x.pc | none => 0xFFFFFFFF) (by decide) (by decide) (by decide)
  have regs := pcs.append (packed_saved (live_pairwise g) live fun l r => match g.lane? l with
    | some x => (x.vreg r).toNat | none => 0) (by decide) (by decide) (by decide)
  have sregs := (regs.append (.table 0xA00 4 8 fun r => (g.sreg r).toNat) (by decide) (by decide) (by decide)).append status
    (by decide) (by decide) (by decide)
  have masks := sregs.append (.table 0xA40 8 16 fun k => maskBits g k) (by decide) (by decide) (by decide)
  exact ⟨masks.apart, fun f hf => ⟨Nat.zero_le _, (masks.within f hf).2.trans (by decide)⟩⟩

end Sys2Proof.Machine

/-! SUPPORT. A trap that the group's handler takes: its frame, read back, and the group in its handler (R336–R338). -/

namespace Sys2Proof.Machine

open Sys2Proof.Claims

/-! ## Reading a field of a frame -/

theorem ofBytes_map_range (n v : Nat) : ofBytes ((List.range n).map (fun i => BitVec.ofNat 8 (v / 256 ^ i))) = v % 256 ^ n := by
  induction n generalizing v with
  | zero => simp [ofBytes, Nat.mod_one]
  | succ n ih =>
    have step : (fun i => BitVec.ofNat 8 (v / 256 ^ i)) ∘ Nat.succ = fun i => BitVec.ofNat 8 (v / 256 / 256 ^ i) := by
      funext i
      simp only [Function.comp_apply, Nat.succ_eq_add_one, Nat.pow_succ', Nat.div_div_eq_div_mul]
    rw [List.range_succ_eq_map, List.map_cons, List.map_map, step, ofBytes, ih, Nat.pow_succ', Nat.mod_mul]
    simp

/-- A field of a block that stands in memory is read back (R337). -/
theorem keyedNum_of_field {t : State} {key : BitVec 512} {base : Nat} {fs : List (Nat × Nat × Nat)} (hp : Packed 0 4096 fs)
    (hb : ∀ j < 4096, homeByte t key (base + j) = mapGet 0 (frameBlock fs) j) {off n v : Nat} (hf : (off, n, v) ∈ fs)
    (hv : v < 256 ^ n) : keyedNum t key (base + off) n = v := by
  obtain ⟨-, inside⟩ := hp.within _ hf
  have bytes : homeBytes t key (base + off) n = (List.range n).map (fun i => BitVec.ofNat 8 (v / 256 ^ i)) := by
    refine List.map_congr_left (fun i hi => ?_)
    have hi : i < n := List.mem_range.mp hi
    have covers : Covers (off, n, v) (off + i) := ⟨Nat.le_add_right .., by show off + i < off + n; omega⟩
    rw [Nat.add_assoc, hb _ (by dsimp only at inside; omega), mapGet_frameBlock hp.apart hf covers, Nat.add_sub_cancel_left]
  rw [keyedNum, bytes, ofBytes_map_range, Nat.mod_eq_of_lt hv]

/-! ## What the reads of the module leave of near memory (R51) -/

/-- Near memory and the keys of lines are as they were; the memory-side cache still holds pool lines alone. -/
structure NearKept (s t : State) : Prop where
  below : PlainBelow t
  keys : t.lineKeys = s.lineKeys
  mem : ∀ p < poolBase, memGet t.mem p = memGet s.mem p

namespace NearKept

theorem refl {s : State} (h : PlainBelow s) : NearKept s s := ⟨h, rfl, fun _ _ => rfl⟩

theorem trans {s t u : State} (h : NearKept s t) (h' : NearKept t u) : NearKept s u :=
  ⟨h'.below, h'.keys.trans h.keys, fun p hp => (h'.mem p hp).trans (h.mem p hp)⟩

theorem foldl {α : Type} {f : State → α → State} (hf : ∀ s a, PlainBelow s → NearKept s (f s a)) (l : List α) {s : State}
    (h : PlainBelow s) : NearKept s (l.foldl f s) := by
  induction l generalizing s with
  | nil => exact refl h
  | cons a l ih => exact (hf s a h).trans (ih (hf s a h).below)

end NearKept

/-- A block changes no byte below its base. -/
theorem memGet_memPutBlock_below {m : List Host.Cell} {b : SMap Byte} {base n p : Nat} (h : Memory.wf m = true) (hp : p < base) :
    memGet (memPutBlock m base n b) p = memGet m p := by
  have go : ∀ (b : SMap Byte) (m : List Host.Cell), Memory.wf m = true →
      memGet (b.foldl (fun m c => memSet m (base + c.1) c.2) m) p = memGet m p := by
    intro b
    induction b with
    | nil => intro m _; rfl
    | cons c b ih => intro m h; rw [List.foldl_cons, ih _ (memSet_wf _ _ h), memGet_memSet _ _ _ h, if_neg (by omega)]
  unfold memPutBlock
  rw [go b _ (memClear_wf base n h), memGet_memClear _ _ _ h, if_neg (by omega)]

theorem nearKept_mscDrop {s : State} (base : Nat) (h : PlainBelow s) : NearKept s (mscDrop s base) := by
  have wf := mscDrop_wf base h.wf
  revert wf
  unfold mscDrop
  split
  · exact fun _ => .refl h
  · next l hl =>
    have hbase : poolBase ≤ l.base := h.pool l (List.mem_of_find?_eq_some hl)
    unfold mscWriteBack
    split
    · exact fun wf => ⟨⟨wf, fun x hx => h.pool x (List.mem_filter.mp hx).1⟩, rfl, fun p hp =>
        memGet_memPutBlock_below h.wf (Nat.lt_of_lt_of_le hp hbase)⟩
    · exact fun wf => ⟨⟨wf, fun x hx => h.pool x (List.mem_filter.mp hx).1⟩, rfl, fun _ _ => rfl⟩

theorem nearKept_mscFill {s : State} {base : Nat} (hb : poolBase ≤ base) (h : PlainBelow s) : NearKept s (mscFill s base) := by
  unfold mscFill
  split
  · exact .refl h
  · have dropped := NearKept.foldl (fun s b hs => nearKept_mscDrop b hs)
      ((s.msc.filter (fun l => (l.base - poolBase) / 256 % mscLines s = (base - poolBase) / 256 % mscLines s)).map (·.base)) h
    refine ⟨⟨dropped.below.wf, fun l hl => ?_⟩, dropped.keys, dropped.mem⟩
    rcases List.mem_cons.mp hl with rfl | hl
    · exact hb
    · exact dropped.below.pool l hl

theorem nearKept_readThrough {s : State} (ca pa : Nat) (h : PlainBelow s) : NearKept s (readThrough s ca pa) := by
  unfold readThrough
  split
  · exact .refl h
  · next hp =>
    split
    · exact nearKept_mscDrop _ h
    · split
      · refine nearKept_mscFill ?_ h
        unfold lineOf poolBase at *
        omega
      · exact .refl h

theorem memoryOnly_readThrough (s : State) (ca pa : Nat) : MemoryOnly s (readThrough s ca pa) := by
  unfold readThrough
  exact .ite (.refl s) (.ite (memoryOnly_mscDrop _ _) (.ite (memoryOnly_mscFill _ _) (.refl s)))

theorem nearKept_virtTouch {s : State} (ln : Launch) (need : Need) (va n : Nat) (h : PlainBelow s) :
    NearKept s (virtTouch s ln need va n) := by
  unfold virtTouch
  refine NearKept.foldl (fun s l hs => ?_) _ h
  split
  · exact nearKept_readThrough _ _ hs
  · exact .refl hs

theorem memoryOnly_virtTouch (s : State) (ln : Launch) (need : Need) (va n : Nat) : MemoryOnly s (virtTouch s ln need va n) := by
  unfold virtTouch
  refine MemoryOnly.foldl (fun s l => ?_) _ s
  split
  · exact memoryOnly_readThrough _ _ _
  · exact .refl s

theorem nearKept_touchHandler {s : State} (ln : Launch) (h : PlainBelow s) : NearKept s (touchHandler s ln) := by
  unfold touchHandler
  split
  · exact .refl h
  · exact nearKept_virtTouch _ _ _ _ h

theorem memoryOnly_touchHandler (s : State) (ln : Launch) : MemoryOnly s (touchHandler s ln) := by
  unfold touchHandler
  exact .ite (.refl s) (memoryOnly_virtTouch _ _ _ _ _)

/-! ## A block written under a key -/

theorem mapFind_foldl_mapPut {α : Type} (v : α) (k : Nat) (js : List Nat) (m : SMap α) (h : k ∈ js ∨ mapFind m k = some v) :
    mapFind (js.foldl (fun m j => mapPut m j v) m) k = some v := by
  induction js generalizing m with
  | nil => exact h.resolve_left (by simp)
  | cons j js ih =>
    refine ih _ ?_
    by_cases e : k = j
    · exact Or.inr (e ▸ mapFind_mapPut_self ..)
    · exact h.imp (fun hm => (List.mem_cons.mp hm).resolve_left e) (fun hf => (mapFind_mapPut_other _ _ _ _ e).trans hf)

/-- The lines of a block stand under its key. -/
theorem lineKey_putBlockKeyed (s : State) (key : BitVec 512) {base n : Nat} (b : SMap Byte) (hb : base % 256 = 0)
    (hn : n % 256 = 0) {j : Nat} (hj : j < n) : mapFind (putBlockKeyed s key base n b).lineKeys (lineOf (base + j)) = some key := by
  show mapFind ((List.range (n / 256)).foldl (fun m i => mapPut m (base + 256 * i) key) s.lineKeys) (lineOf (base + j)) = some key
  rw [← List.foldl_map (f := fun i => base + 256 * i) (g := fun m j => mapPut m j key)]
  refine mapFind_foldl_mapPut key _ _ _ (Or.inl (List.mem_map.mpr ⟨j / 256, List.mem_range.mpr (by omega), ?_⟩))
  unfold lineOf
  omega

/-- A block below the pool that has been written under a key is what its owner reads there, also after the module has read lines
of the pool. -/
theorem homeByte_putBlockKeyed {s t : State} {key : BitVec 512} {base n : Nat} {b : SMap Byte} (h : PlainBelow s)
    (hw : mapWf 0 b = true) (hb : base % 256 = 0) (hn : n % 256 = 0) (hp : base + n ≤ poolBase)
    (ht : NearKept (putBlockKeyed s key base n b) t) {j : Nat} (hj : j < n) : homeByte t key (base + j) = mapGet 0 b j := by
  have keyed : mapFind t.lineKeys (lineOf (base + j)) = some key := by
    rw [ht.keys]
    exact lineKey_putBlockKeyed s key b hb hn hj
  have below : base + j < poolBase := by omega
  rw [homeByte_own (by simp [keyed]), plainByte_below below, ht.mem _ below]
  show memGet (memPutBlock s.mem base n b) (base + j) = _
  rw [memGet_memPutBlock base n _ h.wf hw (by omega) (by omega), Nat.add_sub_cancel_left]

theorem plainBelow_putBlockKeyed {s : State} (h : PlainBelow s) (key : BitVec 512) (base n : Nat) (b : SMap Byte) :
    PlainBelow (putBlockKeyed s key base n b) := ⟨memPutBlock_wf _ _ _ h.wf, h.pool⟩

/-! ## The entry of the handler (R338) -/

/-- The state with the frame of a trap written. -/
def framed (s : State) (k : GKey) (g : Group) (w : Wg) (ln : Launch) (pc : DWord) (t : TrapInfo) : State :=
  putBlockKeyed s (keyOr s w.owner) (frameBase s w k.g) 4096 (frameBlock (frameFields g w ln pc t none 0))

/-- What the group notes of its trap: the poison of the saved registers, its era, and that TEAM traps wait (R345, R208). -/
def noteTrap (s : State) (k : GKey) : Group → Group := fun g =>
  { g with
    vpoison := framePoison s k, era := g.era + 1 + g.era % 2
    teamFails := g.teamFails.map (fun f => { f with waits := true }) }

/-- The group in its handler, whose header is `h`. -/
def inHandler (ln : Launch) (h : Nat) (g : Group) : Group :=
  { g.mapLanes g.live (fun _ x => { x with pc := ln.traph + 64 }) with
    trapMode := true, handler := ln.traph, handlerN := hdRegs h, handlerLen := hdCodeLen h
    frozen := false, parks := [], holds := [] }

theorem findCtx_parts {s : State} {k : GKey} {g : Group} {w : Wg} {ln : Launch} (h : findCtx s k = some (g, w, ln)) :
    findGroup s k = some g ∧ findWg s k.wg = some w ∧ findLaunch s w.launch = some ln := by
  unfold findCtx at h
  cases hg : findGroup s k with
  | none => simp [hg] at h
  | some g' =>
    cases hw : findWg s k.wg with
    | none => simp [hg, hw] at h
    | some w' =>
      cases hl : findLaunch s w'.launch with
      | none => simp [hg, hw, hl] at h
      | some ln' =>
        simp only [hg, hw, hl, Option.some.injEq, Prod.mk.injEq] at h
        obtain ⟨rfl, rfl, rfl⟩ := h
        exact ⟨rfl, rfl, hl⟩

theorem findWg_congr {s t : State} (h : t.wgs = s.wgs) (uid : Nat) : findWg t uid = findWg s uid := by
  unfold findWg
  rw [h]

theorem findLaunch_congr {s t : State} (h : t.launches = s.launches) (uid : Nat) : findLaunch t uid = findLaunch s uid := by
  unfold findLaunch
  rw [h]

theorem findCtx_of_parts {s : State} {k : GKey} {g : Group} {w : Wg} {ln : Launch} (hg : findGroup s k = some g)
    (hw : findWg s k.wg = some w) (hl : findLaunch s w.launch = some ln) : findCtx s k = some (g, w, ln) := by
  unfold findCtx
  simp only [hg, hw, hl]

/-- A walk does not read the groups. -/
theorem walkFrom_updGroup (s : State) (k : GKey) (f : Group → Group) (va : Nat) : ∀ l table,
    walkFrom (updGroup s k f) va l table = walkFrom s va l table := by
  have hw : ∀ l p e, walkEntry (updGroup s k f) l p e = walkEntry s l p e := fun _ _ _ => rfl
  have he : ∀ l t, entryOf (updGroup s k f) va l t = entryOf s va l t := fun _ _ => rfl
  intro l
  induction l with
  | zero => intro table; simp only [walkFrom, hw, he]
  | succ l ih => intro table; simp only [walkFrom, hw, he, ih]

theorem translate_updGroup (s : State) (k : GKey) (f : Group → Group) (ln : Launch) (need : Need) (va : Nat) :
    translate (updGroup s k f) ln need va = translate s ln need va := by
  have code : ∀ l e, holdsCode (updGroup s k f) ln l e = holdsCode s ln l e := by
    intro l e
    simp only [holdsCode, codePages, walk, walkFrom_updGroup]
  have keys : ∀ n, keyVal (updGroup s k f) n = keyVal s n := fun _ => rfl
  simp only [translate, walk, walkFrom_updGroup, code, keys]

theorem handlerHeader_updGroup (s : State) (k : GKey) (f : Group → Group) (ln : Launch) :
    handlerHeader (updGroup s k f) ln = handlerHeader s ln := by
  have bytes : ∀ key pa n, homeBytes (updGroup s k f) key pa n = homeBytes s key pa n := fun _ _ _ => rfl
  have keys : ∀ n, keyOr (updGroup s k f) n = keyOr s n := fun _ => rfl
  simp only [handlerHeader, virtNum, translate_updGroup, bytes, keys]

/-- A trap outside trap mode with a valid handler writes its frame and enters the handler. -/
theorem takeTrap_handled {s : State} {k : GKey} {g : Group} {w : Wg} {ln : Launch} (h : Handled s k g w ln) (pc : DWord)
    (t : TrapInfo) : ∃ hd, takeTrap s k pc t none 0 =
      updGroup (touchHandler (updGroup (framed s k g w ln pc t) k (noteTrap (framed s k g w ln pc t) k)) ln) k
        (inHandler ln hd) := by
  obtain ⟨hg, hw, hl⟩ := findCtx_parts h.found
  have packed := packed_frameFields h.width w ln pc t none 0
  obtain ⟨hd, hhd⟩ := Option.isSome_iff_exists.mp
    (h.header _ (mapWf_frameBlock _) (mem_frameBlock (fun f hf => (packed.within f hf).2)))
  generalize hu : updGroup (framed s k g w ln pc t) k (noteTrap (framed s k g w ln pc t) k) = u
  have groups : findGroup (framed s k g w ln pc t) k = some g :=
    (findGroup_congr (by simp only [framed, putBlockKeyed_at_groups]) k).trans hg
  have found : findCtx u k = some (noteTrap (framed s k g w ln pc t) k g, w, ln) := by
    subst hu
    exact findCtx_of_parts (findGroup_updGroup_self _ (fun _ => rfl) groups) 
      ((findWg_congr (by simp only [framed, updGroup_at_wgs, putBlockKeyed_at_wgs]) _).trans hw)
      ((findLaunch_congr (by simp only [framed, updGroup_at_launches, putBlockKeyed_at_launches]) _).trans hl)
  have header : handlerHeader u ln = some hd := by
    subst hu
    rw [handlerHeader_updGroup]
    exact hhd
  have run : takeTrap s k pc t none 0 = enterHandler u k t.cause t.sub pc := by
    subst hu
    simp only [takeTrap, h.found, h.user, Bool.false_eq_true, if_false, framed, updGroup_at_mcb,
      putBlockKeyed_at_mcb, h.here]
    rfl
  refine ⟨hd, ?_⟩
  rw [run]
  simp only [enterHandler, found, header]
  rfl

theorem lane_inHandler (ln : Launch) (hd : Nat) (g : Group) (l : Nat) :
    (inHandler ln hd g).lane? l = (g.lane? l).map (fun y => if y.exited then y else { y with pc := ln.traph + 64 }) := by
  show (g.mapLanes g.live (fun _ x => { x with pc := ln.traph + 64 })).lane? l = _
  rw [lane_mapLanes]
  cases hl : g.lane? l with
  | none => rfl
  | some y =>
    have width : l < g.width := (List.getElem?_eq_some_iff.mp hl).1
    have live : l ∈ g.live ↔ y.exited = false := by simp [Group.live, hl, width]
    cases he : y.exited with
    | true => simp [live, he]
    | false => simp [live, he]

theorem nearKept_updGroup {s : State} (h : PlainBelow s) (k : GKey) (f : Group → Group) : NearKept s (updGroup s k f) :=
  ⟨⟨h.wf, h.pool⟩, rfl, fun _ _ => rfl⟩

theorem frameGet_eq {s t : State} (hk : t.keys = s.keys) (hm : t.mcb = s.mcb) (w : Wg) (g off n : Nat) :
    frameGet t w g off n = keyedNum t (keyOr s w.owner) (frameBase s w g + off) n := by
  simp only [frameGet, keyOr, keyVal, frameBase, recordBase, hk, hm]

/-- The frame of a trap that the handler takes is read back field by field, and the group stands in its handler. -/
theorem takeTrap_reads {s : State} {k : GKey} {g : Group} {w : Wg} {ln : Launch} (hi : Inv s) (h : Handled s k g w ln)
    (pc : DWord) (t : TrapInfo) :
    (∃ hd, findGroup (takeTrap s k pc t none 0) k = some (inHandler ln hd (noteTrap (framed s k g w ln pc t) k g))) ∧
    ∀ off n v, (off, n, v) ∈ frameFields g w ln pc t none 0 → v < 256 ^ n →
      frameGet (takeTrap s k pc t none 0) w k.g off n = v := by
  obtain ⟨hd, run⟩ := takeTrap_handled h pc t
  obtain ⟨hg, -⟩ := findCtx_parts h.found
  have packed := packed_frameFields h.width w ln pc t none 0
  have start : PlainBelow s := ⟨hi.1, h.cache⟩
  have written : PlainBelow (framed s k g w ln pc t) := plainBelow_putBlockKeyed start _ _ _ _
  have groups : findGroup (framed s k g w ln pc t) k = some g :=
    (findGroup_congr (by simp only [framed, putBlockKeyed_at_groups]) k).trans hg
  have keys : (framed s k g w ln pc t).keys = s.keys := by simp only [framed, putBlockKeyed_at_keys]
  have mcb : (framed s k g w ln pc t).mcb = s.mcb := by simp only [framed, putBlockKeyed_at_mcb]
  have noted := nearKept_updGroup written k (noteTrap (framed s k g w ln pc t) k)
  have touched := nearKept_touchHandler ln noted.below
  have only := memoryOnly_touchHandler (updGroup (framed s k g w ln pc t) k (noteTrap (framed s k g w ln pc t) k)) ln
  have near := (noted.trans touched).trans (nearKept_updGroup touched.below k (inHandler ln hd))
  rw [run]
  refine ⟨⟨hd, findGroup_updGroup_self _ (fun _ => rfl) ?_⟩, fun off n v hf hv => ?_⟩
  · rw [findGroup_congr only.groups]
    exact findGroup_updGroup_self _ (fun _ => rfl) groups
  · rw [frameGet_eq (s := s) (by rw [updGroup_at_keys, only.keys, updGroup_at_keys, keys])
      (by rw [updGroup_at_mcb, only.mcb, updGroup_at_mcb, mcb])]
    obtain ⟨fits, aligned⟩ := h.near
    exact keyedNum_of_field packed (fun j hj =>
      homeByte_putBlockKeyed start (mapWf_frameBlock _) aligned (by decide) fits near hj) hf hv

/-! ## The fields of the frame by name -/

section Fields

variable (g : Group) (w : Wg) (ln : Launch) (pc : DWord) (t : TrapInfo)

/-- The words of the trap itself: CSW, code, PC, the partner's PC, lanes, live lanes and address. -/
theorem mem_frameFields_trap {f : Nat × Nat × Nat} (h : f ∈ [(0x000, 4, cswOf t 0), (0x004, 4, t.code.toNat),
    (0x008, 4, pcOffset ln.kernel pc), (0x00C, 4, 0xFFFFFFFF), (0x010, 8, t.mask.toNat), (0x018, 8, (maskOf g.live).toNat),
    (0x020, 8, t.half.toNat), (0x028, 8, t.addr.toNat)]) : f ∈ frameFields g w ln pc t none 0 := by
  simp only [frameFields, List.mem_append]
  exact .inl (.inl (.inl (.inl (.inl (.inl (.inl h))))))

theorem mem_frameFields_pcs {l : Nat} (h : l < 64) : (0x100 + 4 * l, 4, if l ∈ g.live then match g.lane? l with
    | some y => (y.pc - ln.kernel).toNat % 2 ^ 32 | none => 0 else 2 ^ 32 - 1) ∈ frameFields g w ln pc t none 0 := by
  simp only [frameFields, List.mem_append]
  refine .inl (.inl (.inl (.inl (.inr (List.mem_map.mpr ⟨l, List.mem_range.mpr h, ?_⟩)))))
  by_cases hl : l ∈ g.live
  · obtain ⟨y, hy⟩ : ∃ y, g.lane? l = some y := ⟨_, List.getElem?_eq_getElem (lt_width_of_mem_live hl)⟩
    simp only [List.contains_iff_mem, hl, if_true, hy, pcOffset, Nat.reducePow]
  · simp only [List.contains_iff_mem, hl, if_false, Nat.reducePow, Nat.reduceSub]

theorem mem_frameFields_regs {l r : Nat} {y : Lane} (hl : l ∈ g.live) (hr : r < 8) (hy : g.lane? l = some y) :
    (0x200 + 256 * r + 4 * l, 4, (y.vreg r).toNat) ∈ frameFields g w ln pc t none 0 := by
  simp only [frameFields, List.mem_append]
  refine .inl (.inl (.inl (.inr (List.mem_flatMap.mpr ⟨l, hl, List.mem_map.mpr ⟨r, List.mem_range.mpr hr, ?_⟩⟩))))
  simp only [hy]

theorem mem_frameFields_sregs {r : Nat} (hr : r < 8) : (0xA00 + 4 * r, 4, (g.sreg r).toNat) ∈ frameFields g w ln pc t none 0 := by
  simp only [frameFields, List.mem_append]
  exact .inl (.inl (.inr (List.mem_map.mpr ⟨r, List.mem_range.mpr hr, rfl⟩)))

theorem mem_frameFields_fps : (0xA20, 4, g.fps.toNat) ∈ frameFields g w ln pc t none 0 := by
  simp only [frameFields, List.mem_append]
  exact .inl (.inr (List.mem_singleton_self _))

theorem mem_frameFields_masks {b : Nat} (hb : b < 16) : (0xA40 + 8 * b, 8, maskBits g b) ∈ frameFields g w ln pc t none 0 := by
  simp only [frameFields, List.mem_append]
  exact .inr (List.mem_map.mpr ⟨b, List.mem_range.mpr hb, rfl⟩)

end Fields

theorem cswOf_zero (t : TrapInfo) :
    cswOf t 0 = t.cause % 64 + 2 ^ 8 * (t.sub % 256) + 2 ^ 16 * (t.len % 4) + (if t.wskip then 2 ^ 20 else 0) := by
  unfold cswOf bitOf
  split <;> omega

theorem cswOf_lt (t : TrapInfo) : cswOf t 0 < 256 ^ 4 := by
  rw [cswOf_zero]
  split <;> omega

/-- A trap that the handler takes leaves the frame and the group as R336–R338 say. -/
theorem trapped_of_handled {s : State} {k : GKey} {g : Group} {w : Wg} {ln : Launch} (hi : Inv s) (h : Handled s k g w ln)
    (pc : DWord) (t : TrapInfo) : Trapped (takeTrap s k pc t none 0) k g w ln pc t := by
  obtain ⟨⟨hd, group⟩, field⟩ := takeTrap_reads hi h pc t
  have word : ∀ x : Word, x.toNat < 256 ^ 4 := fun x => x.isLt
  have dword : ∀ x : DWord, x.toNat < 256 ^ 8 := fun x => x.isLt
  have offset : ∀ a b : DWord, (a - b).toNat % 2 ^ 32 < 256 ^ 4 := fun a b => Nat.mod_lt _ (by decide)
  exact {
    group := ⟨_, group, rfl, rfl, rfl, rfl, rfl, rfl, fun l => lane_inHandler ln hd (noteTrap (framed s k g w ln pc t) k g) l⟩
    csw := (field _ _ _ (mem_frameFields_trap g w ln pc t (by simp)) (cswOf_lt t)).trans (cswOf_zero t)
    code := field _ _ _ (mem_frameFields_trap g w ln pc t (by simp)) (Nat.lt_trans t.code.isLt (by decide))
    pc := field _ _ _ (mem_frameFields_trap g w ln pc t (by simp [pcOffset])) (offset _ _)
    alone := field _ _ _ (mem_frameFields_trap g w ln pc t (by simp)) (by decide)
    lanes := field _ _ _ (mem_frameFields_trap g w ln pc t (by simp)) (dword _)
    live := field _ _ _ (mem_frameFields_trap g w ln pc t (by simp)) (dword _)
    addr := field _ _ _ (mem_frameFields_trap g w ln pc t (by simp)) (dword _)
    pcs := fun l hl => field _ _ _ (mem_frameFields_pcs g w ln pc t hl) (by
      split
      · split
        · exact offset _ _
        · decide
      · decide)
    regs := fun l hl y hy r hr => field _ _ _ (mem_frameFields_regs g w ln pc t hl hr hy) (word _)
    sregs := fun r hr => field _ _ _ (mem_frameFields_sregs g w ln pc t hr) (word _)
    fps := field _ _ _ (mem_frameFields_fps g w ln pc t) (Nat.lt_trans g.fps.isLt (by decide))
    masks := fun b hb => field _ _ _ (mem_frameFields_masks g w ln pc t hb) (dword _) }

end Sys2Proof.Machine

/-! SUPPORT. Issues that trap: registers that are not declared, checks of a body that fail, and forms of trap mode
(R22, R149, R339). -/

namespace Sys2Proof.Machine

open Sys2Proof.Claims

/-! ## A stop with a trap -/

/-- An instruction that stops with a trap, which its group's handler takes (R334, R338). -/
theorem ends_trapped {i : Instr} {s : State} {c : Ctx} {n : Nat} {t : TrapInfo} (hx : exec i s = c.settle s (.error (.trap t)))
    (hc : focusCtx s n = some c) (hi : Inv s) (h : Handled s c.g.key c.g c.w c.ln) :
    Ends i s (fun u => Trapped u c.g.key c.g c.w c.ln c.pc (c.fill t)) := by
  obtain ⟨-, grp, pc, -⟩ := focusCtx_group hc
  refine ⟨takeTrap s c.g.key c.pc (c.fill t) none 0, hx.trans ?_, trapped_of_handled hi h c.pc (c.fill t)⟩
  simp only [Ctx.settle, Ctx.settleFrom, raiseTrap, Focus.afterTrap, h.single, Option.isSome_none, Bool.false_and,
    Bool.false_eq_true, if_false, ← grp, pc]

/-- A trap of some of its lanes. -/
theorem fill_some {c : Ctx} (cause sub : Nat) {m : DWord} (hm : m ≠ 0) :
    c.fill { mkTrap cause sub with mask := m } = { mkTrap cause sub with mask := m, len := c.len } := by
  simp only [Ctx.fill, if_neg hm]

theorem getLsbD_foldl_maskOf (ls : List Nat) (m : DWord) {i : Nat} (hi : i < 64) (h : i ∈ ls ∨ m.getLsbD i = true) :
    (ls.foldl (fun m l => m ||| (1 <<< l : DWord)) m).getLsbD i = true := by
  induction ls generalizing m with
  | nil => exact h.resolve_left (by simp)
  | cons l ls ih =>
    refine ih _ ?_
    rw [List.mem_cons] at h
    rcases h with (rfl | h) | h
    · refine Or.inr ?_
      rw [BitVec.getLsbD_or, BitVec.natCast_eq_ofNat, BitVec.getLsbD_ofNat, Nat.testBit_shiftLeft]
      simp [hi]
    · exact Or.inl h
    · exact Or.inr (by rw [BitVec.getLsbD_or, h, Bool.true_or])

theorem maskOf_ne_zero {ls : List Nat} (hn : ls ≠ []) (hl : ∀ l ∈ ls, l < 64) : maskOf ls ≠ 0 := by
  obtain ⟨l, ls', rfl⟩ := List.exists_cons_of_ne_nil hn
  intro h0
  have set : (maskOf (l :: ls')).getLsbD l = true :=
    getLsbD_foldl_maskOf _ 0 (hl l (List.mem_cons_self ..)) (Or.inl (List.mem_cons_self ..))
  rw [h0] at set
  simp at set

/-! ## Registers beyond the declared count (R22) -/

theorem perLane_undeclared {p : LSpec} {body : Issue → Except Stop State} {s : State} {c : Ctx} (hc : focusCtx s p.len = some c)
    (h : ∃ r ∈ p.named ++ p.srcRegs, declared c.ln c.g ≤ r) :
    perLane p body s = c.settle s (.error (.trap (mkTrap cOperand 2))) := by
  obtain ⟨r, hr, hd⟩ := h
  have beyond : (p.named ++ p.srcRegs).all (fun r => decide (r < declared c.ln c.g)) = false :=
    List.all_eq_false.mpr ⟨r, hr, by simpa using hd⟩
  have stops : p.ready c s = .error (.trap (mkTrap cOperand 2)) := by
    simp only [LSpec.ready, demand, beyond]
    rfl
  unfold perLane perLaneAt
  simp only [hc, stops]

theorem intOp_plain {i : Instr} {d : VReg} {a b : LSrc} {f g : Word → Word → Word} (hx : ∀ s, exec i s = intOp i d a b f s) :
    ∃ p f', LSpec.Plain p (Rules.DstRule.issue ⟨[(.int, a), (.int, b)], d, false, fun x y _ => g x y⟩ i) ∧
      p.named = [d.val] ∧ ∀ s, exec i s = lanewise p d f' s :=
  ⟨LSpec.mk0 i [(.int, a), (.int, b)] [d.val], fun x y _ => plainRes (f x y), LSpec.mk0_plain _ _ _, rfl, hx⟩

/-- The integer instructions are issues that write one register (R150, R151, R162). -/
theorem intRule_exec {i : Instr} {u : Rules.DstRule} (hu : Rules.intRule i = some u) :
    ∃ p f, LSpec.Plain p (u.issue i) ∧ p.named = [u.dst.val] ∧ ∀ s, exec i s = lanewise p u.dst f s := by
  cases i with
  | iadd d a b => cases hu; exact intOp_plain (f := fun x y => x + y) (fun _ => rfl)
  | isub d a b => cases hu; exact intOp_plain (f := fun x y => x - y) (fun _ => rfl)
  | imul d a b => cases hu; exact intOp_plain (f := fun x y => x * y) (fun _ => rfl)
  | imulh d a b => cases hu; exact intOp_plain (f := mulHigh) (fun _ => rfl)
  | imulhu d a b => cases hu; exact intOp_plain (f := mulHighU) (fun _ => rfl)
  | imad d a b =>
    cases hu
    exact ⟨{ LSpec.mk0 (.imad d a b) [(.int, a), (.int, b)] [d.val] with reads := fun _ => [d.val] },
      fun x y z => plainRes (x * y + z), LSpec.mk0_plain_reads _ _ _ _, rfl, fun _ => rfl⟩
  | imin d a b => cases hu; exact intOp_plain (f := sminW) (fun _ => rfl)
  | imax d a b => cases hu; exact intOp_plain (f := smaxW) (fun _ => rfl)
  | and d a b => cases hu; exact intOp_plain (f := fun x y => x &&& y) (fun _ => rfl)
  | or d a b => cases hu; exact intOp_plain (f := fun x y => x ||| y) (fun _ => rfl)
  | xor d a b => cases hu; exact intOp_plain (f := fun x y => x ^^^ y) (fun _ => rfl)
  | shl d a b => cases hu; exact intOp_plain (f := shlW) (fun _ => rfl)
  | shr d a b => cases hu; exact intOp_plain (f := shrW) (fun _ => rfl)
  | sar d a b => cases hu; exact intOp_plain (f := sarW) (fun _ => rfl)
  | iuny op d a =>
    cases hu
    exact ⟨LSpec.mk0 (.iuny op d a) [(.int, a)] [d.val], fun x _ _ => plainRes (iunyW op x),
      LSpec.mk0_plain _ _ _, rfl, fun _ => rfl⟩
  | mov d a =>
    cases hu
    exact ⟨LSpec.mk0 (.mov d a) [(.int, a)] [d.val], fun x _ _ => plainRes x, LSpec.mk0_plain _ _ _, rfl, fun _ => rfl⟩
  | _ => cases hu

theorem undeclared_trapped {i : Instr} {u : Rules.DstRule} (hu : Rules.intRule i = some u) {s : State} {c : Ctx}
    (hc : focusCtx s i.len = some c) (hi : Inv s) (h : Handled s c.g.key c.g c.w c.ln)
    (hr : ∃ r ∈ (u.issue i).named ++ (u.issue i).vregs, declared c.ln c.g ≤ r) :
    Ends i s (fun t => Trapped t c.g.key c.g c.w c.ln c.pc { mkTrap cOperand 2 with mask := c.mask, len := c.len }) := by
  obtain ⟨p, f, plain, named, run⟩ := intRule_exec hu
  refine ends_trapped ((run s).trans (perLane_undeclared ?_ ?_)) hc hi h
  · rw [plain.len]
    exact hc
  · rw [plain.srcRegs, named]
    exact hr

/-! ## A body that stops -/

/-- An L-set instruction without a REJECT register whose body stops. -/
theorem LSpec.Plain.perLane_error {p : LSpec} {q : LIssue} (h : p.Plain q) {s : State} {c : Ctx} (r : q.Ready s c)
    (o : p.Open q s c) (hq : q.reject c.g = none) {body : Issue → Except Stop State} {e : Stop}
    (hb : body ⟨c, s, q.slot, q.width, q.ins s c⟩ = .error e) :
    Sys2Proof.Machine.perLane p body s = c.settle s (.error e) := by
  have acting : q.acting s c = c.act := by simp only [LIssue.acting, hq]
  have accepting : p.accepting c s = c.act := (h.accepting s c).trans acting
  have spend : p.spend c s = s := by simp only [LSpec.spend, h.reject, hq]
  have acts : c.act.isEmpty = false := by
    rw [← acting]
    exact List.isEmpty_eq_false_iff.mpr r.acts
  have hc : focusCtx s p.len = some c := by rw [h.len]; exact r.ctx
  have he := h.enter r.toEnters o true (fun _ => r.falls)
  rw [acting, spend] at he
  unfold Sys2Proof.Machine.perLane Sys2Proof.Machine.perLaneAt
  simp only [hc, h.ready r.toEnters o, accepting, spend, acts, Bool.false_eq_true, if_false, he, hb, bind, Except.bind, Ctx.settle]

/-- The lanes on which a value differs from the first lane's, named by the lanes of an issue (R149). -/
theorem differing_over {q : LIssue} {s : State} {c : Ctx} {f : Nat → Lane → Word} {l : Nat} {x : Lane}
    (hl : (q.acting s c).head? = some l) (hx : c.g.lane? l = some x) :
    differing (q.over s c (fun j y => (j, f j y))) = q.lanesWith s c (fun j y => decide (f j y ≠ f l x)) := by
  have go : ∀ ls : List Nat, ((ls.filterMap (fun j => (c.g.lane? j).map (fun y => (j, f j y)))).filter
      (fun p => decide (p.2 ≠ f l x))).map (·.1) =
        ls.filter (fun j => match c.g.lane? j with | some y => decide (f j y ≠ f l x) | none => false) := by
    intro ls
    induction ls with
    | nil => rfl
    | cons j ls ih =>
      cases hj : c.g.lane? j with
      | none => simp only [List.filterMap_cons, hj, Option.map_none, List.filter_cons, ih, Bool.false_eq_true, if_false]
      | some y =>
        simp only [List.filterMap_cons, hj, Option.map_some, List.filter_cons]
        by_cases e : f j y = f l x
        · simpa [e] using ih
        · simpa [e] using ih
  obtain ⟨ls, hls⟩ := List.head?_eq_some_iff.mp hl
  refine Eq.trans ?_ ((go (q.acting s c)).trans rfl)
  unfold LIssue.over
  rw [hls]
  simp [hx, differing]

end Sys2Proof.Machine

namespace Sys2Proof.Proofs

open Sys2Proof.Machine Sys2Proof.Claims

/-- GNEVAL of a generator register that is not loaded (R232). -/
theorem gneval_unloaded_trapped {t' : Bool} {n : Fin 8} {d : VReg} {a : LSrc} {s : State} {c : Ctx}
    (r : (gnevalIssue t' n d a).Ready s c) (hq : (gnevalIssue t' n d a).reject c.g = none) (hn : mapFind c.g.gn n.val = none)
    (hi : Machine.Inv s) (h : Handled s c.g.key c.g c.w c.ln) :
    Ends (.gneval t' n d a) s (fun t => Trapped t c.g.key c.g c.w c.ln c.pc
      { mkTrap cOperand 6 with mask := c.mask, len := c.len }) := by
  refine ends_trapped (t := mkTrap cOperand 6) ?_ r.ctx hi h
  show execGneval t' n d a s = _
  unfold execGneval
  refine (LSpec.mk0_plain _ _ _).perLane_error r ⟨rfl, rfl, rfl⟩ hq ?_
  simp only [hn]
  rfl

/-- LXOR of distances that differ (R149). -/
theorem lxor_differing_trapped {d : VReg} {a b : LSrc} {s : State} {c : Ctx} {l : Nat} {x : Lane}
    (r : (moveIssue (.lxor d a b) d [a, b]).Ready s c) (hq : (moveIssue (.lxor d a b) d [a, b]).reject c.g = none)
    (hi : Machine.Inv s) (h : Handled s c.g.key c.g c.w c.ln) (hl : c.act.head? = some l) (hx : c.g.lane? l = some x)
    {bad : List Nat} (hb : (moveIssue (.lxor d a b) d [a, b]).lanesWith s c (fun j y =>
      decide ((moveIssue (.lxor d a b) d [a, b]).operand s c j y 1 ≠ (moveIssue (.lxor d a b) d [a, b]).operand s c l x 1)) = bad)
    (hne : bad ≠ []) :
    Ends (.lxor d a b) s (fun t => Trapped t c.g.key c.g c.w c.ln c.pc
      { mkTrap cNonuniform 0 with mask := maskOf bad, len := c.len }) := by
  generalize hi' : moveIssue (.lxor d a b) d [a, b] = q at *
  have acting : q.acting s c = c.act := by simp only [LIssue.acting, hq]
  have inside : ∀ j ∈ bad, j < 64 := fun j hj => by
    have act : j ∈ c.act := acting ▸ (List.mem_filter.mp (hb ▸ hj)).1
    exact Nat.lt_of_lt_of_le (lt_width_of_mem_act r.ctx act) h.width
  rw [← fill_some cNonuniform 0 (maskOf_ne_zero hne inside)]
  refine ends_trapped ?_ r.ctx hi h
  show execLxor d a b s = _
  have differs : differing ((q.ins s c).map (fun i => (i.idx, i.arg 1))) = bad := by
    rw [LIssue.map_ins, ← hb]
    exact differing_over (f := fun j y => q.operand s c j y 1) (acting ▸ hl) hx
  subst hi'
  unfold execLxor
  refine LSpec.Plain.perLane_error (q := moveIssue (.lxor d a b) d [a, b]) (LSpec.mk0_plain _ _ _) r ⟨rfl, rfl, rfl⟩ hq ?_
  obtain ⟨j, js, rfl⟩ := List.exists_cons_of_ne_nil hne
  simp only [Issue.uniformArg, differs]
  rfl

/-- The forms of trap mode outside it (R339, R344). -/
theorem trapMode_form_trapped {skip : Bool} {sd : SReg} {sb : USrc} {i : Instr}
    (hm : i ∈ [Instr.tret skip, .tfrd sd sb, .tfwr sd sb, .gend true]) {s : State} {c : Ctx} (hc : focusCtx s i.len = some c)
    (hi : Machine.Inv s) (h : Handled s c.g.key c.g c.w c.ln) :
    Ends i s (fun t => Trapped t c.g.key c.g c.w c.ln c.pc { mkTrap cPriv 1 with mask := c.mask, len := c.len }) := by
  refine ends_trapped (t := mkTrap cPriv 1) ?_ hc hi h
  simp only [List.mem_cons, List.not_mem_nil, or_false] at hm
  obtain rfl | rfl | rfl | rfl := hm
  · show execTret skip s = _
    have hc : focusCtx s 1 = some c := hc
    simp only [execTret, hc, h.user]
    rfl
  · show execTfrd sd sb s = _
    simp only [execTfrd, trapOnly, hc, h.user]
    rfl
  · show execTfwr sd sb s = _
    simp only [execTfwr, trapOnly, hc, h.user]
    rfl
  · show execGend true s = _
    have hc : focusCtx s 1 = some c := hc
    simp only [execGend, hc, h.user]
    rfl

/-- Settles O41: each form stops before it has changed anything, and `trapped_of_handled` says what its trap leaves. -/
theorem formsThatTrap : Obligations.FormsThatTrap := by
  unfold Obligations.FormsThatTrap
  refine ⟨fun i u hu s c hc hi h hr => undeclared_trapped hu hc hi h hr,
    fun t' n d a s c r hq hn hi h => gneval_unloaded_trapped r hq hn hi h, ?_,
    fun skip sd sb i hm s c hc hi h => trapMode_form_trapped hm hc hi h⟩
  intro d a b s c l x q r hq hi h hl hx bad hne
  exact lxor_differing_trapped r hq hi h hl hx rfl hne

end Sys2Proof.Proofs

/-! SUPPORT. Every step keeps memory and the walks' view of it canonical (O59, log entries 4 and 17). `Inv` holds of every state that
a function of the model returns, in whatever shape it returns it: a state, an `Option`, an `Except` whose stop may carry a state of
its own, a `Result`. One lemma per function of the model, in the order of the model's files: a function that writes neither map
keeps `Inv` as it is, the four writers cite the canonical-form lemmas above, and every other one cites the lemmas of what it calls. -/

namespace Sys2Proof.Machine

/-! ## The invariant of what a function returns -/

/-- A stop that carries a state of its own carries a canonical one. -/
def InvStop : Stop → Prop
  | .trapIn _ s => Inv s
  | .parkIn _ s => Inv s
  | .hold _ s => Inv s
  | .trap _ => True
  | .park _ => True
  | .notReady => True

/-- A computation that ends in a value of which `P` holds, or in a stop that leaves memory canonical. -/
def InvExc {α : Type} (P : α → Prop) : Except Stop α → Prop
  | .ok a => P a
  | .error e => InvStop e

/-- `P` holds of the value, if there is one. -/
def InvOpt {α : Type} (P : α → Prop) : Option α → Prop
  | some a => P a
  | none => True

/-- The next state, if there is one, keeps memory canonical. -/
def InvRes : Result → Prop
  | .next t => Inv t
  | .fault _ => True
  | .refused _ => True

/-- The checks that a specification adds stop without leaving a state that is not canonical. -/
def SpecInv (p : LSpec) : Prop := (∀ w c, InvExc (fun _ => True) (p.widthOk w c)) ∧ ∀ c, InvExc (fun _ => True) (p.decl c)

theorem Inv.reply {s : State} {r : Option HostReply} (hs : Inv s) : Inv { s with reply := r } := hs

theorem Inv.groups {s : State} {gs : List Group} (hs : Inv s) : Inv { s with groups := gs } := hs

/-- A writer of memory alone leaves the walks' view as it is. -/
theorem MemoryOnly.inv {s t : State} (f : MemoryOnly s t) (hm : MemWf t) (hs : Inv s) : Inv t := by
  have hx : t.xmem = s.xmem := (congrArg State.xmem f :)
  exact ⟨hm, hx ▸ hs.2⟩

section
variable {α β : Type} {P : α → Prop} {Q : β → Prop}

theorem ite_keeps {c : Prop} [Decidable c] {a b : α} (ha : P a) (hb : P b) : P (if c then a else b) := by
  split
  · exact ha
  · exact hb

theorem foldl_keeps {f : α → β → α} {l : List β} {a : α} (hf : ∀ a b, P a → P (f a b)) (h : P a) : P (l.foldl f a) := by
  induction l generalizing a with
  | nil => exact h
  | cons b l ih => exact ih (hf a b h)

theorem foldl_inv {f : State → α → State} {l : List α} {s : State} (hf : ∀ s a, Inv s → Inv (f s a)) (h : Inv s) :
    Inv (l.foldl f s) := foldl_keeps hf h

namespace InvExc

theorem ok {a : α} (h : P a) : InvExc P (.ok a) := h

theorem pass {a : α} : InvExc (fun _ => True) (.ok a) := trivial

theorem error {e : Stop} (h : InvStop e) : InvExc P (.error e) := h

theorem bind {r : Except Stop α} {k : α → Except Stop β} (hr : InvExc P r) (hk : ∀ a, P a → InvExc Q (k a)) :
    InvExc Q (r >>= k) := by
  cases r with
  | ok a => exact hk a hr
  | error e => exact hr

/-- A check whose value does not matter. -/
theorem andThen {r : Except Stop α} {k : α → Except Stop β} (hr : InvExc (fun _ => True) r) (hk : ∀ a, InvExc Q (k a)) :
    InvExc Q (r >>= k) := hr.bind (fun a _ => hk a)

theorem ite_bind {c : Prop} [Decidable c] {a b : Except Stop α} {k : α → Except Stop β} (ha : InvExc P a) (hb : InvExc P b)
    (hk : ∀ x, P x → InvExc Q (k x)) : InvExc Q (if c then a >>= k else b >>= k) :=
  ite_keeps (ha.bind hk) (hb.bind hk)

theorem map {r : Except Stop α} {f : α → β} (hr : InvExc P r) (hf : ∀ a, P a → Q (f a)) : InvExc Q (r.map f) := by
  cases r with
  | ok a => exact hf a hr
  | error e => exact hr

theorem of_error {r : Except Stop α} {x : Stop} (h : InvExc P r) (e : r = .error x) : InvStop x := by
  subst e
  exact h

end InvExc

namespace InvRes

theorem next {s : State} (h : Inv s) : InvRes (.next s) := h

theorem fault {f : Fault} : InvRes (.fault f) := trivial

theorem refused {r : Refusal} : InvRes (.refused r) := trivial

theorem of_next {r : Result} {s : State} (h : InvRes r) (e : r = .next s) : Inv s := by
  subst e
  exact h

end InvRes

namespace InvOpt

protected theorem some {a : α} (h : P a) : InvOpt P (some a) := h

protected theorem none : InvOpt P (none : Option α) := trivial

theorem mapAll {o : Option α} {f : α → β} (hf : ∀ a, Q (f a)) : InvOpt Q (o.map f) := by
  cases o with
  | some a => exact hf a
  | none => trivial

theorem of_some {o : Option α} {a : α} (h : InvOpt P o) (e : o = some a) : P a := by
  subst e
  exact h

theorem of_fst {o : Option (α × β)} {a : α} {b : β} (h : InvOpt (fun r => P r.1) o) (e : o = some (a, b)) : P a := h.of_some e

theorem bind {o : Option α} {k : α → Option β} (ho : InvOpt P o) (hk : ∀ a, P a → InvOpt Q (k a)) : InvOpt Q (o >>= k) := by
  cases o with
  | some a => exact hk a ho
  | none => trivial

theorem getD {o : Option State} {s : State} (ho : InvOpt Inv o) (hs : Inv s) : Inv (o.getD s) := by
  cases o with
  | some t => exact ho
  | none => exact hs

theorem findSome {f : α → Option β} {l : List α} (hf : ∀ a, InvOpt Q (f a)) : InvOpt Q (l.findSome? f) := by
  cases h : l.findSome? f with
  | none => trivial
  | some b =>
    obtain ⟨a, -, ha⟩ := List.exists_of_findSome?_eq_some h
    exact (hf a).of_some ha

end InvOpt

theorem inv_fst {x : State × α} {s : State} {a : α} (h : Inv x.1) (e : x = (s, a)) : Inv s := by
  subst e
  exact h

theorem mapE_inv {f : α → Except Stop β} {l : List α} (hf : ∀ a, InvExc (fun _ => True) (f a)) :
    InvExc (fun _ => True) (mapE f l) := by
  induction l with
  | nil => trivial
  | cons a l ih =>
    unfold mapE
    split
    · next heq => exact (hf a).of_error heq
    · split
      · next heq => exact ih.of_error heq
      · trivial

end

/-! ## Stops and what turns them into others -/

section
variable {α : Type} {P : α → Prop} {s : State} {r : Except Stop α}

theorem thereafter_inv (h : Inv s) (hr : InvExc P r) : InvExc P (thereafter s r) := by
  unfold thereafter
  split
  · exact h
  · exact h
  · exact hr

theorem wholePop_inv (hr : InvExc P r) : InvExc P (wholePop r) := by
  unfold wholePop
  split
  · trivial
  · exact hr
  · exact hr

theorem asControl_inv (hr : InvExc P r) : InvExc P (asControl r) := by
  unfold asControl
  split
  · trivial
  · exact hr

theorem trapAll_inv {cause sub : Nat} : InvExc P (trapAll cause sub) := trivial

theorem trapLanes_inv {cause sub : Nat} {ls : List Nat} : InvExc P (trapLanes cause sub ls) := trivial

theorem oobTrap_inv {h : Handle} {es : List (Nat × Nat)} : InvExc P (oobTrap h es) := trivial

theorem spTrap_inv {a b : Nat} : InvExc P (spTrap a b) := trivial

theorem accTrap_inv {ls : List Nat} {a b : Nat} : InvExc P (accTrap ls a b) := trivial

end

/-! ## The functions of the model -/

section
variable {s : State} {c : Ctx} {k : GKey}
  {n core op uid id cl owner pa va off region base part line launch ca lo cluster : Nat} {sd : SReg} {sb : USrc}
  {h : Handle} {w : Wg} {pc : DWord} {i : Instr} {ln : Launch} {runs : List Run} {env : StartEnv}
  {wide skip nt ring : Bool} {need : Need} {rel acq : Option Scope} {men : Option MReg} {lines : List Nat} {d : VReg}
  {a b : LSrc}

/-! ### Access -/

theorem setGroup_inv {g : Group} (hs : Inv s) : Inv (setGroup s g) := hs

theorem updGroup_inv {f : Group → Group} (hs : Inv s) : Inv (updGroup s k f) := hs

theorem updWg_inv {f : Wg → Wg} (hs : Inv s) : Inv (updWg s uid f) := hs

theorem updLaunch_inv {f : Launch → Launch} (hs : Inv s) : Inv (updLaunch s uid f) := hs

theorem updOp_inv {f : Op → Op} (hs : Inv s) : Inv (updOp s id f) := hs

theorem setCore_inv {c : Nat} {x : Core} (hs : Inv s) : Inv (setCore s c x) := hs

theorem setCluster_inv {c : Nat} {x : Cluster} (hs : Inv s) : Inv (setCluster s c x) := hs

theorem freshId_inv (hs : Inv s) : Inv (freshId s).2 := hs

theorem freshFree_inv (hs : Inv s) : Inv (freshFree s).2 := hs

/-! ### Mem -/

theorem mscDrop_inv (hs : Inv s) : Inv (mscDrop s base) :=
  (memoryOnly_mscDrop s base).inv (mscDrop_wf base hs.1) hs

theorem homeSet_inv {key : BitVec 512} {b : Byte} (hs : Inv s) : Inv (homeSet s key ca pa b) :=
  (memoryOnly_homeSet s key ca pa b).inv (homeSet_wf key ca pa b hs.1) hs

theorem readThrough_inv (hs : Inv s) : Inv (readThrough s ca pa) :=
  (memoryOnly_readThrough s ca pa).inv (readThrough_wf ca pa hs.1) hs

theorem l2Touch_inv (hs : Inv s) : Inv (l2Touch s owner base) := hs

theorem l2TouchAll_inv (hs : Inv s) : Inv (l2TouchAll s owner lines) :=
  foldl_inv (fun _ _ hs1 => l2Touch_inv hs1) hs

theorem ownSetBytes_inv {bs : List Byte} (hs : Inv s) : Inv (ownSetBytes s owner ca pa bs) :=
  (memoryOnly_ownSetBytes s owner ca pa bs).inv (ownSetBytes_wf owner ca pa bs hs.1) hs

theorem updL1_inv {p : L1Line → Bool} {f : L1Line → L1Line} (hs : Inv s) : Inv (updL1 s core p f) :=
  setCore_inv hs

theorem l1WriteBack_inv {l : L1Line} (hs : Inv s) : Inv (l1WriteBack s l) :=
  l2TouchAll_inv (foldl_inv (fun _ _ hs1 => homeSet_inv hs1) hs)

theorem l1Drop_inv (hs : Inv s) : Inv (l1Drop s core base) := by
  unfold l1Drop
  split
  · exact hs
  · exact setCore_inv (l1WriteBack_inv hs)

theorem l1WriteBackAll_inv (hs : Inv s) : Inv (l1WriteBackAll s core) :=
  setCore_inv (foldl_inv (fun _ _ hs1 => l1WriteBack_inv hs1) hs)

theorem l1DropAll_inv (hs : Inv s) : Inv (l1DropAll s core) :=
  foldl_inv (fun _ _ hs1 => l1Drop_inv hs1) hs

theorem l1Room_inv (hs : Inv s) : Inv (l1Room s core) := by
  unfold l1Room
  extract_lets c
  split
  · exact hs
  · split
    · exact l1Drop_inv hs
    · exact hs

theorem l1Fill_inv (hs : Inv s) : Inv (l1Fill s core owner ca base) :=
  ite_keeps hs (setCore_inv (l2Touch_inv (readThrough_inv (l1Room_inv (l1Drop_inv hs)))))

theorem l1Set_inv {b : Byte} (hs : Inv s) : Inv (l1Set s core owner ca pa b) :=
  updL1_inv (l1Fill_inv hs)

theorem l1Refresh_inv (hs : Inv s) : Inv (l1Refresh s core pa) := updL1_inv hs

theorem l1Mend_inv {ls : List Loc} (hs : Inv s) : Inv (l1Mend s core ls) :=
  foldl_inv (fun _ _ hs1 => updL1_inv hs1) hs

theorem l1Note_inv {b : StoreByte} (hs : Inv s) : Inv (l1Note s core owner b) := by
  unfold l1Note
  split
  · exact hs
  · exact updL1_inv hs

theorem wcByteOut_inv {b : StoreByte} (hs : Inv s) : Inv (wcByteOut s core owner b) := by
  unfold wcByteOut
  split
  · exact hs
  · exact l1Note_inv (homeSet_inv hs)

theorem wcEntryOut_inv {e : WcEntry} (hs : Inv s) : Inv (wcEntryOut s core e) :=
  setCore_inv (l2TouchAll_inv (foldl_inv (fun _ _ hs1 => wcByteOut_inv hs1) hs))

theorem wcOut_inv {p : WcEntry → Bool} (hs : Inv s) : Inv (wcOut s core p) :=
  foldl_inv (fun _ _ hs1 => wcEntryOut_inv hs1) hs

theorem wcOutRange_inv {hi : Nat} (hs : Inv s) : Inv (wcOutRange s core lo hi) := wcOut_inv hs

theorem touchLocs_inv {ls : List Loc} (hs : Inv s) : Inv (touchLocs s core owner ls) :=
  foldl_inv (fun _ _ hs1 => l1Fill_inv hs1) hs

theorem touchHomeAs_inv {keep : Bool} {ls : List Loc} (hs : Inv s) : Inv (touchHomeAs keep s core owner ls) := by
  unfold touchHomeAs
  exact foldl_inv (fun _ _ hs1 => by
    extract_lets s1 s2 s3
    have hs2 : Inv s1 := wcOutRange_inv hs1
    have hs3 : Inv s2 := by
      unfold s2
      split
      · exact ite_keeps hs2 (l1Drop_inv hs2)
      · exact hs2
    have hs4 : Inv s3 := readThrough_inv hs3
    exact ite_keeps (l2Touch_inv hs4) hs4) (l1Mend_inv hs)

theorem touchHome_inv {ls : List Loc} (hs : Inv s) : Inv (touchHome s core owner ls) :=
  touchHomeAs_inv hs

theorem scratchSet_inv {b : Byte} (hs : Inv s) : Inv (scratchSet s uid off b) := updWg_inv hs

theorem storeByteOut_inv {b : StoreByte} (hs : Inv s) : Inv (storeByteOut s core owner b) := by
  unfold storeByteOut
  split
  · exact scratchSet_inv hs
  · exact l1Set_inv (wcOutRange_inv hs)

theorem clusterDrop_inv (hs : Inv s) : Inv (clusterDrop s cl line) :=
  foldl_inv (fun _ _ hs1 => l1Drop_inv (wcOutRange_inv hs1)) hs

theorem engineByteOut_inv {b : StoreByte} (hs : Inv s) : Inv (engineByteOut s owner b) := by
  unfold engineByteOut
  split
  · exact scratchSet_inv hs
  · exact homeSet_inv hs

theorem engineOut_inv {bs : List StoreByte} (hs : Inv s) : Inv (engineOut s owner bs) :=
  l2TouchAll_inv (foldl_inv (fun _ _ hs1 => engineByteOut_inv hs1) hs)

theorem engineSetAll_inv {bs : List StoreByte} (hs : Inv s) : Inv (engineSetAll s cl owner bs) :=
  engineOut_inv (foldl_inv (fun _ _ hs1 => clusterDrop_inv hs1) hs)

theorem virtTouch_inv (hs : Inv s) : Inv (virtTouch s ln need va n) :=
  (memoryOnly_virtTouch s ln need va n).inv (virtTouch_wf ln need va n hs.1) hs

/-! ### Region -/

theorem plainSet_inv {bs : List Byte} (hs : Inv s) : Inv (plainSet s pa bs) :=
  (memoryOnly_plainSet s pa bs).inv (plainSet_wf pa bs hs.1) hs

theorem plainSetNum_inv {v : Nat} (hs : Inv s) : Inv (plainSetNum s pa n v) := plainSet_inv hs

theorem putBlockKeyed_inv {key : BitVec 512} {b : SMap Byte} (hs : Inv s) : Inv (putBlockKeyed s key base n b) :=
  ⟨putBlockKeyed_wf key base n b hs.1, hs.2⟩

theorem keyedSetNum_inv {v : Nat} (hs : Inv s) : Inv (keyedSetNum s owner pa n v) :=
  ownSetBytes_inv hs

theorem syncLine_inv (hs : Inv s) : Inv (syncLine ln w s line) :=
  keyedSetNum_inv (keyedSetNum_inv hs)

theorem syncLines_inv (hs : Inv s) : Inv (syncLines s uid lines) := by
  unfold syncLines
  split
  · exact hs
  · split
    · split
      · exact foldl_inv (fun _ _ hs1 => syncLine_inv hs1) hs
      · exact hs
    · exact hs

theorem writeNotif_inv {n : Notif} (hs : Inv s) : Inv (writeNotif s n) := by
  unfold writeNotif
  extract_lets s1 src
  have hs1 : Inv s1 := plainSet_inv hs
  clear_value s1
  exact hs1

theorem post_inv {n : Notif} (hs : Inv s) : Inv (post s n) :=
  ite_keeps (ite_keeps hs (writeNotif_inv hs)) (ite_keeps hs hs)

theorem drainHeldN_inv (hs : Inv s) : Inv (drainHeldN n s) := by
  induction n generalizing s with
  | zero => exact hs
  | succ n ih =>
    unfold drainHeldN
    split
    · exact hs
    · exact ite_keeps (ih (writeNotif_inv hs)) hs

theorem drainHeld_inv (hs : Inv s) : Inv (drainHeld s) := drainHeldN_inv hs

/-! ### Rounds -/

theorem retireClass_inv {cls : OpClass} (hs : Inv s) : Inv (retireClass s k cls) := hs

theorem finishOp_inv {via : List Via} (hs : Inv s) : Inv (finishOp s id via) := by
  unfold finishOp
  split
  · exact hs
  · extract_lets s1
    have hs1 : Inv s1 := by
      unfold s1
      split <;> exact hs
    clear_value s1
    exact ite_keeps hs1 (retireClass_inv (updOp_inv hs1))

theorem zeroRows_inv {row : Nat} (hs : Inv s) : Inv (zeroRows s uid row n) := by
  unfold zeroRows
  extract_lets s1
  have hs1 : Inv s1 := updWg_inv hs
  clear_value s1
  exact ite_keeps hs1 hs1

theorem tryAccz_inv (hs : Inv s) : Inv (tryAccz s id) := by
  unfold tryAccz
  split
  · split
    · exact ite_keeps (finishOp_inv (zeroRows_inv hs)) hs
    · exact hs
  · exact hs

theorem runAccz_inv (hs : Inv s) : Inv (runAccz s k) :=
  foldl_inv (fun _ _ hs1 => tryAccz_inv hs1) hs

theorem finishTile_inv {via : List Via} (hs : Inv s) : Inv (finishTile s id via) := by
  unfold finishTile
  split
  · exact runAccz_inv (finishOp_inv hs)
  · exact hs

theorem bslotSet_inv {b : BSlot} (hs : Inv s) : Inv (bslotSet s cl b) := setCluster_inv hs

theorem slotStep_inv {b : BSlot} {st : SlotStep} (hs : Inv s) : Inv (slotStep s cl b st) :=
  bslotSet_inv hs

theorem slotRead_inv {entry : Nat} (hs : Inv s) : Inv (slotRead s cl launch n entry) :=
  bslotSet_inv hs

theorem dropSteps_inv {p : SlotStep → Bool} (hs : Inv s) : Inv (dropSteps s p) := hs

theorem entryRead_inv {e : Resv} (hs : Inv s) : Inv (entryRead s cl e) := by
  unfold entryRead
  split
  · exact slotRead_inv hs
  · exact hs

theorem failRound_inv {e : Resv} {t m sub : Nat} (hs : Inv s) : Inv (failRound s cl e t m sub) :=
  foldl_inv (fun _ _ hs1 => finishTile_inv (updOp_inv (updGroup_inv hs1))) (entryRead_inv (setCluster_inv hs))

theorem failTeamRounds_inv (hs : Inv s) : Inv (failTeamRounds s) := by
  unfold failTeamRounds
  exact foldl_inv (fun _ _ hs1 => foldl_inv (fun _ _ hs2 => by
    split
    · exact ite_keeps (failRound_inv hs2) hs2
    · exact hs2) hs1) hs

/-! ### Ops -/

theorem demand_inv {ok : Bool} {cause sub : Nat} : InvExc (fun _ => True) (demand ok cause sub) :=
  ite_keeps .pass trapAll_inv

theorem demandNone_inv {bad : List Nat} {cause sub : Nat} : InvExc (fun _ => True) (demandNone bad cause sub) :=
  ite_keeps .pass trapLanes_inv

theorem Ctx.fallOk_inv : InvExc (fun _ => True) (Ctx.fallOk c) := demand_inv

theorem moveLanes_inv {ls : List Nat} {target : Nat → DWord} (hs : Inv s) : Inv (moveLanes s k pc ls target) :=
  updGroup_inv hs

theorem Ctx.advance_inv (hs : Inv s) : Inv (Ctx.advance c s) := moveLanes_inv hs

theorem endGroupsWhere_inv {p : GKey → Bool} (hs : Inv s) : Inv (endGroupsWhere s p) :=
  failTeamRounds_inv hs

theorem dropWg_inv (hs : Inv s) : Inv (dropWg s uid) := hs

theorem dropSaved_inv (hs : Inv s) : Inv (dropSaved s uid) := dropSteps_inv (dropWg_inv hs)

theorem endLaunch_inv (hs : Inv s) : Inv (endLaunch s uid) :=
  endGroupsWhere_inv (updLaunch_inv (foldl_inv (fun _ _ hs1 => dropSaved_inv hs1) hs))

theorem recordFault_inv {wgIndex cause sub : Nat} (hs : Inv s) : Inv (recordFault s ln wgIndex cause sub pc) := by
  unfold recordFault
  extract_lets pa first s1 s2 s3 s4 s5
  have hs1 : Inv s1 := plainSetNum_inv hs
  have hs2 : Inv s2 := plainSetNum_inv hs1
  have hs3 : Inv s3 := plainSetNum_inv hs2
  have hs4 : Inv s4 := plainSetNum_inv hs3
  have hs5 : Inv s5 := plainSetNum_inv hs4
  exact ite_keeps (plainSetNum_inv hs5) hs1

theorem rcbSetBit_inv {b : Nat} {v : Bool} (hs : Inv s) : Inv (rcbSetBit s pa b v) :=
  plainSetNum_inv hs

theorem unhandled_inv {cause sub : Nat} (hs : Inv s) : Inv (unhandled s k cause sub pc) := by
  unfold unhandled
  split
  · exact hs
  · extract_lets s1
    have hs1 : Inv s1 := recordFault_inv hs
    split
    · exact endGroupsWhere_inv hs1
    · exact endGroupsWhere_inv hs1
    · exact endLaunch_inv hs1
    · exact endLaunch_inv (rcbSetBit_inv hs1)

theorem frameSet_inv {g v : Nat} (hs : Inv s) : Inv (frameSet s w g off n v) := keyedSetNum_inv hs

theorem clearRegPoison_inv {ws : List (Nat × Nat)} (hs : Inv s) : Inv (clearRegPoison s k ws) :=
  ite_keeps hs hs

theorem saveWords_inv {fs : List Fill} (hs : Inv s) : Inv (saveWords s k fs) := by
  unfold saveWords
  split
  · exact hs
  · exact foldl_inv (fun _ _ hs1 => ite_keeps (frameSet_inv hs1) hs1) hs

theorem landRegs_inv {o : Op} {fs : List Fill} {bad : List (Nat × Nat)} (hs : Inv s) : Inv (landRegs s o fs bad) := by
  unfold landRegs
  split
  · exact hs
  · extract_lets fs1 bad1 held s1 s2 s3
    have hs1 : Inv s1 := clearRegPoison_inv hs
    have hs2 : Inv s2 := updGroup_inv hs1
    clear_value s2
    have hs3 : Inv s3 := ite_keeps hs2 hs2
    exact saveWords_inv hs3

theorem touchHandler_inv (hs : Inv s) : Inv (touchHandler s ln) := ite_keeps hs (virtTouch_inv hs)

theorem enterHandler_inv {cause sub : Nat} (hs : Inv s) : Inv (enterHandler s k cause sub pc) := by
  unfold enterHandler
  split
  · exact hs
  · split
    · exact unhandled_inv (touchHandler_inv hs)
    · exact updGroup_inv (touchHandler_inv hs)

theorem takeTrap_inv {t : TrapInfo} {opc : Option DWord} {ostate : Nat} (hs : Inv s) :
    Inv (takeTrap s k pc t opc ostate) := by
  unfold takeTrap
  split
  · exact hs
  · split
    · exact unhandled_inv hs
    · extract_lets s1 s2 s3
      have hs1 : Inv s1 := putBlockKeyed_inv hs
      have hs2 : Inv s2 := updGroup_inv hs1
      have hs3 : Inv s3 := updGroup_inv hs2
      exact ite_keeps (post_inv hs3) (enterHandler_inv hs2)

theorem takeTrapIn_inv {inTrap : Bool} {t : TrapInfo} {opc : Option DWord} {ostate : Nat} (hs : Inv s) :
    Inv (takeTrapIn s inTrap k pc t opc ostate) :=
  ite_keeps (unhandled_inv hs) (takeTrap_inv hs)

theorem markFocus_inv (hs : Inv s) : Inv (markFocus s n) := ite_keeps hs hs

theorem unpair_inv (hs : Inv s) : Inv (unpair s) := hs

theorem raiseTrap_inv {s0 : State} {t : TrapInfo} (hs : Inv s0) (hs1 : Inv s) : Inv (raiseTrap s0 s t) := by
  unfold raiseTrap
  split
  · exact markFocus_inv hs
  · split
    · exact takeTrap_inv hs1
    · exact ite_keeps (takeTrap_inv hs1) hs1

theorem countIssue_inv (hs : Inv s) : Inv (countIssue s k pc) := updGroup_inv hs

theorem holdHere_inv {h : Hold} (hs : Inv s) : Inv (holdHere s k h) := updGroup_inv hs

theorem parkAt_inv {mask : DWord} {slots : SMap (BitVec 1024)} {why : ParkWhy} (hs : Inv s) :
    Inv (parkAt s k pc mask slots why) :=
  updGroup_inv hs

theorem Ctx.park_inv {why : ParkWhy} (hs : Inv s) : Inv (Ctx.park c s why) := parkAt_inv hs

theorem parkFetch_inv {why : ParkWhy} (hs : Inv s) : Inv (parkFetch s k pc why) := updGroup_inv hs

theorem Ctx.settleFrom_inv {s0 : State} {r : Except Stop State} (hs : Inv s0) (hs1 : Inv s) (hx : InvExc Inv r) :
    InvRes (Ctx.settleFrom c s0 s r) := by
  unfold Ctx.settleFrom
  split
  · exact .next (markFocus_inv (countIssue_inv hx))
  · exact .next (raiseTrap_inv hs1 hs1)
  · exact .next (raiseTrap_inv hs1 hx)
  · exact .next (markFocus_inv (Ctx.park_inv hs1))
  · exact .next (markFocus_inv (Ctx.park_inv hx))
  · exact .next (markFocus_inv (holdHere_inv hx))
  · exact .next (unpair_inv hs)

theorem Ctx.settle_inv {r : Except Stop State} (hs : Inv s) (hx : InvExc Inv r) : InvRes (Ctx.settle c s r) :=
  Ctx.settleFrom_inv hs hs hx

theorem uniform_inv {body : Ctx → State → Except Stop State} (hf : ∀ a b, Inv b → InvExc Inv (body a b))
    (hs : Inv s) :
    InvRes (uniform i body s) := by
  unfold uniform
  split
  · exact .fault
  · exact Ctx.settle_inv hs (Ctx.fallOk_inv.andThen fun _ => (hf _ _ hs).bind fun _ hs1 => .ok (Ctx.advance_inv hs1))

theorem returnFromTrap_inv (hs : Inv s) : Inv (returnFromTrap s k skip pc) := by
  unfold returnFromTrap
  split
  · exact hs
  · exact ite_keeps (unhandled_inv hs) (setGroup_inv hs)

/-! ### Operands -/

theorem LSpec.mk0_inv {srcs : List (SrcTy × LSrc)} {named : List Nat} : SpecInv (LSpec.mk0 i srcs named) :=
  ⟨fun _ _ => .pass, fun _ => .pass⟩

theorem softDraws_inv {wg : Nat} {rs : List (Nat × List Nat)} : InvExc (fun _ => True) (softDraws s wg rs) := by
  unfold softDraws
  split
  · exact .pass
  · extract_lets bad src
    split
    · exact .pass
    · exact .error trivial

theorem LSpec.ready_inv {p : LSpec} (hp : SpecInv p) : InvExc (fun _ => True) (LSpec.ready p c s) :=
  demand_inv.andThen fun _ => (hp.2 _).andThen fun _ => ite_keeps (.error trivial) (demand_inv.andThen fun _ =>
    softDraws_inv)

theorem LSpec.spend_inv {p : LSpec} (hs : Inv s) : Inv (LSpec.spend p c s) := by
  unfold LSpec.spend
  split
  · exact hs
  · exact updGroup_inv hs

theorem LSpec.step9_inv {p : LSpec} (hp : SpecInv p) : InvExc (fun _ => True) (LSpec.step9 p c) := by
  unfold LSpec.step9
  split
  · exact .pass
  · exact .pass
  · exact demandNone_inv.andThen fun _ => demand_inv.andThen fun _ => (hp.1 _ _).andThen fun _ => .pass

theorem LSpec.enter_inv {p : LSpec} {falls : Bool} (hp : SpecInv p) (hs : Inv s) :
    InvExc (fun r => Inv r.s) (LSpec.enter p falls c s) :=
  (LSpec.step9_inv hp).andThen fun _ => .ite_bind Ctx.fallOk_inv .pass fun _ _ => demandNone_inv.andThen fun _ =>
    demand_inv.andThen fun _ => softDraws_inv.andThen fun _ => .ok hs

theorem perLaneAt_inv {falls : Bool} {p : LSpec} {body : Issue → Except Stop State} (hp : SpecInv p)
    (hf : ∀ a, Inv a.s → InvExc Inv (body a)) (hs : Inv s) :
    InvRes (perLaneAt falls p body s) := by
  unfold perLaneAt
  split
  · exact .fault
  · split
    · next heq => exact Ctx.settle_inv hs (.error ((LSpec.ready_inv hp).of_error heq))
    · extract_lets acc s1 c1
      have hs1 : Inv s1 := LSpec.spend_inv hs
      split
      · exact .next (markFocus_inv hs1)
      · exact Ctx.settleFrom_inv hs hs1 ((LSpec.enter_inv hp hs1).bind fun _ hs2 => (hf _ hs2).bind fun _ hs3 =>
        .ok (ite_keeps (Ctx.advance_inv hs3) hs3))

theorem perLane_inv {p : LSpec} {body : Issue → Except Stop State} (hp : SpecInv p)
    (hf : ∀ a, Inv a.s → InvExc Inv (body a)) (hs : Inv s) :
    InvRes (perLane p body s) :=
  perLaneAt_inv hp (fun _ hs1 => hf _ hs1) hs

theorem commitLanes_inv {outs : List LaneOut} {fl : FpStatus} (hs : Inv s) : Inv (commitLanes s k outs fl) :=
  updGroup_inv (clearRegPoison_inv hs)

theorem Issue.commit_inv {x : Issue} {outs : List LaneOut} {fl : FpStatus} (hs : Inv s) :
    Inv (Issue.commit x s outs fl) :=
  commitLanes_inv hs

theorem Issue.uniformArg_inv {x : Issue} : InvExc (fun _ => True) (Issue.uniformArg x n) := by
  unfold Issue.uniformArg
  exact demandNone_inv.andThen fun _ => by
    split <;> exact .pass

theorem lanewise_inv {p : LSpec} {f : Word → Word → Word → FRes} (hp : SpecInv p) (hs : Inv s) :
    InvRes (lanewise p d f s) :=
  perLane_inv hp (fun _ hs1 => .ok (Issue.commit_inv hs1)) hs

/-! ### Fifo -/

theorem acceptOp_inv {cls : OpClass} {kind : OpKind} (hs : Inv s) : Inv (acceptOp s c cls kind).1 := by
  unfold acceptOp
  extract_lets id g n s1 op
  have hs1 : Inv s1 := updGroup_inv hs
  clear_value s1
  exact hs1

theorem clearPoisonFor_inv {bs : List StoreByte} (hs : Inv s) : Inv (clearPoisonFor s bs) :=
  ite_keeps hs hs

theorem collRelease_inv (hs : Inv s) : Inv (collRelease s core) := hs

theorem collDrop_inv (hs : Inv s) : Inv (collDrop s core id) := collRelease_inv (setCore_inv hs)

theorem collPerform_inv {o : Op} (hs : Inv s) : Inv (collPerform s w o) := by
  unfold collPerform
  split
  · exact finishOp_inv (collDrop_inv (engineSetAll_inv (clearPoisonFor_inv hs)))
  · exact updOp_inv (collDrop_inv (touchHome_inv hs))
  · exact hs

theorem flushScats_inv {upto : Nat} (hs : Inv s) : Inv (flushScats s k upto) := by
  unfold flushScats
  split
  · exact hs
  · exact foldl_inv (fun _ _ hs1 => ite_keeps hs1 (collPerform_inv hs1)) hs

theorem markHits_inv {els : List WatchEl} (hs : Inv s) : Inv (markHits s id els) := by
  unfold markHits
  split
  · exact hs
  · exact ite_keeps hs (updOp_inv hs)

theorem seeHits_inv {q : JoinHit → Bool} (hs : Inv s) : Inv (seeHits s k q) := hs

theorem observe_inv {g : Group} {p : JoinHit → Bool} (hs : Inv s) : InvExc Inv (observe s g p) := by
  unfold observe
  extract_lets mine see
  have hs1 : ∀ a, Inv (see a) := fun _ => seeHits_inv hs
  split
  · exact .ok hs
  · split
    · exact .ok (hs1 _)
    · split
      · exact .ok hs
      · exact .error (hs1 _)

theorem releaseByteOut_inv {b : StoreByte} (hs : Inv s) : Inv (releaseByteOut s core owner b) := by
  unfold releaseByteOut
  split
  · exact scratchSet_inv hs
  · exact homeSet_inv (l1Drop_inv (wcOutRange_inv hs))

theorem entryOut_inv {bs : List StoreByte} (hs : Inv s) : Inv (entryOut s k w op nt rel bs) := by
  unfold entryOut
  split
  · exact setCore_inv (foldl_inv (fun _ _ hs1 => l1Drop_inv hs1) hs)
  · split
    · exact l2TouchAll_inv (foldl_inv (fun _ _ hs2 => releaseByteOut_inv hs2) (l1WriteBackAll_inv hs))
    · exact foldl_inv (fun _ _ hs3 => storeByteOut_inv hs3) hs

theorem storeHalf_inv (hs : Inv s) : Inv (storeHalf s op) := by
  unfold storeHalf
  split
  · split
    · exact ite_keeps (finishOp_inv hs) (updOp_inv hs)
    · exact hs
  · exact hs

theorem storeLeft_inv (hs : Inv s) : Inv (storeLeft s op) := by
  unfold storeLeft
  split
  · split
    · exact foldl_inv (fun _ _ hs1 => storeHalf_inv hs1) (finishOp_inv hs)
    · exact storeHalf_inv hs
  · exact hs

theorem locSetBytes_inv {l : Loc} {bs : List Byte} (hs : Inv s) : Inv (locSetBytes s owner l bs) := by
  unfold locSetBytes
  split
  · exact foldl_inv (fun _ _ hs1 => scratchSet_inv hs1) hs
  · exact ownSetBytes_inv hs

theorem atomReady_inv {l : Loc} (hs : Inv s) : Inv (atomReady s core owner rel l) := by
  unfold atomReady
  extract_lets s1
  have hs1 : Inv s1 := ite_keeps (l1WriteBackAll_inv hs) hs
  split
  · exact hs1
  · extract_lets s2
    have hs2 : Inv s2 := l1Drop_inv (wcOutRange_inv hs1)
    exact l2Touch_inv (readThrough_inv hs2)

theorem performReq_inv {a : Atomic} {r : Nat} (hs : Inv s) : Inv (performReq s w op a r) := by
  unfold performReq
  split
  · exact hs
  · exact updOp_inv (foldl_inv (fun _ _ hs1 => l1Note_inv hs1) (locSetBytes_inv (ite_keeps hs (atomReady_inv hs))))

theorem atomicDone_inv {a : Atomic} (hs : Inv s) : Inv (atomicDone s k w op a) := by
  unfold atomicDone
  extract_lets s1 s2
  have hs1 : Inv s1 := updGroup_inv hs
  have hs2 : Inv s2 := ite_keeps (l1DropAll_inv hs1) hs1
  split
  · exact updOp_inv hs2
  · exact finishOp_inv hs2

theorem atomicSettle_inv (hs : Inv s) : Inv (atomicSettle s k w op) := by
  unfold atomicSettle
  split
  · split
    · exact ite_keeps (atomicDone_inv hs) hs
    · exact hs
  · exact hs

theorem performOne_inv {r : Nat} (hs : Inv s) : Inv (performOne s op r) := by
  unfold performOne
  split
  · exact hs
  · split
    · exact ite_keeps (atomicSettle_inv (performReq_inv hs)) hs
    · exact hs

theorem performAll_inv (hs : Inv s) : Inv (performAll s op n) := by
  induction n with
  | zero => exact hs
  | succ n ih => exact performOne_inv ih

theorem drainAtomic_inv (hs : Inv s) : Inv (drainAtomic s k op) :=
  performAll_inv (ite_keeps (flushScats_inv hs) hs)

theorem settlePassed_inv {ls : List Loc} (hs : Inv s) : Inv (settlePassed s core k ls) := by
  unfold settlePassed
  exact foldl_inv (fun _ _ hs1 => by
    split
    · exact hs1
    · exact foldl_inv (fun _ _ hs2 => drainAtomic_inv hs2) hs1) hs

theorem markPassed_inv {ids : List Nat} {gates : List Loc} (hs : Inv s) : Inv (markPassed s ids gates) :=
  hs

theorem performAtomic_inv {r : Nat} (hs : Inv s) : InvOpt Inv (performAtomic s op r) := by
  unfold performAtomic
  split
  · exact .none
  · exact .some (performOne_inv (markPassed_inv (settlePassed_inv hs)))

theorem sendAtomic_inv {r : Nat} (hs : Inv s) : InvOpt Inv (sendAtomic s op r) := by
  unfold sendAtomic
  split
  · exact .none
  · exact ite_keeps .none (.some (updOp_inv (atomReady_inv hs)))

theorem retireStore_inv (hs : Inv s) : InvOpt Inv (retireStore s k) := by
  unfold retireStore
  split
  · split
    · exact ite_keeps .none (.some (storeLeft_inv (entryOut_inv (updGroup_inv (settlePassed_inv hs)))))
    · exact .none
  · exact .none

theorem drainOne_inv (hs : Inv s) : Inv (drainOne s k) := by
  unfold drainOne
  split
  · split
    · exact hs
    · exact InvOpt.getD (retireStore_inv (ite_keeps (flushScats_inv hs) hs)) (ite_keeps (flushScats_inv hs) hs)
    · exact drainAtomic_inv (settlePassed_inv hs)
  · exact hs

theorem drainN_inv (hs : Inv s) : Inv (drainN s k n) := by
  induction n generalizing s with
  | zero => exact hs
  | succ n ih => exact ih (drainOne_inv hs)

theorem drainBelow_inv {upto : Nat} (hs : Inv s) : Inv (drainBelow s k upto) := by
  unfold drainBelow
  split
  · exact hs
  · exact drainN_inv hs

theorem settleScats_inv {us : List (Nat × Nat)} (hs : Inv s) : Inv (settleScats s k us) := by
  unfold settleScats
  split
  · exact hs
  · exact flushScats_inv (drainBelow_inv hs)

theorem drainFifo_inv (hs : Inv s) : Inv (drainFifo s k) := by
  unfold drainFifo
  split
  · exact hs
  · exact drainN_inv hs

/-! ### LanePath -/

theorem Ctx.handle_inv : InvExc (fun _ => True) (Ctx.handle c n) :=
  demand_inv.andThen fun _ => .pass

theorem acceptFmt_inv {fmts : List Nat} : InvExc (fun _ => True) (acceptFmt h fmts) := demand_inv

theorem spCheck_inv : InvExc (fun _ => True) (spCheck c runs) := by
  unfold spCheck
  split
  · exact .pass
  · exact .error trivial

theorem laneRuns_inv {align : Nat} {idx : List (Nat × Nat)} : InvExc (fun _ => True) (laneRuns c h n align idx) :=
  ite_keeps oobTrap_inv (.ite_bind spCheck_inv .pass fun _ _ => demandNone_inv.andThen fun _ => .pass)

theorem xlCheck_inv {xs parks : List XLine} : InvExc (fun _ => True) (xlCheck xs parks) := by
  unfold xlCheck
  split
  · exact .error trivial
  · split
    · exact .error trivial
    · exact .pass

theorem presenceCheck_inv : InvExc (fun _ => True) (presenceCheck c runs) := by
  unfold presenceCheck
  split
  · exact .pass
  · exact .error trivial

theorem softCheck_inv : InvExc (fun _ => True) (softCheck c s h runs) := by
  unfold softCheck
  split
  · exact .pass
  · extract_lets bad src
    clear_value bad
    split
    · exact .pass
    · exact .error trivial

theorem reachLines_inv {tolerate : Bool} : InvExc (fun _ => True) (reachLines c s h need tolerate runs) :=
  ite_keeps presenceCheck_inv xlCheck_inv

theorem reach_inv {tolerate : Bool} : InvExc (fun _ => True) (reach c s h need tolerate runs) :=
  reachLines_inv.andThen fun _ => ite_keeps .pass softCheck_inv

theorem watchStep_inv {els : List WatchEl} (hs : Inv s) : InvExc Inv (watchStep c s els) := by
  unfold watchStep
  split
  · exact .ok hs
  · extract_lets skip s1 els1 hitSlot
    have hs1 : Inv s1 := updGroup_inv hs
    split
    · exact .ok hs1
    · extract_lets e src
      exact .error hs1

theorem observeLines_inv {ls : List Nat} (hs : Inv s) : InvExc Inv (observeLines c s ls) :=
  ite_keeps (observe_inv hs) (.ok hs)

theorem observeParked_inv (hs : Inv s) : InvExc Inv (observeParked c s h runs) :=
  observeLines_inv hs

theorem settleFor_inv {ls : List Loc} (hs : Inv s) : Inv (settleFor c s ls) := by
  unfold settleFor
  extract_lets s1
  have hs1 : Inv s1 := settlePassed_inv (settleScats_inv hs)
  exact ite_keeps (drainFifo_inv hs1) hs1

theorem reachIn_inv {tolerate : Bool} (hs : Inv s) : InvExc Inv (reachIn c s h need tolerate runs) :=
  thereafter_inv hs (reach_inv.andThen fun _ => .ok hs)

theorem reachRead_inv {tolerate : Bool} (hs : Inv s) : InvExc Inv (reachRead c s h tolerate runs) :=
  reachIn_inv (settleFor_inv hs)

theorem reachRw_inv (hs : Inv s) : InvExc Inv (reachRw c s h runs) :=
  reachIn_inv (settleScats_inv hs)

theorem bindState_inv {ls : List Loc} (hs : Inv s) : Inv (bindState c s ls) :=
  touchLocs_inv (settleFor_inv hs)

theorem bindWide_inv {ls : List Loc} (hs : Inv s) : Inv (bindWide c s wide ls) :=
  ite_keeps (l1Mend_inv (bindState_inv hs)) (bindState_inv hs)

theorem addDigest_inv {bs : List (Nat × Byte)} (hs : Inv s) : Inv (addDigest s ln h bs) :=
  ite_keeps (updLaunch_inv hs) hs

theorem tilesPass_inv {rd : List Loc → List Byte} : InvExc (fun _ => True) (tilesPass c s h rd runs) := by
  unfold tilesPass
  extract_lets ts bad
  clear_value bad
  split
  · exact .pass
  · extract_lets low src
    exact .error trivial

theorem tileCheck_inv (hs : Inv s) : InvExc Inv (tileCheck c s h runs) :=
  thereafter_inv (bindWide_inv hs) (tilesPass_inv.andThen fun _ => .ok (bindWide_inv hs))

/-! ### Flags -/

theorem execFstat_inv (hs : Inv s) : InvRes (execFstat sd sb s) :=
  uniform_inv (fun _ _ hs1 => .ok (updGroup_inv hs1)) hs

/-! ### LaneInt -/

theorem intOp_inv {f : Word → Word → Word} (hs : Inv s) : InvRes (intOp i d a b f s) :=
  lanewise_inv LSpec.mk0_inv hs

theorem intAcc_inv {f : Word → Word → Word → Word} (hs : Inv s) : InvRes (intAcc i d a b f s) :=
  lanewise_inv ⟨fun _ _ => .pass, fun _ => .pass⟩ hs

theorem execIadd_inv (hs : Inv s) : InvRes (execIadd d a b s) := intOp_inv hs

theorem execIsub_inv (hs : Inv s) : InvRes (execIsub d a b s) := intOp_inv hs

theorem execImul_inv (hs : Inv s) : InvRes (execImul d a b s) := intOp_inv hs

theorem execImulh_inv (hs : Inv s) : InvRes (execImulh d a b s) := intOp_inv hs

theorem execImulhu_inv (hs : Inv s) : InvRes (execImulhu d a b s) := intOp_inv hs

theorem execImad_inv (hs : Inv s) : InvRes (execImad d a b s) := intAcc_inv hs

theorem execImin_inv (hs : Inv s) : InvRes (execImin d a b s) := intOp_inv hs

theorem execImax_inv (hs : Inv s) : InvRes (execImax d a b s) := intOp_inv hs

theorem execAnd_inv (hs : Inv s) : InvRes (execAnd d a b s) := intOp_inv hs

theorem execOr_inv (hs : Inv s) : InvRes (execOr d a b s) := intOp_inv hs

theorem execXor_inv (hs : Inv s) : InvRes (execXor d a b s) := intOp_inv hs

theorem execShl_inv (hs : Inv s) : InvRes (execShl d a b s) := intOp_inv hs

theorem execShr_inv (hs : Inv s) : InvRes (execShr d a b s) := intOp_inv hs

theorem execSar_inv (hs : Inv s) : InvRes (execSar d a b s) := intOp_inv hs

theorem execIuny_inv {op : IunyOp} (hs : Inv s) : InvRes (execIuny op d a s) :=
  lanewise_inv LSpec.mk0_inv hs

theorem maskSet_inv {t : SrcTy} {m : MReg} {f : Word → Word → Bool} (hs : Inv s) : InvRes (maskSet i t m a b f s) :=
  perLane_inv LSpec.mk0_inv (fun _ hs1 => .ok (Issue.commit_inv hs1)) hs

theorem execIset_inv {c : ICond} {m : MReg} (hs : Inv s) : InvRes (execIset c m a b s) :=
  maskSet_inv hs

/-! ### LaneFloat -/

theorem fpOp_inv {f : Nat → Nat → FRes} (hs : Inv s) : InvRes (fpOp i d a b f s) :=
  lanewise_inv LSpec.mk0_inv hs

theorem fpAcc_inv {t : SrcTy} {f : Nat → Nat → Nat → FRes} (hs : Inv s) : InvRes (fpAcc i t d a b f s) :=
  lanewise_inv ⟨fun _ _ => .pass, fun _ => .pass⟩ hs

theorem execFadd_inv (hs : Inv s) : InvRes (execFadd d a b s) := fpOp_inv hs

theorem execFsub_inv (hs : Inv s) : InvRes (execFsub d a b s) := fpOp_inv hs

theorem execFmul_inv (hs : Inv s) : InvRes (execFmul d a b s) := fpOp_inv hs

theorem execFfma_inv (hs : Inv s) : InvRes (execFfma d a b s) := fpAcc_inv hs

theorem execFmin_inv (hs : Inv s) : InvRes (execFmin d a b s) := fpOp_inv hs

theorem execFmax_inv (hs : Inv s) : InvRes (execFmax d a b s) := fpOp_inv hs

theorem execFset_inv {c : FCond} {m : MReg} (hs : Inv s) : InvRes (execFset c m a b s) :=
  maskSet_inv hs

theorem execFuny_inv {op : FunyOp} (hs : Inv s) : InvRes (execFuny op d a s) :=
  lanewise_inv LSpec.mk0_inv hs

theorem execFcvt_inv {p : FcvtPair} {r : Rnd} {sat : Bool} (hs : Inv s) : InvRes (execFcvt p r sat d a s) :=
  perLane_inv ⟨fun _ _ => .pass, fun _ => .pass⟩ (fun _ hs1 => .ok (Issue.commit_inv hs1)) hs

theorem execHfma2_inv (hs : Inv s) : InvRes (execHfma2 d a b s) := fpAcc_inv hs

theorem execBfma2_inv (hs : Inv s) : InvRes (execBfma2 d a b s) := fpAcc_inv hs

/-! ### LaneMove -/

theorem crossLane_inv {p : LSpec} {f : List LaneIn → LaneIn → List (Nat × Word)} (hp : SpecInv p) (hs : Inv s) :
    InvRes (crossLane p f s) :=
  perLane_inv hp (fun _ hs1 => .ok (Issue.commit_inv hs1)) hs

theorem execMov_inv (hs : Inv s) : InvRes (execMov d a s) := lanewise_inv LSpec.mk0_inv hs

theorem execCmov_inv {m : MReg} (hs : Inv s) : InvRes (execCmov d a m s) :=
  crossLane_inv LSpec.mk0_inv hs

theorem execLxor_inv (hs : Inv s) : InvRes (execLxor d a b s) :=
  perLane_inv LSpec.mk0_inv (fun _ hs1 => Issue.uniformArg_inv.andThen fun _ => .ok (Issue.commit_inv hs1)) hs

theorem execLshf_inv (hs : Inv s) : InvRes (execLshf d a b s) := crossLane_inv LSpec.mk0_inv hs

theorem execLred_inv {op : RedOp} (hs : Inv s) : InvRes (execLred op d a s) :=
  perLane_inv LSpec.mk0_inv (fun _ hs1 => .ok (Issue.commit_inv hs1)) hs

theorem execLscan_inv {excl : Bool} {op : RedOp} (hs : Inv s) : InvRes (execLscan excl op d a s) :=
  perLane_inv LSpec.mk0_inv (fun _ hs1 => .ok (Issue.commit_inv hs1)) hs

theorem laneSetSpec_inv : SpecInv (laneSetSpec i d a s) := LSpec.mk0_inv

theorem execMatchv_inv (hs : Inv s) : InvRes (execMatchv d a s) :=
  perLane_inv laneSetSpec_inv (fun _ hs1 => .ok (Issue.commit_inv hs1)) hs

theorem execBallot_inv (hs : Inv s) : InvRes (execBallot d a s) :=
  perLane_inv laneSetSpec_inv (fun _ hs1 => .ok (Issue.commit_inv hs1)) hs

theorem execCmpct_inv {m : MReg} (hs : Inv s) : InvRes (execCmpct d a m s) :=
  perLane_inv LSpec.mk0_inv (fun _ hs1 => .ok (Issue.commit_inv hs1)) hs

theorem execMskop_inv {op : MskOp} {m p q : MReg} (hs : Inv s) : InvRes (execMskop op m p q s) :=
  perLane_inv LSpec.mk0_inv (fun _ hs1 => .ok (Issue.commit_inv hs1)) hs

theorem execMpopc_inv {pre : Bool} {m : MReg} (hs : Inv s) : InvRes (execMpopc pre d m s) :=
  crossLane_inv LSpec.mk0_inv hs

/-! ### Streams -/

theorem execDraw_inv {n : Fin 4} {w2 : Bool} (hs : Inv s) : InvRes (execDraw n w2 d s) :=
  perLane_inv ⟨fun _ _ => .pass, fun _ => .pass⟩ (fun _ hs1 => .ok (Issue.commit_inv hs1)) hs

theorem execCatd_inv {n : Fin 4} (hs : Inv s) : InvRes (execCatd n d a s) :=
  perLane_inv ⟨fun _ _ => .pass, fun _ => .pass⟩ (fun _ hs1 => .ok (Issue.commit_inv hs1)) hs

theorem execDsskip_inv {n : Fin 4} (hs : Inv s) : InvRes (execDsskip n a b s) :=
  perLane_inv LSpec.mk0_inv (fun _ hs1 => .ok (Issue.commit_inv hs1)) hs

theorem execDssetp_inv {n : Fin 4} (hs : Inv s) : InvRes (execDssetp n a b s) :=
  perLane_inv LSpec.mk0_inv (fun _ hs1 => .ok (Issue.commit_inv hs1)) hs

theorem execDsfork_inv (hs : Inv s) : InvRes (execDsfork a s) :=
  perLane_inv LSpec.mk0_inv (fun _ hs1 => .ok (Issue.commit_inv hs1)) hs

theorem execDspos_inv {n : Fin 4} (hs : Inv s) : InvRes (execDspos n d s) :=
  perLane_inv LSpec.mk0_inv (fun _ hs1 => .ok (Issue.commit_inv hs1)) hs

/-! ### Branch -/

theorem branch_inv {p : LSpec} {next : Ctx → LaneIn → DWord} {link : Ctx → List (Nat × Word)} (hp : SpecInv p)
    (hs : Inv s) :
    InvRes (branch p next link s) :=
  perLaneAt_inv hp (fun _ hs1 => demandNone_inv.andThen fun _ => .ok (moveLanes_inv (Issue.commit_inv hs1))) hs

theorem plainBranch_inv {srcs : List (SrcTy × LSrc)} {next : Ctx → LaneIn → DWord} (hs : Inv s) :
    InvRes (plainBranch i srcs next s) :=
  branch_inv LSpec.mk0_inv hs

theorem execBra_inv {disp : BitVec 16} (hs : Inv s) : InvRes (execBra disp s) := plainBranch_inv hs

theorem execBraKernelAbsolute_inv {off : Word} (hs : Inv s) : InvRes (execBraKernelAbsolute off s) :=
  plainBranch_inv hs

theorem execBrm_inv {m : MReg} {disp : BitVec 16} (hs : Inv s) : InvRes (execBrm m disp s) :=
  plainBranch_inv hs

theorem execBrmn_inv {m : MReg} {disp : BitVec 16} (hs : Inv s) : InvRes (execBrmn m disp s) :=
  plainBranch_inv hs

theorem execBrz_inv {d : LSrc} {disp : BitVec 16} (hs : Inv s) : InvRes (execBrz d disp s) :=
  plainBranch_inv hs

theorem execBrnz_inv {d : LSrc} {disp : BitVec 16} (hs : Inv s) : InvRes (execBrnz d disp s) :=
  plainBranch_inv hs

theorem execCall_inv {disp : BitVec 16} (hs : Inv s) : InvRes (execCall disp s) :=
  branch_inv LSpec.mk0_inv hs

theorem execCallKernelAbsolute_inv {off : Word} (hs : Inv s) : InvRes (execCallKernelAbsolute off s) :=
  branch_inv LSpec.mk0_inv hs

theorem execRet_inv (hs : Inv s) : InvRes (execRet a s) := plainBranch_inv hs

theorem execTrap_inv {code : BitVec 16} (hs : Inv s) : InvRes (execTrap code s) :=
  perLaneAt_inv LSpec.mk0_inv (fun _ _ => .error trivial) hs

theorem uniformBranch_inv {disp : BitVec 15} {taken : Ctx → Bool} (hs : Inv s) :
    InvRes (uniformBranch i disp taken s) := by
  unfold uniformBranch
  split
  · exact .fault
  · exact Ctx.settle_inv hs (demand_inv.andThen fun _ => .ok (moveLanes_inv hs))

theorem execSbra_inv {disp : BitVec 15} (hs : Inv s) : InvRes (execSbra disp s) :=
  uniformBranch_inv hs

theorem execSbz_inv {r : SReg} {disp : BitVec 15} (hs : Inv s) : InvRes (execSbz r disp s) :=
  uniformBranch_inv hs

theorem execSbnz_inv {r : SReg} {disp : BitVec 15} (hs : Inv s) : InvRes (execSbnz r disp s) :=
  uniformBranch_inv hs

/-! ### Scalar -/

theorem scalarOp_inv {f : Word → Word → Word} (hs : Inv s) : InvRes (scalarOp i sd sb f s) :=
  uniform_inv (fun _ _ hs1 => .ok (updGroup_inv hs1)) hs

theorem execSadd_inv (hs : Inv s) : InvRes (execSadd sd sb s) := scalarOp_inv hs

theorem execSsub_inv (hs : Inv s) : InvRes (execSsub sd sb s) := scalarOp_inv hs

theorem execSmul_inv (hs : Inv s) : InvRes (execSmul sd sb s) := scalarOp_inv hs

theorem execSand_inv (hs : Inv s) : InvRes (execSand sd sb s) := scalarOp_inv hs

theorem execSor_inv (hs : Inv s) : InvRes (execSor sd sb s) := scalarOp_inv hs

theorem execSxor_inv (hs : Inv s) : InvRes (execSxor sd sb s) := scalarOp_inv hs

theorem execSshl_inv (hs : Inv s) : InvRes (execSshl sd sb s) := scalarOp_inv hs

theorem execSshr_inv (hs : Inv s) : InvRes (execSshr sd sb s) := scalarOp_inv hs

theorem execSsar_inv (hs : Inv s) : InvRes (execSsar sd sb s) := scalarOp_inv hs

theorem execSmin_inv (hs : Inv s) : InvRes (execSmin sd sb s) := scalarOp_inv hs

theorem execSmax_inv (hs : Inv s) : InvRes (execSmax sd sb s) := scalarOp_inv hs

theorem execSmov_inv (hs : Inv s) : InvRes (execSmov sd sb s) := scalarOp_inv hs

theorem execSset_inv {c : ICond} (hs : Inv s) : InvRes (execSset c sd sb s) := scalarOp_inv hs

theorem execSmovi_inv {imm : BitVec 15} (hs : Inv s) : InvRes (execSmovi sd imm s) :=
  uniform_inv (fun _ _ hs1 => .ok (updGroup_inv hs1)) hs

theorem execSlui_inv {imm : BitVec 15} (hs : Inv s) : InvRes (execSlui sd imm s) :=
  uniform_inv (fun _ _ hs1 => .ok (updGroup_inv hs1)) hs

theorem execV2s_inv {lane : Bool} {v : VReg} {x : Fin 64} (hs : Inv s) : InvRes (execV2s sd lane v x s) := by
  unfold execV2s
  split
  · exact .fault
  · exact Ctx.settle_inv hs (demand_inv.andThen fun _ => demand_inv.andThen fun _ => Ctx.fallOk_inv.andThen fun _ =>
    demand_inv.andThen fun _ => by
        extract_lets w next
        have hs1 : ∀ a, InvExc Inv (next a) := fun _ => .ok (Ctx.advance_inv (updGroup_inv hs))
        split
        · exact demandNone_inv.andThen fun _ => hs1 ()
        · exact demandNone_inv.andThen fun _ => demandNone_inv.andThen fun _ => hs1 ())

theorem execNop_inv (hs : Inv s) : InvRes (execNop s) := uniform_inv (fun _ _ hs1 => .ok hs1) hs

theorem execNopLiteral_inv {inSd inSb : Bool} {w : Word} (hs : Inv s) : InvRes (execNopLiteral inSd inSb w s) :=
  uniform_inv (fun _ _ hs1 => .ok hs1) hs

theorem idItem_inv {sel : Nat} : InvExc (fun _ => True) (idItem c sel) := by
  unfold idItem
  extract_lets base
  split
  · exact .pass
  · exact .pass
  · exact .pass
  · exact .pass
  · exact .pass
  · exact .pass
  · exact .pass
  · exact ite_keeps trapAll_inv .pass
  · exact ite_keeps trapAll_inv .pass
  · exact .pass
  · exact .pass
  · exact .pass
  · exact .pass
  · exact trapAll_inv

theorem execIdrd_inv (hs : Inv s) : InvRes (execIdrd sd sb s) :=
  uniform_inv (fun _ _ hs1 => idItem_inv.andThen fun _ => .ok (updGroup_inv hs1)) hs

theorem execQrd_inv {q : Fin 8} (hs : Inv s) : InvRes (execQrd q sb s) := by
  unfold execQrd
  exact uniform_inv (fun _ _ hs1 => by
    extract_lets put
    have hs2 : ∀ a b, Inv a → InvExc Inv (put a b) := fun _ _ hs3 => .ok (updGroup_inv hs3)
    split
    · exact hs2 _ _ hs1
    · exact hs2 _ _ hs1
    · exact hs2 _ _ hs1
    · exact hs2 _ _ hs1
    · exact trapAll_inv) hs

/-! ### LoadStore -/

theorem groupOk_inv {d : Nat} : InvExc (fun _ => True) (groupOk d n c) := demand_inv

theorem dataOk_inv {d : LSrc} {w : Width} : InvExc (fun _ => True) (dataOk d w c) := by
  unfold dataOk
  split
  · exact .pass
  · split
    · exact groupOk_inv
    · exact trapAll_inv

theorem loadSpec_inv {h : HSel} : SpecInv (loadSpec i d a h) :=
  ⟨fun _ _ => groupOk_inv, fun _ => .pass⟩

theorem loadBody_inv {mode : LoadMode} {x : Issue} (hs : Inv x.s) : InvExc Inv (loadBody mode d x) :=
  Ctx.handle_inv.andThen fun _ => acceptFmt_inv.andThen fun _ => laneRuns_inv.andThen fun _ =>
    .ite_bind spCheck_inv .pass fun _ _ => (reachRead_inv hs).bind fun _ hs1 =>
    .ite_bind (.ok hs1) (tileCheck_inv hs1) fun _ hs2 => (thereafter_inv hs2 (watchStep_inv hs2)).bind fun _ hs3 =>
    (observeParked_inv hs3).bind fun _ hs4 => .ok (Issue.commit_inv (acceptOp_inv (bindWide_inv hs4)))

theorem execLd_inv {h : HSel} (hs : Inv s) : InvRes (execLd d a h s) :=
  perLane_inv loadSpec_inv (fun _ hs1 => loadBody_inv hs1) hs

theorem execLde_inv {h : HSel} (hs : Inv s) : InvRes (execLde d a h s) :=
  perLane_inv loadSpec_inv (fun _ hs1 => loadBody_inv hs1) hs

theorem execLdnr_inv {h : HSel} (hs : Inv s) : InvRes (execLdnr d a h s) :=
  perLane_inv loadSpec_inv (fun _ hs1 => loadBody_inv hs1) hs

theorem storeSpec_inv {t : SrcTy} {d : LSrc} {h : HSel} : SpecInv (storeSpec i t d a h) :=
  ⟨fun _ _ => dataOk_inv, fun _ => .pass⟩

theorem pushFifo_inv {e : FifoEntry} (hs : Inv s) : Inv (pushFifo s k e) := updGroup_inv hs

theorem acceptStore_inv {ps : List (Run × List Byte)} (hs : Inv s) : Inv (acceptStore c s h nt rel ps) :=
  pushFifo_inv (acceptOp_inv (addDigest_inv (clearPoisonFor_inv hs)))

theorem storeBody_inv {conv : Bool} {d : LSrc} {x : Issue} (hs : Inv x.s) : InvExc Inv (storeBody conv nt d x) :=
  Ctx.handle_inv.andThen fun _ => acceptFmt_inv.andThen fun _ => laneRuns_inv.andThen fun _ =>
    reach_inv.andThen fun _ => (watchStep_inv hs).bind fun _ hs1 => (observeParked_inv hs1).bind fun _ hs2 =>
    .ok (Issue.commit_inv (acceptStore_inv hs2))

theorem execSt_inv {d : LSrc} {h : HSel} (hs : Inv s) : InvRes (execSt d a h s) :=
  perLane_inv storeSpec_inv (fun _ hs1 => storeBody_inv hs1) hs

theorem execSte_inv {d : LSrc} {h : HSel} (hs : Inv s) : InvRes (execSte d a h s) :=
  perLane_inv storeSpec_inv (fun _ hs1 => storeBody_inv hs1) hs

theorem execStnt_inv {d : LSrc} {h : HSel} (hs : Inv s) : InvRes (execStnt d a h s) :=
  perLane_inv storeSpec_inv (fun _ hs1 => storeBody_inv hs1) hs

theorem halfElems_inv {h2 : Handle} {idx : List (Nat × Nat)} : InvExc (fun _ => True) (halfElems c h h2 n idx) := by
  unfold halfElems
  extract_lets all out src es next
  have hs : ∀ a, InvExc (fun _ => True) (next a) := fun _ => demandNone_inv.andThen fun _ => .pass
  exact ite_keeps (.error trivial) (.ite_bind spCheck_inv .pass fun _ _ => hs ())

theorem clearHalf_inv (hs : Inv s) : Inv (clearHalf s k pc) := updGroup_inv hs

theorem secondFails_inv {e : Stop} (hs : Inv s) (he : InvStop e) : InvStop (secondFails c s e) := by
  unfold secondFails
  extract_lets pair
  split
  · exact clearHalf_inv hs
  · exact clearHalf_inv he
  · exact updGroup_inv hs
  · exact he

theorem secondHalf_inv {h2 : Handle} {es : List HalfElem} (hs : Inv s) : InvExc Inv (secondHalf c s h2 es) := by
  unfold secondHalf
  extract_lets xs next r
  have hr : InvExc Inv r := .ite_bind .pass xlCheck_inv fun _ _ => watchStep_inv hs
  clear_value r
  split
  · exact hr
  · exact .error (secondFails_inv hs hr)

theorem pushSecond_inv {new : Option Nat} {ids : List Nat} {bs : List StoreByte} (hs : Inv s) :
    Inv (pushSecond c s nt new ids bs) := by
  unfold pushSecond
  extract_lets s1 put
  have hs1 : Inv s1 := updGroup_inv hs
  have hput : ∀ a, Inv a.1 → Inv (put a) := fun a ha => pushFifo_inv ha
  split
  · refine hput _ ?_
    split
    · exact hs1
    · exact acceptOp_inv hs1
  · exact hput _ (acceptOp_inv hs1)

theorem closePst_inv {p : OpenPst → Bool} (hs : Inv s) : Inv (closePst s k p) := by
  unfold closePst
  split
  · exact hs
  · exact foldl_inv (fun _ _ hs1 => storeLeft_inv hs1) (updGroup_inv hs)

theorem closeStale_inv (hs : Inv s) : Inv (closeStale s k) := by
  unfold closeStale
  split
  · exact hs
  · exact ite_keeps hs (closePst_inv hs)

theorem pstBody_inv {h2n : Slot} {d : LSrc} {x : Issue} (hs : Inv x.s) : InvExc Inv (pstBody h2n d x) :=
  Ctx.handle_inv.andThen fun _ => Ctx.handle_inv.andThen fun _ => demand_inv.andThen fun _ =>
    laneRuns_inv.andThen fun _ => halfElems_inv.andThen fun _ => .ite_bind presenceCheck_inv .pass fun _ _ =>
    reach_inv.andThen fun _ => (watchStep_inv hs).bind fun _ hs1 => (observeParked_inv hs1).bind fun _ hs2 =>
    (observeParked_inv hs2).bind fun _ hs3 => (secondHalf_inv
    (ite_keeps hs3 (updGroup_inv (pushFifo_inv (addDigest_inv
    (clearPoisonFor_inv (acceptOp_inv hs3))))))).bind fun _ hs4 =>
    .ok (Issue.commit_inv (pushSecond_inv (addDigest_inv (clearPoisonFor_inv (clearHalf_inv hs4)))))

theorem execPst_inv {h2 : Slot} {d : LSrc} {h : HSel} (hs : Inv s) : InvRes (execPst h2 d a h s) :=
  perLane_inv ⟨fun _ _ => dataOk_inv, fun _ => .pass⟩ (fun _ hx => pstBody_inv hx) hs

theorem popRun_inv {kinds : List WKind} {i : Nat} (hs : Inv s) :
    InvExc (fun r => Inv r.2) (popRun c s h need kinds i n) := by
  unfold popRun
  exact wholePop_inv (laneRuns_inv.andThen fun _ => by
    extract_lets els next
    have hs1 : ∀ a, Inv a → InvExc (fun r => Inv r.2) (next a) := fun _ hs2 =>
      (thereafter_inv hs2 (watchStep_inv hs2)).bind fun _ hs3 => .ok hs3
    split
    · exact (reachRead_inv hs).bind fun _ hs4 => hs1 _ hs4
    · exact reach_inv.andThen fun _ => InvExc.bind (P := Inv) (.ok hs) fun _ hs5 => hs1 _ hs5)

theorem setSregs_inv {r : Nat} {ws : List Word} (hs : Inv s) : Inv (setSregs s k r ws) :=
  updGroup_inv hs

theorem popRead_inv {ls : List Loc} (hs : Inv s) : Inv (popRead c s acq ls).2 :=
  ite_keeps (P := fun r : _ × State => Inv r.2) (l1DropAll_inv (touchHome_inv (settleFor_inv hs))) (bindWide_inv hs)

theorem lduBody_inv {v : Word} (hs : Inv s) : InvExc Inv (lduBody acq wide sd v c s) := by
  unfold lduBody
  exact Ctx.handle_inv.andThen fun _ => acceptFmt_inv.andThen fun _ => (popRun_inv hs).bind fun _ hs1 =>
    (observeParked_inv hs1).bind fun _ hs2 => by
    split
    · exact .ok (setSregs_inv hs2)
    · exact .ok (setSregs_inv (popRead_inv hs2))

theorem execLdu_inv (hs : Inv s) : InvRes (execLdu acq wide sd sb s) :=
  uniform_inv (fun _ _ hs1 => lduBody_inv hs1) hs

theorem popStore_inv {fold : Bool} {run : Option Run} {ws : List Word} (hs : Inv s) :
    Inv (popStore c s h rel fold run ws) :=
  pushFifo_inv (acceptOp_inv (ite_keeps (addDigest_inv (clearPoisonFor_inv hs)) (clearPoisonFor_inv hs)))

theorem classRoom_inv {cls : OpClass} : InvExc (fun _ => True) (classRoom c s cls) :=
  ite_keeps (.error trivial) .pass

theorem execStu_inv (hs : Inv s) : InvRes (execStu rel wide sd sb s) :=
  uniform_inv (fun _ _ hs1 => classRoom_inv.andThen fun _ => Ctx.handle_inv.andThen fun _ =>
    acceptFmt_inv.andThen fun _ => (popRun_inv hs1).bind fun _ hs2 => (observeParked_inv hs2).bind fun _ hs3 =>
    .ok (popStore_inv hs3)) hs

theorem execQst_inv {q : Fin 8} (hs : Inv s) : InvRes (execQst q sb s) :=
  uniform_inv (fun _ _ hs1 => classRoom_inv.andThen fun _ => Ctx.handle_inv.andThen fun _ =>
    demand_inv.andThen fun _ => (popRun_inv hs1).bind fun _ hs2 => (observeParked_inv hs2).bind fun _ hs3 =>
    .ok (popStore_inv hs3)) hs

theorem fenceEffect_inv {sc : Scope} (hs : Inv s) : Inv (fenceEffect s core sc) :=
  ite_keeps (l1DropAll_inv hs) hs

theorem execFence_inv {sc : Scope} (hs : Inv s) : InvRes (execFence sc s) :=
  uniform_inv (fun _ _ hs1 => ite_keeps (.ok (fenceEffect_inv hs1)) (.error hs1)) hs

theorem execNtdrain_inv {sc : Scope} (hs : Inv s) : InvRes (execNtdrain sc s) :=
  uniform_inv (fun _ _ hs1 => ite_keeps (.ok hs1) (.error hs1)) hs

theorem notEnabled_inv {name : String} : InvRes (notEnabled name) := .refused

theorem eventOf_inv {name : String} {r : Option State} (ho : InvOpt Inv r) : InvRes (eventOf name r) := by
  unfold eventOf
  split
  · exact .next ho
  · exact notEnabled_inv

theorem releaseHold_inv {h : Hold} (hs : Inv s) : Inv (releaseHold s k h) :=
  moveLanes_inv (updGroup_inv hs)

theorem completeLoad_inv (hs : Inv s) : InvOpt Inv (completeLoad s id) := by
  unfold completeLoad
  split
  · exact .none
  · split
    · exact ite_keeps (.some (finishOp_inv (landRegs_inv hs))) .none
    · exact .none

theorem execLoadComplete_inv (hs : Inv s) : InvRes (execLoadComplete op s) :=
  eventOf_inv (completeLoad_inv hs)

theorem execStoreRetire_inv {g : GKey} (hs : Inv s) : InvRes (execStoreRetire g s) :=
  eventOf_inv (retireStore_inv hs)

theorem writeNt_inv {idx : Nat} (hs : Inv s) : InvOpt Inv (writeNt s core idx) := by
  unfold writeNt
  split
  · exact .none
  · exact ite_keeps .none (.some (wcEntryOut_inv hs))

theorem execNtStoreWrite_inv {idx : Nat} (hs : Inv s) : InvRes (execNtStoreWrite core idx s) :=
  eventOf_inv (writeNt_inv hs)

theorem execAtomicPerform_inv {req : Nat} (hs : Inv s) : InvRes (execAtomicPerform op req s) :=
  eventOf_inv (performAtomic_inv hs)

theorem completeFence_inv (hs : Inv s) : InvOpt Inv (completeFence s k pc) := by
  unfold completeFence
  split
  · split
    · exact .some (releaseHold_inv (fenceEffect_inv hs))
    · exact .none
  · exact .none

theorem execFenceComplete_inv {g : GKey} (hs : Inv s) : InvRes (execFenceComplete g pc s) :=
  eventOf_inv (completeFence_inv hs)

theorem returnDrain_inv (hs : Inv s) : InvOpt Inv (returnDrain s k pc) :=
  InvOpt.mapAll (fun _ => releaseHold_inv hs)

theorem execNtdrainReturn_inv {g : GKey} (hs : Inv s) : InvRes (execNtdrainReturn g pc s) :=
  eventOf_inv (returnDrain_inv hs)

theorem wake_inv (hs : Inv s) : Inv (wake s k pc) := updGroup_inv hs

theorem unparkPresence_inv (hs : Inv s) : InvOpt Inv (unparkPresence s k pc) := by
  unfold unparkPresence
  split
  · split
    · split
      · exact ite_keeps .none (.some (wake_inv hs))
      · exact .some (wake_inv hs)
    · exact .none
  · exact .none

theorem execPresenceUnpark_inv {g : GKey} (hs : Inv s) : InvRes (execPresenceUnpark g pc s) :=
  eventOf_inv (unparkPresence_inv hs)

theorem unparkMigration_inv (hs : Inv s) : InvOpt Inv (unparkMigration s k pc) := by
  have woken {b : Bool} : InvOpt Inv (if b then some (wake s k pc) else none) := ite_keeps (.some (wake_inv hs)) .none
  unfold unparkMigration
  split
  · split
    · exact woken
    · exact woken
    · trivial
  · trivial

theorem execMigrationUnpark_inv {g : GKey} (hs : Inv s) : InvRes (execMigrationUnpark g pc s) :=
  eventOf_inv (unparkMigration_inv hs)

/-! ### Atomic -/

theorem AtomSpec.widthOk_inv {p : AtomSpec} {w : Width} : InvExc (fun _ => True) (AtomSpec.widthOk p w c) := by
  unfold AtomSpec.widthOk
  exact demand_inv.andThen fun _ => by
    split
    · split
      · exact groupOk_inv
      · exact trapAll_inv
    · exact .pass

theorem AtomSpec.issue_inv {p : AtomSpec} {h : HSel} : SpecInv (AtomSpec.issue p i a h) :=
  ⟨fun _ _ => AtomSpec.widthOk_inv, fun _ => .pass⟩

theorem acceptAtomic_inv {a : Atomic} (hs : Inv s) : Inv (acceptAtomic c s a) := by
  unfold acceptAtomic
  split
  · split
    · exact acceptOp_inv hs
    · exact finishOp_inv (acceptOp_inv hs)
  · exact pushFifo_inv (acceptOp_inv hs)

theorem atomBody_inv {p : AtomSpec} {x : Issue} (hs : Inv x.s) : InvExc Inv (atomBody p x) :=
  Ctx.handle_inv.andThen fun _ => demand_inv.andThen fun _ => demand_inv.andThen fun _ =>
    laneRuns_inv.andThen fun _ => (reachRw_inv hs).bind fun _ hs1 => (watchStep_inv hs1).bind fun _ hs2 =>
    (observeParked_inv hs2).bind fun _ hs3 => .ok (Issue.commit_inv (acceptAtomic_inv hs3))

theorem execAtom_inv {op : AtomOp} {ord : MemOrd} {h : HSel} (hs : Inv s) : InvRes (execAtom op ord d a h s) :=
  perLane_inv AtomSpec.issue_inv (fun _ hs1 => atomBody_inv hs1) hs

theorem execAtomr_inv {op : AtomOp} {d : LSrc} {h : HSel} (hs : Inv s) : InvRes (execAtomr op d a h s) :=
  perLane_inv AtomSpec.issue_inv (fun _ hs1 => atomBody_inv hs1) hs

theorem execCas_inv {ord : MemOrd} {h : HSel} (hs : Inv s) : InvRes (execCas ord d a h s) :=
  perLane_inv AtomSpec.issue_inv (fun _ hs1 => atomBody_inv hs1) hs

theorem execCas128_inv {ord : MemOrd} {h : HSel} (hs : Inv s) : InvRes (execCas128 ord d a h s) :=
  perLane_inv AtomSpec.issue_inv (fun _ hs1 => atomBody_inv hs1) hs

/-! ### Barrier -/

theorem barPut_inv {b : Bar} (hs : Inv s) : Inv (barPut s uid off b) :=
  Inv.groups (locSetBytes_inv hs)

theorem barUpdate_inv {f : Bar → Bar} (hs : Inv s) : Inv (barUpdate s uid off f) := barPut_inv hs

theorem barLine_inv : InvExc (fun _ => True) (barLine c s off n) :=
  presenceCheck_inv.andThen fun _ => ite_keeps (.error trivial) .pass

theorem barAt_inv {b : Nat} : InvExc (fun _ => True) (barAt c b) :=
  .ite_bind spTrap_inv .pass fun _ _ => demand_inv.andThen fun _ => .pass

theorem ringAt_inv {h q : Nat} : InvExc (fun _ => True) (ringAt c s h q) :=
  .ite_bind spTrap_inv .pass fun _ _ => demand_inv.andThen fun _ => barLine_inv.andThen fun _ =>
    demand_inv.andThen fun _ => .ite_bind spTrap_inv .pass fun _ _ => .pass

theorem locateBar_inv {sd : USrc} {p : Nat} : InvExc (fun _ => True) (locateBar c s ring sd p) := by
  unfold locateBar
  exact InvExc.andThen (by
    split
    · split <;> exact ringAt_inv
    · exact barAt_inv.andThen fun _ => .pass) fun _ => barLine_inv.andThen fun _ => demand_inv.andThen fun _ => .pass

theorem observeBar_inv {sd : USrc} (hs : Inv s) : InvExc Inv (observeBar c s ring sd off) :=
  observeLines_inv hs

theorem initSlots_inv {b a m : Nat} (hs : Inv s) : Inv (initSlots s uid b a n m) := by
  induction m with
  | zero => exact hs
  | succ m ih => exact barPut_inv ih

theorem execBinit_inv {sd : USrc} (hs : Inv s) : InvRes (execBinit sd sb s) :=
  uniform_inv (fun _ _ hs1 => demand_inv.andThen fun _ => barAt_inv.andThen fun _ =>
    presenceCheck_inv.andThen fun _ => .ite_bind spTrap_inv .pass fun _ _ => presenceCheck_inv.andThen fun _ =>
    (observeLines_inv (drainFifo_inv hs1)).bind fun _ hs2 => .ok (initSlots_inv hs2)) hs

theorem execBarrive_inv {exp : Bool} {sd : USrc} (hs : Inv s) : InvRes (execBarrive ring exp sd sb s) :=
  uniform_inv (fun _ _ hs1 => demand_inv.andThen fun _ => locateBar_inv.andThen fun _ =>
    (observeBar_inv (drainFifo_inv hs1)).bind fun _ hs2 => .ok (barUpdate_inv hs2)) hs

theorem execBexpect_inv {sd : USrc} (hs : Inv s) : InvRes (execBexpect ring sd sb s) :=
  uniform_inv (fun _ _ hs1 => demand_inv.andThen fun _ => locateBar_inv.andThen fun _ =>
    (observeBar_inv (drainFifo_inv hs1)).bind fun _ hs2 => .ok (barUpdate_inv hs2)) hs

theorem execBwait_inv {sd : USrc} (hs : Inv s) : InvRes (execBwait ring sd sb s) :=
  uniform_inv (fun _ _ hs1 => demand_inv.andThen fun _ => locateBar_inv.andThen fun _ =>
    (observeBar_inv (drainFifo_inv hs1)).bind fun _ hs2 => ite_keeps (observe_inv hs2) (.error hs2)) hs

theorem execBtest_inv {mode : BtMode} (hs : Inv s) : InvRes (execBtest mode ring sd sb s) := by
  unfold execBtest
  exact uniform_inv (fun _ _ hs1 => demand_inv.andThen fun _ => locateBar_inv.andThen fun _ =>
    (observeBar_inv (drainFifo_inv hs1)).bind fun _ hs2 => by
    extract_lets b put
    have hs3 : ∀ a x, Inv a → Inv (put a x) := fun _ _ hs4 => updGroup_inv hs4
    split
    · exact ite_keeps ((observe_inv hs2).bind fun _ hs5 => .ok (hs3 _ _ hs5)) (.ok (hs3 _ _ hs2))
    · exact .ok (hs3 _ _ hs2)
    · exact .ok (hs3 _ _ (barPut_inv hs2))) hs

theorem execWaitc_inv {nld nst ncp ntl : Fin 64} (hs : Inv s) : InvRes (execWaitc nld nst ncp ntl s) :=
  uniform_inv (fun _ _ hs1 => ite_keeps (observe_inv hs1) (.error hs1)) hs

theorem finishHold_inv {h : Hold} {r : Except Stop State} (hs : Inv s) (hx : InvExc Inv r) :
    Inv (finishHold s k h r) := by
  unfold finishHold
  split
  · exact releaseHold_inv hx
  · exact takeTrap_inv (updGroup_inv hx)
  · exact hs

theorem returnBwait_inv (hs : Inv s) : InvOpt Inv (returnBwait s k pc) := by
  unfold returnBwait
  split
  · split
    · exact .some (finishHold_inv hs (observe_inv hs))
    · exact .none
  · exact .none

theorem execBwaitReturn_inv {g : GKey} (hs : Inv s) : InvRes (execBwaitReturn g pc s) :=
  eventOf_inv (returnBwait_inv hs)

theorem returnWaitc_inv (hs : Inv s) : InvOpt Inv (returnWaitc s k pc) := by
  unfold returnWaitc
  split
  · split
    · exact .some (finishHold_inv hs (observe_inv hs))
    · exact .none
  · exact .none

theorem execWaitcReturn_inv {g : GKey} (hs : Inv s) : InvRes (execWaitcReturn g pc s) :=
  eventOf_inv (returnWaitc_inv hs)

theorem homeReady_inv {l : Loc} (hs : Inv s) : Inv (homeReady c s rel l) :=
  atomReady_inv (settlePassed_inv hs)

theorem ringOpen_inv {v : Word} (hs : Inv s) :
    InvExc (fun r => InvOpt (fun r => Inv r.2.2) r) (ringOpen c s wide rel v) := by
  unfold ringOpen
  exact Ctx.handle_inv.andThen fun _ => acceptFmt_inv.andThen fun _ =>
    (asControl_inv (wholePop_inv laneRuns_inv)).andThen fun _ => (wholePop_inv (reachRw_inv hs)).bind fun _ hs1 => by
    split
    · exact .ok .none
    · split
      · exact .ok .none
      · exact (observeParked_inv (homeReady_inv (flushScats_inv (drainFifo_inv hs1)))).bind fun _ hs2 =>
        demand_inv.andThen fun _ => by
            extract_lets n at' next src
            have hs3 : ∀ a, InvExc (fun r => InvOpt (fun r => Inv r.2.2) r) (next a) := fun _ => .ok (.some hs2)
            split
            · exact .ite_bind (.error trivial) .pass fun _ _ => hs3 ()
            · exact ite_keeps (wholePop_inv oobTrap_inv) (.ok .none)

theorem ringEntry_inv {i k logn : Nat} (hs : Inv s) : InvExc (fun r => Inv r.2) (ringEntry c s h i n k logn) :=
  (wholePop_inv reach_inv).andThen fun _ => (observeParked_inv hs).bind fun _ hs1 => .ok hs1

theorem enqBody_inv {v : Word} (hs : Inv s) : InvExc Inv (enqBody rel wide sd v c s) := by
  unfold enqBody
  exact (ringOpen_inv hs).bind fun _ hs1 => by
    split
    · exact .ok (updGroup_inv hs)
    · split
      · exact .ok (updGroup_inv hs1)
      · exact (ringEntry_inv hs1).bind fun _ hs2 => by
            split
            · split
              · exact .ok (updGroup_inv (locSetBytes_inv (locSetBytes_inv (homeReady_inv hs2))))
              · exact .ok (updGroup_inv hs2)

theorem execRqenq_inv (hs : Inv s) : InvRes (execRqenq rel wide sd sb s) :=
  uniform_inv (fun _ _ hs1 => enqBody_inv hs1) hs

theorem deqBody_inv {v : Word} (hs : Inv s) : InvExc Inv (deqBody acq wide sd v c s) := by
  have acquired {s : State} (hs : Inv s) : Inv (if wideOpt acq then l1DropAll s c.w.core else s) := ite_keeps
    (l1DropAll_inv hs) hs
  unfold deqBody
  refine (ringOpen_inv hs).bind fun o ho => ?_
  split
  · exact .ok (updGroup_inv hs)
  · split
    · exact .ok (acquired (updGroup_inv ho))
    · refine (ringEntry_inv ho).bind fun e he => ?_
      dsimp only
      split
      · exact .ok (acquired (updGroup_inv (setSregs_inv (locSetBytes_inv (homeReady_inv he)))))
      · exact .ok (updGroup_inv he)

theorem execRqdeq_inv (hs : Inv s) : InvRes (execRqdeq acq wide sd sb s) :=
  uniform_inv (fun _ _ hs1 => deqBody_inv hs1) hs

/-! ### Tables -/

theorem tableRun_inv {i align : Nat} (hs : Inv s) : InvExc (fun r => Inv r.2) (tableRun c s h i n align) := by
  unfold tableRun
  exact wholePop_inv (by
    split
    · exact oobTrap_inv
    · exact demand_inv.andThen fun _ => .ite_bind spCheck_inv .pass fun _ _ => (reachRead_inv hs).bind fun _ hs1 =>
      (thereafter_inv hs1 (watchStep_inv hs1)).bind fun _ hs2 => (observeParked_inv hs2).bind fun _ hs3 => .ok hs3)

theorem tableBytes_inv {a : Nat} (hs : Inv s) : Inv (tableBytes c s h a n).2 := bindWide_inv hs

theorem tableSource_inv {src : Nat} {profileOk : Bool} : InvExc (fun _ => True) (tableSource c src profileOk) :=
  demand_inv.andThen fun _ => Ctx.handle_inv.andThen fun _ => demand_inv.andThen fun _ => .pass

theorem setSlot_inv {x : Nat} (hs : Inv s) : Inv (setSlot s uid x h) := updWg_inv hs

theorem hloadBody_inv {x : Slot} {src : Word} (hs : Inv s) : InvExc Inv (hloadBody sd x src c s) := by
  unfold hloadBody
  exact tableSource_inv.andThen fun _ => (tableRun_inv hs).bind fun _ hs1 => by
    extract_lets q d
    have hs2 : Inv q.2 := tableBytes_inv hs1
    split
    · split
      · exact thereafter_inv hs2 trapAll_inv
      · exact .ok (setSlot_inv hs2)
    · exact .ok (setSlot_inv hs2)

theorem execHload_inv {x : Slot} (hs : Inv s) : InvRes (execHload sd sb x s) :=
  uniform_inv (fun _ _ hs1 => hloadBody_inv hs1) hs

theorem hadjBody_inv {x : Slot} {sel : Word} (hs : Inv s) : InvExc Inv (hadjBody sd x sel c s) := by
  unfold hadjBody
  exact demand_inv.andThen fun _ => by
    split
    · exact trapAll_inv
    · exact Ctx.handle_inv.andThen fun _ => by
          split
          · exact trapAll_inv
          · exact .ok (setSlot_inv hs)

theorem execHadj_inv {x : Slot} (hs : Inv s) : InvRes (execHadj sd sb x s) :=
  uniform_inv (fun _ _ hs1 => hadjBody_inv hs1) hs

theorem execHqry_inv {x : Slot} (hs : Inv s) : InvRes (execHqry sd sb x s) := by
  unfold execHqry
  exact uniform_inv (fun _ _ hs1 => by
    split
    · exact trapAll_inv
    · exact .ok (updGroup_inv hs1)) hs

theorem dsTable_inv {d : DsDesc} {k : DsType} (hs : Inv s) : InvExc (fun r => Inv r.2) (dsTable c s d k) := by
  unfold dsTable
  split
  · exact .ok hs
  · exact Ctx.handle_inv.andThen fun _ => demand_inv.andThen fun _ => demand_inv.andThen fun _ =>
    .ite_bind spTrap_inv .pass fun _ _ => presenceCheck_inv.andThen fun _ => by
        split
        · exact thereafter_inv (settleFor_inv hs) (barLine_inv.andThen fun _ => demand_inv.andThen fun _ =>
          .ok (settleFor_inv hs))
        · exact .ok hs

theorem dsldBody_inv {x : Fin 16} {src : Word} (hs : Inv s) : InvExc Inv (dsldBody sd x src c s) := by
  unfold dsldBody
  exact tableSource_inv.andThen fun _ => (tableRun_inv hs).bind fun _ hs1 => by
    extract_lets q d clear
    have hs2 : Inv q.2 := tableBytes_inv hs1
    have hs3 : Inv clear := updGroup_inv hs2
    split
    · exact .ok hs3
    · exact thereafter_inv hs2 (by
          split
          · exact trapAll_inv
          · exact demand_inv.andThen fun _ => (dsTable_inv hs2).bind fun _ hs4 =>
            (observeLines_inv hs4).bind fun _ hs5 => by
                extract_lets im
                exact .ok (updGroup_inv hs5))

theorem execDsld_inv {x : Fin 16} (hs : Inv s) : InvRes (execDsld sd sb x s) :=
  uniform_inv (fun _ _ hs1 => dsldBody_inv hs1) hs

theorem gnldBody_inv {x : Fin 8} {src : Word} (hs : Inv s) : InvExc Inv (gnldBody sd x src c s) := by
  unfold gnldBody
  exact tableSource_inv.andThen fun _ => (tableRun_inv hs).bind fun _ hs1 => by
    extract_lets q d put
    have hs2 : Inv q.2 := tableBytes_inv hs1
    have hs3 : ∀ a b, Inv a → Inv (put a b) := by
      unfold put
      exact fun _ _ hs4 => by
        extract_lets im
        exact updGroup_inv hs4
    split
    · exact .ok (updGroup_inv hs2)
    · exact thereafter_inv hs2 (demand_inv.andThen fun _ => by
          split
          · exact (tableRun_inv hs2).bind fun _ hs5 => by
                extract_lets q2
                have hs6 : Inv q2.2 := tableBytes_inv hs5
                exact .ok (hs3 _ _ hs6)
          · exact .ok (hs3 _ _ hs2))

theorem execGnld_inv {x : Fin 8} (hs : Inv s) : InvRes (execGnld sd sb x s) :=
  uniform_inv (fun _ _ hs1 => gnldBody_inv hs1) hs

theorem execGneval_inv {t : Bool} {g : Fin 8} (hs : Inv s) : InvRes (execGneval t g d a s) := by
  unfold execGneval
  exact perLane_inv LSpec.mk0_inv (fun _ hs1 => by
    split
    · exact trapAll_inv
    · exact .ok (Issue.commit_inv hs1)) hs

theorem engineArrive_inv {err : Nat} (hs : Inv s) : Inv (engineArrive s uid off err) :=
  syncLines_inv (barUpdate_inv hs)

theorem pgreqBody_inv {x : Slot} {b : Nat} (hs : Inv s) : InvExc Inv (pgreqBody sd x b c s) := by
  unfold pgreqBody
  exact Ctx.handle_inv.andThen fun _ => barAt_inv.andThen fun _ => by
    extract_lets a
    split
    · exact ite_keeps trapAll_inv (.ok (engineArrive_inv hs))
    · exact ite_keeps (.ok (engineArrive_inv hs)) (.ok (acceptOp_inv hs))

theorem execPgreq_inv {x : Slot} (hs : Inv s) : InvRes (execPgreq sd sb x s) :=
  uniform_inv (fun _ _ hs1 => pgreqBody_inv hs1) hs

theorem pfhLine_inv {target : Nat} (hs : Inv s) : Inv (pfhLine w ln target s va) := by
  unfold pfhLine
  split
  · split
    · exact hs
    · split
      · exact l2Touch_inv (readThrough_inv hs)
      · exact ite_keeps hs (readThrough_inv hs)
      · exact l1Fill_inv hs
      · exact hs
  · exact hs

theorem execPfh_inv {x : Slot} (hs : Inv s) : InvRes (execPfh sd sb x s) :=
  uniform_inv (fun _ _ hs1 => ite_keeps (.ok (foldl_inv (fun _ _ hs2 => pfhLine_inv hs2) hs1)) (.ok hs1)) hs

/-! ### Copy -/

theorem poisonLocs_inv {src dst : List Loc} (hs : Inv s) : Inv (poisonLocs s src dst) :=
  ite_keeps hs hs

theorem copyShape_inv {w : CopyWord} {multi : Bool} {x : Issue} : InvExc (fun _ => True) (copyShape w multi x) := by
  unfold copyShape
  exact Ctx.handle_inv.andThen fun _ => Ctx.handle_inv.andThen fun _ => demand_inv.andThen fun _ =>
    demand_inv.andThen fun _ => demand_inv.andThen fun _ => by
    extract_lets inb
    split
    · exact trapAll_inv
    · exact .pass

theorem copyOob_inv {k : CopyShape} {act : List LaneIn} : InvExc (fun _ => True) (copyOob k act) := by
  unfold copyOob
  extract_lets bad src
  clear_value bad
  split
  · exact .pass
  · exact .error trivial

theorem copyTiles_inv {k : CopyShape} (hs : Inv s) : InvExc Inv (copyTiles c s k runs) :=
  thereafter_inv (touchHome_inv (drainFifo_inv hs)) (tilesPass_inv.andThen fun _ =>
    .ok (touchHome_inv (drainFifo_inv hs)))

theorem copyReach_inv {k : CopyShape} {act : List LaneIn} (hs : Inv s) : InvExc Inv (copyReach c s k act) :=
  copyOob_inv.andThen fun _ => spCheck_inv.andThen fun _ => demandNone_inv.andThen fun _ =>
    xlCheck_inv.andThen fun _ => .ite_bind presenceCheck_inv .pass fun _ _ => ite_keeps (.ok hs) (copyTiles_inv hs)

theorem clearPresence_inv (hs : Inv s) : Inv (clearPresence s uid lines) := updWg_inv hs

theorem barOn_inv {f : Bar → Bar} (hs : Inv s) : Inv (barOn s uid off f) := by
  unfold barOn
  split
  · exact barUpdate_inv hs
  · exact hs

theorem acceptAt_inv {w : CopyWord} {bar err q : Nat} {secs : List Sector} (hs : Inv s) :
    Inv (acceptAt w bar err q secs s uid) := by
  unfold acceptAt
  exact syncLines_inv (by
    split
    · exact barOn_inv (clearPresence_inv (ite_keeps hs (barOn_inv hs)))
    · exact clearPresence_inv (ite_keeps hs (barOn_inv hs)))

theorem copyEnd_inv (hs : Inv s) : Inv (copyEnd s id) := by
  unfold copyEnd
  split
  · split
    · exact ite_keeps (finishOp_inv hs) hs
    · exact hs
  · exact hs

theorem copyBody_inv {w : CopyWord} {tgt : Option (Fin 16)} {x : Issue} (hs : Inv x.s) :
    InvExc Inv (copyBody w tgt x) := by
  unfold copyBody
  refine Issue.uniformArg_inv.andThen fun _ => copyShape_inv.andThen fun _ => barAt_inv.andThen fun _ => ?_
  refine (copyReach_inv hs).bind fun _ hs => (thereafter_inv hs (watchStep_inv hs)).bind fun _ hs =>
    (observeLines_inv hs).bind fun _ hs => ?_
  extract_lets rcv secs err q s1 s2 via s3 cp a
  have hs1 : Inv s1 := Issue.commit_inv (ite_keeps (drainFifo_inv hs) hs)
  have hs2 : Inv s2 := foldl_inv (fun _ _ hs => acceptAt_inv hs) hs1
  have hs3 : Inv s3 := ite_keeps (barUpdate_inv hs2) hs2
  exact .ok (copyEnd_inv (markHits_inv (acceptOp_inv hs3)))

theorem copySpec_inv {d : LSrc} : SpecInv (copySpec i d a b) := ⟨fun _ _ => .pass, fun _ => .pass⟩

theorem execCpl_inv {w : CopyWord} {d : LSrc} (hs : Inv s) : InvRes (execCpl w d a b s) :=
  perLane_inv copySpec_inv (fun _ hs1 => copyBody_inv hs1) hs

theorem execCpm_inv {w : CopyWord} {tgt : Fin 16} {d : LSrc} (hs : Inv s) : InvRes (execCpm w tgt d a b s) :=
  perLane_inv copySpec_inv (fun _ hs1 => copyBody_inv hs1) hs

theorem restorePresence_inv (hs : Inv s) : Inv (restorePresence s uid lines) := updWg_inv hs

theorem landQuads_inv {bar : Nat} (hs : Inv s) : Inv (landQuads s uid bar n).1 := by
  induction n with
  | zero => exact hs
  | succ n ih => exact barUpdate_inv ih

theorem writeSector_inv {cp : CopyOp} {x : Sector} {data : List (List Byte)} {satd : Bool} (hs : Inv s) :
    Inv (writeSector s w cp x data satd).1 := by
  unfold writeSector
  exact syncLines_inv (landQuads_inv (restorePresence_inv (by
    split
    · exact barUpdate_inv (by
          split
          · exact engineSetAll_inv (clearPoisonFor_inv hs)
          · exact poisonLocs_inv (engineSetAll_inv (clearPoisonFor_inv hs)))
    · exact by
          split
          · exact engineSetAll_inv (clearPoisonFor_inv hs)
          · exact poisonLocs_inv (engineSetAll_inv (clearPoisonFor_inv hs)))))

theorem landSector_inv (hs : Inv s) : InvOpt Inv (landSector s id n) := by
  unfold landSector
  split
  · exact .none
  · split
    · split
      · exact .none
      · split
        · extract_lets s1 d satd cp' s11 cl r cp2
          have hs1 : Inv s1 := ite_keeps (touchHome_inv hs) hs
          have hs2 : Inv s11 := updOp_inv hs1
          have hs3 : Inv r.1 := writeSector_inv hs2
          split
          · exact .some (copyEnd_inv (setCluster_inv hs2))
          · exact .some (copyEnd_inv (updOp_inv hs3))
        · exact .none
    · exact .none

theorem execCopySectorLand_inv {sector : Nat} (hs : Inv s) : InvRes (execCopySectorLand op sector s) :=
  eventOf_inv (landSector_inv hs)

/-! ### Accum -/

theorem accSet_inv {row col : Nat} {v : Word} (hs : Inv s) : Inv (accSet s uid row col v) := by
  unfold accSet
  extract_lets s1
  have hs1 : Inv s1 := updWg_inv hs
  clear_value s1
  exact ite_keeps hs1 hs1

theorem accCheck_inv {reads : Bool} {els : List AccElem} : InvExc (fun _ => True) (accCheck c s reads els) := by
  unfold accCheck
  split
  · exact accTrap_inv
  · split
    · exact .error trivial
    · exact .pass

theorem execAccrd_inv {mm1 : Fin 32} (hs : Inv s) : InvRes (execAccrd mm1 d a b s) :=
  perLane_inv ⟨fun _ _ => .pass, fun _ => .pass⟩ (fun _ hs1 => Issue.uniformArg_inv.andThen fun _ =>
    Issue.uniformArg_inv.andThen fun _ => accCheck_inv.andThen fun _ => .ok (Issue.commit_inv (acceptOp_inv hs1))) hs

theorem execAccwr_inv {mm1 : Fin 32} {d : LSrc} (hs : Inv s) : InvRes (execAccwr mm1 d a b s) :=
  perLane_inv ⟨fun _ _ => .pass, fun _ => .pass⟩ (fun _ hs1 => Issue.uniformArg_inv.andThen fun _ =>
    Issue.uniformArg_inv.andThen fun _ => accCheck_inv.andThen fun _ => .ok (Issue.commit_inv (acceptOp_inv hs1))) hs

theorem execAccpatch_inv {add : Bool} {d : LSrc} {m : MReg} (hs : Inv s) : InvRes (execAccpatch add d a m s) := by
  unfold execAccpatch
  exact perLane_inv ⟨fun _ _ => .pass, fun _ => .pass⟩ (fun _ hs1 => by
    extract_lets part next
    have hs2 : ∀ b, InvExc Inv (next b) := fun _ => accCheck_inv.andThen fun _ =>
      .ok (Issue.commit_inv (acceptOp_inv hs1))
    split
    · exact accTrap_inv.andThen fun _ => hs2 ()
    · exact InvExc.pass.andThen fun _ => hs2 ()) hs

theorem runAccrd_inv {o : Op} {els : List AccElem} (hs : Inv s) : Inv (runAccrd s o els) := by
  unfold runAccrd
  split
  · exact hs
  · exact landRegs_inv hs

theorem runPatch_inv {add : Bool} {els : List AccElem} (hs : Inv s) : Inv (runPatch s uid add els) := by
  unfold runPatch
  exact foldl_inv (fun _ _ hs1 => by
    split
    · exact hs1
    · split
      · extract_lets poisoned s'
        have hs2 : Inv s' := accSet_inv hs1
        clear_value s'
        exact ite_keeps hs2 hs2
      · exact accSet_inv hs1) hs

theorem completeAcc_inv (hs : Inv s) : InvOpt Inv (completeAcc s id) := by
  unfold completeAcc
  split
  · exact .none
  · split
    · split
      · exact .some (finishTile_inv (runAccrd_inv hs))
      · exact .some (finishTile_inv (foldl_inv (fun _ _ hs1 => accSet_inv hs1) hs))
      · exact .some (finishTile_inv (runPatch_inv hs))
      · exact .none
    · exact .none

theorem execAccOpComplete_inv (hs : Inv s) : InvRes (execAccOpComplete op s) :=
  eventOf_inv (completeAcc_inv hs)

theorem execAccz_inv {sd : USrc} (hs : Inv s) : InvRes (execAccz sd sb s) :=
  uniform_inv (fun _ _ hs1 => .ite_bind accTrap_inv .pass fun _ _ => .ok (tryAccz_inv (acceptOp_inv hs1))) hs

theorem engineReach_inv : InvExc (fun _ => True) (engineReach c s h need runs) :=
  wholePop_inv (ite_keeps (spCheck_inv.andThen fun _ => .pass) (xlCheck_inv.andThen fun _ => .pass))

theorem accstBody_inv {rowsm1 : Fin 2048} {r : Rnd} {sat : Bool} {row0 i : Nat} {x : Slot} (hs : Inv s) :
    InvExc Inv (accstBody rowsm1 r sat row0 i x c s) := by
  unfold accstBody
  exact classRoom_inv.andThen fun _ => Ctx.handle_inv.andThen fun _ => acceptFmt_inv.andThen fun _ =>
    .ite_bind accTrap_inv .pass fun _ _ => by
    extract_lets els src ws
    split
    · exact trapAll_inv
    · exact InvExc.andThen (by
          split
          · exact ite_keeps (.error trivial) .pass
          · exact .pass) fun _ => demand_inv.andThen fun _ => engineReach_inv.andThen fun _ =>
            (wholePop_inv (watchStep_inv hs)).bind fun _ hs1 => by
          extract_lets a
          have hs2 : Inv a.1 := acceptOp_inv hs1
          exact .ok (markHits_inv hs2)

theorem execAccst_inv {rowsm1 : Fin 2048} {r : Rnd} {sat : Bool} {sd : USrc} {x : Slot} (hs : Inv s) :
    InvRes (execAccst rowsm1 r sat sd sb x s) :=
  uniform_inv (fun _ _ hs1 => accstBody_inv hs1) hs

theorem accstTrailers_inv {xl : List (Nat × Loc)} {out : List (StElem × List Byte × Bool)} {tiles : List Nat}
    (hs : Inv s) :
    Inv (accstTrailers s w h xl out tiles) :=
  foldl_inv (fun _ _ hs1 => engineSetAll_inv (touchHome_inv hs1)) hs

theorem completeAccst_inv (hs : Inv s) : InvOpt Inv (completeAccst s id) := by
  unfold completeAccst
  split
  · exact .none
  · split
    · split
      · extract_lets els out bs dirty s1 s11 s2 s3
        have hs1 : Inv s1 := engineSetAll_inv (clearPoisonFor_inv hs)
        clear_value s1
        have hs2 : Inv s11 := ite_keeps hs1 hs1
        have hs3 : Inv s2 := accstTrailers_inv hs2
        have hs4 : Inv s3 := addDigest_inv hs3
        exact .some (finishTile_inv hs4)
      · exact .none
    · exact .none

theorem execAccstComplete_inv (hs : Inv s) : InvRes (execAccstComplete op s) :=
  eventOf_inv (completeAccst_inv hs)

/-! ### Tile -/

theorem bldBody_inv {t : Bool} {i : Nat} {x : Slot} (hs : Inv s) : InvExc Inv (bldBody t nt i n x c s) :=
  classRoom_inv.andThen fun _ => demand_inv.andThen fun _ => Ctx.handle_inv.andThen fun _ =>
    demand_inv.andThen fun _ => .ite_bind (.error trivial) .pass fun _ _ => demand_inv.andThen fun _ =>
    .ite_bind (wholePop_inv (spCheck_inv.andThen fun _ => presenceCheck_inv)) .pass fun _ _ =>
    engineReach_inv.andThen fun _ => (wholePop_inv (watchStep_inv hs)).bind fun _ hs1 =>
    (observeLines_inv hs1).bind fun _ hs2 => .ok (slotStep_inv (markHits_inv (acceptOp_inv hs2)))

theorem execBld_inv {t : Bool} {x : Slot} (hs : Inv s) : InvRes (execBld t nt sd sb x s) :=
  uniform_inv (fun _ _ hs1 => bldBody_inv hs1) hs

theorem execBfree_inv (hs : Inv s) : InvRes (execBfree sb s) :=
  uniform_inv (fun _ _ hs1 => demand_inv.andThen fun _ => .ok (slotStep_inv hs1)) hs

theorem completeBld_inv (hs : Inv s) : InvOpt Inv (completeBld s id) := by
  unfold completeBld
  split
  · exact .none
  · split
    · exact ite_keeps (.some (finishTile_inv (bslotSet_inv (touchHomeAs_inv hs)))) .none
    · exact .none

theorem execBldLoadComplete_inv (hs : Inv s) : InvRes (execBldLoadComplete op s) :=
  eventOf_inv (completeBld_inv hs)

/-! ### Matrix -/

theorem passRow_inv {o : OctetOp} {r : Nat} (hs : Inv s) : Inv (passRow s uid cl launch o r) := by
  unfold passRow
  exact foldl_inv (fun _ _ hs1 => by
    split
    · exact hs1
    · extract_lets row old dirty s' sum v s'1
      have hs2 : Inv s' := ite_keeps (freshFree_inv hs1) hs1
      have hs3 : Inv s'1 := accSet_inv hs2
      clear_value s'1
      exact ite_keeps hs3 hs3) hs

theorem passOctet_inv {o : OctetOp} (hs : Inv s) : Inv (passOctet uid cl launch s o) :=
  foldl_inv (fun _ _ hs1 => passRow_inv hs1) hs

theorem octetsOf_inv {b : BSrc} {x : Issue} : InvExc (fun _ => True) (octetsOf b x) :=
  demandNone_inv.andThen fun _ => .pass

theorem bRefOf_inv {b : BSrc} {o : OctetIn} : InvExc (fun _ => True) (bRefOf c s b o) := by
  unfold bRefOf
  extract_lets slot
  split
  · exact .pass
  · exact demand_inv.andThen fun _ => .pass
  · split
    · exact .pass
    · exact trapAll_inv

theorem formatCheck_inv {t : Bool} {bs : List BRef} : InvExc (fun _ => True) (formatCheck s cl launch h t bs) := by
  unfold formatCheck
  split
  · exact trapAll_inv
  · split
    · exact trapAll_inv
    · exact trapAll_inv
    · exact .pass

theorem aCheck_inv {os : List OctetIn} : InvExc (fun _ => True) (aCheck c h os) := by
  unfold aCheck
  exact spCheck_inv.andThen fun _ => by
    extract_lets next src
    have hs : ∀ a, InvExc (fun _ => True) (next a) := fun _ => demandNone_inv.andThen fun _ => presenceCheck_inv
    split
    · exact InvExc.pass.andThen fun _ => hs ()
    · exact .ite_bind (.error trivial) .pass fun _ _ => hs ()

theorem matCheck_inv {w : MatWord} {x : Issue} {os : List OctetIn} (hs : Inv x.s) :
    InvExc (fun r => Inv r.2.2.1) (matCheck w x os) := by
  have refs : InvExc (fun _ => True) (mapE (fun o => (bRefOf x.c x.s w.bsrc o).map (fun b => (o, b))) os) :=
    mapE_inv fun _ => bRefOf_inv.map fun _ _ => trivial
  unfold matCheck
  refine Ctx.handle_inv.andThen fun _ => demand_inv.andThen fun _ => refs.andThen fun _ =>
    formatCheck_inv.andThen fun _ => ?_
  extract_lets ws rest
  have hrest : ∀ r, InvExc (fun r => Inv r.2.2.1) (rest r) := fun _ => aCheck_inv.andThen fun _ =>
    (watchStep_inv hs).bind fun _ hs => (observeLines_inv hs).bind fun _ hs => (observe_inv hs).bind fun _ hs =>
      .ok hs
  split
  · exact InvExc.pass.andThen hrest
  · exact accTrap_inv.andThen hrest

theorem matSpec_inv {w : MatWord} {d : LSrc} {busy : Ctx → State → Bool} {decl : Ctx → Except Stop Unit}
    (hf : ∀ x, InvExc (fun _ => True) (decl x)) :
    SpecInv (matSpec i w d a b busy decl) :=
  ⟨fun _ _ => .pass, fun _ => demand_inv.andThen fun _ => hf _⟩

theorem reserve_inv {e : Resv} {b : BRef} (hs : Inv s) : Inv (reserve s cl e b) := by
  unfold reserve
  extract_lets c s1
  have hs1 : Inv s1 := setCluster_inv hs
  split
  · exact slotStep_inv hs1
  · exact hs1

theorem reserveOctet_inv {w : MatWord} {p : OctetIn × BRef} (hs : Inv s) : Inv (reserveOctet c op h w s p) :=
  reserve_inv (freshId_inv hs)

theorem execMmq_inv {w : MatWord} {d : LSrc} (hs : Inv s) : InvRes (execMmq w d a b s) := by
  unfold execMmq
  refine perLane_inv (matSpec_inv fun _ => .pass) (fun x hx => octetsOf_inv.andThen fun os =>
    (matCheck_inv hx).bind fun r hr => ?_) hs
  exact .ok (Issue.commit_inv (foldl_inv (fun _ _ hs => reserveOctet_inv hs) (markHits_inv (acceptOp_inv hr))))

theorem settleRound_inv {wg t m size : Nat} (hs : Inv s) : Inv (settleRound s cl wg t m size) := by
  unfold settleRound
  extract_lets as c
  clear_value as
  split
  · exact ite_keeps hs (ite_keeps (setCluster_inv hs) (failRound_inv hs))
  · exact hs

theorem arrive_inv {w : MatWord} {t : Nat} {ws : List WatchEl} {p : OctetIn × BRef} (hs : Inv s) :
    Inv (arrive c h w t ws s p) := by
  unfold arrive
  split
  · exact hs
  · exact settleRound_inv (by
        split
        · exact updGroup_inv (markHits_inv (acceptOp_inv hs))
        · exact reserve_inv (freshId_inv (updGroup_inv (markHits_inv (acceptOp_inv hs)))))

theorem memberOctets_inv {t : Nat} {os : List OctetIn} : InvExc (fun _ => True) (memberOctets c t os) :=
  demandNone_inv.andThen fun _ => .pass

theorem execMmt_inv {w : MatWord} {team : Fin 8} {d : LSrc} (hs : Inv s) : InvRes (execMmt w team d a b s) := by
  unfold execMmt
  refine perLane_inv (matSpec_inv fun _ => demand_inv) (fun x hx => octetsOf_inv.andThen fun os =>
    demandNone_inv.andThen fun _ =>
    memberOctets_inv.andThen fun _ => (matCheck_inv hx).bind fun r hr => ?_) hs
  exact .ok (failTeamRounds_inv (Issue.commit_inv (foldl_inv (fun _ _ hs => arrive_inv hs) hr)))

theorem teamTrap_inv {f : TeamFail} (hs : Inv s) : Inv (teamTrap s k f) := by
  unfold teamTrap
  extract_lets s1 src
  have hs1 : Inv s1 := updGroup_inv hs
  split
  · exact hs1
  · extract_lets ls
    split
    · exact hs1
    · extract_lets l pc
      exact takeTrap_inv hs1

theorem runTeamTrap_inv (hs : Inv s) : InvOpt Inv (runTeamTrap s k) := by
  unfold runTeamTrap
  extract_lets s1
  have hs1 : Inv s1 := failTeamRounds_inv hs
  split
  · exact .none
  · split
    · exact .none
    · exact ite_keeps .none (.some (teamTrap_inv hs1))

theorem execTeamTrap_inv {g : GKey} (hs : Inv s) : InvRes (execTeamTrap g s) :=
  eventOf_inv (runTeamTrap_inv hs)

theorem execExit_inv (hs : Inv s) : InvRes (execExit s) :=
  perLaneAt_inv LSpec.mk0_inv (fun _ hs1 => .ok (failTeamRounds_inv (updGroup_inv (Issue.commit_inv hs1)))) hs

theorem grant_inv {fused : List Nat} (hs : Inv s) : InvOpt Inv (grant s cl fused) := by
  unfold grant
  extract_lets c others
  split
  · exact .none
  · extract_lets all ok
    exact ite_keeps (.some (setCluster_inv hs)) .none

theorem execReservationGrant_inv {fused : List Nat} (hs : Inv s) : InvRes (execReservationGrant cluster fused s) :=
  eventOf_inv (grant_inv hs)

theorem ageEntry_inv (hs : Inv s) : InvOpt Inv (ageEntry s cl id) :=
  ite_keeps (.some (setCluster_inv hs)) .none

theorem execReservationAged_inv {entry : Nat} (hs : Inv s) : InvRes (execReservationAged cluster entry s) :=
  eventOf_inv (ageEntry_inv hs)

theorem takeHat_inv (hs : Inv s) : InvOpt Inv (takeHat s cl) :=
  ite_keeps (.some (setCluster_inv hs)) .none

theorem execHatArrive_inv (hs : Inv s) : InvRes (execHatArrive cluster s) :=
  eventOf_inv (takeHat_inv hs)

theorem endBurst_inv (hs : Inv s) : InvOpt Inv (endBurst s cl) :=
  ite_keeps (.some (setCluster_inv hs)) .none

theorem execBurstEnd_inv (hs : Inv s) : InvRes (execBurstEnd cluster s) :=
  eventOf_inv (endBurst_inv hs)

theorem octetDone_inv {o : OctetOp} (hs : Inv s) : Inv (octetDone s o) := by
  unfold octetDone
  split
  · exact hs
  · split
    · exact ite_keeps (finishTile_inv (updOp_inv hs)) (runAccz_inv (updOp_inv hs))
    · exact finishTile_inv hs
    · exact hs

theorem completePass_inv (hs : Inv s) : InvOpt Inv (completePass s cl) := by
  unfold completePass
  extract_lets c
  split
  · exact .none
  · extract_lets s1 src s2 s3
    have hs1 : Inv s1 := foldl_inv (fun _ _ hs2 => foldl_inv (fun _ _ hs3 => passOctet_inv hs3) hs2) hs
    have hs4 : Inv s2 := setCluster_inv hs1
    have hs5 : Inv s3 := foldl_inv (fun _ _ hs6 => entryRead_inv hs6) hs4
    exact .some (foldl_inv (fun _ _ hs7 => foldl_inv (fun _ _ hs8 => octetDone_inv hs8) hs7) hs5)

theorem execMatrixPassComplete_inv (hs : Inv s) : InvRes (execMatrixPassComplete cluster s) :=
  eventOf_inv (completePass_inv hs)

/-! ### KeyStore -/

theorem ksPut_inv {v : Nat} (hs : Inv s) : Inv (ksPut s w ln va n v) :=
  engineSetAll_inv (clearPoisonFor_inv hs)

theorem ksTouch_inv (hs : Inv s) : Inv (ksTouch s w ln va n) := touchHome_inv hs

theorem ksSettle_inv (hs : Inv s) : Inv (ksSettle c s need va n) :=
  settlePassed_inv (settleScats_inv (drainFifo_inv hs))

theorem ksIssueRead_inv (hs : Inv s) : Inv (ksIssueRead c s va n) :=
  foldl_inv (fun _ _ hs1 => l1Drop_inv hs1) (ksTouch_inv (ksSettle_inv hs))

theorem ksHeader_inv {k : Handle} (hs : Inv s) : InvExc (fun r => Inv r.2) (ksHeader c s k) :=
  wholePop_inv (demand_inv.andThen fun _ => reach_inv.andThen fun _ => demand_inv.andThen fun _ =>
    .ok (ksIssueRead_inv (ksSettle_inv hs)))

theorem ksHandle_inv {x : Nat} : InvExc (fun _ => True) (ksHandle c x) :=
  Ctx.handle_inv.andThen fun _ => acceptFmt_inv.andThen fun _ => .pass

theorem ksSupplied_inv {h : KsHead} : InvExc (fun _ => True) (ksSupplied h c) := demand_inv

theorem ksWidthOk_inv : InvExc (fun _ => True) (ksWidthOk c) := demand_inv

theorem ksinitBody_inv {gn : Fin 8} {fresh : Nat → Nat → GnDesc → KsHead} {cap : Nat} {x : Slot} (hs : Inv s) :
    InvExc Inv (ksinitBody gn fresh sd cap x c s) := by
  unfold ksinitBody
  exact .ite_bind (.error trivial) .pass fun _ _ => ksHandle_inv.andThen fun _ => demand_inv.andThen fun _ =>
    demand_inv.andThen fun _ => by
    split
    · exact trapAll_inv
    · exact demand_inv.andThen fun _ => demand_inv.andThen fun _ => (wholePop_inv reach_inv).andThen fun _ =>
      .ok (engineSetAll_inv (clearPoisonFor_inv (ksSettle_inv hs)))

theorem execKsinit_inv {gn : Fin 8} {psc : Scope} {clog : Fin 3} {bb : Fin 9} {d128 : Bool} {x : Slot} (hs : Inv s) :
    InvRes (execKsinit gn psc clog bb d128 sd sb x s) :=
  uniform_inv (fun _ _ hs1 => ksinitBody_inv hs1) hs

theorem kstBody_inv {nl : Bool} {d : LSrc} {x : Slot} {i : Issue} (hs : Inv i.s) :
    InvExc Inv (kstBody nl wide d x i) := by
  unfold kstBody
  exact ksWidthOk_inv.andThen fun _ => Issue.uniformArg_inv.andThen fun _ => ksHandle_inv.andThen fun _ =>
    (ksHeader_inv hs).bind fun _ hs1 => by
    split
    · exact demand_inv.andThen fun _ => ksSupplied_inv.andThen fun _ => by
          extract_lets n mk els ws src a
          have hs2 : Inv a.1 := acceptOp_inv hs1
          split
          · exact (thereafter_inv hs1 reach_inv).andThen fun _ =>
            (thereafter_inv hs1 (watchStep_inv hs1)).bind fun _ hs3 => by
                extract_lets row a1
                have hs4 : Inv a1.1 := acceptOp_inv hs3
                exact .ok (Issue.commit_inv (markHits_inv hs4))
          · exact ite_keeps (.error trivial) (.ok (Issue.commit_inv (finishTile_inv hs2)))

theorem execKst_inv {nl : Bool} {d : LSrc} {h : Slot} (hs : Inv s) : InvRes (execKst nl wide d a h s) :=
  perLane_inv ⟨fun _ _ => .pass, fun _ => .pass⟩ (fun _ hs1 => kstBody_inv hs1) hs

theorem ksigBody_inv {a : VReg} {x : Slot} {i : Issue} (hs : Inv i.s) : InvExc Inv (ksigBody d a x i) := by
  unfold ksigBody
  exact ksWidthOk_inv.andThen fun _ => ksHandle_inv.andThen fun _ => (ksHeader_inv hs).bind fun _ hs1 => by
    split
    · exact demand_inv.andThen fun _ => ksSupplied_inv.andThen fun _ => demandNone_inv.andThen fun _ =>
      .ok (Issue.commit_inv hs1)

theorem execKsig_inv {a : VReg} {h : Slot} (hs : Inv s) : InvRes (execKsig d a h s) :=
  perLane_inv ⟨fun _ _ => .pass, fun _ => .pass⟩ (fun _ hs1 => ksigBody_inv hs1) hs

theorem kgathOut_inv {oh : Slot} {o cap : Nat} : InvExc (fun _ => True) (kgathOut c oh o cap) := by
  have checked {h : Handle} : InvExc (fun _ => True) (do wholePop (spCheck c (kgathRuns h o cap)); .ok h) :=
    (wholePop_inv spCheck_inv).andThen fun _ => .pass
  unfold kgathOut
  refine Ctx.handle_inv.andThen fun _ => acceptFmt_inv.andThen fun _ => demand_inv.andThen fun _ => ?_
  dsimp only
  split
  · trivial
  · exact checked

theorem kgathBody_inv {kh oh : Slot} {p : Nat} {msk : Option MReg} {cap : Nat} {i : Issue} (hs : Inv i.s) :
    InvExc Inv (kgathBody kh oh p msk cap i) := by
  unfold kgathBody
  exact Issue.uniformArg_inv.andThen fun _ => Issue.uniformArg_inv.andThen fun _ => ksHandle_inv.andThen fun _ =>
    (ksHeader_inv hs).bind fun _ hs1 => by
    split
    · exact demand_inv.andThen fun _ => demand_inv.andThen fun _ => kgathOut_inv.andThen fun _ =>
      (wholePop_inv reach_inv).andThen fun _ => (wholePop_inv (watchStep_inv hs1)).bind fun _ hs2 =>
      .ite_bind (.error trivial) .pass fun _ _ => by
          extract_lets lines s op s1 put next src
          have hs3 : Inv s := clearPresence_inv (foldl_inv (fun _ _ hs4 => ksIssueRead_inv hs4) hs2)
          have hs5 : Inv s1 := acceptOp_inv hs3
          have hs6 : ∀ a, InvExc Inv (next a) := fun _ => .ok (Issue.commit_inv hs5)
          split
          · exact .ite_bind .pass (.error trivial) fun _ _ => hs6 ()
          · exact InvExc.pass.andThen fun _ => hs6 ()

theorem execKgath_inv {kh oh : Slot} {p : Fin 13} {msk : Option MReg} {capm1 : Fin 2048} {d : LSrc} (hs : Inv s) :
    InvRes (execKgath kh oh p msk capm1 d a b s) :=
  perLane_inv ⟨fun _ _ => .pass, fun _ => .pass⟩ (fun _ hs1 => kgathBody_inv hs1) hs

theorem kstPut_inv {k : KstOp} (hs : Inv s) : Inv (kstPut s id k) :=
  ite_keeps (finishTile_inv (updOp_inv hs)) (updOp_inv hs)

theorem kstRow_inv (hs : Inv s) : InvOpt Inv (kstRow s id) := by
  unfold kstRow
  split
  · exact .none
  · split
    · exact ite_keeps (.some (kstPut_inv (engineSetAll_inv (clearPoisonFor_inv hs)))) .none
    · exact .none

theorem execKstRowPerformed_inv (hs : Inv s) : InvRes (execKstRowPerformed op s) :=
  eventOf_inv (kstRow_inv hs)

theorem ksLose_inv {k : Handle} {h : KsHead} {flag : Nat} (hs : Inv s) : Inv (ksLose s w ln k h flag) :=
  ksPut_inv hs

theorem ksNewBlock_inv {k : Handle} {h : KsHead} {sigma head : Nat} (hs : Inv s) :
    Inv (ksNewBlock s w ln k h sigma head) :=
  ksPut_inv (ksPut_inv (ksPut_inv hs))

theorem ksClaimIn_inv {k : Handle} {sigma : Nat} (hs : Inv s) : Inv (ksClaimIn s w ln k sigma).1 := by
  unfold ksClaimIn
  extract_lets h ent head n s1
  have hs1 : Inv s1 := ksNewBlock_inv hs
  split
  · split
    · exact ksLose_inv hs
    · exact ite_keeps (P := fun r : State × _ => Inv r.1) (ksLose_inv hs) (ksPut_inv hs1)
  · exact ksPut_inv hs

theorem ksClaimStep_inv {k : Handle} {sigma : Nat} (hs : Inv s) : Inv (ksClaimStep s w ln k sigma).1 :=
  ite_keeps (P := fun r : State × _ => Inv r.1) hs (ite_keeps (P := fun r : State × _ =>
    Inv r.1) (ksLose_inv hs) (ksClaimIn_inv hs))

theorem ksClaimSoft_inv {s' : State} {k : Handle} {sigma : Nat} {claimed : Option Nat} (hs : Inv s') :
    Inv (ksClaimSoft s s' w ln k sigma claimed) :=
  ite_keeps hs hs

theorem ksClaim_inv (hs : Inv s) : InvOpt Inv (ksClaim s id) := by
  unfold ksClaim
  split
  · exact .none
  · split
    · split
      · exact .some (kstPut_inv (ksClaimSoft_inv (ksClaimStep_inv (ksTouch_inv (ksTouch_inv hs)))))
      · exact .none
    · exact .none

theorem execKsClaim_inv (hs : Inv s) : InvRes (execKsClaim op s) := eventOf_inv (ksClaim_inv hs)

theorem ksPublishAt_inv {k : KstOp} (hs : Inv s) : Inv (ksPublishAt s w ln k va) := by
  unfold ksPublishAt
  extract_lets s1
  have hs1 : Inv s1 := ite_keeps (l1WriteBackAll_inv hs) hs
  exact ite_keeps (ksPut_inv hs1) (ite_keeps (ksLose_inv hs1) hs1)

theorem ksPublish_inv (hs : Inv s) : InvOpt Inv (ksPublish s id) := by
  unfold ksPublish
  split
  · exact .none
  · split
    · split
      · exact ite_keeps (.some (kstPut_inv (ksPublishAt_inv hs))) .none
      · exact .none
    · exact .none

theorem execKsPublish_inv (hs : Inv s) : InvRes (execKsPublish op s) :=
  eventOf_inv (ksPublish_inv hs)

theorem kgathOpen_inv {k : KgathOp} (hs : Inv s) : Inv (kgathOpen s w ln k) :=
  touchHome_inv (ite_keeps (l1DropAll_inv (wcOut_inv hs)) (foldl_inv (fun _ _ hs1 => l1Drop_inv hs1) (wcOut_inv hs)))

theorem kgathWalk_inv (hs : Inv s) : InvOpt Inv (kgathWalk s id) := by
  unfold kgathWalk
  split
  · exact .none
  · split
    · split
      · exact .some (restorePresence_inv (updOp_inv
        (finishOp_inv (engineSetAll_inv (poisonLocs_inv (clearPoisonFor_inv (kgathOpen_inv hs)))))))
      · exact .none
    · exact .none

theorem execKgathWalk_inv (hs : Inv s) : InvRes (execKgathWalk op s) :=
  eventOf_inv (kgathWalk_inv hs)

/-! ### Collector -/

theorem collEnter_inv (hs : Inv s) : Inv (collEnter c s op lines) :=
  ite_keeps (updGroup_inv (setCore_inv hs)) (setCore_inv hs)

theorem collDispatch_inv (hs : Inv s) : InvOpt Inv (collDispatch s core line) :=
  ite_keeps (.some (setCore_inv hs)) .none

theorem execCollectorDispatch_inv (hs : Inv s) : InvRes (execCollectorDispatch core line s) :=
  eventOf_inv (collDispatch_inv hs)

theorem collLineServed_inv (hs : Inv s) : InvOpt Inv (collLineServed s core line) := by
  unfold collLineServed
  extract_lets c
  split
  · exact .none
  · exact .some (collRelease_inv (setCore_inv hs))

theorem execCollectorLineServed_inv (hs : Inv s) : InvRes (execCollectorLineServed core line s) :=
  eventOf_inv (collLineServed_inv hs)

theorem collGroupOk_inv {d : Nat} {w : Width} : InvExc (fun _ => True) (collGroupOk d n w c) :=
  demand_inv

theorem scatGroupOk_inv {d : LSrc} {w : Width} : InvExc (fun _ => True) (scatGroupOk d n w c) := by
  unfold scatGroupOk
  split
  · exact .pass
  · split
    · exact collGroupOk_inv
    · exact trapAll_inv

theorem collCheck_inv {kind : WKind} {x : Issue} (hs : Inv x.s) :
    InvExc (fun r => Inv r.2.2) (collCheck need kind men a n x) :=
  Ctx.handle_inv.andThen fun _ => acceptFmt_inv.andThen fun _ => laneRuns_inv.andThen fun _ =>
    reachLines_inv.andThen fun _ => (watchStep_inv hs).bind fun _ hs1 => (observeParked_inv hs1).bind fun _ hs2 =>
    .ok hs2

theorem gathBody_inv {nm1 : Fin 8} {x : Issue} (hs : Inv x.s) : InvExc Inv (gathBody nm1 men d a x) :=
  (collCheck_inv hs).bind fun _ hs1 => .ok (Issue.commit_inv (collEnter_inv (acceptOp_inv hs1)))

theorem execGath_inv {nm1 : Fin 8} {h : HSel} (hs : Inv s) : InvRes (execGath nm1 men d a h s) :=
  perLane_inv ⟨fun _ _ => collGroupOk_inv, fun _ => .pass⟩ (fun _ hs1 => gathBody_inv hs1) hs

theorem scatBody_inv {nm1 : Fin 8} {d : LSrc} {x : Issue} (hs : Inv x.s) : InvExc Inv (scatBody nm1 men d a x) :=
  (collCheck_inv hs).bind fun _ hs1 => .ok (Issue.commit_inv (collEnter_inv (acceptOp_inv (addDigest_inv hs1))))

theorem execScat_inv {nm1 : Fin 8} {d : LSrc} {h : HSel} (hs : Inv s) : InvRes (execScat nm1 men d a h s) :=
  perLane_inv ⟨fun _ _ => scatGroupOk_inv, fun _ => .pass⟩ (fun _ hs1 => scatBody_inv hs1) hs

theorem gathComplete_inv (hs : Inv s) : InvOpt Inv (gathComplete s id) := by
  unfold gathComplete
  split
  · exact .none
  · split
    · exact ite_keeps (.some (finishOp_inv (landRegs_inv hs))) .none
    · exact ite_keeps (.some (finishOp_inv (landRegs_inv (touchHome_inv hs)))) .none
    · exact .none

theorem execGathComplete_inv (hs : Inv s) : InvRes (execGathComplete op s) :=
  eventOf_inv (gathComplete_inv hs)

theorem scatWrite_inv (hs : Inv s) : InvOpt Inv (scatWrite s id) := by
  unfold scatWrite
  split
  · exact .none
  · split
    · exact ite_keeps (.some (collPerform_inv hs)) .none
    · exact .none

theorem execScatWrite_inv (hs : Inv s) : InvRes (execScatWrite op s) :=
  eventOf_inv (scatWrite_inv hs)

theorem sisectBody_inv {ha hb : Slot} {out : Option Slot} {b : VReg} {x : Issue} (hs : Inv x.s) :
    InvExc Inv (sisectBody ha hb out men d b x) := by
  unfold sisectBody
  refine Ctx.handle_inv.andThen fun _ => Ctx.handle_inv.andThen fun _ => ?_
  extract_lets act past info rest
  have hrest : ∀ r, InvExc Inv (rest r) := by
    intro o1
    refine demand_inv.andThen fun _ => ?_
    extract_lets si issue
    have hissue : ∀ r, InvExc Inv (issue r) := fun _ =>
      (watchStep_inv hs).bind fun _ hs => .ok (Issue.commit_inv (collEnter_inv (acceptOp_inv hs)))
    split
    · exact InvExc.pass.andThen hissue
    · trivial
  split
  · exact (Ctx.handle_inv.map fun _ _ => trivial).andThen hrest
  · exact InvExc.pass.andThen hrest

theorem execSisect_inv {ha hb : Slot} {out : Option Slot} {b : VReg} (hs : Inv s) :
    InvRes (execSisect ha hb out men d a b s) :=
  perLane_inv ⟨fun _ _ => .pass, fun _ => .pass⟩ (fun _ hs1 => sisectBody_inv hs1) hs

theorem siOut_inv {oh : Option Handle} {o x : Nat} {src : List Loc} (hs : Inv s) :
    Inv (siOut s w ln oh o n x src).1 := by
  unfold siOut
  split
  · exact hs
  · split
    · exact hs
    · split
      · exact poisonLocs_inv (engineSetAll_inv (clearPoisonFor_inv hs))
      · exact hs

theorem siLoop_inv {si : SiOp} {l : SiLane} {left : Nat} {p : SiPos} (hs : Inv s) :
    InvOpt (fun r => Inv r.1) (siLoop w ln si l left s p) := by
  induction left generalizing s p with
  | zero =>
    unfold siLoop
    split
    · exact hs
    · exact hs
  | succ left ih =>
    have touched {ls : List Loc} : Inv (touchHome s w.core w.owner ls) := touchHome_inv hs
    unfold siLoop
    split
    · exact hs
    · dsimp only
      split
      · trivial
      · exact hs
      · split
        · trivial
        · exact hs
        · split
          · exact ih touched
          · split
            · exact ih touched
            · split
              · next heq => exact ih (inv_fst (siOut_inv touched) heq)
              · exact touched
              · trivial

theorem siWrite_inv {o : Op} {si : SiOp} {l : SiLane} {p : SiPos} {stop : Nat} (hs : Inv s) :
    Inv (siWrite s o si l p stop) :=
  landRegs_inv hs

theorem siLanes_inv {o : Op} {si : SiOp} {ls : List SiLane} (hs : Inv s) : InvOpt Inv (siLanes w ln o si ls s) := by
  induction ls generalizing s with
  | nil => exact hs
  | cons l ls ih =>
    unfold siLanes
    split
    · trivial
    · next heq => exact ih (siWrite_inv ((siLoop_inv hs).of_fst heq))

theorem sisectRun_inv (hs : Inv s) : InvOpt Inv (sisectRun s id) := by
  unfold sisectRun
  split
  · exact .none
  · split
    · split
      · split
        · next heq => exact .some (finishOp_inv ((siLanes_inv hs).of_some heq))
        · exact .none
      · exact .none
    · exact .none

theorem execSisectRun_inv (hs : Inv s) : InvRes (execSisectRun op s) :=
  eventOf_inv (sisectRun_inv hs)

/-! ### TrapOps -/

theorem landLoad_inv {o : Op} (hs : Inv s) : Inv (landLoad s o) := by
  unfold landLoad
  split
  · exact updOp_inv (landRegs_inv hs)
  · exact hs

theorem completeAccesses_inv (hs : Inv s) : Inv (completeAccesses s k) :=
  foldl_inv (fun _ _ hs1 => landLoad_inv hs1) (drainFifo_inv hs)

theorem resumeGroup_inv (hs : Inv s) : Inv (resumeGroup s k skip pc) :=
  failTeamRounds_inv (closeStale_inv (returnFromTrap_inv (completeAccesses_inv hs)))

theorem execTret_inv (hs : Inv s) : InvRes (execTret skip s) := by
  unfold execTret
  split
  · exact .fault
  · exact Ctx.settle_inv hs (demand_inv.andThen fun _ => .ok (resumeGroup_inv hs))

theorem execGend_inv {rcd : Bool} (hs : Inv s) : InvRes (execGend rcd s) := by
  unfold execGend
  split
  · exact .fault
  · exact Ctx.settle_inv hs (demand_inv.andThen fun _ =>
    .ok (failTeamRounds_inv (endGroupsWhere_inv (ite_keeps (unhandled_inv hs) hs))))

theorem trapOnly_inv {body : Ctx → State → Except Stop State} (hf : ∀ a b, Inv b → InvExc Inv (body a b))
    (hs : Inv s) :
    InvRes (trapOnly i body s) := by
  unfold trapOnly
  split
  · exact .fault
  · exact Ctx.settle_inv hs (demand_inv.andThen fun _ => Ctx.fallOk_inv.andThen fun _ =>
    (hf _ _ hs).bind fun _ hs1 => .ok (Ctx.advance_inv hs1))

theorem execTfrd_inv (hs : Inv s) : InvRes (execTfrd sd sb s) :=
  trapOnly_inv (fun _ _ hs1 => demand_inv.andThen fun _ => .ok (updGroup_inv hs1)) hs

theorem clearFramePoison_inv (hs : Inv s) : Inv (clearFramePoison s k n) := updGroup_inv hs

theorem execTfwr_inv (hs : Inv s) : InvRes (execTfwr sd sb s) :=
  trapOnly_inv (fun _ _ hs1 => demand_inv.andThen fun _ => .ok (frameSet_inv (clearFramePoison_inv hs1))) hs

theorem watchHandle_inv {v : Word} : InvExc (fun _ => True) (watchHandle c v) :=
  Ctx.handle_inv.andThen fun _ => acceptFmt_inv.andThen fun _ => .pass

theorem setWatch_inv {d : BitVec 256} (hs : Inv s) : Inv (setWatch s uid n d) := by
  unfold setWatch
  extract_lets s1
  have hs1 : Inv s1 := updWg_inv hs
  split
  · exact keyedSetNum_inv hs1
  · exact hs1

theorem execWatchLoad_inv {n : Fin 8} (hs : Inv s) : InvRes (execWatchLoad n sb s) :=
  uniform_inv (fun _ _ hs1 => watchHandle_inv.andThen fun _ => (tableRun_inv hs1).bind fun _ hs2 =>
    (thereafter_inv hs2 demand_inv).andThen fun _ => .ok (setWatch_inv (tableBytes_inv hs2))) hs

theorem tableStoreRun_inv {i align : Nat} (hs : Inv s) :
    InvExc (fun r => Inv r.2) (tableStoreRun c s h i n align need) := by
  unfold tableStoreRun
  exact wholePop_inv (by
    split
    · exact oobTrap_inv
    · exact demand_inv.andThen fun _ => .ite_bind spCheck_inv .pass fun _ _ => reach_inv.andThen fun _ =>
      (watchStep_inv hs).bind fun _ hs1 => (observeParked_inv hs1).bind fun _ hs2 => .ok hs2)

theorem execWatchStore_inv {n : Fin 8} (hs : Inv s) : InvRes (execWatchStore n sb s) :=
  uniform_inv (fun _ _ hs1 => classRoom_inv.andThen fun _ => watchHandle_inv.andThen fun _ =>
    (tableStoreRun_inv hs1).bind fun _ hs2 => .ok (popStore_inv hs2)) hs

theorem execWatchClr_inv {n : Fin 8} (hs : Inv s) : InvRes (execWatchClr n s) :=
  uniform_inv (fun _ _ hs1 => .ok (setWatch_inv hs1)) hs

/-! ### Queue -/

theorem recSetState_inv {st : Nat} (hs : Inv s) : Inv (recSetState s pa st) := plainSetNum_inv hs

theorem recRefuse_inv {reason : Nat} (hs : Inv s) : Inv (recRefuse s pa reason) :=
  plainSetNum_inv hs

theorem rcbSetHead_inv {v : Nat} (hs : Inv s) : Inv (rcbSetHead s region v) := plainSetNum_inv hs

theorem rcbSetTail_inv {v : Nat} (hs : Inv s) : Inv (rcbSetTail s region v) := plainSetNum_inv hs

theorem rcbSetTapesp_inv {v : Nat} (hs : Inv s) : Inv (rcbSetTapesp s region v) :=
  plainSetNum_inv hs

theorem linkRecord_inv {atHead : Bool} (hs : Inv s) : Inv (linkRecord s region pa atHead) := by
  unfold linkRecord
  extract_lets h t
  split
  · exact rcbSetTail_inv (rcbSetHead_inv hs)
  · exact ite_keeps (rcbSetHead_inv (plainSetNum_inv hs)) (rcbSetTail_inv (plainSetNum_inv hs))

theorem enqueue_inv {after : Option Nat} {tape : Bool} (hs : Inv s) : Inv (enqueue s region pa after tape).1 := by
  unfold enqueue
  extract_lets lidx s1 s2 s3 s4 s5
  have hs1 : Inv s1 := plainSetNum_inv hs
  have hs2 : Inv s2 := recSetState_inv hs1
  have hs3 : Inv s3 := plainSetNum_inv hs2
  have hs4 : Inv s4 := plainSetNum_inv hs3
  have hs5 : Inv s5 := linkRecord_inv hs4
  clear_value s5
  exact hs5

theorem unlinkRecord_inv (hs : Inv s) : Inv (unlinkRecord s region pa) := by
  unfold unlinkRecord
  extract_lets next recs prev s1
  clear_value prev
  have hs1 : Inv s1 := by
    unfold s1
    split
    · exact rcbSetHead_inv hs
    · split
      · exact plainSetNum_inv hs
      · exact hs
  exact ite_keeps (rcbSetTail_inv hs1) hs1

theorem postLaunch_inv {a : Nat} (hs : Inv s) : Inv (postLaunch s a) := by
  unfold postLaunch
  split
  · exact post_inv hs
  · split
    · exact post_inv (plainSetNum_inv (recRefuse_inv hs))
    · exact enqueue_inv hs

theorem execLaunchPost_inv {addr : DWord} (hs : Inv s) : InvRes (execLaunchPost addr s) :=
  ite_keeps (ite_keeps .refused (.next (postLaunch_inv hs))) (.next hs)

theorem releaseSystem_inv (hs : Inv s) : Inv (releaseSystem c s) :=
  l1WriteBackAll_inv (drainFifo_inv hs)

theorem recordRun_inv {v : Word} (hs : Inv s) : InvExc (fun r => Inv r.2.2) (recordRun c s v n) :=
  Ctx.handle_inv.andThen fun _ => acceptFmt_inv.andThen fun _ => demand_inv.andThen fun _ =>
    (tableStoreRun_inv hs).bind fun _ hs1 => .ok hs1

theorem launchCheck_inv {v : Word} (hs : Inv s) : InvExc (fun r => Inv r.2.2) (launchCheck v c s) := by
  unfold launchCheck
  refine (recordRun_inv hs).bind fun r hr => ?_
  extract_lets pa s1 g
  have hs1 : Inv s1 := l1Drop_inv (wcOutRange_inv (releaseSystem_inv hr))
  clear_value s1 g pa
  have checked := thereafter_inv (P := fun _ => True) hs1
    (demand_inv (ok := (metRcbs s1 8 g).contains c.ln.region) (cause := cPriv) (sub := 2))
  exact checked.andThen fun _ => .ok hs1

theorem launchBody_inv {after : Bool} {v : Word} (hs : Inv s) : InvExc Inv (launchBody after sd v c s) :=
  (launchCheck_inv hs).bind fun _ hs1 => ite_keeps (.ok (updGroup_inv hs1))
    (.ok (updGroup_inv (enqueue_inv (clusterDrop_inv hs1))))

theorem execLaunch_inv {after : Bool} (hs : Inv s) : InvRes (execLaunch after sd sb s) :=
  ite_keeps .refused (uniform_inv (fun _ _ hs1 => launchBody_inv hs1) hs)

theorem tapepushBody_inv {endF : Bool} {v : Word} (hs : Inv s) : InvExc Inv (tapepushBody endF sd v c s) := by
  unfold tapepushBody
  exact (recordRun_inv hs).bind fun _ hs1 => by
    extract_lets s1 sp room va q to' s2 bs push s3 s4 next x
    have hs2 : Inv s1 := hs1
    have hs3 : Inv q.2 := tableBytes_inv hs2
    have hs4 : Inv s2 := drainFifo_inv (ite_keeps (settleFor_inv hs3) hs3)
    have hs5 : ∀ a, Inv a → Inv (push a) := fun _ hs6 => rcbSetTapesp_inv (foldl_inv (fun _ _ hs7 =>
      storeByteOut_inv hs7) (clearPoisonFor_inv hs6))
    have hs8 : Inv s3 := ite_keeps (hs5 _ hs4) hs4
    have hs9 : Inv s4 := ite_keeps (updLaunch_inv hs8) hs8
    have hs10 : ∀ a, InvExc Inv (next a) := fun _ => (thereafter_inv hs2 demand_inv).andThen fun _ =>
      .ok (updGroup_inv hs9)
    exact .ite_bind (thereafter_inv hs2 (wholePop_inv xlCheck_inv)) .pass fun _ _ => hs10 ()

theorem execTapepush_inv {endF : Bool} (hs : Inv s) : InvRes (execTapepush endF sd sb s) :=
  uniform_inv (fun _ _ hs1 => tapepushBody_inv hs1) hs

theorem syncTable_inv {hi l table va0 : Nat} (hs : Inv s) : Inv (syncTable lo hi l table va0 s) := by
  have copied (s : State) (hs : Inv s) (a : Nat) (b : SMap Byte) : Inv { s with xmem := memPutBlock s.xmem a 8 b } :=
    ⟨hs.1, memPutBlock_wf a 8 b hs.2⟩
  induction l generalizing table va0 s with
  | zero =>
    unfold syncTable
    exact foldl_inv (fun _ _ hs => copied _ hs _ _) hs
  | succ l ih =>
    unfold syncTable
    exact foldl_inv (fun _ _ hs => ite_keeps (ih (copied _ hs _ _)) (copied _ hs _ _)) hs

theorem syncRange_inv {root hi : Nat} (hs : Inv s) : Inv (syncRange s root lo hi) :=
  syncTable_inv hs

theorem touchLaunch_inv {l : Launch} (hs : Inv s) : Inv (touchLaunch s l) := by
  unfold touchLaunch
  exact ite_keeps (virtTouch_inv (ite_keeps (virtTouch_inv hs) hs)) (ite_keeps (virtTouch_inv hs) hs)

theorem refuseLaunch_inv {q : Queued} {reason : Nat} (hs : Inv s) : Inv (refuseLaunch s q reason) := by
  unfold refuseLaunch
  extract_lets s1 s2 s3
  have hs1 : Inv s1 := recRefuse_inv hs
  have hs2 : Inv s2 := post_inv hs1
  have hs3 : Inv s3 := unlinkRecord_inv hs2
  clear_value s3
  exact hs3

theorem tapeEnd_inv {failing : Nat} (hs : Inv s) : Inv (tapeEnd s region failing) := by
  unfold tapeEnd
  exact post_inv (by
    split
    · exact rcbSetBit_inv hs
    · exact ite_keeps (engineOut_inv (rcbSetBit_inv hs)) (rcbSetBit_inv hs))

theorem tapeTurn_inv {a : Option (List Nat)} (hs : Inv s) : Inv (tapeTurn s region a) := by
  unfold tapeTurn
  split
  · exact tapeEnd_inv hs
  · extract_lets ln sp at' s1
    have hs1 : Inv s1 := rcbSetTapesp_inv (virtTouch_inv hs)
    split
    · exact tapeEnd_inv hs
    · split
      · extract_lets s2
        have hs2 : Inv s2 := ownSetBytes_inv hs1
        exact enqueue_inv hs2
      · exact tapeEnd_inv hs

theorem tapeNext_inv (hs : Inv s) : Inv (tapeNext s region) := tapeTurn_inv hs

theorem tapeStart_inv (hs : Inv s) : Inv (tapeStart s region) := by
  unfold tapeStart
  split
  · exact hs
  · extract_lets s1
    have hs1 : Inv s1 := rcbSetBit_inv hs
    split
    · exact tapeEnd_inv hs1
    · exact ite_keeps (tapeEnd_inv hs1) (tapeNext_inv hs1)

theorem takeLaunch_inv (hs : Inv s) : InvOpt Inv (takeLaunch s) := by
  unfold takeLaunch
  split
  · exact .none
  · extract_lets refuse f
    have hs1 : ∀ a b, Inv a → Inv (refuse a b) := by
      unfold refuse
      exact fun _ _ hs2 => by
        extract_lets s1
        have hs3 : Inv s1 := refuseLaunch_inv hs2
        exact ite_keeps (tapeEnd_inv hs3) hs3
    have hs4 : Inv f.2 := freshId_inv hs
    split
    · exact .some (hs1 _ _ hs)
    · split
      · exact .some (hs1 _ _ hs)
      · extract_lets l0 s2 j s3 s4
        have hs5 : Inv s2 := ite_keeps hs4 (syncRange_inv hs4)
        clear_value j
        have hs6 : Inv s3 := touchLaunch_inv hs5
        have hs7 : Inv s4 := recSetState_inv hs6
        clear_value s4
        split
        · exact .some (hs1 _ _ hs6)
        · exact .some hs7

theorem execLaunchTake_inv (hs : Inv s) : InvRes (execLaunchTake s) :=
  eventOf_inv (takeLaunch_inv hs)

theorem flushCores_inv (hs : Inv s) : Inv (flushCores s) :=
  foldl_inv (fun _ _ hs1 => l1WriteBackAll_inv (wcOut_inv hs1)) hs

theorem afterLaunch_inv {l : Launch} (hs : Inv s) : Inv (afterLaunch s l) := by
  unfold afterLaunch
  split
  · exact ite_keeps (tapeEnd_inv hs) (tapeNext_inv hs)
  · exact ite_keeps (ite_keeps (post_inv hs) (tapeStart_inv hs)) hs

theorem completeLaunch_inv (hs : Inv s) : InvOpt Inv (completeLaunch s uid) := by
  unfold completeLaunch
  split
  · exact .none
  · split
    · extract_lets s1 s2 st s3 s4 s5
      have hs1 : Inv s1 := flushCores_inv hs
      have hs2 : Inv s2 := plainSetNum_inv hs1
      have hs3 : Inv s3 := recSetState_inv hs2
      have hs4 : Inv s4 := post_inv hs3
      have hs5 : Inv s5 := unlinkRecord_inv hs4
      clear_value s5
      exact .some (afterLaunch_inv hs5)
    · exact .none

theorem execLaunchComplete_inv (hs : Inv s) : InvRes (execLaunchComplete launch s) :=
  eventOf_inv (completeLaunch_inv hs)

/-! ### Place -/

theorem writeHead_inv {l : Launch} {st : Nat} (hs : Inv s) : Inv (writeHead s l w st) :=
  putBlockKeyed_inv hs

theorem dropOwned_inv (hs : Inv s) : Inv (dropOwned s core owner) :=
  foldl_inv (fun _ _ hs1 => l1Drop_inv hs1) hs

theorem openSlots_inv {l : Launch} {ps : List GPlace} (hs : Inv s) : Inv (openSlots s core l ps) :=
  foldl_inv (fun _ _ hs1 => ite_keeps hs1 hs1) hs

theorem beginSlice_inv {l : Launch} (hs : Inv s) : Inv (beginSlice s l) := by
  unfold beginSlice
  extract_lets awaited expired s1
  have hs1 : Inv s1 := updLaunch_inv hs
  clear_value s1
  exact ite_keeps hs hs1

theorem placeWg_inv {l : Launch} {index : Nat} (hs : Inv s) : InvOpt Inv (placeWg s l index core) := by
  unfold placeWg
  split
  · split
    · extract_lets f w s1 s2 s3 s4 s5
      have hs1 : Inv f.2 := freshId_inv hs
      have hs2 : Inv s1 := beginSlice_inv hs1
      have hs3 : Inv s2 := dropOwned_inv hs2
      have hs4 : Inv s3 := openSlots_inv hs3
      have hs5 : Inv s4 := updLaunch_inv hs4
      have hs6 : Inv s5 := writeHead_inv hs5
      clear_value s5
      exact .some hs6
    · exact .none
  · exact .none

theorem placeOn_inv {l : Launch} {cores is : List Nat} (hs : Inv s) : InvOpt Inv (placeOn l cores is s) := by
  induction is generalizing s with
  | nil => exact hs
  | cons i is ih => exact InvOpt.findSome fun _ => (placeWg_inv hs).bind fun _ hs => ih hs

theorem placeQuartet_inv {l : Launch} (hs : Inv s) : InvOpt Inv (placeQuartet s l core) := by
  unfold placeQuartet
  split
  · exact .none
  · split
    · exact .none
    · next heq => exact placeOn_inv ((placeWg_inv hs).of_some heq)

theorem reloadSlot_inv {b : BSlot} (hs : Inv s) : Inv (reloadSlot s w ln b) :=
  ite_keeps (bslotSet_inv (ite_keeps (touchHomeAs_inv hs) hs)) (bslotSet_inv hs)

theorem giveSlots_inv {bs : List BSlot} (hs : Inv s) : Inv (giveSlots s ln w bs) :=
  foldl_inv (fun _ _ hs1 => keyedSetNum_inv hs1) (updWg_inv hs)

theorem takeSlots_inv (hs : Inv s) : Inv (takeSlots s cl uid) := setCluster_inv hs

theorem leaveCluster_inv (hs : Inv s) : Inv (leaveCluster s ln cl) := by
  unfold leaveCluster
  split
  · exact hs
  · extract_lets bs s1
    clear_value bs
    have hs1 : Inv s1 := takeSlots_inv hs
    split
    · exact giveSlots_inv hs1
    · exact hs1

theorem returnSlots_inv {w' : Wg} {s' : State} (hs : Inv s') : Inv (returnSlots s ln w w' s') := by
  unfold returnSlots
  extract_lets mates bs s'1
  have hs1 : Inv s'1 := ite_keeps hs (foldl_inv (fun _ _ hs2 => reloadSlot_inv hs2) hs)
  split
  · exact hs1
  · split
    · exact giveSlots_inv hs1
    · exact hs1

theorem reStep_inv {p : Nat × SlotStep} (hs : Inv s) : Inv (reStep ln cl s p) := by
  unfold reStep
  extract_lets b
  split
  · exact hs
  · split
    · extract_lets fmt
      exact slotStep_inv hs
    · exact slotStep_inv hs

theorem reopenRounds_inv (hs : Inv s) : Inv (reopenRounds s w ln cl) :=
  foldl_inv (fun _ _ hs1 => reStep_inv hs1) (setCluster_inv hs)

theorem restoreWg_inv (hs : Inv s) : InvOpt Inv (restoreWg s w core) := by
  unfold restoreWg
  split
  · exact .none
  · split
    · split
      · exact .none
      · extract_lets f w' s0 s1 s2 s3 at' s4
        have hs1 : Inv f.2 := freshId_inv hs
        have hs2 : Inv s1 := dropOwned_inv (openSlots_inv (beginSlice_inv hs1))
        have hs3 : Inv s2 := writeHead_inv hs2
        have hs4 : Inv s3 := updWg_inv hs3
        clear_value s3
        have hs5 : Inv s4 := hs4
        exact .some (reopenRounds_inv (returnSlots_inv hs5))
    · exact .none

theorem restoreOn_inv {cores us : List Nat} (hs : Inv s) : InvOpt Inv (restoreOn cores us s) := by
  induction us generalizing s with
  | nil => exact hs
  | cons u us ih =>
    unfold restoreOn
    split
    · trivial
    · exact InvOpt.findSome fun _ => (restoreWg_inv hs).bind fun _ hs => ih hs

theorem restoreQuartet_inv (hs : Inv s) : InvOpt Inv (restoreQuartet s w core) := by
  unfold restoreQuartet
  split
  · exact .none
  · next heq => exact restoreOn_inv ((restoreWg_inv hs).of_some heq)

theorem placeStep_inv (hs : Inv s) : InvOpt Inv (placeStep s core) := by
  unfold placeStep
  split
  · exact .none
  · split
    · exact .none
    · exact ite_keeps .none (placeQuartet_inv hs)

theorem execWorkgroupPlace_inv (hs : Inv s) : InvRes (execWorkgroupPlace core s) :=
  eventOf_inv (placeStep_inv hs)

theorem restoreStep_inv (hs : Inv s) : InvOpt Inv (restoreStep s uid core) := by
  unfold restoreStep
  split
  · exact .none
  · split
    · exact .none
    · split
      · exact .none
      · exact ite_keeps (restoreQuartet_inv hs) .none

theorem execRestore_inv {wg : Nat} (hs : Inv s) : InvRes (execRestore wg core s) :=
  eventOf_inv (restoreStep_inv hs)

theorem stopWgs_inv {uids : List Nat} (hs : Inv s) : Inv (stopWgs s uids) := hs

theorem preempt_inv (hs : Inv s) : InvOpt Inv (preempt s) := by
  unfold preempt
  split
  · exact .none
  · split
    · exact .none
    · split
      · exact .none
      · exact .some (stopWgs_inv hs)

theorem execPreempt_inv (hs : Inv s) : InvRes (execPreempt s) := eventOf_inv (preempt_inv hs)

theorem writeImage_inv {l : Launch} (hs : Inv s) : Inv (writeImage s l w) :=
  putBlockKeyed_inv (putBlockKeyed_inv (writeHead_inv hs))

theorem takeRounds_inv (hs : Inv s) : Inv (takeRounds s w).2 := setCluster_inv hs

theorem closeSlots_inv (hs : Inv s) : Inv (closeSlots s core) := hs

theorem savedOps_inv (hs : Inv s) : Inv (savedOps s uid) := by
  unfold savedOps
  extract_lets s1
  have hs1 : Inv s1 := foldl_inv (fun _ _ hs2 => closePst_inv hs2) hs
  clear_value s1
  exact hs1

theorem saveWg_inv (hs : Inv s) : InvOpt Inv (saveWg s uid) := by
  unfold saveWg
  split
  · exact .none
  · split
    · exact .none
    · split
      · extract_lets cl s1 r s2 last slots s3 w' s4 rest s5
        have hs1 : Inv s1 := l1WriteBackAll_inv (wcOut_inv hs)
        have hs2 : Inv r.2 := takeRounds_inv (savedOps_inv hs1)
        have hs3 : Inv s2 := hs2
        have hs4 : Inv s3 := ite_keeps (takeSlots_inv hs3) hs3
        have hs5 : Inv s4 := updWg_inv hs4
        clear_value s4
        have hs6 : Inv s5 := hs5
        exact .some (closeSlots_inv (writeImage_inv hs6))
      · exact .none

theorem execPreemptSave_inv {wg : Nat} (hs : Inv s) : InvRes (execPreemptSave wg s) :=
  eventOf_inv (saveWg_inv hs)

theorem endWg_inv (hs : Inv s) : Inv (endWg s w) := by
  unfold endWg
  exact closeSlots_inv (updLaunch_inv (by
    split
    · exact leaveCluster_inv (dropWg_inv hs)
    · exact takeSlots_inv (dropWg_inv hs)))

theorem quietGroup_inv {g : Group} (hs : Inv s) : Inv (quietGroup s g) :=
  ite_keeps (closePst_inv hs) hs

theorem endGroup_inv (hs : Inv s) : InvOpt Inv (endGroup s k) := by
  unfold endGroup
  split
  · split
    · extract_lets s1 s2 s3
      have hs1 : Inv s1 := quietGroup_inv hs
      clear_value s1
      have hs2 : Inv s2 := hs1
      have hs3 : Inv s3 := failTeamRounds_inv hs2
      exact .some (ite_keeps (endWg_inv hs3) (closeSlots_inv hs3))
    · exact .none
  · exact .none

theorem execGroupEnd_inv {g : GKey} (hs : Inv s) : InvRes (execGroupEnd g s) :=
  eventOf_inv (endGroup_inv hs)

theorem sliceExpiry_inv (hs : Inv s) : InvOpt Inv (sliceExpiry s uid) := by
  unfold sliceExpiry
  split
  · exact .none
  · extract_lets here mine retires
    split
    · exact .none
    · exact ite_keeps (.some (stopWgs_inv (updLaunch_inv hs))) .none

theorem execSliceExpiry_inv (hs : Inv s) : InvRes (execSliceExpiry launch s) :=
  eventOf_inv (sliceExpiry_inv hs)

theorem promoteSlot_inv {slot : Nat} (hs : Inv s) : InvOpt Inv (promoteSlot s core part slot) :=
  ite_keeps (.some hs) .none

theorem execIssueSlotPromote_inv {slot : Nat} (hs : Inv s) : InvRes (execIssueSlotPromote core part slot s) :=
  eventOf_inv (promoteSlot_inv hs)

theorem promotePort_inv (hs : Inv s) : InvOpt Inv (promotePort s id) := ite_keeps (.some hs) .none

theorem execL2PortPromote_inv {req : Nat} (hs : Inv s) : InvRes (execL2PortPromote req s) :=
  eventOf_inv (promotePort_inv hs)

theorem poisonSlot_inv {l : Nat} (hs : Inv s) : Inv (poisonSlot s cl l n) := bslotSet_inv hs

theorem softError_inv {p : PoisonLoc} (hs : Inv s) : InvOpt Inv (softError s p) := by
  unfold softError
  split
  · split
    · exact .some (poisonSlot_inv hs)
    · exact .some hs
  · exact .none

theorem execSoftError_inv {p : PoisonLoc} (hs : Inv s) : InvRes (execSoftError p s) :=
  eventOf_inv (softError_inv hs)

/-! ### Fetch -/

theorem requestPage_inv {root l e : Nat} {w : ReqWait} (hs : Inv s) : Inv (requestPage s root owner l e va w).2 := by
  unfold requestPage
  split
  · exact hs
  · extract_lets f host src s1
    have hs1 : Inv f.2 := freshId_inv hs
    have hs2 : Inv src := hs1
    clear_value src
    have hs3 : Inv s1 := hs2
    exact ite_keeps (post_inv hs3) hs3

theorem fetchStop_inv {f : FetchStop} (hs : Inv s) : Inv (fetchStop c s f) := by
  unfold fetchStop
  extract_lets s1
  have hs1 : Inv s1 := unpair_inv hs
  split
  · exact raiseTrap_inv hs1 hs1
  · exact parkFetch_inv hs1
  · split
    · exact raiseTrap_inv hs1 hs1
    · split
      · extract_lets r
        have hs2 : Inv r.2 := requestPage_inv hs1
        exact parkFetch_inv hs2
      · exact hs1

theorem execFetchFault_inv (hs : Inv s) : InvRes (execFetchFault s) := by
  unfold execFetchFault
  split
  · exact .fault
  · split
    · exact notEnabled_inv
    · exact .next (fetchStop_inv hs)

theorem decodeTrap_inv {t : DecodeTrap} {len : Nat} (hs : Inv s) : InvRes (decodeTrap t len s) := by
  unfold decodeTrap
  split
  · exact .fault
  · split <;> exact Ctx.settle_inv hs trapAll_inv

theorem execIllegalEncoding_inv {w : Word} (hs : Inv s) : InvRes (execIllegalEncoding w s) :=
  ite_keeps (decodeTrap_inv hs) notEnabled_inv

/-! ### Residency -/

theorem pgreqArrive_inv {o : Op} {bar err : Nat} (hs : Inv s) : Inv (pgreqArrive s o bar err) :=
  finishOp_inv (engineArrive_inv hs)

theorem walkPgreq_inv (hs : Inv s) : InvOpt Inv (walkPgreq s id) := by
  unfold walkPgreq
  split
  · exact .none
  · split
    · exact .none
    · split
      · exact .some (pgreqArrive_inv hs)
      · split
        · exact .some (pgreqArrive_inv hs)
        · exact .some (pgreqArrive_inv hs)
        · exact ite_keeps .none (.some (pgreqArrive_inv hs))
        · exact .some (updOp_inv (requestPage_inv hs))

theorem execPgreqWalk_inv (hs : Inv s) : InvRes (execPgreqWalk op s) :=
  eventOf_inv (walkPgreq_inv hs)

theorem copyLine_inv {key : BitVec 512} {src dst : Nat} (hs : Inv s) : Inv (copyLine key src dst s) := by
  unfold copyLine
  extract_lets d bad s1 s2
  have hs1 : Inv s1 := mscDrop_inv hs
  have hs2 : Inv s2 := putBlockKeyed_inv hs1
  clear_value s2
  exact hs2

theorem copyLines_inv {key : BitVec 512} {src dst : Nat} (hs : Inv s) : Inv (copyLines key src dst n s) :=
  foldl_inv (fun _ _ hs1 => copyLine_inv hs1) hs

theorem writeEntry_inv {epa e : Nat} (hs : Inv s) : Inv (writeEntry s epa e) := by
  unfold writeEntry
  extract_lets s1
  have hs1 : Inv s1 := plainSetNum_inv hs
  clear_value s1
  exact ⟨hs1.1, memSetBytes_wf _ _ hs1.2⟩

theorem dropRange_inv (hs : Inv s) : Inv (dropRange s core lo n) :=
  foldl_inv (fun _ _ hs1 => l1Drop_inv hs1) (wcOutRange_inv hs)

theorem dropRangeAll_inv (hs : Inv s) : Inv (dropRangeAll s lo n) :=
  foldl_inv (fun _ _ hs1 => dropRange_inv hs1) hs

theorem makeResident_inv {l epa e : Nat} (hs : Inv s) : InvOpt Inv (makeResident s owner l epa e) := by
  unfold makeResident
  extract_lets z page back s1 s2 s3
  have hs1 : Inv s3 := writeEntry_inv (copyLines_inv (plainSetNum_inv (dropRangeAll_inv hs)))
  clear_value s3
  exact ite_keeps .none (.some (ite_keeps hs1 ⟨hs1.1, memPutBlock_wf _ _ _ hs1.2⟩))

theorem answerOp_inv {ok : Bool} (hs : Inv s) : Inv (answerOp s ok id) := by
  unfold answerOp
  split
  · exact hs
  · exact ite_keeps (pgreqArrive_inv hs) (ite_keeps (pgreqArrive_inv hs) (updOp_inv hs))

theorem answerFetch_inv {ok : Bool} {req : Nat} (hs : Inv s) : Inv (answerFetch s ok req va k) := by
  unfold answerFetch
  split
  · exact hs
  · extract_lets mine
    clear_value mine
    split
    · exact foldl_inv (fun _ _ hs1 => wake_inv hs1) hs
    · split
      · exact hs
      · exact takeTrap_inv hs

theorem answerReq_inv {r : ResReq} {ok : Bool} (hs : Inv s) : Inv (answerReq s r ok) := by
  unfold answerReq
  exact foldl_inv (fun _ _ hs1 => by
    split
    · exact answerOp_inv hs1
    · exact answerFetch_inv hs1) hs

theorem commandDone_inv {slot : Nat} {tag : BitVec 16} {status : Nat} (hs : Inv s) :
    Inv (commandDone s slot tag status) :=
  post_inv hs

theorem completeResidency_inv (hs : Inv s) : InvOpt Inv (completeResidency s id) := by
  have answered {s : State} {r : ResReq} {ok : Bool} (hs : Inv s) : InvOpt Inv
    (some (answerReq s r ok)) := answerReq_inv hs
  unfold completeResidency
  split
  · trivial
  · split
    · exact ite_keeps .none (.some (commandDone_inv (answerReq_inv hs)))
    · split
      · trivial
      · split
        · exact answered hs
        · exact answered hs
        · exact answered hs
        · split
          · exact answered hs
          · next heq =>
            have resident := (makeResident_inv hs).of_some heq
            exact .some (ite_keeps (answerReq_inv resident) resident)

theorem execResidencyComplete_inv {req : Nat} (hs : Inv s) : InvRes (execResidencyComplete req s) :=
  eventOf_inv (completeResidency_inv hs)

theorem completeUpdate_inv (hs : Inv s) : InvOpt Inv (completeUpdate s id) := by
  unfold completeUpdate
  split
  · exact .none
  · exact .some (by
        split
        · exact commandDone_inv (syncRange_inv hs)
        · exact syncRange_inv hs)

theorem execTranslationUpdateComplete_inv {upd : Nat} (hs : Inv s) : InvRes (execTranslationUpdateComplete upd s) :=
  eventOf_inv (completeUpdate_inv hs)

/-! ### Boot -/

theorem recordStep_inv {step out : Nat} {detail : DWord} (hs : Inv s) : Inv (recordStep s step out detail) :=
  hs

theorem setPort_inv {p : Nat} {x : Port} (hs : Inv s) : Inv (setPort s p x) := hs

theorem resend_inv {p : Nat} (hs : Inv s) : Inv (resend s p) := by
  unfold resend
  extract_lets x again
  split
  · exact setPort_inv hs
  · extract_lets y
    exact setPort_inv (setPort_inv hs)

theorem plainStep_inv {step : Nat} {detail : DWord} (hs : Inv s) : Inv (plainStep s env step detail) :=
  recordStep_inv hs

theorem stepRails_inv (hs : Inv s) : Inv (stepRails s env) := by
  unfold stepRails
  extract_lets s1 src
  have hs1 : Inv s1 := plainStep_inv hs
  clear_value s1
  exact hs1

theorem stepFuses_inv (hs : Inv s) : Inv (stepFuses s env) := by
  unfold stepFuses
  split
  · exact recordStep_inv hs
  · extract_lets s1 src
    have hs1 : Inv s1 := recordStep_inv hs
    clear_value s1
    exact hs1

theorem stepTraining_inv {byAlt : Bool} (hs : Inv s) : Inv (stepTraining s env byAlt) :=
  ite_keeps (recordStep_inv hs) (ite_keeps (recordStep_inv hs) (recordStep_inv hs))

theorem stepClusters_inv {byAlt : Bool} (hs : Inv s) : Inv (stepClusters s env byAlt) := by
  unfold stepClusters
  extract_lets known found bad s1 src
  have hs1 : Inv s1 := ite_keeps (recordStep_inv hs) (recordStep_inv hs)
  clear_value s1
  exact ite_keeps (recordStep_inv hs) hs1

theorem stepSplit_inv (hs : Inv s) : Inv (stepSplit s env) := by
  unfold stepSplit
  extract_lets s1 src
  have hs1 : Inv s1 := plainStep_inv hs
  clear_value s1
  exact hs1

theorem stepCxl_inv (hs : Inv s) : Inv (stepCxl s env skip) := by
  unfold stepCxl
  split
  · extract_lets s1 src src1
    have hs1 : Inv s1 := recordStep_inv hs
    clear_value s1
    exact hs1
  · extract_lets s2 pool src2 src3
    have hs2 : Inv s2 := recordStep_inv hs
    clear_value s2
    exact hs2

theorem stepLink_inv (hs : Inv s) : Inv (stepLink s env skip) := by
  unfold stepLink
  split
  · extract_lets s1 src
    have hs1 : Inv s1 := recordStep_inv hs
    clear_value s1
    exact hs1
  · extract_lets s2 src1 src2
    have hs2 : Inv s2 := recordStep_inv hs
    clear_value s2
    exact hs2

theorem stepMcb_inv (hs : Inv s) : Inv (stepMcb s env) := by
  unfold stepMcb
  extract_lets s1 src m src1 s2 s3
  have hs1 : Inv s1 := plainStep_inv hs
  clear_value s1
  have hs2 : Inv s2 := hs1
  have hs3 : Inv s3 := ite_keeps (resend_inv hs2) hs2
  exact ite_keeps hs1 (post_inv hs3)

theorem runStep_inv {step : Nat} {m : StepBy} (hs : Inv s) : Inv (runStep s env step m) := by
  unfold runStep
  extract_lets s1 src
  have hs1 : Inv s1 := by
    unfold s1
    split
    · exact plainStep_inv hs
    · exact stepRails_inv hs
    · exact stepFuses_inv hs
    · exact stepTraining_inv hs
    · exact stepClusters_inv hs
    · exact stepSplit_inv hs
    · exact stepCxl_inv hs
    · exact stepLink_inv hs
    · exact stepMcb_inv hs
  clear_value s1
  exact ite_keeps hs1 (ite_keeps hs1 hs1)

theorem runSteps_inv (hs : Inv s) : Inv (runSteps env n s) := by
  induction n generalizing s with
  | zero => exact hs
  | succ n ih => exact ite_keeps hs (ih (runStep_inv hs))

theorem powerOff_inv (hs : Inv s) : Inv (powerOff s) := ⟨mapWf_filter _ hs.1, rfl⟩

theorem startModule_inv (hs : Inv s) : Inv (startModule s env) := by
  unfold startModule
  extract_lets s1 src s2 s3
  have hs1 : Inv s1 := powerOff_inv hs
  clear_value s1
  have hs2 : Inv s2 := hs1
  have hs3 : Inv s3 := runStep_inv hs2
  exact ite_keeps hs3 (runSteps_inv hs3)

theorem execStart_inv (hs : Inv s) : InvRes (execStart env s) := .next (startModule_inv hs)

theorem stepGo_inv {arg0 arg1 : Nat} (hs : Inv s) : Inv (stepGo s arg0 arg1) := by
  unfold stepGo
  extract_lets src last step m
  have hs1 : ∀ a, Inv (last a) := fun _ => hs
  split
  · exact hs1 _
  · split
    · exact hs1 _
    · split
      · exact hs
      · exact runStep_inv hs

theorem thermalTick_inv {junctions : List Nat} (hs : Inv s) : InvOpt Inv (thermalTick s junctions) :=
  ite_keeps .none (.some hs)

theorem execThermalTick_inv {junctions : List Nat} (hs : Inv s) : InvRes (execThermalTick junctions s) :=
  eventOf_inv (thermalTick_inv hs)

theorem thermalTrip_inv {junctions : List Nat} (hs : Inv s) : InvOpt Inv (thermalTrip s junctions) := by
  unfold thermalTrip
  split
  · extract_lets s1 src
    have hs1 : Inv s1 := powerOff_inv hs
    clear_value s1
    exact .some hs1
  · exact .none

theorem execThermalTrip_inv {junctions : List Nat} (hs : Inv s) : InvRes (execThermalTrip junctions s) :=
  eventOf_inv (thermalTrip_inv hs)

/-! ### HostOps -/

theorem setNqhead_inv {v : Word} (hs : Inv s) : Inv (setNqhead s v) := drainHeld_inv hs

theorem setNq_inv {log : Nat} (hs : Inv s) : Inv (setNq s base log) :=
  ite_keeps hs (drainHeld_inv hs)

theorem setCapw_inv {v : Nat} (hs : Inv s) : Inv (setCapw s v) := hs

theorem setMode_inv {v : BitVec 5} (hs : Inv s) : Inv (setMode s v) := ite_keeps hs hs

theorem setField_inv {f : McbField} {v : Nat} (hs : Inv s) : Inv (setField s f v) := by
  unfold setField
  split <;> exact ite_keeps hs hs

theorem inService_inv {f : State → State} (hs : Inv s) (hf : ∀ a, Inv a → Inv (f a)) : InvRes (inService s f) :=
  .next (ite_keeps (hf _ hs) hs)

theorem execNqheadWrite_inv {v : Word} (hs : Inv s) : InvRes (execNqheadWrite v s) :=
  inService_inv hs (fun _ hs1 => setNqhead_inv hs1)

theorem execNqConfigWrite_inv {base : DWord} {log : BitVec 8} (hs : Inv s) : InvRes (execNqConfigWrite base log s) :=
  inService_inv hs (fun _ hs1 => setNq_inv hs1)

theorem execCapwWrite_inv {v : BitVec 16} (hs : Inv s) : InvRes (execCapwWrite v s) :=
  inService_inv hs (fun _ hs1 => setCapw_inv hs1)

theorem execModeWrite_inv {v : BitVec 5} (hs : Inv s) : InvRes (execModeWrite v s) :=
  inService_inv hs (fun _ hs1 => setMode_inv hs1)

theorem execMcbWrite_inv {f : McbField} {v : DWord} (hs : Inv s) : InvRes (execMcbWrite f v s) :=
  inService_inv hs (fun _ hs1 => setField_inv hs1)

theorem onField_inv {v : Option Nat} {f : State → Nat → State} (hf : ∀ a b, Inv a → Inv (f a b)) (hs : Inv s) :
    Inv (onField v f s) := by
  unfold onField
  split
  · exact hs
  · exact hf _ _ hs

theorem writeMcb_inv {bs : List Byte} (hs : Inv s) : Inv (writeMcb s off bs) :=
  onField_inv (fun _ _ hs1 => setNqhead_inv hs1) (onField_inv (fun _ _ hs2 =>
    setField_inv hs2) (onField_inv (fun _ _ hs3 => setField_inv hs3) (onField_inv (fun _ _ hs4 =>
    setField_inv hs4) (onField_inv (fun _ _ hs5 => setField_inv hs5) (onField_inv (fun _ _ hs6 =>
    setMode_inv hs6) (onField_inv (fun _ _ hs7 => setCapw_inv hs7) (ite_keeps hs (setNq_inv hs))))))))

theorem writeSlot_inv {slot at' : Nat} {bs : List Byte} (hs : Inv s) : Inv (writeSlot s slot at' bs) :=
  ite_keeps hs hs

theorem acceptCmd_inv {slot : Nat} (hs : Inv s) : Inv (acceptCmd s slot) := hs

theorem command_inv {name : String} {code slot : Nat} {f : State → State} (hf : ∀ a, Inv a → Inv (f a)) (hs : Inv s) :
    InvRes (command name code slot f s) := by
  unfold command
  split
  · exact .next (ite_keeps (hf _ (acceptCmd_inv hs)) (commandDone_inv (acceptCmd_inv hs)))
  · exact notEnabled_inv

theorem commandNow_inv {name : String} {code slot : Nat} {f : State → State} (hf : ∀ a, Inv a → Inv (f a))
    (hs : Inv s) :
    InvRes (commandNow name code slot f s) :=
  command_inv (fun _ hs1 => commandDone_inv (hf _ hs1)) hs

theorem flushRange_inv (hs : Inv s) : Inv (flushRange s base n) :=
  foldl_inv (fun _ _ hs1 => mscDrop_inv hs1) hs

theorem execFlush_inv {slot : Slot} (hs : Inv s) : InvRes (execFlush slot s) :=
  commandNow_inv (fun _ hs1 => flushRange_inv hs1) hs

theorem execXupd_inv {slot : Slot} (hs : Inv s) : InvRes (execXupd slot s) := by
  unfold execXupd
  exact command_inv (fun _ hs1 => by
    extract_lets f src
    have hs2 : Inv f.2 := freshId_inv hs1
    have hs3 : Inv src := hs2
    clear_value src
    exact hs3) hs

theorem execResolve_inv {slot : Slot} (hs : Inv s) : InvRes (execResolve slot s) :=
  command_inv (fun _ hs1 => hs1) hs

theorem trapGo_inv {g : Group} {how : Nat} (hs : Inv s) : Inv (trapGo s g how skip) := by
  unfold trapGo
  split
  · exact hs
  · extract_lets csw tpc cause sub
    split
    · exact enterHandler_inv hs
    · exact resumeGroup_inv hs
    · exact failTeamRounds_inv (endGroupsWhere_inv (unhandled_inv hs))

theorem execTrapgo_inv {slot : Slot} (hs : Inv s) : InvRes (execTrapgo slot s) := by
  unfold execTrapgo
  exact commandNow_inv (fun _ hs1 => by
    split
    · exact hs1
    · exact trapGo_inv hs1) hs

theorem execKeyld_inv {slot : Slot} (hs : Inv s) : InvRes (execKeyld slot s) :=
  commandNow_inv (fun _ hs1 => plainSetNum_inv hs1) hs

theorem execKeyclr_inv {slot : Slot} (hs : Inv s) : InvRes (execKeyclr slot s) :=
  commandNow_inv (fun _ hs1 => hs1) hs

theorem execTapego_inv {slot : Slot} (hs : Inv s) : InvRes (execTapego slot s) :=
  commandNow_inv (fun _ hs1 => tapeStart_inv hs1) hs

theorem execStepgo_inv {slot : Slot} (hs : Inv s) : InvRes (execStepgo slot s) :=
  ite_keeps (.next (stepGo_inv (acceptCmd_inv hs))) (command_inv (fun _ hs1 => commandDone_inv hs1) hs)

theorem execRecclr_inv {slot : Slot} (hs : Inv s) : InvRes (execRecclr slot s) :=
  commandNow_inv (fun _ hs1 => hs1) hs

theorem execCommandInvalid_inv {slot : Slot} (hs : Inv s) : InvRes (execCommandInvalid slot s) :=
  ite_keeps (.next (commandDone_inv (acceptCmd_inv hs))) notEnabled_inv

theorem carried_inv {up : Bool} {r : Result} (hs : Inv s) (hr : InvRes r) : InvRes (carried s up r) :=
  ite_keeps hr (.next hs)

theorem overLink_inv {r : Result} (hs : Inv s) (hr : InvRes r) : InvRes (overLink s r) :=
  carried_inv hs hr

theorem execHostRead_inv {len key : Nat} (hs : Inv s) : InvRes (execHostRead pa len key s) :=
  ite_keeps (carried_inv hs (.next hs)) (overLink_inv hs (ite_keeps (.next hs) (.next hs)))

theorem answerCodeZero_inv {slot at' : Nat} (hs : Inv s) : Inv (answerCodeZero s slot at' n) :=
  ite_keeps (commandDone_inv hs) hs

theorem windowWrite_inv {bs : List Byte} (hs : Inv s) : Inv (windowWrite s off bs) :=
  ite_keeps (answerCodeZero_inv (writeSlot_inv hs)) (ite_keeps (writeMcb_inv hs) hs)

theorem execHostWrite_inv {bytes : List Byte} {key : Nat} (hs : Inv s) : InvRes (execHostWrite pa bytes key s) := by
  unfold execHostWrite
  split
  · exact carried_inv hs (ite_keeps (execLaunchPost_inv hs)
    (ite_keeps (.next hs) (.next (Inv.reply (windowWrite_inv hs)))))
  · exact overLink_inv hs (ite_keeps (.next hs) (ite_keeps .refused
    (.next (Inv.reply (ownSetBytes_inv (clearPoisonFor_inv hs))))))

theorem execHostAtomic_inv {a : HostAtomic} (hs : Inv s) : InvRes (execHostAtomic a s) := by
  unfold execHostAtomic
  extract_lets n old s1
  have hs1 : Inv s1 := ownSetBytes_inv hs
  clear_value s1
  split
  · exact carried_inv hs (.next hs)
  · exact overLink_inv hs (ite_keeps (.next hs) (ite_keeps .refused (.next hs1)))

/-! ### Fabric -/

theorem flitFail_inv {p : Nat} (hs : Inv s) : InvOpt Inv (flitFail s p) := by
  unfold flitFail
  extract_lets x
  split
  · exact .none
  · exact ite_keeps (.some (setPort_inv hs)) .none

theorem execFlitCrcFail_inv {port : Fin 18} (hs : Inv s) : InvRes (execFlitCrcFail port s) :=
  eventOf_inv (flitFail_inv hs)

theorem portDown_inv {p : Nat} (hs : Inv s) : InvOpt Inv (portDown s p) :=
  ite_keeps (.some (resend_inv hs)) .none

theorem execPortDown_inv {port : Fin 18} (hs : Inv s) : InvRes (execPortDown port s) :=
  eventOf_inv (portDown_inv hs)

theorem vcPause_inv {p v : Nat} (hs : Inv s) : InvOpt Inv (vcPause s p v) :=
  ite_keeps (.some (setPort_inv hs)) .none

theorem execVcPause_inv {port : Fin 18} {vc : Fin 4} (hs : Inv s) : InvRes (execVcPause port vc s) :=
  eventOf_inv (vcPause_inv hs)

theorem vcRelease_inv {p v : Nat} (hs : Inv s) : InvOpt Inv (vcRelease s p v) :=
  ite_keeps (.some (setPort_inv hs)) .none

theorem execVcRelease_inv {port : Fin 18} {vc : Fin 4} (hs : Inv s) : InvRes (execVcRelease port vc s) :=
  eventOf_inv (vcRelease_inv hs)

theorem flitPromote_inv {p : Nat} (hs : Inv s) : InvOpt Inv (flitPromote s p id) := by
  unfold flitPromote
  extract_lets x due s'
  have hs1 : Inv s' := setPort_inv hs
  clear_value s'
  exact ite_keeps (.some hs1) .none

theorem execFlitPromote_inv {port : Fin 18} {flit : Nat} (hs : Inv s) : InvRes (execFlitPromote port flit s) :=
  eventOf_inv (flitPromote_inv hs)

theorem flitSend_inv {p v : Nat} {bs : List Byte} (hs : Inv s) : Inv (flitSend s p v bs) :=
  ite_keeps (setPort_inv (freshId_inv hs)) hs

theorem flitGrant_inv {p : Nat} (hs : Inv s) : Inv (flitGrant s p) := by
  unfold flitGrant
  extract_lets x
  split
  · exact hs
  · exact ite_keeps (setPort_inv hs) hs

theorem flitAck_inv {p : Nat} (hs : Inv s) : Inv (flitAck s p) := by
  unfold flitAck
  extract_lets x
  split
  · exact hs
  · exact ite_keeps (setPort_inv hs) hs

theorem flitIn_inv {p v : Nat} (hs : Inv s) : Inv (flitIn s p v) := ite_keeps (setPort_inv hs) hs

theorem flitOut_inv {p v : Nat} (hs : Inv s) : Inv (flitOut s p v) := setPort_inv hs

/-! ### Dispatch -/

theorem exec_inv (hs : Inv s) : InvRes (exec i s) := by
  unfold exec
  split
  · exact execIadd_inv hs
  · exact execIsub_inv hs
  · exact execImul_inv hs
  · exact execImulh_inv hs
  · exact execImulhu_inv hs
  · exact execImad_inv hs
  · exact execImin_inv hs
  · exact execImax_inv hs
  · exact execAnd_inv hs
  · exact execOr_inv hs
  · exact execXor_inv hs
  · exact execShl_inv hs
  · exact execShr_inv hs
  · exact execSar_inv hs
  · exact execIuny_inv hs
  · exact execIset_inv hs
  · exact execFadd_inv hs
  · exact execFsub_inv hs
  · exact execFmul_inv hs
  · exact execFfma_inv hs
  · exact execFmin_inv hs
  · exact execFmax_inv hs
  · exact execFset_inv hs
  · exact execFuny_inv hs
  · exact execFcvt_inv hs
  · exact execHfma2_inv hs
  · exact execBfma2_inv hs
  · exact execMov_inv hs
  · exact execCmov_inv hs
  · exact execLxor_inv hs
  · exact execLshf_inv hs
  · exact execLred_inv hs
  · exact execLscan_inv hs
  · exact execMatchv_inv hs
  · exact execCmpct_inv hs
  · exact execBallot_inv hs
  · exact execMskop_inv hs
  · exact execMpopc_inv hs
  · exact execDraw_inv hs
  · exact execCatd_inv hs
  · exact execDsskip_inv hs
  · exact execDsfork_inv hs
  · exact execDssetp_inv hs
  · exact execDspos_inv hs
  · exact execGneval_inv hs
  · exact execKsig_inv hs
  · exact execLd_inv hs
  · exact execLde_inv hs
  · exact execLdnr_inv hs
  · exact execSt_inv hs
  · exact execSte_inv hs
  · exact execStnt_inv hs
  · exact execPst_inv hs
  · exact execAtom_inv hs
  · exact execAtomr_inv hs
  · exact execCas_inv hs
  · exact execCas128_inv hs
  · exact execGath_inv hs
  · exact execScat_inv hs
  · exact execSisect_inv hs
  · exact execKst_inv hs
  · exact execCpl_inv hs
  · exact execCpm_inv hs
  · exact execMmq_inv hs
  · exact execMmt_inv hs
  · exact execAccrd_inv hs
  · exact execAccwr_inv hs
  · exact execAccpatch_inv hs
  · exact execKgath_inv hs
  · exact execBra_inv hs
  · exact execBraKernelAbsolute_inv hs
  · exact execBrm_inv hs
  · exact execBrmn_inv hs
  · exact execBrz_inv hs
  · exact execBrnz_inv hs
  · exact execCall_inv hs
  · exact execCallKernelAbsolute_inv hs
  · exact execRet_inv hs
  · exact execExit_inv hs
  · exact execTrap_inv hs
  · exact execSadd_inv hs
  · exact execSsub_inv hs
  · exact execSmul_inv hs
  · exact execSand_inv hs
  · exact execSor_inv hs
  · exact execSxor_inv hs
  · exact execSshl_inv hs
  · exact execSshr_inv hs
  · exact execSsar_inv hs
  · exact execSmin_inv hs
  · exact execSmax_inv hs
  · exact execSmov_inv hs
  · exact execSset_inv hs
  · exact execSmovi_inv hs
  · exact execSlui_inv hs
  · exact execV2s_inv hs
  · exact execSbra_inv hs
  · exact execSbz_inv hs
  · exact execSbnz_inv hs
  · exact execQrd_inv hs
  · exact execQst_inv hs
  · exact execIdrd_inv hs
  · exact execWaitc_inv hs
  · exact execFence_inv hs
  · exact execNtdrain_inv hs
  · exact execLdu_inv hs
  · exact execStu_inv hs
  · exact execFstat_inv hs
  · exact execNop_inv hs
  · exact execNopLiteral_inv hs
  · exact execHload_inv hs
  · exact execHadj_inv hs
  · exact execHqry_inv hs
  · exact execBinit_inv hs
  · exact execBarrive_inv hs
  · exact execBexpect_inv hs
  · exact execBwait_inv hs
  · exact execBtest_inv hs
  · exact execRqenq_inv hs
  · exact execRqdeq_inv hs
  · exact execPgreq_inv hs
  · exact execPfh_inv hs
  · exact execDsld_inv hs
  · exact execGnld_inv hs
  · exact execBld_inv hs
  · exact execBfree_inv hs
  · exact execAccz_inv hs
  · exact execAccst_inv hs
  · exact execKsinit_inv hs
  · exact execLaunch_inv hs
  · exact execTapepush_inv hs
  · exact execTret_inv hs
  · exact execTfrd_inv hs
  · exact execTfwr_inv hs
  · exact execWatchLoad_inv hs
  · exact execWatchStore_inv hs
  · exact execWatchClr_inv hs
  · exact execGend_inv hs
  · exact execTeamTrap_inv hs
  · exact execLoadComplete_inv hs
  · exact execStoreRetire_inv hs
  · exact execNtStoreWrite_inv hs
  · exact execAtomicPerform_inv hs
  · exact execCopySectorLand_inv hs
  · exact execPresenceUnpark_inv hs
  · exact execMigrationUnpark_inv hs
  · exact execBwaitReturn_inv hs
  · exact execWaitcReturn_inv hs
  · exact execNtdrainReturn_inv hs
  · exact execFenceComplete_inv hs
  · exact execBldLoadComplete_inv hs
  · exact execReservationGrant_inv hs
  · exact execReservationAged_inv hs
  · exact execMatrixPassComplete_inv hs
  · exact execHatArrive_inv hs
  · exact execBurstEnd_inv hs
  · exact execAccOpComplete_inv hs
  · exact execAccstComplete_inv hs
  · exact execKstRowPerformed_inv hs
  · exact execKsClaim_inv hs
  · exact execKsPublish_inv hs
  · exact execKgathWalk_inv hs
  · exact execGathComplete_inv hs
  · exact execScatWrite_inv hs
  · exact execSisectRun_inv hs
  · exact execCollectorDispatch_inv hs
  · exact execCollectorLineServed_inv hs
  · exact execPgreqWalk_inv hs
  · exact execResidencyComplete_inv hs
  · exact execTranslationUpdateComplete_inv hs
  · exact execLaunchPost_inv hs
  · exact execLaunchTake_inv hs
  · exact execWorkgroupPlace_inv hs
  · exact execPreempt_inv hs
  · exact execSliceExpiry_inv hs
  · exact execPreemptSave_inv hs
  · exact execRestore_inv hs
  · exact execGroupEnd_inv hs
  · exact execLaunchComplete_inv hs
  · exact execIssueSlotPromote_inv hs
  · exact execL2PortPromote_inv hs
  · exact execSoftError_inv hs
  · exact execHostRead_inv hs
  · exact execHostWrite_inv hs
  · exact execHostAtomic_inv hs
  · exact execFlush_inv hs
  · exact execXupd_inv hs
  · exact execResolve_inv hs
  · exact execTrapgo_inv hs
  · exact execKeyld_inv hs
  · exact execKeyclr_inv hs
  · exact execTapego_inv hs
  · exact execStepgo_inv hs
  · exact execRecclr_inv hs
  · exact execCommandInvalid_inv hs
  · exact execNqheadWrite_inv hs
  · exact execNqConfigWrite_inv hs
  · exact execCapwWrite_inv hs
  · exact execModeWrite_inv hs
  · exact execMcbWrite_inv hs
  · exact execFlitCrcFail_inv hs
  · exact execPortDown_inv hs
  · exact execVcPause_inv hs
  · exact execVcRelease_inv hs
  · exact execFlitPromote_inv hs
  · exact execStart_inv hs
  · exact execThermalTick_inv hs
  · exact execThermalTrip_inv hs
  · exact execIllegalEncoding_inv hs
  · exact execFetchFault_inv hs

/-! ### Turns -/

theorem focusAt_inv {partner : Option DWord} (hs : Inv s) : Inv (focusAt s k pc partner) := hs

theorem pickSlot_inv {slot : Nat} (hs : Inv s) : Inv (pickSlot s core part slot) := hs

theorem touchCode_inv (hs : Inv s) : Inv (touchCode s ln n) := virtTouch_inv hs

theorem runFocus_inv (hs : Inv s) : InvRes (runFocus s) := by
  unfold runFocus
  split
  · exact .fault
  · split
    · exact exec_inv hs
    · extract_lets s1
      have hs1 : Inv s1 := touchCode_inv hs
      split
      · exact exec_inv hs1
      · exact ite_keeps (exec_inv hs1) (decodeTrap_inv hs1)

theorem toSecond_inv {p q ls : DWord} (hs : Inv s) : Inv (toSecond s p q ls) := hs

theorem deliver_inv {tm : Bool} {p q : DWord} (hs : Inv s) : Inv (deliver s tm k p q) := by
  unfold deliver
  split
  · exact hs
  · exact ite_keeps (takeTrapIn_inv hs) (takeTrapIn_inv hs)

theorem runPair_inv {p q : DWord} (hs : Inv s) : InvRes (runPair s k p q) := by
  have first : InvRes (runFocus (focusAt s k p (some q))) := runFocus_inv (focusAt_inv hs)
  have second {s₁ : State} (hs₁ : Inv s₁) {b : Bool} : InvRes (if b then runFocus s₁ else .next (unpair s₁)) :=
    ite_keeps (runFocus_inv hs₁) (.next (unpair_inv hs₁))
  unfold runPair
  split
  · next s₁ heq =>
    have hs₂ : Inv (toSecond s₁ p q (lanesAt s k q)) := toSecond_inv (first.of_next heq)
    dsimp only
    split
    · next heq => exact .next (deliver_inv ((second hs₂).of_next heq))
    · exact second hs₂
  · exact first

theorem runBoth_inv {p q : DWord} (hs : Inv s) : InvRes (runBoth s k p q) :=
  ite_keeps (runPair_inv hs) (runPair_inv hs)

theorem issueCands_inv {cs : List Cand} {r : Result} (hr : InvRes r) : InvRes (issueCands cs r k) := by
  unfold issueCands
  split
  · split
    · exact hr
    · exact runFocus_inv (focusAt_inv hr)
    · exact runBoth_inv hr
  · exact hr

theorem noteReady_inv {but : Option Nat} {stalled : List (GKey × DWord)} {t : State} (hs : Inv t) :
    Inv (noteReady s core part but stalled t) :=
  hs

theorem pickedIn_inv {t : State} (hs : Inv t) : Inv (pickedIn s k t) := by
  unfold pickedIn
  split
  · exact hs
  · exact pickSlot_inv (noteReady_inv hs)

theorem picked_inv (hs : Inv s) : Inv (picked s k) := pickedIn_inv hs

theorem afterIssue_inv {r : Result} (hr : InvRes r) : InvRes (afterIssue s k r) := by
  unfold afterIssue
  split
  · exact .next (ite_keeps hr (pickedIn_inv hr))
  · exact hr

theorem fetchAt_inv (hs : Inv s) : Inv (fetchAt s k pc) := by
  have fetched : InvRes (exec .fetchFault (focusAt s k pc none)) := exec_inv (focusAt_inv hs)
  unfold fetchAt
  split
  · split
    · next heq => exact fetched.of_next heq
    · exact hs
  · exact hs

theorem fetchAll_inv {stalled : List (GKey × DWord)} (hs : Inv s) : Inv (fetchAll s core part stalled) :=
  foldl_inv (fun _ _ hs1 => fetchAt_inv hs1) hs

theorem takePick_inv {stalled : List (GKey × DWord)} (hs : Inv s) : InvRes (takePick s core part stalled) := by
  unfold takePick
  extract_lets s'
  have hs1 : Inv s' := noteReady_inv hs
  split
  · exact .next hs1
  · exact foldl_keeps (P := fun r => InvRes r) (fun _ _ hs2 => issueCands_inv hs2) (.next (pickSlot_inv hs1))

theorem runPick_inv {stalled : List (GKey × DWord)} (hs : Inv s) : InvRes (runPick s core part stalled) :=
  takePick_inv (fetchAll_inv hs)

theorem runIssue_inv {partner : Option DWord} (hs : Inv s) : InvRes (runIssue s k pc partner) := by
  unfold runIssue
  split
  · split
    · exact afterIssue_inv (runFocus_inv (focusAt_inv hs))
    · exact ite_keeps (runBoth_inv (ite_keeps (picked_inv hs) hs)) notEnabled_inv
  · exact notEnabled_inv

theorem tick_inv (hs : Inv s) : Inv (tick s n) := hs

theorem portReq_inv {die bank cls : Nat} (hs : Inv s) : Inv (portReq s die bank cls) := by
  unfold portReq
  extract_lets f src
  have hs1 : Inv f.2 := freshId_inv hs
  have hs2 : Inv src := hs1
  clear_value src
  exact hs2

theorem portGrant_inv {die bank : Nat} (hs : Inv s) : Inv (portGrant s die bank) := by
  unfold portGrant
  split <;> exact hs

theorem fillAhead_inv (hs : Inv s) : Inv (fillAhead s k va) := by
  unfold fillAhead
  split
  · exact ite_keeps hs (pfhLine_inv hs)
  · exact hs

theorem runTurn_inv {t : Turn} (hs : Inv s) : InvRes (runTurn s t) := by
  unfold runTurn
  split
  · exact ite_keeps (exec_inv hs) notEnabled_inv
  · exact runIssue_inv hs
  · exact runPick_inv hs
  · exact .next (l1Drop_inv hs)
  · exact .next (fillAhead_inv hs)
  · exact .next (l1Refresh_inv hs)
  · exact eventOf_inv (sendAtomic_inv hs)
  · exact .next (tick_inv hs)
  · exact .next (portReq_inv hs)
  · exact .next (portGrant_inv hs)
  · exact .next (flitIn_inv hs)
  · exact .next (flitOut_inv hs)
  · exact .next (flitSend_inv hs)
  · exact .next (flitGrant_inv hs)
  · exact .next (flitAck_inv hs)

theorem firstEvent_inv {is : List Instr} (hs : Inv s) : InvOpt Inv (firstEvent s is) := by
  induction is with
  | nil => trivial
  | cons i is ih =>
    unfold firstEvent
    split
    · next heq => exact (exec_inv hs).of_next heq
    · exact ih

theorem runClock_inv (hs : Inv s) : InvRes (runClock s) := by
  unfold runClock
  extract_lets pick
  have hpick : ∀ r p, InvRes r → InvRes (pick r p) := by
    intro r p hr
    unfold pick
    split
    · exact runPick_inv hr
    · exact hr
  have picked := foldl_keeps (P := InvRes) (l := dedup (s.issueSlots.map (fun x =>
    (x.core, x.part)))) hpick (.next hs)
  split
  · next heq => exact .next (tick_inv (picked.of_next heq))
  · exact picked

theorem runDefault_inv (hs : Inv s) : InvRes (runDefault s) := by
  unfold runDefault
  split
  · exact exec_inv hs
  · split
    · next heq => exact .next ((firstEvent_inv hs).of_some heq)
    · exact runClock_inv hs

theorem runNext_inv (hs : Inv s) : InvRes (runNext s) := by
  unfold runNext
  split
  · exact runDefault_inv hs
  · exact runTurn_inv hs

/-! ### Step -/

theorem step_inv (hs : Inv s) : InvRes (step s) := runNext_inv hs

end

end Sys2Proof.Machine

namespace Sys2Proof.Proofs

open Sys2Proof.Machine

/-- Settles O59: `step` returns nothing but the states that `step_inv` speaks of. -/
theorem stepKeepsMemoryCanonical : Obligations.StepKeepsMemoryCanonical := by
  unfold Obligations.StepKeepsMemoryCanonical
  intro s t hs h
  exact (step_inv hs).of_next h

end Sys2Proof.Proofs

/-! SUPPORT. A page request whose backing page stands in the memory-side cache as a dirty line with a byte beyond its 256: `PoolCache`,
unlike `CacheAgrees`, admits it, and its write-back reaches the next line of the pool before the service has copied that one (R51, R64). -/

namespace Sys2Proof.Machine

/-- The backing page of the request: the first of the pool. -/
def strayBack : Nat := poolBase

/-- The page of near memory that the free list gives. -/
def strayPage : Nat := 0x10000

/-- A table is missing under the root at 0 (its level 2 entry stands at 0x40000), the free list at 0x1000 holds one page, and the cached
line of the backing page lists byte 300. -/
def strayLine : State :=
  { State.reset with
    mem := [(0x1001, 0x20), (0x1008, 1), (0x2002, 1)]
    xmem := [(0, 1), (2, 4), (0x40006, 0x10)]
    msc := [⟨strayBack, [(300, 7)], true⟩]
    reqs := [⟨1, 0, 0, 0, [], false, none⟩]
    mcb := { Mcb.reset with hbma := 1, freel := 0x1000 }
    boot := { Boot.reset with poolBytes := 4096 } }

theorem strayLine_inv : Inv strayLine := ⟨by decide +kernel, by decide +kernel⟩

theorem strayLine_poolCache : Claims.PoolCache strayLine := ⟨by decide +kernel, by decide +kernel⟩

theorem strayLine_walk : walk strayLine 0 0 = .nonres 2 0x40000 poolBase := by decide +kernel

/-- The service copies into byte 300 of the page what the write-back of the backing page's first line has put there. -/
theorem strayLine_copied {t : State} (h : exec (.residencyComplete 1) strayLine = .next t) : homeByte t 0 (strayPage + 300) = 7 := by
  have run : (match exec (.residencyComplete 1) strayLine with
      | .next t => homeByte t 0 (strayPage + 300)
      | _ => 0) = 7 := by decide +kernel
  rw [h] at run
  exact run

/-- Before, the owner reads 0 there. -/
theorem strayLine_backing : homeByte (dropRangeAll strayLine strayPage 4096) 0 (strayBack + 300) = 0 := by decide +kernel

end Sys2Proof.Machine

namespace Sys2Proof.Proofs

open Sys2Proof.Machine

/-- Refutes O48: the copy of byte 300 of `strayLine`'s backing page holds what the write-back of its first line has put there. -/
theorem not_translationAndResidencyEvents : ¬ Obligations.TranslationAndResidencyEvents := by
  unfold Obligations.TranslationAndResidencyEvents
  intro h
  obtain ⟨-, service, -⟩ := h
  obtain ⟨resident, -⟩ := service strayLine 1 ⟨1, 0, 0, 0, [], false, none⟩ (by decide +kernel)
  obtain ⟨copies, -⟩ := resident 2 0x40000 poolBase rfl (by decide +kernel) strayLine_walk
  obtain ⟨t, ht, -, -, copied⟩ := copies (by decide +kernel) (by decide +kernel) (by decide +kernel) (by decide +kernel)
  obtain ⟨bytes, -⟩ := copied strayLine_inv strayLine_poolCache (by decide +kernel) (by decide +kernel) (by decide +kernel)
    (by decide +kernel) (by decide +kernel) (by decide +kernel) (by decide +kernel)
  have same : homeByte t 0 (strayPage + 300) = homeByte (dropRangeAll strayLine strayPage 4096) 0 (strayBack + 300) :=
    bytes 300 (by decide +kernel)
  rw [strayLine_copied ht, strayLine_backing] at same
  exact absurd same (by decide)

end Sys2Proof.Proofs

/-! SUPPORT. What the memory-side cache and the keys of lines hold of each line of memory, and what drops, fills and writes of it
leave at every home (R51, R69). A byte at its home is a byte of its line's plain content or of what another key sees of it, so every
lemma speaks of whole lines. -/

namespace Sys2Proof.Machine

/-! ## Canonical maps -/

/-- Two maps in canonical form that hold the same everywhere are one. -/
theorem mapWfFrom_ext {α : Type} [DecidableEq α] {d : α} {m m' : SMap α} {a : Nat} (h : mapWfFrom d a m = true)
    (h' : mapWfFrom d a m' = true) (e : ∀ k, mapGet d m k = mapGet d m' k) : m = m' := by
  induction m generalizing a m' with
  | nil =>
    cases m' with
    | nil => rfl
    | cons q m' =>
      obtain ⟨k', v'⟩ := q
      simp only [mapWfFrom, Bool.and_eq_true, decide_eq_true_eq] at h'
      exact absurd (by simpa [mapGet] using (e k').symm) h'.1.2
  | cons p m ih =>
    obtain ⟨k, v⟩ := p
    simp only [mapWfFrom, Bool.and_eq_true, decide_eq_true_eq] at h
    cases m' with
    | nil => exact absurd (by simpa [mapGet] using e k) h.1.2
    | cons q m' =>
      obtain ⟨k', v'⟩ := q
      simp only [mapWfFrom, Bool.and_eq_true, decide_eq_true_eq] at h'
      rcases Nat.lt_trichotomy k k' with lt | rfl | gt
      · exact absurd (by simpa [mapGet, lt, Nat.ne_of_lt lt] using e k) h.1.2
      · have hv : v = v' := by simpa [mapGet] using e k
        have tails : m = m' := by
          refine ih h.2 h'.2 (fun j => ?_)
          by_cases hj : j < k + 1
          · rw [mapGet_below h.2 hj, mapGet_below h'.2 hj]
          · simpa [mapGet, show j ≠ k by omega, show ¬ j < k by omega] using e j
        rw [hv, tails]
      · exact absurd (by simpa [mapGet, gt, Nat.ne_of_lt gt] using (e k').symm) h'.1.2

theorem mapGet_of_keys_lt {α : Type} {d : α} {m : SMap α} {n k : Nat} (h : ∀ x ∈ m, x.1 < n) (hk : n ≤ k) : mapGet d m k = d := by
  induction m with
  | nil => rfl
  | cons p m ih =>
    obtain ⟨k', v⟩ := p
    have hlt : k' < n := h (k', v) (List.mem_cons_self ..)
    simp only [mapGet, show k ≠ k' by omega, show ¬ k < k' by omega, if_false]
    exact ih (fun x hx => h x (List.mem_cons_of_mem _ hx))

/-! ## The cells of a range -/

theorem mapGet_shift {m : SMap Byte} {base : Nat} (h : ∀ x ∈ m, base ≤ x.1) (i : Nat) :
    mapGet 0 (m.map (fun c => (c.1 - base, c.2))) i = mapGet 0 m (base + i) := by
  induction m with
  | nil => rfl
  | cons p m ih =>
    obtain ⟨k, v⟩ := p
    have hk : base ≤ k := h (k, v) (List.mem_cons_self ..)
    have hm := ih (fun x hx => h x (List.mem_cons_of_mem _ hx))
    simp only [List.map_cons, mapGet, hm, show i = k - base ↔ base + i = k by omega, show i < k - base ↔ base + i < k by omega]

theorem mapWfFrom_shift {m : SMap Byte} {base a : Nat} (hw : mapWfFrom 0 a m = true) (h : ∀ x ∈ m, base ≤ x.1) :
    mapWfFrom 0 (a - base) (m.map (fun c => (c.1 - base, c.2))) = true := by
  induction m generalizing a with
  | nil => rfl
  | cons p m ih =>
    obtain ⟨k, v⟩ := p
    have hk : base ≤ k := h (k, v) (List.mem_cons_self ..)
    simp only [mapWfFrom, Bool.and_eq_true, decide_eq_true_eq, List.map_cons] at hw ⊢
    have tail := ih hw.2 (fun x hx => h x (List.mem_cons_of_mem _ hx))
    rw [show k + 1 - base = k - base + 1 by omega] at tail
    exact ⟨⟨by omega, hw.1.2⟩, tail⟩

section
variable {m : List Host.Cell} (base n : Nat)

theorem mem_range_of_filter {x : Host.Cell}
    (h : x ∈ m.filter (fun c => decide (base ≤ c.1) && decide (c.1 < base + n))) : base ≤ x.1 ∧ x.1 < base + n := by
  simpa using (List.mem_filter.mp h).2

theorem cellsIn_keys : ∀ x ∈ cellsIn m base n, x.1 < n := by
  intro x hx
  obtain ⟨c, hc, rfl⟩ := List.mem_map.mp hx
  have := mem_range_of_filter base n hc
  dsimp only
  omega

variable (h : Memory.wf m = true)
include h

theorem mapWf_cellsIn : mapWf 0 (cellsIn m base n) = true := by
  have := mapWfFrom_shift (mapWfFrom_filter _ h) (fun x hx => (mem_range_of_filter base n hx).1)
  rwa [Nat.zero_sub] at this

theorem mapGet_cellsIn (i : Nat) : mapGet 0 (cellsIn m base n) i = if i < n then memGet m (base + i) else 0 := by
  unfold cellsIn
  rw [mapGet_shift (fun x hx => (mem_range_of_filter base n hx).1)]
  refine (mapGet_filter (fun k => decide (base ≤ k) && decide (k < base + n)) (base + i) h).trans ?_
  simp [memGet, unlisted]

/-- A canonical block that is written over a range is what the range then lists. -/
theorem cellsIn_memPutBlock_self {d : SMap Byte} (hd : mapWf 0 d = true) (hk : ∀ x ∈ d, x.1 < n) :
    cellsIn (memPutBlock m base n d) base n = d := by
  have hw := memPutBlock_wf base n d h
  refine mapWfFrom_ext (mapWf_cellsIn base n hw) hd (fun i => ?_)
  rw [mapGet_cellsIn base n hw]
  split
  · rw [memGet_memPutBlock base n _ h hd (by omega) (by omega), Nat.add_sub_cancel_left]
  · exact (mapGet_of_keys_lt hk (by omega)).symm

/-- A byte that is written in a range is written at its offset in what the range lists. -/
theorem cellsIn_memSet_self {pa : Nat} (b : Byte) (lo : base ≤ pa) (hi : pa < base + n) :
    cellsIn (memSet m pa b) base n = mapSet 0 (cellsIn m base n) (pa - base) b := by
  have hw := memSet_wf pa b h
  have hc := mapWf_cellsIn base n h
  refine mapWfFrom_ext (mapWf_cellsIn base n hw) (mapWf_mapSet _ b hc) (fun i => ?_)
  rw [mapGet_cellsIn base n hw, mapGet_mapSet _ _ _ hc, mapGet_cellsIn base n h, memGet_memSet _ _ _ h]
  by_cases e : i = pa - base
  · rw [if_pos e, if_pos (by omega), if_pos (by omega)]
  · rw [if_neg e, if_neg (show base + i ≠ pa by omega)]

end

end Sys2Proof.Machine

namespace Sys2Proof.Machine

/-! ## Lines of the memory-side cache -/

theorem lineOf_mod (a : Nat) : lineOf a % 256 = 0 := Nat.mul_mod_left ..

theorem lineOf_add_mod (a : Nat) : lineOf a + a % 256 = a := by
  unfold lineOf
  omega

theorem lineOf_of_mod {b : Nat} (h : b % 256 = 0) : lineOf b = b := by
  unfold lineOf
  omega

theorem poolBase_le_lineOf {a : Nat} : poolBase ≤ lineOf a ↔ poolBase ≤ a := by
  unfold lineOf poolBase
  omega

theorem lines_apart {a b : Nat} (ha : a % 256 = 0) (hb : b % 256 = 0) (h : a ≠ b) : a + 256 ≤ b ∨ b + 256 ≤ a := by omega

/-- What stands in the memory-side cache for a line is a whole line of the pool in canonical form, which agrees with the pool where
it is clean (R51). -/
structure LineOk (s : State) (b : Nat) (l : MscLine) : Prop where
  pool : poolBase ≤ b
  aligned : b % 256 = 0
  canon : mapWf 0 l.data = true
  inside : ∀ c ∈ l.data, c.1 < 256
  clean : l.dirty = false → l.data = cellsIn s.mem b 256

/-- Memory is in canonical form, and every line that the memory-side cache gives is as it should be (R51). -/
structure CacheOk (s : State) : Prop where
  wf : MemWf s
  line : ∀ b l, mscFind s b = some l → LineOk s b l

theorem mscFind_mem {s : State} {b : Nat} {l : MscLine} (h : mscFind s b = some l) : l ∈ s.msc ∧ l.base = b :=
  ⟨List.mem_of_find?_eq_some h, by simpa using List.find?_some h⟩

theorem cacheOk_of_claims {s : State} (hi : Inv s) (hp : Claims.PoolCache s) (hc : Claims.CacheAgrees s) : CacheOk s := by
  refine ⟨hi.1, fun b l h => ?_⟩
  obtain ⟨hl, rfl⟩ := mscFind_mem h
  exact ⟨hp.pool l hl, hc.aligned l hl, hp.canon l hl, hc.inside l hl, hc.clean l hl⟩

section
variable {s : State} (h : CacheOk s)
include h

theorem mscFind_none_below {b : Nat} (hb : b < poolBase) : mscFind s b = none := by
  cases e : mscFind s b with
  | none => rfl
  | some l => exact absurd (h.line b l e).pool (by omega)

theorem plainLine_canon (b : Nat) : mapWf 0 (plainLine s b) = true ∧ ∀ c ∈ plainLine s b, c.1 < 256 := by
  unfold plainLine
  split
  · next l e => exact ⟨(h.line b l e).canon, (h.line b l e).inside⟩
  · exact ⟨mapWf_cellsIn b 256 h.wf, cellsIn_keys b 256⟩

/-- A byte is read from the plain content of its line. -/
theorem plainByte_eq (p : Nat) : plainByte s p = mapGet 0 (plainLine s (lineOf p)) (p % 256) := by
  have fromMemory : mapGet 0 (cellsIn s.mem (lineOf p) 256) (p % 256) = memGet s.mem p := by
    rw [mapGet_cellsIn _ _ h.wf, if_pos (Nat.mod_lt _ (by omega)), lineOf_add_mod]
  unfold plainByte plainLine
  split
  · split
    · rfl
    · exact fromMemory.symm
  · rw [mscFind_none_below h (by rw [← not_le, poolBase_le_lineOf]; assumption)]
    exact fromMemory.symm

/-- What a reader under a key sees of a line, in canonical form (R69). -/
theorem homeLine_ok (key : BitVec 512) (b : Nat) :
    mapWf 0 (homeLine s key b) = true ∧ ∀ c ∈ homeLine s key b, c.1 < 256 := by
  cases e : mapFind s.lineKeys b with
  | none =>
    unfold homeLine
    rw [e]
    exact plainLine_canon h b
  | some k =>
    by_cases hk : k = key
    · unfold homeLine
      rw [e]
      dsimp only
      rw [if_pos hk]
      exact plainLine_canon h b
    · exact ⟨(homeLine_canon e hk).1, (homeLine_canon e hk).2.1⟩

/-- A byte at its home is read from what the reader sees of its line. -/
theorem homeByte_eq (key : BitVec 512) (p : Nat) : homeByte s key p = mapGet 0 (homeLine s key (lineOf p)) (p % 256) := by
  cases e : mapFind s.lineKeys (lineOf p) with
  | none => simp only [homeByte, homeLine, e, plainByte_eq h]
  | some k =>
    by_cases hk : k = key
    · simp only [homeByte, homeLine, e, hk, if_true, plainByte_eq h]
    · rw [(homeLine_canon e hk).2.2 _ (Nat.mod_lt _ (by omega))]
      simp only [homeByte, e, if_neg hk]

end

/-! ## What leaves every home as it is -/

/-- In `t` every line has the key and the plain content that it has in `s`. -/
structure SameHome (s t : State) : Prop where
  ok : CacheOk t
  keys : t.lineKeys = s.lineKeys
  lines : ∀ b, b % 256 = 0 → plainLine t b = plainLine s b

namespace SameHome
variable {s t u : State}

theorem refl (h : CacheOk s) : SameHome s s := ⟨h, rfl, fun _ _ => rfl⟩

theorem trans (h : SameHome s t) (h' : SameHome t u) : SameHome s u :=
  ⟨h'.ok, h'.keys.trans h.keys, fun b hb => (h'.lines b hb).trans (h.lines b hb)⟩

theorem homeLine (h : SameHome s t) (key : BitVec 512) {b : Nat} (hb : b % 256 = 0) : homeLine t key b = homeLine s key b := by
  unfold Machine.homeLine
  rw [h.keys, h.lines b hb]

theorem homeByte (hs : CacheOk s) (h : SameHome s t) (key : BitVec 512) (p : Nat) : homeByte t key p = homeByte s key p := by
  rw [homeByte_eq h.ok, homeByte_eq hs, h.homeLine key (lineOf_mod p)]

theorem foldl {α : Type} {f : State → α → State} (hf : ∀ s a, CacheOk s → SameHome s (f s a)) (l : List α) (h : CacheOk s) :
    SameHome s (l.foldl f s) := by
  induction l generalizing s with
  | nil => exact refl h
  | cons a l ih => exact (hf s a h).trans (ih (hf s a h).ok)

end SameHome

/-- Memory, its cache and its keys are all that a home depends on. -/
theorem CacheOk.of_homeAs {s t : State} (h : CacheOk s) (e : Claims.HomeAs t s) : SameHome s t := by
  obtain ⟨hm, hc, hk⟩ := e
  have hf (b : Nat) : mscFind t b = mscFind s b := by
    unfold mscFind
    rw [hc]
  refine ⟨⟨?_, fun b l hl => ?_⟩, hk, fun b _ => ?_⟩
  · unfold MemWf
    rw [hm]
    exact h.wf
  · obtain ⟨pool, aligned, canon, inside, clean⟩ := h.line b l (hf b ▸ hl)
    exact ⟨pool, aligned, canon, inside, hm ▸ clean⟩
  · unfold plainLine
    rw [hf, hm]

/-- Only memory, the memory-side cache and the L2s of `t` may differ from those of `s`: the frame of a read past L1. -/
def ReadFrame (s t : State) : Prop := { t with mem := s.mem, msc := s.msc, l2 := s.l2 } = s

namespace ReadFrame

theorem trans {s t u : State} (h : ReadFrame s t) (h' : ReadFrame t u) : ReadFrame s u := by
  have e := congrArg (fun x : State => { x with mem := s.mem, msc := s.msc, l2 := s.l2 }) h'
  exact Eq.trans e h

theorem foldl {α : Type} {f : State → α → State} (hf : ∀ s a, ReadFrame s (f s a)) (l : List α) (s : State) :
    ReadFrame s (l.foldl f s) := by
  induction l generalizing s with
  | nil => exact rfl
  | cons a l ih => exact (hf s a).trans (ih (f s a))

theorem lineKeys {s t : State} (h : ReadFrame s t) : t.lineKeys = s.lineKeys := (congrArg State.lineKeys h :)

theorem cores {s t : State} (h : ReadFrame s t) : t.cores = s.cores := (congrArg State.cores h :)

theorem keys {s t : State} (h : ReadFrame s t) : t.keys = s.keys := (congrArg State.keys h :)

end ReadFrame

theorem mscDrop_none {s : State} {base : Nat} (h : mscFind s base = none) : mscDrop s base = s := by simp only [mscDrop, h]

theorem mscDrop_some {s : State} {base : Nat} {l : MscLine} (h : mscFind s base = some l) : mscDrop s base =
    { s with
      mem := if l.dirty then memPutBlock s.mem base 256 l.data else s.mem
      msc := s.msc.filter (fun x => x.base ≠ base) } := by
  simp only [mscDrop, h, mscWriteBack, (mscFind_mem h).2]
  split <;> rfl

theorem readFrame_mscDrop (s : State) (base : Nat) : ReadFrame s (mscDrop s base) := by
  cases e : mscFind s base with
  | none => rw [mscDrop_none e]; rfl
  | some l => rw [mscDrop_some e]; rfl

theorem mscFind_filter {s : State} {base : Nat} (m : List Host.Cell) (b : Nat) (h : b ≠ base) :
    mscFind { s with mem := m, msc := s.msc.filter (fun x => x.base ≠ base) } b = mscFind s b := by
  show List.find? _ (s.msc.filter _) = _
  rw [List.find?_filter]
  unfold mscFind
  congr 1
  funext x
  by_cases hx : x.base = b
  · simp [hx, h]
  · simp [hx]

theorem mscFind_mscDrop_self (s : State) (base : Nat) : mscFind (mscDrop s base) base = none := by
  cases e : mscFind s base with
  | none => rw [mscDrop_none e, e]
  | some l =>
    rw [mscDrop_some e]
    exact List.find?_eq_none.mpr (fun x hx => by simpa using (List.mem_filter.mp hx).2)

theorem mscFind_mscDrop_other (s : State) {base b : Nat} (h : b ≠ base) : mscFind (mscDrop s base) b = mscFind s b := by
  cases e : mscFind s base with
  | none => rw [mscDrop_none e]
  | some l => rw [mscDrop_some e, mscFind_filter _ b h]

theorem plainLine_some {s : State} {b : Nat} {l : MscLine} (h : mscFind s b = some l) : plainLine s b = l.data := by
  simp only [plainLine, h]

theorem plainLine_none {s : State} {b : Nat} (h : mscFind s b = none) : plainLine s b = cellsIn s.mem b 256 := by
  simp only [plainLine, h]

/-- A line that leaves the memory-side cache is written back where it is dirty, and in the pool as it was where it is clean (R51). -/
theorem sameHome_mscDrop {s : State} (h : CacheOk s) (base : Nat) : SameHome s (mscDrop s base) := by
  cases e : mscFind s base with
  | none => exact (mscDrop_none e).symm ▸ .refl h
  | some l =>
    obtain ⟨pool, aligned, canon, inside, clean⟩ := h.line base l e
    have hmem : (mscDrop s base).mem = if l.dirty then memPutBlock s.mem base 256 l.data else s.mem := by rw [mscDrop_some e]
    have others : ∀ b, b % 256 = 0 → b ≠ base → cellsIn (mscDrop s base).mem b 256 = cellsIn s.mem b 256 := by
      intro b hb hne
      rw [hmem]
      split
      · exact cellsIn_memPutBlock _ _ _ _ _ _ inside (lines_apart aligned hb (Ne.symm hne))
      · rfl
    have itself : cellsIn (mscDrop s base).mem base 256 = l.data := by
      rw [hmem]
      split
      · exact cellsIn_memPutBlock_self _ _ h.wf canon inside
      · next hd => exact (clean (by simpa using hd)).symm
    refine ⟨⟨mscDrop_wf base h.wf, fun b x hx => ?_⟩, (readFrame_mscDrop s base).lineKeys, fun b hb => ?_⟩
    · have hne : b ≠ base := by
        rintro rfl
        rw [mscFind_mscDrop_self] at hx
        cases hx
      rw [mscFind_mscDrop_other s hne] at hx
      obtain ⟨pool', aligned', canon', inside', clean'⟩ := h.line b x hx
      exact ⟨pool', aligned', canon', inside', fun hd => (clean' hd).trans (others b aligned' hne).symm⟩
    · by_cases hbe : b = base
      · rw [hbe, plainLine_none (mscFind_mscDrop_self s base), plainLine_some e, itself]
      · simp only [plainLine, mscFind_mscDrop_other s hbe, others b hb hbe]

/-- A pool line that enters the memory-side cache enters it as the pool holds it, and what it displaces goes home (R51). -/
theorem mscFill_spec {s : State} (h : CacheOk s) {base : Nat} (hp : poolBase ≤ base) (ha : base % 256 = 0) :
    SameHome s (mscFill s base) ∧ (mscFind (mscFill s base) base).isSome = true := by
  cases e : mscFind s base with
  | some l =>
    have same : mscFill s base = s := by simp only [mscFill, e]
    rw [same, e]
    exact ⟨.refl h, rfl⟩
  | none =>
    have filled : ∃ out : List Nat, mscFill s base =
        { out.foldl mscDrop s with
          msc := ⟨base, cellsIn (out.foldl mscDrop s).mem base 256, false⟩ :: (out.foldl mscDrop s).msc } := by
      simp only [mscFill, e]
      exact ⟨_, rfl⟩
    obtain ⟨out, filled⟩ := filled
    have dropped : SameHome s (out.foldl mscDrop s) := SameHome.foldl (fun _ b h => sameHome_mscDrop h b) out h
    have gone : mscFind (out.foldl mscDrop s) base = none := by
      clear filled dropped
      induction out generalizing s with
      | nil => exact e
      | cons b out ih =>
        refine ih (sameHome_mscDrop h b).ok ?_
        by_cases hb : base = b
        · exact hb ▸ mscFind_mscDrop_self s b
        · rw [mscFind_mscDrop_other s hb, e]
    rw [filled]
    generalize out.foldl mscDrop s = u at dropped gone
    have here : mscFind { u with msc := ⟨base, cellsIn u.mem base 256, false⟩ :: u.msc } base =
        some ⟨base, cellsIn u.mem base 256, false⟩ := by simp [mscFind]
    have there (b : Nat) (hb : b ≠ base) : mscFind { u with msc := ⟨base, cellsIn u.mem base 256, false⟩ :: u.msc } b =
        mscFind u b := by simp [mscFind, Ne.symm hb]
    have added : SameHome u { u with msc := ⟨base, cellsIn u.mem base 256, false⟩ :: u.msc } := by
      refine ⟨⟨dropped.ok.wf, fun b l hl => ?_⟩, rfl, fun b hb => ?_⟩
      · by_cases hbe : b = base
        · subst hbe
          obtain rfl := Option.some.inj (here.symm.trans hl)
          exact ⟨hp, ha, mapWf_cellsIn _ _ dropped.ok.wf, cellsIn_keys _ _, fun _ => rfl⟩
        · obtain ⟨pool, aligned, canon, inside, clean⟩ := dropped.ok.line b l ((there b hbe).symm.trans hl)
          exact ⟨pool, aligned, canon, inside, clean⟩
      · by_cases hbe : b = base
        · rw [hbe, plainLine_some here, plainLine_none gone]
        · simp only [plainLine, there b hbe]
    exact ⟨dropped.trans added, by rw [here]; rfl⟩

theorem readFrame_mscFill (s : State) (base : Nat) : ReadFrame s (mscFill s base) := by
  unfold mscFill
  split
  · rfl
  · exact (ReadFrame.foldl readFrame_mscDrop _ s).trans rfl

/-- A read past L1 changes no home. -/
theorem sameHome_readThrough {s : State} (h : CacheOk s) (ca pa : Nat) : SameHome s (readThrough s ca pa) := by
  unfold readThrough
  split
  · exact .refl h
  · next hp =>
    split
    · exact sameHome_mscDrop h _
    · split
      · exact (mscFill_spec h (poolBase_le_lineOf.mpr (by omega)) (lineOf_mod pa)).1
      · exact .refl h

theorem readFrame_readThrough (s : State) (ca pa : Nat) : ReadFrame s (readThrough s ca pa) := by
  unfold readThrough
  split
  · rfl
  · split
    · exact readFrame_mscDrop s _
    · split
      · exact readFrame_mscFill s _
      · rfl

end Sys2Proof.Machine

/-! SUPPORT. A byte that is written at its home: what its writer and every other key see of its line and of the others (R51, R69). -/

namespace Sys2Proof.Machine

/-! ## What changes one line only -/

/-- Of the lines of memory only the one at `b` may have another cached copy or other cells in `t` than in `s`. -/
structure OneLine (s t : State) (b : Nat) : Prop where
  find : ∀ b', b' ≠ b → mscFind t b' = mscFind s b'
  cells : ∀ b', b' % 256 = 0 → b' ≠ b → cellsIn t.mem b' 256 = cellsIn s.mem b' 256

namespace OneLine
variable {s t : State} {b : Nat}

theorem plainLine (h : OneLine s t b) {b' : Nat} (ha : b' % 256 = 0) (hne : b' ≠ b) : plainLine t b' = plainLine s b' := by
  simp only [Machine.plainLine, h.find b' hne, h.cells b' ha hne]

theorem cacheOk (h : OneLine s t b) (hs : CacheOk s) (wf : MemWf t) (here : ∀ l, mscFind t b = some l → LineOk t b l) :
    CacheOk t := by
  refine ⟨wf, fun b' l hl => ?_⟩
  by_cases hb : b' = b
  · exact hb ▸ here l (hb ▸ hl)
  · obtain ⟨pool, aligned, canon, inside, clean⟩ := hs.line b' l (h.find b' hb ▸ hl)
    exact ⟨pool, aligned, canon, inside, fun hd => (clean hd).trans (h.cells b' aligned hb).symm⟩

/-- A block that is written over a line. -/
theorem putBlock {d : SMap Byte} (hb : b % 256 = 0) (hd : ∀ x ∈ d, x.1 < 256) (k : SMap (BitVec 512)) :
    OneLine s { s with mem := memPutBlock s.mem b 256 d, lineKeys := k } b :=
  ⟨fun _ _ => rfl, fun _ ha hne => cellsIn_memPutBlock _ _ _ _ _ _ hd (lines_apart hb ha (Ne.symm hne))⟩

/-- A byte that is written in a line. -/
theorem setByte (s : State) (pa : Nat) (v : Byte) : OneLine s { s with mem := memSet s.mem pa v } (lineOf pa) := by
  refine ⟨fun _ _ => rfl, fun b' ha hne => cellsIn_memSet _ _ _ _ _ ?_⟩
  have bounds := lineOf_bounds (a := pa)
  have apart := lines_apart (lineOf_mod pa) ha (Ne.symm hne)
  omega

theorem trans {u : State} (h : OneLine s t b) (h' : OneLine t u b) : OneLine s u b :=
  ⟨fun b' hne => (h'.find b' hne).trans (h.find b' hne), fun b' ha hne => (h'.cells b' ha hne).trans (h.cells b' ha hne)⟩

end OneLine

theorem mscFind_updMsc (s : State) (base b : Nat) {f : MscLine → MscLine} (hf : ∀ l, (f l).base = l.base) :
    mscFind (updMsc s base f) b = (mscFind s b).map (fun l => if l.base = base then f l else l) := by
  unfold mscFind updMsc
  rw [find_updateIf _ _ _ _ (fun l => by rw [hf])]
  simp

theorem mscFind_updMsc_self {s : State} {base : Nat} {l : MscLine} (h : mscFind s base = some l) {f : MscLine → MscLine}
    (hf : ∀ l, (f l).base = l.base) : mscFind (updMsc s base f) base = some (f l) := by
  rw [mscFind_updMsc s base base hf, h, Option.map_some, if_pos (mscFind_mem h).2]

theorem oneLine_updMsc (s : State) (base : Nat) {f : MscLine → MscLine} (hf : ∀ l, (f l).base = l.base) :
    OneLine s (updMsc s base f) base := by
  refine ⟨fun b hne => ?_, fun _ _ _ => rfl⟩
  rw [mscFind_updMsc s base b hf]
  cases e : mscFind s b with
  | none => rfl
  | some l => rw [Option.map_some, if_neg ((mscFind_mem e).2 ▸ hne)]

/-! ## A line that takes a key and a content -/

/-- In `t` the line at `b` stands under `key` with the plain content `d`, and every other line as in `s`. -/
structure Wrote (s t : State) (b : Nat) (key : BitVec 512) (d : SMap Byte) : Prop where
  ok : CacheOk t
  key : mapFind t.lineKeys b = some key
  line : plainLine t b = d
  otherKeys : ∀ b', b' ≠ b → mapFind t.lineKeys b' = mapFind s.lineKeys b'
  otherLines : ∀ b', b' % 256 = 0 → b' ≠ b → plainLine t b' = plainLine s b'

namespace Wrote
variable {s t u : State} {b : Nat} {key : BitVec 512} {d e : SMap Byte}

theorem trans (h : Wrote s t b key d) (h' : Wrote t u b key e) : Wrote s u b key e :=
  ⟨h'.ok, h'.key, h'.line, fun b' hne => (h'.otherKeys b' hne).trans (h.otherKeys b' hne),
    fun b' ha hne => (h'.otherLines b' ha hne).trans (h.otherLines b' ha hne)⟩

theorem after (h : SameHome s t) (h' : Wrote t u b key d) : Wrote s u b key d :=
  ⟨h'.ok, h'.key, h'.line, fun b' hne => (h'.otherKeys b' hne).trans (by rw [h.keys]),
    fun b' ha hne => (h'.otherLines b' ha hne).trans (h.lines b' ha)⟩

theorem homeLine_self (h : Wrote s t b key d) : homeLine t key b = d := by
  simp only [homeLine, h.key, h.line, if_true]

theorem homeLine_other (h : Wrote s t b key d) (k : BitVec 512) {b' : Nat} (ha : b' % 256 = 0) (hne : b' ≠ b) :
    homeLine t k b' = homeLine s k b' := by
  unfold homeLine
  rw [h.otherKeys b' hne, h.otherLines b' ha hne]

/-- A change of one line that leaves the cache as it should be. -/
theorem of_oneLine (h : OneLine s t b) (hs : CacheOk s) (wf : MemWf t) (here : ∀ l, mscFind t b = some l → LineOk t b l)
    (hk : mapFind t.lineKeys b = some key) (ho : ∀ b', b' ≠ b → mapFind t.lineKeys b' = mapFind s.lineKeys b')
    (hd : plainLine t b = d) : Wrote s t b key d :=
  ⟨h.cacheOk hs wf here, hk, hd, ho, fun _ ha hne => h.plainLine ha hne⟩

end Wrote

/-- A line that is about to be written under a key: its writer sees of it what it saw (R69). -/
theorem rekeyLine_wrote {s : State} (h : CacheOk s) (key : BitVec 512) {b : Nat} (hb : b % 256 = 0) :
    Wrote s (rekeyLine s key b) b key (homeLine s key b) ∧
      (mscFind (rekeyLine s key b) b).isSome = (mscFind s b).isSome := by
  have wf : MemWf (rekeyLine s key b) := rekeyLine_wf key b h.wf
  cases e : mapFind s.lineKeys b with
  | none =>
    have same : rekeyLine s key b = { s with lineKeys := mapPut s.lineKeys b key } := by simp only [rekeyLine, e]
    have content : homeLine s key b = plainLine s b := by simp only [homeLine, e]
    rw [same] at wf ⊢
    rw [content]
    have one : OneLine s { s with lineKeys := mapPut s.lineKeys b key } b := ⟨fun _ _ => rfl, fun _ _ _ => rfl⟩
    refine ⟨.of_oneLine one h wf (fun l hl => ?_)
      (mapFind_mapPut_self ..) (fun b' hne => mapFind_mapPut_other _ _ _ _ hne) rfl, rfl⟩
    obtain ⟨pool, aligned, canon, inside, clean⟩ := h.line b l hl
    exact ⟨pool, aligned, canon, inside, clean⟩
  | some k =>
    by_cases hk : k = key
    · have same : rekeyLine s key b = s := by simp only [rekeyLine, e, hk, if_true]
      have content : homeLine s key b = plainLine s b := by simp only [homeLine, e, hk, if_true]
      rw [same, content]
      exact ⟨⟨h, hk ▸ e, rfl, fun _ _ => rfl, fun _ _ _ => rfl⟩, rfl⟩
    · obtain ⟨canon, inside⟩ := homeLine_ok h key b
      cases f : mscFind s b with
      | none =>
        have same : rekeyLine s key b =
            { s with mem := memPutBlock s.mem b 256 (homeLine s key b), lineKeys := mapPut s.lineKeys b key } := by
          have f' : mscFind { s with lineKeys := mapPut s.lineKeys b key } b = none := f
          simp only [rekeyLine, e, if_neg hk, f']
        have found : mscFind (rekeyLine s key b) b = none := by rw [same]; exact f
        rw [found]
        refine ⟨.of_oneLine (same ▸ OneLine.putBlock hb inside _) h wf (fun l hl => by rw [found] at hl; cases hl) ?_
          (fun b' hne => ?_) ?_, rfl⟩
        · rw [same]; exact mapFind_mapPut_self ..
        · rw [same]; exact mapFind_mapPut_other _ _ _ _ hne
        · rw [plainLine_none found, same]
          exact cellsIn_memPutBlock_self _ _ h.wf canon inside
      | some l =>
        obtain ⟨pool, -, -, -, -⟩ := h.line b l f
        let u : State :=
          { s with
            mem := if l.dirty then s.mem else memPutBlock s.mem b 256 (homeLine s key b)
            lineKeys := mapPut s.lineKeys b key }
        have same : rekeyLine s key b = updMsc u b (fun x => { x with data := homeLine s key b }) := by
          have f' : mscFind { s with lineKeys := mapPut s.lineKeys b key } b = some l := f
          simp only [rekeyLine, e, if_neg hk, f', u]
          split <;> rfl
        have one : OneLine s u b := by
          by_cases hd : l.dirty = true
          · exact ⟨fun _ _ => rfl, fun _ _ _ => by simp only [u, hd, if_true]⟩
          · have := OneLine.putBlock (s := s) hb inside (mapPut s.lineKeys b key)
            simpa only [u, if_neg hd] using this
        have found : mscFind (rekeyLine s key b) b = some { l with data := homeLine s key b } := by
          rw [same]
          exact mscFind_updMsc_self (s := u) f (fun _ => rfl)
        rw [found]
        refine ⟨.of_oneLine (same ▸ one.trans (oneLine_updMsc u b (fun _ => rfl))) h wf (fun x hx => ?_) ?_
          (fun b' hne => ?_) ?_, rfl⟩
        · obtain rfl := Option.some.inj (found.symm.trans hx)
          refine ⟨pool, hb, canon, inside, fun hd => ?_⟩
          have mem : (rekeyLine s key b).mem = memPutBlock s.mem b 256 (homeLine s key b) := by
            rw [same]
            exact if_neg (by simpa using hd)
          rw [mem, cellsIn_memPutBlock_self _ _ h.wf canon inside]
        · rw [same]; exact mapFind_mapPut_self ..
        · rw [same]; exact mapFind_mapPut_other _ _ _ _ hne
        · exact plainLine_some found

/-- Whether a write goes to the memory-side cache, by its address and the CA of its page (R51). -/
def cachedWrite (s : State) (ca pa : Nat) : Bool := decide (poolBase ≤ pa) && ca != 2 && decide (s.mcb.hbma < 9)

/-- The line of a write as the write finds it: in the memory-side cache, or past it. -/
def writeReady (s : State) (ca pa : Nat) : State :=
  let s' := if decide (poolBase ≤ pa) && !cachedWrite s ca pa then mscDrop s (lineOf pa) else s
  if cachedWrite s ca pa then mscFill s' (lineOf pa) else s'

/-- The write of a byte in a line that is ready and under its writer's key. -/
def writeByte (s : State) (cached : Bool) (ca pa : Nat) (b : Byte) : State :=
  if cached then
    let s := updMsc s (lineOf pa) (fun l => { l with data := mapSet 0 l.data (pa % 256) b, dirty := l.dirty || ca == 0 })
    if ca = 1 then { s with mem := memSet s.mem pa b } else s
  else { s with mem := memSet s.mem pa b }

theorem homeSet_eq (s : State) (key : BitVec 512) (ca pa : Nat) (b : Byte) :
    homeSet s key ca pa b = writeByte (rekeyLine (writeReady s ca pa) key (lineOf pa)) (cachedWrite s ca pa) ca pa b := rfl

theorem writeReady_spec {s : State} (h : CacheOk s) (ca pa : Nat) :
    SameHome s (writeReady s ca pa) ∧ (mscFind (writeReady s ca pa) (lineOf pa)).isSome = cachedWrite s ca pa := by
  cases c : cachedWrite s ca pa with
  | true =>
    have ready : writeReady s ca pa = mscFill s (lineOf pa) := by simp [writeReady, c]
    have pool : poolBase ≤ pa := by
      simp only [cachedWrite, Bool.and_eq_true, decide_eq_true_eq] at c
      exact c.1.1
    rw [ready]
    exact mscFill_spec h (poolBase_le_lineOf.mpr pool) (lineOf_mod pa)
  | false =>
    by_cases pool : poolBase ≤ pa
    · have ready : writeReady s ca pa = mscDrop s (lineOf pa) := by simp [writeReady, c, pool]
      rw [ready, mscFind_mscDrop_self]
      exact ⟨sameHome_mscDrop h _, rfl⟩
    · have ready : writeReady s ca pa = s := by simp [writeReady, c, pool]
      rw [ready, mscFind_none_below h (by rw [← not_le, poolBase_le_lineOf]; exact pool)]
      exact ⟨.refl h, rfl⟩

theorem mapSet_ok {d : SMap Byte} (hw : mapWf 0 d = true) (hk : ∀ x ∈ d, x.1 < 256) (pa : Nat) (b : Byte) :
    mapWf 0 (mapSet 0 d (pa % 256) b) = true ∧ ∀ x ∈ mapSet 0 d (pa % 256) b, x.1 < 256 :=
  ⟨mapWf_mapSet _ _ hw, fun x hx => (mem_mapSet hx).elim (fun e => e ▸ Nat.mod_lt _ (by omega)) (hk x)⟩

theorem cellsIn_memSet_line {m : List Host.Cell} (h : Memory.wf m = true) (pa : Nat) (b : Byte) :
    cellsIn (memSet m pa b) (lineOf pa) 256 = mapSet 0 (cellsIn m (lineOf pa) 256) (pa % 256) b := by
  have bounds := lineOf_bounds (a := pa)
  rw [cellsIn_memSet_self _ _ h b bounds.1 bounds.2, show pa - lineOf pa = pa % 256 by have := lineOf_add_mod pa; omega]

theorem writeByte_wrote {s : State} (h : CacheOk s) {key : BitVec 512} {ca pa : Nat} {cached : Bool} (b : Byte)
    (hk : mapFind s.lineKeys (lineOf pa) = some key) (hc : (mscFind s (lineOf pa)).isSome = cached)
    (ha : cached = true → ca < 2) :
    Wrote s (writeByte s cached ca pa b) (lineOf pa) key (mapSet 0 (plainLine s (lineOf pa)) (pa % 256) b) := by
  cases e : mscFind s (lineOf pa) with
  | none =>
    obtain rfl : false = cached := by rw [← hc, e]; rfl
    refine .of_oneLine (OneLine.setByte s pa b) h (memSet_wf pa b h.wf) (fun l hl => ?_) hk (fun _ _ => rfl) ?_
    · rw [show mscFind (writeByte s false ca pa b) (lineOf pa) = none from e] at hl
      cases hl
    · rw [plainLine_none (s := writeByte s false ca pa b) e, plainLine_none e]
      exact cellsIn_memSet_line h.wf pa b
  | some l =>
    obtain rfl : true = cached := by rw [← hc, e]; rfl
    have hca := ha rfl
    obtain ⟨pool, aligned, canon, inside, clean⟩ := h.line _ l e
    obtain ⟨canon', inside'⟩ := mapSet_ok canon inside pa b
    let f : MscLine → MscLine := fun l => { l with data := mapSet 0 l.data (pa % 256) b, dirty := l.dirty || ca == 0 }
    have one : OneLine s (updMsc s (lineOf pa) f) (lineOf pa) := oneLine_updMsc s _ (fun _ => rfl)
    have found : mscFind (updMsc s (lineOf pa) f) (lineOf pa) = some (f l) := mscFind_updMsc_self e (fun _ => rfl)
    rw [plainLine_some e]
    by_cases h1 : ca = 1
    · have same : writeByte s true ca pa b = { updMsc s (lineOf pa) f with mem := memSet s.mem pa b } := if_pos h1
      rw [same]
      refine .of_oneLine (one.trans (OneLine.setByte _ pa b)) h (memSet_wf pa b h.wf) (fun x hx => ?_) hk (fun _ _ => rfl)
        (plainLine_some (s := { updMsc s (lineOf pa) f with mem := memSet s.mem pa b }) found)
      obtain rfl := Option.some.inj (found.symm.trans hx)
      refine ⟨pool, aligned, canon', inside', fun hd => ?_⟩
      have hd' : l.dirty = false := (Bool.or_eq_false_iff.mp hd).1
      exact (congrArg (fun d => mapSet 0 d (pa % 256) b) (clean hd')).trans (cellsIn_memSet_line h.wf pa b).symm
    · have h0 : ca = 0 := by omega
      have same : writeByte s true ca pa b = updMsc s (lineOf pa) f := if_neg h1
      rw [same]
      refine .of_oneLine one h h.wf (fun x hx => ?_) hk (fun _ _ => rfl) (plainLine_some found)
      obtain rfl := Option.some.inj (found.symm.trans hx)
      refine ⟨pool, aligned, canon', inside', fun hd => ?_⟩
      have hd' : (l.dirty || ca == 0) = false := hd
      simp [h0] at hd'

/-- A byte that is written at its home: its writer sees it in the line, and of every other byte what it saw (R51, R69). -/
theorem homeSet_wrote {s : State} (h : CacheOk s) (key : BitVec 512) {ca : Nat} (hca : ca < 3) (pa : Nat) (b : Byte) :
    Wrote s (homeSet s key ca pa b) (lineOf pa) key (mapSet 0 (homeLine s key (lineOf pa)) (pa % 256) b) := by
  obtain ⟨same, found⟩ := writeReady_spec h ca pa
  obtain ⟨rekeyed, kept⟩ := rekeyLine_wrote same.ok key (lineOf_mod pa)
  have attr : cachedWrite s ca pa = true → ca < 2 := by
    intro c
    simp only [cachedWrite, Bool.and_eq_true, bne_iff_ne] at c
    have := c.1.2
    omega
  have written := writeByte_wrote rekeyed.ok b rekeyed.key (kept.trans found) attr
  rw [rekeyed.line, same.homeLine key (lineOf_mod pa)] at written
  rw [homeSet_eq]
  exact .after same (rekeyed.trans written)

end Sys2Proof.Machine

/-! SUPPORT. A core's L1: lines that leave it with their dirty bytes and lines that enter it, and what its owner reads (R70, R254). -/

namespace Sys2Proof.Machine

/-! ## A core's L1 and what its owner reads -/

/-- Only memory, the memory-side cache, the keys of lines, the L2s and the cores of `t` may differ from those of `s`. -/
def FillFrame (s t : State) : Prop :=
  { t with mem := s.mem, msc := s.msc, l2 := s.l2, cores := s.cores, lineKeys := s.lineKeys } = s

namespace FillFrame

theorem trans {s t u : State} (h : FillFrame s t) (h' : FillFrame t u) : FillFrame s u := by
  have e := congrArg (fun x : State =>
    { x with mem := s.mem, msc := s.msc, l2 := s.l2, cores := s.cores, lineKeys := s.lineKeys }) h'
  exact Eq.trans e h

theorem foldl {α : Type} {f : State → α → State} (hf : ∀ s a, FillFrame s (f s a)) (l : List α) (s : State) :
    FillFrame s (l.foldl f s) := by
  induction l generalizing s with
  | nil => exact rfl
  | cons a l ih => exact (hf s a).trans (ih (f s a))

theorem keyOr {s t : State} (h : FillFrame s t) (owner : Nat) : keyOr t owner = keyOr s owner := by
  have e : t.keys = s.keys := (congrArg State.keys h :)
  unfold Machine.keyOr keyVal
  rw [e]

theorem groups {s t : State} (h : FillFrame s t) : t.groups = s.groups := (congrArg State.groups h :)

/-- A write of memory that leaves the notes of poison alone. -/
theorem of_memoryOnly {s t : State} (h : MemoryOnly s t) (hp : t.poison = s.poison) : FillFrame s t := by
  have hc : t.cores = s.cores := (congrArg State.cores h :)
  unfold MemoryOnly at h
  unfold FillFrame
  rw [← hp] at h
  rw [← hc]
  exact h

end FillFrame

theorem ReadFrame.fill {s t : State} (h : ReadFrame s t) : FillFrame s t := by
  have e := congrArg (fun x : State => { x with cores := s.cores, lineKeys := s.lineKeys }) h
  exact e

theorem poison_rekeyLine (s : State) (key : BitVec 512) (base : Nat) : (rekeyLine s key base).poison = s.poison := by
  unfold rekeyLine
  split
  · rfl
  · split
    · rfl
    · dsimp only
      split
      · split <;> rfl
      · rfl

theorem poison_writeByte (s : State) (cached : Bool) (ca pa : Nat) (b : Byte) :
    (writeByte s cached ca pa b).poison = s.poison := by
  unfold writeByte
  split
  · dsimp only
    split <;> rfl
  · rfl

theorem readFrame_writeReady (s : State) (ca pa : Nat) : ReadFrame s (writeReady s ca pa) := by
  have dropped : ReadFrame s (if decide (poolBase ≤ pa) && !cachedWrite s ca pa then mscDrop s (lineOf pa) else s) := by
    split
    · exact readFrame_mscDrop s _
    · exact rfl
  unfold writeReady
  dsimp only
  split
  · exact dropped.trans (readFrame_mscFill _ _)
  · exact dropped

theorem fillFrame_homeSet (s : State) (key : BitVec 512) (ca pa : Nat) (b : Byte) : FillFrame s (homeSet s key ca pa b) := by
  refine .of_memoryOnly (memoryOnly_homeSet s key ca pa b) ?_
  have ready : (writeReady s ca pa).poison = s.poison := (congrArg State.poison (readFrame_writeReady s ca pa) :)
  rw [homeSet_eq, poison_writeByte, poison_rekeyLine, ready]

/-! ## Dirty bytes that go home -/

/-- What a key sees of the line at `b` is `d` in `t`, and what every key sees of any other line is as in `s`. -/
structure Sent (s t : State) (b : Nat) (key : BitVec 512) (d : SMap Byte) : Prop where
  ok : CacheOk t
  self : homeLine t key b = d
  other : ∀ k b', b' % 256 = 0 → b' ≠ b → homeLine t k b' = homeLine s k b'

/-- Bytes of one line that are written home one after another under one key. -/
theorem homeSet_foldl_sent {s : State} (h : CacheOk s) (owner : Nat) {ca b : Nat} (hca : ca < 3) (hb : b % 256 = 0)
    (val : Nat → Byte) (is : List Nat) (hi : ∀ i ∈ is, i < 256) :
    Sent s (is.foldl (fun s i => homeSet s (keyOr s owner) ca (b + i) (val i)) s) b (keyOr s owner)
      (is.foldl (fun d i => mapSet 0 d i (val i)) (homeLine s (keyOr s owner) b)) := by
  induction is generalizing s with
  | nil => exact ⟨h, rfl, fun _ _ _ _ => rfl⟩
  | cons i is ih =>
    have lt : i < 256 := hi i (List.mem_cons_self ..)
    have line : lineOf (b + i) = b := by unfold lineOf; omega
    have wrote := homeSet_wrote h (keyOr s owner) hca (b + i) (val i)
    rw [line, show (b + i) % 256 = i by omega] at wrote
    obtain ⟨ok, self, other⟩ := ih wrote.ok (fun j hj => hi j (List.mem_cons_of_mem _ hj))
    rw [(fillFrame_homeSet s (keyOr s owner) ca (b + i) (val i)).keyOr, wrote.homeLine_self] at self
    exact ⟨ok, self, fun k b' ha hne => (other k b' ha hne).trans (wrote.homeLine_other k ha hne)⟩

theorem Sent.of_homeAs {s t u : State} {b : Nat} {key : BitVec 512} {d : SMap Byte} (h : Sent s t b key d)
    (e : Claims.HomeAs u t) (hb : b % 256 = 0) : Sent s u b key d := by
  have same := h.ok.of_homeAs e
  exact ⟨same.ok, (same.homeLine key hb).trans h.self, fun k b' ha hne => (same.homeLine k ha).trans (h.other k b' ha hne)⟩

theorem fillFrame_l2TouchAll (s : State) (owner : Nat) (ls : List Nat) : FillFrame s (l2TouchAll s owner ls) :=
  .foldl (f := fun s l => l2Touch s owner l) (fun _ _ => rfl) ls s

theorem mem_setBitsOf {n x i : Nat} : i ∈ setBitsOf n x ↔ i < n ∧ (x / 2 ^ i % 2 == 1) = true := by
  simp [setBitsOf]

theorem setBitsOf_zero (n : Nat) : setBitsOf n 0 = [] := by
  simp [setBitsOf]

/-- The content that a line's dirty bytes give its home. -/
def dirtyOver (l : L1Line) (d : SMap Byte) : SMap Byte :=
  (setBitsOf 256 l.dirty.toNat).foldl (fun d i => mapSet 0 d i (mapGet 0 l.data i)) d

theorem mapGet_dirtyOver (l : L1Line) {d : SMap Byte} (h : mapWf 0 d = true) {i : Nat} (hi : i < 256) :
    mapGet 0 (dirtyOver l d) i = if bit l.dirty i then mapGet 0 l.data i else mapGet 0 d i := by
  unfold dirtyOver
  rw [mapGet_foldl_mapSet _ _ h]
  exact if_congr (by rw [mem_setBitsOf, bit, and_iff_right hi]) rfl rfl

/-- A line of L1 writes its dirty bytes home under its own owner's key (R70, R254). -/
theorem l1WriteBack_sent {s : State} (h : CacheOk s) {l : L1Line} (hca : l.ca < 3) (hb : l.base % 256 = 0) :
    Sent s (l1WriteBack s l) l.base (keyOr s l.owner) (dirtyOver l (homeLine s (keyOr s l.owner) l.base)) :=
  (homeSet_foldl_sent h l.owner hca hb (mapGet 0 l.data) (setBitsOf 256 l.dirty.toNat)
    (fun _ hi => (mem_setBitsOf.mp hi).1)).of_homeAs (homeAs_l2TouchAll ..) hb

theorem fillFrame_l1WriteBack (s : State) (l : L1Line) : FillFrame s (l1WriteBack s l) :=
  (FillFrame.foldl (f := fun s i => homeSet s (keyOr s l.owner) l.ca (l.base + i) (mapGet 0 l.data i))
    (fun _ _ => fillFrame_homeSet ..) _ s).trans (fillFrame_l2TouchAll ..)

theorem l1WriteBack_clean {s : State} {l : L1Line} (h : l.dirty = 0) : l1WriteBack s l = s := by
  have none : setBitsOf 256 l.dirty.toNat = [] := by rw [h]; exact setBitsOf_zero 256
  unfold l1WriteBack
  rw [none]
  rfl

theorem cores_l1WriteBack (s : State) (l : L1Line) : (l1WriteBack s l).cores = s.cores := by
  have touched (s : State) (ls : List Nat) : (l2TouchAll s l.owner ls).cores = s.cores := by
    unfold l2TouchAll
    induction ls generalizing s with
    | nil => rfl
    | cons b ls ih => exact ih (l2Touch s l.owner b)
  have sent (is : List Nat) (s : State) :
      (is.foldl (fun s i => homeSet s (keyOr s l.owner) l.ca (l.base + i) (mapGet 0 l.data i)) s).cores = s.cores := by
    induction is generalizing s with
    | nil => rfl
    | cons i is ih =>
      have one := memoryOnly_homeSet s (keyOr s l.owner) l.ca (l.base + i) (mapGet 0 l.data i)
      exact (ih _).trans (congrArg State.cores one :)
  exact (touched _ _).trans (sent _ _)

/-! ## Steps of a core's L1 -/

/-- A byte as a core reads it past its queues: from its L1 where it holds the line, and else at its home. -/
def coreByte (s : State) (core owner pa : Nat) : Byte :=
  match l1Find (coreOf s core) (lineOf pa) with
  | some x => mapGet 0 x.data (pa % 256)
  | none => homeByte s (keyOr s owner) pa

theorem readLoc_mem (s : State) (core owner : Nat) (g : Group) (pa ca : Nat) : readLoc s core owner g (.mem pa ca) =
    overlay (.mem pa ca) (fifoBytes g)
      (overlay (.mem pa ca) ((coreOf s core).wc.flatMap (·.bytes)) (coreByte s core owner pa)) := rfl

/-- Lines leave or enter the L1 of a core for an owner: no byte of which the L1 holds no older copy reads otherwise, and where no
line is dirty no home changes (R67, R70). -/
structure L1Moves (s t : State) (core owner : Nat) : Prop where
  ok : CacheOk t
  l1 : Claims.CoreCache t core
  frame : FillFrame s t
  wc : (coreOf t core).wc = (coreOf s core).wc
  reads : ∀ pa, Claims.UpToDate s core owner pa →
    Claims.UpToDate t core owner pa ∧ coreByte t core owner pa = coreByte s core owner pa
  clean : (∀ x ∈ (coreOf s core).l1, x.dirty = 0) → SameHome s t ∧ ∀ x ∈ (coreOf t core).l1, x.dirty = 0

namespace L1Moves
variable {s t u : State} {core owner : Nat}

theorem refl (h : CacheOk s) (hl : Claims.CoreCache s core) : L1Moves s s core owner :=
  ⟨h, hl, rfl, rfl, fun _ hu => ⟨hu, rfl⟩, fun hd => ⟨.refl h, hd⟩⟩

theorem trans (h : L1Moves s t core owner) (h' : L1Moves t u core owner) : L1Moves s u core owner := by
  refine ⟨h'.ok, h'.l1, h.frame.trans h'.frame, h'.wc.trans h.wc, fun pa hu => ?_, fun hd => ?_⟩
  · obtain ⟨upToDate, read⟩ := h.reads pa hu
    obtain ⟨upToDate', read'⟩ := h'.reads pa upToDate
    exact ⟨upToDate', read'.trans read⟩
  · obtain ⟨same, clean⟩ := h.clean hd
    obtain ⟨same', clean'⟩ := h'.clean clean
    exact ⟨same.trans same', clean'⟩

theorem foldl {α : Type} {f : State → α → State}
    (hf : ∀ s a, CacheOk s → Claims.CoreCache s core → L1Moves s (f s a) core owner) (l : List α) (h : CacheOk s)
    (hl : Claims.CoreCache s core) : L1Moves s (l.foldl f s) core owner := by
  induction l generalizing s with
  | nil => exact refl h hl
  | cons a l ih =>
    have step := hf s a h hl
    exact step.trans (ih step.ok step.l1)

/-- A step that leaves the cores and every home as they are. -/
theorem of_sameHome (h : CacheOk s) (hl : Claims.CoreCache s core) (same : SameHome s t) (frame : FillFrame s t)
    (hc : t.cores = s.cores) : L1Moves s t core owner := by
  have hcore : coreOf t core = coreOf s core := by unfold coreOf; rw [hc]
  have home (pa : Nat) : homeByte t (keyOr t owner) pa = homeByte s (keyOr s owner) pa := by
    rw [frame.keyOr, same.homeByte h]
  refine ⟨same.ok, ⟨hc ▸ hl.canon, hcore ▸ hl.aligned, hcore ▸ hl.attr⟩, frame, by rw [hcore], fun pa hu => ⟨?_, ?_⟩,
    fun hd => ⟨same, hcore ▸ hd⟩⟩
  · intro x hx
    rw [hcore] at hx
    rw [home]
    exact hu x hx
  · unfold coreByte
    rw [hcore, home]

end L1Moves

theorem coreOf_setCore {s : State} (h : mapWf Core.empty s.cores = true) (core : Nat) (x : Core) :
    coreOf (setCore s core x) core = x := by
  unfold coreOf setCore
  rw [mapGet_mapSet _ _ _ h, if_pos rfl]

theorem coreOf_congr {s t : State} (h : t.cores = s.cores) (core : Nat) : coreOf t core = coreOf s core := by
  unfold coreOf
  rw [h]

theorem l1Find_mem {c : Core} {b : Nat} {l : L1Line} (h : l1Find c b = some l) : l ∈ c.l1 ∧ l.base = b :=
  ⟨List.mem_of_find?_eq_some h, by simpa using List.find?_some h⟩

theorem l1Find_filter_self (c : Core) (b : Nat) : l1Find { c with l1 := c.l1.filter (fun x => x.base ≠ b) } b = none :=
  List.find?_eq_none.mpr (fun x hx => by simpa using (List.mem_filter.mp hx).2)

theorem l1Find_filter_other (c : Core) {b b' : Nat} (h : b' ≠ b) :
    l1Find { c with l1 := c.l1.filter (fun x => x.base ≠ b) } b' = l1Find c b' := by
  unfold l1Find
  rw [List.find?_filter]
  congr 1
  funext x
  by_cases hx : x.base = b'
  · simp [hx, h]
  · simp [hx]

/-- The L1 of a core with a line at its front, as an owner reads it at its home. -/
def l1Enter (s : State) (core owner ca b : Nat) : State :=
  setCore s core { coreOf s core with l1 := ⟨b, ca, owner, homeLine s (keyOr s owner) b, 0, 0⟩ :: (coreOf s core).l1 }

theorem l1Fill_cases (s : State) (core owner ca b : Nat) : l1Fill s core owner ca b = s ∨ l1Fill s core owner ca b =
    l1Enter (l2Touch (readThrough (l1Room (l1Drop s core b) core) ca b) owner b) core owner ca b := by
  unfold l1Fill
  exact ite_eq_or_eq _ _ _

section
variable {s : State} {core : Nat} (owner : Nat)

theorem l1Drop_none {b : Nat} (h : l1Find (coreOf s core) b = none) : l1Drop s core b = s := by simp only [l1Drop, h]

theorem l1Drop_some {b : Nat} {l : L1Line} (h : l1Find (coreOf s core) b = some l) : l1Drop s core b =
    setCore (l1WriteBack s l) core { coreOf s core with l1 := (coreOf s core).l1.filter (fun x => x.base ≠ b) } := by
  simp only [l1Drop, h, coreOf_congr (cores_l1WriteBack s l)]

theorem coreOf_l1Drop (hc : mapWf Core.empty s.cores = true) {b : Nat} {l : L1Line} (h : l1Find (coreOf s core) b = some l) :
    coreOf (l1Drop s core b) core = { coreOf s core with l1 := (coreOf s core).l1.filter (fun x => x.base ≠ b) } := by
  rw [l1Drop_some h]
  exact coreOf_setCore (cores_l1WriteBack s l ▸ hc) core _

theorem l1Find_l1Drop_self (hc : mapWf Core.empty s.cores = true) (b : Nat) :
    l1Find (coreOf (l1Drop s core b) core) b = none := by
  cases e : l1Find (coreOf s core) b with
  | none => rw [l1Drop_none e, e]
  | some l => rw [coreOf_l1Drop hc e, l1Find_filter_self]

theorem l1Find_l1Drop_other (hc : mapWf Core.empty s.cores = true) {b b' : Nat} (hne : b' ≠ b) :
    l1Find (coreOf (l1Drop s core b) core) b' = l1Find (coreOf s core) b' := by
  cases e : l1Find (coreOf s core) b with
  | none => rw [l1Drop_none e]
  | some l => rw [coreOf_l1Drop hc e, l1Find_filter_other _ hne]

variable (h : CacheOk s) (hl : Claims.CoreCache s core)
include h hl

/-- A line that leaves L1 takes its dirty bytes home, where its owner reads them. -/
theorem l1Drop_moves (b : Nat) : L1Moves s (l1Drop s core b) core owner := by
  cases e : l1Find (coreOf s core) b with
  | none => exact (l1Drop_none e).symm ▸ .refl h hl
  | some l =>
    obtain ⟨mem, base⟩ := l1Find_mem e
    have hb : b % 256 = 0 := base ▸ hl.aligned l mem
    obtain ⟨ok, self, other⟩ := (l1WriteBack_sent h (hl.attr l mem) (hl.aligned l mem)).of_homeAs
      (u := l1Drop s core b) (by rw [l1Drop_some e]; exact ⟨rfl, rfl, rfl⟩) (hl.aligned l mem)
    rw [base] at self other
    have hcore := coreOf_l1Drop hl.canon e
    have left : ∀ x ∈ (coreOf (l1Drop s core b) core).l1, x ∈ (coreOf s core).l1 := by
      rw [hcore]
      exact fun x hx => (List.mem_filter.mp hx).1
    have frame : FillFrame s (l1Drop s core b) := by
      rw [l1Drop_some e]
      exact (fillFrame_l1WriteBack s l).trans rfl
    refine ⟨ok, ⟨?_, fun x hx => hl.aligned x (left x hx), fun x hx => hl.attr x (left x hx)⟩, frame, by rw [hcore], fun pa hu => ?_,
      fun hd => ⟨?_, fun x hx => hd x (left x hx)⟩⟩
    · rw [l1Drop_some e]
      exact mapWf_mapSet _ _ (cores_l1WriteBack s l ▸ hl.canon)
    · by_cases hp : lineOf pa = b
      · have gone : l1Find (coreOf (l1Drop s core b) core) (lineOf pa) = none := by
          rw [hp]
          exact l1Find_l1Drop_self hl.canon b
        have here : l1Find (coreOf s core) (lineOf pa) = some l := hp ▸ e
        obtain ⟨own, value⟩ := hu l here
        refine ⟨fun x hx => absurd (gone.symm.trans hx) (by simp), ?_⟩
        simp only [coreByte, gone, here]
        rw [homeByte_eq ok, frame.keyOr, hp, ← own, self, mapGet_dirtyOver l (homeLine_ok h _ b).1 (Nat.mod_lt _ (by omega))]
        split
        · rfl
        · next clean =>
          rw [value.resolve_left clean, homeByte_eq h, hp, own]
      · have found := l1Find_l1Drop_other (core := core) hl.canon hp
        have home : homeByte (l1Drop s core b) (keyOr (l1Drop s core b) owner) pa = homeByte s (keyOr s owner) pa := by
          rw [homeByte_eq ok, homeByte_eq h, frame.keyOr, other _ _ (lineOf_mod pa) hp]
        refine ⟨fun x hx => ?_, ?_⟩
        · rw [found] at hx
          rw [home]
          exact hu x hx
        · simp only [coreByte, found, home]
    · rw [l1Drop_some e, l1WriteBack_clean (hd l mem)]
      exact h.of_homeAs ⟨rfl, rfl, rfl⟩

theorem l1Room_moves : L1Moves s (l1Room s core) core owner := by
  unfold l1Room
  dsimp only
  split
  · exact .refl h hl
  · split
    · exact l1Drop_moves owner h hl _
    · exact .refl h hl

omit h in
theorem l1Find_l1Room_none {b : Nat} (hb : l1Find (coreOf s core) b = none) : l1Find (coreOf (l1Room s core) core) b = none := by
  have dropped (b' : Nat) : l1Find (coreOf (l1Drop s core b') core) b = none := by
    by_cases hne : b = b'
    · exact hne ▸ l1Find_l1Drop_self hl.canon b
    · rw [l1Find_l1Drop_other hl.canon hne, hb]
  unfold l1Room
  dsimp only
  split
  · exact hb
  · split
    · exact dropped _
    · exact hb

/-- A line that L1 does not hold enters it as its owner reads it at its home. -/
theorem l1Enter_moves {ca b : Nat} (hca : ca < 3) (hb : b % 256 = 0) (hn : l1Find (coreOf s core) b = none) :
    L1Moves s (l1Enter s core owner ca b) core owner := by
  have hcore : coreOf (l1Enter s core owner ca b) core = _ := coreOf_setCore hl.canon core _
  have same : SameHome s (l1Enter s core owner ca b) := h.of_homeAs ⟨rfl, rfl, rfl⟩
  have canon : mapWf Core.empty (l1Enter s core owner ca b).cores = true := by
    rw [l1Enter, setCore_cores]
    exact mapWf_mapSet _ _ hl.canon
  have frame : FillFrame s (l1Enter s core owner ca b) := rfl
  generalize l1Enter s core owner ca b = t at hcore same canon frame
  have home (pa : Nat) : homeByte t (keyOr t owner) pa = homeByte s (keyOr s owner) pa := by rw [frame.keyOr, same.homeByte h]
  refine ⟨same.ok, ⟨canon, ?_, ?_⟩, frame, by rw [hcore], fun pa hu => ?_, fun hd => ⟨same, ?_⟩⟩
  · rw [hcore]
    exact List.forall_mem_cons.mpr ⟨hb, hl.aligned⟩
  · rw [hcore]
    exact List.forall_mem_cons.mpr ⟨hca, hl.attr⟩
  · by_cases hp : lineOf pa = b
    · have found : l1Find (coreOf t core) (lineOf pa) = some ⟨b, ca, owner, homeLine s (keyOr s owner) b, 0, 0⟩ := by
        rw [hcore]
        simp [l1Find, hp]
      have value : mapGet 0 (homeLine s (keyOr s owner) b) (pa % 256) = homeByte s (keyOr s owner) pa := by
        rw [homeByte_eq h, hp]
      refine ⟨fun x hx => ?_, ?_⟩
      · obtain rfl := Option.some.inj (found.symm.trans hx)
        exact ⟨rfl, Or.inr (value.trans (home pa).symm)⟩
      · unfold coreByte
        rw [found, hp, hn]
        exact value
    · have found : l1Find (coreOf t core) (lineOf pa) = l1Find (coreOf s core) (lineOf pa) := by
        rw [hcore]
        simp [l1Find, Ne.symm hp]
      refine ⟨fun x hx => ?_, ?_⟩
      · rw [found] at hx
        rw [home]
        exact hu x hx
      · simp only [coreByte, found, home]
  · rw [hcore]
    exact List.forall_mem_cons.mpr ⟨rfl, hd⟩

/-- A line becomes present in L1 (R70): what it displaces goes home first. -/
theorem l1Fill_moves {ca b : Nat} (hca : ca < 3) (hb : b % 256 = 0) : L1Moves s (l1Fill s core owner ca b) core owner := by
  have dropped := l1Drop_moves owner h hl b
  have room := l1Room_moves owner dropped.ok dropped.l1
  have gone := l1Find_l1Room_none dropped.l1 (l1Find_l1Drop_self hl.canon b)
  generalize hu : l1Room (l1Drop s core b) core = u at room gone
  have through : SameHome u (l2Touch (readThrough u ca b) owner b) := by
    have read := sameHome_readThrough room.ok ca b
    exact read.trans (read.ok.of_homeAs ⟨rfl, rfl, rfl⟩)
  have frame := readFrame_readThrough u ca b
  have hcores : (l2Touch (readThrough u ca b) owner b).cores = u.cores := frame.cores
  have touched := L1Moves.of_sameHome (owner := owner) room.ok room.l1 through (frame.fill.trans rfl) hcores
  have entered := l1Enter_moves owner touched.ok touched.l1 hca hb (coreOf_congr hcores core ▸ gone)
  rcases l1Fill_cases s core owner ca b with e | e
  · exact e.symm ▸ .refl h hl
  · rw [e, hu]
    exact ((dropped.trans room).trans touched).trans entered

end

end Sys2Proof.Machine

/-! SUPPORT. U-set instructions whose effect reaches beyond their group's registers: arrivals of engines and accepted operations
(R66, R173). -/

namespace Sys2Proof.Machine

/-! ## A U-set instruction whose effect reaches beyond its group's registers -/

theorem markFocus_eq (s : State) (n : Nat) : ∃ f, markFocus s n = { s with focus := f } := by
  unfold markFocus
  split
  · exact ⟨_, rfl⟩
  · exact ⟨s.focus, rfl⟩

theorem sameElsewhere_regrouped (s : State) (gs : List Group) (f : Focus) :
    SameElsewhere s { s with groups := gs, focus := f } := rfl

theorem sameBut_moved {g₀ g : Group} (h : SameBut g₀ g) (f : Nat → Lane → Lane) (pc : DWord) (ls : List Nat) :
    SameBut g₀ (dropSkips (g.mapLanes ls f) pc ls) := by
  unfold dropSkips
  split <;> exact h

theorem dropSkips_eop (g : Group) (pc : DWord) (ls : List Nat) : (dropSkips g pc ls).eop = g.eop := by
  unfold dropSkips
  split <;> rfl

theorem SameOthers.keep {s t : State} {k : GKey} (h : SameOthers s t k) : OthersKeep s t k := fun k' hk => by rw [h k' hk]

theorem OthersKeep.trans {s t u : State} {k : GKey} (h : OthersKeep s t k) (h' : OthersKeep t u k) : OthersKeep s u k :=
  fun k' hk => (h' k' hk).trans (h k' hk)

/-- The body of a U-set instruction gives `s₁`, where its group has the lanes and the count of before: the population moves, the
issue is counted, and all that `s₁` has beside its groups and the focus stays (R172, R173). -/
theorem uAccepts_of_body {i : Instr} {body : Ctx → State → Except Stop State} {s s₁ : State} {c : Ctx} {g₁ : Group}
    {post : State → Prop} (hx : exec i s = uniform i body s) (hr : Stands s c i.len) (hb : body c s = .ok s₁)
    (hg : findGroup s₁ c.g.key = some g₁) (hs : SameBut c.g g₁) (hn : g₁.eop = c.g.eop) (hl : g₁.lanes = c.g.lanes)
    (ho : OthersKeep s s₁ c.g.key) (hp : ∀ gs f, post { s₁ with groups := gs, focus := f }) : UAccepts i s c id post := by
  have moved := moveLanes_group c.pc c.act (fun _ => c.nextPc) hg
  have counted := findGroup_updGroup_self (s := c.advance s₁) (k := c.g.key)
    (fun g => { g with
      eop := g.eop + 1, parks := g.parks.filter (fun p => p.pc ≠ c.pc), waited := g.waited.filter (fun p => p ≠ c.pc) })
    (fun _ => rfl) moved
  have othersMoved : SameOthers s₁ (c.advance s₁) c.g.key :=
    sameOthers_updGroup _ (fun g => by rw [dropSkips_key, mapLanes_key])
  have othersCounted : SameOthers (c.advance s₁) (countIssue (c.advance s₁) c.g.key c.pc) c.g.key :=
    sameOthers_updGroup _ (fun _ => rfl)
  have others := (othersMoved.trans othersCounted).trans (sameOthers_of_groups (markFocus_groups _ 1))
  obtain ⟨f, hf⟩ := markFocus_eq (countIssue (c.advance s₁) c.g.key c.pc) 1
  refine ⟨markFocus (countIssue (c.advance s₁) c.g.key c.pc) 1, _, ?_, (findGroup_congr (markFocus_groups _ _) _).trans counted,
    ?_, ?_, fun l => ?_, ho.trans others.keep, ?_⟩
  · rw [hx]
    simp [uniform, hr.ctx, fallOk_ok hr.falls, hb, Ctx.settle, Ctx.settleFrom, bind, Except.bind]
  · exact sameBut_moved (f := fun _ x => { x with pc := c.nextPc }) hs c.pc c.act
  · show (dropSkips _ _ _).eop + 1 = c.g.eop + 1
    rw [dropSkips_eop]
    exact congrArg (· + 1) hn
  · show (dropSkips _ _ _).lane? l = _
    rw [lane_dropSkips, lane_mapLanes]
    simp only [Group.lane?, hl]
  · rw [hf]
    exact hp _ f

/-- The same for a body that changes no group. -/
theorem uAccepts_of_groups {i : Instr} {body : Ctx → State → Except Stop State} {s s₁ : State} {c : Ctx}
    {post : State → Prop} (hx : exec i s = uniform i body s) (hr : Stands s c i.len) (hb : body c s = .ok s₁)
    (hg : s₁.groups = s.groups) (hp : ∀ gs f, post { s₁ with groups := gs, focus := f }) : UAccepts i s c id post := by
  obtain ⟨found, -⟩ := focusCtx_group hr.ctx
  exact uAccepts_of_body hx hr hb ((findGroup_congr hg _).trans found) rfl rfl rfl (sameOthers_of_groups hg).keep hp

/-! ## The arrival of an engine -/

theorem groups_scratchBytes (s : State) (owner uid off : Nat) (bs : List Byte) :
    (locSetBytes s owner (.scr uid off) bs).groups = s.groups := by
  unfold locSetBytes
  generalize bs.mapIdx (fun i b => (i, b)) = ps
  induction ps generalizing s with
  | nil => rfl
  | cons p ps ih => exact ih (scratchSet s uid (off + p.1) p.2)

/-- A group as an update of a barrier leaves it: its BWAITs there have evaluated their conditions (R138). -/
def Group.retested (g : Group) (uid off phase : Nat) : Group :=
  if g.key.wg == uid && !g.holds.isEmpty then
    { g with holds := g.holds.map (fun h => { h with why := h.why.retest off phase }) }
  else g

theorem findGroup_barPut (s : State) (uid off : Nat) (b : Bar) (k : GKey) :
    findGroup (barPut s uid off b) k = (findGroup s k).map (fun g => g.retested uid off (barPhase b)) := by
  have groups : (barPut s uid off b).groups = updateIf (fun g => g.key.wg == uid && !g.holds.isEmpty)
      (fun g => { g with holds := g.holds.map (fun h => { h with why := h.why.retest off (barPhase b) }) }) s.groups := by
    unfold barPut
    dsimp only
    rw [groups_scratchBytes]
  unfold findGroup
  rw [groups]
  exact find_updateIf _ _ _ _ (fun _ => rfl)

theorem memoryOnly_syncLines (s : State) (uid : Nat) (lines : List Nat) : MemoryOnly s (syncLines s uid lines) := by
  unfold syncLines
  split
  · rfl
  · split
    · split
      · exact MemoryOnly.foldl (fun _ _ => (memoryOnly_ownSetBytes ..).trans (memoryOnly_ownSetBytes ..)) _ s
      · rfl
    · rfl

/-- An engine that arrives at a barrier changes of the groups only what their BWAITs have seen. -/
theorem findGroup_engineArrive (s : State) (uid off err : Nat) (k : GKey) :
    ∃ phase, findGroup (engineArrive s uid off err) k = (findGroup s k).map (fun g => g.retested uid off phase) :=
  ⟨_, (findGroup_congr (memoryOnly_syncLines ..).groups k).trans (findGroup_barPut ..)⟩

theorem retested_kept (g : Group) (uid off phase : Nat) :
    SameBut g (g.retested uid off phase) ∧ (g.retested uid off phase).eop = g.eop ∧
      (g.retested uid off phase).lanes = g.lanes ∧ (g.retested uid off phase).s = g.s ∧
      (g.retested uid off phase).fps = g.fps := by
  unfold Group.retested
  split <;> exact ⟨rfl, rfl, rfl, rfl, rfl⟩

theorem othersKeep_engineArrive (s : State) (uid off err : Nat) (k : GKey) : OthersKeep s (engineArrive s uid off err) k := by
  intro k' _
  obtain ⟨phase, found⟩ := findGroup_engineArrive s uid off err k'
  generalize engineArrive s uid off err = t at found
  rw [found]
  cases findGroup s k' with
  | none => rfl
  | some g =>
    obtain ⟨-, eop, lanes, sregs, fps⟩ := retested_kept g uid off phase
    simp only [Option.map_some, eop, lanes, sregs, fps]

/-- A U-set instruction whose body is the arrival of an engine. -/
theorem uAccepts_of_arrival {i : Instr} {body : Ctx → State → Except Stop State} {s : State} {c : Ctx} {uid off err : Nat}
    (hx : exec i s = uniform i body s) (hr : Stands s c i.len) (hb : body c s = .ok (engineArrive s uid off err)) :
    UAccepts i s c id (SameElsewhere (engineArrive s uid off err)) := by
  obtain ⟨found, -⟩ := focusCtx_group hr.ctx
  obtain ⟨phase, found'⟩ := findGroup_engineArrive s uid off err c.g.key
  rw [found, Option.map_some] at found'
  obtain ⟨same, eop, lanes, -, -⟩ := retested_kept c.g uid off phase
  exact uAccepts_of_body hx hr hb found' same eop lanes (othersKeep_engineArrive s uid off err c.g.key)
    (sameElsewhere_regrouped _)

/-! ## PGREQ (R66) -/

/-- The state in which an operation has been accepted. -/
theorem findGroup_acceptOp {s : State} {c : Ctx} {cls : OpClass} {kind : OpKind} {g : Group}
    (h : findGroup s c.g.key = some g) : ∃ issued, findGroup (acceptOp s c cls kind).1 c.g.key = some { g with issued := issued } :=
  ⟨_, findGroup_updGroup_self (s := s) _ (fun _ => rfl) h⟩

theorem sameOthers_acceptOp (s : State) (c : Ctx) (cls : OpClass) (kind : OpKind) :
    SameOthers s (acceptOp s c cls kind).1 c.g.key :=
  fun _ hk => findGroup_updGroup_other (s := s) _ (fun _ => rfl) hk

/-- A U-set instruction that starts one operation. -/
theorem uAccepts_of_acceptOp {i : Instr} {body : Ctx → State → Except Stop State} {s : State} {c : Ctx} {cls : OpClass}
    {kind : OpKind} (hx : exec i s = uniform i body s) (hr : Stands s c i.len)
    (hb : body c s = .ok (acceptOp s c cls kind).1) :
    UAccepts i s c id (fun t => SameBytes s t ∧ Outstanding t c.g.key cls kind) := by
  obtain ⟨found, -⟩ := focusCtx_group hr.ctx
  obtain ⟨issued, found'⟩ := findGroup_acceptOp (cls := cls) (kind := kind) found
  refine uAccepts_of_body hx hr hb found' rfl rfl rfl (sameOthers_acceptOp s c cls kind).keep (fun gs f => ⟨?_, ?_⟩)
  · exact sameBytes_of_homeAs ⟨rfl, rfl, rfl⟩ rfl
  · exact ⟨_, List.mem_append_right _ (List.mem_singleton_self _), rfl, rfl, rfl, rfl⟩

section
variable {sd : SReg} {x : Slot} {b off : Nat} {c : Ctx} {s : State} (hl : loaded (c.slot x.val) = true)
  (hb : barAt c b = .ok off)
include hl hb

/-- What PGREQ does for the byte that its register pair names. -/
theorem pgreqBody_of_loaded : pgreqBody sd x b c s =
    (let a := (hBase (c.slot x.val) + pairOffset c.g sd) % 2 ^ 64
     if !inReach s c.w c.ln (c.slot x.val) a then
       if hTrapOob (c.slot x.val) then trapAll cOob 0 else .ok (engineArrive s c.w.uid off errOob)
     else if hScratch (c.slot x.val) then .ok (engineArrive s c.w.uid off 0)
     else .ok (acceptOp s c .none (.pgreq ⟨a, off, c.ln.ptroot, c.ln.owner, none⟩)).1) := by
  simp only [pgreqBody, Ctx.handle, demand, hl, hb, if_true, bind, Except.bind]

end

theorem pairOffset_eq (g : Group) (sd : SReg) (n : Nat) :
    (n + (g.sreg sd.val).toNat + 2 ^ 32 * (g.sreg (sd.val + 1)).toNat) % 2 ^ 64 = (n + pairOffset g sd) % 2 ^ 64 := by
  rw [pairOffset, Nat.add_assoc, show (2 : Nat) ^ 32 = 4294967296 from rfl]

end Sys2Proof.Machine

/-! SUPPORT. What a prefetch does to caches and homes, line by line (R67), and the settlement of O28. -/

namespace Sys2Proof.Machine

/-! ## PFH (R67) -/

/-- A leaf that a walk reaches has a legal CA (R57). -/
theorem walkEntry_leaf {s : State} {l epa e l' epa' e' : Nat} (h : walkEntry s l epa e = some (.leaf l' epa' e')) :
    e' / 64 % 4 < 3 := by
  unfold walkEntry at h
  split at h
  · cases h
  · split at h
    · cases h
    · next legal =>
      split at h
      · cases h
      · next present =>
        split at h
        · cases h
          by_contra hca
          refine legal ?_
          have three : e / 64 % 4 = 3 := by omega
          have p : ebit e 0 = true := by simpa using present
          simp [malformed, p, three]
        · cases h

theorem walkFrom_leaf {s : State} {va n table l epa e : Nat} (h : walkFrom s va n table = .leaf l epa e) : e / 64 % 4 < 3 := by
  induction n generalizing table with
  | zero =>
    unfold walkFrom at h
    cases hw : walkEntry s 0 (entryPa table 0 va) (entryOf s va 0 table) with
    | none => rw [hw] at h; cases h
    | some w =>
      rw [hw, Option.getD_some] at h
      exact walkEntry_leaf (h ▸ hw)
  | succ n ih =>
    unfold walkFrom at h
    split at h
    · next w hw => exact walkEntry_leaf (h ▸ hw)
    · exact ih h

theorem else_of_ite_eq {α : Type} {p : Prop} [Decidable p] {a b x : α} (h : (if p then a else b) = x) (ha : a ≠ x) : b = x := by
  split at h
  · exact absurd h ha
  · exact h

theorem translate_attr {s : State} {ln : Launch} {need : Need} {va pa ca : Nat} {mig : Bool}
    (h : translate s ln need va = .ok pa ca mig) : ca < 3 := by
  have walked := else_of_ite_eq h (by simp)
  split at walked
  · cases walked
  · cases walked
  · cases walked
  · next l epa e hw =>
    have permitted := else_of_ite_eq walked (by simp)
    have written := else_of_ite_eq permitted (by simp)
    have keyed := else_of_ite_eq written (by simp)
    cases keyed
    exact walkFrom_leaf hw

/-- What a prefetch of one line does, by its target; a line that R67 skips is left alone. -/
theorem pfhLine_cases (w : Wg) (ln : Launch) (target : Nat) (s : State) (va : Nat) :
    pfhLine w ln target s va = s ∨ ∃ pa ca, ca < 3 ∧
      (target = 0 ∧ pfhLine w ln target s va = l2Touch (readThrough s ca pa) w.owner (lineOf pa) ∨
       target = 1 ∧ pfhLine w ln target s va = readThrough s ca pa ∨
       target = 2 ∧ pfhLine w ln target s va = l1Fill s w.core w.owner ca (lineOf pa)) := by
  unfold pfhLine
  split
  · next pa ca mig ht =>
    have attr := translate_attr ht
    split
    · exact Or.inl rfl
    · split
      · exact Or.inr ⟨pa, ca, attr, Or.inl ⟨rfl, rfl⟩⟩
      · split
        · exact Or.inl rfl
        · exact Or.inr ⟨pa, ca, attr, Or.inr (Or.inl ⟨rfl, rfl⟩)⟩
      · exact Or.inr ⟨pa, ca, attr, Or.inr (Or.inr ⟨rfl, rfl⟩)⟩
      · exact Or.inl rfl
  · exact Or.inl rfl

theorem fillFrame_l1Drop (s : State) (core b : Nat) : FillFrame s (l1Drop s core b) := by
  cases e : l1Find (coreOf s core) b with
  | none => rw [l1Drop_none e]; rfl
  | some l =>
    rw [l1Drop_some e]
    exact (fillFrame_l1WriteBack s l).trans rfl

theorem fillFrame_l1Room (s : State) (core : Nat) : FillFrame s (l1Room s core) := by
  unfold l1Room
  dsimp only
  split
  · rfl
  · split
    · exact fillFrame_l1Drop s core _
    · rfl

theorem fillFrame_l2Touch (s : State) (owner b : Nat) : FillFrame s (l2Touch s owner b) := rfl

theorem fillFrame_l1Enter (s : State) (core owner ca b : Nat) : FillFrame s (l1Enter s core owner ca b) := rfl

theorem fillFrame_l1Fill (s : State) (core owner ca b : Nat) : FillFrame s (l1Fill s core owner ca b) := by
  have room := (fillFrame_l1Drop s core b).trans (fillFrame_l1Room (l1Drop s core b) core)
  rcases l1Fill_cases s core owner ca b with e | e
  · rw [e]; rfl
  · rw [e]
    exact ((room.trans (readFrame_readThrough _ ca b).fill).trans (fillFrame_l2Touch _ owner b)).trans (fillFrame_l1Enter ..)

section
variable (w : Wg) (ln : Launch) (target : Nat) (s : State) (va : Nat)

theorem pfhLine_fillFrame : FillFrame s (pfhLine w ln target s va) := by
  rcases pfhLine_cases w ln target s va with e | ⟨pa, ca, -, ⟨-, e⟩ | ⟨-, e⟩ | ⟨-, e⟩⟩ <;> rw [e]
  · rfl
  · exact (readFrame_readThrough s ca pa).fill.trans (fillFrame_l2Touch _ w.owner _)
  · exact (readFrame_readThrough s ca pa).fill
  · exact fillFrame_l1Fill ..

/-- A prefetch past L1 is a read of the line past L1. -/
theorem pfhLine_readFrame (h2 : target ≠ 2) : ReadFrame s (pfhLine w ln target s va) := by
  rcases pfhLine_cases w ln target s va with e | ⟨pa, ca, -, ⟨-, e⟩ | ⟨-, e⟩ | ⟨two, -⟩⟩
  · rw [e]; rfl
  · rw [e]
    exact (readFrame_readThrough s ca pa).trans rfl
  · rw [e]
    exact readFrame_readThrough s ca pa
  · exact absurd two h2

variable {s} (h : CacheOk s)
include h

theorem pfhLine_sameHome (h2 : target ≠ 2) : SameHome s (pfhLine w ln target s va) := by
  rcases pfhLine_cases w ln target s va with e | ⟨pa, ca, -, ⟨-, e⟩ | ⟨-, e⟩ | ⟨two, -⟩⟩
  · exact e.symm ▸ .refl h
  · have read := sameHome_readThrough h ca pa
    rw [e]
    exact read.trans (read.ok.of_homeAs ⟨rfl, rfl, rfl⟩)
  · exact e.symm ▸ sameHome_readThrough h ca pa
  · exact absurd two h2

theorem pfhLine_moves (hl : Claims.CoreCache s w.core) : L1Moves s (pfhLine w ln target s va) w.core w.owner := by
  by_cases h2 : target = 2
  · rcases pfhLine_cases w ln target s va with e | ⟨pa, ca, attr, ⟨other, -⟩ | ⟨other, -⟩ | ⟨-, e⟩⟩
    · exact e.symm ▸ .refl h hl
    · omega
    · omega
    · exact e.symm ▸ l1Fill_moves w.owner h hl attr (lineOf_mod pa)
  · have read := pfhLine_readFrame w ln target s va h2
    exact .of_sameHome h hl (pfhLine_sameHome w ln target va h h2) read.fill read.cores

end

/-- What PFH leaves of a state: the lines it covers prefetched, or the state itself through an unloaded slot or a scratchpad. -/
def pfhDone (sd : SReg) (sb : USrc) (x : Slot) (c : Ctx) (s : State) : State :=
  if loaded (c.slot x.val) && !hScratch (c.slot x.val) then
    (pfhLines c s (c.slot x.val) ((hBase (c.slot x.val) + pairOffset c.g sd) % 2 ^ 64) ((readU c.g sb).toNat % 2 ^ 24)).foldl
      (pfhLine c.w c.ln ((readU c.g sb).toNat / 2 ^ 24 % 4)) s
  else s

theorem execPfh_eq (sd : SReg) (sb : USrc) (x : Slot) (s : State) :
    execPfh sd sb x s = uniform (.pfh sd sb x) (fun c s => .ok (pfhDone sd sb x c s)) s := by
  unfold execPfh pfhDone
  congr 1
  funext c s
  exact (apply_ite Except.ok _ _ _).symm

section
variable (sd : SReg) (sb : USrc) (x : Slot) (c : Ctx) (s : State)

theorem pfhDone_fillFrame : FillFrame s (pfhDone sd sb x c s) := by
  unfold pfhDone
  split
  · exact .foldl (fun s va => pfhLine_fillFrame c.w c.ln _ s va) _ s
  · rfl

theorem pfhDone_readFrame (h2 : (readU c.g sb).toNat / 2 ^ 24 % 4 ≠ 2) : ReadFrame s (pfhDone sd sb x c s) := by
  unfold pfhDone
  split
  · exact .foldl (fun s va => pfhLine_readFrame c.w c.ln _ s va h2) _ s
  · rfl

theorem pfhDone_nothing (h : loaded (c.slot x.val) = false ∨ hScratch (c.slot x.val) = true ∨
    (readU c.g sb).toNat / 2 ^ 24 % 4 = 3) : pfhDone sd sb x c s = s := by
  have skipped (h3 : (readU c.g sb).toNat / 2 ^ 24 % 4 = 3) (vas : List Nat) :
      vas.foldl (pfhLine c.w c.ln ((readU c.g sb).toNat / 2 ^ 24 % 4)) s = s := by
    induction vas with
    | nil => rfl
    | cons va vas ih =>
      rcases pfhLine_cases c.w c.ln ((readU c.g sb).toNat / 2 ^ 24 % 4) s va with e | ⟨_, _, -, ⟨o, -⟩ | ⟨o, -⟩ | ⟨o, -⟩⟩
      · rw [List.foldl_cons, e, ih]
      all_goals omega
  unfold pfhDone
  split
  · next shown =>
    simp only [Bool.and_eq_true, Bool.not_eq_true'] at shown
    rcases h with unloaded | scratch | three
    · rw [unloaded] at shown; cases shown.1
    · rw [scratch] at shown; cases shown.2
    · exact skipped three _
  · rfl

variable {s} (h : CacheOk s)
include h

theorem pfhDone_sameHome (h2 : (readU c.g sb).toNat / 2 ^ 24 % 4 ≠ 2) : SameHome s (pfhDone sd sb x c s) := by
  unfold pfhDone
  split
  · exact SameHome.foldl (fun _ va h => pfhLine_sameHome c.w c.ln _ va h h2) _ h
  · exact .refl h

theorem pfhDone_moves (hl : Claims.CoreCache s c.w.core) : L1Moves s (pfhDone sd sb x c s) c.w.core c.w.owner := by
  unfold pfhDone
  split
  · exact .foldl (fun _ va h hl => pfhLine_moves c.w c.ln _ va h hl) _ h hl
  · exact .refl h hl

end

theorem L1Moves.readLoc {s t : State} {core owner : Nat} (h : L1Moves s t core owner) (g : Group) {pa : Nat} (ca : Nat)
    (hu : Claims.UpToDate s core owner pa) : readLoc t core owner g (.mem pa ca) = readLoc s core owner g (.mem pa ca) := by
  rw [readLoc_mem, readLoc_mem, h.wc, (h.reads pa hu).2]

/-- A frame with the groups and the focus of before, whatever they are now. -/
theorem FillFrame.regrouped {s t : State} (h : FillFrame s t) (gs : List Group) (f : Focus) :
    { ({ t with groups := gs, focus := f } : State) with
      groups := s.groups, focus := s.focus, mem := s.mem, msc := s.msc, l2 := s.l2, cores := s.cores, lineKeys := s.lineKeys } = s := by
  have e := congrArg (fun x : State => { x with groups := s.groups, focus := s.focus }) h
  exact e

theorem SameHome.regrouped {s t : State} (h : SameHome s t) (gs : List Group) (f : Focus) :
    SameHome s { t with groups := gs, focus := f } := h.trans (h.ok.of_homeAs ⟨rfl, rfl, rfl⟩)

end Sys2Proof.Machine

namespace Sys2Proof.Proofs

open Sys2Proof.Machine

/-- Settles O28, by what each step of a prefetch, the dirty bytes that go home included, leaves of every line as its readers see
it. -/
theorem pageRequestAndPrefetch : Obligations.PageRequestAndPrefetch := by
  unfold Obligations.PageRequestAndPrefetch
  refine ⟨fun sd sb x s c off hr hl hb => ?_, fun sd sb x s c hr => ?_⟩
  · dsimp only
    rw [pairOffset_eq]
    have body := pgreqBody_of_loaded (s := s) (sd := sd) hl hb
    dsimp only at body
    have hx : exec (.pgreq sd sb x) s = uniform (.pgreq sd sb x) (fun c s => pgreqBody sd x (readU c.g sb).toNat c s) s := rfl
    refine ⟨fun out stays => ?_, fun inside scratch => ?_, fun inside global => ?_⟩
    · exact uAccepts_of_arrival hx hr (by rw [body, out, stays]; rfl)
    · exact uAccepts_of_arrival hx hr (by rw [body, inside, scratch]; rfl)
    · exact uAccepts_of_acceptOp hx hr (by rw [body, inside, global]; rfl)
  · have frame := pfhDone_fillFrame sd sb x c s
    refine uAccepts_of_groups (execPfh_eq sd sb x s) hr rfl frame.groups (fun gs f => ⟨frame.regrouped gs f, fun past => ?_,
      fun hi hp hc => ⟨fun past => ?_, fun hl => ⟨fun clean => ?_, fun g pa ca upToDate => ?_⟩⟩, fun skipped => ?_⟩)
    · have read := pfhDone_readFrame sd sb x c s past
      exact ⟨read.cores, read.lineKeys⟩
    · have h := cacheOk_of_claims hi hp hc
      have same := pfhDone_sameHome sd sb x c h past
      exact (same.regrouped gs f).homeByte h
    · have h := cacheOk_of_claims hi hp hc
      have same := ((pfhDone_moves sd sb x c h hl).clean clean).1
      exact (same.regrouped gs f).homeByte h
    · exact (pfhDone_moves sd sb x c (cacheOk_of_claims hi hp hc) hl).readLoc g ca upToDate
    · rw [pfhDone_nothing sd sb x c s skipped]
      exact sameElsewhere_regrouped s gs f

end Sys2Proof.Proofs

/-! SUPPORT. What the accesses that a load waits for, and its watches, leave of groups and workgroups (R255, R297, R348). -/

namespace Sys2Proof.Machine

/-! ## The frame of draining -/

/-- A group without what a drain takes effect on: its FIFO, the WSKIP of its lanes, and the waits that end. -/
def Group.undrained (g : Group) : Group := { g with fifo := [], wskip := [], holds := [] }

/-- A workgroup without the bytes of its scratchpad. -/
def Wg.undrained (w : Wg) : Wg := { w with scratch := [] }

/-- The groups of `t` are those of `s` but for FIFO, WSKIP and holds, and its workgroups are those of `s` but for the bytes of
their scratchpads. -/
structure DrainFrame (s t : State) : Prop where
  groups : t.groups.map Group.undrained = s.groups.map Group.undrained
  wgs : t.wgs.map Wg.undrained = s.wgs.map Wg.undrained

theorem map_updateIf {α β : Type} {v : α → β} {f : α → α} (hf : ∀ a, v (f a) = v a) (p : α → Bool) (l : List α) :
    (updateIf p f l).map v = l.map v := by
  rw [updateIf, List.map_map]
  refine List.map_congr_left fun a _ => ?_
  rw [Function.comp_apply, apply_ite v, hf, ite_self]

/-- Lists with one view agree, through it, on the first element of which something that the view shows holds. -/
theorem find_of_map_eq {α : Type} {v : α → α} {p : α → Bool} (hp : ∀ a, p (v a) = p a) {l l' : List α}
    (h : l'.map v = l.map v) :
    (l'.find? p).map v = (l.find? p).map v := by
  have view (m : List α) : (m.map v).find? p = (m.find? p).map v := by
    rw [List.find?_map, show p ∘ v = p from funext hp]
  rw [← view, ← view, h]

theorem undrained_dropSkips (g : Group) (pc : DWord) (ls : List Nat) : (dropSkips g pc ls).undrained = g.undrained := by
  unfold dropSkips
  split <;> rfl

namespace DrainFrame

theorem refl (s : State) : DrainFrame s s := ⟨rfl, rfl⟩

section
variable {s t : State} (h : DrainFrame s t)
include h

/-! ### What it says of one group and one workgroup -/

theorem findGroup (k : GKey) : (findGroup t k).map Group.undrained = (findGroup s k).map Group.undrained :=
  find_of_map_eq (v := Group.undrained) (p := fun g => g.key = k) (fun _ => rfl) h.groups

theorem findWg (uid : Nat) : (findWg t uid).map Wg.undrained = (findWg s uid).map Wg.undrained :=
  find_of_map_eq (v := Wg.undrained) (p := fun w => w.uid = uid) (fun _ => rfl) h.wgs

theorem group {k : GKey} {g : Group} (hg : Machine.findGroup s k = some g) :
    ∃ g', Machine.findGroup t k = some g' ∧ g'.undrained = g.undrained := by
  have e := h.findGroup k
  rw [hg, Option.map_some] at e
  exact Option.map_eq_some_iff.mp e

theorem wg {uid : Nat} {w : Wg} (hw : Machine.findWg s uid = some w) :
    ∃ w', Machine.findWg t uid = some w' ∧ w'.undrained = w.undrained := by
  have e := h.findWg uid
  rw [hw, Option.map_some] at e
  exact Option.map_eq_some_iff.mp e

theorem othersKeep (k : GKey) : OthersKeep s t k := by
  intro k' _
  have e := congrArg (Option.map fun g : Group => (g.lanes, g.s, g.fps, g.eop)) (h.findGroup k')
  rw [Option.map_map, Option.map_map] at e
  exact e

/-! ### The functions of the model that keep it -/

theorem congr {u : State} (hg : u.groups = t.groups) (hw : u.wgs = t.wgs) : DrainFrame s u :=
  ⟨hg ▸ h.groups, hw ▸ h.wgs⟩

theorem memoryOnly {u : State} (m : MemoryOnly t u) : DrainFrame s u := h.congr m.groups m.wgs

theorem fill {u : State} (f : FillFrame t u) : DrainFrame s u := h.congr f.groups (congrArg State.wgs f :)

omit h in
theorem foldl {α : Type} {f : State → α → State} {l : List α} (hf : ∀ t a, DrainFrame s t → DrainFrame s (f t a))
    (h : DrainFrame s t) : DrainFrame s (l.foldl f t) := foldl_keeps hf h

theorem after_updGroup {k : GKey} {f : Group → Group} (hf : ∀ g, (f g).undrained = g.undrained) :
    DrainFrame s (updGroup t k f) := ⟨(map_updateIf hf ..).trans h.groups, h.wgs⟩

theorem after_scratchSet (uid off : Nat) (b : Byte) : DrainFrame s (scratchSet t uid off b) :=
  ⟨h.groups, (map_updateIf (fun _ => by rfl) ..).trans h.wgs⟩

theorem after_setCore (core : Nat) (x : Core) : DrainFrame s (setCore t core x) := h.congr rfl rfl

theorem after_updOp (id : Nat) (f : Op → Op) : DrainFrame s (updOp t id f) := h.congr rfl rfl

/-! ### Mem -/

theorem after_homeSet (key : BitVec 512) (ca pa : Nat) (b : Byte) : DrainFrame s (homeSet t key ca pa b) :=
  h.memoryOnly (memoryOnly_homeSet ..)

theorem after_readThrough (ca pa : Nat) : DrainFrame s (readThrough t ca pa) := h.memoryOnly (memoryOnly_readThrough ..)

theorem after_l2Touch (owner base : Nat) : DrainFrame s (l2Touch t owner base) := h.congr rfl rfl

theorem after_l2TouchAll (owner : Nat) (ls : List Nat) : DrainFrame s (l2TouchAll t owner ls) :=
  h.fill (fillFrame_l2TouchAll ..)

theorem after_l1Drop (core base : Nat) : DrainFrame s (l1Drop t core base) := h.fill (fillFrame_l1Drop ..)

theorem after_l1WriteBackAll (core : Nat) : DrainFrame s (l1WriteBackAll t core) :=
  (foldl (fun _ l h => h.fill (fillFrame_l1WriteBack _ l)) h).after_setCore ..

theorem after_l1DropAll (core : Nat) : DrainFrame s (l1DropAll t core) := foldl (fun _ _ h => h.after_l1Drop ..) h

theorem after_l1Fill (core owner ca base : Nat) : DrainFrame s (l1Fill t core owner ca base) := h.fill (fillFrame_l1Fill ..)

theorem after_updL1 (core : Nat) (p : L1Line → Bool) (f : L1Line → L1Line) : DrainFrame s (updL1 t core p f) :=
  h.after_setCore ..

theorem after_l1Mend (core : Nat) (ls : List Loc) : DrainFrame s (l1Mend t core ls) := foldl (fun _ _ h => h.after_updL1 ..) h

theorem after_l1Note (core owner : Nat) (b : StoreByte) : DrainFrame s (l1Note t core owner b) := by
  unfold l1Note
  split
  · exact h
  · exact h.after_updL1 ..

theorem after_wcByteOut (core owner : Nat) (b : StoreByte) : DrainFrame s (wcByteOut t core owner b) := by
  unfold wcByteOut
  split
  · exact h
  · exact (h.after_homeSet ..).after_l1Note ..

theorem after_wcEntryOut (core : Nat) (e : WcEntry) : DrainFrame s (wcEntryOut t core e) :=
  ((foldl (fun _ _ h => h.after_wcByteOut ..) h).after_l2TouchAll ..).after_setCore ..

theorem after_wcOutRange (core lo hi : Nat) : DrainFrame s (wcOutRange t core lo hi) :=
  foldl (fun _ _ h => h.after_wcEntryOut ..) h

theorem after_touchLocs (core owner : Nat) (ls : List Loc) : DrainFrame s (touchLocs t core owner ls) :=
  foldl (fun _ _ h => h.after_l1Fill ..) h

theorem after_touchHome (core owner : Nat) (ls : List Loc) : DrainFrame s (touchHome t core owner ls) := by
  refine foldl (fun u p h => ?_) (h.after_l1Mend ..)
  have written := h.after_wcOutRange core p.1 (p.1 + 256)
  refine ((?_ : DrainFrame s _).after_readThrough ..).after_l2Touch ..
  split
  · exact ite_keeps written (written.after_l1Drop ..)
  · exact written

theorem after_storeByteOut (core owner : Nat) (b : StoreByte) : DrainFrame s (storeByteOut t core owner b) := by
  unfold storeByteOut
  split
  · exact h.after_scratchSet ..
  · exact ((h.after_wcOutRange ..).after_l1Fill ..).after_updL1 ..

theorem after_engineSetAll (cl owner : Nat) (bs : List StoreByte) : DrainFrame s (engineSetAll t cl owner bs) := by
  have dropped : DrainFrame s ((memLines bs).foldl (fun s l => clusterDrop s cl l) t) :=
    foldl (fun _ _ h => foldl (fun _ _ h => (h.after_wcOutRange ..).after_l1Drop ..) h) h
  refine (foldl (fun u b h => ?_) dropped).after_l2TouchAll ..
  unfold engineByteOut
  split
  · exact h.after_scratchSet ..
  · exact h.after_homeSet ..

/-! ### Rounds -/

theorem after_finishOp (id : Nat) (via : List Via) : DrainFrame s (finishOp t id via) := by
  unfold finishOp
  split
  · exact h
  · split <;> exact ite_keeps (h.congr rfl rfl) (h.congr rfl rfl)

/-! ### Collector operations -/

theorem after_collDrop (core id : Nat) : DrainFrame s (collDrop t core id) :=
  ⟨(map_updateIf (fun _ => by rfl) ..).trans h.groups, h.wgs⟩

theorem after_collPerform (w : Wg) (o : Op) : DrainFrame s (collPerform t w o) := by
  unfold collPerform
  split
  · exact (((h.memoryOnly (memoryOnly_clearPoisonFor ..)).after_engineSetAll ..).after_collDrop ..).after_finishOp ..
  · exact ((h.after_touchHome ..).after_collDrop ..).after_updOp ..
  · exact h

theorem after_flushScats (k : GKey) (upto : Nat) : DrainFrame s (flushScats t k upto) := by
  unfold flushScats
  split
  · exact h
  · exact foldl (fun _ _ h => ite_keeps h (h.after_collPerform ..)) h

/-! ### Stores that leave the FIFO -/

theorem after_releaseByteOut (core owner : Nat) (b : StoreByte) : DrainFrame s (releaseByteOut t core owner b) := by
  unfold releaseByteOut
  split
  · exact h.after_scratchSet ..
  · exact ((h.after_wcOutRange ..).after_l1Drop ..).after_homeSet ..

theorem after_entryOut (k : GKey) (w : Wg) (op : Nat) (nt : Bool) (rel : Option Scope) (bs : List StoreByte) :
    DrainFrame s (entryOut t k w op nt rel bs) := by
  unfold entryOut
  split
  · exact (foldl (fun _ _ h => h.after_l1Drop ..) h).after_setCore ..
  · split
    · exact (foldl (fun _ _ h => h.after_releaseByteOut ..) (h.after_l1WriteBackAll _)).after_l2TouchAll ..
    · exact foldl (fun _ _ h => h.after_storeByteOut ..) h

theorem after_storeHalf (op : Nat) : DrainFrame s (storeHalf t op) := by
  unfold storeHalf
  split
  · split
    · exact ite_keeps (h.after_finishOp ..) (h.after_updOp ..)
    · exact h
  · exact h

theorem after_storeLeft (op : Nat) : DrainFrame s (storeLeft t op) := by
  unfold storeLeft
  split
  · split
    · exact foldl (fun _ _ h => h.after_storeHalf _) (h.after_finishOp ..)
    · exact h.after_storeHalf _
  · exact h

/-! ### Atomics -/

theorem after_locSetBytes (owner : Nat) (l : Loc) (bs : List Byte) : DrainFrame s (locSetBytes t owner l bs) := by
  unfold locSetBytes
  split
  · exact foldl (fun _ _ h => h.after_scratchSet ..) h
  · exact h.memoryOnly (memoryOnly_ownSetBytes ..)

theorem after_atomReady (core owner : Nat) (rel : Option Scope) (l : Loc) : DrainFrame s (atomReady t core owner rel l) := by
  have released : DrainFrame s (if wideOpt rel then l1WriteBackAll t core else t) := ite_keeps (h.after_l1WriteBackAll _) h
  unfold atomReady
  dsimp only
  split
  · exact released
  · exact (((released.after_wcOutRange ..).after_l1Drop ..).after_readThrough ..).after_l2Touch ..

theorem after_performReq (w : Wg) (op : Nat) (a : Atomic) (r : Nat) : DrainFrame s (performReq t w op a r) := by
  unfold performReq
  split
  · exact h
  · exact (foldl (fun _ _ h => h.after_l1Note ..)
      ((ite_keeps h (h.after_atomReady ..) : DrainFrame s (ite ..)).after_locSetBytes ..)).after_updOp ..

theorem after_atomicDone (k : GKey) (w : Wg) (op : Nat) (a : Atomic) : DrainFrame s (atomicDone t k w op a) := by
  have taken := h.after_updGroup (k := k)
    (f := fun g => { g with fifo := g.fifo.filter (fun e => e ≠ .atomic op) }) (fun _ => rfl)
  have acquired := ite_keeps (c := wideOpt a.acqScope = true) (taken.after_l1DropAll w.core) taken
  unfold atomicDone
  dsimp only
  split
  · exact acquired.after_updOp ..
  · exact acquired.after_finishOp ..

theorem after_atomicSettle (k : GKey) (w : Wg) (op : Nat) : DrainFrame s (atomicSettle t k w op) := by
  unfold atomicSettle
  split
  · split
    · exact ite_keeps (h.after_atomicDone ..) h
    · exact h
  · exact h

theorem after_performOne (op r : Nat) : DrainFrame s (performOne t op r) := by
  unfold performOne
  split
  · exact h
  · split
    · exact ite_keeps ((h.after_performReq ..).after_atomicSettle ..) h
    · exact h

theorem after_performAll (op n : Nat) : DrainFrame s (performAll t op n) := by
  induction n with
  | zero => exact h
  | succ n ih => exact ih.after_performOne ..

theorem after_drainAtomic (k : GKey) (op : Nat) : DrainFrame s (drainAtomic t k op) :=
  (ite_keeps (h.after_flushScats ..) h : DrainFrame s (ite ..)).after_performAll ..

theorem after_settlePassed (core : Nat) (k : GKey) (ls : List Loc) : DrainFrame s (settlePassed t core k ls) := by
  refine foldl (fun u o h => ?_) h
  split
  · exact h
  · exact foldl (fun _ _ h => h.after_drainAtomic ..) h

/-! ### Draining a FIFO -/

theorem after_retireStore {k : GKey} {u : State} (hu : retireStore t k = some u) : DrainFrame s u := by
  unfold retireStore at hu
  split at hu
  · split at hu
    · split at hu
      · cases hu
      · cases hu
        exact ((((h.after_settlePassed ..).after_updGroup fun _ => by rfl).after_entryOut ..).after_storeLeft ..)
    · cases hu
  · cases hu

theorem after_drainOne (k : GKey) : DrainFrame s (drainOne t k) := by
  unfold drainOne
  split
  · split
    · exact h
    · next op nt rel bs _ _ =>
      have flushed := ite_keeps (c := scatBlocks t k (.store op nt rel bs) = true) (h.after_flushScats k op) h
      dsimp only
      generalize (if scatBlocks t k (.store op nt rel bs) = true then flushScats t k op else t) = u at flushed
      cases hu : retireStore u k with
      | none => exact flushed
      | some v => exact flushed.after_retireStore hu
    · exact (h.after_settlePassed ..).after_drainAtomic ..
  · exact h

omit h in
theorem after_drainN (h : DrainFrame s t) (k : GKey) (n : Nat) : DrainFrame s (drainN t k n) := by
  induction n generalizing t with
  | zero => exact h
  | succ n ih => exact ih (h.after_drainOne k)

theorem after_drainBelow (k : GKey) (upto : Nat) : DrainFrame s (drainBelow t k upto) := by
  unfold drainBelow
  split
  · exact h
  · exact h.after_drainN ..

theorem after_settleScats (k : GKey) (us : List (Nat × Nat)) : DrainFrame s (settleScats t k us) := by
  unfold settleScats
  split
  · exact h
  · exact (h.after_drainBelow ..).after_flushScats ..

theorem after_drainFifo (k : GKey) : DrainFrame s (drainFifo t k) := by
  unfold drainFifo
  split
  · exact h
  · exact h.after_drainN ..

/-! ### LanePath -/

theorem after_settleFor (c : Ctx) (ls : List Loc) : DrainFrame s (settleFor c t ls) := by
  have settled := (h.after_settleScats c.g.key (ls.map Loc.unit)).after_settlePassed c.w.core c.g.key ls
  exact ite_keeps (settled.after_drainFifo _) settled

theorem after_bindWide (c : Ctx) (wide : Bool) (ls : List Loc) : DrainFrame s (bindWide c t wide ls) := by
  have bound := (h.after_settleFor c ls).after_touchLocs c.w.core c.w.owner ls
  exact ite_keeps (bound.after_l1Mend ..) bound

end

end DrainFrame

/-! ## The checks of a load as they pass -/

/-- Something holds of what a computation gives, where it does not stop. -/
def OnOk {α : Type} (P : α → Prop) : Except Stop α → Prop
  | .ok a => P a
  | .error _ => True

namespace OnOk

variable {α β : Type} {P : α → Prop} {Q : β → Prop}

theorem ok {a : α} (h : P a) : OnOk P (.ok a) := h

theorem error (e : Stop) : OnOk P (.error e) := trivial

theorem of_ok {r : Except Stop α} (h : OnOk P r) {a : α} (e : r = .ok a) : P a := by
  subst e
  exact h

theorem bind {r : Except Stop α} {k : α → Except Stop β} (hr : OnOk P r) (hk : ∀ a, P a → OnOk Q (k a)) : OnOk Q (r >>= k) := by
  cases r with
  | ok a => exact hk a hr
  | error e => exact error e

/-- Of a check only its passing matters. -/
theorem check {r : Except Stop α} {k : α → Except Stop β} (hk : ∀ a, OnOk Q (k a)) : OnOk Q (r >>= k) := by
  cases r with
  | ok a => exact hk a
  | error e => exact error e

theorem thereafter {r : Except Stop α} (h : OnOk P r) (s : State) : OnOk P (thereafter s r) := by
  unfold Machine.thereafter
  split
  · exact error _
  · exact error _
  · exact h

theorem wholePop {r : Except Stop α} (h : OnOk P r) : OnOk P (wholePop r) := by
  unfold Machine.wholePop
  split
  · exact error _
  · exact error _
  · exact h

end OnOk

namespace DrainFrame

variable {s t : State} (h : DrainFrame s t)
include h

theorem onOk_watchStep (c : Ctx) (els : List WatchEl) : OnOk (DrainFrame s) (watchStep c t els) := by
  unfold watchStep
  split
  · exact .ok h
  · dsimp only
    split
    · exact .ok (h.after_updGroup fun g => undrained_dropSkips g c.pc c.act)
    · exact .error _

theorem onOk_observe (g : Group) (p : JoinHit → Bool) : OnOk (DrainFrame s) (observe t g p) := by
  unfold observe
  dsimp only
  split
  · exact .ok h
  · split
    · exact .ok (h.congr rfl rfl)
    · split
      · exact .ok h
      · exact .error _

theorem onOk_observeParked (c : Ctx) (hd : Handle) (runs : List Run) : OnOk (DrainFrame s) (observeParked c t hd runs) :=
  ite_keeps (h.onOk_observe ..) (.ok h)

theorem onOk_reachRead (c : Ctx) (hd : Handle) (tolerate : Bool) (runs : List Run) :
    OnOk (DrainFrame s) (reachRead c t hd tolerate runs) :=
  .thereafter (.check fun _ => .ok (h.after_settleFor ..)) _

theorem onOk_tableRun (c : Ctx) (hd : Handle) (i n align : Nat) :
    OnOk (fun r => DrainFrame s r.2) (tableRun c t hd i n align) := by
  refine .wholePop ?_
  split
  · exact .error _
  · refine .check fun _ => ite_keeps (.check fun _ => ?_) ?_
    all_goals
      exact (h.onOk_reachRead ..).bind fun _ h => ((h.onOk_watchStep ..).thereafter _).bind fun _ h =>
        (h.onOk_observeParked ..).bind fun _ h => .ok h

theorem after_tableBytes (c : Ctx) (hd : Handle) (a n : Nat) : DrainFrame s (tableBytes c t hd a n).2 :=
  h.after_bindWide c true _

end DrainFrame

end Sys2Proof.Machine

/-! SUPPORT. The instructions of the handle table (R97–R99), and the settlement of O26. -/

namespace Sys2Proof.Machine

/-! ## Writing a slot -/

theorem findWg_setSlot {s : State} {uid : Nat} {w : Wg} (hw : findWg s uid = some w) (x : Nat) (h : Handle) :
    findWg (setSlot s uid x h) uid = some { w with handles := mapSet 0 w.handles x h } := by
  have self : w.uid = uid := by simpa using List.find?_some hw
  have found := find_updateIf (fun w : Wg => w.uid = uid) (fun w => w.uid = uid)
    (fun w => { w with handles := mapSet 0 w.handles x h }) s.wgs (fun _ => rfl)
  rw [show s.wgs.find? (fun w => w.uid = uid) = some w from hw, Option.map_some, if_pos (by simpa using self)] at found
  exact found

/-- The workgroup of an issue. -/
theorem focusCtx_wg {s : State} {n : Nat} {c : Ctx} (h : focusCtx s n = some c) : findWg s c.w.uid = some c.w := by
  obtain ⟨-, -, -, -, -, -, hw, -⟩ := focusCtx_group h
  have uid : c.w.uid = c.g.key.wg := by simpa using List.find?_some hw
  rw [uid, hw]

/-- A U-set instruction that, after what it waits for, writes one slot of its workgroup's table. -/
theorem uAccepts_of_setSlot {i : Instr} {body : Ctx → State → Except Stop State} {s t : State} {c : Ctx} {x : Nat} {d : Handle}
    (hx : exec i s = uniform i body s) (hr : Stands s c i.len) (frame : DrainFrame s t)
    (hb : body c s = .ok (setSlot t c.w.uid x d)) :
    UAccepts i s c id (fun t => Claims.WgIs t c.w.uid (fun w => w.handles = mapSet 0 c.w.handles x d)) := by
  obtain ⟨found, -⟩ := focusCtx_group hr.ctx
  obtain ⟨g, found', same⟩ := frame.group found
  obtain ⟨w, foundWg, sameWg⟩ := frame.wg (focusCtx_wg hr.ctx)
  have handles : w.handles = c.w.handles := (congrArg Wg.handles sameWg :)
  have but : SameBut c.g g := by
    have e := congrArg (fun y : Group => { y with
      lanes := c.g.lanes, eop := c.g.eop, parks := c.g.parks, waited := c.g.waited, wskip := c.g.wskip, fifo := c.g.fifo
      issued := c.g.issued, holds := c.g.holds, half := c.g.half, openPst := c.g.openPst }) same
    exact e
  have eop : g.eop = c.g.eop := (congrArg Group.eop same :)
  have lanes : g.lanes = c.g.lanes := (congrArg Group.lanes same :)
  have others : OthersKeep s (setSlot t c.w.uid x d) c.g.key := frame.othersKeep c.g.key
  exact uAccepts_of_body hx hr hb found' but eop lanes others
    (fun _ _ => ⟨_, findWg_setSlot foundWg x d, handles ▸ rfl⟩)

/-! ## The bodies, their checks passed -/

/-- HQRY on the state of an issue: the item of the slot goes to s(sd) (R99). -/
def hqryBody (sd : SReg) (sb : USrc) (x : Slot) (c : Ctx) (s : State) : Except Stop State :=
  match hqryItem (c.slot x.val) (readU c.g sb).toNat with
  | none => trapAll cOperand 3
  | some n => .ok (updGroup s c.g.key (fun g => g.setS sd.val (BitVec.ofNat 32 n)))

theorem exec_hqry (sd : SReg) (sb : USrc) (x : Slot) (s : State) :
    exec (.hqry sd sb x) s = uniform (.hqry sd sb x) (hqryBody sd sb x) s := rfl

section
variable {sd : SReg} {sb : USrc} {x : Slot} {src sel : Word} {c : Ctx} {s : State}

/-- HLOAD writes what it reads, an unloaded descriptor as zeros (R97). -/
theorem hloadBody_ok {h : Handle} {a : Nat} {s₁ : State} (hs : tableSource c src.toNat true = .ok h)
    (hr : tableRun c s h (c.g.sreg sd.val).toNat 128 128 = .ok (a, s₁)) {d : Handle}
    (hd : BitVec.ofNat 1024 (ofBytes (tableBytes c s₁ h a 128).1) = d) (hf : loaded d = true → handleFault d = none) :
    hloadBody sd x src c s = .ok (setSlot (tableBytes c s₁ h a 128).2 c.w.uid x.val (if loaded d = true then d else 0)) := by
  simp only [hloadBody, hs, hr, hd, bind, Except.bind]
  cases hl : loaded d with
  | true => simp only [if_true, hf hl]
  | false => rfl

/-- HADJ writes the adjusted descriptor of a loaded slot (R98). -/
theorem hadjBody_ok {d : Handle} (he : sel.toNat = 0 → sd.val % 2 = 0)
    (ha : adjusted (c.slot x.val) sel.toNat (c.g.sreg sd.val) (c.g.sreg (sd.val + 1)) = some d)
    (hl : loaded (c.slot x.val) = true) (hf : handleFault d = none) :
    hadjBody sd x sel c s = .ok (setSlot s c.w.uid x.val d) := by
  have even : (!(sel == 0 && sd.val % 2 == 1)) = true := by
    by_cases h0 : sel = 0
    · simp [he (congrArg BitVec.toNat h0)]
    · rw [beq_eq_false_iff_ne.mpr h0]
      rfl
  simp only [hadjBody, even, ha, hf, Ctx.handle, demand, hl, if_true, bind, Except.bind]

theorem hqryBody_ok {n : Nat} (h : hqryItem (c.slot x.val) (readU c.g sb).toNat = some n) :
    hqryBody sd sb x c s = .ok (updGroup s c.g.key (fun g => g.setS sd.val (BitVec.ofNat 32 n))) := by
  simp only [hqryBody, h]

end

end Sys2Proof.Machine

namespace Sys2Proof.Proofs

open Sys2Proof.Machine

/-- Settles O26: HLOAD by what the accesses that its read waits for leave of groups and handle tables, HADJ by the one slot that it
writes, HQRY by the one scalar register. -/
theorem handleTableInstructions : Obligations.HandleTableInstructions := by
  unfold Obligations.HandleTableInstructions
  refine ⟨fun sd sb x s c h a s₁ stands source run => ?_, fun sd sb x s c d stands even field isLoaded valid => ?_,
    fun sd sb x s c n stands item => ?_⟩
  · intro d valid
    have frame : DrainFrame s s₁ := ((DrainFrame.refl s).onOk_tableRun ..).of_ok run
    exact uAccepts_of_setSlot rfl stands (frame.after_tableBytes c h a 128) (hloadBody_ok source run rfl valid)
  · exact uAccepts_of_groups rfl stands (hadjBody_ok even field isLoaded valid) rfl (fun gs f => sameElsewhere_regrouped _ gs f)
  · exact uniform_done (f := fun g => g.setS sd.val (BitVec.ofNat 32 n)) (exec_hqry sd sb x s) stands (hqryBody_ok item)
      (fun _ => rfl)

end Sys2Proof.Proofs

/-! SUPPORT. Every step keeps the tables of the state canonical (O60, log entry 7). `Kept r s` says that the tables of `s` are canonical
and that nothing in them is new but what has taken an identity since `r`: an identity that was given out in `r` still belongs to the
operation of the same group, or to the same workgroup. One lemma per function of the model, in the order of the model's files: from
`Kept r s` it concludes `Kept r` of every state that the function returns. -/

namespace Sys2Proof.Machine

set_option Elab.async false

/-! ## Canonical tables -/

/-- What tells an operation from all others, and the group to which it belongs. -/
def Op.ident (o : Op) : Nat × GKey := (o.id, o.grp)

/-- The scratchpad and the accumulator of a workgroup are listed in canonical form. -/
def Wg.StoresWf (w : Wg) : Prop := mapWf 0 w.scratch = true ∧ mapWf 0 w.acc = true

/-- Identity `id` has been given out among these operations, and to no operation of a group other than `k`. -/
def OwnedBy (seq : Nat) (ops : List Op) (k : GKey) (id : Nat) : Prop := id < seq ∧ ∀ o ∈ ops, o.id = id → o.grp = k

/-- The tables are canonical, and what of them has an identity older than `r` was there in `r`. It speaks of the tables alone,
so that a write of another field keeps it as it is. -/
structure KeptOf (r : State) (seq : Nat) (ops : List Op) (wgs : List Wg) (groups : List Group) (cores : List (Nat × Core))
    (clusters : List (Nat × Cluster)) : Prop where
  ids : ∀ o ∈ ops, o.id < seq
  apart : (ops.map (·.id)).Nodup
  uids : ∀ w ∈ wgs, w.uid < seq
  wgsApart : (wgs.map (·.uid)).Nodup
  fifos : ∀ g ∈ groups, ∀ e ∈ g.fifo, OwnedBy seq ops g.key e.op
  cores : mapWf Core.empty cores = true
  clusters : mapWf Cluster.empty clusters = true
  stores : ∀ w ∈ wgs, w.StoresWf
  later : r.seq ≤ seq
  oldOps : ∀ o ∈ ops, o.id < r.seq → ∃ o' ∈ r.ops, o'.ident = o.ident
  oldWgs : ∀ w ∈ wgs, w.uid < r.seq → ∃ w' ∈ r.wgs, w'.uid = w.uid

/-- The tables of `s` are canonical, and nothing older than `r` is new in them. -/
def Kept (r s : State) : Prop := KeptOf r s.seq s.ops s.wgs s.groups s.cores s.clusters

/-- Identity `id` has been given out, and to no operation of another group. -/
def Owns (s : State) (k : GKey) (id : Nat) : Prop := OwnedBy s.seq s.ops k id

theorem Canon.kept {s : State} (h : Canon s) : Kept s s :=
  ⟨h.ids, h.apart, h.uids, h.wgsApart, h.fifos, h.cores, h.clusters, h.stores, Nat.le_refl _, fun o ho _ => ⟨o, ho, rfl⟩,
    fun w hw _ => ⟨w, hw, rfl⟩⟩

theorem Kept.canon {r s : State} (h : Kept r s) : Canon s :=
  ⟨h.ids, h.apart, h.uids, h.wgsApart, h.fifos, h.cores, h.clusters, h.stores⟩

theorem Kept.self {r s : State} (h : Kept r s) : Kept s s := h.canon.kept

theorem Kept.trans {r s t : State} (h : Kept r s) (h' : Kept s t) : Kept r t where
  ids := h'.ids
  apart := h'.apart
  uids := h'.uids
  wgsApart := h'.wgsApart
  fifos := h'.fifos
  cores := h'.cores
  clusters := h'.clusters
  stores := h'.stores
  later := Nat.le_trans h.later h'.later
  oldOps o ho hid := by
    obtain ⟨o₁, ho₁, e₁⟩ := h'.oldOps o ho (Nat.lt_of_lt_of_le hid h.later)
    obtain ⟨o₂, ho₂, e₂⟩ := h.oldOps o₁ ho₁ (by rw [show o₁.id = o.id from congrArg Prod.fst e₁]; exact hid)
    exact ⟨o₂, ho₂, e₂.trans e₁⟩
  oldWgs w hw hid := by
    obtain ⟨w₁, hw₁, e₁⟩ := h'.oldWgs w hw (Nat.lt_of_lt_of_le hid h.later)
    obtain ⟨w₂, hw₂, e₂⟩ := h.oldWgs w₁ hw₁ (by rw [e₁]; exact hid)
    exact ⟨w₂, hw₂, e₂.trans e₁⟩

/-- What an identity belonged to in `r` it belongs to later. -/
theorem Kept.owns {r s : State} {k : GKey} {id : Nat} (h : Kept r s) (ho : Owns r k id) : Owns s k id := by
  refine ⟨Nat.lt_of_lt_of_le ho.1 h.later, fun o hmem e => ?_⟩
  obtain ⟨o', hmem', e'⟩ := h.oldOps o hmem (e ▸ ho.1)
  rw [← show o'.grp = o.grp from congrArg Prod.snd e']
  exact ho.2 o' hmem' ((congrArg Prod.fst e').trans e)

namespace KeptOf

section
variable {r : State} {seq : Nat} {ops : List Op} {wgs : List Wg} {groups : List Group} {cores : List (Nat × Core)}
  {clusters : List (Nat × Cluster)}

/-- Operations may leave the table, and those that stay may change in all but their identity and group. -/
theorem withOps {ops' : List Op} (h : KeptOf r seq ops wgs groups cores clusters)
    (hsub : (ops'.map Op.ident).Sublist (ops.map Op.ident)) : KeptOf r seq ops' wgs groups cores clusters := by
  have hmem : ∀ o ∈ ops', ∃ o' ∈ ops, o'.ident = o.ident := fun o ho =>
    List.mem_map.1 (hsub.subset (List.mem_map_of_mem ho))
  refine { h with ids := ?_, apart := ?_, fifos := ?_, oldOps := ?_ }
  · intro o ho
    obtain ⟨o', ho', e⟩ := hmem o ho
    rw [← show o'.id = o.id from congrArg Prod.fst e]
    exact h.ids o' ho'
  · have hs := (hsub.map Prod.fst).nodup (l₂ := _) (by rw [List.map_map]; exact h.apart)
    rw [List.map_map] at hs
    exact hs
  · intro g hg e he
    refine ⟨(h.fifos g hg e he).1, fun o ho hid => ?_⟩
    obtain ⟨o', ho', eo⟩ := hmem o ho
    rw [← show o'.grp = o.grp from congrArg Prod.snd eo]
    exact (h.fifos g hg e he).2 o' ho' ((congrArg Prod.fst eo).trans hid)
  · intro o ho hid
    obtain ⟨o', ho', e⟩ := hmem o ho
    obtain ⟨o₂, ho₂, e₂⟩ := h.oldOps o' ho' (by rw [show o'.id = o.id from congrArg Prod.fst e]; exact hid)
    exact ⟨o₂, ho₂, e₂.trans e⟩

theorem filterOps {p : Op → Bool} (h : KeptOf r seq ops wgs groups cores clusters) :
    KeptOf r seq (ops.filter p) wgs groups cores clusters := h.withOps (List.filter_sublist.map _)

theorem updateOps {p : Op → Bool} {f : Op → Op} (h : KeptOf r seq ops wgs groups cores clusters)
    (hf : ∀ o, (f o).ident = o.ident := by exact fun _ => rfl) : KeptOf r seq (updateIf p f ops) wgs groups cores clusters := by
  have e : (updateIf p f ops).map Op.ident = ops.map Op.ident := by
    unfold updateIf
    rw [List.map_map]
    refine List.map_congr_left fun o _ => ?_
    show Op.ident (if p o then f o else o) = o.ident
    split
    · exact hf o
    · rfl
  exact h.withOps (e ▸ List.Sublist.refl _)

/-- Identities may have been given out. -/
theorem withSeq {seq' : Nat} (h : KeptOf r seq ops wgs groups cores clusters) (hle : seq ≤ seq') :
    KeptOf r seq' ops wgs groups cores clusters :=
  { h with
    ids := fun o ho => Nat.lt_of_lt_of_le (h.ids o ho) hle
    uids := fun w hw => Nat.lt_of_lt_of_le (h.uids w hw) hle
    fifos := fun g hg e he => ⟨Nat.lt_of_lt_of_le (h.fifos g hg e he).1 hle, (h.fifos g hg e he).2⟩
    later := Nat.le_trans h.later hle }

/-- An operation may join the table under the next identity. -/
theorem withOp {o : Op} (h : KeptOf r seq ops wgs groups cores clusters) (ho : o.id = seq) :
    KeptOf r (seq + 1) (ops ++ [o]) wgs groups cores clusters := by
  have hs := h.withSeq (Nat.le_succ seq)
  refine { hs with ids := ?_, apart := ?_, fifos := ?_, oldOps := ?_ }
  · intro x hx
    rcases List.mem_append.1 hx with hx | hx
    · exact hs.ids x hx
    · obtain rfl := List.mem_singleton.1 hx
      omega
  · rw [List.map_append]
    refine List.nodup_append.2 ⟨h.apart, List.nodup_singleton _, ?_⟩
    intro a ha b hb
    obtain ⟨x, hx, rfl⟩ := List.mem_map.1 ha
    obtain rfl := List.mem_singleton.1 hb
    exact Nat.ne_of_lt (show x.id < o.id by rw [ho]; exact h.ids x hx)
  · intro g hg e he
    refine ⟨(hs.fifos g hg e he).1, fun x hx hid => ?_⟩
    rcases List.mem_append.1 hx with hx | hx
    · exact (h.fifos g hg e he).2 x hx hid
    · obtain rfl := List.mem_singleton.1 hx
      have := (h.fifos g hg e he).1
      omega
  · intro x hx hid
    rcases List.mem_append.1 hx with hx | hx
    · exact h.oldOps x hx hid
    · obtain rfl := List.mem_singleton.1 hx
      have := h.later
      omega

/-- Groups may come and go as long as their FIFOs hold nothing that no group of the same key held. -/
theorem withGroups {gs : List Group} (h : KeptOf r seq ops wgs groups cores clusters)
    (hg : ∀ g ∈ gs, ∀ e ∈ g.fifo, ∃ g' ∈ groups, g'.key = g.key ∧ e ∈ g'.fifo) :
    KeptOf r seq ops wgs gs cores clusters := by
  refine { h with fifos := fun g hmem e he => ?_ }
  obtain ⟨x, hx, hk, hex⟩ := hg g hmem e he
  exact hk ▸ h.fifos x hx e hex

theorem filterGroups {p : Group → Bool} (h : KeptOf r seq ops wgs groups cores clusters) :
    KeptOf r seq ops wgs (groups.filter p) cores clusters :=
  h.withGroups fun g hg _ he => ⟨g, (List.mem_filter.1 hg).1, rfl, he⟩

/-- A change of some groups keeps the tables if the entries of the changed FIFOs belong to their groups. -/
theorem updateFifos {p : Group → Bool} {f : Group → Group} (h : KeptOf r seq ops wgs groups cores clusters)
    (hf : ∀ g ∈ groups, p g = true → ∀ e ∈ (f g).fifo, OwnedBy seq ops (f g).key e.op) :
    KeptOf r seq ops wgs (updateIf p f groups) cores clusters := by
  refine { h with fifos := fun g hg e he => ?_ }
  obtain ⟨g₀, hg₀, rfl⟩ := List.mem_map.1 hg
  by_cases hp : p g₀ = true
  · rw [if_pos hp] at he ⊢
    exact hf g₀ hg₀ hp e he
  · rw [if_neg hp] at he ⊢
    exact h.fifos g₀ hg₀ e he

theorem updateGroups {p : Group → Bool} {f : Group → Group} (h : KeptOf r seq ops wgs groups cores clusters)
    (hf : ∀ g, (f g).key = g.key ∧ (f g).fifo ⊆ g.fifo := by exact fun _ => ⟨rfl, fun _ he => he⟩) :
    KeptOf r seq ops wgs (updateIf p f groups) cores clusters :=
  h.updateFifos fun g hg _ e he => by
    rw [(hf g).1]
    exact h.fifos g hg e ((hf g).2 he)

/-- Workgroups may leave the table, and those that stay may change in all but their identity. -/
theorem withWgs {ws : List Wg} (h : KeptOf r seq ops wgs groups cores clusters)
    (hsub : (ws.map (·.uid)).Sublist (wgs.map (·.uid))) (hst : ∀ w ∈ ws, w.StoresWf) :
    KeptOf r seq ops ws groups cores clusters := by
  have hmem : ∀ w ∈ ws, ∃ w' ∈ wgs, w'.uid = w.uid := fun w hw => List.mem_map.1 (hsub.subset (List.mem_map_of_mem hw))
  refine { h with uids := ?_, wgsApart := hsub.nodup h.wgsApart, stores := hst, oldWgs := ?_ }
  · intro w hw
    obtain ⟨w', hw', e⟩ := hmem w hw
    exact e ▸ h.uids w' hw'
  · intro w hw hid
    obtain ⟨w', hw', e⟩ := hmem w hw
    obtain ⟨w₂, hw₂, e₂⟩ := h.oldWgs w' hw' (by rw [e]; exact hid)
    exact ⟨w₂, hw₂, e₂.trans e⟩

theorem filterWgs {p : Wg → Bool} (h : KeptOf r seq ops wgs groups cores clusters) :
    KeptOf r seq ops (wgs.filter p) groups cores clusters :=
  h.withWgs (List.filter_sublist.map _) fun w hw => h.stores w (List.mem_filter.1 hw).1

theorem updateWgs {p : Wg → Bool} {f : Wg → Wg} (h : KeptOf r seq ops wgs groups cores clusters)
    (hf : ∀ w ∈ wgs, p w = true → w.StoresWf → (f w).uid = w.uid ∧ (f w).StoresWf := by exact fun _ _ _ hst => ⟨rfl, hst⟩) :
    KeptOf r seq ops (updateIf p f wgs) groups cores clusters := by
  have e : (updateIf p f wgs).map (·.uid) = wgs.map (·.uid) := by
    unfold updateIf
    rw [List.map_map]
    refine List.map_congr_left fun w hw => ?_
    show (if p w then f w else w).uid = w.uid
    split
    · next hp => exact (hf w hw hp (h.stores w hw)).1
    · rfl
  refine h.withWgs (e ▸ List.Sublist.refl _) fun w hw => ?_
  obtain ⟨w₀, hw₀, rfl⟩ := List.mem_map.1 hw
  by_cases hp : p w₀ = true
  · rw [if_pos hp]
    exact (hf w₀ hw₀ hp (h.stores w₀ hw₀)).2
  · rw [if_neg hp]
    exact h.stores w₀ hw₀

/-- A workgroup may join the table under an identity that none of them has. -/
theorem withWg {w : Wg} (h : KeptOf r seq ops wgs groups cores clusters) (hlt : w.uid < seq) (hr : r.seq ≤ w.uid)
    (hnew : ∀ x ∈ wgs, x.uid ≠ w.uid) (hst : w.StoresWf) : KeptOf r seq ops (wgs ++ [w]) groups cores clusters := by
  refine { h with uids := ?_, wgsApart := ?_, stores := ?_, oldWgs := ?_ }
  · intro x hx
    rcases List.mem_append.1 hx with hx | hx
    · exact h.uids x hx
    · obtain rfl := List.mem_singleton.1 hx
      exact hlt
  · rw [List.map_append]
    refine List.nodup_append.2 ⟨h.wgsApart, List.nodup_singleton _, ?_⟩
    intro a ha b hb
    obtain ⟨x, hx, rfl⟩ := List.mem_map.1 ha
    obtain rfl := List.mem_singleton.1 hb
    exact hnew x hx
  · intro x hx
    rcases List.mem_append.1 hx with hx | hx
    · exact h.stores x hx
    · obtain rfl := List.mem_singleton.1 hx
      exact hst
  · intro x hx hid
    rcases List.mem_append.1 hx with hx | hx
    · exact h.oldWgs x hx hid
    · obtain rfl := List.mem_singleton.1 hx
      omega

theorem withCores {cs : List (Nat × Core)} (h : KeptOf r seq ops wgs groups cores clusters)
    (hc : mapWf Core.empty cs = true) : KeptOf r seq ops wgs groups cs clusters := { h with cores := hc }

theorem withClusters {cs : List (Nat × Cluster)} (h : KeptOf r seq ops wgs groups cores clusters)
    (hc : mapWf Cluster.empty cs = true) : KeptOf r seq ops wgs groups cores cs := { h with clusters := hc }

end

end KeptOf

theorem mapWfFrom_mapValues {α : Type} [DecidableEq α] {d : α} {f : α → α} {m : SMap α} {a : Nat}
    (hf : ∀ x, x ≠ d → f x ≠ d) (h : mapWfFrom d a m = true) :
    mapWfFrom d a (m.map (fun p => (p.1, f p.2))) = true := by
  induction m generalizing a with
  | nil => rfl
  | cons p m ih =>
    simp only [mapWfFrom, List.map_cons, Bool.and_eq_true, decide_eq_true_eq] at h ⊢
    exact ⟨⟨h.1.1, hf _ h.1.2⟩, ih h.2⟩

/-- A change of every listed value keeps the canonical form if it brings none to the default. -/
theorem mapWf_mapValues {α : Type} [DecidableEq α] {d : α} {f : α → α} {m : SMap α} (hf : ∀ x, x ≠ d → f x ≠ d)
    (h : mapWf d m = true) : mapWf d (m.map (fun p => (p.1, f p.2))) = true := mapWfFrom_mapValues hf h

theorem updateIf_nil {α : Type} {p : α → Bool} {f : α → α} {l : List α} (h : updateIf p f l = []) : l = [] :=
  List.map_eq_nil_iff.1 h

/-- A cluster whose slots have changed one by one is the empty one only if it was. -/
theorem updateSlots_empty {c : Cluster} {p : BSlot → Bool} {f : BSlot → BSlot}
    (e : { c with bslots := updateIf p f c.bslots } = Cluster.empty) : c = Cluster.empty := by
  obtain ⟨bs, _⟩ := c
  obtain rfl : bs = [] := updateIf_nil (congrArg Cluster.bslots e :)
  exact e

/-- The same for its reservation entries. -/
theorem updateResv_empty {c : Cluster} {p : Resv → Bool} {f : Resv → Resv}
    (e : { c with resv := updateIf p f c.resv } = Cluster.empty) : c = Cluster.empty := by
  obtain ⟨_, es, _⟩ := c
  obtain rfl : es = [] := updateIf_nil (congrArg Cluster.resv e :)
  exact e

/-- The same for the collector entries of a core. -/
theorem updateColl_empty {c : Core} {p : CollEntry → Bool} {f : CollEntry → CollEntry}
    (e : { c with coll := updateIf p f c.coll } = Core.empty) : c = Core.empty := by
  obtain ⟨_, _, es⟩ := c
  obtain rfl : es = [] := updateIf_nil (congrArg Core.coll e :)
  exact e

/-- A group of which only lanes, scalar registers, counts and notes of waiting have changed has its key and its FIFO. -/
theorem SameGroup.entries {g g' : Group} (h : SameGroup g g') : g'.key = g.key ∧ g'.fifo ⊆ g.fifo :=
  ⟨(congrArg Group.key h :), fun _ he => (congrArg Group.fifo h :) ▸ he⟩

theorem putFills_entries (g : Group) (fs : List Fill) : (putFills g fs).key = g.key ∧ (putFills g fs).fifo = g.fifo := by
  unfold putFills
  exact foldl_keeps (P := fun g' : Group => g'.key = g.key ∧ g'.fifo = g.fifo) (fun _ _ h => h) ⟨rfl, rfl⟩

/-- Writes of scalar registers change neither the key nor the FIFO. -/
theorem setSregs_entries (g : Group) (r : Nat) (ws : List (Nat × Word)) :
    (ws.foldl (fun g p => g.setS (r + p.1) p.2) g).key = g.key ∧ (ws.foldl (fun g p => g.setS (r + p.1) p.2) g).fifo ⊆ g.fifo :=
  foldl_keeps (P := fun g' : Group => g'.key = g.key ∧ g'.fifo ⊆ g.fifo) (fun _ _ h => h) ⟨rfl, fun _ he => he⟩

/-- The workgroup that a search for the lowest finds is one of the state. -/
theorem lowestWg_mem {s : State} {uid : Nat} {p : Wg → Bool} {w : Wg} (h : lowestWg s uid p = some w) : w ∈ s.wgs := by
  have hall : InvOpt (· ∈ s.wgs) (lowestWg s uid p) := by
    unfold lowestWg
    rw [← List.foldl_attach]
    refine foldl_keeps (P := InvOpt (· ∈ s.wgs)) (fun b a hb => ?_) trivial
    have ha : a.1 ∈ s.wgs := (List.mem_filter.1 a.2).1
    split
    · exact ha
    · exact ite_keeps (P := InvOpt (· ∈ s.wgs)) ha hb
  exact hall.of_some h

/-- The entries of a group's FIFO belong to it. -/
theorem Kept.fifo_owned {r s : State} {k : GKey} {g : Group} (hs : Kept r s) (h : findGroup s k = some g) {e : FifoEntry}
    (he : e ∈ g.fifo) : Owns s k e.op :=
  findGroup_key h ▸ hs.fifos g (List.mem_of_find?_eq_some h) e he

/-! ## The invariant of what a function returns -/

/-- A stop that carries a state of its own carries one that is kept. -/
def KeptStop (r : State) : Stop → Prop
  | .trapIn _ s => Kept r s
  | .parkIn _ s => Kept r s
  | .hold _ s => Kept r s
  | .trap _ => True
  | .park _ => True
  | .notReady => True

/-- A computation that ends in a value of which `P` holds, or in a stop that leaves the tables kept. -/
def KeptExc (r : State) {α : Type} (P : α → Prop) : Except Stop α → Prop
  | .ok a => P a
  | .error e => KeptStop r e

/-- The next state, if there is one, is kept. -/
def KeptRes (r : State) : Result → Prop
  | .next t => Kept r t
  | .fault _ => True
  | .refused _ => True

/-- The checks that a specification adds stop without leaving a state that is not kept. -/
def SpecKept (r : State) (p : LSpec) : Prop :=
  (∀ w c, KeptExc r (fun _ => True) (p.widthOk w c)) ∧ ∀ c, KeptExc r (fun _ => True) (p.decl c)

/-- A write of memory keeps the tables as they are. -/
theorem MemoryOnly.kept {r s t : State} (f : MemoryOnly s t) (hs : Kept r s) : Kept r t := by
  have e : KeptOf r t.seq t.ops t.wgs t.groups t.cores t.clusters =
      KeptOf r s.seq s.ops s.wgs s.groups s.cores s.clusters :=
    (congrArg (fun x : State => KeptOf r x.seq x.ops x.wgs x.groups x.cores x.clusters) f :)
  exact e.mpr hs

section
variable {r : State} {α β : Type} {P : α → Prop} {Q : β → Prop}

theorem foldl_kept {f : State → α → State} {l : List α} {s : State} (hf : ∀ s a, Kept r s → Kept r (f s a)) (h : Kept r s) :
    Kept r (l.foldl f s) := foldl_keeps hf h

theorem KeptStop.trans {s : State} {e : Stop} (h : Kept r s) (he : KeptStop s e) : KeptStop r e := by
  cases e with
  | trapIn _ t => exact h.trans he
  | parkIn _ t => exact h.trans he
  | hold _ t => exact h.trans he
  | trap _ => trivial
  | park _ => trivial
  | notReady => trivial

namespace KeptExc

/-- What is kept since `s` is kept since `r` too, if `s` is. -/
theorem since {s : State} {x : Except Stop State} (h : Kept r s) (hx : KeptExc s (Kept s) x) :
    KeptExc r (fun t => Kept r t ∧ Kept s t) x := by
  cases x with
  | ok t => exact ⟨h.trans hx, hx⟩
  | error e => exact KeptStop.trans h hx

theorem ok {a : α} (h : P a) : KeptExc r P (.ok a) := h

theorem pass {a : α} : KeptExc r (fun _ => True) (.ok a) := trivial

theorem error {e : Stop} (h : KeptStop r e) : KeptExc r P (.error e) := h

theorem bind {x : Except Stop α} {k : α → Except Stop β} (hx : KeptExc r P x) (hk : ∀ a, P a → KeptExc r Q (k a)) :
    KeptExc r Q (x >>= k) := by
  cases x with
  | ok a => exact hk a hx
  | error e => exact hx

/-- A check whose value does not matter. -/
theorem andThen {x : Except Stop α} {k : α → Except Stop β} (hx : KeptExc r (fun _ => True) x) (hk : ∀ a, KeptExc r Q (k a)) :
    KeptExc r Q (x >>= k) := hx.bind (fun a _ => hk a)

theorem ite_bind {c : Prop} [Decidable c] {a b : Except Stop α} {k : α → Except Stop β} (ha : KeptExc r P a)
    (hb : KeptExc r P b) (hk : ∀ x, P x → KeptExc r Q (k x)) : KeptExc r Q (if c then a >>= k else b >>= k) :=
  ite_keeps (ha.bind hk) (hb.bind hk)

theorem map {x : Except Stop α} {f : α → β} (hx : KeptExc r P x) (hf : ∀ a, P a → Q (f a)) : KeptExc r Q (x.map f) := by
  cases x with
  | ok a => exact hf a hx
  | error e => exact hx

theorem of_error {x : Except Stop α} {e : Stop} (h : KeptExc r P x) (he : x = .error e) : KeptStop r e := by
  subst he
  exact h

end KeptExc

namespace KeptRes

theorem next {s : State} (h : Kept r s) : KeptRes r (.next s) := h

theorem fault {f : Fault} : KeptRes r (.fault f) := trivial

theorem refused {x : Refusal} : KeptRes r (.refused x) := trivial

theorem of_next {x : Result} {s : State} (h : KeptRes r x) (e : x = .next s) : Kept r s := by
  subst e
  exact h

end KeptRes

theorem kept_fst {x : State × α} {s : State} {a : α} (h : Kept r x.1) (e : x = (s, a)) : Kept r s := by
  subst e
  exact h

theorem keptOpt_getD {o : Option State} {s : State} (h : InvOpt (Kept r) o) (hs : Kept r s) : Kept r (o.getD s) := by
  cases o with
  | none => exact hs
  | some t => exact h

theorem mapE_kept {f : α → Except Stop β} {l : List α} (hf : ∀ a, KeptExc r (fun _ => True) (f a)) :
    KeptExc r (fun _ => True) (mapE f l) := by
  induction l with
  | nil => trivial
  | cons a l ih =>
    unfold mapE
    split
    · next heq => exact (hf a).of_error heq
    · split
      · next heq => exact ih.of_error heq
      · trivial

end

/-! ## Stops and what turns them into others -/

section
variable {r₀ : State} {α : Type} {P : α → Prop} {s : State} {r : Except Stop α}

theorem thereafter_kept (h : Kept r₀ s) (hr : KeptExc r₀ P r) : KeptExc r₀ P (thereafter s r) := by
  unfold thereafter
  split
  · exact h
  · exact h
  · exact hr

theorem wholePop_kept (hr : KeptExc r₀ P r) : KeptExc r₀ P (wholePop r) := by
  unfold wholePop
  split
  · trivial
  · exact hr
  · exact hr

theorem asControl_kept (hr : KeptExc r₀ P r) : KeptExc r₀ P (asControl r) := by
  unfold asControl
  split
  · trivial
  · exact hr

theorem trapAll_kept {cause sub : Nat} : KeptExc r₀ P (trapAll cause sub) := trivial

theorem trapLanes_kept {cause sub : Nat} {ls : List Nat} : KeptExc r₀ P (trapLanes cause sub ls) := trivial

theorem oobTrap_kept {h : Handle} {es : List (Nat × Nat)} : KeptExc r₀ P (oobTrap h es) := trivial

theorem spTrap_kept {a b : Nat} : KeptExc r₀ P (spTrap a b) := trivial

theorem accTrap_kept {ls : List Nat} {a b : Nat} : KeptExc r₀ P (accTrap ls a b) := trivial

end

/-! ## The functions of the model -/

section
variable {r₀ s : State} {c : Ctx} {k : GKey}
  {n core op uid id cl owner pa va off region base part line launch ca lo cluster : Nat} {sd : SReg} {sb : USrc}
  {h : Handle} {w : Wg} {pc : DWord} {i : Instr} {ln : Launch} {runs : List Run} {env : StartEnv}
  {wide skip nt ring : Bool} {need : Need} {rel acq : Option Scope} {men : Option MReg} {lines : List Nat} {d : VReg}
  {a b : LSrc}

/-! ### Access -/

theorem setGroup_kept {g : Group} (hs : Kept r₀ s) (hg : ∀ e ∈ g.fifo, Owns s g.key e.op) : Kept r₀ (setGroup s g) :=
  KeptOf.updateFifos hs fun _ _ _ => hg

theorem updGroup_kept {f : Group → Group} (hs : Kept r₀ s)
    (hf : ∀ g, (f g).key = g.key ∧ (f g).fifo ⊆ g.fifo := by exact fun _ => ⟨rfl, fun _ he => he⟩) :
    Kept r₀ (updGroup s k f) := KeptOf.updateGroups hs hf

/-- The FIFO of a group takes entries that belong to it. -/
theorem updFifo_kept {es : List FifoEntry} (hs : Kept r₀ s) (hes : ∀ e ∈ es, Owns s k e.op) :
    Kept r₀ (updGroup s k (fun g => { g with fifo := es })) :=
  KeptOf.updateFifos hs fun g _ hk e he => (of_decide_eq_true hk : g.key = k) ▸ hes e he

theorem updWg_kept {f : Wg → Wg} (hs : Kept r₀ s)
    (hf : ∀ w, w.uid = uid → w.StoresWf → (f w).uid = w.uid ∧ (f w).StoresWf := by exact fun _ _ hst => ⟨rfl, hst⟩) :
    Kept r₀ (updWg s uid f) := KeptOf.updateWgs hs fun w _ hid hst => hf w (of_decide_eq_true hid) hst

theorem updLaunch_kept {f : Launch → Launch} (hs : Kept r₀ s) : Kept r₀ (updLaunch s uid f) := hs

theorem updOp_kept {f : Op → Op} (hs : Kept r₀ s) (hf : ∀ o, (f o).ident = o.ident := by exact fun _ => rfl) :
    Kept r₀ (updOp s id f) := KeptOf.updateOps hs hf

theorem setCore_kept {c : Nat} {x : Core} (hs : Kept r₀ s) : Kept r₀ (setCore s c x) :=
  KeptOf.withCores hs (mapWf_mapSet c x hs.cores)

theorem setCluster_kept {c : Nat} {x : Cluster} (hs : Kept r₀ s) : Kept r₀ (setCluster s c x) :=
  KeptOf.withClusters hs (mapWf_mapSet c x hs.clusters)

theorem nextSeq_kept (hs : Kept r₀ s) : Kept r₀ { s with seq := s.seq + 1 } := KeptOf.withSeq hs (Nat.le_succ _)

theorem freshId_kept (hs : Kept r₀ s) : Kept r₀ (freshId s).2 := nextSeq_kept hs

theorem freshFree_kept (hs : Kept r₀ s) : Kept r₀ (freshFree s).2 := hs

/-! ### Mem -/

theorem mscDrop_kept (hs : Kept r₀ s) : Kept r₀ (mscDrop s base) :=
  (memoryOnly_mscDrop s base).kept hs

theorem homeSet_kept {key : BitVec 512} {b : Byte} (hs : Kept r₀ s) : Kept r₀ (homeSet s key ca pa b) :=
  (memoryOnly_homeSet s key ca pa b).kept hs

theorem readThrough_kept (hs : Kept r₀ s) : Kept r₀ (readThrough s ca pa) :=
  (memoryOnly_readThrough s ca pa).kept hs

theorem l2Touch_kept (hs : Kept r₀ s) : Kept r₀ (l2Touch s owner base) := hs

theorem l2TouchAll_kept (hs : Kept r₀ s) : Kept r₀ (l2TouchAll s owner lines) :=
  foldl_kept (fun _ _ hs1 => l2Touch_kept hs1) hs

theorem ownSetBytes_kept {bs : List Byte} (hs : Kept r₀ s) : Kept r₀ (ownSetBytes s owner ca pa bs) :=
  (memoryOnly_ownSetBytes s owner ca pa bs).kept hs

theorem updL1_kept {p : L1Line → Bool} {f : L1Line → L1Line} (hs : Kept r₀ s) : Kept r₀ (updL1 s core p f) :=
  setCore_kept hs

theorem l1WriteBack_kept {l : L1Line} (hs : Kept r₀ s) : Kept r₀ (l1WriteBack s l) :=
  l2TouchAll_kept (foldl_kept (fun _ _ hs1 => homeSet_kept hs1) hs)

theorem l1Drop_kept (hs : Kept r₀ s) : Kept r₀ (l1Drop s core base) := by
  unfold l1Drop
  split
  · exact hs
  · exact setCore_kept (l1WriteBack_kept hs)

theorem l1WriteBackAll_kept (hs : Kept r₀ s) : Kept r₀ (l1WriteBackAll s core) :=
  setCore_kept (foldl_kept (fun _ _ hs1 => l1WriteBack_kept hs1) hs)

theorem l1DropAll_kept (hs : Kept r₀ s) : Kept r₀ (l1DropAll s core) :=
  foldl_kept (fun _ _ hs1 => l1Drop_kept hs1) hs

theorem l1Room_kept (hs : Kept r₀ s) : Kept r₀ (l1Room s core) := by
  unfold l1Room
  extract_lets c
  split
  · exact hs
  · split
    · exact l1Drop_kept hs
    · exact hs

theorem l1Fill_kept (hs : Kept r₀ s) : Kept r₀ (l1Fill s core owner ca base) :=
  ite_keeps hs (setCore_kept (l2Touch_kept (readThrough_kept (l1Room_kept (l1Drop_kept hs)))))

theorem l1Set_kept {b : Byte} (hs : Kept r₀ s) : Kept r₀ (l1Set s core owner ca pa b) :=
  updL1_kept (l1Fill_kept hs)

theorem l1Refresh_kept (hs : Kept r₀ s) : Kept r₀ (l1Refresh s core pa) := updL1_kept hs

theorem l1Mend_kept {ls : List Loc} (hs : Kept r₀ s) : Kept r₀ (l1Mend s core ls) :=
  foldl_kept (fun _ _ hs1 => updL1_kept hs1) hs

theorem l1Note_kept {b : StoreByte} (hs : Kept r₀ s) : Kept r₀ (l1Note s core owner b) := by
  unfold l1Note
  split
  · exact hs
  · exact updL1_kept hs

theorem wcByteOut_kept {b : StoreByte} (hs : Kept r₀ s) : Kept r₀ (wcByteOut s core owner b) := by
  unfold wcByteOut
  split
  · exact hs
  · exact l1Note_kept (homeSet_kept hs)

theorem wcEntryOut_kept {e : WcEntry} (hs : Kept r₀ s) : Kept r₀ (wcEntryOut s core e) :=
  setCore_kept (l2TouchAll_kept (foldl_kept (fun _ _ hs1 => wcByteOut_kept hs1) hs))

theorem wcOut_kept {p : WcEntry → Bool} (hs : Kept r₀ s) : Kept r₀ (wcOut s core p) :=
  foldl_kept (fun _ _ hs1 => wcEntryOut_kept hs1) hs

theorem wcOutRange_kept {hi : Nat} (hs : Kept r₀ s) : Kept r₀ (wcOutRange s core lo hi) := wcOut_kept hs

theorem touchLocs_kept {ls : List Loc} (hs : Kept r₀ s) : Kept r₀ (touchLocs s core owner ls) :=
  foldl_kept (fun _ _ hs1 => l1Fill_kept hs1) hs

theorem touchHomeAs_kept {keep : Bool} {ls : List Loc} (hs : Kept r₀ s) : Kept r₀ (touchHomeAs keep s core owner ls) := by
  unfold touchHomeAs
  exact foldl_kept (fun _ _ hs1 => by
    extract_lets s1 s2 s3
    have hs2 : Kept r₀ s1 := wcOutRange_kept hs1
    have hs3 : Kept r₀ s2 := by
      unfold s2
      split
      · exact ite_keeps hs2 (l1Drop_kept hs2)
      · exact hs2
    have hs4 : Kept r₀ s3 := readThrough_kept hs3
    exact ite_keeps (l2Touch_kept hs4) hs4) (l1Mend_kept hs)

theorem touchHome_kept {ls : List Loc} (hs : Kept r₀ s) : Kept r₀ (touchHome s core owner ls) :=
  touchHomeAs_kept hs

theorem scratchSet_kept {b : Byte} (hs : Kept r₀ s) : Kept r₀ (scratchSet s uid off b) :=
  updWg_kept hs fun _ _ hst => ⟨rfl, mapWf_mapSet _ _ hst.1, hst.2⟩

theorem storeByteOut_kept {b : StoreByte} (hs : Kept r₀ s) : Kept r₀ (storeByteOut s core owner b) := by
  unfold storeByteOut
  split
  · exact scratchSet_kept hs
  · exact l1Set_kept (wcOutRange_kept hs)

theorem clusterDrop_kept (hs : Kept r₀ s) : Kept r₀ (clusterDrop s cl line) :=
  foldl_kept (fun _ _ hs1 => l1Drop_kept (wcOutRange_kept hs1)) hs

theorem engineByteOut_kept {b : StoreByte} (hs : Kept r₀ s) : Kept r₀ (engineByteOut s owner b) := by
  unfold engineByteOut
  split
  · exact scratchSet_kept hs
  · exact homeSet_kept hs

theorem engineOut_kept {bs : List StoreByte} (hs : Kept r₀ s) : Kept r₀ (engineOut s owner bs) :=
  l2TouchAll_kept (foldl_kept (fun _ _ hs1 => engineByteOut_kept hs1) hs)

theorem engineSetAll_kept {bs : List StoreByte} (hs : Kept r₀ s) : Kept r₀ (engineSetAll s cl owner bs) :=
  engineOut_kept (foldl_kept (fun _ _ hs1 => clusterDrop_kept hs1) hs)

theorem virtTouch_kept (hs : Kept r₀ s) : Kept r₀ (virtTouch s ln need va n) :=
  (memoryOnly_virtTouch s ln need va n).kept hs

/-! ### Region -/

theorem plainSet_kept {bs : List Byte} (hs : Kept r₀ s) : Kept r₀ (plainSet s pa bs) :=
  (memoryOnly_plainSet s pa bs).kept hs

theorem plainSetNum_kept {v : Nat} (hs : Kept r₀ s) : Kept r₀ (plainSetNum s pa n v) := plainSet_kept hs

theorem putBlockKeyed_kept {key : BitVec 512} {b : SMap Byte} (hs : Kept r₀ s) : Kept r₀ (putBlockKeyed s key base n b) :=
  hs

theorem keyedSetNum_kept {v : Nat} (hs : Kept r₀ s) : Kept r₀ (keyedSetNum s owner pa n v) :=
  ownSetBytes_kept hs

theorem syncLine_kept (hs : Kept r₀ s) : Kept r₀ (syncLine ln w s line) :=
  keyedSetNum_kept (keyedSetNum_kept hs)

theorem syncLines_kept (hs : Kept r₀ s) : Kept r₀ (syncLines s uid lines) := by
  unfold syncLines
  split
  · exact hs
  · split
    · split
      · exact foldl_kept (fun _ _ hs1 => syncLine_kept hs1) hs
      · exact hs
    · exact hs

theorem writeNotif_kept {n : Notif} (hs : Kept r₀ s) : Kept r₀ (writeNotif s n) := by
  unfold writeNotif
  extract_lets s1 src
  have hs1 : Kept r₀ s1 := plainSet_kept hs
  clear_value s1
  exact hs1

theorem post_kept {n : Notif} (hs : Kept r₀ s) : Kept r₀ (post s n) :=
  ite_keeps (ite_keeps hs (writeNotif_kept hs)) (ite_keeps hs hs)

theorem drainHeldN_kept (hs : Kept r₀ s) : Kept r₀ (drainHeldN n s) := by
  induction n generalizing s with
  | zero => exact hs
  | succ n ih =>
    unfold drainHeldN
    split
    · exact hs
    · exact ite_keeps (ih (writeNotif_kept hs)) hs

theorem drainHeld_kept (hs : Kept r₀ s) : Kept r₀ (drainHeld s) := drainHeldN_kept hs

/-! ### Rounds -/

theorem retireClass_kept {cls : OpClass} (hs : Kept r₀ s) : Kept r₀ (retireClass s k cls) := KeptOf.filterOps hs

theorem finishOp_kept {via : List Via} (hs : Kept r₀ s) : Kept r₀ (finishOp s id via) := by
  unfold finishOp
  split
  · exact hs
  · extract_lets s1
    have hs1 : Kept r₀ s1 := by
      unfold s1
      split <;> exact hs
    clear_value s1
    exact ite_keeps (KeptOf.filterOps hs1) (retireClass_kept (updOp_kept hs1))

theorem zeroRows_kept {row : Nat} (hs : Kept r₀ s) : Kept r₀ (zeroRows s uid row n) := by
  unfold zeroRows
  extract_lets s1
  have hs1 : Kept r₀ s1 := updWg_kept hs fun _ _ hst => ⟨rfl, hst.1, mapWf_filter _ hst.2⟩
  clear_value s1
  exact ite_keeps hs1 hs1

theorem tryAccz_kept (hs : Kept r₀ s) : Kept r₀ (tryAccz s id) := by
  unfold tryAccz
  split
  · split
    · exact ite_keeps (finishOp_kept (zeroRows_kept hs)) hs
    · exact hs
  · exact hs

theorem runAccz_kept (hs : Kept r₀ s) : Kept r₀ (runAccz s k) :=
  foldl_kept (fun _ _ hs1 => tryAccz_kept hs1) hs

theorem finishTile_kept {via : List Via} (hs : Kept r₀ s) : Kept r₀ (finishTile s id via) := by
  unfold finishTile
  split
  · exact runAccz_kept (finishOp_kept hs)
  · exact hs

theorem bslotSet_kept {b : BSlot} (hs : Kept r₀ s) : Kept r₀ (bslotSet s cl b) := setCluster_kept hs

theorem slotStep_kept {b : BSlot} {st : SlotStep} (hs : Kept r₀ s) : Kept r₀ (slotStep s cl b st) :=
  bslotSet_kept hs

theorem slotRead_kept {entry : Nat} (hs : Kept r₀ s) : Kept r₀ (slotRead s cl launch n entry) :=
  bslotSet_kept hs

theorem dropSteps_kept {p : SlotStep → Bool} (hs : Kept r₀ s) : Kept r₀ (dropSteps s p) :=
  KeptOf.withClusters hs (mapWf_mapValues (fun _ hc e => hc (updateSlots_empty e)) hs.clusters)

theorem entryRead_kept {e : Resv} (hs : Kept r₀ s) : Kept r₀ (entryRead s cl e) := by
  unfold entryRead
  split
  · exact slotRead_kept hs
  · exact hs

theorem failRound_kept {e : Resv} {t m sub : Nat} (hs : Kept r₀ s) : Kept r₀ (failRound s cl e t m sub) :=
  foldl_kept (fun _ _ hs1 => finishTile_kept (updOp_kept (updGroup_kept hs1))) (entryRead_kept (setCluster_kept hs))

theorem failTeamRounds_kept (hs : Kept r₀ s) : Kept r₀ (failTeamRounds s) := by
  unfold failTeamRounds
  exact foldl_kept (fun _ _ hs1 => foldl_kept (fun _ _ hs2 => by
    split
    · exact ite_keeps (failRound_kept hs2) hs2
    · exact hs2) hs1) hs

/-! ### Ops -/

theorem demand_kept {ok : Bool} {cause sub : Nat} : KeptExc r₀ (fun _ => True) (demand ok cause sub) :=
  ite_keeps .pass trapAll_kept

theorem demandNone_kept {bad : List Nat} {cause sub : Nat} : KeptExc r₀ (fun _ => True) (demandNone bad cause sub) :=
  ite_keeps .pass trapLanes_kept

theorem Ctx.fallOk_kept : KeptExc r₀ (fun _ => True) (Ctx.fallOk c) := demand_kept

theorem moveLanes_kept {ls : List Nat} {target : Nat → DWord} (hs : Kept r₀ s) : Kept r₀ (moveLanes s k pc ls target) :=
  updGroup_kept hs fun g => (sameGroup_dropSkips (g.mapLanes ls _) pc ls).entries

theorem Ctx.advance_kept (hs : Kept r₀ s) : Kept r₀ (Ctx.advance c s) := moveLanes_kept hs

theorem endGroupsWhere_kept {p : GKey → Bool} (hs : Kept r₀ s) : Kept r₀ (endGroupsWhere s p) :=
  failTeamRounds_kept (KeptOf.updateGroups hs)

theorem dropWg_kept (hs : Kept r₀ s) : Kept r₀ (dropWg s uid) :=
  KeptOf.filterOps (KeptOf.filterGroups (KeptOf.filterWgs hs))

theorem dropSaved_kept (hs : Kept r₀ s) : Kept r₀ (dropSaved s uid) := dropSteps_kept (dropWg_kept hs)

theorem endLaunch_kept (hs : Kept r₀ s) : Kept r₀ (endLaunch s uid) :=
  endGroupsWhere_kept (updLaunch_kept (foldl_kept (fun _ _ hs1 => dropSaved_kept hs1) hs))

theorem recordFault_kept {wgIndex cause sub : Nat} (hs : Kept r₀ s) : Kept r₀ (recordFault s ln wgIndex cause sub pc) := by
  unfold recordFault
  extract_lets pa first s1 s2 s3 s4 s5
  have hs1 : Kept r₀ s1 := plainSetNum_kept hs
  have hs2 : Kept r₀ s2 := plainSetNum_kept hs1
  have hs3 : Kept r₀ s3 := plainSetNum_kept hs2
  have hs4 : Kept r₀ s4 := plainSetNum_kept hs3
  have hs5 : Kept r₀ s5 := plainSetNum_kept hs4
  exact ite_keeps (plainSetNum_kept hs5) hs1

theorem rcbSetBit_kept {b : Nat} {v : Bool} (hs : Kept r₀ s) : Kept r₀ (rcbSetBit s pa b v) :=
  plainSetNum_kept hs

theorem unhandled_kept {cause sub : Nat} (hs : Kept r₀ s) : Kept r₀ (unhandled s k cause sub pc) := by
  unfold unhandled
  split
  · exact hs
  · extract_lets s1
    have hs1 : Kept r₀ s1 := recordFault_kept hs
    split
    · exact endGroupsWhere_kept hs1
    · exact endGroupsWhere_kept hs1
    · exact endLaunch_kept hs1
    · exact endLaunch_kept (rcbSetBit_kept hs1)

theorem frameSet_kept {g v : Nat} (hs : Kept r₀ s) : Kept r₀ (frameSet s w g off n v) := keyedSetNum_kept hs

theorem clearRegPoison_kept {ws : List (Nat × Nat)} (hs : Kept r₀ s) : Kept r₀ (clearRegPoison s k ws) :=
  ite_keeps hs hs

theorem saveWords_kept {fs : List Fill} (hs : Kept r₀ s) : Kept r₀ (saveWords s k fs) := by
  unfold saveWords
  split
  · exact hs
  · exact foldl_kept (fun _ _ hs1 => ite_keeps (frameSet_kept hs1) hs1) hs

theorem landRegs_kept {o : Op} {fs : List Fill} {bad : List (Nat × Nat)} (hs : Kept r₀ s) : Kept r₀ (landRegs s o fs bad) := by
  unfold landRegs
  split
  · exact hs
  · extract_lets fs1 bad1 held s1 s2 s3
    have hs1 : Kept r₀ s1 := clearRegPoison_kept hs
    have hs2 : Kept r₀ s2 := updGroup_kept hs1 fun g =>
      ⟨(putFills_entries g fs1).1, (putFills_entries g fs1).2 ▸ List.Subset.refl _⟩
    clear_value s2
    have hs3 : Kept r₀ s3 := ite_keeps hs2 hs2
    exact saveWords_kept hs3

theorem touchHandler_kept (hs : Kept r₀ s) : Kept r₀ (touchHandler s ln) := ite_keeps hs (virtTouch_kept hs)

theorem enterHandler_kept {cause sub : Nat} (hs : Kept r₀ s) : Kept r₀ (enterHandler s k cause sub pc) := by
  unfold enterHandler
  split
  · exact hs
  · split
    · exact unhandled_kept (touchHandler_kept hs)
    · exact updGroup_kept (touchHandler_kept hs)

theorem takeTrap_kept {t : TrapInfo} {opc : Option DWord} {ostate : Nat} (hs : Kept r₀ s) :
    Kept r₀ (takeTrap s k pc t opc ostate) := by
  unfold takeTrap
  split
  · exact hs
  · split
    · exact unhandled_kept hs
    · extract_lets s1 s2 s3
      have hs1 : Kept r₀ s1 := putBlockKeyed_kept hs
      have hs2 : Kept r₀ s2 := updGroup_kept hs1
      have hs3 : Kept r₀ s3 := updGroup_kept hs2
      exact ite_keeps (post_kept hs3) (enterHandler_kept hs2)

theorem takeTrapIn_kept {inTrap : Bool} {t : TrapInfo} {opc : Option DWord} {ostate : Nat} (hs : Kept r₀ s) :
    Kept r₀ (takeTrapIn s inTrap k pc t opc ostate) :=
  ite_keeps (unhandled_kept hs) (takeTrap_kept hs)

theorem markFocus_kept (hs : Kept r₀ s) : Kept r₀ (markFocus s n) := ite_keeps hs hs

theorem unpair_kept (hs : Kept r₀ s) : Kept r₀ (unpair s) := hs

theorem raiseTrap_kept {s0 : State} {t : TrapInfo} (hs : Kept r₀ s0) (hs1 : Kept r₀ s) : Kept r₀ (raiseTrap s0 s t) := by
  unfold raiseTrap
  split
  · exact markFocus_kept hs
  · split
    · exact takeTrap_kept hs1
    · exact ite_keeps (takeTrap_kept hs1) hs1

theorem countIssue_kept (hs : Kept r₀ s) : Kept r₀ (countIssue s k pc) := updGroup_kept hs

theorem holdHere_kept {h : Hold} (hs : Kept r₀ s) : Kept r₀ (holdHere s k h) := updGroup_kept hs

theorem parkAt_kept {mask : DWord} {slots : SMap (BitVec 1024)} {why : ParkWhy} (hs : Kept r₀ s) :
    Kept r₀ (parkAt s k pc mask slots why) :=
  updGroup_kept hs

theorem Ctx.park_kept {why : ParkWhy} (hs : Kept r₀ s) : Kept r₀ (Ctx.park c s why) := parkAt_kept hs

theorem parkFetch_kept {why : ParkWhy} (hs : Kept r₀ s) : Kept r₀ (parkFetch s k pc why) := updGroup_kept hs

theorem Ctx.settleFrom_kept {s0 : State} {r : Except Stop State} (hs : Kept r₀ s0) (hs1 : Kept r₀ s) (hx : KeptExc r₀ (Kept r₀) r) :
    KeptRes r₀ (Ctx.settleFrom c s0 s r) := by
  unfold Ctx.settleFrom
  split
  · exact .next (markFocus_kept (countIssue_kept hx))
  · exact .next (raiseTrap_kept hs1 hs1)
  · exact .next (raiseTrap_kept hs1 hx)
  · exact .next (markFocus_kept (Ctx.park_kept hs1))
  · exact .next (markFocus_kept (Ctx.park_kept hx))
  · exact .next (markFocus_kept (holdHere_kept hx))
  · exact .next (unpair_kept hs)

theorem Ctx.settle_kept {r : Except Stop State} (hs : Kept r₀ s) (hx : KeptExc r₀ (Kept r₀) r) : KeptRes r₀ (Ctx.settle c s r) :=
  Ctx.settleFrom_kept hs hs hx

theorem uniform_kept {body : Ctx → State → Except Stop State} (hf : ∀ a b, Kept r₀ b → KeptExc r₀ (Kept r₀) (body a b))
    (hs : Kept r₀ s) :
    KeptRes r₀ (uniform i body s) := by
  unfold uniform
  split
  · exact .fault
  · exact Ctx.settle_kept hs (Ctx.fallOk_kept.andThen fun _ => (hf _ _ hs).bind fun _ hs1 => .ok (Ctx.advance_kept hs1))

theorem returnFromTrap_kept (hs : Kept r₀ s) : Kept r₀ (returnFromTrap s k skip pc) := by
  unfold returnFromTrap
  split
  · exact hs
  · next g w ln hctx =>
    have hg : findGroup s k = some g := (findCtx_parts hctx).1
    have own : ∀ e ∈ g.fifo, Owns s g.key e.op := fun e he => (findGroup_key hg).symm ▸ hs.fifo_owned hg he
    exact ite_keeps (unhandled_kept hs) (setGroup_kept hs own)

/-! ### Operands -/

theorem LSpec.mk0_kept {srcs : List (SrcTy × LSrc)} {named : List Nat} : SpecKept r₀ (LSpec.mk0 i srcs named) :=
  ⟨fun _ _ => .pass, fun _ => .pass⟩

theorem softDraws_kept {wg : Nat} {rs : List (Nat × List Nat)} : KeptExc r₀ (fun _ => True) (softDraws s wg rs) := by
  unfold softDraws
  split
  · exact .pass
  · extract_lets bad src
    split
    · exact .pass
    · exact .error trivial

theorem LSpec.ready_kept {p : LSpec} (hp : SpecKept r₀ p) : KeptExc r₀ (fun _ => True) (LSpec.ready p c s) :=
  demand_kept.andThen fun _ => (hp.2 _).andThen fun _ => ite_keeps (.error trivial) (demand_kept.andThen fun _ =>
    softDraws_kept)

theorem LSpec.spend_kept {p : LSpec} (hs : Kept r₀ s) : Kept r₀ (LSpec.spend p c s) := by
  unfold LSpec.spend
  split
  · exact hs
  · exact updGroup_kept hs

theorem LSpec.step9_kept {p : LSpec} (hp : SpecKept r₀ p) : KeptExc r₀ (fun _ => True) (LSpec.step9 p c) := by
  unfold LSpec.step9
  split
  · exact .pass
  · exact .pass
  · exact demandNone_kept.andThen fun _ => demand_kept.andThen fun _ => (hp.1 _ _).andThen fun _ => .pass

theorem LSpec.enter_kept {p : LSpec} {falls : Bool} (hp : SpecKept r₀ p) (hs : Kept r₀ s) :
    KeptExc r₀ (fun r => Kept r₀ r.s) (LSpec.enter p falls c s) :=
  (LSpec.step9_kept hp).andThen fun _ => .ite_bind Ctx.fallOk_kept .pass fun _ _ => demandNone_kept.andThen fun _ =>
    demand_kept.andThen fun _ => softDraws_kept.andThen fun _ => .ok hs

theorem perLaneAt_kept {falls : Bool} {p : LSpec} {body : Issue → Except Stop State} (hp : SpecKept r₀ p)
    (hf : ∀ a, Kept r₀ a.s → KeptExc r₀ (Kept r₀) (body a)) (hs : Kept r₀ s) :
    KeptRes r₀ (perLaneAt falls p body s) := by
  unfold perLaneAt
  split
  · exact .fault
  · split
    · next heq => exact Ctx.settle_kept hs (.error ((LSpec.ready_kept hp).of_error heq))
    · extract_lets acc s1 c1
      have hs1 : Kept r₀ s1 := LSpec.spend_kept hs
      split
      · exact .next (markFocus_kept hs1)
      · exact Ctx.settleFrom_kept hs hs1 ((LSpec.enter_kept hp hs1).bind fun _ hs2 => (hf _ hs2).bind fun _ hs3 =>
        .ok (ite_keeps (Ctx.advance_kept hs3) hs3))

theorem perLane_kept {p : LSpec} {body : Issue → Except Stop State} (hp : SpecKept r₀ p)
    (hf : ∀ a, Kept r₀ a.s → KeptExc r₀ (Kept r₀) (body a)) (hs : Kept r₀ s) :
    KeptRes r₀ (perLane p body s) :=
  perLaneAt_kept hp (fun _ hs1 => hf _ hs1) hs

theorem commitLanes_kept {outs : List LaneOut} {fl : FpStatus} (hs : Kept r₀ s) : Kept r₀ (commitLanes s k outs fl) :=
  updGroup_kept (clearRegPoison_kept hs)

theorem Issue.commit_kept {x : Issue} {outs : List LaneOut} {fl : FpStatus} (hs : Kept r₀ s) :
    Kept r₀ (Issue.commit x s outs fl) :=
  commitLanes_kept hs

theorem Issue.uniformArg_kept {x : Issue} : KeptExc r₀ (fun _ => True) (Issue.uniformArg x n) := by
  unfold Issue.uniformArg
  exact demandNone_kept.andThen fun _ => by
    split <;> exact .pass

theorem lanewise_kept {p : LSpec} {f : Word → Word → Word → FRes} (hp : SpecKept r₀ p) (hs : Kept r₀ s) :
    KeptRes r₀ (lanewise p d f s) :=
  perLane_kept hp (fun _ hs1 => .ok (Issue.commit_kept hs1)) hs

/-! ### Fifo -/

theorem acceptOp_kept {cls : OpClass} {kind : OpKind} (hs : Kept r₀ s) : Kept r₀ (acceptOp s c cls kind).1 := by
  unfold acceptOp
  exact KeptOf.withOp (updGroup_kept (k := c.g.key) hs) rfl

/-- A fresh identity belongs to the group of its operation. -/
theorem acceptOp_owns {cls : OpClass} {kind : OpKind} (hs : Kept r₀ s) :
    Owns (acceptOp s c cls kind).1 c.g.key (acceptOp s c cls kind).2 := by
  refine ⟨Nat.lt_succ_self _, fun o ho hid => ?_⟩
  rcases List.mem_append.1 ho with ho | ho
  · exact absurd hid (Nat.ne_of_lt (hs.ids o ho))
  · rw [List.mem_singleton.1 ho]

theorem clearPoisonFor_kept {bs : List StoreByte} (hs : Kept r₀ s) : Kept r₀ (clearPoisonFor s bs) :=
  ite_keeps hs hs

theorem collRelease_kept (hs : Kept r₀ s) : Kept r₀ (collRelease s core) := KeptOf.updateGroups hs

theorem collDrop_kept (hs : Kept r₀ s) : Kept r₀ (collDrop s core id) := collRelease_kept (setCore_kept hs)

theorem collPerform_kept {o : Op} (hs : Kept r₀ s) : Kept r₀ (collPerform s w o) := by
  unfold collPerform
  split
  · exact finishOp_kept (collDrop_kept (engineSetAll_kept (clearPoisonFor_kept hs)))
  · exact updOp_kept (collDrop_kept (touchHome_kept hs))
  · exact hs

theorem flushScats_kept {upto : Nat} (hs : Kept r₀ s) : Kept r₀ (flushScats s k upto) := by
  unfold flushScats
  split
  · exact hs
  · exact foldl_kept (fun _ _ hs1 => ite_keeps hs1 (collPerform_kept hs1)) hs

theorem markHits_kept {els : List WatchEl} (hs : Kept r₀ s) : Kept r₀ (markHits s id els) := by
  unfold markHits
  split
  · exact hs
  · exact ite_keeps hs (updOp_kept hs)

theorem seeHits_kept {q : JoinHit → Bool} (hs : Kept r₀ s) : Kept r₀ (seeHits s k q) := KeptOf.updateOps hs

theorem observe_kept {g : Group} {p : JoinHit → Bool} (hs : Kept r₀ s) : KeptExc r₀ (Kept r₀) (observe s g p) := by
  unfold observe
  extract_lets mine see
  have hs1 : ∀ a, Kept r₀ (see a) := fun _ => seeHits_kept hs
  split
  · exact .ok hs
  · split
    · exact .ok (hs1 _)
    · split
      · exact .ok hs
      · exact .error (hs1 _)

theorem releaseByteOut_kept {b : StoreByte} (hs : Kept r₀ s) : Kept r₀ (releaseByteOut s core owner b) := by
  unfold releaseByteOut
  split
  · exact scratchSet_kept hs
  · exact homeSet_kept (l1Drop_kept (wcOutRange_kept hs))

theorem entryOut_kept {bs : List StoreByte} (hs : Kept r₀ s) : Kept r₀ (entryOut s k w op nt rel bs) := by
  unfold entryOut
  split
  · exact setCore_kept (foldl_kept (fun _ _ hs1 => l1Drop_kept hs1) hs)
  · split
    · exact l2TouchAll_kept (foldl_kept (fun _ _ hs2 => releaseByteOut_kept hs2) (l1WriteBackAll_kept hs))
    · exact foldl_kept (fun _ _ hs3 => storeByteOut_kept hs3) hs

theorem storeHalf_kept (hs : Kept r₀ s) : Kept r₀ (storeHalf s op) := by
  unfold storeHalf
  split
  · split
    · exact ite_keeps (finishOp_kept hs) (updOp_kept hs)
    · exact hs
  · exact hs

theorem storeLeft_kept (hs : Kept r₀ s) : Kept r₀ (storeLeft s op) := by
  unfold storeLeft
  split
  · split
    · exact foldl_kept (fun _ _ hs1 => storeHalf_kept hs1) (finishOp_kept hs)
    · exact storeHalf_kept hs
  · exact hs

theorem locSetBytes_kept {l : Loc} {bs : List Byte} (hs : Kept r₀ s) : Kept r₀ (locSetBytes s owner l bs) := by
  unfold locSetBytes
  split
  · exact foldl_kept (fun _ _ hs1 => scratchSet_kept hs1) hs
  · exact ownSetBytes_kept hs

theorem atomReady_kept {l : Loc} (hs : Kept r₀ s) : Kept r₀ (atomReady s core owner rel l) := by
  unfold atomReady
  extract_lets s1
  have hs1 : Kept r₀ s1 := ite_keeps (l1WriteBackAll_kept hs) hs
  split
  · exact hs1
  · extract_lets s2
    have hs2 : Kept r₀ s2 := l1Drop_kept (wcOutRange_kept hs1)
    exact l2Touch_kept (readThrough_kept hs2)

theorem performReq_kept {a : Atomic} {r : Nat} (hs : Kept r₀ s) : Kept r₀ (performReq s w op a r) := by
  unfold performReq
  split
  · exact hs
  · exact updOp_kept (foldl_kept (fun _ _ hs1 => l1Note_kept hs1) (locSetBytes_kept (ite_keeps hs (atomReady_kept hs))))

theorem atomicDone_kept {a : Atomic} (hs : Kept r₀ s) : Kept r₀ (atomicDone s k w op a) := by
  unfold atomicDone
  extract_lets s1 s2
  have hs1 : Kept r₀ s1 := updGroup_kept hs fun g => ⟨rfl, fun _ he => (List.mem_filter.1 he).1⟩
  have hs2 : Kept r₀ s2 := ite_keeps (l1DropAll_kept hs1) hs1
  split
  · exact updOp_kept hs2
  · exact finishOp_kept hs2

theorem atomicSettle_kept (hs : Kept r₀ s) : Kept r₀ (atomicSettle s k w op) := by
  unfold atomicSettle
  split
  · split
    · exact ite_keeps (atomicDone_kept hs) hs
    · exact hs
  · exact hs

theorem performOne_kept {r : Nat} (hs : Kept r₀ s) : Kept r₀ (performOne s op r) := by
  unfold performOne
  split
  · exact hs
  · split
    · exact ite_keeps (atomicSettle_kept (performReq_kept hs)) hs
    · exact hs

theorem performAll_kept (hs : Kept r₀ s) : Kept r₀ (performAll s op n) := by
  induction n with
  | zero => exact hs
  | succ n ih => exact performOne_kept ih

theorem drainAtomic_kept (hs : Kept r₀ s) : Kept r₀ (drainAtomic s k op) :=
  performAll_kept (ite_keeps (flushScats_kept hs) hs)

theorem settlePassed_kept {ls : List Loc} (hs : Kept r₀ s) : Kept r₀ (settlePassed s core k ls) := by
  unfold settlePassed
  exact foldl_kept (fun _ _ hs1 => by
    split
    · exact hs1
    · exact foldl_kept (fun _ _ hs2 => drainAtomic_kept hs2) hs1) hs

theorem markPassed_kept {ids : List Nat} {gates : List Loc} (hs : Kept r₀ s) : Kept r₀ (markPassed s ids gates) :=
  KeptOf.updateOps hs

theorem performAtomic_kept {r : Nat} (hs : Kept r₀ s) : InvOpt (Kept r₀) (performAtomic s op r) := by
  unfold performAtomic
  split
  · exact .none
  · exact .some (performOne_kept (markPassed_kept (settlePassed_kept hs)))

theorem sendAtomic_kept {r : Nat} (hs : Kept r₀ s) : InvOpt (Kept r₀) (sendAtomic s op r) := by
  unfold sendAtomic
  split
  · exact .none
  · exact ite_keeps .none (.some (updOp_kept (atomReady_kept hs)))

theorem retireStore_kept (hs : Kept r₀ s) : InvOpt (Kept r₀) (retireStore s k) := by
  unfold retireStore
  split
  · next g w hg hw =>
    split
    · next op nt rel bs rest hfifo =>
      have own : ∀ e ∈ rest, Owns s k e.op := fun e he => hs.fifo_owned hg (hfifo ▸ List.mem_cons_of_mem _ he)
      have settled : Kept s (settlePassed s w.core k (bs.map (·.loc))) := settlePassed_kept hs.self
      exact ite_keeps .none (.some (storeLeft_kept (entryOut_kept (updFifo_kept (hs.trans settled) fun e he =>
        settled.owns (own e he)))))
    · exact .none
  · exact .none

theorem drainOne_kept (hs : Kept r₀ s) : Kept r₀ (drainOne s k) := by
  unfold drainOne
  split
  · split
    · exact hs
    · exact keptOpt_getD (retireStore_kept (ite_keeps (flushScats_kept hs) hs)) (ite_keeps (flushScats_kept hs) hs)
    · exact drainAtomic_kept (settlePassed_kept hs)
  · exact hs

theorem drainN_kept (hs : Kept r₀ s) : Kept r₀ (drainN s k n) := by
  induction n generalizing s with
  | zero => exact hs
  | succ n ih => exact ih (drainOne_kept hs)

theorem drainBelow_kept {upto : Nat} (hs : Kept r₀ s) : Kept r₀ (drainBelow s k upto) := by
  unfold drainBelow
  split
  · exact hs
  · exact drainN_kept hs

theorem settleScats_kept {us : List (Nat × Nat)} (hs : Kept r₀ s) : Kept r₀ (settleScats s k us) := by
  unfold settleScats
  split
  · exact hs
  · exact flushScats_kept (drainBelow_kept hs)

theorem drainFifo_kept (hs : Kept r₀ s) : Kept r₀ (drainFifo s k) := by
  unfold drainFifo
  split
  · exact hs
  · exact drainN_kept hs

/-! ### LanePath -/

theorem Ctx.handle_kept : KeptExc r₀ (fun _ => True) (Ctx.handle c n) :=
  demand_kept.andThen fun _ => .pass

theorem acceptFmt_kept {fmts : List Nat} : KeptExc r₀ (fun _ => True) (acceptFmt h fmts) := demand_kept

theorem spCheck_kept : KeptExc r₀ (fun _ => True) (spCheck c runs) := by
  unfold spCheck
  split
  · exact .pass
  · exact .error trivial

theorem laneRuns_kept {align : Nat} {idx : List (Nat × Nat)} : KeptExc r₀ (fun _ => True) (laneRuns c h n align idx) :=
  ite_keeps oobTrap_kept (.ite_bind spCheck_kept .pass fun _ _ => demandNone_kept.andThen fun _ => .pass)

theorem xlCheck_kept {xs parks : List XLine} : KeptExc r₀ (fun _ => True) (xlCheck xs parks) := by
  unfold xlCheck
  split
  · exact .error trivial
  · split
    · exact .error trivial
    · exact .pass

theorem presenceCheck_kept : KeptExc r₀ (fun _ => True) (presenceCheck c runs) := by
  unfold presenceCheck
  split
  · exact .pass
  · exact .error trivial

theorem softCheck_kept : KeptExc r₀ (fun _ => True) (softCheck c s h runs) := by
  unfold softCheck
  split
  · exact .pass
  · extract_lets bad src
    clear_value bad
    split
    · exact .pass
    · exact .error trivial

theorem reachLines_kept {tolerate : Bool} : KeptExc r₀ (fun _ => True) (reachLines c s h need tolerate runs) :=
  ite_keeps presenceCheck_kept xlCheck_kept

theorem reach_kept {tolerate : Bool} : KeptExc r₀ (fun _ => True) (reach c s h need tolerate runs) :=
  reachLines_kept.andThen fun _ => ite_keeps .pass softCheck_kept

theorem watchStep_kept {els : List WatchEl} (hs : Kept r₀ s) : KeptExc r₀ (Kept r₀) (watchStep c s els) := by
  unfold watchStep
  split
  · exact .ok hs
  · extract_lets skip s1 els1 hitSlot
    have hs1 : Kept r₀ s1 := updGroup_kept hs fun g => (sameGroup_dropSkips g c.pc c.act).entries
    split
    · exact .ok hs1
    · extract_lets e src
      exact .error hs1

theorem observeLines_kept {ls : List Nat} (hs : Kept r₀ s) : KeptExc r₀ (Kept r₀) (observeLines c s ls) :=
  ite_keeps (observe_kept hs) (.ok hs)

theorem observeParked_kept (hs : Kept r₀ s) : KeptExc r₀ (Kept r₀) (observeParked c s h runs) :=
  observeLines_kept hs

theorem settleFor_kept {ls : List Loc} (hs : Kept r₀ s) : Kept r₀ (settleFor c s ls) := by
  unfold settleFor
  extract_lets s1
  have hs1 : Kept r₀ s1 := settlePassed_kept (settleScats_kept hs)
  exact ite_keeps (drainFifo_kept hs1) hs1

theorem reachIn_kept {tolerate : Bool} (hs : Kept r₀ s) : KeptExc r₀ (Kept r₀) (reachIn c s h need tolerate runs) :=
  thereafter_kept hs (reach_kept.andThen fun _ => .ok hs)

theorem reachRead_kept {tolerate : Bool} (hs : Kept r₀ s) : KeptExc r₀ (Kept r₀) (reachRead c s h tolerate runs) :=
  reachIn_kept (settleFor_kept hs)

theorem reachRw_kept (hs : Kept r₀ s) : KeptExc r₀ (Kept r₀) (reachRw c s h runs) :=
  reachIn_kept (settleScats_kept hs)

theorem bindState_kept {ls : List Loc} (hs : Kept r₀ s) : Kept r₀ (bindState c s ls) :=
  touchLocs_kept (settleFor_kept hs)

theorem bindWide_kept {ls : List Loc} (hs : Kept r₀ s) : Kept r₀ (bindWide c s wide ls) :=
  ite_keeps (l1Mend_kept (bindState_kept hs)) (bindState_kept hs)

theorem addDigest_kept {bs : List (Nat × Byte)} (hs : Kept r₀ s) : Kept r₀ (addDigest s ln h bs) :=
  ite_keeps (updLaunch_kept hs) hs

theorem tilesPass_kept {rd : List Loc → List Byte} : KeptExc r₀ (fun _ => True) (tilesPass c s h rd runs) := by
  unfold tilesPass
  extract_lets ts bad
  clear_value bad
  split
  · exact .pass
  · extract_lets low src
    exact .error trivial

theorem tileCheck_kept (hs : Kept r₀ s) : KeptExc r₀ (Kept r₀) (tileCheck c s h runs) :=
  thereafter_kept (bindWide_kept hs) (tilesPass_kept.andThen fun _ => .ok (bindWide_kept hs))

/-! ### Flags -/

theorem execFstat_kept (hs : Kept r₀ s) : KeptRes r₀ (execFstat sd sb s) :=
  uniform_kept (fun _ _ hs1 => .ok (updGroup_kept hs1)) hs

/-! ### LaneInt -/

theorem intOp_kept {f : Word → Word → Word} (hs : Kept r₀ s) : KeptRes r₀ (intOp i d a b f s) :=
  lanewise_kept LSpec.mk0_kept hs

theorem intAcc_kept {f : Word → Word → Word → Word} (hs : Kept r₀ s) : KeptRes r₀ (intAcc i d a b f s) :=
  lanewise_kept ⟨fun _ _ => .pass, fun _ => .pass⟩ hs

theorem execIadd_kept (hs : Kept r₀ s) : KeptRes r₀ (execIadd d a b s) := intOp_kept hs

theorem execIsub_kept (hs : Kept r₀ s) : KeptRes r₀ (execIsub d a b s) := intOp_kept hs

theorem execImul_kept (hs : Kept r₀ s) : KeptRes r₀ (execImul d a b s) := intOp_kept hs

theorem execImulh_kept (hs : Kept r₀ s) : KeptRes r₀ (execImulh d a b s) := intOp_kept hs

theorem execImulhu_kept (hs : Kept r₀ s) : KeptRes r₀ (execImulhu d a b s) := intOp_kept hs

theorem execImad_kept (hs : Kept r₀ s) : KeptRes r₀ (execImad d a b s) := intAcc_kept hs

theorem execImin_kept (hs : Kept r₀ s) : KeptRes r₀ (execImin d a b s) := intOp_kept hs

theorem execImax_kept (hs : Kept r₀ s) : KeptRes r₀ (execImax d a b s) := intOp_kept hs

theorem execAnd_kept (hs : Kept r₀ s) : KeptRes r₀ (execAnd d a b s) := intOp_kept hs

theorem execOr_kept (hs : Kept r₀ s) : KeptRes r₀ (execOr d a b s) := intOp_kept hs

theorem execXor_kept (hs : Kept r₀ s) : KeptRes r₀ (execXor d a b s) := intOp_kept hs

theorem execShl_kept (hs : Kept r₀ s) : KeptRes r₀ (execShl d a b s) := intOp_kept hs

theorem execShr_kept (hs : Kept r₀ s) : KeptRes r₀ (execShr d a b s) := intOp_kept hs

theorem execSar_kept (hs : Kept r₀ s) : KeptRes r₀ (execSar d a b s) := intOp_kept hs

theorem execIuny_kept {op : IunyOp} (hs : Kept r₀ s) : KeptRes r₀ (execIuny op d a s) :=
  lanewise_kept LSpec.mk0_kept hs

theorem maskSet_kept {t : SrcTy} {m : MReg} {f : Word → Word → Bool} (hs : Kept r₀ s) : KeptRes r₀ (maskSet i t m a b f s) :=
  perLane_kept LSpec.mk0_kept (fun _ hs1 => .ok (Issue.commit_kept hs1)) hs

theorem execIset_kept {c : ICond} {m : MReg} (hs : Kept r₀ s) : KeptRes r₀ (execIset c m a b s) :=
  maskSet_kept hs

/-! ### LaneFloat -/

theorem fpOp_kept {f : Nat → Nat → FRes} (hs : Kept r₀ s) : KeptRes r₀ (fpOp i d a b f s) :=
  lanewise_kept LSpec.mk0_kept hs

theorem fpAcc_kept {t : SrcTy} {f : Nat → Nat → Nat → FRes} (hs : Kept r₀ s) : KeptRes r₀ (fpAcc i t d a b f s) :=
  lanewise_kept ⟨fun _ _ => .pass, fun _ => .pass⟩ hs

theorem execFadd_kept (hs : Kept r₀ s) : KeptRes r₀ (execFadd d a b s) := fpOp_kept hs

theorem execFsub_kept (hs : Kept r₀ s) : KeptRes r₀ (execFsub d a b s) := fpOp_kept hs

theorem execFmul_kept (hs : Kept r₀ s) : KeptRes r₀ (execFmul d a b s) := fpOp_kept hs

theorem execFfma_kept (hs : Kept r₀ s) : KeptRes r₀ (execFfma d a b s) := fpAcc_kept hs

theorem execFmin_kept (hs : Kept r₀ s) : KeptRes r₀ (execFmin d a b s) := fpOp_kept hs

theorem execFmax_kept (hs : Kept r₀ s) : KeptRes r₀ (execFmax d a b s) := fpOp_kept hs

theorem execFset_kept {c : FCond} {m : MReg} (hs : Kept r₀ s) : KeptRes r₀ (execFset c m a b s) :=
  maskSet_kept hs

theorem execFuny_kept {op : FunyOp} (hs : Kept r₀ s) : KeptRes r₀ (execFuny op d a s) :=
  lanewise_kept LSpec.mk0_kept hs

theorem execFcvt_kept {p : FcvtPair} {r : Rnd} {sat : Bool} (hs : Kept r₀ s) : KeptRes r₀ (execFcvt p r sat d a s) :=
  perLane_kept ⟨fun _ _ => .pass, fun _ => .pass⟩ (fun _ hs1 => .ok (Issue.commit_kept hs1)) hs

theorem execHfma2_kept (hs : Kept r₀ s) : KeptRes r₀ (execHfma2 d a b s) := fpAcc_kept hs

theorem execBfma2_kept (hs : Kept r₀ s) : KeptRes r₀ (execBfma2 d a b s) := fpAcc_kept hs

/-! ### LaneMove -/

theorem crossLane_kept {p : LSpec} {f : List LaneIn → LaneIn → List (Nat × Word)} (hp : SpecKept r₀ p) (hs : Kept r₀ s) :
    KeptRes r₀ (crossLane p f s) :=
  perLane_kept hp (fun _ hs1 => .ok (Issue.commit_kept hs1)) hs

theorem execMov_kept (hs : Kept r₀ s) : KeptRes r₀ (execMov d a s) := lanewise_kept LSpec.mk0_kept hs

theorem execCmov_kept {m : MReg} (hs : Kept r₀ s) : KeptRes r₀ (execCmov d a m s) :=
  crossLane_kept LSpec.mk0_kept hs

theorem execLxor_kept (hs : Kept r₀ s) : KeptRes r₀ (execLxor d a b s) :=
  perLane_kept LSpec.mk0_kept (fun _ hs1 => Issue.uniformArg_kept.andThen fun _ => .ok (Issue.commit_kept hs1)) hs

theorem execLshf_kept (hs : Kept r₀ s) : KeptRes r₀ (execLshf d a b s) := crossLane_kept LSpec.mk0_kept hs

theorem execLred_kept {op : RedOp} (hs : Kept r₀ s) : KeptRes r₀ (execLred op d a s) :=
  perLane_kept LSpec.mk0_kept (fun _ hs1 => .ok (Issue.commit_kept hs1)) hs

theorem execLscan_kept {excl : Bool} {op : RedOp} (hs : Kept r₀ s) : KeptRes r₀ (execLscan excl op d a s) :=
  perLane_kept LSpec.mk0_kept (fun _ hs1 => .ok (Issue.commit_kept hs1)) hs

theorem laneSetSpec_kept : SpecKept r₀ (laneSetSpec i d a s) := LSpec.mk0_kept

theorem execMatchv_kept (hs : Kept r₀ s) : KeptRes r₀ (execMatchv d a s) :=
  perLane_kept laneSetSpec_kept (fun _ hs1 => .ok (Issue.commit_kept hs1)) hs

theorem execBallot_kept (hs : Kept r₀ s) : KeptRes r₀ (execBallot d a s) :=
  perLane_kept laneSetSpec_kept (fun _ hs1 => .ok (Issue.commit_kept hs1)) hs

theorem execCmpct_kept {m : MReg} (hs : Kept r₀ s) : KeptRes r₀ (execCmpct d a m s) :=
  perLane_kept LSpec.mk0_kept (fun _ hs1 => .ok (Issue.commit_kept hs1)) hs

theorem execMskop_kept {op : MskOp} {m p q : MReg} (hs : Kept r₀ s) : KeptRes r₀ (execMskop op m p q s) :=
  perLane_kept LSpec.mk0_kept (fun _ hs1 => .ok (Issue.commit_kept hs1)) hs

theorem execMpopc_kept {pre : Bool} {m : MReg} (hs : Kept r₀ s) : KeptRes r₀ (execMpopc pre d m s) :=
  crossLane_kept LSpec.mk0_kept hs

/-! ### Streams -/

theorem execDraw_kept {n : Fin 4} {w2 : Bool} (hs : Kept r₀ s) : KeptRes r₀ (execDraw n w2 d s) :=
  perLane_kept ⟨fun _ _ => .pass, fun _ => .pass⟩ (fun _ hs1 => .ok (Issue.commit_kept hs1)) hs

theorem execCatd_kept {n : Fin 4} (hs : Kept r₀ s) : KeptRes r₀ (execCatd n d a s) :=
  perLane_kept ⟨fun _ _ => .pass, fun _ => .pass⟩ (fun _ hs1 => .ok (Issue.commit_kept hs1)) hs

theorem execDsskip_kept {n : Fin 4} (hs : Kept r₀ s) : KeptRes r₀ (execDsskip n a b s) :=
  perLane_kept LSpec.mk0_kept (fun _ hs1 => .ok (Issue.commit_kept hs1)) hs

theorem execDssetp_kept {n : Fin 4} (hs : Kept r₀ s) : KeptRes r₀ (execDssetp n a b s) :=
  perLane_kept LSpec.mk0_kept (fun _ hs1 => .ok (Issue.commit_kept hs1)) hs

theorem execDsfork_kept (hs : Kept r₀ s) : KeptRes r₀ (execDsfork a s) :=
  perLane_kept LSpec.mk0_kept (fun _ hs1 => .ok (Issue.commit_kept hs1)) hs

theorem execDspos_kept {n : Fin 4} (hs : Kept r₀ s) : KeptRes r₀ (execDspos n d s) :=
  perLane_kept LSpec.mk0_kept (fun _ hs1 => .ok (Issue.commit_kept hs1)) hs

/-! ### Branch -/

theorem branch_kept {p : LSpec} {next : Ctx → LaneIn → DWord} {link : Ctx → List (Nat × Word)} (hp : SpecKept r₀ p)
    (hs : Kept r₀ s) :
    KeptRes r₀ (branch p next link s) :=
  perLaneAt_kept hp (fun _ hs1 => demandNone_kept.andThen fun _ => .ok (moveLanes_kept (Issue.commit_kept hs1))) hs

theorem plainBranch_kept {srcs : List (SrcTy × LSrc)} {next : Ctx → LaneIn → DWord} (hs : Kept r₀ s) :
    KeptRes r₀ (plainBranch i srcs next s) :=
  branch_kept LSpec.mk0_kept hs

theorem execBra_kept {disp : BitVec 16} (hs : Kept r₀ s) : KeptRes r₀ (execBra disp s) := plainBranch_kept hs

theorem execBraKernelAbsolute_kept {off : Word} (hs : Kept r₀ s) : KeptRes r₀ (execBraKernelAbsolute off s) :=
  plainBranch_kept hs

theorem execBrm_kept {m : MReg} {disp : BitVec 16} (hs : Kept r₀ s) : KeptRes r₀ (execBrm m disp s) :=
  plainBranch_kept hs

theorem execBrmn_kept {m : MReg} {disp : BitVec 16} (hs : Kept r₀ s) : KeptRes r₀ (execBrmn m disp s) :=
  plainBranch_kept hs

theorem execBrz_kept {d : LSrc} {disp : BitVec 16} (hs : Kept r₀ s) : KeptRes r₀ (execBrz d disp s) :=
  plainBranch_kept hs

theorem execBrnz_kept {d : LSrc} {disp : BitVec 16} (hs : Kept r₀ s) : KeptRes r₀ (execBrnz d disp s) :=
  plainBranch_kept hs

theorem execCall_kept {disp : BitVec 16} (hs : Kept r₀ s) : KeptRes r₀ (execCall disp s) :=
  branch_kept LSpec.mk0_kept hs

theorem execCallKernelAbsolute_kept {off : Word} (hs : Kept r₀ s) : KeptRes r₀ (execCallKernelAbsolute off s) :=
  branch_kept LSpec.mk0_kept hs

theorem execRet_kept (hs : Kept r₀ s) : KeptRes r₀ (execRet a s) := plainBranch_kept hs

theorem execTrap_kept {code : BitVec 16} (hs : Kept r₀ s) : KeptRes r₀ (execTrap code s) :=
  perLaneAt_kept LSpec.mk0_kept (fun _ _ => .error trivial) hs

theorem uniformBranch_kept {disp : BitVec 15} {taken : Ctx → Bool} (hs : Kept r₀ s) :
    KeptRes r₀ (uniformBranch i disp taken s) := by
  unfold uniformBranch
  split
  · exact .fault
  · exact Ctx.settle_kept hs (demand_kept.andThen fun _ => .ok (moveLanes_kept hs))

theorem execSbra_kept {disp : BitVec 15} (hs : Kept r₀ s) : KeptRes r₀ (execSbra disp s) :=
  uniformBranch_kept hs

theorem execSbz_kept {r : SReg} {disp : BitVec 15} (hs : Kept r₀ s) : KeptRes r₀ (execSbz r disp s) :=
  uniformBranch_kept hs

theorem execSbnz_kept {r : SReg} {disp : BitVec 15} (hs : Kept r₀ s) : KeptRes r₀ (execSbnz r disp s) :=
  uniformBranch_kept hs

/-! ### Scalar -/

theorem scalarOp_kept {f : Word → Word → Word} (hs : Kept r₀ s) : KeptRes r₀ (scalarOp i sd sb f s) :=
  uniform_kept (fun _ _ hs1 => .ok (updGroup_kept hs1)) hs

theorem execSadd_kept (hs : Kept r₀ s) : KeptRes r₀ (execSadd sd sb s) := scalarOp_kept hs

theorem execSsub_kept (hs : Kept r₀ s) : KeptRes r₀ (execSsub sd sb s) := scalarOp_kept hs

theorem execSmul_kept (hs : Kept r₀ s) : KeptRes r₀ (execSmul sd sb s) := scalarOp_kept hs

theorem execSand_kept (hs : Kept r₀ s) : KeptRes r₀ (execSand sd sb s) := scalarOp_kept hs

theorem execSor_kept (hs : Kept r₀ s) : KeptRes r₀ (execSor sd sb s) := scalarOp_kept hs

theorem execSxor_kept (hs : Kept r₀ s) : KeptRes r₀ (execSxor sd sb s) := scalarOp_kept hs

theorem execSshl_kept (hs : Kept r₀ s) : KeptRes r₀ (execSshl sd sb s) := scalarOp_kept hs

theorem execSshr_kept (hs : Kept r₀ s) : KeptRes r₀ (execSshr sd sb s) := scalarOp_kept hs

theorem execSsar_kept (hs : Kept r₀ s) : KeptRes r₀ (execSsar sd sb s) := scalarOp_kept hs

theorem execSmin_kept (hs : Kept r₀ s) : KeptRes r₀ (execSmin sd sb s) := scalarOp_kept hs

theorem execSmax_kept (hs : Kept r₀ s) : KeptRes r₀ (execSmax sd sb s) := scalarOp_kept hs

theorem execSmov_kept (hs : Kept r₀ s) : KeptRes r₀ (execSmov sd sb s) := scalarOp_kept hs

theorem execSset_kept {c : ICond} (hs : Kept r₀ s) : KeptRes r₀ (execSset c sd sb s) := scalarOp_kept hs

theorem execSmovi_kept {imm : BitVec 15} (hs : Kept r₀ s) : KeptRes r₀ (execSmovi sd imm s) :=
  uniform_kept (fun _ _ hs1 => .ok (updGroup_kept hs1)) hs

theorem execSlui_kept {imm : BitVec 15} (hs : Kept r₀ s) : KeptRes r₀ (execSlui sd imm s) :=
  uniform_kept (fun _ _ hs1 => .ok (updGroup_kept hs1)) hs

theorem execV2s_kept {lane : Bool} {v : VReg} {x : Fin 64} (hs : Kept r₀ s) : KeptRes r₀ (execV2s sd lane v x s) := by
  unfold execV2s
  split
  · exact .fault
  · exact Ctx.settle_kept hs (demand_kept.andThen fun _ => demand_kept.andThen fun _ => Ctx.fallOk_kept.andThen fun _ =>
    demand_kept.andThen fun _ => by
        extract_lets w next
        have hs1 : ∀ a, KeptExc r₀ (Kept r₀) (next a) := fun _ => .ok (Ctx.advance_kept (updGroup_kept hs))
        split
        · exact demandNone_kept.andThen fun _ => hs1 ()
        · exact demandNone_kept.andThen fun _ => demandNone_kept.andThen fun _ => hs1 ())

theorem execNop_kept (hs : Kept r₀ s) : KeptRes r₀ (execNop s) := uniform_kept (fun _ _ hs1 => .ok hs1) hs

theorem execNopLiteral_kept {inSd inSb : Bool} {w : Word} (hs : Kept r₀ s) : KeptRes r₀ (execNopLiteral inSd inSb w s) :=
  uniform_kept (fun _ _ hs1 => .ok hs1) hs

theorem idItem_kept {sel : Nat} : KeptExc r₀ (fun _ => True) (idItem c sel) := by
  unfold idItem
  extract_lets base
  split
  · exact .pass
  · exact .pass
  · exact .pass
  · exact .pass
  · exact .pass
  · exact .pass
  · exact .pass
  · exact ite_keeps trapAll_kept .pass
  · exact ite_keeps trapAll_kept .pass
  · exact .pass
  · exact .pass
  · exact .pass
  · exact .pass
  · exact trapAll_kept

theorem execIdrd_kept (hs : Kept r₀ s) : KeptRes r₀ (execIdrd sd sb s) :=
  uniform_kept (fun _ _ hs1 => idItem_kept.andThen fun _ => .ok (updGroup_kept hs1)) hs

theorem execQrd_kept {q : Fin 8} (hs : Kept r₀ s) : KeptRes r₀ (execQrd q sb s) := by
  unfold execQrd
  exact uniform_kept (fun _ _ hs1 => by
    extract_lets put
    have hs2 : ∀ a b, Kept r₀ a → KeptExc r₀ (Kept r₀) (put a b) := fun _ _ hs3 => .ok (updGroup_kept hs3)
    split
    · exact hs2 _ _ hs1
    · exact hs2 _ _ hs1
    · exact hs2 _ _ hs1
    · exact hs2 _ _ hs1
    · exact trapAll_kept) hs

/-! ### LoadStore -/

theorem groupOk_kept {d : Nat} : KeptExc r₀ (fun _ => True) (groupOk d n c) := demand_kept

theorem dataOk_kept {d : LSrc} {w : Width} : KeptExc r₀ (fun _ => True) (dataOk d w c) := by
  unfold dataOk
  split
  · exact .pass
  · split
    · exact groupOk_kept
    · exact trapAll_kept

theorem loadSpec_kept {h : HSel} : SpecKept r₀ (loadSpec i d a h) :=
  ⟨fun _ _ => groupOk_kept, fun _ => .pass⟩

theorem loadBody_kept {mode : LoadMode} {x : Issue} (hs : Kept r₀ x.s) : KeptExc r₀ (Kept r₀) (loadBody mode d x) :=
  Ctx.handle_kept.andThen fun _ => acceptFmt_kept.andThen fun _ => laneRuns_kept.andThen fun _ =>
    .ite_bind spCheck_kept .pass fun _ _ => (reachRead_kept hs).bind fun _ hs1 =>
    .ite_bind (.ok hs1) (tileCheck_kept hs1) fun _ hs2 => (thereafter_kept hs2 (watchStep_kept hs2)).bind fun _ hs3 =>
    (observeParked_kept hs3).bind fun _ hs4 => .ok (Issue.commit_kept (acceptOp_kept (bindWide_kept hs4)))

theorem execLd_kept {h : HSel} (hs : Kept r₀ s) : KeptRes r₀ (execLd d a h s) :=
  perLane_kept loadSpec_kept (fun _ hs1 => loadBody_kept hs1) hs

theorem execLde_kept {h : HSel} (hs : Kept r₀ s) : KeptRes r₀ (execLde d a h s) :=
  perLane_kept loadSpec_kept (fun _ hs1 => loadBody_kept hs1) hs

theorem execLdnr_kept {h : HSel} (hs : Kept r₀ s) : KeptRes r₀ (execLdnr d a h s) :=
  perLane_kept loadSpec_kept (fun _ hs1 => loadBody_kept hs1) hs

theorem storeSpec_kept {t : SrcTy} {d : LSrc} {h : HSel} : SpecKept r₀ (storeSpec i t d a h) :=
  ⟨fun _ _ => dataOk_kept, fun _ => .pass⟩

theorem pushFifo_kept {e : FifoEntry} (hs : Kept r₀ s) (he : Owns s k e.op) : Kept r₀ (pushFifo s k e) :=
  KeptOf.updateFifos hs fun g hg hk x hx => by
    rcases List.mem_append.1 hx with hx | hx
    · exact hs.fifos g hg x hx
    · obtain rfl := List.mem_singleton.1 hx
      exact (of_decide_eq_true hk : g.key = k) ▸ he

/-- An operation is accepted and its entry stands in the FIFO of its group. -/
theorem pushAccepted_kept {cls : OpClass} {kind : OpKind} {e : Nat → FifoEntry} (he : ∀ n, (e n).op = n) (hs : Kept r₀ s) :
    Kept r₀ (pushFifo (acceptOp s c cls kind).1 c.g.key (e (acceptOp s c cls kind).2)) :=
  pushFifo_kept (acceptOp_kept hs) (he _ ▸ acceptOp_owns hs)

theorem acceptStore_kept {ps : List (Run × List Byte)} (hs : Kept r₀ s) : Kept r₀ (acceptStore c s h nt rel ps) :=
  pushAccepted_kept (e := fun n => .store n _ _ _) (fun _ => rfl) (addDigest_kept (clearPoisonFor_kept hs))

theorem storeBody_kept {conv : Bool} {d : LSrc} {x : Issue} (hs : Kept r₀ x.s) : KeptExc r₀ (Kept r₀) (storeBody conv nt d x) :=
  Ctx.handle_kept.andThen fun _ => acceptFmt_kept.andThen fun _ => laneRuns_kept.andThen fun _ =>
    reach_kept.andThen fun _ => (watchStep_kept hs).bind fun _ hs1 => (observeParked_kept hs1).bind fun _ hs2 =>
    .ok (Issue.commit_kept (acceptStore_kept hs2))

theorem execSt_kept {d : LSrc} {h : HSel} (hs : Kept r₀ s) : KeptRes r₀ (execSt d a h s) :=
  perLane_kept storeSpec_kept (fun _ hs1 => storeBody_kept hs1) hs

theorem execSte_kept {d : LSrc} {h : HSel} (hs : Kept r₀ s) : KeptRes r₀ (execSte d a h s) :=
  perLane_kept storeSpec_kept (fun _ hs1 => storeBody_kept hs1) hs

theorem execStnt_kept {d : LSrc} {h : HSel} (hs : Kept r₀ s) : KeptRes r₀ (execStnt d a h s) :=
  perLane_kept storeSpec_kept (fun _ hs1 => storeBody_kept hs1) hs

theorem halfElems_kept {h2 : Handle} {idx : List (Nat × Nat)} : KeptExc r₀ (fun _ => True) (halfElems c h h2 n idx) := by
  unfold halfElems
  extract_lets all out src es next
  have hs : ∀ a, KeptExc r₀ (fun _ => True) (next a) := fun _ => demandNone_kept.andThen fun _ => .pass
  exact ite_keeps (.error trivial) (.ite_bind spCheck_kept .pass fun _ _ => hs ())

theorem clearHalf_kept (hs : Kept r₀ s) : Kept r₀ (clearHalf s k pc) := updGroup_kept hs

theorem secondFails_kept {e : Stop} (hs : Kept r₀ s) (he : KeptStop r₀ e) : KeptStop r₀ (secondFails c s e) := by
  unfold secondFails
  extract_lets pair
  split
  · exact clearHalf_kept hs
  · exact clearHalf_kept he
  · exact updGroup_kept hs
  · exact he

theorem secondHalf_kept {h2 : Handle} {es : List HalfElem} (hs : Kept r₀ s) : KeptExc r₀ (Kept r₀) (secondHalf c s h2 es) := by
  unfold secondHalf
  extract_lets xs next r
  have hr : KeptExc r₀ (Kept r₀) r := .ite_bind .pass xlCheck_kept fun _ _ => watchStep_kept hs
  clear_value r
  split
  · exact hr
  · exact .error (secondFails_kept hs hr)

theorem pushSecond_kept {new : Option Nat} {ids : List Nat} {bs : List StoreByte} (hs : Kept r₀ s)
    (hnew : ∀ n, new = some n → Owns s c.g.key n) : Kept r₀ (pushSecond c s nt new ids bs) := by
  unfold pushSecond
  extract_lets s1 put
  have hs1 : Kept r₀ s1 := updGroup_kept hs
  have hput : ∀ a : State × Nat, Kept r₀ a.1 → Owns a.1 c.g.key a.2 → Kept r₀ (put a) := fun _ ha hn => pushFifo_kept ha hn
  split
  · split
    · exact hput _ hs1 (hnew _ rfl)
    · exact hput _ (acceptOp_kept hs1) (acceptOp_owns hs1)
  · exact hput _ (acceptOp_kept hs1) (acceptOp_owns hs1)

theorem closePst_kept {p : OpenPst → Bool} (hs : Kept r₀ s) : Kept r₀ (closePst s k p) := by
  unfold closePst
  split
  · exact hs
  · exact foldl_kept (fun _ _ hs1 => storeLeft_kept hs1) (updGroup_kept hs)

theorem closeStale_kept (hs : Kept r₀ s) : Kept r₀ (closeStale s k) := by
  unfold closeStale
  split
  · exact hs
  · exact ite_keeps hs (closePst_kept hs)

theorem pstBody_kept {h2n : Slot} {d : LSrc} {x : Issue} (hs : Kept r₀ x.s) : KeptExc r₀ (Kept r₀) (pstBody h2n d x) :=
  Ctx.handle_kept.andThen fun h => Ctx.handle_kept.andThen fun h2 => demand_kept.andThen fun _ =>
    laneRuns_kept.andThen fun _ => halfElems_kept.andThen fun _ => .ite_bind presenceCheck_kept .pass fun _ _ =>
    reach_kept.andThen fun _ => (watchStep_kept hs).bind fun _ hs1 => (observeParked_kept hs1).bind fun _ hs2 =>
    (observeParked_kept hs2).bind fun s hs3 => by
    extract_lets data ps bs a s1 qs new
    have hd : Kept a.1 (addDigest (clearPoisonFor a.1 bs) x.c.ln h (storeAddrs ps)) :=
      addDigest_kept (clearPoisonFor_kept (acceptOp_kept hs3).self)
    have own : Owns (addDigest (clearPoisonFor a.1 bs) x.c.ln h (storeAddrs ps)) x.c.g.key a.2 := hd.owns (acceptOp_owns hs3)
    have hs1 : Kept r₀ s1 := ite_keeps hs3 (updGroup_kept (pushFifo_kept ((acceptOp_kept hs3).trans hd) own))
    have own1 : ∀ n, new = some n → Owns s1 x.c.g.key n := fun n hn => by
      unfold new at hn
      split at hn
      · cases hn
      · next hne =>
        obtain rfl := Option.some.inj hn
        rw [show s1 = _ from if_neg hne]
        exact own
    clear_value s1 new
    exact (KeptExc.since hs1 (secondHalf_kept hs1.self)).bind fun s2 hs2 => .ok (Issue.commit_kept (pushSecond_kept
      (addDigest_kept (clearPoisonFor_kept (clearHalf_kept hs2.1))) fun n hn =>
        Kept.owns (addDigest_kept (clearPoisonFor_kept (clearHalf_kept hs2.2))) (own1 n hn)))

theorem execPst_kept {h2 : Slot} {d : LSrc} {h : HSel} (hs : Kept r₀ s) : KeptRes r₀ (execPst h2 d a h s) :=
  perLane_kept ⟨fun _ _ => dataOk_kept, fun _ => .pass⟩ (fun _ hx => pstBody_kept hx) hs

theorem popRun_kept {kinds : List WKind} {i : Nat} (hs : Kept r₀ s) :
    KeptExc r₀ (fun r => Kept r₀ r.2) (popRun c s h need kinds i n) := by
  unfold popRun
  exact wholePop_kept (laneRuns_kept.andThen fun _ => by
    extract_lets els next
    have hs1 : ∀ a, Kept r₀ a → KeptExc r₀ (fun r => Kept r₀ r.2) (next a) := fun _ hs2 =>
      (thereafter_kept hs2 (watchStep_kept hs2)).bind fun _ hs3 => .ok hs3
    split
    · exact (reachRead_kept hs).bind fun _ hs4 => hs1 _ hs4
    · exact reach_kept.andThen fun _ => KeptExc.bind (P := Kept r₀) (.ok hs) fun _ hs5 => hs1 _ hs5)

theorem setSregs_kept {r : Nat} {ws : List Word} (hs : Kept r₀ s) : Kept r₀ (setSregs s k r ws) :=
  updGroup_kept hs fun g => setSregs_entries g r _

theorem popRead_kept {ls : List Loc} (hs : Kept r₀ s) : Kept r₀ (popRead c s acq ls).2 :=
  ite_keeps (P := fun r : _ × State => Kept r₀ r.2) (l1DropAll_kept (touchHome_kept (settleFor_kept hs))) (bindWide_kept hs)

theorem lduBody_kept {v : Word} (hs : Kept r₀ s) : KeptExc r₀ (Kept r₀) (lduBody acq wide sd v c s) := by
  unfold lduBody
  exact Ctx.handle_kept.andThen fun _ => acceptFmt_kept.andThen fun _ => (popRun_kept hs).bind fun _ hs1 =>
    (observeParked_kept hs1).bind fun _ hs2 => by
    split
    · exact .ok (setSregs_kept hs2)
    · exact .ok (setSregs_kept (popRead_kept hs2))

theorem execLdu_kept (hs : Kept r₀ s) : KeptRes r₀ (execLdu acq wide sd sb s) :=
  uniform_kept (fun _ _ hs1 => lduBody_kept hs1) hs

theorem popStore_kept {fold : Bool} {run : Option Run} {ws : List Word} (hs : Kept r₀ s) :
    Kept r₀ (popStore c s h rel fold run ws) :=
  pushAccepted_kept (e := fun n => .store n _ _ _) (fun _ => rfl)
    (ite_keeps (addDigest_kept (clearPoisonFor_kept hs)) (clearPoisonFor_kept hs))

theorem classRoom_kept {cls : OpClass} : KeptExc r₀ (fun _ => True) (classRoom c s cls) :=
  ite_keeps (.error trivial) .pass

theorem execStu_kept (hs : Kept r₀ s) : KeptRes r₀ (execStu rel wide sd sb s) :=
  uniform_kept (fun _ _ hs1 => classRoom_kept.andThen fun _ => Ctx.handle_kept.andThen fun _ =>
    acceptFmt_kept.andThen fun _ => (popRun_kept hs1).bind fun _ hs2 => (observeParked_kept hs2).bind fun _ hs3 =>
    .ok (popStore_kept hs3)) hs

theorem execQst_kept {q : Fin 8} (hs : Kept r₀ s) : KeptRes r₀ (execQst q sb s) :=
  uniform_kept (fun _ _ hs1 => classRoom_kept.andThen fun _ => Ctx.handle_kept.andThen fun _ =>
    demand_kept.andThen fun _ => (popRun_kept hs1).bind fun _ hs2 => (observeParked_kept hs2).bind fun _ hs3 =>
    .ok (popStore_kept hs3)) hs

theorem fenceEffect_kept {sc : Scope} (hs : Kept r₀ s) : Kept r₀ (fenceEffect s core sc) :=
  ite_keeps (l1DropAll_kept hs) hs

theorem execFence_kept {sc : Scope} (hs : Kept r₀ s) : KeptRes r₀ (execFence sc s) :=
  uniform_kept (fun _ _ hs1 => ite_keeps (.ok (fenceEffect_kept hs1)) (.error hs1)) hs

theorem execNtdrain_kept {sc : Scope} (hs : Kept r₀ s) : KeptRes r₀ (execNtdrain sc s) :=
  uniform_kept (fun _ _ hs1 => ite_keeps (.ok hs1) (.error hs1)) hs

theorem notEnabled_kept {name : String} : KeptRes r₀ (notEnabled name) := .refused

theorem eventOf_kept {name : String} {r : Option State} (ho : InvOpt (Kept r₀) r) : KeptRes r₀ (eventOf name r) := by
  unfold eventOf
  split
  · exact .next ho
  · exact notEnabled_kept

theorem releaseHold_kept {h : Hold} (hs : Kept r₀ s) : Kept r₀ (releaseHold s k h) :=
  moveLanes_kept (updGroup_kept hs)

theorem completeLoad_kept (hs : Kept r₀ s) : InvOpt (Kept r₀) (completeLoad s id) := by
  unfold completeLoad
  split
  · exact .none
  · split
    · exact ite_keeps (.some (finishOp_kept (landRegs_kept hs))) .none
    · exact .none

theorem execLoadComplete_kept (hs : Kept r₀ s) : KeptRes r₀ (execLoadComplete op s) :=
  eventOf_kept (completeLoad_kept hs)

theorem execStoreRetire_kept {g : GKey} (hs : Kept r₀ s) : KeptRes r₀ (execStoreRetire g s) :=
  eventOf_kept (retireStore_kept hs)

theorem writeNt_kept {idx : Nat} (hs : Kept r₀ s) : InvOpt (Kept r₀) (writeNt s core idx) := by
  unfold writeNt
  split
  · exact .none
  · exact ite_keeps .none (.some (wcEntryOut_kept hs))

theorem execNtStoreWrite_kept {idx : Nat} (hs : Kept r₀ s) : KeptRes r₀ (execNtStoreWrite core idx s) :=
  eventOf_kept (writeNt_kept hs)

theorem execAtomicPerform_kept {req : Nat} (hs : Kept r₀ s) : KeptRes r₀ (execAtomicPerform op req s) :=
  eventOf_kept (performAtomic_kept hs)

theorem completeFence_kept (hs : Kept r₀ s) : InvOpt (Kept r₀) (completeFence s k pc) := by
  unfold completeFence
  split
  · split
    · exact .some (releaseHold_kept (fenceEffect_kept hs))
    · exact .none
  · exact .none

theorem execFenceComplete_kept {g : GKey} (hs : Kept r₀ s) : KeptRes r₀ (execFenceComplete g pc s) :=
  eventOf_kept (completeFence_kept hs)

theorem returnDrain_kept (hs : Kept r₀ s) : InvOpt (Kept r₀) (returnDrain s k pc) :=
  InvOpt.mapAll (fun _ => releaseHold_kept hs)

theorem execNtdrainReturn_kept {g : GKey} (hs : Kept r₀ s) : KeptRes r₀ (execNtdrainReturn g pc s) :=
  eventOf_kept (returnDrain_kept hs)

theorem wake_kept (hs : Kept r₀ s) : Kept r₀ (wake s k pc) := updGroup_kept hs

theorem unparkPresence_kept (hs : Kept r₀ s) : InvOpt (Kept r₀) (unparkPresence s k pc) := by
  unfold unparkPresence
  split
  · split
    · split
      · exact ite_keeps .none (.some (wake_kept hs))
      · exact .some (wake_kept hs)
    · exact .none
  · exact .none

theorem execPresenceUnpark_kept {g : GKey} (hs : Kept r₀ s) : KeptRes r₀ (execPresenceUnpark g pc s) :=
  eventOf_kept (unparkPresence_kept hs)

theorem unparkMigration_kept (hs : Kept r₀ s) : InvOpt (Kept r₀) (unparkMigration s k pc) := by
  have woken {b : Bool} : InvOpt (Kept r₀) (if b then some (wake s k pc) else none) := ite_keeps (.some (wake_kept hs)) .none
  unfold unparkMigration
  split
  · split
    · exact woken
    · exact woken
    · trivial
  · trivial

theorem execMigrationUnpark_kept {g : GKey} (hs : Kept r₀ s) : KeptRes r₀ (execMigrationUnpark g pc s) :=
  eventOf_kept (unparkMigration_kept hs)

/-! ### Atomic -/

theorem AtomSpec.widthOk_kept {p : AtomSpec} {w : Width} : KeptExc r₀ (fun _ => True) (AtomSpec.widthOk p w c) := by
  unfold AtomSpec.widthOk
  exact demand_kept.andThen fun _ => by
    split
    · split
      · exact groupOk_kept
      · exact trapAll_kept
    · exact .pass

theorem AtomSpec.issue_kept {p : AtomSpec} {h : HSel} : SpecKept r₀ (AtomSpec.issue p i a h) :=
  ⟨fun _ _ => AtomSpec.widthOk_kept, fun _ => .pass⟩

theorem acceptAtomic_kept {a : Atomic} (hs : Kept r₀ s) : Kept r₀ (acceptAtomic c s a) := by
  unfold acceptAtomic
  split
  · split
    · exact acceptOp_kept hs
    · exact finishOp_kept (acceptOp_kept hs)
  · exact pushAccepted_kept (e := .atomic) (fun _ => rfl) hs

theorem atomBody_kept {p : AtomSpec} {x : Issue} (hs : Kept r₀ x.s) : KeptExc r₀ (Kept r₀) (atomBody p x) :=
  Ctx.handle_kept.andThen fun _ => demand_kept.andThen fun _ => demand_kept.andThen fun _ =>
    laneRuns_kept.andThen fun _ => (reachRw_kept hs).bind fun _ hs1 => (watchStep_kept hs1).bind fun _ hs2 =>
    (observeParked_kept hs2).bind fun _ hs3 => .ok (Issue.commit_kept (acceptAtomic_kept hs3))

theorem execAtom_kept {op : AtomOp} {ord : MemOrd} {h : HSel} (hs : Kept r₀ s) : KeptRes r₀ (execAtom op ord d a h s) :=
  perLane_kept AtomSpec.issue_kept (fun _ hs1 => atomBody_kept hs1) hs

theorem execAtomr_kept {op : AtomOp} {d : LSrc} {h : HSel} (hs : Kept r₀ s) : KeptRes r₀ (execAtomr op d a h s) :=
  perLane_kept AtomSpec.issue_kept (fun _ hs1 => atomBody_kept hs1) hs

theorem execCas_kept {ord : MemOrd} {h : HSel} (hs : Kept r₀ s) : KeptRes r₀ (execCas ord d a h s) :=
  perLane_kept AtomSpec.issue_kept (fun _ hs1 => atomBody_kept hs1) hs

theorem execCas128_kept {ord : MemOrd} {h : HSel} (hs : Kept r₀ s) : KeptRes r₀ (execCas128 ord d a h s) :=
  perLane_kept AtomSpec.issue_kept (fun _ hs1 => atomBody_kept hs1) hs

/-! ### Barrier -/

theorem barPut_kept {b : Bar} (hs : Kept r₀ s) : Kept r₀ (barPut s uid off b) := by
  unfold barPut
  extract_lets s1
  have hs1 : Kept r₀ s1 := locSetBytes_kept hs
  clear_value s1
  exact KeptOf.updateGroups hs1

theorem barUpdate_kept {f : Bar → Bar} (hs : Kept r₀ s) : Kept r₀ (barUpdate s uid off f) := barPut_kept hs

theorem barLine_kept : KeptExc r₀ (fun _ => True) (barLine c s off n) :=
  presenceCheck_kept.andThen fun _ => ite_keeps (.error trivial) .pass

theorem barAt_kept {b : Nat} : KeptExc r₀ (fun _ => True) (barAt c b) :=
  .ite_bind spTrap_kept .pass fun _ _ => demand_kept.andThen fun _ => .pass

theorem ringAt_kept {h q : Nat} : KeptExc r₀ (fun _ => True) (ringAt c s h q) :=
  .ite_bind spTrap_kept .pass fun _ _ => demand_kept.andThen fun _ => barLine_kept.andThen fun _ =>
    demand_kept.andThen fun _ => .ite_bind spTrap_kept .pass fun _ _ => .pass

theorem locateBar_kept {sd : USrc} {p : Nat} : KeptExc r₀ (fun _ => True) (locateBar c s ring sd p) := by
  unfold locateBar
  exact KeptExc.andThen (by
    split
    · split <;> exact ringAt_kept
    · exact barAt_kept.andThen fun _ => .pass) fun _ => barLine_kept.andThen fun _ => demand_kept.andThen fun _ => .pass

theorem observeBar_kept {sd : USrc} (hs : Kept r₀ s) : KeptExc r₀ (Kept r₀) (observeBar c s ring sd off) :=
  observeLines_kept hs

theorem initSlots_kept {b a m : Nat} (hs : Kept r₀ s) : Kept r₀ (initSlots s uid b a n m) := by
  induction m with
  | zero => exact hs
  | succ m ih => exact barPut_kept ih

theorem execBinit_kept {sd : USrc} (hs : Kept r₀ s) : KeptRes r₀ (execBinit sd sb s) :=
  uniform_kept (fun _ _ hs1 => demand_kept.andThen fun _ => barAt_kept.andThen fun _ =>
    presenceCheck_kept.andThen fun _ => .ite_bind spTrap_kept .pass fun _ _ => presenceCheck_kept.andThen fun _ =>
    (observeLines_kept (drainFifo_kept hs1)).bind fun _ hs2 => .ok (initSlots_kept hs2)) hs

theorem execBarrive_kept {exp : Bool} {sd : USrc} (hs : Kept r₀ s) : KeptRes r₀ (execBarrive ring exp sd sb s) :=
  uniform_kept (fun _ _ hs1 => demand_kept.andThen fun _ => locateBar_kept.andThen fun _ =>
    (observeBar_kept (drainFifo_kept hs1)).bind fun _ hs2 => .ok (barUpdate_kept hs2)) hs

theorem execBexpect_kept {sd : USrc} (hs : Kept r₀ s) : KeptRes r₀ (execBexpect ring sd sb s) :=
  uniform_kept (fun _ _ hs1 => demand_kept.andThen fun _ => locateBar_kept.andThen fun _ =>
    (observeBar_kept (drainFifo_kept hs1)).bind fun _ hs2 => .ok (barUpdate_kept hs2)) hs

theorem execBwait_kept {sd : USrc} (hs : Kept r₀ s) : KeptRes r₀ (execBwait ring sd sb s) :=
  uniform_kept (fun _ _ hs1 => demand_kept.andThen fun _ => locateBar_kept.andThen fun _ =>
    (observeBar_kept (drainFifo_kept hs1)).bind fun _ hs2 => ite_keeps (observe_kept hs2) (.error hs2)) hs

theorem execBtest_kept {mode : BtMode} (hs : Kept r₀ s) : KeptRes r₀ (execBtest mode ring sd sb s) := by
  unfold execBtest
  exact uniform_kept (fun _ _ hs1 => demand_kept.andThen fun _ => locateBar_kept.andThen fun _ =>
    (observeBar_kept (drainFifo_kept hs1)).bind fun _ hs2 => by
    extract_lets b put
    have hs3 : ∀ a x, Kept r₀ a → Kept r₀ (put a x) := fun _ _ hs4 => updGroup_kept hs4
    split
    · exact ite_keeps ((observe_kept hs2).bind fun _ hs5 => .ok (hs3 _ _ hs5)) (.ok (hs3 _ _ hs2))
    · exact .ok (hs3 _ _ hs2)
    · exact .ok (hs3 _ _ (barPut_kept hs2))) hs

theorem execWaitc_kept {nld nst ncp ntl : Fin 64} (hs : Kept r₀ s) : KeptRes r₀ (execWaitc nld nst ncp ntl s) :=
  uniform_kept (fun _ _ hs1 => ite_keeps (observe_kept hs1) (.error hs1)) hs

theorem finishHold_kept {h : Hold} {r : Except Stop State} (hs : Kept r₀ s) (hx : KeptExc r₀ (Kept r₀) r) :
    Kept r₀ (finishHold s k h r) := by
  unfold finishHold
  split
  · exact releaseHold_kept hx
  · exact takeTrap_kept (updGroup_kept hx)
  · exact hs

theorem returnBwait_kept (hs : Kept r₀ s) : InvOpt (Kept r₀) (returnBwait s k pc) := by
  unfold returnBwait
  split
  · split
    · exact .some (finishHold_kept hs (observe_kept hs))
    · exact .none
  · exact .none

theorem execBwaitReturn_kept {g : GKey} (hs : Kept r₀ s) : KeptRes r₀ (execBwaitReturn g pc s) :=
  eventOf_kept (returnBwait_kept hs)

theorem returnWaitc_kept (hs : Kept r₀ s) : InvOpt (Kept r₀) (returnWaitc s k pc) := by
  unfold returnWaitc
  split
  · split
    · exact .some (finishHold_kept hs (observe_kept hs))
    · exact .none
  · exact .none

theorem execWaitcReturn_kept {g : GKey} (hs : Kept r₀ s) : KeptRes r₀ (execWaitcReturn g pc s) :=
  eventOf_kept (returnWaitc_kept hs)

theorem homeReady_kept {l : Loc} (hs : Kept r₀ s) : Kept r₀ (homeReady c s rel l) :=
  atomReady_kept (settlePassed_kept hs)

theorem ringOpen_kept {v : Word} (hs : Kept r₀ s) :
    KeptExc r₀ (fun r => InvOpt (fun r => Kept r₀ r.2.2) r) (ringOpen c s wide rel v) := by
  unfold ringOpen
  exact Ctx.handle_kept.andThen fun _ => acceptFmt_kept.andThen fun _ =>
    (asControl_kept (wholePop_kept laneRuns_kept)).andThen fun _ => (wholePop_kept (reachRw_kept hs)).bind fun _ hs1 => by
    split
    · exact .ok .none
    · split
      · exact .ok .none
      · exact (observeParked_kept (homeReady_kept (flushScats_kept (drainFifo_kept hs1)))).bind fun _ hs2 =>
        demand_kept.andThen fun _ => by
            extract_lets n at' next src
            have hs3 : ∀ a, KeptExc r₀ (fun r => InvOpt (fun r => Kept r₀ r.2.2) r) (next a) := fun _ => .ok (.some hs2)
            split
            · exact .ite_bind (.error trivial) .pass fun _ _ => hs3 ()
            · exact ite_keeps (wholePop_kept oobTrap_kept) (.ok .none)

theorem ringEntry_kept {i k logn : Nat} (hs : Kept r₀ s) : KeptExc r₀ (fun r => Kept r₀ r.2) (ringEntry c s h i n k logn) :=
  (wholePop_kept reach_kept).andThen fun _ => (observeParked_kept hs).bind fun _ hs1 => .ok hs1

theorem enqBody_kept {v : Word} (hs : Kept r₀ s) : KeptExc r₀ (Kept r₀) (enqBody rel wide sd v c s) := by
  unfold enqBody
  exact (ringOpen_kept hs).bind fun _ hs1 => by
    split
    · exact .ok (updGroup_kept hs)
    · split
      · exact .ok (updGroup_kept hs1)
      · exact (ringEntry_kept hs1).bind fun _ hs2 => by
            split
            · split
              · exact .ok (updGroup_kept (locSetBytes_kept (locSetBytes_kept (homeReady_kept hs2))))
              · exact .ok (updGroup_kept hs2)

theorem execRqenq_kept (hs : Kept r₀ s) : KeptRes r₀ (execRqenq rel wide sd sb s) :=
  uniform_kept (fun _ _ hs1 => enqBody_kept hs1) hs

theorem deqBody_kept {v : Word} (hs : Kept r₀ s) : KeptExc r₀ (Kept r₀) (deqBody acq wide sd v c s) := by
  have acquired {s : State} (hs : Kept r₀ s) : Kept r₀ (if wideOpt acq then l1DropAll s c.w.core else s) := ite_keeps
    (l1DropAll_kept hs) hs
  unfold deqBody
  refine (ringOpen_kept hs).bind fun o ho => ?_
  split
  · exact .ok (updGroup_kept hs)
  · split
    · exact .ok (acquired (updGroup_kept ho))
    · refine (ringEntry_kept ho).bind fun e he => ?_
      dsimp only
      split
      · exact .ok (acquired (updGroup_kept (setSregs_kept (locSetBytes_kept (homeReady_kept he)))))
      · exact .ok (updGroup_kept he)

theorem execRqdeq_kept (hs : Kept r₀ s) : KeptRes r₀ (execRqdeq acq wide sd sb s) :=
  uniform_kept (fun _ _ hs1 => deqBody_kept hs1) hs

/-! ### Tables -/

theorem tableRun_kept {i align : Nat} (hs : Kept r₀ s) : KeptExc r₀ (fun r => Kept r₀ r.2) (tableRun c s h i n align) := by
  unfold tableRun
  exact wholePop_kept (by
    split
    · exact oobTrap_kept
    · exact demand_kept.andThen fun _ => .ite_bind spCheck_kept .pass fun _ _ => (reachRead_kept hs).bind fun _ hs1 =>
      (thereafter_kept hs1 (watchStep_kept hs1)).bind fun _ hs2 => (observeParked_kept hs2).bind fun _ hs3 => .ok hs3)

theorem tableBytes_kept {a : Nat} (hs : Kept r₀ s) : Kept r₀ (tableBytes c s h a n).2 := bindWide_kept hs

theorem tableSource_kept {src : Nat} {profileOk : Bool} : KeptExc r₀ (fun _ => True) (tableSource c src profileOk) :=
  demand_kept.andThen fun _ => Ctx.handle_kept.andThen fun _ => demand_kept.andThen fun _ => .pass

theorem setSlot_kept {x : Nat} (hs : Kept r₀ s) : Kept r₀ (setSlot s uid x h) := updWg_kept hs

theorem hloadBody_kept {x : Slot} {src : Word} (hs : Kept r₀ s) : KeptExc r₀ (Kept r₀) (hloadBody sd x src c s) := by
  unfold hloadBody
  exact tableSource_kept.andThen fun _ => (tableRun_kept hs).bind fun _ hs1 => by
    extract_lets q d
    have hs2 : Kept r₀ q.2 := tableBytes_kept hs1
    split
    · split
      · exact thereafter_kept hs2 trapAll_kept
      · exact .ok (setSlot_kept hs2)
    · exact .ok (setSlot_kept hs2)

theorem execHload_kept {x : Slot} (hs : Kept r₀ s) : KeptRes r₀ (execHload sd sb x s) :=
  uniform_kept (fun _ _ hs1 => hloadBody_kept hs1) hs

theorem hadjBody_kept {x : Slot} {sel : Word} (hs : Kept r₀ s) : KeptExc r₀ (Kept r₀) (hadjBody sd x sel c s) := by
  unfold hadjBody
  exact demand_kept.andThen fun _ => by
    split
    · exact trapAll_kept
    · exact Ctx.handle_kept.andThen fun _ => by
          split
          · exact trapAll_kept
          · exact .ok (setSlot_kept hs)

theorem execHadj_kept {x : Slot} (hs : Kept r₀ s) : KeptRes r₀ (execHadj sd sb x s) :=
  uniform_kept (fun _ _ hs1 => hadjBody_kept hs1) hs

theorem execHqry_kept {x : Slot} (hs : Kept r₀ s) : KeptRes r₀ (execHqry sd sb x s) := by
  unfold execHqry
  exact uniform_kept (fun _ _ hs1 => by
    split
    · exact trapAll_kept
    · exact .ok (updGroup_kept hs1)) hs

theorem dsTable_kept {d : DsDesc} {k : DsType} (hs : Kept r₀ s) : KeptExc r₀ (fun r => Kept r₀ r.2) (dsTable c s d k) := by
  unfold dsTable
  split
  · exact .ok hs
  · exact Ctx.handle_kept.andThen fun _ => demand_kept.andThen fun _ => demand_kept.andThen fun _ =>
    .ite_bind spTrap_kept .pass fun _ _ => presenceCheck_kept.andThen fun _ => by
        split
        · exact thereafter_kept (settleFor_kept hs) (barLine_kept.andThen fun _ => demand_kept.andThen fun _ =>
          .ok (settleFor_kept hs))
        · exact .ok hs

theorem dsldBody_kept {x : Fin 16} {src : Word} (hs : Kept r₀ s) : KeptExc r₀ (Kept r₀) (dsldBody sd x src c s) := by
  unfold dsldBody
  exact tableSource_kept.andThen fun _ => (tableRun_kept hs).bind fun _ hs1 => by
    extract_lets q d clear
    have hs2 : Kept r₀ q.2 := tableBytes_kept hs1
    have hs3 : Kept r₀ clear := updGroup_kept hs2
    split
    · exact .ok hs3
    · exact thereafter_kept hs2 (by
          split
          · exact trapAll_kept
          · exact demand_kept.andThen fun _ => (dsTable_kept hs2).bind fun _ hs4 =>
            (observeLines_kept hs4).bind fun _ hs5 => by
                extract_lets im
                exact .ok (updGroup_kept hs5))

theorem execDsld_kept {x : Fin 16} (hs : Kept r₀ s) : KeptRes r₀ (execDsld sd sb x s) :=
  uniform_kept (fun _ _ hs1 => dsldBody_kept hs1) hs

theorem gnldBody_kept {x : Fin 8} {src : Word} (hs : Kept r₀ s) : KeptExc r₀ (Kept r₀) (gnldBody sd x src c s) := by
  unfold gnldBody
  exact tableSource_kept.andThen fun _ => (tableRun_kept hs).bind fun _ hs1 => by
    extract_lets q d put
    have hs2 : Kept r₀ q.2 := tableBytes_kept hs1
    have hs3 : ∀ a b, Kept r₀ a → Kept r₀ (put a b) := by
      unfold put
      exact fun _ _ hs4 => by
        extract_lets im
        exact updGroup_kept hs4
    split
    · exact .ok (updGroup_kept hs2)
    · exact thereafter_kept hs2 (demand_kept.andThen fun _ => by
          split
          · exact (tableRun_kept hs2).bind fun _ hs5 => by
                extract_lets q2
                have hs6 : Kept r₀ q2.2 := tableBytes_kept hs5
                exact .ok (hs3 _ _ hs6)
          · exact .ok (hs3 _ _ hs2))

theorem execGnld_kept {x : Fin 8} (hs : Kept r₀ s) : KeptRes r₀ (execGnld sd sb x s) :=
  uniform_kept (fun _ _ hs1 => gnldBody_kept hs1) hs

theorem execGneval_kept {t : Bool} {g : Fin 8} (hs : Kept r₀ s) : KeptRes r₀ (execGneval t g d a s) := by
  unfold execGneval
  exact perLane_kept LSpec.mk0_kept (fun _ hs1 => by
    split
    · exact trapAll_kept
    · exact .ok (Issue.commit_kept hs1)) hs

theorem engineArrive_kept {err : Nat} (hs : Kept r₀ s) : Kept r₀ (engineArrive s uid off err) :=
  syncLines_kept (barUpdate_kept hs)

theorem pgreqBody_kept {x : Slot} {b : Nat} (hs : Kept r₀ s) : KeptExc r₀ (Kept r₀) (pgreqBody sd x b c s) := by
  unfold pgreqBody
  exact Ctx.handle_kept.andThen fun _ => barAt_kept.andThen fun _ => by
    extract_lets a
    split
    · exact ite_keeps trapAll_kept (.ok (engineArrive_kept hs))
    · exact ite_keeps (.ok (engineArrive_kept hs)) (.ok (acceptOp_kept hs))

theorem execPgreq_kept {x : Slot} (hs : Kept r₀ s) : KeptRes r₀ (execPgreq sd sb x s) :=
  uniform_kept (fun _ _ hs1 => pgreqBody_kept hs1) hs

theorem pfhLine_kept {target : Nat} (hs : Kept r₀ s) : Kept r₀ (pfhLine w ln target s va) := by
  unfold pfhLine
  split
  · split
    · exact hs
    · split
      · exact l2Touch_kept (readThrough_kept hs)
      · exact ite_keeps hs (readThrough_kept hs)
      · exact l1Fill_kept hs
      · exact hs
  · exact hs

theorem execPfh_kept {x : Slot} (hs : Kept r₀ s) : KeptRes r₀ (execPfh sd sb x s) :=
  uniform_kept (fun _ _ hs1 => ite_keeps (.ok (foldl_kept (fun _ _ hs2 => pfhLine_kept hs2) hs1)) (.ok hs1)) hs

/-! ### Copy -/

theorem poisonLocs_kept {src dst : List Loc} (hs : Kept r₀ s) : Kept r₀ (poisonLocs s src dst) :=
  ite_keeps hs hs

theorem copyShape_kept {w : CopyWord} {multi : Bool} {x : Issue} : KeptExc r₀ (fun _ => True) (copyShape w multi x) := by
  unfold copyShape
  exact Ctx.handle_kept.andThen fun _ => Ctx.handle_kept.andThen fun _ => demand_kept.andThen fun _ =>
    demand_kept.andThen fun _ => demand_kept.andThen fun _ => by
    extract_lets inb
    split
    · exact trapAll_kept
    · exact .pass

theorem copyOob_kept {k : CopyShape} {act : List LaneIn} : KeptExc r₀ (fun _ => True) (copyOob k act) := by
  unfold copyOob
  extract_lets bad src
  clear_value bad
  split
  · exact .pass
  · exact .error trivial

theorem copyTiles_kept {k : CopyShape} (hs : Kept r₀ s) : KeptExc r₀ (Kept r₀) (copyTiles c s k runs) :=
  thereafter_kept (touchHome_kept (drainFifo_kept hs)) (tilesPass_kept.andThen fun _ =>
    .ok (touchHome_kept (drainFifo_kept hs)))

theorem copyReach_kept {k : CopyShape} {act : List LaneIn} (hs : Kept r₀ s) : KeptExc r₀ (Kept r₀) (copyReach c s k act) :=
  copyOob_kept.andThen fun _ => spCheck_kept.andThen fun _ => demandNone_kept.andThen fun _ =>
    xlCheck_kept.andThen fun _ => .ite_bind presenceCheck_kept .pass fun _ _ => ite_keeps (.ok hs) (copyTiles_kept hs)

theorem clearPresence_kept (hs : Kept r₀ s) : Kept r₀ (clearPresence s uid lines) := updWg_kept hs

theorem barOn_kept {f : Bar → Bar} (hs : Kept r₀ s) : Kept r₀ (barOn s uid off f) := by
  unfold barOn
  split
  · exact barUpdate_kept hs
  · exact hs

theorem acceptAt_kept {w : CopyWord} {bar err q : Nat} {secs : List Sector} (hs : Kept r₀ s) :
    Kept r₀ (acceptAt w bar err q secs s uid) := by
  unfold acceptAt
  exact syncLines_kept (by
    split
    · exact barOn_kept (clearPresence_kept (ite_keeps hs (barOn_kept hs)))
    · exact clearPresence_kept (ite_keeps hs (barOn_kept hs)))

theorem copyEnd_kept (hs : Kept r₀ s) : Kept r₀ (copyEnd s id) := by
  unfold copyEnd
  split
  · split
    · exact ite_keeps (finishOp_kept hs) hs
    · exact hs
  · exact hs

theorem copyBody_kept {w : CopyWord} {tgt : Option (Fin 16)} {x : Issue} (hs : Kept r₀ x.s) :
    KeptExc r₀ (Kept r₀) (copyBody w tgt x) := by
  unfold copyBody
  refine Issue.uniformArg_kept.andThen fun _ => copyShape_kept.andThen fun _ => barAt_kept.andThen fun _ => ?_
  refine (copyReach_kept hs).bind fun _ hs => (thereafter_kept hs (watchStep_kept hs)).bind fun _ hs =>
    (observeLines_kept hs).bind fun _ hs => ?_
  extract_lets rcv secs err q s1 s2 via s3 cp a
  have hs1 : Kept r₀ s1 := Issue.commit_kept (ite_keeps (drainFifo_kept hs) hs)
  have hs2 : Kept r₀ s2 := foldl_kept (fun _ _ hs => acceptAt_kept hs) hs1
  have hs3 : Kept r₀ s3 := ite_keeps (barUpdate_kept hs2) hs2
  exact .ok (copyEnd_kept (markHits_kept (acceptOp_kept hs3)))

theorem copySpec_kept {d : LSrc} : SpecKept r₀ (copySpec i d a b) := ⟨fun _ _ => .pass, fun _ => .pass⟩

theorem execCpl_kept {w : CopyWord} {d : LSrc} (hs : Kept r₀ s) : KeptRes r₀ (execCpl w d a b s) :=
  perLane_kept copySpec_kept (fun _ hs1 => copyBody_kept hs1) hs

theorem execCpm_kept {w : CopyWord} {tgt : Fin 16} {d : LSrc} (hs : Kept r₀ s) : KeptRes r₀ (execCpm w tgt d a b s) :=
  perLane_kept copySpec_kept (fun _ hs1 => copyBody_kept hs1) hs

theorem restorePresence_kept (hs : Kept r₀ s) : Kept r₀ (restorePresence s uid lines) := updWg_kept hs

theorem landQuads_kept {bar : Nat} (hs : Kept r₀ s) : Kept r₀ (landQuads s uid bar n).1 := by
  induction n with
  | zero => exact hs
  | succ n ih => exact barUpdate_kept ih

theorem writeSector_kept {cp : CopyOp} {x : Sector} {data : List (List Byte)} {satd : Bool} (hs : Kept r₀ s) :
    Kept r₀ (writeSector s w cp x data satd).1 := by
  unfold writeSector
  exact syncLines_kept (landQuads_kept (restorePresence_kept (by
    split
    · exact barUpdate_kept (by
          split
          · exact engineSetAll_kept (clearPoisonFor_kept hs)
          · exact poisonLocs_kept (engineSetAll_kept (clearPoisonFor_kept hs)))
    · exact by
          split
          · exact engineSetAll_kept (clearPoisonFor_kept hs)
          · exact poisonLocs_kept (engineSetAll_kept (clearPoisonFor_kept hs)))))

theorem landSector_kept (hs : Kept r₀ s) : InvOpt (Kept r₀) (landSector s id n) := by
  unfold landSector
  split
  · exact .none
  · split
    · split
      · exact .none
      · split
        · extract_lets s1 d satd cp' s11 cl r cp2
          have hs1 : Kept r₀ s1 := ite_keeps (touchHome_kept hs) hs
          have hs2 : Kept r₀ s11 := updOp_kept hs1
          have hs3 : Kept r₀ r.1 := writeSector_kept hs2
          split
          · exact .some (copyEnd_kept (setCluster_kept hs2))
          · exact .some (copyEnd_kept (updOp_kept hs3))
        · exact .none
    · exact .none

theorem execCopySectorLand_kept {sector : Nat} (hs : Kept r₀ s) : KeptRes r₀ (execCopySectorLand op sector s) :=
  eventOf_kept (landSector_kept hs)

/-! ### Accum -/

theorem accSet_kept {row col : Nat} {v : Word} (hs : Kept r₀ s) : Kept r₀ (accSet s uid row col v) := by
  unfold accSet
  extract_lets s1
  have hs1 : Kept r₀ s1 := updWg_kept hs fun _ _ hst => ⟨rfl, hst.1, mapWf_mapSet _ _ hst.2⟩
  clear_value s1
  exact ite_keeps hs1 hs1

theorem accCheck_kept {reads : Bool} {els : List AccElem} : KeptExc r₀ (fun _ => True) (accCheck c s reads els) := by
  unfold accCheck
  split
  · exact accTrap_kept
  · split
    · exact .error trivial
    · exact .pass

theorem execAccrd_kept {mm1 : Fin 32} (hs : Kept r₀ s) : KeptRes r₀ (execAccrd mm1 d a b s) :=
  perLane_kept ⟨fun _ _ => .pass, fun _ => .pass⟩ (fun _ hs1 => Issue.uniformArg_kept.andThen fun _ =>
    Issue.uniformArg_kept.andThen fun _ => accCheck_kept.andThen fun _ => .ok (Issue.commit_kept (acceptOp_kept hs1))) hs

theorem execAccwr_kept {mm1 : Fin 32} {d : LSrc} (hs : Kept r₀ s) : KeptRes r₀ (execAccwr mm1 d a b s) :=
  perLane_kept ⟨fun _ _ => .pass, fun _ => .pass⟩ (fun _ hs1 => Issue.uniformArg_kept.andThen fun _ =>
    Issue.uniformArg_kept.andThen fun _ => accCheck_kept.andThen fun _ => .ok (Issue.commit_kept (acceptOp_kept hs1))) hs

theorem execAccpatch_kept {add : Bool} {d : LSrc} {m : MReg} (hs : Kept r₀ s) : KeptRes r₀ (execAccpatch add d a m s) := by
  unfold execAccpatch
  exact perLane_kept ⟨fun _ _ => .pass, fun _ => .pass⟩ (fun _ hs1 => by
    extract_lets part next
    have hs2 : ∀ b, KeptExc r₀ (Kept r₀) (next b) := fun _ => accCheck_kept.andThen fun _ =>
      .ok (Issue.commit_kept (acceptOp_kept hs1))
    split
    · exact accTrap_kept.andThen fun _ => hs2 ()
    · exact KeptExc.pass.andThen fun _ => hs2 ()) hs

theorem runAccrd_kept {o : Op} {els : List AccElem} (hs : Kept r₀ s) : Kept r₀ (runAccrd s o els) := by
  unfold runAccrd
  split
  · exact hs
  · exact landRegs_kept hs

theorem runPatch_kept {add : Bool} {els : List AccElem} (hs : Kept r₀ s) : Kept r₀ (runPatch s uid add els) := by
  unfold runPatch
  exact foldl_kept (fun _ _ hs1 => by
    split
    · exact hs1
    · split
      · extract_lets poisoned s'
        have hs2 : Kept r₀ s' := accSet_kept hs1
        clear_value s'
        exact ite_keeps hs2 hs2
      · exact accSet_kept hs1) hs

theorem completeAcc_kept (hs : Kept r₀ s) : InvOpt (Kept r₀) (completeAcc s id) := by
  unfold completeAcc
  split
  · exact .none
  · split
    · split
      · exact .some (finishTile_kept (runAccrd_kept hs))
      · exact .some (finishTile_kept (foldl_kept (fun _ _ hs1 => accSet_kept hs1) hs))
      · exact .some (finishTile_kept (runPatch_kept hs))
      · exact .none
    · exact .none

theorem execAccOpComplete_kept (hs : Kept r₀ s) : KeptRes r₀ (execAccOpComplete op s) :=
  eventOf_kept (completeAcc_kept hs)

theorem execAccz_kept {sd : USrc} (hs : Kept r₀ s) : KeptRes r₀ (execAccz sd sb s) :=
  uniform_kept (fun _ _ hs1 => .ite_bind accTrap_kept .pass fun _ _ => .ok (tryAccz_kept (acceptOp_kept hs1))) hs

theorem engineReach_kept : KeptExc r₀ (fun _ => True) (engineReach c s h need runs) :=
  wholePop_kept (ite_keeps (spCheck_kept.andThen fun _ => .pass) (xlCheck_kept.andThen fun _ => .pass))

theorem accstBody_kept {rowsm1 : Fin 2048} {r : Rnd} {sat : Bool} {row0 i : Nat} {x : Slot} (hs : Kept r₀ s) :
    KeptExc r₀ (Kept r₀) (accstBody rowsm1 r sat row0 i x c s) := by
  unfold accstBody
  exact classRoom_kept.andThen fun _ => Ctx.handle_kept.andThen fun _ => acceptFmt_kept.andThen fun _ =>
    .ite_bind accTrap_kept .pass fun _ _ => by
    extract_lets els src ws
    split
    · exact trapAll_kept
    · exact KeptExc.andThen (by
          split
          · exact ite_keeps (.error trivial) .pass
          · exact .pass) fun _ => demand_kept.andThen fun _ => engineReach_kept.andThen fun _ =>
            (wholePop_kept (watchStep_kept hs)).bind fun _ hs1 => by
          extract_lets a
          have hs2 : Kept r₀ a.1 := acceptOp_kept hs1
          exact .ok (markHits_kept hs2)

theorem execAccst_kept {rowsm1 : Fin 2048} {r : Rnd} {sat : Bool} {sd : USrc} {x : Slot} (hs : Kept r₀ s) :
    KeptRes r₀ (execAccst rowsm1 r sat sd sb x s) :=
  uniform_kept (fun _ _ hs1 => accstBody_kept hs1) hs

theorem accstTrailers_kept {xl : List (Nat × Loc)} {out : List (StElem × List Byte × Bool)} {tiles : List Nat}
    (hs : Kept r₀ s) :
    Kept r₀ (accstTrailers s w h xl out tiles) :=
  foldl_kept (fun _ _ hs1 => engineSetAll_kept (touchHome_kept hs1)) hs

theorem completeAccst_kept (hs : Kept r₀ s) : InvOpt (Kept r₀) (completeAccst s id) := by
  unfold completeAccst
  split
  · exact .none
  · split
    · split
      · extract_lets els out bs dirty s1 s11 s2 s3
        have hs1 : Kept r₀ s1 := engineSetAll_kept (clearPoisonFor_kept hs)
        clear_value s1
        have hs2 : Kept r₀ s11 := ite_keeps hs1 hs1
        have hs3 : Kept r₀ s2 := accstTrailers_kept hs2
        have hs4 : Kept r₀ s3 := addDigest_kept hs3
        exact .some (finishTile_kept hs4)
      · exact .none
    · exact .none

theorem execAccstComplete_kept (hs : Kept r₀ s) : KeptRes r₀ (execAccstComplete op s) :=
  eventOf_kept (completeAccst_kept hs)

/-! ### Tile -/

theorem bldBody_kept {t : Bool} {i : Nat} {x : Slot} (hs : Kept r₀ s) : KeptExc r₀ (Kept r₀) (bldBody t nt i n x c s) :=
  classRoom_kept.andThen fun _ => demand_kept.andThen fun _ => Ctx.handle_kept.andThen fun _ =>
    demand_kept.andThen fun _ => .ite_bind (.error trivial) .pass fun _ _ => demand_kept.andThen fun _ =>
    .ite_bind (wholePop_kept (spCheck_kept.andThen fun _ => presenceCheck_kept)) .pass fun _ _ =>
    engineReach_kept.andThen fun _ => (wholePop_kept (watchStep_kept hs)).bind fun _ hs1 =>
    (observeLines_kept hs1).bind fun _ hs2 => .ok (slotStep_kept (markHits_kept (acceptOp_kept hs2)))

theorem execBld_kept {t : Bool} {x : Slot} (hs : Kept r₀ s) : KeptRes r₀ (execBld t nt sd sb x s) :=
  uniform_kept (fun _ _ hs1 => bldBody_kept hs1) hs

theorem execBfree_kept (hs : Kept r₀ s) : KeptRes r₀ (execBfree sb s) :=
  uniform_kept (fun _ _ hs1 => demand_kept.andThen fun _ => .ok (slotStep_kept hs1)) hs

theorem completeBld_kept (hs : Kept r₀ s) : InvOpt (Kept r₀) (completeBld s id) := by
  unfold completeBld
  split
  · exact .none
  · split
    · exact ite_keeps (.some (finishTile_kept (bslotSet_kept (touchHomeAs_kept hs)))) .none
    · exact .none

theorem execBldLoadComplete_kept (hs : Kept r₀ s) : KeptRes r₀ (execBldLoadComplete op s) :=
  eventOf_kept (completeBld_kept hs)

/-! ### Matrix -/

theorem passRow_kept {o : OctetOp} {r : Nat} (hs : Kept r₀ s) : Kept r₀ (passRow s uid cl launch o r) := by
  unfold passRow
  exact foldl_kept (fun _ _ hs1 => by
    split
    · exact hs1
    · extract_lets row old dirty s' sum v s'1
      have hs2 : Kept r₀ s' := ite_keeps (freshFree_kept hs1) hs1
      have hs3 : Kept r₀ s'1 := accSet_kept hs2
      clear_value s'1
      exact ite_keeps hs3 hs3) hs

theorem passOctet_kept {o : OctetOp} (hs : Kept r₀ s) : Kept r₀ (passOctet uid cl launch s o) :=
  foldl_kept (fun _ _ hs1 => passRow_kept hs1) hs

theorem octetsOf_kept {b : BSrc} {x : Issue} : KeptExc r₀ (fun _ => True) (octetsOf b x) :=
  demandNone_kept.andThen fun _ => .pass

theorem bRefOf_kept {b : BSrc} {o : OctetIn} : KeptExc r₀ (fun _ => True) (bRefOf c s b o) := by
  unfold bRefOf
  extract_lets slot
  split
  · exact .pass
  · exact demand_kept.andThen fun _ => .pass
  · split
    · exact .pass
    · exact trapAll_kept

theorem formatCheck_kept {t : Bool} {bs : List BRef} : KeptExc r₀ (fun _ => True) (formatCheck s cl launch h t bs) := by
  unfold formatCheck
  split
  · exact trapAll_kept
  · split
    · exact trapAll_kept
    · exact trapAll_kept
    · exact .pass

theorem aCheck_kept {os : List OctetIn} : KeptExc r₀ (fun _ => True) (aCheck c h os) := by
  unfold aCheck
  exact spCheck_kept.andThen fun _ => by
    extract_lets next src
    have hs : ∀ a, KeptExc r₀ (fun _ => True) (next a) := fun _ => demandNone_kept.andThen fun _ => presenceCheck_kept
    split
    · exact KeptExc.pass.andThen fun _ => hs ()
    · exact .ite_bind (.error trivial) .pass fun _ _ => hs ()

theorem matCheck_kept {w : MatWord} {x : Issue} {os : List OctetIn} (hs : Kept r₀ x.s) :
    KeptExc r₀ (fun r => Kept r₀ r.2.2.1) (matCheck w x os) := by
  have refs : KeptExc r₀ (fun _ => True) (mapE (fun o => (bRefOf x.c x.s w.bsrc o).map (fun b => (o, b))) os) :=
    mapE_kept fun _ => bRefOf_kept.map fun _ _ => trivial
  unfold matCheck
  refine Ctx.handle_kept.andThen fun _ => demand_kept.andThen fun _ => refs.andThen fun _ =>
    formatCheck_kept.andThen fun _ => ?_
  extract_lets ws rest
  have hrest : ∀ r, KeptExc r₀ (fun r => Kept r₀ r.2.2.1) (rest r) := fun _ => aCheck_kept.andThen fun _ =>
    (watchStep_kept hs).bind fun _ hs => (observeLines_kept hs).bind fun _ hs => (observe_kept hs).bind fun _ hs =>
      .ok hs
  split
  · exact KeptExc.pass.andThen hrest
  · exact accTrap_kept.andThen hrest

theorem matSpec_kept {w : MatWord} {d : LSrc} {busy : Ctx → State → Bool} {decl : Ctx → Except Stop Unit}
    (hf : ∀ x, KeptExc r₀ (fun _ => True) (decl x)) :
    SpecKept r₀ (matSpec i w d a b busy decl) :=
  ⟨fun _ _ => .pass, fun _ => demand_kept.andThen fun _ => hf _⟩

theorem reserve_kept {e : Resv} {b : BRef} (hs : Kept r₀ s) : Kept r₀ (reserve s cl e b) := by
  unfold reserve
  extract_lets c s1
  have hs1 : Kept r₀ s1 := setCluster_kept hs
  split
  · exact slotStep_kept hs1
  · exact hs1

theorem reserveOctet_kept {w : MatWord} {p : OctetIn × BRef} (hs : Kept r₀ s) : Kept r₀ (reserveOctet c op h w s p) :=
  reserve_kept (freshId_kept hs)

theorem execMmq_kept {w : MatWord} {d : LSrc} (hs : Kept r₀ s) : KeptRes r₀ (execMmq w d a b s) := by
  unfold execMmq
  refine perLane_kept (matSpec_kept fun _ => .pass) (fun x hx => octetsOf_kept.andThen fun os =>
    (matCheck_kept hx).bind fun r hr => ?_) hs
  exact .ok (Issue.commit_kept (foldl_kept (fun _ _ hs => reserveOctet_kept hs) (markHits_kept (acceptOp_kept hr))))

theorem settleRound_kept {wg t m size : Nat} (hs : Kept r₀ s) : Kept r₀ (settleRound s cl wg t m size) := by
  unfold settleRound
  extract_lets as c
  clear_value as
  split
  · exact ite_keeps hs (ite_keeps (setCluster_kept hs) (failRound_kept hs))
  · exact hs

theorem arrive_kept {w : MatWord} {t : Nat} {ws : List WatchEl} {p : OctetIn × BRef} (hs : Kept r₀ s) :
    Kept r₀ (arrive c h w t ws s p) := by
  unfold arrive
  split
  · exact hs
  · exact settleRound_kept (by
        split
        · exact updGroup_kept (markHits_kept (acceptOp_kept hs))
        · exact reserve_kept (freshId_kept (updGroup_kept (markHits_kept (acceptOp_kept hs)))))

theorem memberOctets_kept {t : Nat} {os : List OctetIn} : KeptExc r₀ (fun _ => True) (memberOctets c t os) :=
  demandNone_kept.andThen fun _ => .pass

theorem execMmt_kept {w : MatWord} {team : Fin 8} {d : LSrc} (hs : Kept r₀ s) : KeptRes r₀ (execMmt w team d a b s) := by
  unfold execMmt
  refine perLane_kept (matSpec_kept fun _ => demand_kept) (fun x hx => octetsOf_kept.andThen fun os =>
    demandNone_kept.andThen fun _ =>
    memberOctets_kept.andThen fun _ => (matCheck_kept hx).bind fun r hr => ?_) hs
  exact .ok (failTeamRounds_kept (Issue.commit_kept (foldl_kept (fun _ _ hs => arrive_kept hs) hr)))

theorem teamTrap_kept {f : TeamFail} (hs : Kept r₀ s) : Kept r₀ (teamTrap s k f) := by
  unfold teamTrap
  extract_lets s1 src
  have hs1 : Kept r₀ s1 := updGroup_kept hs
  split
  · exact hs1
  · extract_lets ls
    split
    · exact hs1
    · extract_lets l pc
      exact takeTrap_kept hs1

theorem runTeamTrap_kept (hs : Kept r₀ s) : InvOpt (Kept r₀) (runTeamTrap s k) := by
  unfold runTeamTrap
  extract_lets s1
  have hs1 : Kept r₀ s1 := failTeamRounds_kept hs
  split
  · exact .none
  · split
    · exact .none
    · exact ite_keeps .none (.some (teamTrap_kept hs1))

theorem execTeamTrap_kept {g : GKey} (hs : Kept r₀ s) : KeptRes r₀ (execTeamTrap g s) :=
  eventOf_kept (runTeamTrap_kept hs)

theorem execExit_kept (hs : Kept r₀ s) : KeptRes r₀ (execExit s) :=
  perLaneAt_kept LSpec.mk0_kept (fun x hs1 => .ok (failTeamRounds_kept (updGroup_kept (Issue.commit_kept hs1) fun g =>
    (sameGroup_dropSkips g x.c.pc x.c.act).entries))) hs

theorem grant_kept {fused : List Nat} (hs : Kept r₀ s) : InvOpt (Kept r₀) (grant s cl fused) := by
  unfold grant
  extract_lets c others
  split
  · exact .none
  · extract_lets all ok
    exact ite_keeps (.some (setCluster_kept hs)) .none

theorem execReservationGrant_kept {fused : List Nat} (hs : Kept r₀ s) : KeptRes r₀ (execReservationGrant cluster fused s) :=
  eventOf_kept (grant_kept hs)

theorem ageEntry_kept (hs : Kept r₀ s) : InvOpt (Kept r₀) (ageEntry s cl id) :=
  ite_keeps (.some (setCluster_kept hs)) .none

theorem execReservationAged_kept {entry : Nat} (hs : Kept r₀ s) : KeptRes r₀ (execReservationAged cluster entry s) :=
  eventOf_kept (ageEntry_kept hs)

theorem takeHat_kept (hs : Kept r₀ s) : InvOpt (Kept r₀) (takeHat s cl) :=
  ite_keeps (.some (setCluster_kept hs)) .none

theorem execHatArrive_kept (hs : Kept r₀ s) : KeptRes r₀ (execHatArrive cluster s) :=
  eventOf_kept (takeHat_kept hs)

theorem endBurst_kept (hs : Kept r₀ s) : InvOpt (Kept r₀) (endBurst s cl) :=
  ite_keeps (.some (setCluster_kept hs)) .none

theorem execBurstEnd_kept (hs : Kept r₀ s) : KeptRes r₀ (execBurstEnd cluster s) :=
  eventOf_kept (endBurst_kept hs)

theorem octetDone_kept {o : OctetOp} (hs : Kept r₀ s) : Kept r₀ (octetDone s o) := by
  unfold octetDone
  split
  · exact hs
  · split
    · exact ite_keeps (finishTile_kept (updOp_kept hs)) (runAccz_kept (updOp_kept hs))
    · exact finishTile_kept hs
    · exact hs

theorem completePass_kept (hs : Kept r₀ s) : InvOpt (Kept r₀) (completePass s cl) := by
  unfold completePass
  extract_lets c
  split
  · exact .none
  · extract_lets s1 src s2 s3
    have hs1 : Kept r₀ s1 := foldl_kept (fun _ _ hs2 => foldl_kept (fun _ _ hs3 => passOctet_kept hs3) hs2) hs
    have hs4 : Kept r₀ s2 := setCluster_kept hs1
    have hs5 : Kept r₀ s3 := foldl_kept (fun _ _ hs6 => entryRead_kept hs6) hs4
    exact .some (foldl_kept (fun _ _ hs7 => foldl_kept (fun _ _ hs8 => octetDone_kept hs8) hs7) hs5)

theorem execMatrixPassComplete_kept (hs : Kept r₀ s) : KeptRes r₀ (execMatrixPassComplete cluster s) :=
  eventOf_kept (completePass_kept hs)

/-! ### KeyStore -/

theorem ksPut_kept {v : Nat} (hs : Kept r₀ s) : Kept r₀ (ksPut s w ln va n v) :=
  engineSetAll_kept (clearPoisonFor_kept hs)

theorem ksTouch_kept (hs : Kept r₀ s) : Kept r₀ (ksTouch s w ln va n) := touchHome_kept hs

theorem ksSettle_kept (hs : Kept r₀ s) : Kept r₀ (ksSettle c s need va n) :=
  settlePassed_kept (settleScats_kept (drainFifo_kept hs))

theorem ksIssueRead_kept (hs : Kept r₀ s) : Kept r₀ (ksIssueRead c s va n) :=
  foldl_kept (fun _ _ hs1 => l1Drop_kept hs1) (ksTouch_kept (ksSettle_kept hs))

theorem ksHeader_kept {k : Handle} (hs : Kept r₀ s) : KeptExc r₀ (fun r => Kept r₀ r.2) (ksHeader c s k) :=
  wholePop_kept (demand_kept.andThen fun _ => reach_kept.andThen fun _ => demand_kept.andThen fun _ =>
    .ok (ksIssueRead_kept (ksSettle_kept hs)))

theorem ksHandle_kept {x : Nat} : KeptExc r₀ (fun _ => True) (ksHandle c x) :=
  Ctx.handle_kept.andThen fun _ => acceptFmt_kept.andThen fun _ => .pass

theorem ksSupplied_kept {h : KsHead} : KeptExc r₀ (fun _ => True) (ksSupplied h c) := demand_kept

theorem ksWidthOk_kept : KeptExc r₀ (fun _ => True) (ksWidthOk c) := demand_kept

theorem ksinitBody_kept {gn : Fin 8} {fresh : Nat → Nat → GnDesc → KsHead} {cap : Nat} {x : Slot} (hs : Kept r₀ s) :
    KeptExc r₀ (Kept r₀) (ksinitBody gn fresh sd cap x c s) := by
  unfold ksinitBody
  exact .ite_bind (.error trivial) .pass fun _ _ => ksHandle_kept.andThen fun _ => demand_kept.andThen fun _ =>
    demand_kept.andThen fun _ => by
    split
    · exact trapAll_kept
    · exact demand_kept.andThen fun _ => demand_kept.andThen fun _ => (wholePop_kept reach_kept).andThen fun _ =>
      .ok (engineSetAll_kept (clearPoisonFor_kept (ksSettle_kept hs)))

theorem execKsinit_kept {gn : Fin 8} {psc : Scope} {clog : Fin 3} {bb : Fin 9} {d128 : Bool} {x : Slot} (hs : Kept r₀ s) :
    KeptRes r₀ (execKsinit gn psc clog bb d128 sd sb x s) :=
  uniform_kept (fun _ _ hs1 => ksinitBody_kept hs1) hs

theorem kstBody_kept {nl : Bool} {d : LSrc} {x : Slot} {i : Issue} (hs : Kept r₀ i.s) :
    KeptExc r₀ (Kept r₀) (kstBody nl wide d x i) := by
  unfold kstBody
  exact ksWidthOk_kept.andThen fun _ => Issue.uniformArg_kept.andThen fun _ => ksHandle_kept.andThen fun _ =>
    (ksHeader_kept hs).bind fun _ hs1 => by
    split
    · exact demand_kept.andThen fun _ => ksSupplied_kept.andThen fun _ => by
          extract_lets n mk els ws src a
          have hs2 : Kept r₀ a.1 := acceptOp_kept hs1
          split
          · exact (thereafter_kept hs1 reach_kept).andThen fun _ =>
            (thereafter_kept hs1 (watchStep_kept hs1)).bind fun _ hs3 => by
                extract_lets row a1
                have hs4 : Kept r₀ a1.1 := acceptOp_kept hs3
                exact .ok (Issue.commit_kept (markHits_kept hs4))
          · exact ite_keeps (.error trivial) (.ok (Issue.commit_kept (finishTile_kept hs2)))

theorem execKst_kept {nl : Bool} {d : LSrc} {h : Slot} (hs : Kept r₀ s) : KeptRes r₀ (execKst nl wide d a h s) :=
  perLane_kept ⟨fun _ _ => .pass, fun _ => .pass⟩ (fun _ hs1 => kstBody_kept hs1) hs

theorem ksigBody_kept {a : VReg} {x : Slot} {i : Issue} (hs : Kept r₀ i.s) : KeptExc r₀ (Kept r₀) (ksigBody d a x i) := by
  unfold ksigBody
  exact ksWidthOk_kept.andThen fun _ => ksHandle_kept.andThen fun _ => (ksHeader_kept hs).bind fun _ hs1 => by
    split
    · exact demand_kept.andThen fun _ => ksSupplied_kept.andThen fun _ => demandNone_kept.andThen fun _ =>
      .ok (Issue.commit_kept hs1)

theorem execKsig_kept {a : VReg} {h : Slot} (hs : Kept r₀ s) : KeptRes r₀ (execKsig d a h s) :=
  perLane_kept ⟨fun _ _ => .pass, fun _ => .pass⟩ (fun _ hs1 => ksigBody_kept hs1) hs

theorem kgathOut_kept {oh : Slot} {o cap : Nat} : KeptExc r₀ (fun _ => True) (kgathOut c oh o cap) := by
  have checked {h : Handle} : KeptExc r₀ (fun _ => True) (do wholePop (spCheck c (kgathRuns h o cap)); .ok h) :=
    (wholePop_kept spCheck_kept).andThen fun _ => .pass
  unfold kgathOut
  refine Ctx.handle_kept.andThen fun _ => acceptFmt_kept.andThen fun _ => demand_kept.andThen fun _ => ?_
  dsimp only
  split
  · trivial
  · exact checked

theorem kgathBody_kept {kh oh : Slot} {p : Nat} {msk : Option MReg} {cap : Nat} {i : Issue} (hs : Kept r₀ i.s) :
    KeptExc r₀ (Kept r₀) (kgathBody kh oh p msk cap i) := by
  unfold kgathBody
  exact Issue.uniformArg_kept.andThen fun _ => Issue.uniformArg_kept.andThen fun _ => ksHandle_kept.andThen fun _ =>
    (ksHeader_kept hs).bind fun _ hs1 => by
    split
    · exact demand_kept.andThen fun _ => demand_kept.andThen fun _ => kgathOut_kept.andThen fun _ =>
      (wholePop_kept reach_kept).andThen fun _ => (wholePop_kept (watchStep_kept hs1)).bind fun _ hs2 =>
      .ite_bind (.error trivial) .pass fun _ _ => by
          extract_lets lines s op s1 put next src
          have hs3 : Kept r₀ s := clearPresence_kept (foldl_kept (fun _ _ hs4 => ksIssueRead_kept hs4) hs2)
          have hs5 : Kept r₀ s1 := acceptOp_kept hs3
          have hs6 : ∀ a, KeptExc r₀ (Kept r₀) (next a) := fun _ => .ok (Issue.commit_kept hs5)
          split
          · exact .ite_bind .pass (.error trivial) fun _ _ => hs6 ()
          · exact KeptExc.pass.andThen fun _ => hs6 ()

theorem execKgath_kept {kh oh : Slot} {p : Fin 13} {msk : Option MReg} {capm1 : Fin 2048} {d : LSrc} (hs : Kept r₀ s) :
    KeptRes r₀ (execKgath kh oh p msk capm1 d a b s) :=
  perLane_kept ⟨fun _ _ => .pass, fun _ => .pass⟩ (fun _ hs1 => kgathBody_kept hs1) hs

theorem kstPut_kept {k : KstOp} (hs : Kept r₀ s) : Kept r₀ (kstPut s id k) :=
  ite_keeps (finishTile_kept (updOp_kept hs)) (updOp_kept hs)

theorem kstRow_kept (hs : Kept r₀ s) : InvOpt (Kept r₀) (kstRow s id) := by
  unfold kstRow
  split
  · exact .none
  · split
    · exact ite_keeps (.some (kstPut_kept (engineSetAll_kept (clearPoisonFor_kept hs)))) .none
    · exact .none

theorem execKstRowPerformed_kept (hs : Kept r₀ s) : KeptRes r₀ (execKstRowPerformed op s) :=
  eventOf_kept (kstRow_kept hs)

theorem ksLose_kept {k : Handle} {h : KsHead} {flag : Nat} (hs : Kept r₀ s) : Kept r₀ (ksLose s w ln k h flag) :=
  ksPut_kept hs

theorem ksNewBlock_kept {k : Handle} {h : KsHead} {sigma head : Nat} (hs : Kept r₀ s) :
    Kept r₀ (ksNewBlock s w ln k h sigma head) :=
  ksPut_kept (ksPut_kept (ksPut_kept hs))

theorem ksClaimIn_kept {k : Handle} {sigma : Nat} (hs : Kept r₀ s) : Kept r₀ (ksClaimIn s w ln k sigma).1 := by
  unfold ksClaimIn
  extract_lets h ent head n s1
  have hs1 : Kept r₀ s1 := ksNewBlock_kept hs
  split
  · split
    · exact ksLose_kept hs
    · exact ite_keeps (P := fun r : State × _ => Kept r₀ r.1) (ksLose_kept hs) (ksPut_kept hs1)
  · exact ksPut_kept hs

theorem ksClaimStep_kept {k : Handle} {sigma : Nat} (hs : Kept r₀ s) : Kept r₀ (ksClaimStep s w ln k sigma).1 :=
  ite_keeps (P := fun r : State × _ => Kept r₀ r.1) hs (ite_keeps (P := fun r : State × _ =>
    Kept r₀ r.1) (ksLose_kept hs) (ksClaimIn_kept hs))

theorem ksClaimSoft_kept {s' : State} {k : Handle} {sigma : Nat} {claimed : Option Nat} (hs : Kept r₀ s') :
    Kept r₀ (ksClaimSoft s s' w ln k sigma claimed) :=
  ite_keeps hs hs

theorem ksClaim_kept (hs : Kept r₀ s) : InvOpt (Kept r₀) (ksClaim s id) := by
  unfold ksClaim
  split
  · exact .none
  · split
    · split
      · exact .some (kstPut_kept (ksClaimSoft_kept (ksClaimStep_kept (ksTouch_kept (ksTouch_kept hs)))))
      · exact .none
    · exact .none

theorem execKsClaim_kept (hs : Kept r₀ s) : KeptRes r₀ (execKsClaim op s) := eventOf_kept (ksClaim_kept hs)

theorem ksPublishAt_kept {k : KstOp} (hs : Kept r₀ s) : Kept r₀ (ksPublishAt s w ln k va) := by
  unfold ksPublishAt
  extract_lets s1
  have hs1 : Kept r₀ s1 := ite_keeps (l1WriteBackAll_kept hs) hs
  exact ite_keeps (ksPut_kept hs1) (ite_keeps (ksLose_kept hs1) hs1)

theorem ksPublish_kept (hs : Kept r₀ s) : InvOpt (Kept r₀) (ksPublish s id) := by
  unfold ksPublish
  split
  · exact .none
  · split
    · split
      · exact ite_keeps (.some (kstPut_kept (ksPublishAt_kept hs))) .none
      · exact .none
    · exact .none

theorem execKsPublish_kept (hs : Kept r₀ s) : KeptRes r₀ (execKsPublish op s) :=
  eventOf_kept (ksPublish_kept hs)

theorem kgathOpen_kept {k : KgathOp} (hs : Kept r₀ s) : Kept r₀ (kgathOpen s w ln k) :=
  touchHome_kept (ite_keeps (l1DropAll_kept (wcOut_kept hs)) (foldl_kept (fun _ _ hs1 => l1Drop_kept hs1) (wcOut_kept hs)))

theorem kgathWalk_kept (hs : Kept r₀ s) : InvOpt (Kept r₀) (kgathWalk s id) := by
  unfold kgathWalk
  split
  · exact .none
  · split
    · split
      · exact .some (restorePresence_kept (updOp_kept
        (finishOp_kept (engineSetAll_kept (poisonLocs_kept (clearPoisonFor_kept (kgathOpen_kept hs)))))))
      · exact .none
    · exact .none

theorem execKgathWalk_kept (hs : Kept r₀ s) : KeptRes r₀ (execKgathWalk op s) :=
  eventOf_kept (kgathWalk_kept hs)

/-! ### Collector -/

theorem collEnter_kept (hs : Kept r₀ s) : Kept r₀ (collEnter c s op lines) :=
  ite_keeps (updGroup_kept (setCore_kept hs)) (setCore_kept hs)

theorem collDispatch_kept (hs : Kept r₀ s) : InvOpt (Kept r₀) (collDispatch s core line) :=
  ite_keeps (.some (setCore_kept hs)) .none

theorem execCollectorDispatch_kept (hs : Kept r₀ s) : KeptRes r₀ (execCollectorDispatch core line s) :=
  eventOf_kept (collDispatch_kept hs)

theorem collLineServed_kept (hs : Kept r₀ s) : InvOpt (Kept r₀) (collLineServed s core line) := by
  unfold collLineServed
  extract_lets c
  split
  · exact .none
  · exact .some (collRelease_kept (setCore_kept hs))

theorem execCollectorLineServed_kept (hs : Kept r₀ s) : KeptRes r₀ (execCollectorLineServed core line s) :=
  eventOf_kept (collLineServed_kept hs)

theorem collGroupOk_kept {d : Nat} {w : Width} : KeptExc r₀ (fun _ => True) (collGroupOk d n w c) :=
  demand_kept

theorem scatGroupOk_kept {d : LSrc} {w : Width} : KeptExc r₀ (fun _ => True) (scatGroupOk d n w c) := by
  unfold scatGroupOk
  split
  · exact .pass
  · split
    · exact collGroupOk_kept
    · exact trapAll_kept

theorem collCheck_kept {kind : WKind} {x : Issue} (hs : Kept r₀ x.s) :
    KeptExc r₀ (fun r => Kept r₀ r.2.2) (collCheck need kind men a n x) :=
  Ctx.handle_kept.andThen fun _ => acceptFmt_kept.andThen fun _ => laneRuns_kept.andThen fun _ =>
    reachLines_kept.andThen fun _ => (watchStep_kept hs).bind fun _ hs1 => (observeParked_kept hs1).bind fun _ hs2 =>
    .ok hs2

theorem gathBody_kept {nm1 : Fin 8} {x : Issue} (hs : Kept r₀ x.s) : KeptExc r₀ (Kept r₀) (gathBody nm1 men d a x) :=
  (collCheck_kept hs).bind fun _ hs1 => .ok (Issue.commit_kept (collEnter_kept (acceptOp_kept hs1)))

theorem execGath_kept {nm1 : Fin 8} {h : HSel} (hs : Kept r₀ s) : KeptRes r₀ (execGath nm1 men d a h s) :=
  perLane_kept ⟨fun _ _ => collGroupOk_kept, fun _ => .pass⟩ (fun _ hs1 => gathBody_kept hs1) hs

theorem scatBody_kept {nm1 : Fin 8} {d : LSrc} {x : Issue} (hs : Kept r₀ x.s) : KeptExc r₀ (Kept r₀) (scatBody nm1 men d a x) :=
  (collCheck_kept hs).bind fun _ hs1 => .ok (Issue.commit_kept (collEnter_kept (acceptOp_kept (addDigest_kept hs1))))

theorem execScat_kept {nm1 : Fin 8} {d : LSrc} {h : HSel} (hs : Kept r₀ s) : KeptRes r₀ (execScat nm1 men d a h s) :=
  perLane_kept ⟨fun _ _ => scatGroupOk_kept, fun _ => .pass⟩ (fun _ hs1 => scatBody_kept hs1) hs

theorem gathComplete_kept (hs : Kept r₀ s) : InvOpt (Kept r₀) (gathComplete s id) := by
  unfold gathComplete
  split
  · exact .none
  · split
    · exact ite_keeps (.some (finishOp_kept (landRegs_kept hs))) .none
    · exact ite_keeps (.some (finishOp_kept (landRegs_kept (touchHome_kept hs)))) .none
    · exact .none

theorem execGathComplete_kept (hs : Kept r₀ s) : KeptRes r₀ (execGathComplete op s) :=
  eventOf_kept (gathComplete_kept hs)

theorem scatWrite_kept (hs : Kept r₀ s) : InvOpt (Kept r₀) (scatWrite s id) := by
  unfold scatWrite
  split
  · exact .none
  · split
    · exact ite_keeps (.some (collPerform_kept hs)) .none
    · exact .none

theorem execScatWrite_kept (hs : Kept r₀ s) : KeptRes r₀ (execScatWrite op s) :=
  eventOf_kept (scatWrite_kept hs)

theorem sisectBody_kept {ha hb : Slot} {out : Option Slot} {b : VReg} {x : Issue} (hs : Kept r₀ x.s) :
    KeptExc r₀ (Kept r₀) (sisectBody ha hb out men d b x) := by
  unfold sisectBody
  refine Ctx.handle_kept.andThen fun _ => Ctx.handle_kept.andThen fun _ => ?_
  extract_lets act past info rest
  have hrest : ∀ r, KeptExc r₀ (Kept r₀) (rest r) := by
    intro o1
    refine demand_kept.andThen fun _ => ?_
    extract_lets si issue
    have hissue : ∀ r, KeptExc r₀ (Kept r₀) (issue r) := fun _ =>
      (watchStep_kept hs).bind fun _ hs => .ok (Issue.commit_kept (collEnter_kept (acceptOp_kept hs)))
    split
    · exact KeptExc.pass.andThen hissue
    · trivial
  split
  · exact (Ctx.handle_kept.map fun _ _ => trivial).andThen hrest
  · exact KeptExc.pass.andThen hrest

theorem execSisect_kept {ha hb : Slot} {out : Option Slot} {b : VReg} (hs : Kept r₀ s) :
    KeptRes r₀ (execSisect ha hb out men d a b s) :=
  perLane_kept ⟨fun _ _ => .pass, fun _ => .pass⟩ (fun _ hs1 => sisectBody_kept hs1) hs

theorem siOut_kept {oh : Option Handle} {o x : Nat} {src : List Loc} (hs : Kept r₀ s) :
    Kept r₀ (siOut s w ln oh o n x src).1 := by
  unfold siOut
  split
  · exact hs
  · split
    · exact hs
    · split
      · exact poisonLocs_kept (engineSetAll_kept (clearPoisonFor_kept hs))
      · exact hs

theorem siLoop_kept {si : SiOp} {l : SiLane} {left : Nat} {p : SiPos} (hs : Kept r₀ s) :
    InvOpt (fun r => Kept r₀ r.1) (siLoop w ln si l left s p) := by
  induction left generalizing s p with
  | zero =>
    unfold siLoop
    split
    · exact hs
    · exact hs
  | succ left ih =>
    have touched {ls : List Loc} : Kept r₀ (touchHome s w.core w.owner ls) := touchHome_kept hs
    unfold siLoop
    split
    · exact hs
    · dsimp only
      split
      · trivial
      · exact hs
      · split
        · trivial
        · exact hs
        · split
          · exact ih touched
          · split
            · exact ih touched
            · split
              · next heq => exact ih (kept_fst (siOut_kept touched) heq)
              · exact touched
              · trivial

theorem siWrite_kept {o : Op} {si : SiOp} {l : SiLane} {p : SiPos} {stop : Nat} (hs : Kept r₀ s) :
    Kept r₀ (siWrite s o si l p stop) :=
  landRegs_kept hs

theorem siLanes_kept {o : Op} {si : SiOp} {ls : List SiLane} (hs : Kept r₀ s) : InvOpt (Kept r₀) (siLanes w ln o si ls s) := by
  induction ls generalizing s with
  | nil => exact hs
  | cons l ls ih =>
    unfold siLanes
    split
    · trivial
    · next heq => exact ih (siWrite_kept ((siLoop_kept hs).of_fst heq))

theorem sisectRun_kept (hs : Kept r₀ s) : InvOpt (Kept r₀) (sisectRun s id) := by
  unfold sisectRun
  split
  · exact .none
  · split
    · split
      · split
        · next heq => exact .some (finishOp_kept ((siLanes_kept hs).of_some heq))
        · exact .none
      · exact .none
    · exact .none

theorem execSisectRun_kept (hs : Kept r₀ s) : KeptRes r₀ (execSisectRun op s) :=
  eventOf_kept (sisectRun_kept hs)

/-! ### TrapOps -/

theorem landLoad_kept {o : Op} (hs : Kept r₀ s) : Kept r₀ (landLoad s o) := by
  unfold landLoad
  split
  · exact updOp_kept (landRegs_kept hs)
  · exact hs

theorem completeAccesses_kept (hs : Kept r₀ s) : Kept r₀ (completeAccesses s k) :=
  foldl_kept (fun _ _ hs1 => landLoad_kept hs1) (drainFifo_kept hs)

theorem resumeGroup_kept (hs : Kept r₀ s) : Kept r₀ (resumeGroup s k skip pc) :=
  failTeamRounds_kept (closeStale_kept (returnFromTrap_kept (completeAccesses_kept hs)))

theorem execTret_kept (hs : Kept r₀ s) : KeptRes r₀ (execTret skip s) := by
  unfold execTret
  split
  · exact .fault
  · exact Ctx.settle_kept hs (demand_kept.andThen fun _ => .ok (resumeGroup_kept hs))

theorem execGend_kept {rcd : Bool} (hs : Kept r₀ s) : KeptRes r₀ (execGend rcd s) := by
  unfold execGend
  split
  · exact .fault
  · exact Ctx.settle_kept hs (demand_kept.andThen fun _ =>
    .ok (failTeamRounds_kept (endGroupsWhere_kept (ite_keeps (unhandled_kept hs) hs))))

theorem trapOnly_kept {body : Ctx → State → Except Stop State} (hf : ∀ a b, Kept r₀ b → KeptExc r₀ (Kept r₀) (body a b))
    (hs : Kept r₀ s) :
    KeptRes r₀ (trapOnly i body s) := by
  unfold trapOnly
  split
  · exact .fault
  · exact Ctx.settle_kept hs (demand_kept.andThen fun _ => Ctx.fallOk_kept.andThen fun _ =>
    (hf _ _ hs).bind fun _ hs1 => .ok (Ctx.advance_kept hs1))

theorem execTfrd_kept (hs : Kept r₀ s) : KeptRes r₀ (execTfrd sd sb s) :=
  trapOnly_kept (fun _ _ hs1 => demand_kept.andThen fun _ => .ok (updGroup_kept hs1)) hs

theorem clearFramePoison_kept (hs : Kept r₀ s) : Kept r₀ (clearFramePoison s k n) := updGroup_kept hs

theorem execTfwr_kept (hs : Kept r₀ s) : KeptRes r₀ (execTfwr sd sb s) :=
  trapOnly_kept (fun _ _ hs1 => demand_kept.andThen fun _ => .ok (frameSet_kept (clearFramePoison_kept hs1))) hs

theorem watchHandle_kept {v : Word} : KeptExc r₀ (fun _ => True) (watchHandle c v) :=
  Ctx.handle_kept.andThen fun _ => acceptFmt_kept.andThen fun _ => .pass

theorem setWatch_kept {d : BitVec 256} (hs : Kept r₀ s) : Kept r₀ (setWatch s uid n d) := by
  unfold setWatch
  extract_lets s1
  have hs1 : Kept r₀ s1 := updWg_kept hs
  split
  · exact keyedSetNum_kept hs1
  · exact hs1

theorem execWatchLoad_kept {n : Fin 8} (hs : Kept r₀ s) : KeptRes r₀ (execWatchLoad n sb s) :=
  uniform_kept (fun _ _ hs1 => watchHandle_kept.andThen fun _ => (tableRun_kept hs1).bind fun _ hs2 =>
    (thereafter_kept hs2 demand_kept).andThen fun _ => .ok (setWatch_kept (tableBytes_kept hs2))) hs

theorem tableStoreRun_kept {i align : Nat} (hs : Kept r₀ s) :
    KeptExc r₀ (fun r => Kept r₀ r.2) (tableStoreRun c s h i n align need) := by
  unfold tableStoreRun
  exact wholePop_kept (by
    split
    · exact oobTrap_kept
    · exact demand_kept.andThen fun _ => .ite_bind spCheck_kept .pass fun _ _ => reach_kept.andThen fun _ =>
      (watchStep_kept hs).bind fun _ hs1 => (observeParked_kept hs1).bind fun _ hs2 => .ok hs2)

theorem execWatchStore_kept {n : Fin 8} (hs : Kept r₀ s) : KeptRes r₀ (execWatchStore n sb s) :=
  uniform_kept (fun _ _ hs1 => classRoom_kept.andThen fun _ => watchHandle_kept.andThen fun _ =>
    (tableStoreRun_kept hs1).bind fun _ hs2 => .ok (popStore_kept hs2)) hs

theorem execWatchClr_kept {n : Fin 8} (hs : Kept r₀ s) : KeptRes r₀ (execWatchClr n s) :=
  uniform_kept (fun _ _ hs1 => .ok (setWatch_kept hs1)) hs

/-! ### Queue -/

theorem recSetState_kept {st : Nat} (hs : Kept r₀ s) : Kept r₀ (recSetState s pa st) := plainSetNum_kept hs

theorem recRefuse_kept {reason : Nat} (hs : Kept r₀ s) : Kept r₀ (recRefuse s pa reason) :=
  plainSetNum_kept hs

theorem rcbSetHead_kept {v : Nat} (hs : Kept r₀ s) : Kept r₀ (rcbSetHead s region v) := plainSetNum_kept hs

theorem rcbSetTail_kept {v : Nat} (hs : Kept r₀ s) : Kept r₀ (rcbSetTail s region v) := plainSetNum_kept hs

theorem rcbSetTapesp_kept {v : Nat} (hs : Kept r₀ s) : Kept r₀ (rcbSetTapesp s region v) :=
  plainSetNum_kept hs

theorem linkRecord_kept {atHead : Bool} (hs : Kept r₀ s) : Kept r₀ (linkRecord s region pa atHead) := by
  unfold linkRecord
  extract_lets h t
  split
  · exact rcbSetTail_kept (rcbSetHead_kept hs)
  · exact ite_keeps (rcbSetHead_kept (plainSetNum_kept hs)) (rcbSetTail_kept (plainSetNum_kept hs))

theorem enqueue_kept {after : Option Nat} {tape : Bool} (hs : Kept r₀ s) : Kept r₀ (enqueue s region pa after tape).1 := by
  unfold enqueue
  extract_lets lidx s1 s2 s3 s4 s5
  have hs1 : Kept r₀ s1 := plainSetNum_kept hs
  have hs2 : Kept r₀ s2 := recSetState_kept hs1
  have hs3 : Kept r₀ s3 := plainSetNum_kept hs2
  have hs4 : Kept r₀ s4 := plainSetNum_kept hs3
  have hs5 : Kept r₀ s5 := linkRecord_kept hs4
  clear_value s5
  exact nextSeq_kept hs5

theorem unlinkRecord_kept (hs : Kept r₀ s) : Kept r₀ (unlinkRecord s region pa) := by
  unfold unlinkRecord
  extract_lets next recs prev s1
  clear_value prev
  have hs1 : Kept r₀ s1 := by
    unfold s1
    split
    · exact rcbSetHead_kept hs
    · split
      · exact plainSetNum_kept hs
      · exact hs
  exact ite_keeps (rcbSetTail_kept hs1) hs1

theorem postLaunch_kept {a : Nat} (hs : Kept r₀ s) : Kept r₀ (postLaunch s a) := by
  unfold postLaunch
  split
  · exact post_kept hs
  · split
    · exact post_kept (plainSetNum_kept (recRefuse_kept hs))
    · exact enqueue_kept hs

theorem execLaunchPost_kept {addr : DWord} (hs : Kept r₀ s) : KeptRes r₀ (execLaunchPost addr s) :=
  ite_keeps (ite_keeps .refused (.next (postLaunch_kept hs))) (.next hs)

theorem releaseSystem_kept (hs : Kept r₀ s) : Kept r₀ (releaseSystem c s) :=
  l1WriteBackAll_kept (drainFifo_kept hs)

theorem recordRun_kept {v : Word} (hs : Kept r₀ s) : KeptExc r₀ (fun r => Kept r₀ r.2.2) (recordRun c s v n) :=
  Ctx.handle_kept.andThen fun _ => acceptFmt_kept.andThen fun _ => demand_kept.andThen fun _ =>
    (tableStoreRun_kept hs).bind fun _ hs1 => .ok hs1

theorem launchCheck_kept {v : Word} (hs : Kept r₀ s) : KeptExc r₀ (fun r => Kept r₀ r.2.2) (launchCheck v c s) := by
  unfold launchCheck
  refine (recordRun_kept hs).bind fun r hr => ?_
  extract_lets pa s1 g
  have hs1 : Kept r₀ s1 := l1Drop_kept (wcOutRange_kept (releaseSystem_kept hr))
  clear_value s1 g pa
  have checked := thereafter_kept (P := fun _ => True) hs1
    (demand_kept (ok := (metRcbs s1 8 g).contains c.ln.region) (cause := cPriv) (sub := 2))
  exact checked.andThen fun _ => .ok hs1

theorem launchBody_kept {after : Bool} {v : Word} (hs : Kept r₀ s) : KeptExc r₀ (Kept r₀) (launchBody after sd v c s) :=
  (launchCheck_kept hs).bind fun _ hs1 => ite_keeps (.ok (updGroup_kept hs1))
    (.ok (updGroup_kept (enqueue_kept (clusterDrop_kept hs1))))

theorem execLaunch_kept {after : Bool} (hs : Kept r₀ s) : KeptRes r₀ (execLaunch after sd sb s) :=
  ite_keeps .refused (uniform_kept (fun _ _ hs1 => launchBody_kept hs1) hs)

theorem tapepushBody_kept {endF : Bool} {v : Word} (hs : Kept r₀ s) : KeptExc r₀ (Kept r₀) (tapepushBody endF sd v c s) := by
  unfold tapepushBody
  exact (recordRun_kept hs).bind fun _ hs1 => by
    extract_lets s1 sp room va q to' s2 bs push s3 s4 next x
    have hs2 : Kept r₀ s1 := hs1
    have hs3 : Kept r₀ q.2 := tableBytes_kept hs2
    have hs4 : Kept r₀ s2 := drainFifo_kept (ite_keeps (settleFor_kept hs3) hs3)
    have hs5 : ∀ a, Kept r₀ a → Kept r₀ (push a) := fun _ hs6 => rcbSetTapesp_kept (foldl_kept (fun _ _ hs7 =>
      storeByteOut_kept hs7) (clearPoisonFor_kept hs6))
    have hs8 : Kept r₀ s3 := ite_keeps (hs5 _ hs4) hs4
    have hs9 : Kept r₀ s4 := ite_keeps (updLaunch_kept hs8) hs8
    have hs10 : ∀ a, KeptExc r₀ (Kept r₀) (next a) := fun _ => (thereafter_kept hs2 demand_kept).andThen fun _ =>
      .ok (updGroup_kept hs9)
    exact .ite_bind (thereafter_kept hs2 (wholePop_kept xlCheck_kept)) .pass fun _ _ => hs10 ()

theorem execTapepush_kept {endF : Bool} (hs : Kept r₀ s) : KeptRes r₀ (execTapepush endF sd sb s) :=
  uniform_kept (fun _ _ hs1 => tapepushBody_kept hs1) hs

theorem syncTable_kept {hi l table va0 : Nat} (hs : Kept r₀ s) : Kept r₀ (syncTable lo hi l table va0 s) := by
  have copied (s : State) (hs : Kept r₀ s) (a : Nat) (b : SMap Byte) : Kept r₀ { s with xmem := memPutBlock s.xmem a 8 b } :=
    hs
  induction l generalizing table va0 s with
  | zero =>
    unfold syncTable
    exact foldl_kept (fun _ _ hs => copied _ hs _ _) hs
  | succ l ih =>
    unfold syncTable
    exact foldl_kept (fun _ _ hs => ite_keeps (ih (copied _ hs _ _)) (copied _ hs _ _)) hs

theorem syncRange_kept {root hi : Nat} (hs : Kept r₀ s) : Kept r₀ (syncRange s root lo hi) :=
  syncTable_kept hs

theorem touchLaunch_kept {l : Launch} (hs : Kept r₀ s) : Kept r₀ (touchLaunch s l) := by
  unfold touchLaunch
  exact ite_keeps (virtTouch_kept (ite_keeps (virtTouch_kept hs) hs)) (ite_keeps (virtTouch_kept hs) hs)

theorem refuseLaunch_kept {q : Queued} {reason : Nat} (hs : Kept r₀ s) : Kept r₀ (refuseLaunch s q reason) := by
  unfold refuseLaunch
  extract_lets s1 s2 s3
  have hs1 : Kept r₀ s1 := recRefuse_kept hs
  have hs2 : Kept r₀ s2 := post_kept hs1
  have hs3 : Kept r₀ s3 := unlinkRecord_kept hs2
  clear_value s3
  exact hs3

theorem tapeEnd_kept {failing : Nat} (hs : Kept r₀ s) : Kept r₀ (tapeEnd s region failing) := by
  unfold tapeEnd
  exact post_kept (by
    split
    · exact rcbSetBit_kept hs
    · exact ite_keeps (engineOut_kept (rcbSetBit_kept hs)) (rcbSetBit_kept hs))

theorem tapeTurn_kept {a : Option (List Nat)} (hs : Kept r₀ s) : Kept r₀ (tapeTurn s region a) := by
  unfold tapeTurn
  split
  · exact tapeEnd_kept hs
  · extract_lets ln sp at' s1
    have hs1 : Kept r₀ s1 := rcbSetTapesp_kept (virtTouch_kept hs)
    split
    · exact tapeEnd_kept hs
    · split
      · extract_lets s2
        have hs2 : Kept r₀ s2 := ownSetBytes_kept hs1
        exact enqueue_kept hs2
      · exact tapeEnd_kept hs

theorem tapeNext_kept (hs : Kept r₀ s) : Kept r₀ (tapeNext s region) := tapeTurn_kept hs

theorem tapeStart_kept (hs : Kept r₀ s) : Kept r₀ (tapeStart s region) := by
  unfold tapeStart
  split
  · exact hs
  · extract_lets s1
    have hs1 : Kept r₀ s1 := rcbSetBit_kept hs
    split
    · exact tapeEnd_kept hs1
    · exact ite_keeps (tapeEnd_kept hs1) (tapeNext_kept hs1)

theorem takeLaunch_kept (hs : Kept r₀ s) : InvOpt (Kept r₀) (takeLaunch s) := by
  unfold takeLaunch
  split
  · exact .none
  · extract_lets refuse f
    have hs1 : ∀ a b, Kept r₀ a → Kept r₀ (refuse a b) := by
      unfold refuse
      exact fun _ _ hs2 => by
        extract_lets s1
        have hs3 : Kept r₀ s1 := refuseLaunch_kept hs2
        exact ite_keeps (tapeEnd_kept hs3) hs3
    have hs4 : Kept r₀ f.2 := freshId_kept hs
    split
    · exact .some (hs1 _ _ hs)
    · split
      · exact .some (hs1 _ _ hs)
      · extract_lets l0 s2 j s3 s4
        have hs5 : Kept r₀ s2 := ite_keeps hs4 (syncRange_kept hs4)
        clear_value j
        have hs6 : Kept r₀ s3 := touchLaunch_kept hs5
        have hs7 : Kept r₀ s4 := recSetState_kept hs6
        clear_value s4
        split
        · exact .some (hs1 _ _ hs6)
        · exact .some hs7

theorem execLaunchTake_kept (hs : Kept r₀ s) : KeptRes r₀ (execLaunchTake s) :=
  eventOf_kept (takeLaunch_kept hs)

theorem flushCores_kept (hs : Kept r₀ s) : Kept r₀ (flushCores s) :=
  foldl_kept (fun _ _ hs1 => l1WriteBackAll_kept (wcOut_kept hs1)) hs

theorem afterLaunch_kept {l : Launch} (hs : Kept r₀ s) : Kept r₀ (afterLaunch s l) := by
  unfold afterLaunch
  split
  · exact ite_keeps (tapeEnd_kept hs) (tapeNext_kept hs)
  · exact ite_keeps (ite_keeps (post_kept hs) (tapeStart_kept hs)) hs

theorem completeLaunch_kept (hs : Kept r₀ s) : InvOpt (Kept r₀) (completeLaunch s uid) := by
  unfold completeLaunch
  split
  · exact .none
  · split
    · extract_lets s1 s2 st s3 s4 s5
      have hs1 : Kept r₀ s1 := flushCores_kept hs
      have hs2 : Kept r₀ s2 := plainSetNum_kept hs1
      have hs3 : Kept r₀ s3 := recSetState_kept hs2
      have hs4 : Kept r₀ s4 := post_kept hs3
      have hs5 : Kept r₀ s5 := unlinkRecord_kept hs4
      clear_value s5
      exact .some (afterLaunch_kept hs5)
    · exact .none

theorem execLaunchComplete_kept (hs : Kept r₀ s) : KeptRes r₀ (execLaunchComplete launch s) :=
  eventOf_kept (completeLaunch_kept hs)

/-! ### Place -/

theorem writeHead_kept {l : Launch} {st : Nat} (hs : Kept r₀ s) : Kept r₀ (writeHead s l w st) :=
  putBlockKeyed_kept hs

theorem dropOwned_kept (hs : Kept r₀ s) : Kept r₀ (dropOwned s core owner) :=
  foldl_kept (fun _ _ hs1 => l1Drop_kept hs1) hs

theorem openSlots_kept {l : Launch} {ps : List GPlace} (hs : Kept r₀ s) : Kept r₀ (openSlots s core l ps) :=
  foldl_kept (fun _ _ hs1 => ite_keeps hs1 hs1) hs

theorem beginSlice_kept {l : Launch} (hs : Kept r₀ s) : Kept r₀ (beginSlice s l) := by
  unfold beginSlice
  extract_lets awaited expired s1
  have hs1 : Kept r₀ s1 := updLaunch_kept hs
  clear_value s1
  exact ite_keeps hs hs1

theorem placeWg_kept {l : Launch} {index : Nat} (hs : Kept r₀ s) : InvOpt (Kept r₀) (placeWg s l index core) := by
  unfold placeWg
  split
  · split
    · extract_lets f w s1 s2 s3 s4 s5
      have hs1 : Kept r₀ f.2 := freshId_kept hs
      have ready : Kept f.2 s5 := writeHead_kept (updLaunch_kept (openSlots_kept (dropOwned_kept (beginSlice_kept hs1.self))))
      have fresh : ∀ x ∈ s5.wgs, x.uid ≠ w.uid := by
        intro x hx e
        obtain ⟨x', hx', e'⟩ := ready.oldWgs x hx (e ▸ Nat.lt_succ_self s.seq)
        exact absurd (e'.trans e) (Nat.ne_of_lt (hs.uids x' hx'))
      clear_value s5
      refine .some (KeptOf.withGroups (KeptOf.withWg (hs1.trans ready) ready.later hs.later fresh ⟨rfl, rfl⟩) ?_)
      intro g hg e he
      rcases List.mem_append.1 hg with hg | hg
      · exact ⟨g, hg, rfl, he⟩
      · obtain ⟨_, _, rfl⟩ := List.mem_mapIdx.1 hg
        exact absurd he List.not_mem_nil
    · exact .none
  · exact .none

theorem placeOn_kept {l : Launch} {cores is : List Nat} (hs : Kept r₀ s) : InvOpt (Kept r₀) (placeOn l cores is s) := by
  induction is generalizing s with
  | nil => exact hs
  | cons i is ih => exact InvOpt.findSome fun _ => (placeWg_kept hs).bind fun _ hs => ih hs

theorem placeQuartet_kept {l : Launch} (hs : Kept r₀ s) : InvOpt (Kept r₀) (placeQuartet s l core) := by
  unfold placeQuartet
  split
  · exact .none
  · split
    · exact .none
    · next heq => exact placeOn_kept ((placeWg_kept hs).of_some heq)

theorem reloadSlot_kept {b : BSlot} (hs : Kept r₀ s) : Kept r₀ (reloadSlot s w ln b) :=
  ite_keeps (bslotSet_kept (ite_keeps (touchHomeAs_kept hs) hs)) (bslotSet_kept hs)

theorem giveSlots_kept {bs : List BSlot} (hs : Kept r₀ s) : Kept r₀ (giveSlots s ln w bs) :=
  foldl_kept (fun _ _ hs1 => keyedSetNum_kept hs1) (updWg_kept hs)

theorem takeSlots_kept (hs : Kept r₀ s) : Kept r₀ (takeSlots s cl uid) := setCluster_kept hs

theorem leaveCluster_kept (hs : Kept r₀ s) : Kept r₀ (leaveCluster s ln cl) := by
  unfold leaveCluster
  split
  · exact hs
  · extract_lets bs s1
    clear_value bs
    have hs1 : Kept r₀ s1 := takeSlots_kept hs
    split
    · exact giveSlots_kept hs1
    · exact hs1

theorem returnSlots_kept {w' : Wg} {s' : State} (hs : Kept r₀ s') : Kept r₀ (returnSlots s ln w w' s') := by
  unfold returnSlots
  extract_lets mates bs s'1
  have hs1 : Kept r₀ s'1 := ite_keeps hs (foldl_kept (fun _ _ hs2 => reloadSlot_kept hs2) hs)
  split
  · exact hs1
  · split
    · exact giveSlots_kept hs1
    · exact hs1

theorem reStep_kept {p : Nat × SlotStep} (hs : Kept r₀ s) : Kept r₀ (reStep ln cl s p) := by
  unfold reStep
  extract_lets b
  split
  · exact hs
  · split
    · extract_lets fmt
      exact slotStep_kept hs
    · exact slotStep_kept hs

theorem reopenRounds_kept (hs : Kept r₀ s) : Kept r₀ (reopenRounds s w ln cl) := by
  unfold reopenRounds
  extract_lets move s1 c s2
  have hmove : ∀ o, (move o).ident = o.ident := fun o => by
    unfold move
    split <;> rfl
  have hs1 : Kept r₀ s1 := KeptOf.updateOps hs hmove
  exact foldl_kept (fun _ _ hs2 => reStep_kept hs2) (setCluster_kept hs1)

theorem restoreWg_kept (hs : Kept r₀ s) (hw : w.StoresWf) : InvOpt (Kept r₀) (restoreWg s w core) := by
  unfold restoreWg
  split
  · exact .none
  · split
    · split
      · exact .none
      · extract_lets f w' s0 s1 s2 s3 at' s4
        have hs1 : Kept r₀ f.2 := freshId_kept hs
        have hs2 : Kept r₀ s1 := dropOwned_kept (openSlots_kept (beginSlice_kept hs1))
        have hs3 : Kept r₀ s2 := writeHead_kept hs2
        have hs4 : Kept r₀ s3 := updWg_kept hs3 fun _ hid _ => ⟨hid.symm, hw⟩
        clear_value s3
        have hs5 : Kept r₀ s4 := KeptOf.updateGroups hs4 fun g => by
          unfold at'
          split <;> exact ⟨rfl, fun _ he => he⟩
        exact .some (reopenRounds_kept (returnSlots_kept hs5))
    · exact .none

theorem restoreOn_kept {cores us : List Nat} (hs : Kept r₀ s) : InvOpt (Kept r₀) (restoreOn cores us s) := by
  induction us generalizing s with
  | nil => exact hs
  | cons u us ih =>
    unfold restoreOn
    split
    · trivial
    · next heq =>
      exact InvOpt.findSome fun _ => (restoreWg_kept hs (hs.stores _ (List.mem_of_find?_eq_some heq))).bind fun _ hs => ih hs

theorem restoreQuartet_kept (hs : Kept r₀ s) (hw : w.StoresWf) : InvOpt (Kept r₀) (restoreQuartet s w core) := by
  unfold restoreQuartet
  split
  · exact .none
  · next heq => exact restoreOn_kept ((restoreWg_kept hs hw).of_some heq)

theorem placeStep_kept (hs : Kept r₀ s) : InvOpt (Kept r₀) (placeStep s core) := by
  unfold placeStep
  split
  · exact .none
  · split
    · exact .none
    · exact ite_keeps .none (placeQuartet_kept hs)

theorem execWorkgroupPlace_kept (hs : Kept r₀ s) : KeptRes r₀ (execWorkgroupPlace core s) :=
  eventOf_kept (placeStep_kept hs)

theorem restoreStep_kept (hs : Kept r₀ s) : InvOpt (Kept r₀) (restoreStep s uid core) := by
  unfold restoreStep
  split
  · exact .none
  · split
    · exact .none
    · split
      · exact .none
      · next heq => exact ite_keeps (restoreQuartet_kept hs (hs.stores _ (lowestWg_mem heq))) .none

theorem execRestore_kept {wg : Nat} (hs : Kept r₀ s) : KeptRes r₀ (execRestore wg core s) :=
  eventOf_kept (restoreStep_kept hs)

theorem stopWgs_kept {uids : List Nat} (hs : Kept r₀ s) : Kept r₀ (stopWgs s uids) := KeptOf.updateWgs hs

theorem preempt_kept (hs : Kept r₀ s) : InvOpt (Kept r₀) (preempt s) := by
  unfold preempt
  split
  · exact .none
  · split
    · exact .none
    · split
      · exact .none
      · exact .some (stopWgs_kept hs)

theorem execPreempt_kept (hs : Kept r₀ s) : KeptRes r₀ (execPreempt s) := eventOf_kept (preempt_kept hs)

theorem writeImage_kept {l : Launch} (hs : Kept r₀ s) : Kept r₀ (writeImage s l w) :=
  putBlockKeyed_kept (putBlockKeyed_kept (writeHead_kept hs))

theorem takeRounds_kept (hs : Kept r₀ s) : Kept r₀ (takeRounds s w).2 := setCluster_kept hs

theorem closeSlots_kept (hs : Kept r₀ s) : Kept r₀ (closeSlots s core) := hs

theorem savedOps_kept (hs : Kept r₀ s) : Kept r₀ (savedOps s uid) := by
  unfold savedOps
  extract_lets s1
  have hs1 : Kept r₀ s1 := foldl_kept (fun _ _ hs2 => closePst_kept hs2) hs
  clear_value s1
  exact KeptOf.filterOps hs1

theorem saveWg_kept (hs : Kept r₀ s) : InvOpt (Kept r₀) (saveWg s uid) := by
  unfold saveWg
  split
  · exact .none
  · next w hw =>
    have hw' : s.wgs.find? (fun x => x.uid = uid) = some w := hw
    have hst : w.StoresWf := hs.stores w (List.mem_of_find?_eq_some hw')
    have huid : w.uid = uid := by simpa using List.find?_some hw'
    split
    · exact .none
    · split
      · extract_lets cl s1 r s2 last slots s3 w' s4 rest s5
        have hs1 : Kept r₀ s1 := l1WriteBackAll_kept (wcOut_kept hs)
        have hs2 : Kept r₀ r.2 := takeRounds_kept (savedOps_kept hs1)
        have hs3 : Kept r₀ s2 := hs2
        have hs4 : Kept r₀ s3 := ite_keeps (takeSlots_kept hs3) hs3
        have hs5 : Kept r₀ s4 := updWg_kept hs4 fun _ hid _ => ⟨huid.trans hid.symm, hst⟩
        clear_value s4
        have hs6 : Kept r₀ s5 := KeptOf.updateGroups hs5
        exact .some (closeSlots_kept (writeImage_kept hs6))
      · exact .none

theorem execPreemptSave_kept {wg : Nat} (hs : Kept r₀ s) : KeptRes r₀ (execPreemptSave wg s) :=
  eventOf_kept (saveWg_kept hs)

theorem endWg_kept (hs : Kept r₀ s) : Kept r₀ (endWg s w) := by
  unfold endWg
  exact closeSlots_kept (updLaunch_kept (by
    split
    · exact leaveCluster_kept (dropWg_kept hs)
    · exact takeSlots_kept (dropWg_kept hs)))

theorem quietGroup_kept {g : Group} (hs : Kept r₀ s) : Kept r₀ (quietGroup s g) :=
  ite_keeps (closePst_kept hs) hs

theorem endGroup_kept (hs : Kept r₀ s) : InvOpt (Kept r₀) (endGroup s k) := by
  unfold endGroup
  split
  · split
    · extract_lets s1 s2 s3
      have hs1 : Kept r₀ s1 := quietGroup_kept hs
      clear_value s1
      have hs2 : Kept r₀ s2 := KeptOf.filterGroups hs1
      have hs3 : Kept r₀ s3 := failTeamRounds_kept hs2
      exact .some (ite_keeps (endWg_kept hs3) (closeSlots_kept hs3))
    · exact .none
  · exact .none

theorem execGroupEnd_kept {g : GKey} (hs : Kept r₀ s) : KeptRes r₀ (execGroupEnd g s) :=
  eventOf_kept (endGroup_kept hs)

theorem sliceExpiry_kept (hs : Kept r₀ s) : InvOpt (Kept r₀) (sliceExpiry s uid) := by
  unfold sliceExpiry
  split
  · exact .none
  · extract_lets here mine retires
    split
    · exact .none
    · exact ite_keeps (.some (stopWgs_kept (updLaunch_kept hs))) .none

theorem execSliceExpiry_kept (hs : Kept r₀ s) : KeptRes r₀ (execSliceExpiry launch s) :=
  eventOf_kept (sliceExpiry_kept hs)

theorem promoteSlot_kept {slot : Nat} (hs : Kept r₀ s) : InvOpt (Kept r₀) (promoteSlot s core part slot) :=
  ite_keeps (.some (nextSeq_kept hs)) .none

theorem execIssueSlotPromote_kept {slot : Nat} (hs : Kept r₀ s) : KeptRes r₀ (execIssueSlotPromote core part slot s) :=
  eventOf_kept (promoteSlot_kept hs)

theorem promotePort_kept (hs : Kept r₀ s) : InvOpt (Kept r₀) (promotePort s id) :=
  ite_keeps (.some (nextSeq_kept hs)) .none

theorem execL2PortPromote_kept {req : Nat} (hs : Kept r₀ s) : KeptRes r₀ (execL2PortPromote req s) :=
  eventOf_kept (promotePort_kept hs)

theorem poisonSlot_kept {l : Nat} (hs : Kept r₀ s) : Kept r₀ (poisonSlot s cl l n) := bslotSet_kept hs

theorem softError_kept {p : PoisonLoc} (hs : Kept r₀ s) : InvOpt (Kept r₀) (softError s p) := by
  unfold softError
  split
  · split
    · exact .some (poisonSlot_kept hs)
    · exact .some hs
  · exact .none

theorem execSoftError_kept {p : PoisonLoc} (hs : Kept r₀ s) : KeptRes r₀ (execSoftError p s) :=
  eventOf_kept (softError_kept hs)

/-! ### Fetch -/

theorem requestPage_kept {root l e : Nat} {w : ReqWait} (hs : Kept r₀ s) : Kept r₀ (requestPage s root owner l e va w).2 := by
  unfold requestPage
  split
  · exact hs
  · extract_lets f host src s1
    have hs1 : Kept r₀ f.2 := freshId_kept hs
    have hs2 : Kept r₀ src := hs1
    clear_value src
    have hs3 : Kept r₀ s1 := hs2
    exact ite_keeps (post_kept hs3) hs3

theorem fetchStop_kept {f : FetchStop} (hs : Kept r₀ s) : Kept r₀ (fetchStop c s f) := by
  unfold fetchStop
  extract_lets s1
  have hs1 : Kept r₀ s1 := unpair_kept hs
  split
  · exact raiseTrap_kept hs1 hs1
  · exact parkFetch_kept hs1
  · split
    · exact raiseTrap_kept hs1 hs1
    · split
      · extract_lets r
        have hs2 : Kept r₀ r.2 := requestPage_kept hs1
        exact parkFetch_kept hs2
      · exact hs1

theorem execFetchFault_kept (hs : Kept r₀ s) : KeptRes r₀ (execFetchFault s) := by
  unfold execFetchFault
  split
  · exact .fault
  · split
    · exact notEnabled_kept
    · exact .next (fetchStop_kept hs)

theorem decodeTrap_kept {t : DecodeTrap} {len : Nat} (hs : Kept r₀ s) : KeptRes r₀ (decodeTrap t len s) := by
  unfold decodeTrap
  split
  · exact .fault
  · split <;> exact Ctx.settle_kept hs trapAll_kept

theorem execIllegalEncoding_kept {w : Word} (hs : Kept r₀ s) : KeptRes r₀ (execIllegalEncoding w s) :=
  ite_keeps (decodeTrap_kept hs) notEnabled_kept

/-! ### Residency -/

theorem pgreqArrive_kept {o : Op} {bar err : Nat} (hs : Kept r₀ s) : Kept r₀ (pgreqArrive s o bar err) :=
  finishOp_kept (engineArrive_kept hs)

theorem walkPgreq_kept (hs : Kept r₀ s) : InvOpt (Kept r₀) (walkPgreq s id) := by
  unfold walkPgreq
  split
  · exact .none
  · split
    · exact .none
    · split
      · exact .some (pgreqArrive_kept hs)
      · split
        · exact .some (pgreqArrive_kept hs)
        · exact .some (pgreqArrive_kept hs)
        · exact ite_keeps .none (.some (pgreqArrive_kept hs))
        · exact .some (updOp_kept (requestPage_kept hs))

theorem execPgreqWalk_kept (hs : Kept r₀ s) : KeptRes r₀ (execPgreqWalk op s) :=
  eventOf_kept (walkPgreq_kept hs)

theorem copyLine_kept {key : BitVec 512} {src dst : Nat} (hs : Kept r₀ s) : Kept r₀ (copyLine key src dst s) := by
  unfold copyLine
  extract_lets d bad s1 s2
  have hs1 : Kept r₀ s1 := mscDrop_kept hs
  have hs2 : Kept r₀ s2 := putBlockKeyed_kept hs1
  clear_value s2
  exact hs2

theorem copyLines_kept {key : BitVec 512} {src dst : Nat} (hs : Kept r₀ s) : Kept r₀ (copyLines key src dst n s) :=
  foldl_kept (fun _ _ hs1 => copyLine_kept hs1) hs

theorem writeEntry_kept {epa e : Nat} (hs : Kept r₀ s) : Kept r₀ (writeEntry s epa e) := by
  unfold writeEntry
  extract_lets s1
  have hs1 : Kept r₀ s1 := plainSetNum_kept hs
  clear_value s1
  exact hs1

theorem dropRange_kept (hs : Kept r₀ s) : Kept r₀ (dropRange s core lo n) :=
  foldl_kept (fun _ _ hs1 => l1Drop_kept hs1) (wcOutRange_kept hs)

theorem dropRangeAll_kept (hs : Kept r₀ s) : Kept r₀ (dropRangeAll s lo n) :=
  foldl_kept (fun _ _ hs1 => dropRange_kept hs1) hs

theorem makeResident_kept {l epa e : Nat} (hs : Kept r₀ s) : InvOpt (Kept r₀) (makeResident s owner l epa e) := by
  unfold makeResident
  extract_lets z page back s1 s2 s3
  have hs1 : Kept r₀ s3 := writeEntry_kept (copyLines_kept (plainSetNum_kept (dropRangeAll_kept hs)))
  clear_value s3
  exact ite_keeps .none (.some (ite_keeps hs1 hs1))

theorem answerOp_kept {ok : Bool} (hs : Kept r₀ s) : Kept r₀ (answerOp s ok id) := by
  unfold answerOp
  split
  · exact hs
  · exact ite_keeps (pgreqArrive_kept hs) (ite_keeps (pgreqArrive_kept hs) (updOp_kept hs))

theorem answerFetch_kept {ok : Bool} {req : Nat} (hs : Kept r₀ s) : Kept r₀ (answerFetch s ok req va k) := by
  unfold answerFetch
  split
  · exact hs
  · extract_lets mine
    clear_value mine
    split
    · exact foldl_kept (fun _ _ hs1 => wake_kept hs1) hs
    · split
      · exact hs
      · exact takeTrap_kept hs

theorem answerReq_kept {r : ResReq} {ok : Bool} (hs : Kept r₀ s) : Kept r₀ (answerReq s r ok) := by
  unfold answerReq
  exact foldl_kept (fun _ _ hs1 => by
    split
    · exact answerOp_kept hs1
    · exact answerFetch_kept hs1) hs

theorem commandDone_kept {slot : Nat} {tag : BitVec 16} {status : Nat} (hs : Kept r₀ s) :
    Kept r₀ (commandDone s slot tag status) :=
  post_kept hs

theorem completeResidency_kept (hs : Kept r₀ s) : InvOpt (Kept r₀) (completeResidency s id) := by
  have answered {s : State} {r : ResReq} {ok : Bool} (hs : Kept r₀ s) : InvOpt (Kept r₀)
    (some (answerReq s r ok)) := answerReq_kept hs
  unfold completeResidency
  split
  · trivial
  · split
    · exact ite_keeps .none (.some (commandDone_kept (answerReq_kept hs)))
    · split
      · trivial
      · split
        · exact answered hs
        · exact answered hs
        · exact answered hs
        · split
          · exact answered hs
          · next heq =>
            have resident := (makeResident_kept hs).of_some heq
            exact .some (ite_keeps (answerReq_kept resident) resident)

theorem execResidencyComplete_kept {req : Nat} (hs : Kept r₀ s) : KeptRes r₀ (execResidencyComplete req s) :=
  eventOf_kept (completeResidency_kept hs)

theorem completeUpdate_kept (hs : Kept r₀ s) : InvOpt (Kept r₀) (completeUpdate s id) := by
  unfold completeUpdate
  split
  · exact .none
  · exact .some (by
        split
        · exact commandDone_kept (syncRange_kept hs)
        · exact syncRange_kept hs)

theorem execTranslationUpdateComplete_kept {upd : Nat} (hs : Kept r₀ s) : KeptRes r₀ (execTranslationUpdateComplete upd s) :=
  eventOf_kept (completeUpdate_kept hs)

/-! ### Boot -/

theorem recordStep_kept {step out : Nat} {detail : DWord} (hs : Kept r₀ s) : Kept r₀ (recordStep s step out detail) :=
  hs

theorem setPort_kept {p : Nat} {x : Port} (hs : Kept r₀ s) : Kept r₀ (setPort s p x) := hs

theorem resend_kept {p : Nat} (hs : Kept r₀ s) : Kept r₀ (resend s p) := by
  unfold resend
  extract_lets x again
  split
  · exact setPort_kept hs
  · extract_lets y
    exact setPort_kept (setPort_kept hs)

theorem plainStep_kept {step : Nat} {detail : DWord} (hs : Kept r₀ s) : Kept r₀ (plainStep s env step detail) :=
  recordStep_kept hs

theorem stepRails_kept (hs : Kept r₀ s) : Kept r₀ (stepRails s env) := by
  unfold stepRails
  extract_lets s1 src
  have hs1 : Kept r₀ s1 := plainStep_kept hs
  clear_value s1
  exact hs1

theorem stepFuses_kept (hs : Kept r₀ s) : Kept r₀ (stepFuses s env) := by
  unfold stepFuses
  split
  · exact recordStep_kept hs
  · extract_lets s1 src
    have hs1 : Kept r₀ s1 := recordStep_kept hs
    clear_value s1
    exact hs1

theorem stepTraining_kept {byAlt : Bool} (hs : Kept r₀ s) : Kept r₀ (stepTraining s env byAlt) :=
  ite_keeps (recordStep_kept hs) (ite_keeps (recordStep_kept hs) (recordStep_kept hs))

theorem stepClusters_kept {byAlt : Bool} (hs : Kept r₀ s) : Kept r₀ (stepClusters s env byAlt) := by
  unfold stepClusters
  extract_lets known found bad s1 src
  have hs1 : Kept r₀ s1 := ite_keeps (recordStep_kept hs) (recordStep_kept hs)
  clear_value s1
  exact ite_keeps (recordStep_kept hs) hs1

theorem stepSplit_kept (hs : Kept r₀ s) : Kept r₀ (stepSplit s env) := by
  unfold stepSplit
  extract_lets s1 src
  have hs1 : Kept r₀ s1 := plainStep_kept hs
  clear_value s1
  exact hs1

theorem stepCxl_kept (hs : Kept r₀ s) : Kept r₀ (stepCxl s env skip) := by
  unfold stepCxl
  split
  · extract_lets s1 src src1
    have hs1 : Kept r₀ s1 := recordStep_kept hs
    clear_value s1
    exact hs1
  · extract_lets s2 pool src2 src3
    have hs2 : Kept r₀ s2 := recordStep_kept hs
    clear_value s2
    exact hs2

theorem stepLink_kept (hs : Kept r₀ s) : Kept r₀ (stepLink s env skip) := by
  unfold stepLink
  split
  · extract_lets s1 src
    have hs1 : Kept r₀ s1 := recordStep_kept hs
    clear_value s1
    exact hs1
  · extract_lets s2 src1 src2
    have hs2 : Kept r₀ s2 := recordStep_kept hs
    clear_value s2
    exact hs2

theorem stepMcb_kept (hs : Kept r₀ s) : Kept r₀ (stepMcb s env) := by
  unfold stepMcb
  extract_lets s1 src m src1 s2 s3
  have hs1 : Kept r₀ s1 := plainStep_kept hs
  clear_value s1
  have hs2 : Kept r₀ s2 := hs1
  have hs3 : Kept r₀ s3 := ite_keeps (resend_kept hs2) hs2
  exact ite_keeps hs1 (post_kept hs3)

theorem runStep_kept {step : Nat} {m : StepBy} (hs : Kept r₀ s) : Kept r₀ (runStep s env step m) := by
  unfold runStep
  extract_lets s1 src
  have hs1 : Kept r₀ s1 := by
    unfold s1
    split
    · exact plainStep_kept hs
    · exact stepRails_kept hs
    · exact stepFuses_kept hs
    · exact stepTraining_kept hs
    · exact stepClusters_kept hs
    · exact stepSplit_kept hs
    · exact stepCxl_kept hs
    · exact stepLink_kept hs
    · exact stepMcb_kept hs
  clear_value s1
  exact ite_keeps hs1 (ite_keeps hs1 hs1)

theorem runSteps_kept (hs : Kept r₀ s) : Kept r₀ (runSteps env n s) := by
  induction n generalizing s with
  | zero => exact hs
  | succ n ih => exact ite_keeps hs (ih (runStep_kept hs))

theorem powerOff_kept (hs : Kept r₀ s) : Kept r₀ (powerOff s) where
  ids _ ho := absurd ho List.not_mem_nil
  apart := List.nodup_nil
  uids _ hw := absurd hw List.not_mem_nil
  wgsApart := List.nodup_nil
  fifos _ hg := absurd hg List.not_mem_nil
  cores := rfl
  clusters := rfl
  stores _ hw := absurd hw List.not_mem_nil
  later := hs.later
  oldOps _ ho := absurd ho List.not_mem_nil
  oldWgs _ hw := absurd hw List.not_mem_nil

theorem startModule_kept (hs : Kept r₀ s) : Kept r₀ (startModule s env) := by
  unfold startModule
  extract_lets s1 src s2 s3
  have hs1 : Kept r₀ s1 := powerOff_kept hs
  clear_value s1
  have hs2 : Kept r₀ s2 := hs1
  have hs3 : Kept r₀ s3 := runStep_kept hs2
  exact ite_keeps hs3 (runSteps_kept hs3)

theorem execStart_kept (hs : Kept r₀ s) : KeptRes r₀ (execStart env s) := .next (startModule_kept hs)

theorem stepGo_kept {arg0 arg1 : Nat} (hs : Kept r₀ s) : Kept r₀ (stepGo s arg0 arg1) := by
  unfold stepGo
  extract_lets src last step m
  have hs1 : ∀ a, Kept r₀ (last a) := fun _ => hs
  split
  · exact hs1 _
  · split
    · exact hs1 _
    · split
      · exact hs
      · exact runStep_kept hs

theorem thermalTick_kept {junctions : List Nat} (hs : Kept r₀ s) : InvOpt (Kept r₀) (thermalTick s junctions) :=
  ite_keeps .none (.some hs)

theorem execThermalTick_kept {junctions : List Nat} (hs : Kept r₀ s) : KeptRes r₀ (execThermalTick junctions s) :=
  eventOf_kept (thermalTick_kept hs)

theorem thermalTrip_kept {junctions : List Nat} (hs : Kept r₀ s) : InvOpt (Kept r₀) (thermalTrip s junctions) := by
  unfold thermalTrip
  split
  · extract_lets s1 src
    have hs1 : Kept r₀ s1 := powerOff_kept hs
    clear_value s1
    exact .some hs1
  · exact .none

theorem execThermalTrip_kept {junctions : List Nat} (hs : Kept r₀ s) : KeptRes r₀ (execThermalTrip junctions s) :=
  eventOf_kept (thermalTrip_kept hs)

/-! ### HostOps -/

theorem setNqhead_kept {v : Word} (hs : Kept r₀ s) : Kept r₀ (setNqhead s v) := drainHeld_kept hs

theorem setNq_kept {log : Nat} (hs : Kept r₀ s) : Kept r₀ (setNq s base log) :=
  ite_keeps hs (drainHeld_kept hs)

theorem setCapw_kept {v : Nat} (hs : Kept r₀ s) : Kept r₀ (setCapw s v) := hs

theorem setMode_kept {v : BitVec 5} (hs : Kept r₀ s) : Kept r₀ (setMode s v) := ite_keeps hs hs

theorem setField_kept {f : McbField} {v : Nat} (hs : Kept r₀ s) : Kept r₀ (setField s f v) := by
  unfold setField
  split <;> exact ite_keeps hs hs

theorem inService_kept {f : State → State} (hs : Kept r₀ s) (hf : ∀ a, Kept r₀ a → Kept r₀ (f a)) : KeptRes r₀ (inService s f) :=
  .next (ite_keeps (hf _ hs) hs)

theorem execNqheadWrite_kept {v : Word} (hs : Kept r₀ s) : KeptRes r₀ (execNqheadWrite v s) :=
  inService_kept hs (fun _ hs1 => setNqhead_kept hs1)

theorem execNqConfigWrite_kept {base : DWord} {log : BitVec 8} (hs : Kept r₀ s) : KeptRes r₀ (execNqConfigWrite base log s) :=
  inService_kept hs (fun _ hs1 => setNq_kept hs1)

theorem execCapwWrite_kept {v : BitVec 16} (hs : Kept r₀ s) : KeptRes r₀ (execCapwWrite v s) :=
  inService_kept hs (fun _ hs1 => setCapw_kept hs1)

theorem execModeWrite_kept {v : BitVec 5} (hs : Kept r₀ s) : KeptRes r₀ (execModeWrite v s) :=
  inService_kept hs (fun _ hs1 => setMode_kept hs1)

theorem execMcbWrite_kept {f : McbField} {v : DWord} (hs : Kept r₀ s) : KeptRes r₀ (execMcbWrite f v s) :=
  inService_kept hs (fun _ hs1 => setField_kept hs1)

theorem onField_kept {v : Option Nat} {f : State → Nat → State} (hf : ∀ a b, Kept r₀ a → Kept r₀ (f a b)) (hs : Kept r₀ s) :
    Kept r₀ (onField v f s) := by
  unfold onField
  split
  · exact hs
  · exact hf _ _ hs

theorem writeMcb_kept {bs : List Byte} (hs : Kept r₀ s) : Kept r₀ (writeMcb s off bs) :=
  onField_kept (fun _ _ hs1 => setNqhead_kept hs1) (onField_kept (fun _ _ hs2 =>
    setField_kept hs2) (onField_kept (fun _ _ hs3 => setField_kept hs3) (onField_kept (fun _ _ hs4 =>
    setField_kept hs4) (onField_kept (fun _ _ hs5 => setField_kept hs5) (onField_kept (fun _ _ hs6 =>
    setMode_kept hs6) (onField_kept (fun _ _ hs7 => setCapw_kept hs7) (ite_keeps hs (setNq_kept hs))))))))

theorem writeSlot_kept {slot at' : Nat} {bs : List Byte} (hs : Kept r₀ s) : Kept r₀ (writeSlot s slot at' bs) :=
  ite_keeps hs hs

theorem acceptCmd_kept {slot : Nat} (hs : Kept r₀ s) : Kept r₀ (acceptCmd s slot) := hs

theorem command_kept {name : String} {code slot : Nat} {f : State → State} (hf : ∀ a, Kept r₀ a → Kept r₀ (f a)) (hs : Kept r₀ s) :
    KeptRes r₀ (command name code slot f s) := by
  unfold command
  split
  · exact .next (ite_keeps (hf _ (acceptCmd_kept hs)) (commandDone_kept (acceptCmd_kept hs)))
  · exact notEnabled_kept

theorem commandNow_kept {name : String} {code slot : Nat} {f : State → State} (hf : ∀ a, Kept r₀ a → Kept r₀ (f a))
    (hs : Kept r₀ s) :
    KeptRes r₀ (commandNow name code slot f s) :=
  command_kept (fun _ hs1 => commandDone_kept (hf _ hs1)) hs

theorem flushRange_kept (hs : Kept r₀ s) : Kept r₀ (flushRange s base n) :=
  foldl_kept (fun _ _ hs1 => mscDrop_kept hs1) hs

theorem execFlush_kept {slot : Slot} (hs : Kept r₀ s) : KeptRes r₀ (execFlush slot s) :=
  commandNow_kept (fun _ hs1 => flushRange_kept hs1) hs

theorem execXupd_kept {slot : Slot} (hs : Kept r₀ s) : KeptRes r₀ (execXupd slot s) := by
  unfold execXupd
  exact command_kept (fun _ hs1 => by
    extract_lets f src
    have hs2 : Kept r₀ f.2 := freshId_kept hs1
    have hs3 : Kept r₀ src := hs2
    clear_value src
    exact hs3) hs

theorem execResolve_kept {slot : Slot} (hs : Kept r₀ s) : KeptRes r₀ (execResolve slot s) :=
  command_kept (fun _ hs1 => hs1) hs

theorem trapGo_kept {g : Group} {how : Nat} (hs : Kept r₀ s) : Kept r₀ (trapGo s g how skip) := by
  unfold trapGo
  split
  · exact hs
  · extract_lets csw tpc cause sub
    split
    · exact enterHandler_kept hs
    · exact resumeGroup_kept hs
    · exact failTeamRounds_kept (endGroupsWhere_kept (unhandled_kept hs))

theorem execTrapgo_kept {slot : Slot} (hs : Kept r₀ s) : KeptRes r₀ (execTrapgo slot s) := by
  unfold execTrapgo
  exact commandNow_kept (fun _ hs1 => by
    split
    · exact hs1
    · exact trapGo_kept hs1) hs

theorem execKeyld_kept {slot : Slot} (hs : Kept r₀ s) : KeptRes r₀ (execKeyld slot s) :=
  commandNow_kept (fun _ hs1 => plainSetNum_kept hs1) hs

theorem execKeyclr_kept {slot : Slot} (hs : Kept r₀ s) : KeptRes r₀ (execKeyclr slot s) :=
  commandNow_kept (fun _ hs1 => hs1) hs

theorem execTapego_kept {slot : Slot} (hs : Kept r₀ s) : KeptRes r₀ (execTapego slot s) :=
  commandNow_kept (fun _ hs1 => tapeStart_kept hs1) hs

theorem execStepgo_kept {slot : Slot} (hs : Kept r₀ s) : KeptRes r₀ (execStepgo slot s) :=
  ite_keeps (.next (stepGo_kept (acceptCmd_kept hs))) (command_kept (fun _ hs1 => commandDone_kept hs1) hs)

theorem execRecclr_kept {slot : Slot} (hs : Kept r₀ s) : KeptRes r₀ (execRecclr slot s) :=
  commandNow_kept (fun _ hs1 => hs1) hs

theorem execCommandInvalid_kept {slot : Slot} (hs : Kept r₀ s) : KeptRes r₀ (execCommandInvalid slot s) :=
  ite_keeps (.next (commandDone_kept (acceptCmd_kept hs))) notEnabled_kept

theorem carried_kept {up : Bool} {r : Result} (hs : Kept r₀ s) (hr : KeptRes r₀ r) : KeptRes r₀ (carried s up r) :=
  ite_keeps hr (.next hs)

theorem overLink_kept {r : Result} (hs : Kept r₀ s) (hr : KeptRes r₀ r) : KeptRes r₀ (overLink s r) :=
  carried_kept hs hr

theorem execHostRead_kept {len key : Nat} (hs : Kept r₀ s) : KeptRes r₀ (execHostRead pa len key s) :=
  ite_keeps (carried_kept hs (.next hs)) (overLink_kept hs (ite_keeps (.next hs) (.next hs)))

theorem answerCodeZero_kept {slot at' : Nat} (hs : Kept r₀ s) : Kept r₀ (answerCodeZero s slot at' n) :=
  ite_keeps (commandDone_kept hs) hs

theorem windowWrite_kept {bs : List Byte} (hs : Kept r₀ s) : Kept r₀ (windowWrite s off bs) :=
  ite_keeps (answerCodeZero_kept (writeSlot_kept hs)) (ite_keeps (writeMcb_kept hs) hs)

theorem withReply_kept {x : Option HostReply} (hs : Kept r₀ s) : Kept r₀ { s with reply := x } := hs

theorem execHostWrite_kept {bytes : List Byte} {key : Nat} (hs : Kept r₀ s) : KeptRes r₀ (execHostWrite pa bytes key s) := by
  unfold execHostWrite
  split
  · exact carried_kept hs (ite_keeps (execLaunchPost_kept hs)
    (ite_keeps (.next hs) (.next (withReply_kept (windowWrite_kept hs)))))
  · exact overLink_kept hs (ite_keeps (.next hs) (ite_keeps .refused
    (.next (withReply_kept (ownSetBytes_kept (clearPoisonFor_kept hs))))))

theorem execHostAtomic_kept {a : HostAtomic} (hs : Kept r₀ s) : KeptRes r₀ (execHostAtomic a s) := by
  unfold execHostAtomic
  extract_lets n old s1
  have hs1 : Kept r₀ s1 := ownSetBytes_kept hs
  clear_value s1
  split
  · exact carried_kept hs (.next hs)
  · exact overLink_kept hs (ite_keeps (.next hs) (ite_keeps .refused (.next hs1)))

/-! ### Fabric -/

theorem flitFail_kept {p : Nat} (hs : Kept r₀ s) : InvOpt (Kept r₀) (flitFail s p) := by
  unfold flitFail
  extract_lets x
  split
  · exact .none
  · exact ite_keeps (.some (setPort_kept hs)) .none

theorem execFlitCrcFail_kept {port : Fin 18} (hs : Kept r₀ s) : KeptRes r₀ (execFlitCrcFail port s) :=
  eventOf_kept (flitFail_kept hs)

theorem portDown_kept {p : Nat} (hs : Kept r₀ s) : InvOpt (Kept r₀) (portDown s p) :=
  ite_keeps (.some (resend_kept hs)) .none

theorem execPortDown_kept {port : Fin 18} (hs : Kept r₀ s) : KeptRes r₀ (execPortDown port s) :=
  eventOf_kept (portDown_kept hs)

theorem vcPause_kept {p v : Nat} (hs : Kept r₀ s) : InvOpt (Kept r₀) (vcPause s p v) :=
  ite_keeps (.some (setPort_kept hs)) .none

theorem execVcPause_kept {port : Fin 18} {vc : Fin 4} (hs : Kept r₀ s) : KeptRes r₀ (execVcPause port vc s) :=
  eventOf_kept (vcPause_kept hs)

theorem vcRelease_kept {p v : Nat} (hs : Kept r₀ s) : InvOpt (Kept r₀) (vcRelease s p v) :=
  ite_keeps (.some (setPort_kept hs)) .none

theorem execVcRelease_kept {port : Fin 18} {vc : Fin 4} (hs : Kept r₀ s) : KeptRes r₀ (execVcRelease port vc s) :=
  eventOf_kept (vcRelease_kept hs)

theorem flitPromote_kept {p : Nat} (hs : Kept r₀ s) : InvOpt (Kept r₀) (flitPromote s p id) := by
  unfold flitPromote
  extract_lets x due s'
  exact ite_keeps (.some (nextSeq_kept (s := s') (setPort_kept hs))) .none

theorem execFlitPromote_kept {port : Fin 18} {flit : Nat} (hs : Kept r₀ s) : KeptRes r₀ (execFlitPromote port flit s) :=
  eventOf_kept (flitPromote_kept hs)

theorem flitSend_kept {p v : Nat} {bs : List Byte} (hs : Kept r₀ s) : Kept r₀ (flitSend s p v bs) :=
  ite_keeps (setPort_kept (freshId_kept hs)) hs

theorem flitGrant_kept {p : Nat} (hs : Kept r₀ s) : Kept r₀ (flitGrant s p) := by
  unfold flitGrant
  extract_lets x
  split
  · exact hs
  · exact ite_keeps (setPort_kept hs) hs

theorem flitAck_kept {p : Nat} (hs : Kept r₀ s) : Kept r₀ (flitAck s p) := by
  unfold flitAck
  extract_lets x
  split
  · exact hs
  · exact ite_keeps (setPort_kept hs) hs

theorem flitIn_kept {p v : Nat} (hs : Kept r₀ s) : Kept r₀ (flitIn s p v) := ite_keeps (setPort_kept hs) hs

theorem flitOut_kept {p v : Nat} (hs : Kept r₀ s) : Kept r₀ (flitOut s p v) := setPort_kept hs

/-! ### Dispatch -/

theorem exec_kept (hs : Kept r₀ s) : KeptRes r₀ (exec i s) := by
  unfold exec
  split
  · exact execIadd_kept hs
  · exact execIsub_kept hs
  · exact execImul_kept hs
  · exact execImulh_kept hs
  · exact execImulhu_kept hs
  · exact execImad_kept hs
  · exact execImin_kept hs
  · exact execImax_kept hs
  · exact execAnd_kept hs
  · exact execOr_kept hs
  · exact execXor_kept hs
  · exact execShl_kept hs
  · exact execShr_kept hs
  · exact execSar_kept hs
  · exact execIuny_kept hs
  · exact execIset_kept hs
  · exact execFadd_kept hs
  · exact execFsub_kept hs
  · exact execFmul_kept hs
  · exact execFfma_kept hs
  · exact execFmin_kept hs
  · exact execFmax_kept hs
  · exact execFset_kept hs
  · exact execFuny_kept hs
  · exact execFcvt_kept hs
  · exact execHfma2_kept hs
  · exact execBfma2_kept hs
  · exact execMov_kept hs
  · exact execCmov_kept hs
  · exact execLxor_kept hs
  · exact execLshf_kept hs
  · exact execLred_kept hs
  · exact execLscan_kept hs
  · exact execMatchv_kept hs
  · exact execCmpct_kept hs
  · exact execBallot_kept hs
  · exact execMskop_kept hs
  · exact execMpopc_kept hs
  · exact execDraw_kept hs
  · exact execCatd_kept hs
  · exact execDsskip_kept hs
  · exact execDsfork_kept hs
  · exact execDssetp_kept hs
  · exact execDspos_kept hs
  · exact execGneval_kept hs
  · exact execKsig_kept hs
  · exact execLd_kept hs
  · exact execLde_kept hs
  · exact execLdnr_kept hs
  · exact execSt_kept hs
  · exact execSte_kept hs
  · exact execStnt_kept hs
  · exact execPst_kept hs
  · exact execAtom_kept hs
  · exact execAtomr_kept hs
  · exact execCas_kept hs
  · exact execCas128_kept hs
  · exact execGath_kept hs
  · exact execScat_kept hs
  · exact execSisect_kept hs
  · exact execKst_kept hs
  · exact execCpl_kept hs
  · exact execCpm_kept hs
  · exact execMmq_kept hs
  · exact execMmt_kept hs
  · exact execAccrd_kept hs
  · exact execAccwr_kept hs
  · exact execAccpatch_kept hs
  · exact execKgath_kept hs
  · exact execBra_kept hs
  · exact execBraKernelAbsolute_kept hs
  · exact execBrm_kept hs
  · exact execBrmn_kept hs
  · exact execBrz_kept hs
  · exact execBrnz_kept hs
  · exact execCall_kept hs
  · exact execCallKernelAbsolute_kept hs
  · exact execRet_kept hs
  · exact execExit_kept hs
  · exact execTrap_kept hs
  · exact execSadd_kept hs
  · exact execSsub_kept hs
  · exact execSmul_kept hs
  · exact execSand_kept hs
  · exact execSor_kept hs
  · exact execSxor_kept hs
  · exact execSshl_kept hs
  · exact execSshr_kept hs
  · exact execSsar_kept hs
  · exact execSmin_kept hs
  · exact execSmax_kept hs
  · exact execSmov_kept hs
  · exact execSset_kept hs
  · exact execSmovi_kept hs
  · exact execSlui_kept hs
  · exact execV2s_kept hs
  · exact execSbra_kept hs
  · exact execSbz_kept hs
  · exact execSbnz_kept hs
  · exact execQrd_kept hs
  · exact execQst_kept hs
  · exact execIdrd_kept hs
  · exact execWaitc_kept hs
  · exact execFence_kept hs
  · exact execNtdrain_kept hs
  · exact execLdu_kept hs
  · exact execStu_kept hs
  · exact execFstat_kept hs
  · exact execNop_kept hs
  · exact execNopLiteral_kept hs
  · exact execHload_kept hs
  · exact execHadj_kept hs
  · exact execHqry_kept hs
  · exact execBinit_kept hs
  · exact execBarrive_kept hs
  · exact execBexpect_kept hs
  · exact execBwait_kept hs
  · exact execBtest_kept hs
  · exact execRqenq_kept hs
  · exact execRqdeq_kept hs
  · exact execPgreq_kept hs
  · exact execPfh_kept hs
  · exact execDsld_kept hs
  · exact execGnld_kept hs
  · exact execBld_kept hs
  · exact execBfree_kept hs
  · exact execAccz_kept hs
  · exact execAccst_kept hs
  · exact execKsinit_kept hs
  · exact execLaunch_kept hs
  · exact execTapepush_kept hs
  · exact execTret_kept hs
  · exact execTfrd_kept hs
  · exact execTfwr_kept hs
  · exact execWatchLoad_kept hs
  · exact execWatchStore_kept hs
  · exact execWatchClr_kept hs
  · exact execGend_kept hs
  · exact execTeamTrap_kept hs
  · exact execLoadComplete_kept hs
  · exact execStoreRetire_kept hs
  · exact execNtStoreWrite_kept hs
  · exact execAtomicPerform_kept hs
  · exact execCopySectorLand_kept hs
  · exact execPresenceUnpark_kept hs
  · exact execMigrationUnpark_kept hs
  · exact execBwaitReturn_kept hs
  · exact execWaitcReturn_kept hs
  · exact execNtdrainReturn_kept hs
  · exact execFenceComplete_kept hs
  · exact execBldLoadComplete_kept hs
  · exact execReservationGrant_kept hs
  · exact execReservationAged_kept hs
  · exact execMatrixPassComplete_kept hs
  · exact execHatArrive_kept hs
  · exact execBurstEnd_kept hs
  · exact execAccOpComplete_kept hs
  · exact execAccstComplete_kept hs
  · exact execKstRowPerformed_kept hs
  · exact execKsClaim_kept hs
  · exact execKsPublish_kept hs
  · exact execKgathWalk_kept hs
  · exact execGathComplete_kept hs
  · exact execScatWrite_kept hs
  · exact execSisectRun_kept hs
  · exact execCollectorDispatch_kept hs
  · exact execCollectorLineServed_kept hs
  · exact execPgreqWalk_kept hs
  · exact execResidencyComplete_kept hs
  · exact execTranslationUpdateComplete_kept hs
  · exact execLaunchPost_kept hs
  · exact execLaunchTake_kept hs
  · exact execWorkgroupPlace_kept hs
  · exact execPreempt_kept hs
  · exact execSliceExpiry_kept hs
  · exact execPreemptSave_kept hs
  · exact execRestore_kept hs
  · exact execGroupEnd_kept hs
  · exact execLaunchComplete_kept hs
  · exact execIssueSlotPromote_kept hs
  · exact execL2PortPromote_kept hs
  · exact execSoftError_kept hs
  · exact execHostRead_kept hs
  · exact execHostWrite_kept hs
  · exact execHostAtomic_kept hs
  · exact execFlush_kept hs
  · exact execXupd_kept hs
  · exact execResolve_kept hs
  · exact execTrapgo_kept hs
  · exact execKeyld_kept hs
  · exact execKeyclr_kept hs
  · exact execTapego_kept hs
  · exact execStepgo_kept hs
  · exact execRecclr_kept hs
  · exact execCommandInvalid_kept hs
  · exact execNqheadWrite_kept hs
  · exact execNqConfigWrite_kept hs
  · exact execCapwWrite_kept hs
  · exact execModeWrite_kept hs
  · exact execMcbWrite_kept hs
  · exact execFlitCrcFail_kept hs
  · exact execPortDown_kept hs
  · exact execVcPause_kept hs
  · exact execVcRelease_kept hs
  · exact execFlitPromote_kept hs
  · exact execStart_kept hs
  · exact execThermalTick_kept hs
  · exact execThermalTrip_kept hs
  · exact execIllegalEncoding_kept hs
  · exact execFetchFault_kept hs

/-! ### Turns -/

theorem focusAt_kept {partner : Option DWord} (hs : Kept r₀ s) : Kept r₀ (focusAt s k pc partner) := hs

theorem pickSlot_kept {slot : Nat} (hs : Kept r₀ s) : Kept r₀ (pickSlot s core part slot) :=
  nextSeq_kept hs

theorem touchCode_kept (hs : Kept r₀ s) : Kept r₀ (touchCode s ln n) := virtTouch_kept hs

theorem runFocus_kept (hs : Kept r₀ s) : KeptRes r₀ (runFocus s) := by
  unfold runFocus
  split
  · exact .fault
  · split
    · exact exec_kept hs
    · extract_lets s1
      have hs1 : Kept r₀ s1 := touchCode_kept hs
      split
      · exact exec_kept hs1
      · exact ite_keeps (exec_kept hs1) (decodeTrap_kept hs1)

theorem toSecond_kept {p q ls : DWord} (hs : Kept r₀ s) : Kept r₀ (toSecond s p q ls) := hs

theorem deliver_kept {tm : Bool} {p q : DWord} (hs : Kept r₀ s) : Kept r₀ (deliver s tm k p q) := by
  unfold deliver
  split
  · exact hs
  · exact ite_keeps (takeTrapIn_kept hs) (takeTrapIn_kept hs)

theorem runPair_kept {p q : DWord} (hs : Kept r₀ s) : KeptRes r₀ (runPair s k p q) := by
  have first : KeptRes r₀ (runFocus (focusAt s k p (some q))) := runFocus_kept (focusAt_kept hs)
  have second {s₁ : State} (hs₁ : Kept r₀ s₁) {b : Bool} : KeptRes r₀ (if b then runFocus s₁ else .next (unpair s₁)) :=
    ite_keeps (runFocus_kept hs₁) (.next (unpair_kept hs₁))
  unfold runPair
  split
  · next s₁ heq =>
    have hs₂ : Kept r₀ (toSecond s₁ p q (lanesAt s k q)) := toSecond_kept (first.of_next heq)
    dsimp only
    split
    · next heq => exact .next (deliver_kept ((second hs₂).of_next heq))
    · exact second hs₂
  · exact first

theorem runBoth_kept {p q : DWord} (hs : Kept r₀ s) : KeptRes r₀ (runBoth s k p q) :=
  ite_keeps (runPair_kept hs) (runPair_kept hs)

theorem issueCands_kept {cs : List Cand} {r : Result} (hr : KeptRes r₀ r) : KeptRes r₀ (issueCands cs r k) := by
  unfold issueCands
  split
  · split
    · exact hr
    · exact runFocus_kept (focusAt_kept hr)
    · exact runBoth_kept hr
  · exact hr

theorem noteReady_kept {but : Option Nat} {stalled : List (GKey × DWord)} {t : State} (hs : Kept r₀ t) :
    Kept r₀ (noteReady s core part but stalled t) :=
  hs

theorem pickedIn_kept {t : State} (hs : Kept r₀ t) : Kept r₀ (pickedIn s k t) := by
  unfold pickedIn
  split
  · exact hs
  · exact pickSlot_kept (noteReady_kept hs)

theorem picked_kept (hs : Kept r₀ s) : Kept r₀ (picked s k) := pickedIn_kept hs

theorem afterIssue_kept {r : Result} (hr : KeptRes r₀ r) : KeptRes r₀ (afterIssue s k r) := by
  unfold afterIssue
  split
  · exact .next (ite_keeps hr (pickedIn_kept hr))
  · exact hr

theorem fetchAt_kept (hs : Kept r₀ s) : Kept r₀ (fetchAt s k pc) := by
  have fetched : KeptRes r₀ (exec .fetchFault (focusAt s k pc none)) := exec_kept (focusAt_kept hs)
  unfold fetchAt
  split
  · split
    · next heq => exact fetched.of_next heq
    · exact hs
  · exact hs

theorem fetchAll_kept {stalled : List (GKey × DWord)} (hs : Kept r₀ s) : Kept r₀ (fetchAll s core part stalled) :=
  foldl_kept (fun _ _ hs1 => fetchAt_kept hs1) hs

theorem takePick_kept {stalled : List (GKey × DWord)} (hs : Kept r₀ s) : KeptRes r₀ (takePick s core part stalled) := by
  unfold takePick
  extract_lets s'
  have hs1 : Kept r₀ s' := noteReady_kept hs
  split
  · exact .next hs1
  · exact foldl_keeps (P := fun r => KeptRes r₀ r) (fun _ _ hs2 => issueCands_kept hs2) (.next (pickSlot_kept hs1))

theorem runPick_kept {stalled : List (GKey × DWord)} (hs : Kept r₀ s) : KeptRes r₀ (runPick s core part stalled) :=
  takePick_kept (fetchAll_kept hs)

theorem runIssue_kept {partner : Option DWord} (hs : Kept r₀ s) : KeptRes r₀ (runIssue s k pc partner) := by
  unfold runIssue
  split
  · split
    · exact afterIssue_kept (runFocus_kept (focusAt_kept hs))
    · exact ite_keeps (runBoth_kept (ite_keeps (picked_kept hs) hs)) notEnabled_kept
  · exact notEnabled_kept

theorem tick_kept (hs : Kept r₀ s) : Kept r₀ (tick s n) :=
  KeptOf.withCores (KeptOf.withClusters hs (mapWf_mapValues (fun _ hc e => hc (updateResv_empty e)) hs.clusters))
    (mapWf_mapValues (fun _ hc e => hc (updateColl_empty e)) hs.cores)

theorem portReq_kept {die bank cls : Nat} (hs : Kept r₀ s) : Kept r₀ (portReq s die bank cls) := by
  unfold portReq
  extract_lets f src
  have hs1 : Kept r₀ f.2 := freshId_kept hs
  have hs2 : Kept r₀ src := hs1
  clear_value src
  exact hs2

theorem portGrant_kept {die bank : Nat} (hs : Kept r₀ s) : Kept r₀ (portGrant s die bank) := by
  unfold portGrant
  split <;> exact hs

theorem fillAhead_kept (hs : Kept r₀ s) : Kept r₀ (fillAhead s k va) := by
  unfold fillAhead
  split
  · exact ite_keeps hs (pfhLine_kept hs)
  · exact hs

theorem runTurn_kept {t : Turn} (hs : Kept r₀ s) : KeptRes r₀ (runTurn s t) := by
  unfold runTurn
  split
  · exact ite_keeps (exec_kept hs) notEnabled_kept
  · exact runIssue_kept hs
  · exact runPick_kept hs
  · exact .next (l1Drop_kept hs)
  · exact .next (fillAhead_kept hs)
  · exact .next (l1Refresh_kept hs)
  · exact eventOf_kept (sendAtomic_kept hs)
  · exact .next (tick_kept hs)
  · exact .next (portReq_kept hs)
  · exact .next (portGrant_kept hs)
  · exact .next (flitIn_kept hs)
  · exact .next (flitOut_kept hs)
  · exact .next (flitSend_kept hs)
  · exact .next (flitGrant_kept hs)
  · exact .next (flitAck_kept hs)

theorem firstEvent_kept {is : List Instr} (hs : Kept r₀ s) : InvOpt (Kept r₀) (firstEvent s is) := by
  induction is with
  | nil => trivial
  | cons i is ih =>
    unfold firstEvent
    split
    · next heq => exact (exec_kept hs).of_next heq
    · exact ih

theorem runClock_kept (hs : Kept r₀ s) : KeptRes r₀ (runClock s) := by
  unfold runClock
  extract_lets pick
  have hpick : ∀ r p, KeptRes r₀ r → KeptRes r₀ (pick r p) := by
    intro r p hr
    unfold pick
    split
    · exact runPick_kept hr
    · exact hr
  have picked := foldl_keeps (P := KeptRes r₀) (l := dedup (s.issueSlots.map (fun x =>
    (x.core, x.part)))) hpick (.next hs)
  split
  · next heq => exact .next (tick_kept (picked.of_next heq))
  · exact picked

theorem runDefault_kept (hs : Kept r₀ s) : KeptRes r₀ (runDefault s) := by
  unfold runDefault
  split
  · exact exec_kept hs
  · split
    · next heq => exact .next ((firstEvent_kept hs).of_some heq)
    · exact runClock_kept hs

theorem runNext_kept (hs : Kept r₀ s) : KeptRes r₀ (runNext s) := by
  unfold runNext
  split
  · exact runDefault_kept hs
  · exact runTurn_kept hs

/-! ### Step -/

theorem step_kept (hs : Kept r₀ s) : KeptRes r₀ (step s) := runNext_kept hs

end

end Sys2Proof.Machine

namespace Sys2Proof.Proofs

open Machine Claims

/-- Settles O60: every step keeps the tables canonical. What is new in them has taken an identity of the state's counter, and the
entries of a FIFO go on naming operations of their group, because no identity changes hands. -/
theorem stepKeepsTablesCanonical : Obligations.StepKeepsTablesCanonical := by
  unfold Obligations.StepKeepsTablesCanonical
  intro s t hs h
  exact ((step_kept hs.kept).of_next h).canon

end Sys2Proof.Proofs

/-! SUPPORT. A load of the population that lies out of bounds behind an atomic that acquires (R111, R265). It reaches no byte, but as every
load it waits for the atomic, whose result is written before it. -/

namespace Sys2Proof.Machine

/-- The one group of the small state. -/
def behindGroup : GKey := ⟨2, 0⟩

/-- An atomic that writes 1 over the first word of the group's scratchpad and acquires. -/
def acquiringExchange : Op :=
  ⟨3, behindGroup, .load, .atomic ⟨.rmw .exch, 4, some 1, some .group, none, [⟨.scr 2 0, [⟨0, 0, 1⟩], false, false⟩], [], false, []⟩,
    0, 1, false, [], none, [], 0⟩

/-- The handle of 256 bytes of scratchpad. -/
def scratchHandle : Handle := BitVec.ofNat 1024 (2 ^ 64 * 2 ^ 6 + 2 ^ 128 * 256 + 2 ^ 160 + 2 ^ 192 + 2 ^ 224)

/-- Its group stands at an instruction with the atomic in its FIFO, and s4 names slot 0 and the first index past the handle. -/
def behindAcquire : State :=
  let s := focusAt (placeProbe State.reset []) behindGroup 64 none
  { s with
    seq := 4
    ops := [acquiringExchange]
    groups := s.groups.map (fun g => { g.setS 4 256 with fifo := [.atomic 3] })
    wgs := s.wgs.map (fun w => { w with handles := [(0, scratchHandle)] }) }

theorem behindAcquire_focus : (focusCtx behindAcquire 1).isSome = true := by decide +kernel

/-- The issue of the load there. -/
def behindCtx : Ctx := (focusCtx behindAcquire 1).get behindAcquire_focus

theorem behindCtx_stands : Stands behindAcquire behindCtx 1 := ⟨(Option.some_get behindAcquire_focus).symm, by decide +kernel⟩

/-- Its access passes its checks and reaches nothing. -/
theorem behindCtx_reaches : ∃ s₁, Claims.PopReaches behindAcquire behindCtx (readU behindCtx.g (.s 4)) [0, 2, 3] .r [.lr] 4
    (behindCtx.slot 0) none s₁ := by
  have run : (match popRun behindCtx behindAcquire (behindCtx.slot 0) .r [.lr] ((readU behindCtx.g (.s 4)).toNat % 2 ^ 26) 4 with
      | .ok (none, _) => true
      | _ => false) = true := by decide +kernel
  split at run
  · next s₁ e => exact ⟨s₁, by decide +kernel, by decide +kernel, by decide +kernel, e⟩
  · cases run

theorem behindCtx_observes (s₁ : State) : observeParked behindCtx s₁ (behindCtx.slot 0) [] = .ok s₁ := by
  unfold observeParked observeLines
  exact if_neg (by decide +kernel)

theorem behindAcquire_before : scratchByte behindAcquire 2 0 = 0 := by decide +kernel

/-- The atomic has been performed. -/
theorem behindAcquire_after {t : State} (h : exec (.ldu none false 6 (.s 4)) behindAcquire = .next t) : scratchByte t 2 0 = 1 := by
  have run : (match exec (.ldu none false 6 (.s 4)) behindAcquire with
      | .next t => scratchByte t 2 0
      | _ => 0) = 1 := by decide +kernel
  rw [h] at run
  exact run

end Sys2Proof.Machine

namespace Sys2Proof.Proofs

open Sys2Proof.Machine

/-- Refutes O19: an LDU that is out of bounds leaves not every byte as before, since as a load it waits for an acquiring atomic of its
group, and in `behindAcquire` that atomic writes the scratchpad. -/
theorem not_uniformLoadsAndStores : ¬ Obligations.UniformLoadsAndStores := by
  unfold Obligations.UniformLoadsAndStores
  intro h
  obtain ⟨ldu, -, -⟩ := h
  obtain ⟨s₁, reaches⟩ := behindCtx_reaches
  obtain ⟨t, -, ht, -, -, -, -, -, unchanged, -⟩ := ldu none false 6 (.s 4) behindAcquire behindCtx (behindCtx.slot 0) none s₁ s₁
    behindCtx_stands reaches (by decide +kernel) (behindCtx_observes s₁)
  have same : scratchByte t 2 0 = scratchByte behindAcquire 2 0 := (unchanged rfl).2.1 2 0
  rw [behindAcquire_after ht, behindAcquire_before] at same
  exact absurd same (by decide)

end Sys2Proof.Proofs

/-! SUPPORT. What a translation reads of a state (R54–R59, R71). -/

namespace Sys2Proof.Machine

set_option Elab.async false

/-- The tables as walks see them, the extents of memory and the keys of `t` are those of `s`. -/
structure SameTables (s t : State) : Prop where
  xmem : t.xmem = s.xmem
  mcb : t.mcb = s.mcb
  boot : t.boot = s.boot
  keys : t.keys = s.keys

namespace SameTables

theorem refl (s : State) : SameTables s s := ⟨rfl, rfl, rfl, rfl⟩

section
variable {s t : State} (h : SameTables s t)
include h

theorem malformed (l e : Nat) : Machine.malformed t l e = Machine.malformed s l e := by
  unfold Machine.malformed inNear inPool
  rw [h.mcb, h.boot]

theorem walkFrom (va l table : Nat) : Machine.walkFrom t va l table = Machine.walkFrom s va l table := by
  have entry : ∀ l e, entryOf t va l e = entryOf s va l e := fun l e => by unfold entryOf; rw [h.xmem]
  induction l generalizing table with
  | zero => simp only [Machine.walkFrom, walkEntry, h.malformed, entry]
  | succ l ih => simp only [Machine.walkFrom, walkEntry, h.malformed, entry, ih]

theorem holdsCode (ln : Launch) (l e : Nat) : Machine.holdsCode t ln l e = Machine.holdsCode s ln l e := by
  simp only [Machine.holdsCode, codePages, walk, h.walkFrom]

theorem translate (ln : Launch) (need : Need) (va : Nat) : Machine.translate t ln need va = Machine.translate s ln need va := by
  have keys : ∀ n, keyVal t n = keyVal s n := fun n => by unfold keyVal; rw [h.keys]
  have code : ∀ l e, Machine.holdsCode t ln l e = Machine.holdsCode s ln l e := h.holdsCode ln
  unfold Machine.translate walk
  rw [h.walkFrom]
  simp only [code, keys]

theorem runLocs (c : Ctx) (hd : Handle) (need : Need) (va n : Nat) :
    Machine.runLocs c t hd need va n = Machine.runLocs c s hd need va n := by
  simp only [Machine.runLocs, h.translate]

theorem nonResident (c : Ctx) (hd : Handle) (r : Run) : Machine.nonResident c t hd r = Machine.nonResident c s hd r := by
  simp only [Machine.nonResident, h.translate]

theorem xlLines (ln : Launch) (need : Need) (runs : List Run) : Machine.xlLines t ln need runs = Machine.xlLines s ln need runs := by
  simp only [Machine.xlLines, h.translate]

theorem storeBytes (c : Ctx) (hd : Handle) (ps : List (Run × List Byte)) :
    Machine.storeBytes c t hd ps = Machine.storeBytes c s hd ps := by
  simp only [Machine.storeBytes, h.runLocs]

end

end SameTables

end Sys2Proof.Machine

/-! SUPPORT. L-set instructions that are accepted: what the checks of an access leave of the groups (R127, R297, R348), and the commit of the
lanes after them (R139). -/

namespace Sys2Proof.Machine

set_option Elab.async false

/-! ## The registers of groups -/

/-- A group without its queues, its counts of accepted operations and its notes of waiting. -/
def Group.registers (g : Group) : Group :=
  { g with fifo := [], issued := [], holds := [], wskip := [], parks := [], waited := [], half := [], openPst := [] }

/-- The groups of `t` are those of `s` but for queues, counts of accepted operations and notes of waiting. -/
def RegsFrame (s t : State) : Prop := t.groups.map Group.registers = s.groups.map Group.registers

theorem DrainFrame.registers {s t : State} (h : DrainFrame s t) : RegsFrame s t := by
  have e := congrArg (List.map Group.registers) h.groups
  rw [List.map_map, List.map_map] at e
  exact e

namespace RegsFrame

theorem refl (s : State) : RegsFrame s s := rfl

theorem trans {s t u : State} (h : RegsFrame s t) (h' : RegsFrame t u) : RegsFrame s u := Eq.trans h' h

theorem of_groups {s t : State} (h : t.groups = s.groups) : RegsFrame s t := congrArg _ h

theorem of_updGroup {s : State} {k : GKey} {f : Group → Group} (hf : ∀ g, (f g).registers = g.registers) :
    RegsFrame s (updGroup s k f) := map_updateIf hf ..

section
variable {s t : State} (h : RegsFrame s t)
include h

theorem findGroup (k : GKey) : (findGroup t k).map Group.registers = (findGroup s k).map Group.registers :=
  find_of_map_eq (v := Group.registers) (p := fun g => g.key = k) (fun _ => rfl) h

theorem group {k : GKey} {g : Group} (hg : Machine.findGroup s k = some g) :
    ∃ g', Machine.findGroup t k = some g' ∧ g'.registers = g.registers := by
  have e := h.findGroup k
  rw [hg, Option.map_some] at e
  exact Option.map_eq_some_iff.mp e

theorem othersKeep (k : GKey) : OthersKeep s t k := by
  intro k' _
  have e := congrArg (Option.map fun g : Group => (g.lanes, g.s, g.fps, g.eop)) (h.findGroup k')
  rw [Option.map_map, Option.map_map] at e
  exact e

end

end RegsFrame

/-- A group with other lanes. -/
def Group.withLanes (g : Group) (ls : List Lane) : Group := { g with lanes := ls }

theorem sameBut_of_registers {g₀ g : Group} {ls : List Lane} (h : g.registers = (g₀.withLanes ls).registers) : SameBut g₀ g := by
  have e := congrArg (fun y : Group => { y with
    lanes := g₀.lanes, eop := g₀.eop, parks := g₀.parks, waited := g₀.waited, wskip := g₀.wskip, fifo := g₀.fifo
    issued := g₀.issued, holds := g₀.holds, half := g₀.half, openPst := g₀.openPst }) h
  exact e

theorem SameBut.trans_registers {g g₁ g₂ : Group} (h : SameBut g g₁) (e : g₂.registers = g₁.registers) : SameBut g g₂ := by
  have e' := congrArg (fun y : Group => { y with
    lanes := g.lanes, eop := g.eop, parks := g.parks, waited := g.waited, wskip := g.wskip, fifo := g.fifo
    issued := g.issued, holds := g.holds, half := g.half, openPst := g.openPst }) e
  exact Eq.trans e' h

/-! ## The commit of an accepted instruction -/

theorem LSpec.Plain.spend_eq {p : LSpec} {q : LIssue} (h : p.Plain q) (s : State) (c : Ctx) : p.spend c s = q.after s c := by
  unfold LSpec.spend LIssue.after
  rw [h.reject]
  split
  · rfl
  · rw [h.accepting]

theorem othersKeep_after (q : LIssue) (s : State) (c : Ctx) : OthersKeep s (q.after s c) c.g.key := by
  unfold LIssue.after
  split
  · exact fun _ _ => rfl
  · exact SameOthers.keep (sameOthers_updGroup (fun g => g.mapLanes _ _) fun _ => rfl)

/-- The group at the focus after rejected attempts have used their words. -/
theorem after_group (q : LIssue) {s : State} {c : Ctx} (hg : findGroup s c.g.key = some c.g) :
    ∃ ls, findGroup (q.after s c) c.g.key = some (c.g.withLanes ls) ∧
      ∀ l, (c.g.withLanes ls).lane? l =
        (c.g.lane? l).map (fun x => if l ∈ q.acting s c then x else q.spent c l x) := by
  unfold LIssue.after LIssue.spent
  cases q.reject c.g with
  | none => exact ⟨c.g.lanes, hg, fun l => by simp [Group.withLanes]⟩
  | some im =>
    refine ⟨_, findGroup_updGroup_self _ (fun _ => rfl) hg, fun l => (lane_mapLanes ..).trans ?_⟩
    refine Option.map_congr fun x _ => ?_
    by_cases h1 : l ∈ q.acting s c <;> simp [h1]

/-- An instruction whose issue gives `s₂` with its lanes moved and the issue counted. -/
theorem accepts_of_moved {i : Instr} {s s₂ : State} {c : Ctx} {ls : List Nat} {g₂ : Group} {gf : Group → Group}
    {lane : Nat → Lane → Lane} {post : State → Prop}
    (hx : exec i s = .next (markFocus (countIssue (Ctx.advance { c with act := ls } s₂) c.g.key c.pc) 1))
    (hg : findGroup s₂ c.g.key = some g₂) (hs : SameBut (gf c.g) g₂) (hn : g₂.eop = c.g.eop)
    (hl : ∀ l, (g₂.lane? l).map (fun x => if l ∈ ls then { x with pc := c.nextPc } else x) = (c.g.lane? l).map (lane l))
    (ho : OthersKeep s s₂ c.g.key)
    (hp : ∀ t g, SameElsewhere s₂ t → findGroup t c.g.key = some g → g.fifo = g₂.fifo → post t) : Accepts i s c gf lane post := by
  have moved := moveLanes_group c.pc ls (fun _ => c.nextPc) hg
  have counted := findGroup_updGroup_self (s := Ctx.advance { c with act := ls } s₂) (k := c.g.key)
    (fun g => { g with
      eop := g.eop + 1, parks := g.parks.filter (fun p => p.pc ≠ c.pc), waited := g.waited.filter (fun p => p ≠ c.pc) })
    (fun _ => rfl) moved
  have found : findGroup (markFocus (countIssue (Ctx.advance { c with act := ls } s₂) c.g.key c.pc) 1) c.g.key = some _ :=
    (findGroup_congr (markFocus_groups _ _) _).trans counted
  have others : SameOthers s₂ (countIssue (Ctx.advance { c with act := ls } s₂) c.g.key c.pc) c.g.key :=
    (sameOthers_updGroup _ (fun g => by rw [dropSkips_key, mapLanes_key])).trans (sameOthers_updGroup _ (fun _ => rfl))
  have elsewhere : SameElsewhere s₂ (countIssue (Ctx.advance { c with act := ls } s₂) c.g.key c.pc) :=
    (sameElsewhere_updGroup _ _ _).trans (sameElsewhere_updGroup _ _ _)
  refine ⟨_, _, hx, found, sameBut_moved (f := fun _ x => { x with pc := c.nextPc }) hs c.pc ls, ?_, fun l => ?_,
    ho.trans (others.trans (sameOthers_of_groups (markFocus_groups _ 1))).keep,
    hp _ _ (elsewhere.trans (sameElsewhere_markFocus _ _)) found ?_⟩
  · show (dropSkips _ _ _).eop + 1 = c.g.eop + 1
    rw [dropSkips_eop]
    exact congrArg (· + 1) hn
  · show (dropSkips _ _ _).lane? l = _
    rw [lane_dropSkips, lane_mapLanes]
    exact hl l
  · show (dropSkips _ _ _).fifo = _
    unfold dropSkips
    split <;> rfl

theorem commitG_sameBut {g₀ g : Group} {outs : List LaneOut} {fl : FpStatus} (h : SameBut g₀ g) (hf : g.fps = g₀.fps) :
    SameBut { g₀ with fps := g₀.fps ||| fl } (commitG outs fl g) := by
  have e := congrArg (fun y : Group => { y with fps := g₀.fps ||| fl }) h
  unfold commitG
  rw [hf]
  exact e

/-- An L-set instruction that is accepted: after its checks, which leave the registers of the groups as they were, its lanes commit their
draws and move on; what it does after the commit leaves the registers of the groups too. -/
theorem LIssue.accepted_of_commit_then {q : LIssue} {p : LSpec} {body : Issue → Except Stop State} {s s₂ s₃ : State} {c : Ctx}
    {fl : FpStatus} {out : Nat → Lane → Lane} {post : State → Prop} (f : LaneIn → Lane)
    (hx : exec q.instr s = Sys2Proof.Machine.perLane p body s) (hp : p.Plain q) (r : q.Ready s c) (op : p.Open q s c)
    (hb : body (q.issue s c) = .ok s₃) (frame : RegsFrame (q.after s c) s₂)
    (effect : RegsFrame (commitLanes s₂ c.g.key ((q.ins s c).map (fun i => ⟨i.idx, f i, []⟩)) fl) s₃)
    (ho : ∀ l x, f ⟨l, q.drawn s c l x, (q.operands s c l x).1⟩ = out l x)
    (post_of : ∀ t g g₃, SameElsewhere s₃ t → findGroup s₃ c.g.key = some g₃ → findGroup t c.g.key = some g → g.fifo = g₃.fifo → post t) :
    q.Accepted s c fl out post := by
  obtain ⟨hg, -⟩ := focusCtx_group r.ctx
  obtain ⟨ls, hg₁, lanes₁⟩ := after_group q hg
  obtain ⟨g₂, hg₂, same₂⟩ := frame.group hg₁
  have lanes₂ : g₂.lanes = ls := (congrArg Group.lanes same₂ :)
  generalize houts : (q.ins s c).map (fun i => (⟨i.idx, f i, []⟩ : LaneOut)) = outs at effect
  have committed : findGroup (commitLanes s₂ c.g.key outs fl) c.g.key = some (commitG outs fl g₂) :=
    findGroup_updGroup_self (commitG outs fl) (fun _ => rfl) ((findGroup_congr (clearRegPoison_groups ..) _).trans hg₂)
  obtain ⟨g₃, hg₃, same₃⟩ := effect.group committed
  have lanes₃ : g₃.lanes = (commitG outs fl g₂).lanes := (congrArg Group.lanes same₃ :)
  have eop₃ : g₃.eop = c.g.eop := (congrArg Group.eop same₃ :).trans (congrArg Group.eop same₂ :)
  have but₂ : SameBut { c.g with fps := c.g.fps ||| fl } (commitG outs fl g₂) :=
    commitG_sameBut (sameBut_of_registers same₂) (congrArg Group.fps same₂ :)
  have but₃ : SameBut { c.g with fps := c.g.fps ||| fl } g₃ := but₂.trans_registers same₃
  have find : ∀ l, outs.find? (fun o => o.idx = l) =
      if l ∈ q.acting s c then (c.g.lane? l).map (fun x => ⟨l, out l x, []⟩) else none := fun l => by
    rw [← houts, LIssue.map_ins, find_over _ _ (fun _ _ => rfl)]
    simp only [ho]
  refine accepts_of_moved (ls := q.acting s c) (hx.trans (hp.perLane r op (hp.spend_eq s c ▸ hb))) hg₃ but₃ eop₃
    (fun l => ?_) ?_ (fun t g same found fifo => post_of t g g₃ same hg₃ found fifo)
  · have laned : g₃.lane? l = ((c.g.withLanes ls).lane? l).map
        (fun x => match outs.find? (fun o => o.idx = l) with | some o => o.apply | none => x) := by
      simp only [Group.lane?, lanes₃, commitG, List.getElem?_mapIdx, lanes₂]
      rfl
    rw [laned, lanes₁, find]
    cases c.g.lane? l with
    | none => rfl
    | some x => by_cases hl : l ∈ q.acting s c <;> simp [hl, LaneOut.apply]
  · have committed : SameOthers s₂ (commitLanes s₂ c.g.key outs fl) c.g.key := sameOthers_commit s₂ c.g.key outs fl
    exact (((othersKeep_after q s c).trans (frame.othersKeep _)).trans committed.keep).trans (effect.othersKeep _)

/-- The same for an instruction whose commit is its last effect. -/
theorem LIssue.accepted_of_commit {q : LIssue} {p : LSpec} {body : Issue → Except Stop State} {s s₂ : State} {c : Ctx}
    {fl : FpStatus} {out : Nat → Lane → Lane} {post : State → Prop} (f : LaneIn → Lane)
    (hx : exec q.instr s = Sys2Proof.Machine.perLane p body s) (hp : p.Plain q) (r : q.Ready s c) (op : p.Open q s c)
    (hb : body (q.issue s c) = .ok (commitLanes s₂ c.g.key ((q.ins s c).map (fun i => ⟨i.idx, f i, []⟩)) fl))
    (frame : RegsFrame (q.after s c) s₂)
    (ho : ∀ l x, f ⟨l, q.drawn s c l x, (q.operands s c l x).1⟩ = out l x)
    (post_of : ∀ t g g₂, SameElsewhere s₂ t → findGroup s₂ c.g.key = some g₂ → findGroup t c.g.key = some g → g.fifo = g₂.fifo → post t) :
    q.Accepted s c fl out post := by
  refine LIssue.accepted_of_commit_then f hx hp r op hb frame (.refl _) ho fun t g g₃ same found₃ found fifo => ?_
  obtain ⟨hg, -⟩ := focusCtx_group r.ctx
  obtain ⟨ls, hg₁, -⟩ := after_group q hg
  obtain ⟨g₂, hg₂, -⟩ := frame.group hg₁
  have committed : findGroup (commitLanes s₂ c.g.key ((q.ins s c).map (fun i => ⟨i.idx, f i, []⟩)) fl) c.g.key = some (commitG _ fl g₂) :=
    findGroup_updGroup_self (commitG _ fl) (fun _ => rfl) ((findGroup_congr (clearRegPoison_groups ..) _).trans hg₂)
  obtain rfl := Option.some.inj (committed.symm.trans found₃)
  exact post_of t g g₂ ((sameElsewhere_clearRegPoison ..).trans ((sameElsewhere_updGroup ..).trans same)) hg₂ found fifo

/-! ## Handle slots, widths and register groups (R18, R19) -/

/-- The width of an issue is the one that its word names, if it names one. -/
theorem LIssue.Picks.regs_le {q : LIssue} {s : State} {c : Ctx} {hs : HSel} (h : q.Picks s c) (e : q.hsel = some hs) :
    hs.regs ≤ q.width.regs := by
  unfold LIssue.Picks at h
  rw [e] at h
  cases hs with
  | slot n w => exact h.2 ▸ Nat.le_refl _
  | reg r =>
    show 1 ≤ q.width.regs
    cases q.width <;> decide

theorem regRange_mono {d m n r : Nat} (h : m ≤ n) (hr : r ∈ regRange d m) : r ∈ regRange d n := by
  simp only [regRange, List.mem_map, List.mem_range] at hr ⊢
  obtain ⟨i, hi, rfl⟩ := hr
  exact ⟨i, Nat.lt_of_lt_of_le hi h, rfl⟩

/-- An aligned group of declared registers passes its check (R18). -/
theorem groupOk_ok {d : Nat} {w : Width} {c : Ctx} (aligned : d % w.regs = 0)
    (h : ∀ r ∈ regRange d w.regs, r < declared c.ln c.g) : groupOk d w.regs c = .ok () := by
  have last : d + (w.regs - 1) < declared c.ln c.g := h _ (List.mem_map_of_mem (List.mem_range.2 (by cases w <;> decide)))
  have pos : 0 < w.regs := by cases w <;> decide
  have fits : d + w.regs ≤ declared c.ln c.g := by omega
  simp [groupOk, demand, aligned, fits]

/-! ## Checks that pass -/

theorem bind_of_ok {α β : Type} {r : Except Stop α} {k : α → Except Stop β} {a : α} {x : Except Stop β} (h : r = .ok a)
    (hk : k a = x) : r >>= k = x := by
  rw [h]
  exact hk

/-- The same of a check that depends on a condition, as `do` writes it. -/
theorem ite_bind_of_ok {α β : Type} {p : Prop} [Decidable p] {r r' : Except Stop α} {k : α → Except Stop β} {a : α}
    {x : Except Stop β} (h : (if p then r else r') = .ok a) (hk : k a = x) : (if p then r >>= k else r' >>= k) = x := by
  split at h
  · next hp => rw [if_pos hp, h]; exact hk
  · next hp => rw [if_neg hp, h]; exact hk

theorem handle_ok {c : Ctx} {n : Nat} {h : Handle} (e : c.slot n = h) (hl : loaded h = true) : c.handle n = .ok h := by
  unfold Ctx.handle
  rw [e, demand, if_pos hl]
  rfl

theorem acceptFmt_ok {h : Handle} {fmts : List Nat} (format : fmts.contains (hFmt h) = true) (noProfile : hProfile h = false) :
    acceptFmt h fmts = .ok () := by
  unfold acceptFmt
  rw [format, noProfile]
  rfl

/-! ## Accepted operations (R139) -/

theorem RegsFrame.acceptOp {s t : State} (h : RegsFrame s t) (c : Ctx) (cls : OpClass) (kind : OpKind) :
    RegsFrame s (acceptOp t c cls kind).1 := h.trans (.of_updGroup (s := t) fun _ => rfl)

/-- The accepted operation, as any state with the same operations has it. -/
theorem outstandingAs_acceptOp {s t : State} {c : Ctx} {cls : OpClass} {kind : OpKind} (h : t.ops = (acceptOp s c cls kind).1.ops) :
    OutstandingAs t (acceptOp s c cls kind).2 c.g.key cls kind := by
  rw [OutstandingAs, h]
  exact ⟨_, List.mem_append_right _ (List.mem_singleton_self _), rfl, rfl, rfl, rfl, rfl⟩

theorem OutstandingAs.outstanding {t : State} {id : Nat} {k : GKey} {cls : OpClass} {kind : OpKind}
    (h : OutstandingAs t id k cls kind) : Outstanding t k cls kind := by
  obtain ⟨o, mem, -, rest⟩ := h
  exact ⟨o, mem, rest⟩

theorem SameElsewhere.ops {s t : State} (h : SameElsewhere s t) : t.ops = s.ops := (congrArg State.ops h :)

end Sys2Proof.Machine

/-! SUPPORT. Lane loads, and the settlement of O16 (R101–R109). -/

namespace Sys2Proof.Machine

set_option Elab.async false

/-! ## The checks of a lane load, passed -/

theorem DrainFrame.onOk_tileCheck {s t : State} (h : DrainFrame s t) (c : Ctx) (hd : Handle) (runs : List Run) :
    OnOk (DrainFrame s) (tileCheck c t hd runs) :=
  .thereafter (.check fun _ => .ok (h.after_bindWide ..)) _

/-- A load waits, checks and observes without touching a register. -/
theorem LIssue.Loads.frame {q : LIssue} {s : State} {c : Ctx} {h : Handle} {fmts : List Nat} {tolerant : Bool} {n : Nat}
    {runs extra : List Run} {s₀ s₁ : State} (ld : q.Loads s c h fmts tolerant n runs extra s₀ s₁) : DrainFrame (q.after s c) s₁ := by
  obtain ⟨s₂, s₃, tiles, watched, observed⟩ := ld.seen
  have reached := ((DrainFrame.refl _).onOk_reachRead ..).of_ok ld.pages
  have checked : DrainFrame (q.after s c) s₂ := by
    split at tiles
    · exact Except.ok.inj tiles ▸ reached
    · exact (reached.onOk_tileCheck ..).of_ok tiles
  exact ((((checked.onOk_watchStep ..).of_ok watched).onOk_observeParked ..).of_ok observed)

theorem LIssue.indices_eq (q : LIssue) (s : State) (c : Ctx) :
    (q.ins s c).map (fun i => (i.idx, (i.arg 0).toNat)) = q.indices s c := LIssue.map_ins _

/-! ## The body of a lane load -/

/-- An accepted operation changes no translation. -/
theorem sameTables_acceptOp (s : State) (c : Ctx) (cls : OpClass) (kind : OpKind) : SameTables s (acceptOp s c cls kind).1 :=
  ⟨rfl, rfl, rfl, rfl⟩

/-- A lane as a load leaves it: LDNR notes in m15 whether its line is non-resident (R109). -/
def loadedLane (mode : LoadMode) (c : Ctx) (s : State) (h : Handle) (runs : List Run) (i : LaneIn) : Lane :=
  if mode = .tolerant then
    i.lane.setM 15 (match runs.find? (fun r => r.lane = i.idx) with
      | some r => nonResident c s h r
      | none => false)
  else i.lane

/-- The bytes that a lane of a load reaches, and the formats that it takes (R106). -/
def loadSize (mode : LoadMode) (h : Handle) (w : Width) : Nat := if mode = .convert then elemBytes h w.regs else 4 * w.regs
def loadFmts (mode : LoadMode) (w : Width) : List Nat := if mode = .convert then ldeFmts w else anyFmt

/-- The runs whose checks a load adds to its own: the tiles of a conversion and their trailers (R108). -/
def loadExtra (mode : LoadMode) (h : Handle) (runs : List Run) : List Run :=
  if mode = .convert ∧ hTrb h ≠ 0 then tileRuns h runs else []

section
variable {q : LIssue} {s : State} {c : Ctx} {mode : LoadMode} {h : Handle} {runs : List Run} {s₀ s₁ : State}

/-- The state in which a load of width `w` binds its values. -/
def boundState (q : LIssue) (mode : LoadMode) (s : State) (c : Ctx) (h : Handle) (runs : List Run) (s₁ : State) : State :=
  bindWide (q.on s c) s₁ (decide (4 < loadSize mode h q.width)) (Claims.runsLocs (q.on s c) s₁ h .r runs)

/-- The status bits that a load sets (R107). -/
def loadStatus (q : LIssue) (mode : LoadMode) (s : State) (c : Ctx) (h : Handle) (runs : List Run) (sb : State) : FpStatus :=
  (q.over s c (fun l _ => (laneLoad mode (q.on s c) sb h q.width.regs (runs.find? (fun r => r.lane = l))).2)).foldl
    (fun a b => a ||| b) 0

theorem loadBody_ok (d : VReg)
    (ld : q.Loads s c h (loadFmts mode q.width) (mode == .tolerant) (loadSize mode h q.width) runs (loadExtra mode h runs) s₀ s₁) :
    let sb := boundState q mode s c h runs s₁
    loadBody mode d (q.issue s c) =
      .ok (commitLanes (acceptOp sb (q.on s c) .load (.load (Claims.loadFills q mode d s c h runs sb))).1 c.g.key
        ((q.ins s c).map (fun i => ⟨i.idx, loadedLane mode (q.on s c) sb h runs i, []⟩)) (loadStatus q mode s c h runs sb)) := by
  obtain ⟨⟨slot, isLoaded, format, noProfile, lanes⟩, inside, pages, s₂, s₃, tiles, watched, observed⟩ := ld
  have handle : (q.on s c).handle q.slot = .ok h := handle_ok slot isLoaded
  have taken : acceptFmt h (loadFmts mode q.width) = .ok () := acceptFmt_ok format noProfile
  have bounded : (if hScratch h then spCheck (q.on s c) (loadExtra mode h runs) else .ok ()) = .ok () := by
    split
    · next e => exact inside e
    · rfl
  have tiled : (if (loadExtra mode h runs).isEmpty then .ok s₀ else tileCheck (q.on s c) s₀ h runs) = .ok s₂ := by
    simpa only [List.isEmpty_iff] using tiles
  rw [← LIssue.indices_eq] at lanes
  have waited : thereafter s₂ (watchStep (q.on s c) s₂ (runEls h .lr runs)) = .ok s₃ := by rw [watched]; rfl
  unfold loadBody
  refine bind_of_ok handle (bind_of_ok taken (bind_of_ok lanes (ite_bind_of_ok bounded (bind_of_ok pages (ite_bind_of_ok tiled
    (bind_of_ok waited (bind_of_ok observed ?_)))))))
  refine congrArg Except.ok (congr (congr (congrArg (commitLanes · c.g.key) ?_) ?_) ?_)
  · refine congrArg (fun fills => (acceptOp (boundState q mode s c h runs s₁) (q.on s c) .load (.load fills)).1) ?_
    rw [List.flatMap_def, List.map_map]
    exact congrArg List.flatten (LIssue.map_ins _)
  · rw [List.map_map]
    refine List.map_congr_left fun i _ => ?_
    unfold loadedLane
    simp only [Function.comp, (sameTables_acceptOp ..).nonResident]
    rfl
  · rw [List.foldl_map]
    unfold loadStatus
    rw [← LIssue.map_ins (fun i => (laneLoad mode (q.on s c) _ h q.width.regs (runs.find? (fun r => r.lane = i.idx))).2), List.foldl_map]
    rfl


/-! ## The instructions -/

theorem loadSpec_plain {i : Instr} {d : VReg} {a : LSrc} {hs : HSel} {slot : Nat} {w : Width}
    (r : (Claims.loadIssue i d a hs slot w).Ready s c) : (loadSpec i d a hs).Plain (Claims.loadIssue i d a hs slot w) := by
  exact ⟨rfl, rfl, fun x hx => regRange_mono (r.picks.regs_le rfl) hx, rfl, rfl, rfl, rfl⟩

end

/-- A lane load is accepted (R101, R103, R107). -/
theorem load_accepted {mode : LoadMode} {i : Instr} {d : VReg} {a : LSrc} {hs : HSel} {slot : Nat} {w : Width} {s : State}
    {c : Ctx} {h : Handle} {runs : List Run} {s₀ s₁ : State}
    (hx : exec i s = perLane (loadSpec i d a hs) (loadBody mode d) s)
    (r : (Claims.loadIssue i d a hs slot w).Ready s c) (aligned : d.val % w.regs = 0)
    (ld : (Claims.loadIssue i d a hs slot w).Loads s c h (loadFmts mode w) (mode == .tolerant) (loadSize mode h w) runs
      (loadExtra mode h runs) s₀ s₁) :
    let q := Claims.loadIssue i d a hs slot w
    let sb := boundState q mode s c h runs s₁
    q.Accepted s c (loadStatus q mode s c h runs sb)
      (fun l x => loadedLane mode (q.on s c) sb h runs ⟨l, q.drawn s c l x, (q.operands s c l x).1⟩)
      (fun t => Outstanding t c.g.key .load (.load (Claims.loadFills q mode d s c h runs sb))) := by
  intro q sb
  refine LIssue.accepted_of_commit _ hx (loadSpec_plain r) r ⟨rfl, rfl, ?_⟩ (loadBody_ok d ld) ?_ (fun _ _ => rfl) ?_
  · exact groupOk_ok aligned fun x hx => r.declares x (List.mem_append_left _ hx)
  · exact (ld.frame.after_bindWide ..).registers.acceptOp ..
  · exact fun t _ _ same _ _ _ => (outstandingAs_acceptOp same.ops).outstanding

theorem foldl_or_eq_zero {fls : List (BitVec 6)} (h : ∀ fl ∈ fls, fl = 0) : fls.foldl (fun a b => a ||| b) 0 = 0 := by
  induction fls with
  | nil => rfl
  | cons fl fls ih =>
    obtain ⟨rfl, rest⟩ := List.forall_mem_cons.mp h
    exact ih rest

/-- Only a conversion sets status bits (R107). -/
theorem loadStatus_plain {q : LIssue} {mode : LoadMode} (s : State) (c : Ctx) (h : Handle) (runs : List Run) (sb : State)
    (hm : mode ≠ .convert) : loadStatus q mode s c h runs sb = 0 := by
  have none : ∀ run, (laneLoad mode (q.on s c) sb h q.width.regs run).2 = 0 := fun run => by
    unfold laneLoad
    split
    · rfl
    · split
      · rfl
      · cases mode with
        | plain => rfl
        | tolerant => rfl
        | convert => exact absurd rfl hm
  refine foldl_or_eq_zero fun fl hfl => ?_
  obtain ⟨l, -, hl⟩ := List.mem_filterMap.mp hfl
  obtain ⟨x, -, rfl⟩ := Option.map_eq_some_iff.mp hl
  exact none _

/-- A load that converts nothing sets no status bit. -/
theorem exactLoad_accepted {mode : LoadMode} {i : Instr} {d : VReg} {a : LSrc} {hs : HSel} {slot : Nat} {w : Width} {s : State}
    {c : Ctx} {h : Handle} {runs : List Run} {s₀ s₁ : State} (hm : mode ≠ .convert)
    (hx : exec i s = perLane (loadSpec i d a hs) (loadBody mode d) s)
    (r : (Claims.loadIssue i d a hs slot w).Ready s c) (aligned : d.val % w.regs = 0)
    (ld : (Claims.loadIssue i d a hs slot w).Loads s c h (loadFmts mode w) (mode == .tolerant) (loadSize mode h w) runs
      (loadExtra mode h runs) s₀ s₁) :
    let q := Claims.loadIssue i d a hs slot w
    let sb := boundState q mode s c h runs s₁
    q.Accepted s c 0 (fun l x => loadedLane mode (q.on s c) sb h runs ⟨l, q.drawn s c l x, (q.operands s c l x).1⟩)
      (fun t => Outstanding t c.g.key .load (.load (Claims.loadFills q mode d s c h runs sb))) := by
  intro q sb
  rw [← loadStatus_plain (q := q) s c h runs sb hm]
  exact load_accepted hx r aligned ld

end Sys2Proof.Machine

namespace Sys2Proof.Proofs

open Sys2Proof.Machine

/-- Settles O16: a load waits, checks and binds without touching a register, and its acceptance adds one operation, which holds what
the lanes will write. -/
theorem laneLoadsAreAcceptedAndBound : Obligations.LaneLoadsAreAcceptedAndBound := by
  unfold Obligations.LaneLoadsAreAcceptedAndBound
  refine ⟨fun d a hs slot w s c h runs s₀ s₁ => ?_, fun d a hs slot w s c h runs s₀ s₁ => ?_,
    fun d a hs slot w s c h runs s₀ s₁ => ?_⟩
  · intro q r aligned ld
    exact exactLoad_accepted (mode := .plain) (by decide) rfl r aligned ld
  · intro q r aligned ld sb
    have extra : (if hTrb h = 0 then [] else tileRuns h runs) = loadExtra .convert h runs := by
      unfold loadExtra
      by_cases e : hTrb h = 0 <;> simp [e]
    rw [extra] at ld
    exact load_accepted (mode := .convert) rfl r aligned ld
  · intro q r aligned ld sb
    exact exactLoad_accepted (mode := .tolerant) (by decide) rfl r aligned ld

end Sys2Proof.Proofs

/-! SUPPORT. Lane stores: what stands beside memory, and the FIFO of the group (R104, R127, R348). -/

namespace Sys2Proof.Machine

set_option Elab.async false

/-! ## What an acceptance leaves unchanged -/

/-- Memory, caches, workgroups and tables are unchanged: only groups, the focus, operations, their hits, notes of poison, digests and
the counter of identities may differ. -/
def QuietFrame (s t : State) : Prop :=
  { t with groups := s.groups, focus := s.focus, ops := s.ops, hits := s.hits, poison := s.poison, launches := s.launches
           seq := s.seq } = s

namespace QuietFrame

theorem refl (s : State) : QuietFrame s s := rfl

theorem trans {s t u : State} (h : QuietFrame s t) (h' : QuietFrame t u) : QuietFrame s u := by
  have e := congrArg (fun x : State => { x with
    groups := s.groups, focus := s.focus, ops := s.ops, hits := s.hits, poison := s.poison, launches := s.launches
    seq := s.seq }) h'
  exact Eq.trans e h

theorem of_sameElsewhere {s t : State} (h : SameElsewhere s t) : QuietFrame s t := by
  have e := congrArg (fun x : State => { x with ops := s.ops, hits := s.hits, launches := s.launches, seq := s.seq }) h
  exact e

section
variable {s t : State} (h : QuietFrame s t)
include h

theorem tables : SameTables s t :=
  ⟨(congrArg State.xmem h :), (congrArg State.mcb h :), (congrArg State.boot h :), (congrArg State.keys h :)⟩

theorem wgs : t.wgs = s.wgs := (congrArg State.wgs h :)

theorem bytes : SameBytes s t :=
  sameBytes_of_homeAs ⟨(congrArg State.mem h :), (congrArg State.msc h :), (congrArg State.lineKeys h :)⟩ h.wgs

end

theorem updGroup (s : State) (k : GKey) (f : Group → Group) : QuietFrame s (Machine.updGroup s k f) := rfl

theorem after (q : LIssue) (s : State) (c : Ctx) : QuietFrame s (q.after s c) := by
  unfold LIssue.after
  split <;> rfl

theorem acceptOp (s : State) (c : Ctx) (cls : OpClass) (kind : OpKind) : QuietFrame s (Machine.acceptOp s c cls kind).1 := rfl

theorem clearPoisonFor (s : State) (bs : List StoreByte) : QuietFrame s (Machine.clearPoisonFor s bs) := by
  unfold Machine.clearPoisonFor
  split <;> rfl

theorem addDigest (s : State) (ln : Launch) (h : Handle) (bs : List (Nat × Byte)) : QuietFrame s (Machine.addDigest s ln h bs) := by
  unfold Machine.addDigest
  split <;> rfl

end QuietFrame

theorem groups_clearPoisonFor (s : State) (bs : List StoreByte) : (clearPoisonFor s bs).groups = s.groups := by
  unfold clearPoisonFor
  split <;> rfl

theorem groups_addDigest (s : State) (ln : Launch) (h : Handle) (bs : List (Nat × Byte)) : (addDigest s ln h bs).groups = s.groups := by
  unfold addDigest
  split <;> rfl

/-! ## Watches and joins (R127, R348) -/

/-- A group without the WSKIP of its lanes. -/
def Group.unskipped (g : Group) : Group := { g with wskip := [] }

/-- What watches and joins leave: the groups but for WSKIP, and all that an acceptance leaves unchanged. -/
structure SeenFrame (s t : State) : Prop where
  quiet : QuietFrame s t
  groups : t.groups.map Group.unskipped = s.groups.map Group.unskipped

namespace SeenFrame

theorem refl (s : State) : SeenFrame s s := ⟨.refl s, rfl⟩

section
variable {s t : State} (h : SeenFrame s t)
include h

theorem registers : RegsFrame s t := by
  have e := congrArg (List.map Group.registers) h.groups
  rw [List.map_map, List.map_map] at e
  exact e

theorem group {k : GKey} {g : Group} (hg : findGroup s k = some g) :
    ∃ g', findGroup t k = some g' ∧ g'.unskipped = g.unskipped := by
  have e : (findGroup t k).map Group.unskipped = (findGroup s k).map Group.unskipped :=
    find_of_map_eq (v := Group.unskipped) (p := fun g => g.key = k) (fun _ => rfl) h.groups
  rw [hg, Option.map_some] at e
  exact Option.map_eq_some_iff.mp e

theorem onOk_watchStep (c : Ctx) (els : List WatchEl) : OnOk (SeenFrame s) (watchStep c t els) := by
  unfold watchStep
  split
  · exact .ok h
  · dsimp only
    split
    · refine .ok ⟨h.quiet.trans rfl, (map_updateIf (fun g => ?_) ..).trans h.groups⟩
      unfold dropSkips
      split <;> rfl
    · exact .error _

theorem onOk_observe (g : Group) (p : JoinHit → Bool) : OnOk (SeenFrame s) (observe t g p) := by
  unfold observe
  dsimp only
  split
  · exact .ok h
  · split
    · exact .ok ⟨h.quiet.trans rfl, h.groups⟩
    · split
      · exact .ok h
      · exact .error _

theorem onOk_observeParked (c : Ctx) (hd : Handle) (runs : List Run) : OnOk (SeenFrame s) (observeParked c t hd runs) :=
  ite_keeps (h.onOk_observe ..) (.ok h)

end

end SeenFrame

/-- The issuing group, its rejected attempts spent. -/
theorem SeenFrame.issuer {q : LIssue} {s t : State} {c : Ctx} (h : SeenFrame (q.after s c) t) (hg : findGroup s c.g.key = some c.g) :
    ∃ ls g, findGroup t c.g.key = some g ∧ g.unskipped = (c.g.withLanes ls).unskipped := by
  obtain ⟨ls, found, -⟩ := Machine.after_group q hg
  obtain ⟨g, found', same⟩ := h.group found
  exact ⟨ls, g, found', same⟩

theorem LIssue.Reaches.seenFrame {q : LIssue} {s : State} {c : Ctx} {h : Handle} {fmts : List Nat} {need : Need} {n : Nat}
    {runs : List Run} {els : List WatchEl} {s₁ : State} (rs : q.Reaches s c h fmts need n runs els s₁) :
    SeenFrame (q.after s c) s₁ := by
  obtain ⟨s₀, watched, observed⟩ := rs.seen
  exact ((((SeenFrame.refl _).onOk_watchStep ..).of_ok watched).onOk_observeParked ..).of_ok observed

/-! ## The acceptance of a store (R104) -/

section
variable (c : Ctx) (s : State) (h : Handle) (nt : Bool) (rel : Option Scope) (ps : List (Run × List Byte))

theorem registers_acceptStore : RegsFrame s (acceptStore c s h nt rel ps) := by
  have noted : RegsFrame s (addDigest (clearPoisonFor s (storeBytes c s h ps)) c.ln h (storeAddrs ps)) :=
    .of_groups ((groups_addDigest ..).trans (groups_clearPoisonFor ..))
  exact (noted.acceptOp c .store (.store 1)).trans (.of_updGroup fun _ => rfl)

theorem quiet_acceptStore : QuietFrame s (acceptStore c s h nt rel ps) :=
  (((QuietFrame.clearPoisonFor ..).trans (.addDigest ..)).trans (.acceptOp _ c ..)).trans (.updGroup ..)

/-- The store's operation, and its bytes at the tail of the FIFO. -/
theorem acceptStore_enters {g : Group} (hg : findGroup s c.g.key = some g) : ∃ g' op,
    (∀ t : State, t.ops = (acceptStore c s h nt rel ps).ops → OutstandingAs t op c.g.key .store (.store 1)) ∧
    findGroup (acceptStore c s h nt rel ps) c.g.key = some g' ∧
    g'.fifo = g.fifo ++ [.store op (ntOf nt h) rel (storeBytes c s h ps)] := by
  generalize hu : addDigest (clearPoisonFor s (storeBytes c s h ps)) c.ln h (storeAddrs ps) = u
  have found : findGroup u c.g.key = some g :=
    (findGroup_congr (hu ▸ (groups_addDigest ..).trans (groups_clearPoisonFor ..)) _).trans hg
  obtain ⟨issued, accepted⟩ := findGroup_acceptOp (cls := .store) (kind := .store 1) found
  unfold acceptStore
  dsimp only
  rw [hu]
  exact ⟨_, (acceptOp u c .store (.store 1)).2, fun t e => outstandingAs_acceptOp e, findGroup_updGroup_self _ (fun _ => rfl) accepted, rfl⟩

end

/-! ## The body of a lane store -/

/-- Formats that a lane store takes, and the bytes that a lane of it reaches (R106). -/
def storeFmts (conv : Bool) : List Nat := if conv then steFmts else anyFmt
def storeSize (conv : Bool) (h : Handle) (w : Width) : Nat := if conv then elemBytes h w.regs else 4 * w.regs

section
variable {q : LIssue} {s : State} {c : Ctx} {conv nt : Bool} {d : LSrc} {h : Handle} {runs : List Run} {s₁ : State}

/-- What each lane of an issue stores, found by lane. -/
theorem find_storedData (q : LIssue) (conv : Bool) (d : LSrc) (h : Handle) (s : State) (c : Ctx) (l : Nat) :
    (match ((q.ins s c).map (fun i => (i.idx, laneStore conv h (storeWords d q.width 1 i)))).find? (fun p => p.1 = l) with
      | some p => p.2
      | none => ([], 0)) = Claims.storedData q conv d h s c l := by
  rw [LIssue.map_ins, find_over _ _ (fun _ _ => rfl)]
  unfold Claims.storedData
  by_cases hl : l ∈ q.acting s c
  · rw [if_pos hl, if_pos hl]
    cases c.g.lane? l <;> rfl
  · rw [if_neg hl, if_neg hl]

theorem storeBody_ok (rs : q.Reaches s c h (storeFmts conv) .w (storeSize conv h q.width) runs (runEls h .lw runs) s₁) :
    storeBody conv nt d (q.issue s c) =
      .ok (commitLanes (acceptStore (q.on s c) s₁ h nt none (runs.map (fun r => (r, (Claims.storedData q conv d h s c r.lane).1))))
        c.g.key ((q.ins s c).map LaneIn.keep) (runs.foldl (fun fl r => fl ||| (Claims.storedData q conv d h s c r.lane).2) 0)) := by
  obtain ⟨⟨slot, isLoaded, format, noProfile, lanes⟩, pages, s₀, watched, observed⟩ := rs
  have handle : (q.on s c).handle q.slot = .ok h := handle_ok slot isLoaded
  have taken : acceptFmt h (storeFmts conv) = .ok () := acceptFmt_ok format noProfile
  rw [← LIssue.indices_eq] at lanes
  unfold storeBody
  refine bind_of_ok handle (bind_of_ok taken (bind_of_ok lanes (bind_of_ok pages (bind_of_ok watched (bind_of_ok observed ?_)))))
  have data (l : Nat) := find_storedData q conv d h s c l
  refine congrArg Except.ok (congr (congrArg (commitLanes · c.g.key _) ?_) ?_)
  · exact congrArg (acceptStore (q.on s c) s₁ h nt none) (List.map_congr_left fun r _ => congrArg (fun x => (r, x.1)) (data r.lane))
  · exact congrArg (fun f => runs.foldl f 0) (funext fun fl => funext fun r => congrArg (fun x => fl ||| x.2) (data r.lane))

end

/-! ## The instructions -/

theorem srcGroup_mono {d : LSrc} {m n r : Nat} (h : m ≤ n) (hr : r ∈ srcGroup d m) : r ∈ srcGroup d n := by
  cases d with
  | v _ => exact regRange_mono h hr
  | _ => exact hr

theorem storeSpec_plain {i : Instr} {ty : SrcTy} {d a : LSrc} {hs : HSel} {slot : Nat} {w : Width} {s : State}
    {c : Ctx} (r : (Claims.storeIssue i ty d a hs slot w).Ready s c) : (storeSpec i ty d a hs).Plain (Claims.storeIssue i ty d a hs slot w) :=
  ⟨rfl, rfl, fun _ hx => srcGroup_mono (r.picks.regs_le rfl) hx, rfl, rfl, rfl, rfl⟩

/-- The data registers of a store pass their check (R18). -/
theorem dataOk_ok {d : LSrc} {w : Width} {c : Ctx} (ok : Claims.storeGroupOk d w)
    (h : ∀ r ∈ srcGroup d w.regs, r < declared c.ln c.g) : dataOk d w c = .ok () := by
  unfold dataOk
  split
  · rfl
  · next wide =>
    obtain ⟨r, rfl, aligned⟩ := ok.resolve_left wide
    exact groupOk_ok aligned h

/-- A lane store is accepted (R104–R107). -/
theorem store_accepted {conv nt : Bool} {i : Instr} {ty : SrcTy} {d a : LSrc} {hs : HSel} {slot : Nat} {w : Width} {s : State}
    {c : Ctx} {h : Handle} {runs : List Run} {s₁ : State} (ok : Claims.storeGroupOk d w)
    (hx : exec i s = perLane (storeSpec i ty d a hs) (storeBody conv nt d) s)
    (r : (Claims.storeIssue i ty d a hs slot w).Ready s c)
    (rs : (Claims.storeIssue i ty d a hs slot w).Reaches s c h (storeFmts conv) .w (storeSize conv h w) runs (runEls h .lw runs) s₁) :
    Claims.StoreAccepted (Claims.storeIssue i ty d a hs slot w) conv nt d s c h runs s₁ := by
  have data := dataOk_ok ok fun x hx => r.declares x (List.mem_append_left _ hx)
  refine LIssue.accepted_of_commit LaneIn.lane hx (storeSpec_plain r) r ⟨rfl, rfl, data⟩ (storeBody_ok rs)
    (rs.seenFrame.registers.trans (registers_acceptStore ..)) (fun _ _ => rfl) fun t g g₂ same found₂ found fifo => ⟨?_, ?_⟩
  · exact ((QuietFrame.after ..).trans (rs.seenFrame.quiet.trans ((quiet_acceptStore ..).trans (.of_sameElsewhere same)))).bytes
  · obtain ⟨hg, -⟩ := focusCtx_group r.ctx
    obtain ⟨ls, g₁, found₁, same₁⟩ := rs.seenFrame.issuer hg
    have fifo₁ : g₁.fifo = c.g.fifo := (congrArg Group.fifo same₁ :)
    obtain ⟨g', op, entered, found', queued⟩ := acceptStore_enters ((Claims.storeIssue i ty d a hs slot w).on s c) s₁ h nt none _ found₁
    obtain rfl := Option.some.inj (found'.symm.trans found₂)
    exact ⟨g, op, entered t same.ops, found, by rw [fifo, queued, fifo₁]; rfl⟩

end Sys2Proof.Machine


/-! SUPPORT. The paired store, and the settlement of O17 (R258, R259). -/

namespace Sys2Proof.Machine

set_option Elab.async false

/-! ## The two halves -/

theorem watchStep_unwatched {c : Ctx} (hw : c.w.watch = []) (s : State) (els : List WatchEl) :
    ∃ t, watchStep c s els = .ok t ∧ SeenFrame s t ∧ t.ops = s.ops := by
  have frame := (SeenFrame.refl s).onOk_watchStep c els
  have passes : ∃ t, watchStep c s els = .ok t ∧ t.ops = s.ops := by
    unfold watchStep
    split
    · exact ⟨_, rfl, rfl⟩
    · rw [hw]
      exact ⟨_, rfl, rfl⟩
  obtain ⟨t, e, ops⟩ := passes
  exact ⟨t, e, frame.of_ok e, ops⟩

/-- The operation of a PST and its first half, accepted (R259). -/
def firstHalf (c : Ctx) (s : State) (h : Handle) (ps : List (Run × List Byte)) : State :=
  updGroup (pushFifo (addDigest (clearPoisonFor (acceptOp s c .store (.store 2)).1 (storeBytes c s h ps)) c.ln h (storeAddrs ps)) c.g.key
      (.store (acceptOp s c .store (.store 2)).2 (ntOf false h) none (storeBytes c s h ps))) c.g.key
    (fun g => { g with openPst := g.openPst ++ [⟨c.pc, (acceptOp s c .store (.store 2)).2⟩] })

/-- The state in which the second half of a PST enters the FIFO. -/
def halfNoted (c : Ctx) (s : State) (h2 : Handle) (qs : List (Run × List Byte)) : State :=
  addDigest (clearPoisonFor (clearHalf s c.g.key c.pc) (storeBytes c s h2 qs)) c.ln h2 (storeAddrs qs)

section
variable (c : Ctx) (s : State) (h : Handle) (ps : List (Run × List Byte))

theorem quiet_firstHalf : QuietFrame s (firstHalf c s h ps) :=
  ((((QuietFrame.acceptOp s c .store (.store 2)).trans (.clearPoisonFor ..)).trans (.addDigest ..)).trans (.updGroup ..)).trans
    (.updGroup ..)

theorem registers_firstHalf : RegsFrame s (firstHalf c s h ps) := by
  have accepted : RegsFrame s (acceptOp s c .store (.store 2)).1 := (RegsFrame.refl s).acceptOp ..
  have noted : RegsFrame s (addDigest (clearPoisonFor (acceptOp s c .store (.store 2)).1 (storeBytes c s h ps)) c.ln h (storeAddrs ps)) :=
    accepted.trans (.of_groups ((groups_addDigest ..).trans (groups_clearPoisonFor ..)))
  exact (noted.trans (.of_updGroup fun _ => by rfl)).trans (.of_updGroup fun _ => by rfl)

theorem ops_firstHalf : (firstHalf c s h ps).ops = (acceptOp s c .store (.store 2)).1.ops := by
  show (addDigest _ c.ln h _).ops = _
  unfold addDigest clearPoisonFor
  split <;> split <;> rfl

/-- The group after the first half: its entry at the tail of the FIFO, and the note of the operation. -/
theorem findGroup_firstHalf {g : Group} (hg : findGroup s c.g.key = some g) : ∃ g', findGroup (firstHalf c s h ps) c.g.key = some g' ∧
    g'.fifo = g.fifo ++ [.store (acceptOp s c .store (.store 2)).2 (ntOf false h) none (storeBytes c s h ps)] ∧
    g'.openPst = g.openPst ++ [⟨c.pc, (acceptOp s c .store (.store 2)).2⟩] := by
  obtain ⟨issued, accepted⟩ := findGroup_acceptOp (cls := .store) (kind := .store 2) hg
  have noted : findGroup (addDigest (clearPoisonFor (acceptOp s c .store (.store 2)).1 (storeBytes c s h ps)) c.ln h (storeAddrs ps))
      c.g.key = _ := (findGroup_congr ((groups_addDigest ..).trans (groups_clearPoisonFor ..)) _).trans accepted
  exact ⟨_, findGroup_updGroup_self _ (fun _ => rfl) (findGroup_updGroup_self _ (fun _ => rfl) noted), rfl, rfl⟩

theorem quiet_halfNoted : QuietFrame s (halfNoted c s h ps) :=
  ((QuietFrame.updGroup ..).trans (.clearPoisonFor ..)).trans (.addDigest ..)

theorem registers_halfNoted : RegsFrame s (halfNoted c s h ps) :=
  (RegsFrame.of_updGroup fun _ => by rfl : RegsFrame s (clearHalf s c.g.key c.pc)).trans
    (.of_groups ((groups_addDigest ..).trans (groups_clearPoisonFor ..)))

theorem ops_halfNoted : (halfNoted c s h ps).ops = s.ops := by
  unfold halfNoted addDigest clearPoisonFor
  split <;> split <;> rfl

theorem findGroup_halfNoted {g : Group} (hg : findGroup s c.g.key = some g) : ∃ g', findGroup (halfNoted c s h ps) c.g.key = some g' ∧
    g'.fifo = g.fifo ∧ g'.openPst = g.openPst :=
  ⟨_, (findGroup_congr ((groups_addDigest ..).trans (groups_clearPoisonFor ..)) _).trans
    (findGroup_updGroup_self _ (fun _ => rfl) hg), rfl, rfl⟩

end

section
variable (c : Ctx) (s : State) (nt : Bool) (n : Nat) (bs : List StoreByte)

/-- The second half of an operation of this issue takes the next place of the FIFO. -/
theorem pushSecond_same : pushSecond c s nt (some n) [n] bs =
    pushFifo (updGroup s c.g.key (fun g => { g with openPst := g.openPst.filter (fun p => p.pc ≠ c.pc) })) c.g.key
      (.store n nt none bs) := by
  unfold pushSecond
  dsimp only
  rw [if_pos (by rfl)]

theorem quiet_pushSecond : QuietFrame s (pushSecond c s nt (some n) [n] bs) := by
  rw [pushSecond_same]
  rfl

theorem ops_pushSecond : (pushSecond c s nt (some n) [n] bs).ops = s.ops := by
  rw [pushSecond_same]
  rfl

theorem registers_pushSecond : RegsFrame s (pushSecond c s nt (some n) [n] bs) := by
  rw [pushSecond_same]
  exact (RegsFrame.of_updGroup fun _ => by rfl : RegsFrame s (updGroup s c.g.key _)).trans (.of_updGroup fun _ => by rfl)

theorem findGroup_pushSecond {g : Group} (hg : findGroup s c.g.key = some g) :
    ∃ g', findGroup (pushSecond c s nt (some n) [n] bs) c.g.key = some g' ∧ g'.fifo = g.fifo ++ [.store n nt none bs] := by
  rw [pushSecond_same]
  exact ⟨_, findGroup_updGroup_self _ (fun _ => rfl) (findGroup_updGroup_self _ (fun _ => rfl) hg), rfl⟩

end

/-! ## The body of a paired store -/

/-- What each lane of an issue stores, found by lane. -/
theorem find_ins (q : LIssue) (s : State) (c : Ctx) (d : LSrc) (h : Handle) (l : Nat) :
    (match (q.ins s c).find? (fun i => i.idx = l) with
      | some i => (laneStore false h (storeWords d q.width 1 i)).1
      | none => []) = (Claims.storedData q false d h s c l).1 := by
  unfold LIssue.ins
  rw [find_over _ LaneIn.idx (fun _ _ => rfl)]
  unfold Claims.storedData
  by_cases hl : l ∈ q.acting s c
  · rw [if_pos hl, if_pos hl]
    cases c.g.lane? l <;> rfl
  · rw [if_neg hl, if_neg hl]

section
variable {q : LIssue} {s : State} {c : Ctx} {h2 : Slot} {d : LSrc} {h k : Handle} {runs : List Run} {es : List HalfElem}
  {s₀ s₁ s₂ : State}

/-- The checks of a PST none of whose lanes has done its first half, as they pass. -/
structure PstReaches (q : LIssue) (s : State) (c : Ctx) (h2 : Slot) (h k : Handle) (runs : List Run) (es : List HalfElem)
    (s₀ s₁ s₂ : State) : Prop where
  first : (q.on s c).handle q.slot = .ok h
  second : (q.on s c).handle h2.val = .ok k
  formats : ((decide (1 ≤ hFmt h) && decide (hFmt h ≤ 7) && !hProfile h) && (decide (1 ≤ hFmt k) && decide (hFmt k ≤ 7) && !hProfile k)
    && elemSize (hFmt h) == elemSize (hFmt k)) = true
  fresh : halfLanes c.g c.pc = []
  closed : openPsts c.g c.pc = []
  unwatched : c.w.watch = []
  lanes : laneRuns (q.on s c) h (4 * q.width.regs) (4 * q.width.regs) (q.indices s c) = .ok runs
  elems : halfElems (q.on s c) h k (elemsOf h (4 * q.width.regs)) (q.indices s c) = .ok es
  present : (if hScratch k then presenceCheck (q.on s c) (halfRuns k es) else .ok ()) = .ok ()
  pages : reach (q.on s c) (q.after s c) h .w false runs = .ok ()
  watched : watchStep (q.on s c) (q.after s c) (runEls h .lw runs) = .ok s₀
  joined : observeParked (q.on s c) s₀ h runs = .ok s₁
  observed : observeParked (q.on s c) s₁ k (halfRuns k es) = .ok s₂
  translated : hScratch k = false → xlCheck (xlLines s₂ c.ln .w (halfRuns k es)) (xlLines s₂ c.ln .w (halfRuns k es)) = .ok ()

namespace PstReaches

variable (rs : PstReaches q s c h2 h k runs es s₀ s₁ s₂)
include rs

theorem seenFrame : SeenFrame (q.after s c) s₂ :=
  (((((SeenFrame.refl _).onOk_watchStep ..).of_ok rs.watched).onOk_observeParked ..).of_ok rs.joined |>.onOk_observeParked ..).of_ok
    rs.observed

/-- The second half translates in the state that the first half leaves, and meets no watch. -/
theorem secondHalf_ok (ps : List (Run × List Byte)) : ∃ u, secondHalf (q.on s c) (firstHalf (q.on s c) s₂ h ps) k es = .ok u ∧
    SeenFrame (firstHalf (q.on s c) s₂ h ps) u ∧ u.ops = (firstHalf (q.on s c) s₂ h ps).ops := by
  obtain ⟨u, watched, seen⟩ := watchStep_unwatched (c := q.on s c) rs.unwatched (firstHalf (q.on s c) s₂ h ps) (halfEls k es)
  have lines := (quiet_firstHalf (q.on s c) s₂ h ps).tables.xlLines (q.on s c).ln .w (halfRuns k es)
  have translated : (if hScratch k then .ok () else
      xlCheck (xlLines (firstHalf (q.on s c) s₂ h ps) (q.on s c).ln .w (halfRuns k es))
        (xlLines (firstHalf (q.on s c) s₂ h ps) (q.on s c).ln .w (halfRuns k es))) = .ok () := by
    split
    · rfl
    · next near =>
      rw [lines]
      exact rs.translated (by simpa using near)
  have passes {r : Except Stop State} (e : r = .ok u) : (match r with
      | .ok s' => Except.ok s'
      | .error e => .error (secondFails (q.on s c) (firstHalf (q.on s c) s₂ h ps) e)) = .ok u := by
    subst e
    rfl
  exact ⟨u, passes (ite_bind_of_ok translated watched), seen⟩

/-- A PST accepts its operation with the first half, and then the second half in the state `u` after its checks. -/
theorem body (acts : q.indices s c ≠ []) : ∃ u,
    let ps := runs.map (fun r => (r, (Claims.storedData q false d h s c r.lane).1))
    let qs := halfData k es (fun l => (Claims.storedData q false d h s c l).1)
    let v := halfNoted (q.on s c) u k qs
    SeenFrame (firstHalf (q.on s c) s₂ h ps) u ∧ u.ops = (firstHalf (q.on s c) s₂ h ps).ops ∧
    pstBody h2 d (q.issue s c) = .ok (commitLanes (pushSecond (q.on s c) v (ntOf false k)
      (some (acceptOp s₂ (q.on s c) .store (.store 2)).2) (openPsts ((q.on s c).now v) c.pc) (storeBytes (q.on s c) u k qs)) c.g.key
      ((q.ins s c).map LaneIn.keep) 0) := by
  obtain ⟨u, second, seen, ops⟩ := rs.secondHalf_ok (runs.map (fun r => (r, (Claims.storedData q false d h s c r.lane).1)))
  refine ⟨u, seen, ops, ?_⟩
  have fresh : (q.indices s c).filter (fun p => !(halfLanes c.g c.pc).contains p.1) = q.indices s c := by
    rw [rs.fresh]
    exact List.filter_eq_self.mpr fun _ _ => rfl
  have nonempty : (q.indices s c).isEmpty = false := by simpa using acts
  have lanes := rs.lanes
  have elems := rs.elems
  rw [← fresh] at lanes
  rw [← LIssue.indices_eq] at lanes elems fresh nonempty
  rw [← fresh] at nonempty
  unfold pstBody
  refine bind_of_ok rs.first (bind_of_ok rs.second (bind_of_ok (by rw [demand, if_pos rs.formats]) (bind_of_ok lanes (bind_of_ok elems
    (ite_bind_of_ok rs.present (bind_of_ok rs.pages (bind_of_ok rs.watched (bind_of_ok rs.joined (bind_of_ok rs.observed ?_)))))))))
  extract_lets data ps bs a s1 qs new
  have stored : data = fun l => (Claims.storedData q false d h s c l).1 := funext (find_ins q s c d h)
  clear_value data
  subst stored
  have opens : ¬ ((((q.issue s c).ins.map (fun i => (i.idx, (i.arg 0).toNat))).filter
      (fun p => !(halfLanes (q.issue s c).c.g (q.issue s c).c.pc).contains p.1)).isEmpty = true) :=
    fun e => Bool.noConfusion (nonempty.symm.trans e)
  have first : s1 = firstHalf (q.on s c) s₂ h ps := if_neg opens
  have named : new = some a.2 := if_neg opens
  refine bind_of_ok (first ▸ second) ?_
  rw [named]
  rfl

end PstReaches

end

theorem LIssue.indices_ne_nil {q : LIssue} {s : State} {c : Ctx} (r : q.Enters s c) : q.indices s c ≠ [] := by
  obtain ⟨l, hl⟩ := List.exists_mem_of_ne_nil _ r.acts
  obtain ⟨x, hx, -⟩ := LIssue.lane_of_acting r hl
  exact List.ne_nil_of_mem (List.mem_filterMap.mpr ⟨l, hl, by rw [hx]; rfl⟩)

/-- The issue of a PST as its specification has it, which counts no class by itself (R139). -/
def pstIssue (h2 : Slot) (d a : LSrc) (hs : HSel) (slot : Nat) (w : Width) : LIssue :=
  { Claims.storeIssue (.pst h2 d a hs) .int d a hs slot w with cls := .none }

section
variable {h2 : Slot} {d a : LSrc} {hs : HSel} {slot : Nat} {w : Width} {s : State} {c : Ctx}

theorem pstIssue_ready (r : (Claims.storeIssue (.pst h2 d a hs) .int d a hs slot w).Ready s c) : (pstIssue h2 d a hs slot w).Ready s c :=
  ⟨⟨r.ctx, r.declares, r.loaded, r.alone, r.acts, r.tries, r.clean, r.tables, fun counts => absurd rfl counts, r.picks⟩, r.falls⟩

theorem pstIssue_open (ok : Claims.storeGroupOk d w) (r : (Claims.storeIssue (.pst h2 d a hs) .int d a hs slot w).Ready s c) :
    LSpec.Open { storeSpec (.pst h2 d a hs) .int d a hs with cls := .none, busy := pstBusy } (pstIssue h2 d a hs slot w) s c := by
  have room : counter s c.g.key .store < 63 := r.room OpClass.noConfusion
  have full : counterFull s c.g.key .store = false := by simp [counterFull, room]
  exact ⟨rfl, by show pstBusy c s = false; rw [pstBusy, full]; rfl, dataOk_ok ok fun x hx => r.declares x (List.mem_append_left _ hx)⟩

/-- A PST none of whose lanes has done its first half is accepted with both halves. -/
theorem pst_accepted {h k : Handle} {runs : List Run} {es : List HalfElem} {s₀ s₁ s₂ : State} (ok : Claims.storeGroupOk d w)
    (r : (Claims.storeIssue (.pst h2 d a hs) .int d a hs slot w).Ready s c)
    (rs : PstReaches (pstIssue h2 d a hs slot w) s c h2 h k runs es s₀ s₁ s₂) :
    let q := pstIssue h2 d a hs slot w
    let data := fun l => (Claims.storedData q false d h s c l).1
    q.Accepted s c 0 (fun l x => q.drawn s c l x) (fun t =>
      SameBytes s t ∧ ∃ g op, OutstandingAs t op c.g.key .store (.store 2) ∧ findGroup t c.g.key = some g ∧
      g.fifo = c.g.fifo ++
        [.store op (ntOf false h) none (storeBytes (q.on s c) s₂ h (runs.map (fun r => (r, data r.lane)))),
         .store op (ntOf false k) none (storeBytes (q.on s c) s₂ k (halfData k es data))]) := by
  intro q data
  have r₀ := pstIssue_ready r
  obtain ⟨hg, -⟩ := focusCtx_group r.ctx
  obtain ⟨u, seen, ops, body⟩ := rs.body (d := d) (LIssue.indices_ne_nil r₀.toEnters)
  generalize hps : runs.map (fun r => (r, data r.lane)) = ps at seen ops
  generalize hqs : halfData k es data = qs at body
  obtain ⟨ls, g₁, found₁, same₁⟩ := rs.seenFrame.issuer hg
  obtain ⟨g₂, found₂, fifo₂, open₂⟩ := findGroup_firstHalf (q.on s c) s₂ h ps found₁
  obtain ⟨g₃, found₃, same₃⟩ := seen.group found₂
  obtain ⟨g₄, found₄, fifo₄, open₄⟩ := findGroup_halfNoted (q.on s c) u k qs found₃
  have fifo : g₄.fifo = c.g.fifo ++ [.store (acceptOp s₂ (q.on s c) .store (.store 2)).2 (ntOf false h) none (storeBytes (q.on s c) s₂ h ps)] := by
    rw [fifo₄, show g₃.fifo = g₂.fifo from (congrArg Group.fifo same₃ :), fifo₂, show g₁.fifo = c.g.fifo from (congrArg Group.fifo same₁ :)]
  have opened : openPsts ((q.on s c).now (halfNoted (q.on s c) u k qs)) c.pc = [(acceptOp s₂ (q.on s c) .store (.store 2)).2] := by
    have now : (q.on s c).now (halfNoted (q.on s c) u k qs) = g₄ := by
      unfold Ctx.now
      rw [show findGroup _ (q.on s c).g.key = _ from found₄]
      rfl
    have notes : g₄.openPst = c.g.openPst ++ [⟨c.pc, (acceptOp s₂ (q.on s c) .store (.store 2)).2⟩] := by
      rw [open₄, show g₃.openPst = g₂.openPst from (congrArg Group.openPst same₃ :), open₂,
        show g₁.openPst = c.g.openPst from (congrArg Group.openPst same₁ :)]
      rfl
    have none : openPsts c.g c.pc = [] := rs.closed
    unfold openPsts at none ⊢
    rw [now, notes, List.filter_append, List.map_append, none]
    simp
  have bytes : storeBytes (q.on s c) u k qs = storeBytes (q.on s c) s₂ k qs :=
    ((quiet_firstHalf ..).trans seen.quiet).tables.storeBytes ..
  rw [opened, bytes] at body
  have quiet : QuietFrame s (halfNoted (q.on s c) u k qs) :=
    (QuietFrame.after q s c).trans (rs.seenFrame.quiet.trans ((quiet_firstHalf ..).trans (seen.quiet.trans (quiet_halfNoted ..))))
  have registers : RegsFrame (q.after s c) (halfNoted (q.on s c) u k qs) :=
    rs.seenFrame.registers.trans ((registers_firstHalf ..).trans (seen.registers.trans (registers_halfNoted ..)))
  refine LIssue.accepted_of_commit LaneIn.lane rfl ⟨rfl, rfl, fun x hx => srcGroup_mono (r.picks.regs_le rfl) hx, rfl, rfl, rfl, rfl⟩ r₀
    (pstIssue_open ok r) body (registers.trans (registers_pushSecond ..)) (fun _ _ => rfl) fun t g g₅ same found₅ found fifo₅ => ?_
  obtain ⟨g₆, found₆, fifo₆⟩ := findGroup_pushSecond _ _ _ _ _ found₄
  obtain rfl := Option.some.inj (found₆.symm.trans found₅)
  refine ⟨(quiet.trans ((quiet_pushSecond ..).trans (.of_sameElsewhere same))).bytes, g, _,
    outstandingAs_acceptOp (same.ops.trans ((ops_pushSecond ..).trans ((ops_halfNoted ..).trans (ops.trans (ops_firstHalf ..))))), found, ?_⟩
  rw [fifo₅, fifo₆, fifo, List.append_assoc]
  rfl

end

end Sys2Proof.Machine

namespace Sys2Proof.Proofs

open Sys2Proof.Machine

/-- Settles O17: a store's checks touch no byte and no register, and its acceptance puts its bytes at the tail of the FIFO; the second
half of a PST meets the tables that its first half met. -/
theorem laneStoresEnterTheFifo : Obligations.LaneStoresEnterTheFifo := by
  unfold Obligations.LaneStoresEnterTheFifo
  refine ⟨fun d a hs slot w s c h runs s₁ ok => ⟨fun r rs => ?_, fun r rs => ?_, fun r rs => ?_⟩,
    fun h2 d a hs slot w s c h k runs es s₀ s₁ s₂ => ?_⟩
  · exact store_accepted (conv := false) ok rfl r rs
  · exact store_accepted (conv := true) ok rfl r rs
  · exact store_accepted (conv := false) ok rfl r rs
  · intro q n data bs r ok fresh closed unwatched slot₁ slot₂ loaded₁ loaded₂ fmt₁ fmt₂ profile₁ profile₂ sizes lanes elems present
      pages watched joined observed translated
    refine pst_accepted ok r ⟨handle_ok slot₁ loaded₁, handle_ok slot₂ loaded₂, ?_, fresh, closed, unwatched, lanes, elems, ?_, pages,
      watched, joined, observed, translated⟩
    · simp [fmt₁, fmt₂, profile₁, profile₂, sizes]
    · split
      · next scratch => exact present scratch
      · rfl

end Sys2Proof.Proofs

/-! SUPPORT. Copies as they are accepted, and the settlement of O32 (R112, R116, R117, R120, R121). -/

namespace Sys2Proof.Machine

set_option Elab.async false

/-! ## What the acceptance of a copy leaves of the groups -/

theorem DrainFrame.onOk_copyReach {s t : State} (h : DrainFrame s t) (c : Ctx) (k : CopyShape) (act : List LaneIn) :
    OnOk (DrainFrame s) (copyReach c t k act) := by
  have tiles (runs : List Run) : OnOk (DrainFrame s) (copyTiles c t k runs) :=
    .thereafter (.check fun _ => .ok ((h.after_drainFifo c.g.key).after_touchHome ..)) _
  have rest : OnOk (DrainFrame s) (if (tileRuns k.hs (checkedRuns c t k)).isEmpty then .ok t else copyTiles c t k (checkedRuns c t k)) :=
    ite_keeps (.ok h) (tiles _)
  exact .check fun _ => .check fun _ => .check fun _ => .check fun _ => ite_keeps (.check fun _ => rest) (.check fun _ => rest)

theorem DrainFrame.onOk_observeLines {s t : State} (h : DrainFrame s t) (c : Ctx) (ls : List Nat) :
    OnOk (DrainFrame s) (observeLines c t ls) := ite_keeps (h.onOk_observe ..) (.ok h)

section
variable {s t : State} (h : RegsFrame s t)
include h

theorem RegsFrame.after_barUpdate (uid off : Nat) (f : Bar → Bar) : RegsFrame s (barUpdate t uid off f) := by
  refine h.trans ?_
  unfold barUpdate barPut RegsFrame
  dsimp only
  rw [groups_scratchBytes]
  exact map_updateIf (fun _ => by rfl) ..

theorem RegsFrame.after_barOn (uid off : Nat) (f : Bar → Bar) : RegsFrame s (barOn t uid off f) := by
  unfold barOn
  split
  · exact h.after_barUpdate ..
  · exact h

theorem RegsFrame.memoryOnly {u : State} (m : MemoryOnly t u) : RegsFrame s u := h.trans (.of_groups m.groups)

theorem RegsFrame.after_acceptAt (w : CopyWord) (bar err q : Nat) (secs : List Sector) (uid : Nat) :
    RegsFrame s (acceptAt w bar err q secs t uid) := by
  unfold acceptAt
  refine RegsFrame.memoryOnly ?_ (memoryOnly_syncLines ..)
  have flagged : RegsFrame s (if err = 0 then t else barOn t uid bar (barFlag err)) := ite_keeps h (h.after_barOn ..)
  exact ite_keeps (RegsFrame.after_barOn (t := clearPresence _ uid _) flagged ..) flagged

theorem RegsFrame.after_markHits (id : Nat) (els : List WatchEl) : RegsFrame s (markHits t id els) := by
  unfold markHits
  split
  · exact h
  · exact ite_keeps h h

end

/-! ## Workgroups, as a function of workgroups -/

section
variable {s t : State} (h : t.wgs = s.wgs)
include h

theorem wgs_updWg_congr (uid : Nat) (f : Wg → Wg) : (updWg t uid f).wgs = (updWg s uid f).wgs := by
  simp only [updWg_wgs, h]

theorem wgs_scratchSet_congr (uid off : Nat) (b : Byte) : (scratchSet t uid off b).wgs = (scratchSet s uid off b).wgs := by
  unfold scratchSet
  exact wgs_updWg_congr h ..

theorem wgs_foldl_congr {α : Type} {f : State → α → State} (hf : ∀ s t a, t.wgs = s.wgs → (f t a).wgs = (f s a).wgs) (l : List α) :
    (l.foldl f t).wgs = (l.foldl f s).wgs := by
  induction l generalizing s t with
  | nil => exact h
  | cons a l ih => exact ih (hf s t a h)

theorem wgs_scratchBytes_congr (uid off : Nat) (bs : List Byte) :
    (locSetBytes t 0 (.scr uid off) bs).wgs = (locSetBytes s 0 (.scr uid off) bs).wgs :=
  wgs_foldl_congr h (f := fun s (p : Nat × Byte) => scratchSet s uid (off + p.1) p.2) (fun _ _ _ e => wgs_scratchSet_congr e ..) _

theorem wgs_barUpdate_congr (uid off : Nat) (f : Bar → Bar) : (barUpdate t uid off f).wgs = (barUpdate s uid off f).wgs := by
  have bar : barGet t uid off = barGet s uid off := by simp only [barGet, scratchByte, findWg_congr h]
  unfold barUpdate barPut
  rw [bar]
  dsimp only
  exact wgs_scratchBytes_congr h ..

theorem wgs_barOn_congr (uid off : Nat) (f : Bar → Bar) : (barOn t uid off f).wgs = (barOn s uid off f).wgs := by
  unfold barOn
  rw [findWg_congr h]
  split
  · exact wgs_barUpdate_congr h ..
  · exact h

theorem wgs_acceptAt_congr (w : CopyWord) (bar err q : Nat) (secs : List Sector) (uid : Nat) :
    (acceptAt w bar err q secs t uid).wgs = (acceptAt w bar err q secs s uid).wgs := by
  unfold acceptAt
  rw [(memoryOnly_syncLines ..).wgs, (memoryOnly_syncLines ..).wgs]
  have flagged : (if err = 0 then t else barOn t uid bar (barFlag err)).wgs = (if err = 0 then s else barOn s uid bar (barFlag err)).wgs := by
    split
    · exact h
    · exact wgs_barOn_congr h ..
  split
  · exact wgs_barOn_congr (wgs_updWg_congr flagged ..) ..
  · exact wgs_updWg_congr flagged ..

end

/-- A copy at its receivers and, with ARR, at the issuer's own barrier. -/
def copyReceived (w : CopyWord) (c : Ctx) (bar err q : Nat) (secs : List Sector) (rcv : List Nat) (s : State) : State :=
  let u := rcv.foldl (acceptAt w bar err q secs) s
  if w.arr then barUpdate u c.w.uid bar (barArrive c.act.length 0) else u

section
variable (w : CopyWord) (c : Ctx) (bar err q : Nat) (secs : List Sector) (rcv : List Nat)

theorem wgs_copyReceived_congr {s t : State} (h : t.wgs = s.wgs) :
    (copyReceived w c bar err q secs rcv t).wgs = (copyReceived w c bar err q secs rcv s).wgs := by
  have received := wgs_foldl_congr (f := acceptAt w bar err q secs) h (fun _ _ _ e => wgs_acceptAt_congr e ..) rcv
  unfold copyReceived
  dsimp only
  split
  · exact wgs_barUpdate_congr received ..
  · exact received

theorem RegsFrame.after_copyReceived {s t : State} (h : RegsFrame s t) : RegsFrame s (copyReceived w c bar err q secs rcv t) := by
  have received : RegsFrame s (rcv.foldl (acceptAt w bar err q secs) t) := foldl_keeps (fun _ _ h => h.after_acceptAt ..) h
  exact ite_keeps (received.after_barUpdate ..) received

theorem copyReceived_kept {r s : State} (h : Kept r s) : Kept r (copyReceived w c bar err q secs rcv s) := by
  have received : Kept r (rcv.foldl (acceptAt w bar err q secs) s) := foldl_kept (fun _ _ h => acceptAt_kept h) h
  exact ite_keeps (barUpdate_kept received) received

end

theorem KeptExc.of_ok {r : State} {α : Type} {P : α → Prop} {x : Except Stop α} {a : α} (h : KeptExc r P x) (e : x = .ok a) : P a := by
  subst e
  exact h

/-! ## The operation of a copy -/

/-- The operation that an issue adds to its class (R139). -/
def acceptedOp (s : State) (c : Ctx) (cls : OpClass) (kind : OpKind) : Op :=
  let g := (findGroup s c.g.key).getD c.g
  ⟨s.seq, c.g.key, cls, kind, g.eop, mapGet 0 g.issued (classCode cls) + 1, false, armedSlots c, none, [], g.era⟩

theorem ops_acceptOp (s : State) (c : Ctx) (cls : OpClass) (kind : OpKind) :
    (acceptOp s c cls kind).1.ops = s.ops ++ [acceptedOp s c cls kind] := rfl

theorem findOp_acceptOp {s : State} (h : ∀ o ∈ s.ops, o.id < s.seq) (c : Ctx) (cls : OpClass) (kind : OpKind) :
    findOp (acceptOp s c cls kind).1 s.seq = some (acceptedOp s c cls kind) := by
  have none : s.ops.find? (fun o => o.id = s.seq) = none :=
    List.find?_eq_none.mpr fun o ho => by simpa using Nat.ne_of_lt (h o ho)
  show (s.ops ++ [acceptedOp s c cls kind]).find? (fun o => o.id = s.seq) = _
  rw [List.find?_append, none]
  simp [acceptedOp]

theorem findOp_updOp {s : State} {id : Nat} {f : Op → Op} (hf : ∀ o, (f o).id = o.id) {o : Op} (h : findOp s id = some o) :
    findOp (updOp s id f) id = some (f o) := by
  have same : o.id = id := by simpa using List.find?_some h
  have found := find_updateIf (fun o : Op => o.id = id) (fun o => o.id = id) f s.ops (fun o => by rw [hf])
  rw [show s.ops.find? (fun o => o.id = id) = some o from h, Option.map_some, if_pos (by simpa using same)] at found
  exact found

/-- Marking an operation leaves what it has to do. -/
theorem findOp_markHits {s : State} {id : Nat} (els : List WatchEl) {o : Op} (h : findOp s id = some o) :
    ∃ hit, findOp (markHits s id els) id = some { o with hit := hit } := by
  unfold markHits
  rw [h]
  dsimp only
  split
  · exact ⟨o.hit, h⟩
  · exact ⟨_, findOp_updOp (f := fun x => { x with hit := els.foldl (fun h e => lowerHit h (hitOf o.watch e)) o.hit }) (fun _ => rfl) h⟩

/-- A copy with a sector still to land stays as it is. -/
theorem copyEnd_of_pending {s : State} {id : Nat} {o : Op} {cp : CopyOp} (h : findOp s id = some o) (kind : o.kind = .copy cp)
    (pending : ∃ y ∈ cp.sectors, y.landed = false) : copyEnd s id = s := by
  have more : cp.sectors.all (·.landed) = false := by
    obtain ⟨y, hy, landed⟩ := pending
    exact List.all_eq_false.mpr ⟨y, hy, by simp [landed]⟩
  unfold copyEnd
  rw [h]
  dsimp only
  rw [kind]
  simp [more]

/-- The end of an operation changes operations and hits alone. -/
theorem finishOp_eq (s : State) (id : Nat) (via : List Via) : ∃ os hs, finishOp s id via = { s with ops := os, hits := hs } := by
  unfold finishOp
  split
  · exact ⟨s.ops, s.hits, rfl⟩
  · split <;> split <;> exact ⟨_, _, rfl⟩

/-- So does the end of a copy. -/
theorem copyEnd_eq (s : State) (id : Nat) : ∃ os hs, copyEnd s id = { s with ops := os, hits := hs } := by
  unfold copyEnd
  split
  · split
    · split
      · exact finishOp_eq ..
      · exact ⟨s.ops, s.hits, rfl⟩
    · exact ⟨s.ops, s.hits, rfl⟩
  · exact ⟨s.ops, s.hits, rfl⟩

theorem wgs_markHits (s : State) (id : Nat) (els : List WatchEl) : (markHits s id els).wgs = s.wgs := by
  unfold markHits
  split
  · rfl
  · split <;> rfl

theorem copySectors_pending (c : Ctx) (s : State) (w : CopyWord) (k : CopyShape) (rcv : List Nat) :
    ∀ y ∈ copySectors c s w k rcv, y.landed = false := by
  intro y hy
  unfold copySectors at hy
  dsimp only at hy
  obtain ⟨uid, -, hy⟩ := List.mem_flatMap.mp hy
  obtain ⟨p, -, rfl⟩ := List.mem_map.mp hy
  rfl

/-! ## The body of a copy -/

/-- A uniform operand of an issue (R149). -/
theorem uniformArg_ok {q : LIssue} {s : State} {c : Ctx} {n : Nat} {v : Word} (r : q.Enters s c) (h : Claims.Uniform q s c n v) :
    (q.issue s c).uniformArg n = .ok v := by
  have args : ∀ i ∈ q.ins s c, i.arg n = v := by
    intro i hi
    obtain ⟨l, acts, lane⟩ := List.mem_filterMap.mp hi
    obtain ⟨x, hx, rfl⟩ := Option.map_eq_some_iff.mp lane
    exact h l acts x hx
  have some_in : q.ins s c ≠ [] := by
    obtain ⟨l, acts⟩ := List.exists_mem_of_ne_nil _ r.acts
    obtain ⟨x, hx, -⟩ := LIssue.lane_of_acting r acts
    exact List.ne_nil_of_mem (List.mem_filterMap.mpr ⟨l, acts, by rw [hx, Option.map_some]⟩)
  have same : differing ((q.ins s c).map (fun i => (i.idx, i.arg n))) = [] :=
    differing_eq_nil (w := v) fun p hp => by
      obtain ⟨i, hi, rfl⟩ := List.mem_map.mp hp
      exact args i hi
  obtain ⟨i, is, e⟩ := List.exists_cons_of_ne_nil some_in
  refine bind_of_ok (a := ()) (by show demandNone (differing ((q.ins s c).map _)) _ _ = _; rw [same]; rfl) ?_
  show (match q.ins s c with | i :: _ => _ | [] => _) = _
  rw [e]
  exact congrArg Except.ok (args i (e ▸ List.mem_cons_self ..))

/-- The copy that an issue brings to its class. -/
def copyOpOf (w : CopyWord) (k : CopyShape) (bar : Nat) (secs : List Sector) (via : List Via) : CopyOp :=
  { src := k.hs, dst := k.hd, cvt := w.cvt, rnd := if exactPair (hFmt k.hs) (hFmt k.hd) then .rne else w.rnd
    sat := w.sat && !exactPair (hFmt k.hs) (hFmt k.hd), bar := bar, sectors := secs, vias := via, satTiles := [] }

/-- A copy accepted in `u`, its elements marked; complete if it has no sector. -/
def copyTaken (c : Ctx) (u : State) (k : CopyShape) (cp : CopyOp) : State :=
  copyEnd (markHits (acceptOp u c .copy (.copy cp)).1 u.seq (copyEls k)) u.seq

section
variable (c : Ctx) (u : State) (k : CopyShape) (cp : CopyOp)

theorem wgs_copyTaken : (copyTaken c u k cp).wgs = u.wgs := by
  obtain ⟨_, _, e⟩ := copyEnd_eq (markHits (acceptOp u c .copy (.copy cp)).1 u.seq (copyEls k)) u.seq
  unfold copyTaken
  rw [e]
  exact wgs_markHits ..

theorem RegsFrame.after_copyTaken {s : State} (h : RegsFrame s u) : RegsFrame s (copyTaken c u k cp) := by
  obtain ⟨_, _, e⟩ := copyEnd_eq (Machine.markHits (Machine.acceptOp u c .copy (.copy cp)).1 u.seq (copyEls k)) u.seq
  unfold copyTaken
  rw [e]
  exact ((h.acceptOp ..).after_markHits ..).trans (.of_groups rfl)

/-- A copy with sectors is outstanding once it is accepted. -/
theorem outstanding_copyTaken (ids : ∀ o ∈ u.ops, o.id < u.seq) (some_sector : cp.sectors ≠ [])
    (pending : ∀ y ∈ cp.sectors, y.landed = false) : Outstanding (copyTaken c u k cp) c.g.key .copy (.copy cp) := by
  obtain ⟨hit, found⟩ := findOp_markHits (copyEls k) (findOp_acceptOp ids c .copy (.copy cp))
  obtain ⟨y, hy⟩ := List.exists_mem_of_ne_nil _ some_sector
  unfold copyTaken
  rw [copyEnd_of_pending found rfl ⟨y, hy, pending y hy⟩]
  exact ⟨_, List.mem_of_find?_eq_some found, rfl, rfl, rfl, rfl⟩

end

section
variable {q : LIssue} {w : CopyWord} {tgt : Option (Fin 16)} {s : State} {c : Ctx} {k : CopyShape} {v : Word} {bar : Nat}
  {s₀ s₁ s₂ : State}

theorem copyBody_ok (r : q.Ready s c) (same : Claims.Uniform q s c 1 v)
    (shape : copyShape w tgt.isSome (q.issue s c) = .ok k) (located : barAt (q.on s c) v.toNat = .ok bar)
    (reached : copyReach (q.on s c) (q.after s c) k (copyAct w (q.issue s c)) = .ok s₀)
    (watched : watchStep (q.on s c) s₀ (copyEls k) = .ok s₁)
    (observed : observeLines (q.on s c) s₁ (checkedLines (q.on s c) (q.after s c) k) = .ok s₂)
    {e : Ctx} (he : q.on s c = e) {secs : List Sector} (hsecs : copySectors e s₂ w k (receivers s₂ c.w tgt) = secs) {err quads : Nat}
    (herr : (if k.inb.length < (copyAct w (q.issue s c)).length then errOob else 0) +
      (if k.inb.any (srcNonRes e s₂ k) then errNres else 0) = err)
    (hquads : k.inb.length * k.db / 4 + 4 * k.tiles.length = quads) {u : State}
    (hu : (if w.arr then drainFifo s₂ c.g.key else s₂) = u) :
    ∃ via, copyBody w tgt (q.issue s c) = .ok (copyTaken e (copyReceived w e bar err quads secs (receivers s₂ c.w tgt)
      (commitLanes u c.g.key ((q.ins s c).map LaneIn.keep) 0)) k (copyOpOf w k bar secs via)) := by
  subst he hsecs herr hquads hu
  refine ⟨_, bind_of_ok (uniformArg_ok r.toEnters same) (bind_of_ok shape (bind_of_ok located (bind_of_ok reached
    (bind_of_ok (a := s₁) ?_ (bind_of_ok observed rfl)))))⟩
  show thereafter s₀ (watchStep (q.on s c) s₀ _) = _
  rw [watched]
  rfl

end

end Sys2Proof.Machine

namespace Sys2Proof.Proofs

open Sys2Proof.Machine

/-- A copy of either form. -/
def copyInstr (w : CopyWord) (tgt : Option (Fin 16)) (d a b : LSrc) : Instr :=
  match tgt with | none => .cpl w d a b | some t => .cpm w t d a b

theorem exec_copyInstr (w : CopyWord) (tgt : Option (Fin 16)) (d a b : LSrc) (s : State) :
    exec (copyInstr w tgt d a b) s = perLane (copySpec (copyInstr w tgt d a b) d a b) (copyBody w tgt) s := by
  cases tgt <;> rfl

/-- Settles O32: the issue passes its checks; the commit of its lanes changes no workgroup, so that its receivers stand as they would
without it; and the operation that it brings has sectors to land. -/
theorem copyAccepted : Obligations.CopyAccepted := by
  unfold Obligations.CopyAccepted
  intro w tgt d a b s c k v bar s₀ s₁ s₂ canon i q e x r same shape located reached watched observed secs err quads u
  let u₀ := if w.arr then drainFifo s₂ c.g.key else s₂
  obtain ⟨via, body⟩ := copyBody_ok r same shape located reached watched observed (e := e) rfl (secs := secs) rfl (err := err) rfl
    (quads := quads) rfl (u := u₀) rfl
  have plain : (copySpec i d a b).Plain q := ⟨rfl, rfl, fun _ h => h, rfl, rfl, rfl, rfl⟩
  have checked : DrainFrame (q.after s c) s₂ :=
    ((((((DrainFrame.refl _).onOk_copyReach e k (copyAct w x)).of_ok reached).onOk_watchStep e (copyEls k)).of_ok watched).onOk_observeLines
      e _).of_ok observed
  have drained : DrainFrame (q.after s c) u₀ := ite_keeps (checked.after_drainFifo _) checked
  have spent : Kept s (q.after s c) := plain.spend_eq s c ▸ LSpec.spend_kept canon.kept
  have kept : Kept s u₀ :=
    have kept₂ := (observeLines_kept ((watchStep_kept ((copyReach_kept spent).of_ok reached)).of_ok watched)).of_ok observed
    ite_keeps (drainFifo_kept kept₂) kept₂
  have committed : (commitLanes u₀ c.g.key ((q.ins s c).map LaneIn.keep) 0).wgs = u₀.wgs :=
    (congrArg State.wgs (sameElsewhere_clearRegPoison ..) :)
  refine LIssue.accepted_of_commit_then LaneIn.lane (p := copySpec i d a b) (body := copyBody w tgt) (exec_copyInstr w tgt d a b s) plain r
    ⟨rfl, rfl, rfl⟩ body drained.registers ?_ (fun _ _ => rfl) fun t g g₃ elsewhere found₃ found fifo => ⟨?_, fun some_sector => ?_⟩
  · exact ((RegsFrame.refl _).after_copyReceived ..).after_copyTaken ..
  · exact ((congrArg State.wgs elsewhere :).trans (wgs_copyTaken ..)).trans (wgs_copyReceived_congr w e bar err quads secs _ committed)
  · have received := copyReceived_kept w e bar err quads secs (receivers s₂ c.w tgt)
      (commitLanes_kept (k := c.g.key) (outs := (q.ins s c).map LaneIn.keep) (fl := 0) kept)
    obtain ⟨o, mem, rest⟩ := outstanding_copyTaken e _ k (copyOpOf w k bar secs via) received.ids some_sector (copySectors_pending e s₂ w k _)
    exact ⟨_, ⟨o, elsewhere.ops ▸ mem, rest⟩, rfl, rfl, rfl, rfl, copySectors_pending e s₂ w k _⟩

end Sys2Proof.Proofs

/-! SUPPORT. Accesses to memory neither depend on groups, notes of poison and outstanding operations nor change them (R51, R70, R254–R256,
R265, R273). -/

namespace Sys2Proof.Machine

set_option Elab.async false

/-- A step that neither depends on groups, notes of poison and outstanding operations nor changes them. -/
structure Aside (f : State → State) : Prop where
  beside : ∀ s gs ps os, f (s.beside gs ps os) = (f s).beside gs ps os

namespace Aside

section
variable {f g : State → State} (h : Aside f)
include h

theorem groups (s : State) : (f s).groups = s.groups := (congrArg State.groups (h.beside s s.groups s.poison s.ops) :)

theorem poison (s : State) : (f s).poison = s.poison := (congrArg State.poison (h.beside s s.groups s.poison s.ops) :)

theorem ops (s : State) : (f s).ops = s.ops := (congrArg State.ops (h.beside s s.groups s.poison s.ops) :)

theorem after (hg : Aside g) : Aside (fun s => f (g s)) := ⟨fun s gs ps os => by rw [hg.beside, h.beside]⟩

end

theorem of_eq {f g : State → State} (h : Aside f) (e : ∀ s, g s = f s) : Aside g := ⟨fun s gs ps os => by rw [e, e, h.beside]⟩

theorem same : Aside (fun s => s) := ⟨fun _ _ _ _ => rfl⟩

theorem foldl {α : Type} {f : State → α → State} (h : ∀ a, Aside (f · a)) (l : List α) : Aside (l.foldl f) := by
  refine ⟨fun s gs ps os => ?_⟩
  induction l generalizing s with
  | nil => rfl
  | cons a l ih =>
    rw [List.foldl_cons, (h a).beside, ih]
    rfl

/-- A step by something that it reads, which is no group, note of poison or operation. -/
theorem reading {α : Type} {x : State → α} {f : α → State → State} (h : ∀ a, Aside (f a))
    (hx : ∀ s gs ps os, x (s.beside gs ps os) = x s := by exact fun _ _ _ _ => rfl) : Aside (fun s => f (x s) s) := by
  refine ⟨fun s gs ps os => ?_⟩
  rw [hx, (h _).beside]

theorem ite {c : Prop} [Decidable c] {f g : State → State} (h : Aside f) (h' : Aside g) : Aside (fun s => if c then f s else g s) := by
  refine ⟨fun s gs ps os => ?_⟩
  split
  · exact h.beside ..
  · exact h'.beside ..

/-! ### The home -/

theorem homeSet (owner ca pa : Nat) (b : Byte) : Aside (fun s => Machine.homeSet s (keyOr s owner) ca pa b) :=
  reading (x := fun s => keyOr s owner) (f := fun key s => Machine.homeSet s key ca pa b)
    fun key => ⟨fun s gs ps os => homeSet_beside s gs ps os key ca pa b⟩

theorem readThrough (ca pa : Nat) : Aside (Machine.readThrough · ca pa) := by
  refine ⟨fun s gs ps os => ?_⟩
  have hbma : (s.beside gs ps os).mcb.hbma = s.mcb.hbma := rfl
  unfold Machine.readThrough
  rw [hbma]
  split
  · rfl
  · split
    · exact mscDrop_beside ..
    · split
      · exact mscFill_beside ..
      · rfl

theorem l2Touch (owner base : Nat) : Aside (Machine.l2Touch · owner base) := ⟨fun _ _ _ _ => rfl⟩

theorem l2TouchAll (owner : Nat) (ls : List Nat) : Aside (Machine.l2TouchAll · owner ls) := foldl (fun l => l2Touch owner l) ls

theorem ownSetBytes (owner ca pa : Nat) (bs : List Byte) : Aside (Machine.ownSetBytes · owner ca pa bs) :=
  (l2TouchAll ..).after (reading (x := fun s => keyOr s owner) (f := fun key s => homeSetBytes s key ca pa bs)
    fun key => ⟨fun s gs ps os => homeSetBytes_beside s gs ps os key ca bs pa⟩)

/-! ### Cores -/

theorem setCore (core : Nat) (f : Core → Core) : Aside (fun s => Machine.setCore s core (f (coreOf s core))) := ⟨fun _ _ _ _ => rfl⟩

theorem updL1 (core : Nat) (p : L1Line → Bool) (f : L1Line → L1Line) : Aside (Machine.updL1 · core p f) := ⟨fun _ _ _ _ => rfl⟩

theorem l1WriteBack (l : L1Line) : Aside (Machine.l1WriteBack · l) :=
  (l2TouchAll ..).after (foldl (f := fun s i => Machine.homeSet s (keyOr s l.owner) l.ca (l.base + i) (mapGet 0 l.data i))
    (fun _ => homeSet ..) _)

theorem l1Drop (core base : Nat) : Aside (Machine.l1Drop · core base) := by
  refine ⟨fun s gs ps os => ?_⟩
  have left (l : L1Line) : Aside (fun s => Machine.setCore (Machine.l1WriteBack s l) core
      { coreOf (Machine.l1WriteBack s l) core with
        l1 := (coreOf (Machine.l1WriteBack s l) core).l1.filter (fun x => x.base ≠ base) }) :=
    (setCore core (fun c => { c with l1 := c.l1.filter (fun x => x.base ≠ base) })).after (l1WriteBack l)
  have line : l1Find (coreOf (s.beside gs ps os) core) base = l1Find (coreOf s core) base := rfl
  unfold Machine.l1Drop
  rw [line]
  cases l1Find (coreOf s core) base with
  | none => rfl
  | some l => exact (left l).beside s gs ps os

theorem l1WriteBackAll (core : Nat) : Aside (Machine.l1WriteBackAll · core) :=
  (setCore core (fun c => { c with l1 := c.l1.map (fun l => { l with dirty := 0 }) })).after
    (reading (x := fun s => (coreOf s core).l1) (f := fun ls s => ls.foldl Machine.l1WriteBack s) fun ls => foldl l1WriteBack ls)

theorem l1DropAll (core : Nat) : Aside (Machine.l1DropAll · core) :=
  reading (x := fun s => (coreOf s core).l1.map (fun l : L1Line => l.base)) (f := fun bs s => bs.foldl (fun s b => Machine.l1Drop s core b) s)
    fun bs => foldl (fun b => l1Drop core b) bs

theorem l1Room (core : Nat) : Aside (Machine.l1Room · core) := by
  refine ⟨fun s gs ps os => ?_⟩
  have cores : coreOf (s.beside gs ps os) core = coreOf s core := rfl
  unfold Machine.l1Room
  rw [cores]
  dsimp only
  split
  · rfl
  · split
    · exact (l1Drop ..).beside ..
    · rfl

theorem l1Enter (core owner ca base : Nat) : Aside (Machine.l1Enter · core owner ca base) := ⟨fun _ _ _ _ => rfl⟩

theorem l1Fill (core owner ca base : Nat) : Aside (Machine.l1Fill · core owner ca base) := by
  have missed := (l1Enter core owner ca base).after
    ((l2Touch owner base).after ((readThrough ca base).after ((l1Room core).after (l1Drop core base))))
  refine ⟨fun s gs ps os => ?_⟩
  have line : l1Find (coreOf (s.beside gs ps os) core) base = l1Find (coreOf s core) base := rfl
  unfold Machine.l1Fill
  rw [line]
  dsimp only
  exact (ite same missed).beside s gs ps os

theorem l1Mend (core : Nat) (ls : List Loc) : Aside (Machine.l1Mend · core ls) :=
  foldl (f := fun s pa => Machine.updL1 s core (fun l => l.base = lineOf pa && bit l.torn (pa % 256 / 16)) (fun l =>
    { l.freshen s pa 16 with torn := setBits l.torn (pa % 256 / 16) (pa % 256 / 16) 0 })) (fun _ => ⟨fun _ _ _ _ => rfl⟩) _

theorem l1Note (core owner : Nat) (b : StoreByte) : Aside (Machine.l1Note · core owner b) := by
  refine ⟨fun s gs ps os => ?_⟩
  unfold Machine.l1Note
  cases b.loc with
  | scr => rfl
  | mem => exact (updL1 ..).beside ..

theorem wcByteOut (core owner : Nat) (b : StoreByte) : Aside (Machine.wcByteOut · core owner b) := by
  refine ⟨fun s gs ps os => ?_⟩
  unfold Machine.wcByteOut
  cases b.loc with
  | scr => rfl
  | mem pa ca => exact ((l1Note core owner b).after (homeSet owner ca pa b.val)).beside s gs ps os

theorem wcEntryOut (core : Nat) (e : WcEntry) : Aside (Machine.wcEntryOut · core e) :=
  (setCore core (fun c => { c with wc := c.wc.filter (fun x => x ≠ e) })).after
    ((l2TouchAll ..).after (foldl (fun b => wcByteOut core e.owner b) _))

theorem wcOutRange (core lo hi : Nat) : Aside (Machine.wcOutRange · core lo hi) :=
  reading (x := fun s => wcPick (fun e => e.bytes.any (StoreByte.inRange lo hi)) (coreOf s core).wc)
    (f := fun es s => es.foldl (fun s e => Machine.wcEntryOut s core e) s) fun es => foldl (fun e => wcEntryOut core e) es

theorem touchHome (core owner : Nat) (ls : List Loc) : Aside (Machine.touchHome · core owner ls) := by
  refine (foldl (fun p => ?_) (lineCas ls)).after (l1Mend core ls)
  refine (l2Touch owner p.1).after ((readThrough p.2 p.1).after (Aside.after (f := fun s => match l1Find (coreOf s core) p.1 with
    | some l => if l.owner = owner then s else Machine.l1Drop s core p.1
    | none => s) ?_ (wcOutRange ..)))
  refine reading (x := fun s => l1Find (coreOf s core) p.1) (f := fun x s => match x with
    | some l => if l.owner = owner then s else Machine.l1Drop s core p.1
    | none => s) fun x => ?_
  cases x with
  | none => exact same
  | some l => exact ite same (l1Drop core p.1)

/-! ### Stores, engines and atomics -/

theorem scratchSet (uid off : Nat) (b : Byte) : Aside (Machine.scratchSet · uid off b) := ⟨fun _ _ _ _ => rfl⟩

theorem storeByteOut (core owner : Nat) (b : StoreByte) : Aside (Machine.storeByteOut · core owner b) := by
  refine ⟨fun s gs ps os => ?_⟩
  unfold Machine.storeByteOut
  cases b.loc with
  | scr => rfl
  | mem pa ca => exact ((updL1 core _ _).after ((l1Fill core owner ca (lineOf pa)).after (wcOutRange core pa (pa + 1)))).beside s gs ps os

theorem releaseByteOut (core owner : Nat) (b : StoreByte) : Aside (Machine.releaseByteOut · core owner b) := by
  refine ⟨fun s gs ps os => ?_⟩
  unfold Machine.releaseByteOut
  cases b.loc with
  | scr => rfl
  | mem pa ca =>
    exact (reading (x := fun s => keyOr s owner) (f := fun key s =>
      Machine.homeSet (Machine.l1Drop (Machine.wcOutRange s core pa (pa + 1)) core (lineOf pa)) key ca pa b.val) fun key =>
        Aside.after (f := fun s => Machine.homeSet s key ca pa b.val) ⟨fun s gs ps os => homeSet_beside s gs ps os key ca pa b.val⟩
          ((l1Drop core (lineOf pa)).after (wcOutRange core pa (pa + 1)))).beside s gs ps os

theorem clusterDrop (cl line : Nat) : Aside (Machine.clusterDrop · cl line) :=
  foldl (f := fun s c => Machine.l1Drop (Machine.wcOutRange s c line (line + 256)) c line)
    (fun c => (l1Drop c line).after (wcOutRange c line (line + 256))) _

theorem engineByteOut (owner : Nat) (b : StoreByte) : Aside (Machine.engineByteOut · owner b) := by
  refine ⟨fun s gs ps os => ?_⟩
  unfold Machine.engineByteOut
  cases b.loc with
  | scr => rfl
  | mem pa ca => exact (homeSet ..).beside ..

theorem engineSetAll (cl owner : Nat) (bs : List StoreByte) : Aside (Machine.engineSetAll · cl owner bs) :=
  (l2TouchAll ..).after ((foldl (fun b => engineByteOut owner b) bs).after (foldl (fun l => clusterDrop cl l) (memLines bs)))

theorem entryOut (k : GKey) (w : Wg) (op : Nat) (nt : Bool) (rel : Option Scope) (bs : List StoreByte) :
    Aside (Machine.entryOut · k w op nt rel bs) := by
  unfold Machine.entryOut
  refine ite ?_ (ite ?_ ?_)
  · exact (setCore w.core (fun c => { c with wc := c.wc ++ [⟨k, op, w.owner, bs⟩] })).after (foldl (fun l => l1Drop w.core l) (memLines bs))
  · exact (l2TouchAll ..).after ((foldl (fun b => releaseByteOut w.core w.owner b) bs).after (l1WriteBackAll w.core))
  · exact foldl (fun b => storeByteOut w.core w.owner b) bs

theorem locSetBytes (owner : Nat) (l : Loc) (bs : List Byte) : Aside (Machine.locSetBytes · owner l bs) := by
  unfold Machine.locSetBytes
  cases l with
  | scr uid off => exact foldl (f := fun s (p : Nat × Byte) => Machine.scratchSet s uid (off + p.1) p.2) (fun _ => scratchSet ..) _
  | mem pa ca => exact ownSetBytes ..

theorem atomReady (core owner : Nat) (rel : Option Scope) (l : Loc) : Aside (Machine.atomReady · core owner rel l) := by
  have released : Aside (fun s => if wideOpt rel then Machine.l1WriteBackAll s core else s) := ite (l1WriteBackAll core) same
  cases l with
  | scr uid off => exact released
  | mem pa ca =>
    exact (l2Touch owner (lineOf pa)).after ((readThrough ca pa).after ((l1Drop core (lineOf pa)).after
      ((wcOutRange core (lineOf pa) (lineOf pa + 256)).after released)))

end Aside

end Sys2Proof.Machine

/-! SUPPORT. What the passed atomics of other groups leave of a group's operations when they are performed, and of the stores of any group
(R263, R278). -/

namespace Sys2Proof.Machine

set_option Elab.async false

/-- Operation `n` is a store, or the second half of one, that has not left its FIFO. -/
def Halved (n : Nat) (s : State) : Prop := ∀ o ∈ s.ops, o.id = n → o.kind = .store 1

/-- `t` comes from `s` by effects of operations of groups other than `k`, and of no store. -/
structure Beyond (k : GKey) (s t : State) : Prop where
  kept : Kept s t
  own : t.ops.filter (fun o => o.grp = k) = s.ops.filter (fun o => o.grp = k)
  halves : ∀ n, Halved n s → Halved n t

theorem filter_updateIf_of_not {α : Type} {p q : α → Bool} {f : α → α} (hq : ∀ a, q (f a) = q a) {l : List α}
    (h : ∀ a ∈ l, p a = true → q a = false) : (updateIf p f l).filter q = l.filter q := by
  induction l with
  | nil => rfl
  | cons a l ih =>
    have rest := ih fun b hb => h b (List.mem_cons_of_mem _ hb)
    unfold updateIf at rest ⊢
    rw [List.map_cons, List.filter_cons, List.filter_cons, rest]
    by_cases hp : p a = true
    · have out := h a (List.mem_cons_self ..) hp
      simp [hp, hq, out]
    · simp [hp]

theorem filter_filter_of_imp {α : Type} {p q : α → Bool} {l : List α} (h : ∀ a ∈ l, q a = true → p a = true) :
    (l.filter p).filter q = l.filter q := by
  rw [List.filter_filter]
  refine List.filter_congr fun a ha => ?_
  cases hq : q a with
  | false => rfl
  | true => simpa using h a ha hq

theorem ops_clearPoisonFor (s : State) (bs : List StoreByte) : (clearPoisonFor s bs).ops = s.ops := by
  unfold clearPoisonFor
  split <;> rfl

/-- No two operations share an identity. -/
theorem Kept.op_unique {r s : State} (h : Kept r s) {a b : Op} (ha : a ∈ s.ops) (hb : b ∈ s.ops) (e : a.id = b.id) : a = b :=
  List.inj_on_of_nodup_map h.apart ha hb e

theorem mem_of_findOp {s : State} {id : Nat} {o : Op} (h : findOp s id = some o) : o ∈ s.ops ∧ o.id = id :=
  ⟨List.mem_of_find?_eq_some h, by simpa using List.find?_some h⟩

theorem mem_retired {s : State} {k : GKey} {cls : OpClass} {n : Nat} (h : n ∈ retired s k cls) :
    ∃ o ∈ s.ops, o.grp = k ∧ o.cls = cls ∧ o.id = n := by
  obtain ⟨o, ho, rfl⟩ := List.mem_map.mp h
  have listed := List.mem_filter.mp (List.mem_of_mem_take ho)
  simp only [Bool.and_eq_true, decide_eq_true_eq] at listed
  exact ⟨o, listed.1, listed.2.1, listed.2.2, rfl⟩

/-- The operations after one has ended: it is gone, or done and, with it, what now heads its class. -/
theorem ops_finishOp {s : State} {id : Nat} {o : Op} (found : findOp s id = some o) (via : List Via) : (finishOp s id via).ops =
    if o.cls = .none then s.ops.filter (fun x => x.id ≠ id)
    else (retireClass (updOp s id (fun x => { x with done := true })) o.grp o.cls).ops := by
  unfold finishOp
  rw [found]
  dsimp only
  cases o.hit <;> split <;> rfl

/-- The end of an operation changes of operations only which are listed and which are done. -/
theorem mem_finishOp {s : State} {id : Nat} {via : List Via} {o : Op} (h : o ∈ (finishOp s id via).ops) :
    ∃ o' ∈ s.ops, o'.id = o.id ∧ o'.kind = o.kind ∧ (o'.done = true → o.done = true) := by
  cases found : findOp s id with
  | none =>
    rw [finishOp, found] at h
    exact ⟨o, h, rfl, rfl, fun d => d⟩
  | some x =>
    rw [ops_finishOp found] at h
    split at h
    · exact ⟨o, (List.mem_filter.mp h).1, rfl, rfl, fun d => d⟩
    · obtain ⟨o', ho', rfl⟩ := List.mem_map.mp (List.mem_filter.mp h).1
      refine ⟨o', ho', ?_⟩
      split
      · exact ⟨rfl, rfl, fun _ => rfl⟩
      · exact ⟨rfl, rfl, fun d => d⟩

namespace Beyond

theorem refl {k : GKey} {s : State} (h : Kept s s) : Beyond k s s := ⟨h, rfl, fun _ h => h⟩

theorem trans {k : GKey} {s t u : State} (h : Beyond k s t) (h' : Beyond k t u) : Beyond k s u :=
  ⟨h.kept.trans h'.kept, h'.own.trans h.own, fun n hn => h'.halves n (h.halves n hn)⟩

section
variable {k k' : GKey} {s t : State} (h : Beyond k s t)
include h

theorem of_ops {u : State} (kept : Kept s u) (e : u.ops = t.ops) : Beyond k s u :=
  ⟨kept, e ▸ h.own, fun n hn => by
    unfold Halved
    rw [e]
    exact h.halves n hn⟩

/-- An operation of group `k` is what it was. -/
theorem findOp_eq {id : Nat} {o : Op} (found : findOp s id = some o) (grp : o.grp = k) : findOp t id = some o := by
  obtain ⟨mem, rfl⟩ := mem_of_findOp found
  have listed : o ∈ t.ops := by
    have : o ∈ t.ops.filter (fun o => o.grp = k) := h.own ▸ List.mem_filter.mpr ⟨mem, by simpa using grp⟩
    exact (List.mem_filter.mp this).1
  cases hx : findOp t o.id with
  | none => exact absurd (List.find?_eq_none.mp hx o listed) (by simp)
  | some x =>
    obtain ⟨mem', same⟩ := mem_of_findOp hx
    rw [h.kept.op_unique mem' listed same]

theorem after_updOp {id : Nat} {f : Op → Op} (own : Owns s k' id) (ne : k' ≠ k) (started : ¬ Halved id s)
    (hf : ∀ o, (f o).ident = o.ident := by exact fun _ => rfl) : Beyond k s (updOp t id f) := by
  have owned := h.kept.owns own
  refine ⟨updOp_kept h.kept hf, Eq.trans (filter_updateIf_of_not (fun o => ?_) fun o ho hid => ?_) h.own, fun n hn o ho hid => ?_⟩
  · rw [show (f o).grp = o.grp from congrArg Prod.snd (hf o)]
  · have grp := owned.2 o ho (by simpa using hid)
    simpa [grp] using ne
  · obtain ⟨o', ho', rfl⟩ := List.mem_map.mp ho
    by_cases same : o'.id = id
    · have e : (f o').id = o'.id := congrArg Prod.fst (hf o')
      rw [if_pos (by simpa using same), e, same] at hid
      exact absurd (hid ▸ hn) started
    · rw [if_neg (by simpa using same)] at hid ⊢
      exact h.halves n hn o' ho' hid

theorem after_finishOp {id : Nat} (via : List Via) (own : Owns s k' id) (ne : k' ≠ k) : Beyond k s (finishOp t id via) := by
  refine ⟨finishOp_kept h.kept, ?_, fun n hn o ho hid => ?_⟩
  · have owned := h.kept.owns own
    refine Eq.trans ?_ h.own
    cases found : findOp t id with
    | none => rw [finishOp, found]
    | some o =>
      obtain ⟨mem, oid⟩ := mem_of_findOp found
      have ogrp : o.grp = k' := owned.2 o mem oid
      rw [ops_finishOp found]
      split
      · refine filter_filter_of_imp fun x hx grp => ?_
        have other : x.id ≠ id := fun e => ne ((owned.2 x hx e).symm.trans (by simpa using grp))
        simpa using other
      · have kept : Kept s (updOp t id (fun x => { x with done := true })) := updOp_kept h.kept
        refine Eq.trans (filter_filter_of_imp fun x hx grp => ?_) (filter_updateIf_of_not (f := fun x : Op => { x with done := true }) (fun _ => rfl)
          fun x hx hid => ?_)
        · have out : x.id ∉ retired (updOp t id (fun x => { x with done := true })) o.grp o.cls := fun mem => by
            obtain ⟨y, hy, ygrp, -, yid⟩ := mem_retired mem
            obtain rfl := kept.op_unique hy hx yid
            exact ne ((ygrp.trans ogrp).symm.trans (by simpa using grp))
          simpa using out
        · have grp := owned.2 x hx (by simpa using hid)
          simpa [grp] using ne
  · obtain ⟨o', ho', sameId, sameKind, -⟩ := mem_finishOp ho
    rw [← sameKind]
    exact h.halves n hn o' ho' (sameId.trans hid)

/-! ### Collector operations -/

theorem after_collDrop (core id : Nat) : Beyond k s (collDrop t core id) := h.of_ops (collDrop_kept h.kept) rfl

theorem after_collPerform (base : Kept s s) (w : Wg) {o : Op} (mem : o ∈ s.ops) (ne : o.grp ≠ k) : Beyond k s (collPerform t w o) := by
  have own : Owns s o.grp o.id := ⟨base.ids o mem, fun x hx e => by rw [base.op_unique hx mem e]⟩
  have started {x : OpKind} (e : o.kind = x) (nx : x ≠ .store 1) : ¬ Halved o.id s := fun hn => nx (e ▸ hn o mem rfl)
  unfold collPerform
  split
  · next bs kind =>
    have written := h.of_ops (u := engineSetAll (clearPoisonFor t bs) (w.core / 4) w.owner bs)
      (engineSetAll_kept (clearPoisonFor_kept h.kept)) ((Aside.ops (.engineSetAll ..) _).trans (ops_clearPoisonFor t bs))
    exact (written.after_collDrop ..).after_finishOp _ own ne
  · next fills kind =>
    have touched := h.of_ops (u := touchHome t w.core w.owner (fills.filterMap (·.src))) (touchHome_kept h.kept)
      (Aside.ops (.touchHome ..) _)
    exact (touched.after_collDrop ..).after_updOp own ne (started kind nofun)
  · exact h

omit h in
theorem after_flushScats (h : Beyond k s t) (ne : k' ≠ k) (upto : Nat) : Beyond k s (flushScats t k' upto) := by
  unfold flushScats
  split
  · exact h
  · next w _ =>
    refine h.trans ?_
    rw [← List.foldl_attach]
    refine foldl_keeps (P := Beyond k t) (fun u o hu => ite_keeps hu ?_) (.refl h.kept.self)
    obtain ⟨mem, cond⟩ := List.mem_filter.mp o.2
    simp only [Bool.and_eq_true, beq_iff_eq] at cond
    exact hu.after_collPerform h.kept.self w mem fun e => ne (cond.1.1.symm.trans e)

/-! ### Atomics -/

theorem after_performReq (w : Wg) {op : Nat} {o : Op} {a : Atomic} (r : Nat) (own : Owns s k' op) (ne : k' ≠ k)
    (found : findOp t op = some o) (kind : o.kind = .atomic a) : Beyond k s (performReq t w op a r) := by
  have started : ¬ Halved op s := fun hn => by
    obtain ⟨mem, id⟩ := mem_of_findOp found
    exact absurd (kind.symm.trans (h.halves op hn o mem id)) nofun
  unfold performReq
  split
  · exact h
  · next q _ =>
    have ready : Aside (fun s => if q.sent then s else atomReady s w.core w.owner a.relScope q.loc) := .ite .same (.atomReady ..)
    have written (bs : List Byte) (m : List Byte) : Aside (fun s => (bs.mapIdx (fun i b => (⟨q.loc.plus i, b⟩ : StoreByte))).foldl
        (fun s b => l1Note s w.core w.owner b) (locSetBytes (if q.sent then s else atomReady s w.core w.owner a.relScope q.loc) w.owner q.loc m)) :=
      (Aside.foldl (fun b => .l1Note w.core w.owner b) _).after ((Aside.locSetBytes ..).after ready)
    refine (h.of_ops ?_ ((written _ _).ops t)).after_updOp own ne started
    exact foldl_kept (fun _ _ hs1 => l1Note_kept hs1) (locSetBytes_kept (ite_keeps h.kept (atomReady_kept h.kept)))

theorem after_atomicDone (w : Wg) {op : Nat} {a : Atomic} (own : Owns s k' op) (ne : k' ≠ k) (started : ¬ Halved op s) :
    Beyond k s (atomicDone t k' w op a) := by
  have taken : Beyond k s (updGroup t k' (fun g => { g with fifo := g.fifo.filter (fun e => e ≠ .atomic op) })) :=
    h.of_ops (updGroup_kept h.kept fun g => ⟨rfl, fun _ he => (List.mem_filter.1 he).1⟩) rfl
  have acquired : Beyond k s (if wideOpt a.acqScope then l1DropAll (updGroup t k' (fun g =>
      { g with fifo := g.fifo.filter (fun e => e ≠ .atomic op) })) w.core else updGroup t k' (fun g =>
      { g with fifo := g.fifo.filter (fun e => e ≠ .atomic op) })) :=
    ite_keeps (taken.of_ops (l1DropAll_kept taken.kept) (Aside.ops (.l1DropAll _) _)) taken
  unfold atomicDone
  dsimp only
  split
  · exact acquired.after_updOp own ne started
  · exact acquired.after_finishOp _ own ne

theorem after_atomicSettle (w : Wg) {op : Nat} (own : Owns s k' op) (ne : k' ≠ k) : Beyond k s (atomicSettle t k' w op) := by
  unfold atomicSettle
  split
  · next o found =>
    split
    · next a kind =>
      obtain ⟨mem, id⟩ := mem_of_findOp found
      exact ite_keeps (h.after_atomicDone w own ne fun hn => absurd (kind.symm.trans (h.halves op hn o mem id)) nofun) h
    · exact h
  · exact h

theorem after_performOne {op : Nat} (r : Nat) (own : Owns s k' op) (ne : k' ≠ k) : Beyond k s (performOne t op r) := by
  unfold performOne
  split
  · exact h
  · next o found =>
    split
    · next w a _ kind =>
      obtain ⟨mem, id⟩ := mem_of_findOp found
      rw [(h.kept.owns own).2 o mem id]
      exact ite_keeps ((h.after_performReq w r own ne found kind).after_atomicSettle w own ne) h
    · exact h

theorem after_performAll {op : Nat} (own : Owns s k' op) (ne : k' ≠ k) (n : Nat) : Beyond k s (performAll t op n) := by
  induction n with
  | zero => exact h
  | succ n ih => exact ih.after_performOne n own ne

theorem after_drainAtomic {op : Nat} (own : Owns s k' op) (ne : k' ≠ k) : Beyond k s (drainAtomic t k' op) :=
  (ite_keeps (h.after_flushScats ne op) h : Beyond k s (ite ..)).after_performAll own ne _

end

/-- The passed atomics of other groups are performed. -/
theorem settlePassed {k : GKey} {s : State} (h : Kept s s) (core : Nat) (ls : List Loc) : Beyond k s (settlePassed s core k ls) := by
  unfold Machine.settlePassed
  rw [← List.foldl_attach]
  refine foldl_keeps (P := Beyond k s) (fun t o ht => ?_) (.refl h)
  have ne : o.1.grp ≠ k := by
    have cond := (List.mem_filter.mp o.2).2
    simp only [Bool.and_eq_true, bne_iff_ne] at cond
    exact cond.1.2
  split
  · exact ht
  · next g found =>
    refine ht.trans ?_
    rw [← List.foldl_attach]
    refine foldl_keeps (P := Beyond k t) (fun u n hu => ?_) (.refl ht.kept.self)
    obtain ⟨e, mem, op⟩ := List.mem_map.mp (List.mem_filter.mp n.2).1
    exact hu.after_drainAtomic (op ▸ ht.kept.self.fifo_owned found mem) ne

end Beyond

end Sys2Proof.Machine

/-! SUPPORT. Events of loads, stores and atomics, and the settlement of O42 (R103, R139, R254–R256, R259, R263, R265). -/

namespace Sys2Proof.Machine

set_option Elab.async false

/-! ## Operations that end -/

/-- After its end nothing unfinished of an operation is left. -/
theorem finished_finishOp (s : State) (id : Nat) (via : List Via) : Claims.Finished (finishOp s id via) id := by
  intro o ho hid
  cases found : findOp s id with
  | none =>
    rw [finishOp, found] at ho
    exact absurd (List.find?_eq_none.mp found o ho) (by simp [hid])
  | some x =>
    rw [ops_finishOp found] at ho
    split at ho
    · exact absurd hid (by simpa using (List.mem_filter.mp ho).2)
    · obtain ⟨o', ho', rfl⟩ := List.mem_map.mp (List.mem_filter.mp ho).1
      by_cases same : o'.id = id
      · rw [if_pos (by simpa using same)]
      · rw [if_neg (by simpa using same)] at hid
        exact absurd hid same

/-- What is finished stays finished. -/
theorem Finished.after_finishOp {s : State} {n : Nat} (h : Claims.Finished s n) (id : Nat) (via : List Via) :
    Claims.Finished (finishOp s id via) n := by
  intro o ho hid
  obtain ⟨o', ho', sameId, -, done⟩ := mem_finishOp ho
  exact done (h o' ho' (sameId.trans hid))

theorem length_retireHead_le (l : List Op) : (retireHead l).length ≤ l.length := by
  induction l with
  | nil => exact Nat.le_refl _
  | cons o l ih =>
    unfold retireHead
    split
    · exact Nat.le_succ_of_le ih
    · exact Nat.le_refl _

/-- A class retires its head once that is done (R139). -/
theorem head_retired {s : State} {k : GKey} {cls : OpClass} {o : Op} {os : List Op} (h : classOps s k cls = o :: os) (done : o.done = true) :
    o.id ∈ retired s k cls := by
  have shorter := length_retireHead_le os
  unfold retired
  rw [h]
  simp only [retireHead, done, if_true, List.length_cons]
  rw [show os.length + 1 - (retireHead os).length = (os.length - (retireHead os).length) + 1 by omega, List.take_succ_cons]
  exact List.mem_cons_self ..

theorem classOps_updOp {s : State} {k : GKey} {cls : OpClass} {id : Nat} {f : Op → Op} (hf : ∀ o, (f o).grp = o.grp ∧ (f o).cls = o.cls) :
    classOps (updOp s id f) k cls = updateIf (fun o => o.id = id) f (classOps s k cls) := by
  unfold classOps updOp updateIf
  dsimp only
  rw [List.filter_map]
  congr 1
  refine List.filter_congr fun o _ => ?_
  show ((if _ then f o else o : Op).grp = _ && (if _ then f o else o : Op).cls = _ : Bool) = _
  split
  · rw [(hf o).1, (hf o).2]
  · rfl

/-- The operation that heads its class retires when it ends (R139). -/
theorem finishOp_gone {s : State} {id : Nat} {o : Op} (found : findOp s id = some o) (heads : headsClass s o = true) (via : List Via) :
    ∀ x ∈ (finishOp s id via).ops, x.id ≠ id := by
  intro x hx
  obtain ⟨-, oid⟩ := mem_of_findOp found
  rw [ops_finishOp found] at hx
  split at hx
  · exact by simpa using (List.mem_filter.mp hx).2
  · have first : id ∈ retired (updOp s id (fun x => { x with done := true })) o.grp o.cls := by
      unfold headsClass at heads
      split at heads
      · next y ys listed =>
        have yid : y.id = id := (by simpa using heads : y.id = o.id).trans oid
        have marked : classOps (updOp s id (fun x => { x with done := true })) o.grp o.cls =
            { y with done := true } :: updateIf (fun o => o.id = id) (fun x => { x with done := true }) ys := by
          rw [classOps_updOp (f := fun x : Op => { x with done := true }) (fun _ => ⟨rfl, rfl⟩), listed, updateIf, List.map_cons, if_pos (by simpa using yid)]
          rfl
        have first : y.id ∈ retired (updOp s id (fun x => { x with done := true })) o.grp o.cls :=
          head_retired (o := { y with done := true }) marked rfl
        rwa [yid] at first
      · cases heads
    rintro rfl
    simpa [first] using (List.mem_filter.mp hx).2

/-! ## What registers bring when they land -/

theorem memoryOnly_saveWords (s : State) (k : GKey) (fs : List Fill) : MemoryOnly s (saveWords s k fs) := by
  unfold saveWords
  split
  · rfl
  · exact MemoryOnly.foldl (fun _ _ => .ite (memoryOnly_ownSetBytes ..) rfl) _ s

/-- Registers that land leave operations and workgroups. -/
theorem landRegs_fields (s : State) (o : Op) (fs : List Fill) (bad : List (Nat × Nat)) :
    (landRegs s o fs bad).ops = s.ops ∧ (landRegs s o fs bad).wgs = s.wgs := by
  unfold landRegs
  split
  · exact ⟨rfl, rfl⟩
  · next g _ =>
    dsimp only
    generalize hu : (if (bad.filter fun p => o.lands g p.2).isEmpty then _ else _ : State) = u
    have fields : u.ops = s.ops ∧ u.wgs = s.wgs := by
      rw [← hu]
      unfold clearRegPoison
      split <;> split <;> exact ⟨rfl, rfl⟩
    have saved := memoryOnly_saveWords u o.grp ((fs.filter fun f => o.lands g f.reg).filter fun f => o.saves g f.reg)
    exact ⟨(congrArg State.ops saved :).trans fields.1, saved.wgs.trans fields.2⟩

theorem Landed.after_finishOp {t v : State} {o : Op} {g : Group} {fs : List Fill} (h : Claims.Landed t v o g fs) (id : Nat) (via : List Via) :
    Claims.Landed (finishOp t id via) v o g fs := by
  obtain ⟨_, _, e⟩ := finishOp_eq t id via
  rw [e]
  exact ⟨h.group, h.saved⟩

/-! ## Events -/

theorem ends_of_event {i : Instr} {s t : State} {name : String} {r : Option State} {post : State → Prop} (hx : exec i s = eventOf name r)
    (hr : r = some t) (h : post t) : Claims.Ends i s post := ⟨t, by rw [hx, hr]; rfl, h⟩

theorem findOp_congr {s t : State} (h : t.ops = s.ops) (id : Nat) : findOp t id = findOp s id := by
  unfold findOp
  rw [h]

theorem headsClass_congr {s t : State} (h : t.ops = s.ops) (o : Op) : headsClass t o = headsClass s o := by
  unfold headsClass classOps
  rw [h]

/-- A load writes its registers and retires (R103, R139). -/
theorem load_landed {s : State} {id : Nat} {o : Op} {g : Group} (fs : List Fill) (bad : List (Nat × Nat)) (found : findOp s id = some o)
    (heads : headsClass s o = true) (hg : findGroup s o.grp = some g) :
    Claims.Landed (finishOp (landRegs s o fs bad) id []) s o g fs ∧ (finishOp (landRegs s o fs bad) id []).wgs = s.wgs ∧
      ∀ x ∈ (finishOp (landRegs s o fs bad) id []).ops, x.id ≠ id := by
  obtain ⟨ops, wgs⟩ := landRegs_fields s o fs bad
  refine ⟨Landed.after_finishOp (landRegs_landed fs bad hg) id [], ?_,
    finishOp_gone ((findOp_congr ops id).trans found) ((headsClass_congr ops o).trans heads) []⟩
  obtain ⟨_, _, e⟩ := finishOp_eq (landRegs s o fs bad) id []
  rw [e]
  exact wgs

theorem completeLoad_eq {s : State} {id : Nat} {o : Op} {fs : List Fill} (found : findOp s id = some o) (kind : o.kind = .load fs)
    (undone : o.done = false) (heads : headsClass s o = true) : completeLoad s id = some (finishOp (landRegs s o fs []) id []) := by
  unfold completeLoad
  rw [found]
  dsimp only
  rw [kind]
  simp [undone, heads]

/-! ## Stores that leave the FIFO -/

theorem storeHalf_eq (s : State) (op : Nat) : ∃ os hs, storeHalf s op = { s with ops := os, hits := hs } := by
  unfold storeHalf
  split
  · split
    · split
      · exact finishOp_eq ..
      · exact ⟨_, _, rfl⟩
    · exact ⟨s.ops, s.hits, rfl⟩
  · exact ⟨s.ops, s.hits, rfl⟩

theorem storeHalves_eq (ids : List Nat) (s : State) : ∃ os hs, ids.foldl storeHalf s = { s with ops := os, hits := hs } := by
  induction ids generalizing s with
  | nil => exact ⟨s.ops, s.hits, rfl⟩
  | cons n ids ih =>
    obtain ⟨_, _, e⟩ := storeHalf_eq s n
    obtain ⟨os, hs, e'⟩ := ih (storeHalf s n)
    exact ⟨os, hs, by rw [List.foldl_cons, e', e]⟩

/-- A store that has left its FIFO changes operations and hits alone. -/
theorem storeLeft_eq (s : State) (op : Nat) : ∃ os hs, storeLeft s op = { s with ops := os, hits := hs } := by
  unfold storeLeft
  split
  · split
    · next ids _ =>
      obtain ⟨_, _, e⟩ := finishOp_eq s op []
      obtain ⟨os, hs, e'⟩ := storeHalves_eq ids (finishOp s op [])
      exact ⟨os, hs, by rw [e', e]⟩
    · exact storeHalf_eq ..
  · exact ⟨s.ops, s.hits, rfl⟩

theorem Finished.after_storeHalf {s : State} {n : Nat} (h : Claims.Finished s n) (m : Nat) : Claims.Finished (storeHalf s m) n := by
  unfold storeHalf
  split
  · split
    · split
      · exact Finished.after_finishOp h m []
      · intro o ho hid
        obtain ⟨o', ho', rfl⟩ := List.mem_map.mp ho
        by_cases same : o'.id = m
        · rw [if_pos (by simpa using same)] at hid ⊢
          exact h o' ho' hid
        · rw [if_neg (by simpa using same)] at hid ⊢
          exact h o' ho' hid
    · exact h
  · exact h

theorem Halved.after_finishOp {s : State} {n : Nat} (h : Halved n s) (m : Nat) (via : List Via) : Halved n (finishOp s m via) := by
  intro o ho hid
  obtain ⟨o', ho', sameId, sameKind, -⟩ := mem_finishOp ho
  exact sameKind.symm.trans (h o' ho' (sameId.trans hid))

theorem Halved.after_storeHalf {s : State} {n : Nat} (h : Halved n s) (m : Nat) : Halved n (storeHalf s m) := by
  unfold storeHalf
  split
  · next x found =>
    split
    · next j kind =>
      split
      · exact h.after_finishOp m []
      · next many =>
        intro o ho hid
        obtain ⟨o', ho', rfl⟩ := List.mem_map.mp ho
        by_cases same : o'.id = m
        · rw [if_pos (by simpa using same)] at hid
          obtain ⟨mem, xid⟩ := mem_of_findOp found
          have one : OpKind.store j = .store 1 := kind.symm.trans (h x mem (xid.trans (same.symm.trans hid)))
          exact absurd (OpKind.store.inj one).le many
        · rw [if_neg (by simpa using same)] at hid ⊢
          exact h o' ho' hid
    · exact h
  · exact h

/-- A store with nothing more to write than what has left is finished. -/
theorem Halved.finished_storeHalf {s : State} {n : Nat} (h : Halved n s) : Claims.Finished (storeHalf s n) n := by
  cases found : findOp s n with
  | none =>
    intro o ho hid
    rw [storeHalf, found] at ho
    exact absurd (List.find?_eq_none.mp found o ho) (by simp [hid])
  | some o =>
    obtain ⟨mem, oid⟩ := mem_of_findOp found
    have e : storeHalf s n = finishOp s n [] := by
      unfold storeHalf
      rw [found]
      dsimp only
      rw [h o mem oid]
      rfl
    exact e ▸ finished_finishOp s n []

theorem finished_storeHalves {s : State} {n : Nat} {ids : List Nat} (h : Halved n s) (mem : n ∈ ids) :
    Claims.Finished (ids.foldl storeHalf s) n := by
  induction ids generalizing s with
  | nil => cases mem
  | cons m ids ih =>
    rcases List.mem_cons.mp mem with rfl | mem
    · rw [List.foldl_cons]
      exact foldl_keeps (P := (Claims.Finished · n)) (fun _ _ h => Finished.after_storeHalf h _) h.finished_storeHalf
    · exact ih (h.after_storeHalf m) mem

theorem storeLeft_of_store {s : State} {op : Nat} {o : Op} (found : findOp s op = some o) (kind : o.kind = .store 1) :
    storeLeft s op = finishOp s op [] := by
  unfold storeLeft storeHalf
  rw [found]
  dsimp only
  rw [kind]
  rfl

theorem storeLeft_of_second {s : State} {op : Nat} {o : Op} {ids : List Nat} (found : findOp s op = some o) (kind : o.kind = .second ids) :
    storeLeft s op = ids.foldl storeHalf (finishOp s op []) := by
  unfold storeLeft
  rw [found]
  dsimp only
  rw [kind]

/-- The operations of a store that has left its FIFO (R104, R259). -/
theorem finished_storeLeft {s : State} {op : Nat} {o : Op} (found : findOp s op = some o) :
    (o.kind = .store 1 → Claims.Finished (storeLeft s op) op) ∧
    (∀ ids, o.kind = .second ids → Claims.Finished (storeLeft s op) op ∧ ∀ n ∈ ids, Halved n s → Claims.Finished (storeLeft s op) n) := by
  refine ⟨fun kind => ?_, fun ids kind => ?_⟩
  · exact storeLeft_of_store found kind ▸ finished_finishOp s op []
  · rw [storeLeft_of_second found kind]
    exact ⟨foldl_keeps (P := (Claims.Finished · op)) (fun _ _ h => Finished.after_storeHalf h _) (finished_finishOp s op []),
      fun n mem halved => finished_storeHalves (halved.after_finishOp op []) mem⟩

theorem l2TouchAll_eq (owner : Nat) (ls : List Nat) (s : State) : ∃ l, l2TouchAll s owner ls = { s with l2 := l } := by
  unfold l2TouchAll
  induction ls generalizing s with
  | nil => exact ⟨s.l2, rfl⟩
  | cons l ls ih =>
    obtain ⟨m, e⟩ := ih (l2Touch s owner l)
    exact ⟨m, by rw [List.foldl_cons, e]; rfl⟩

/-- The memory that an entry of a FIFO leaves: L1 without its lines and the write-combining buffer with its bytes; the home after the
write-back of L1; or L1 and scratchpad (R254, R256, R270). -/
theorem memAs_entryOut (s : State) (k : GKey) (w : Wg) (op : Nat) (nt : Bool) (rel : Option Scope) (bs : List StoreByte) :
    (nt = true → Claims.MemAs (entryOut s k w op nt rel bs) (let u := (memLines bs).foldl (fun s l => l1Drop s w.core l) s
      setCore u w.core { coreOf u w.core with wc := (coreOf u w.core).wc ++ [⟨k, op, w.owner, bs⟩] })) ∧
    (nt = false → wideOpt rel = false → Claims.MemAs (entryOut s k w op nt rel bs) (bs.foldl (fun s b => storeByteOut s w.core w.owner b) s)) ∧
    (nt = false → wideOpt rel = true →
      Claims.MemAs (entryOut s k w op nt rel bs) (bs.foldl (fun s b => releaseByteOut s w.core w.owner b) (l1WriteBackAll s w.core))) := by
  refine ⟨?_, ?_, ?_⟩
  · rintro rfl
    exact ⟨rfl, rfl, rfl, rfl, rfl⟩
  · rintro rfl wide
    simp only [entryOut, wide, Bool.false_eq_true, if_false]
    exact ⟨rfl, rfl, rfl, rfl, rfl⟩
  · rintro rfl wide
    simp only [entryOut, wide, Bool.false_eq_true, if_false, if_true]
    obtain ⟨l, e⟩ := l2TouchAll_eq w.owner (memLines bs)
      (bs.foldl (fun s b => releaseByteOut s w.core w.owner b) (l1WriteBackAll s w.core))
    rw [e]
    exact ⟨rfl, rfl, rfl, rfl, rfl⟩

theorem MemAs.trans {s t u : State} (h : Claims.MemAs s t) (h' : Claims.MemAs t u) : Claims.MemAs s u :=
  ⟨h.1.trans h'.1, h.2.1.trans h'.2.1, h.2.2.1.trans h'.2.2.1, h.2.2.2.1.trans h'.2.2.2.1, h.2.2.2.2.trans h'.2.2.2.2⟩

/-- The store at the head of a FIFO leaves it. -/
theorem retireStore_eq {s : State} {k : GKey} {g : Group} {w : Wg} {op : Nat} {nt : Bool} {rel : Option Scope} {bs : List StoreByte}
    {rest : List FifoEntry} (hg : findGroup s k = some g) (hw : findWg s k.wg = some w) (head : g.fifo = .store op nt rel bs :: rest)
    (free : scatBlocks s k (.store op nt rel bs) = false) {v : State} (hv : settlePassed s w.core k (bs.map (·.loc)) = v) :
    retireStore s k = some (storeLeft ((entryOut v k w op nt rel bs).beside (updGroup v k (fun g => { g with fifo := rest })).groups
      v.poison v.ops) op) := by
  rw [← (Aside.entryOut k w op nt rel bs).beside, ← hv]
  unfold retireStore
  rw [hg, hw]
  dsimp only
  rw [head]
  dsimp only
  rw [free]
  rfl

/-! ## The write-combining buffer (R256) -/

/-- The write-combining buffer of a core is that of `s`, and the cores are listed in canonical form. -/
def BufferAs (core : Nat) (s t : State) : Prop := mapWf Core.empty t.cores = true ∧ (coreOf t core).wc = (coreOf s core).wc

theorem BufferAs.of_cores {core : Nat} {s t u : State} (h : BufferAs core s t) (e : u.cores = t.cores) : BufferAs core s u := by
  unfold BufferAs
  rw [e, coreOf_congr e]
  exact h

theorem BufferAs.after_wcByteOut {core : Nat} {s t : State} (h : BufferAs core s t) (owner : Nat) (b : StoreByte) :
    BufferAs core s (wcByteOut t core owner b) := by
  unfold wcByteOut
  split
  · exact h
  · next pa ca _ =>
    have written : BufferAs core s (homeSet t (keyOr t owner) ca pa b.val) := h.of_cores (congrArg State.cores (memoryOnly_homeSet ..) :)
    unfold l1Note
    split
    · exact written
    · obtain ⟨canon, same⟩ := written
      refine ⟨mapWf_mapSet core _ canon, Eq.trans ?_ same⟩
      unfold updL1
      rw [coreOf_setCore canon]

theorem Loc.same_comm (a b : Loc) : a.same b = b.same a := by
  cases a <;> cases b <;> simp [Loc.same, Bool.beq_comm]

/-- A non-temporal store that no older one of the same byte holds back is written. -/
theorem writeNt_eq {s : State} {core idx : Nat} {e : WcEntry} (found : (coreOf s core).wc[idx]? = some e)
    (apart : ∀ o ∈ (coreOf s core).wc.take idx, ∀ b ∈ o.bytes, ∀ x ∈ e.bytes, b.loc.same x.loc = false) :
    writeNt s core idx = some (wcEntryOut s core e) := by
  have free : ((coreOf s core).wc.take idx).any e.overlaps = false := by
    refine List.any_eq_false.mpr fun o ho => ?_
    simp only [WcEntry.overlaps, List.any_eq_true, not_exists, not_and, Bool.not_eq_true]
    exact fun x hx b hb => (Loc.same_comm ..).trans (apart o ho b hb x hx)
  unfold writeNt
  rw [found]
  dsimp only
  rw [free]
  rfl

/-- An entry of the write-combining buffer is written at its home and leaves the buffer. -/
theorem wcEntryOut_written {s : State} (canon : mapWf Core.empty s.cores = true) (core : Nat) (e : WcEntry) :
    (coreOf (wcEntryOut s core e) core).wc = (coreOf s core).wc.filter (fun x => x ≠ e) ∧
      Claims.HomeAs (wcEntryOut s core e) (e.bytes.foldl (fun s b => wcByteOut s core e.owner b) s) := by
  have out : BufferAs core s (e.bytes.foldl (fun s b => wcByteOut s core e.owner b) s) :=
    foldl_keeps (fun _ _ h => h.after_wcByteOut ..) ⟨canon, rfl⟩
  obtain ⟨l, touched⟩ := l2TouchAll_eq e.owner (memLines e.bytes) (e.bytes.foldl (fun s b => wcByteOut s core e.owner b) s)
  have left : BufferAs core s (l2TouchAll (e.bytes.foldl (fun s b => wcByteOut s core e.owner b) s) e.owner (memLines e.bytes)) :=
    out.of_cores (congrArg State.cores touched :)
  refine ⟨?_, homeAs_l2TouchAll ..⟩
  unfold wcEntryOut
  rw [coreOf_setCore left.1]
  exact congrArg (List.filter _) left.2

/-! ## Atomics (R263, R265) -/

theorem setAt_eq_set {α : Type} (l : List α) (n : Nat) (a : α) : setAt l n a = l.set n a := by
  induction l generalizing n with
  | nil => cases n <;> rfl
  | cons x l ih =>
    cases n with
    | zero => rfl
    | succ n => exact congrArg (x :: ·) (ih n)

/-- Serial execution leaves what the lanes make of the value one after another. -/
theorem atomSerial_final (k : AtomKind) (w : Nat) (ls : List AtomLane) (m : Nat) : (atomSerial k w m ls).2 = ls.foldl (atomApply k w) m := by
  induction ls generalizing m with
  | nil => rfl
  | cons l ls ih => rw [atomSerial, List.foldl_cons, ← ih]

/-- And gives each lane what those before it have left. -/
theorem atomSerial_olds (k : AtomKind) (w : Nat) (ls : List AtomLane) (m : Nat) : (atomSerial k w m ls).1 =
    (List.range ls.length).map (fun n => ((ls.getD n ⟨0, 0, 0⟩).lane, (ls.take n).foldl (atomApply k w) m)) := by
  induction ls generalizing m with
  | nil => rfl
  | cons l ls ih =>
    simp only [atomSerial, ih, List.length_cons, List.range_succ_eq_map, List.map_cons, List.map_map, Function.comp_def,
      List.getD_cons_zero, List.getD_cons_succ, List.take_zero, List.take_succ_cons, List.foldl_nil, List.foldl_cons]

/-- The atomics that stand before an operation in a FIFO are others. -/
theorem atomicsBefore_ne {s : State} {op : Nat} {es : List FifoEntry} {before : List (Nat × Atomic)} (h : atomicsBefore s op es = some before) :
    ∀ p ∈ before, p.1 ≠ op := by
  induction es generalizing before with
  | nil => cases h
  | cons e es ih =>
    cases e with
    | store => cases h
    | atomic n =>
      rw [atomicsBefore] at h
      split at h
      · cases h
        exact fun _ hp => absurd hp List.not_mem_nil
      · next other =>
        split at h
        · obtain ⟨rest, hrest, rfl⟩ := Option.map_eq_some_iff.mp h
          intro p hp
          rcases List.mem_cons.mp hp with rfl | hp
          · exact other
          · exact ih hrest p hp
        · cases h

/-- The home before a request of an atomic is performed (R255, R265). -/
def requestReady (core owner : Nat) (a : Atomic) (q : AtomReq) (s : State) : State :=
  if q.sent then s else atomReady s core owner a.relScope q.loc

/-- The value that a request of an atomic finds. -/
def requestValue (owner : Nat) (a : Atomic) (q : AtomReq) (s : State) : Nat := ofBytes (locBytes s owner q.loc a.width)

/-- The home, and the core's copy of it, with the result of a request that finds a value (R255, R263). -/
def requestResult (core owner : Nat) (a : Atomic) (q : AtomReq) (m : Nat) (s : State) : State :=
  let out := leBytes a.width (q.lanes.foldl (atomApply a.kind a.width) m)
  (out.mapIdx (fun i b => (⟨q.loc.plus i, b⟩ : StoreByte))).foldl (fun s b => l1Note s core owner b) (locSetBytes s owner q.loc out)

/-- A request of an atomic is performed at its home. -/
def requestPerform (core owner : Nat) (a : Atomic) (q : AtomReq) (s : State) : State :=
  requestResult core owner a q (requestValue owner a q (requestReady core owner a q s)) (requestReady core owner a q s)

theorem Aside.requestReady (core owner : Nat) (a : Atomic) (q : AtomReq) : Aside (Machine.requestReady core owner a q) :=
  .ite .same (.atomReady ..)

theorem requestValue_beside (owner : Nat) (a : Atomic) (q : AtomReq) (s : State) (gs : List Group) (ps : List PoisonLoc) (os : List Op) :
    requestValue owner a q (s.beside gs ps os) = requestValue owner a q s := by
  unfold requestValue locBytes
  cases q.loc <;> rfl

theorem Aside.requestPerform (core owner : Nat) (a : Atomic) (q : AtomReq) : Aside (Machine.requestPerform core owner a q) := by
  have result (m : Nat) : Aside (requestResult core owner a q m) := (Aside.foldl (fun b => .l1Note core owner b) _).after (.locSetBytes ..)
  exact (Aside.reading (x := requestValue owner a q) (f := requestResult core owner a q) result (requestValue_beside owner a q)).after
    (.requestReady ..)

/-- The atomic with a request performed, and the registers that its lanes get. -/
def Atomic.performed (a : Atomic) (r : Nat) (q : AtomReq) (m : Nat) : Atomic :=
  { a with
    reqs := a.reqs.set r { q with done := true }
    fills := a.fills ++ (match a.dest with
      | none => []
      | some d => ((List.range q.lanes.length).map (fun n =>
          oldFills d a.width ((q.lanes.getD n ⟨0, 0, 0⟩).lane) ((q.lanes.take n).foldl (atomApply a.kind a.width) m))).flatten) }

theorem performReq_eq {a : Atomic} {r : Nat} {q : AtomReq} (hq : a.reqs[r]? = some q) (s : State) (w : Wg) (op : Nat) :
    performReq s w op a r = updOp (requestPerform w.core w.owner a q s) op (fun o =>
      { o with kind := .atomic (a.performed r q (requestValue w.owner a q (requestReady w.core w.owner a q s))) }) := by
  unfold performReq
  rw [hq]
  dsimp only
  rw [atomSerial_final, atomSerial_olds, setAt_eq_set]
  refine congrArg (updOp _ op) (funext fun o => ?_)
  unfold Atomic.performed
  cases a.dest with
  | none => rfl
  | some d =>
    dsimp only
    rw [List.flatMap_def, List.map_map]
    rfl

/-- An atomic that is no wide acquire changes nothing of memory when its last request is performed (R267). -/
theorem memAs_atomicSettle {s : State} {k : GKey} {w : Wg} {op : Nat} {o : Op} {a : Atomic} (found : findOp s op = some o)
    (kind : o.kind = .atomic a) (narrow : wideOpt a.acqScope = false) : Claims.MemAs (atomicSettle s k w op) s := by
  have done : Claims.MemAs (atomicDone s k w op a) s := by
    unfold atomicDone
    rw [narrow]
    dsimp only
    split
    · exact ⟨rfl, rfl, rfl, rfl, rfl⟩
    · obtain ⟨_, _, e⟩ := finishOp_eq (updGroup s k (fun g => { g with fifo := g.fifo.filter (fun e => e ≠ .atomic op) })) op []
      rw [if_neg Bool.false_ne_true, e]
      exact ⟨rfl, rfl, rfl, rfl, rfl⟩
  unfold atomicSettle
  rw [found]
  dsimp only
  rw [kind]
  dsimp only
  split
  · exact done
  · exact ⟨rfl, rfl, rfl, rfl, rfl⟩

/-- An atomic with a request still to perform stays in its FIFO. -/
theorem atomicSettle_of_pending {s : State} {k : GKey} {w : Wg} {op : Nat} {o : Op} {a : Atomic} (found : findOp s op = some o)
    (kind : o.kind = .atomic a) (pending : ∃ q ∈ a.reqs, q.done = false) : atomicSettle s k w op = s := by
  obtain ⟨q, mem, undone⟩ := pending
  have more : a.reqs.all (·.done) = false := List.all_eq_false.mpr ⟨q, mem, by simp [undone]⟩
  unfold atomicSettle
  rw [found]
  dsimp only
  rw [kind]
  simp [more]

theorem performOne_eq {s : State} {op r : Nat} {o : Op} {w : Wg} {a : Atomic} {q : AtomReq} (found : findOp s op = some o)
    (hw : findWg s o.grp.wg = some w) (kind : o.kind = .atomic a) (hq : a.reqs[r]? = some q) (undone : q.done = false) :
    performOne s op r = atomicSettle (performReq s w op a r) o.grp w op := by
  unfold performOne
  rw [found]
  dsimp only
  rw [hw, kind]
  simp [hq, undone]

/-- The locations that a request of an atomic reaches, and those of the atomics that it passes. -/
def requestLocs (a : Atomic) (q : AtomReq) (before : List (Nat × Atomic)) : List Loc :=
  q.locs a.width ++ before.flatMap (fun p => p.2.reqs.flatMap (fun x => x.locs p.2.width))

/-- A request of an atomic whose turn has come, once the passed atomics that it must follow are performed. -/
theorem performAtomic_eq {s : State} {op r : Nat} {o : Op} {g : Group} {w : Wg} {a : Atomic} {q : AtomReq} {before : List (Nat × Atomic)}
    (found : findOp s op = some o) (hg : findGroup s o.grp = some g) (hw : findWg s o.grp.wg = some w) (kind : o.kind = .atomic a)
    (turn : atomicsBefore s op g.fifo = some before) (hq : a.reqs[r]? = some q) (undone : q.done = false)
    (pass : before = [] ∨ mayPass a q before = true) (free : ∀ p ∈ (op, a) :: before, scatBlocks s o.grp (.atomic p.1) = false) :
    performAtomic s op r = some (performOne (markPassed (settlePassed s w.core o.grp (requestLocs a q before))
      (before.map (·.1)) (if a.relScope.isSome then q.locs a.width else [])) op r) := by
  have passes : mayPass a q before = true := by
    rcases pass with rfl | pass
    · rfl
    · exact pass
  have unblocked : ((op, a) :: before).all (fun p => !scatBlocks s o.grp (.atomic p.1)) = true :=
    List.all_eq_true.mpr fun p hp => by rw [free p hp]; rfl
  have taken : atomTurn s op r = some ⟨w, o.grp, a, q, before⟩ := by
    unfold atomTurn
    rw [found]
    dsimp only
    rw [hg, hw, kind]
    dsimp only
    rw [turn, hq]
    dsimp only
    rw [passes, undone, unblocked]
    rfl
  unfold performAtomic
  rw [taken]
  rfl

/-- Operations that a mark does not name are as they were. -/
theorem findOp_markPassed {s : State} {op : Nat} {ids : List Nat} {gates : List Loc} (out : op ∉ ids) :
    findOp (markPassed s ids gates) op = findOp s op := by
  have found := find_updateIf (fun o : Op => o.id = op) (fun o => ids.contains o.id)
    (fun o => { o with kind := match o.kind with | .atomic a => .atomic { a with passed := true, gates := a.gates ++ gates } | x => x })
    s.ops (fun _ => rfl)
  refine Eq.trans found ?_
  show (findOp s op).map _ = _
  cases h : findOp s op with
  | none => rfl
  | some o =>
    obtain ⟨-, oid⟩ := mem_of_findOp h
    have no : ¬ ids.contains o.id = true := by simpa [oid] using out
    rw [Option.map_some, if_neg no]

/-- The request that has its turn is performed: `v` is the state once the passed atomics are. -/
theorem performOne_marked {s v : State} {op r : Nat} {o : Op} {w : Wg} {a : Atomic} {q : AtomReq} {ids : List Nat} {gates : List Loc}
    (beyond : Beyond o.grp s v) (drained : DrainFrame s v) (found : findOp s op = some o) (undone : o.done = false)
    (hw : findWg s o.grp.wg = some w) (kind : o.kind = .atomic a) (hq : a.reqs[r]? = some q) (open_ : q.done = false) (out : op ∉ ids) :
    (wideOpt a.acqScope = false → Claims.MemAs (performOne (markPassed v ids gates) op r) (requestPerform w.core w.owner a q v)) ∧
    ((∃ i p, i ≠ r ∧ a.reqs[i]? = some p ∧ p.done = false) → Claims.Stage (performOne (markPassed v ids gates) op r) op
      (.atomic (a.performed r q (requestValue w.owner a q (requestReady w.core w.owner a q v))))) := by
  obtain ⟨w', hw', same⟩ := drained.wg hw
  have core : w'.core = w.core := (congrArg Wg.core same :)
  have owner : w'.owner = w.owner := (congrArg Wg.owner same :)
  have found' : findOp (markPassed v ids gates) op = some o := (findOp_markPassed out).trans (beyond.findOp_eq found rfl)
  obtain ⟨os, marked⟩ : ∃ os, markPassed v ids gates = v.beside v.groups v.poison os := ⟨_, rfl⟩
  have one := performOne_eq (r := r) found' hw' kind hq open_
  rw [performReq_eq hq, core, owner, marked, (Aside.requestPerform ..).beside, (Aside.requestReady ..).beside, requestValue_beside] at one
  rw [marked] at found' ⊢
  have listed : findOp ((requestPerform w.core w.owner a q v).beside v.groups v.poison os) op = some o :=
    (findOp_congr (s := v.beside v.groups v.poison os) rfl op).trans found'
  have found'' := findOp_updOp (f := fun o : Op =>
    { o with kind := .atomic (a.performed r q (requestValue w.owner a q (requestReady w.core w.owner a q v))) }) (fun _ => rfl) listed
  rw [one]
  refine ⟨fun narrow => MemAs.trans (memAs_atomicSettle found'' rfl narrow) ⟨rfl, rfl, rfl, rfl, rfl⟩, fun ⟨i, p, ne, hp, pending⟩ => ?_⟩
  have waits : p ∈ (a.performed r q (requestValue w.owner a q (requestReady w.core w.owner a q v))).reqs :=
    List.mem_of_getElem? (i := i) (by rw [Atomic.performed, List.getElem?_set_ne ne.symm, hp])
  rw [atomicSettle_of_pending found'' rfl ⟨p, waits, pending⟩]
  exact ⟨_, found'', rfl, undone⟩

end Sys2Proof.Machine

namespace Sys2Proof.Proofs

open Sys2Proof.Machine

/-- Settles O42: loads by what their landing leaves; a store by the state in which the passed atomics have been performed, which leaves the
operations of its group and all stores as they were, and by its memory, which depends on no group and no operation; an atomic likewise. -/
theorem fifoAndLoadEvents : Obligations.FifoAndLoadEvents := by
  unfold Obligations.FifoAndLoadEvents
  refine ⟨fun s id o fills g found kind undone heads hg => ?_, fun s k g w op nt rel bs rest canon hg hw head free => ?_,
    fun s core idx e canon found apart => ?_, fun s op o g w a r q before canon found undone hg hw kind turn hq open_ pass free => ?_⟩
  · exact ends_of_event rfl (completeLoad_eq found kind undone heads) (load_landed fills [] found heads hg)
  · intro v
    have beyond : Beyond k s v := .settlePassed canon.kept ..
    have drained : DrainFrame s v := (DrainFrame.refl s).after_settlePassed ..
    have owned : Owns s k op := canon.kept.fifo_owned hg (e := .store op nt rel bs) (head ▸ List.mem_cons_self ..)
    obtain ⟨gv, hgv, same⟩ := drained.group hg
    obtain ⟨os, hs, left⟩ := storeLeft_eq ((entryOut v k w op nt rel bs).beside (updGroup v k (fun g => { g with fifo := rest })).groups
      v.poison v.ops) op
    obtain ⟨held, plain, wide⟩ := memAs_entryOut v k w op nt rel bs
    have memory : Claims.MemAs (storeLeft ((entryOut v k w op nt rel bs).beside (updGroup v k (fun g => { g with fifo := rest })).groups
      v.poison v.ops) op) (entryOut v k w op nt rel bs) := by
      rw [left]
      exact ⟨rfl, rfl, rfl, rfl, rfl⟩
    have finished {o : Op} (found : findOp s op = some o) := finished_storeLeft (s := (entryOut v k w op nt rel bs).beside
      (updGroup v k (fun g => { g with fifo := rest })).groups v.poison v.ops)
      ((findOp_congr (s := v) rfl op).trans (beyond.findOp_eq found (owned.2 o (mem_of_findOp found).1 (mem_of_findOp found).2)))
    refine ends_of_event rfl (retireStore_eq hg hw head free rfl) ⟨?_, fun e => MemAs.trans memory (held e),
      fun e e' => MemAs.trans memory (plain e e'), fun e e' => MemAs.trans memory (wide e e'), fun o found => (finished found).1,
      fun o ids found kind => ?_⟩
    · refine ⟨{ gv with fifo := rest }, ?_, rfl, (congrArg Group.lanes same :), (congrArg Group.s same :)⟩
      rw [left]
      exact findGroup_updGroup_self (s := v) _ (fun _ => rfl) hgv
    · obtain ⟨own, others⟩ := (finished found).2 ids kind
      refine ⟨own, fun n mem x hx xkind => others n mem (beyond.halves n fun y hy yid => ?_)⟩
      obtain ⟨xmem, xid⟩ := mem_of_findOp hx
      rw [canon.kept.op_unique hy xmem (yid.trans xid.symm), xkind]
  · exact ends_of_event rfl (writeNt_eq found apart) (wcEntryOut_written canon.cores core e)
  · have beyond : Beyond o.grp s (settlePassed s w.core o.grp (requestLocs a q before)) := .settlePassed canon.kept ..
    have drained : DrainFrame s (settlePassed s w.core o.grp (requestLocs a q before)) := (DrainFrame.refl s).after_settlePassed ..
    have apart : op ∉ before.map (·.1) := fun mem => by
      obtain ⟨p, hp, e⟩ := List.mem_map.mp mem
      exact atomicsBefore_ne turn p hp e
    obtain ⟨memory, stage⟩ := performOne_marked (gates := if a.relScope.isSome then q.locs a.width else []) beyond drained found undone hw
      kind hq open_ apart
    refine ends_of_event rfl (performAtomic_eq found hg hw kind turn hq open_ pass free) ?_
    intro ls v u m after out
    have all : out = leBytes a.width (q.lanes.foldl (atomApply a.kind a.width) m) :=
      congrArg (fun ls => leBytes a.width (ls.foldl (atomApply a.kind a.width) m)) List.take_length
    refine ⟨fun narrow => ?_, fun more => ⟨_, stage more, rfl, rfl⟩⟩
    rw [all]
    exact memory narrow

end Sys2Proof.Proofs

/-! SUPPORT. A sector of a copy at its receiver (R116, R121, R127, R129). -/

namespace Sys2Proof.Machine

set_option Elab.async false

/-! ## Reads past a core's L1 change memory, its caches and cores alone -/

theorem fillFrame_wcEntryOut (s : State) (core : Nat) (e : WcEntry) : FillFrame s (wcEntryOut s core e) := by
  have byte (s : State) (b : StoreByte) : FillFrame s (wcByteOut s core e.owner b) := by
    unfold wcByteOut
    split
    · rfl
    · next pa ca _ =>
      have noted (t : State) : FillFrame t (l1Note t core e.owner b) := by
        unfold l1Note
        split <;> rfl
      exact (fillFrame_homeSet s (keyOr s e.owner) ca pa b.val).trans (noted _)
  exact ((FillFrame.foldl byte e.bytes s).trans (fillFrame_l2TouchAll ..)).trans rfl

theorem fillFrame_wcOutRange (s : State) (core lo hi : Nat) : FillFrame s (wcOutRange s core lo hi) :=
  .foldl (f := fun s e => wcEntryOut s core e) (fun s e => fillFrame_wcEntryOut s core e) _ s

theorem fillFrame_touchHome (s : State) (core owner : Nat) (ls : List Loc) : FillFrame s (touchHome s core owner ls) := by
  have mended : FillFrame s (l1Mend s core ls) := FillFrame.foldl (f := fun s pa => updL1 s core
    (fun l => l.base = lineOf pa && bit l.torn (pa % 256 / 16)) (fun l =>
      { l.freshen s pa 16 with torn := setBits l.torn (pa % 256 / 16) (pa % 256 / 16) 0 })) (fun _ _ => rfl) _ s
  refine mended.trans (FillFrame.foldl (fun t p => ?_) _ _)
  have left : FillFrame (wcOutRange t core p.1 (p.1 + 256)) (match l1Find (coreOf (wcOutRange t core p.1 (p.1 + 256)) core) p.1 with
      | some l => if l.owner = owner then wcOutRange t core p.1 (p.1 + 256) else l1Drop (wcOutRange t core p.1 (p.1 + 256)) core p.1
      | none => wcOutRange t core p.1 (p.1 + 256)) := by
    split
    · split
      · rfl
      · exact fillFrame_l1Drop ..
    · rfl
  exact (((fillFrame_wcOutRange ..).trans left).trans (readFrame_readThrough _ p.2 p.1).fill).trans (fillFrame_l2Touch ..)

/-! ## Barriers of a receiver -/

/-- An update of a barrier changes the scratchpad of its workgroup and what the BWAITs on it have seen. -/
theorem barUpdate_eq (s : State) (uid off : Nat) (f : Bar → Bar) : ∃ ws gs, barUpdate s uid off f = { s with wgs := ws, groups := gs } := by
  have written (l : List (Nat × Byte)) (s : State) : ∃ ws, l.foldl (fun s p => scratchSet s uid (off + p.1) p.2) s = { s with wgs := ws } := by
    induction l generalizing s with
    | nil => exact ⟨s.wgs, rfl⟩
    | cons p l ih =>
      obtain ⟨ws, e⟩ := ih (scratchSet s uid (off + p.1) p.2)
      exact ⟨ws, by rw [List.foldl_cons, e]; rfl⟩
  obtain ⟨ws, e⟩ := written ((leBytes 16 (f (barGet s uid off)).toNat).mapIdx (fun i b => (i, b))) s
  unfold barUpdate barPut locSetBytes
  dsimp only
  rw [e]
  exact ⟨_, _, rfl⟩

theorem wgs_regrouped (u : State) (gs : List Group) : ({ u with groups := gs } : State).wgs = u.wgs := rfl

theorem wgs_barPut (s : State) (uid off : Nat) (b : Bar) :
    (barPut s uid off b).wgs = (locSetBytes s 0 (.scr uid off) (leBytes 16 b.toNat)).wgs := by
  unfold barPut
  exact wgs_regrouped _ _

theorem DrainFrame.after_barUpdate {s t : State} (h : DrainFrame s t) (uid off : Nat) (f : Bar → Bar) : DrainFrame s (barUpdate t uid off f) := by
  unfold barUpdate barPut
  generalize leBytes 16 (f (barGet t uid off)).toNat = bs
  have written := h.after_locSetBytes 0 (.scr uid off) bs
  exact ⟨(map_updateIf (fun _ => by rfl) ..).trans written.groups, written.wgs⟩

theorem landQuads_iterate (s : State) (uid bar n : Nat) : (landQuads s uid bar n).1 = (fun a => barUpdate a uid bar barLand)^[n] s := by
  induction n with
  | zero => rfl
  | succ n ih =>
    rw [Function.iterate_succ_apply', ← ih]
    rfl

/-- Quads that land change scratchpads and what BWAITs have seen. -/
theorem landIterate_eq (uid bar n : Nat) (s : State) :
    ∃ ws gs, (fun a => barUpdate a uid bar barLand)^[n] s = { s with wgs := ws, groups := gs } := by
  induction n generalizing s with
  | zero => exact ⟨s.wgs, s.groups, rfl⟩
  | succ n ih =>
    obtain ⟨_, _, e⟩ := barUpdate_eq s uid bar barLand
    obtain ⟨ws, gs, e'⟩ := ih (barUpdate s uid bar barLand)
    exact ⟨ws, gs, by rw [Function.iterate_succ_apply, e', e]⟩

theorem DrainFrame.after_landIterate {s t : State} (h : DrainFrame s t) (uid bar n : Nat) :
    DrainFrame s ((fun a => barUpdate a uid bar barLand)^[n] t) := by
  induction n generalizing t with
  | zero => exact h
  | succ n ih => exact ih (h.after_barUpdate uid bar barLand)

/-! ## Workgroups but for the presence of their lines -/

/-- A workgroup with all its lines present. -/
def Wg.present (w : Wg) : Wg := { w with absent := [] }

/-- The workgroups of `t` are those of `s` but for the presence of lines. -/
def PresentAs (s t : State) : Prop := t.wgs.map Wg.present = s.wgs.map Wg.present

theorem PresentAs.of_wgs {s t : State} (h : t.wgs = s.wgs) : PresentAs s t := congrArg _ h

namespace PresentAs

section
variable {s t : State} (h : PresentAs s t)
include h

theorem findWg (uid : Nat) : (findWg t uid).map Wg.present = (findWg s uid).map Wg.present :=
  find_of_map_eq (v := Wg.present) (p := fun w => w.uid = uid) (fun _ => rfl) h

theorem scratch (uid : Nat) : Claims.ScratchAs t s uid := by
  have e := congrArg (Option.map Wg.scratch) (h.findWg uid)
  rw [Option.map_map, Option.map_map] at e
  exact e

theorem scratchByte (uid off : Nat) : Machine.scratchByte t uid off = Machine.scratchByte s uid off := by
  have e : (Machine.findWg t uid).map Wg.scratch = (Machine.findWg s uid).map Wg.scratch := h.scratch uid
  unfold Machine.scratchByte
  cases ht : Machine.findWg t uid <;> cases hs : Machine.findWg s uid <;> rw [ht, hs] at e
  · cases e
  · cases e
  · exact congrArg (fun m => mapGet 0 m off) (Option.some.inj e)

theorem scratchSet (uid off : Nat) (b : Byte) : PresentAs (Machine.scratchSet s uid off b) (Machine.scratchSet t uid off b) := by
  have pushed (ws : List Wg) : (updateIf (fun w : Wg => w.uid = uid) (fun w => { w with scratch := mapSet 0 w.scratch off b }) ws).map
      Wg.present = updateIf (fun w => w.uid = uid) (fun w => { w with scratch := mapSet 0 w.scratch off b }) (ws.map Wg.present) := by
    unfold updateIf
    rw [List.map_map, List.map_map]
    refine List.map_congr_left fun w _ => ?_
    show Wg.present (if _ then _ else _) = if _ then _ else _
    rw [apply_ite Wg.present]
    rfl
  exact (pushed t.wgs).trans ((congrArg _ h).trans (pushed s.wgs).symm)

theorem scratchBytes (uid off : Nat) (bs : List Byte) :
    PresentAs (locSetBytes s 0 (.scr uid off) bs) (locSetBytes t 0 (.scr uid off) bs) := by
  unfold locSetBytes
  dsimp only
  generalize bs.mapIdx (fun i b => (i, b)) = ps
  induction ps generalizing s t with
  | nil => exact h
  | cons p ps ih =>
    rw [List.foldl_cons, List.foldl_cons]
    exact ih (h.scratchSet uid (off + p.1) p.2)

theorem barUpdate (uid off : Nat) (f : Bar → Bar) : PresentAs (Machine.barUpdate s uid off f) (Machine.barUpdate t uid off f) := by
  have bar : barGet t uid off = barGet s uid off := by simp only [barGet, h.scratchByte]
  unfold PresentAs Machine.barUpdate
  rw [wgs_barPut, wgs_barPut, bar]
  exact h.scratchBytes uid off _

end

theorem landIterate {s t : State} (h : PresentAs s t) (uid bar n : Nat) :
    PresentAs ((fun a => Machine.barUpdate a uid bar barLand)^[n] s) ((fun a => Machine.barUpdate a uid bar barLand)^[n] t) := by
  induction n generalizing s t with
  | zero => exact h
  | succ n ih => exact ih (h.barUpdate uid bar barLand)

end PresentAs

theorem findWg_updWg_self {s : State} {uid : Nat} {w : Wg} {f : Wg → Wg} (hf : ∀ w, (f w).uid = w.uid) (hw : findWg s uid = some w) :
    findWg (updWg s uid f) uid = some (f w) := by
  have self : w.uid = uid := by simpa using List.find?_some hw
  have found := find_updateIf (fun w : Wg => w.uid = uid) (fun w => w.uid = uid) f s.wgs (fun w => by rw [hf])
  rw [show s.wgs.find? (fun w => w.uid = uid) = some w from hw, Option.map_some, if_pos (by simpa using self)] at found
  exact found

/-- Of some lines of a workgroup those are present again that no operation still holds (R126). -/
theorem findWg_restorePresence {t : State} {uid : Nat} {y : Wg} (h : findWg t uid = some y) (lines : List Nat) :
    ∃ y', findWg (restorePresence t uid lines) uid = some y' ∧ y'.status = y.status ∧
      ∀ l, l ∈ y'.absent ↔ l ∈ y.absent ∧ (l ∈ lines → t.ops.any (opHolds uid l) = true) := by
  refine ⟨_, findWg_updWg_self (fun _ => rfl) h, rfl, fun l => List.mem_filter.trans (and_congr_right fun _ => ?_)⟩
  rw [Bool.not_eq_true', ← Bool.not_eq_true, List.contains_iff_mem, List.mem_filter, Bool.not_eq_true', not_and, Bool.not_eq_false]

/-! ## The sectors of a copy that has landed one -/

/-- Sectors as far as lines wait for them: whether they have landed, where they go and what they write there. -/
def Sector.awaited (x : Sector) : Bool × Nat × List Quad := (x.landed, x.target, x.quads)

/-- The copy with one sector landed. -/
def CopyOp.withLanded (cp : CopyOp) (n : Nat) : CopyOp :=
  { cp with sectors := cp.sectors.modify n (fun z => { z with landed := true }) }

section
variable (cp : CopyOp) (n : Nat) (x : Sector) (data : List (List Byte)) (sats : List (Nat × Nat)) (satd : Bool)

/-- Binding data for other receivers changes nothing that lines wait for. -/
theorem awaited_bindPart : (bindPart cp n x data sats satd).sectors.map Sector.awaited = (cp.withLanded n).sectors.map Sector.awaited := by
  refine List.ext_getElem? fun i => ?_
  simp only [bindPart, CopyOp.withLanded, List.getElem?_map, List.getElem?_mapIdx, List.getElem?_modify]
  cases cp.sectors[i]? with
  | none => rfl
  | some y =>
    simp only [Option.map_some, eq_comm (a := n)]
    by_cases hi : i = n <;> by_cases hp : (y.part == x.part && x.trailer.isNone) = true <;> simp [hi, hp, Sector.awaited]

theorem landed_bindPart (h : cp.sectors[n]? = some x) :
    ∃ z, (bindPart cp n x data sats satd).sectors[n]? = some z ∧ z.landed = true := by
  refine ⟨_, by rw [bindPart, List.getElem?_mapIdx, h, Option.map_some, if_pos rfl], rfl⟩

theorem opHolds_of_awaited {a b : CopyOp} (h : a.sectors.map Sector.awaited = b.sectors.map Sector.awaited) (uid line : Nat) (o : Op) :
    opHolds uid line { o with kind := .copy a } = opHolds uid line { o with kind := .copy b } := by
  have view (c : CopyOp) : opHolds uid line { o with kind := .copy c } =
      (c.sectors.map Sector.awaited).any (fun y => !y.1 && y.2.1 == uid && (quadLines y.2.2).contains line) := by
    rw [List.any_map]
    rfl
  rw [view, view, h]

/-- The lines of a workgroup that operations still hold once the copy has landed its sector. -/
theorem holds_after_bindPart (ops : List Op) (id uid line : Nat) :
    (updateIf (fun o : Op => o.id = id) (fun o => { o with kind := .copy (bindPart cp n x data sats satd) }) ops).any (opHolds uid line) = true ↔
      ∃ o ∈ ops, opHolds uid line (if o.id = id then { o with kind := .copy (cp.withLanded n) } else o) = true := by
  rw [updateIf, List.any_map, List.any_eq_true]
  refine exists_congr fun o => and_congr_right fun _ => ?_
  rw [Function.comp_apply]
  by_cases same : o.id = id
  · rw [if_pos (by simpa using same), if_pos same, opHolds_of_awaited (awaited_bindPart ..)]
  · rw [if_neg (by simpa using same), if_neg same]

end

/-! ## A sector that is written at its receiver -/

/-- The bytes of a sector stand at its receiver, with the poison of what it has read and the error bit of a saturated element. -/
def sectorWritten (s : State) (w : Wg) (cp : CopyOp) (x : Sector) (data : List (List Byte)) (satd : Bool) : State :=
  let bs := sectorBytes x data
  let u := engineSetAll (clearPoisonFor s bs) (w.core / 4) w.owner bs
  let u := if x.trailer.isSome then u else poisonLocs u (quadSrcs cp.src cp.cvt x.quads) (bs.map (·.loc))
  if satd then barUpdate u x.target cp.bar (barFlag errSat) else u

/-- The same with its lines present again and its quads landed at the barrier. -/
def sectorLanded (s : State) (w : Wg) (cp : CopyOp) (x : Sector) (data : List (List Byte)) (satd : Bool) : State :=
  (fun a => barUpdate a x.target cp.bar barLand)^[x.quads.length]
    (restorePresence (sectorWritten s w cp x data satd) x.target (quadLines x.quads))

section
variable (s : State) (w : Wg) (cp : CopyOp) (x : Sector) (data : List (List Byte)) (satd : Bool)

theorem writeSector_eq : (writeSector s w cp x data satd).1 =
    syncLines (sectorLanded s w cp x data satd) x.target (cp.bar / 128 :: quadLines x.quads) := by
  unfold sectorLanded
  rw [← landQuads_iterate]
  rfl

theorem poisonLocs_eq (s : State) (src dst : List Loc) : ∃ ps, poisonLocs s src dst = { s with poison := ps } := by
  unfold poisonLocs
  split
  · exact ⟨_, rfl⟩
  · exact ⟨s.poison, rfl⟩

theorem clearPoisonFor_eq (s : State) (bs : List StoreByte) : ∃ ps, clearPoisonFor s bs = { s with poison := ps } := by
  unfold clearPoisonFor
  split
  · exact ⟨s.poison, rfl⟩
  · exact ⟨_, rfl⟩

/-- The bytes of the sector beside any groups, notes of poison and operations. -/
theorem sectorBytes_written (v : State) (os : List Op) (bs : List StoreByte) (b : Bool) (src dst : List Loc) (cl owner : Nat) : ∃ ps,
    (if b then engineSetAll (clearPoisonFor (v.beside v.groups v.poison os) bs) cl owner bs
      else poisonLocs (engineSetAll (clearPoisonFor (v.beside v.groups v.poison os) bs) cl owner bs) src dst) =
        (engineSetAll v cl owner bs).beside v.groups ps os := by
  obtain ⟨ps, e⟩ := clearPoisonFor_eq (v.beside v.groups v.poison os) bs
  have set : engineSetAll (clearPoisonFor (v.beside v.groups v.poison os) bs) cl owner bs =
      (engineSetAll v cl owner bs).beside v.groups ps os := by
    rw [e]
    exact (Aside.engineSetAll ..).beside v v.groups ps os
  rw [set]
  split
  · exact ⟨ps, rfl⟩
  · obtain ⟨ps', e'⟩ := poisonLocs_eq ((engineSetAll v cl owner bs).beside v.groups ps os) src dst
    exact ⟨ps', e'⟩

end

/-! ### What it leaves, from the state in which its bytes are read -/

section
variable {v : State} {os : List Op} {w : Wg} {cp : CopyOp} {x : Sector} {data : List (List Byte)} {satd : Bool} {u : State}
  (hu : engineSetAll v (w.core / 4) w.owner (sectorBytes x data) = u)
include hu

theorem sectorWritten_fields : ∃ ps gs ws, sectorWritten (v.beside v.groups v.poison os) w cp x data satd =
      { u with groups := gs, poison := ps, ops := os, wgs := ws } ∧
    ws = (if satd then barUpdate u x.target cp.bar (barFlag 4) else u).wgs := by
  obtain ⟨ps, e⟩ := sectorBytes_written v os (sectorBytes x data) x.trailer.isSome (quadSrcs cp.src cp.cvt x.quads)
    ((sectorBytes x data).map (·.loc)) (w.core / 4) w.owner
  unfold sectorWritten
  dsimp only
  rw [e, hu]
  cases satd with
  | false => exact ⟨ps, v.groups, u.wgs, rfl, rfl⟩
  | true =>
    obtain ⟨ws, gs, e'⟩ := barUpdate_eq (u.beside v.groups ps os) x.target cp.bar (barFlag errSat)
    have same := wgs_barUpdate_congr (s := u) (t := u.beside v.groups ps os) rfl x.target cp.bar (barFlag errSat)
    refine ⟨ps, gs, ws, e', ?_⟩
    rw [if_pos rfl]
    exact (congrArg State.wgs e').symm.trans same

theorem sectorLanded_fields : ∃ ps gs ws, sectorLanded (v.beside v.groups v.poison os) w cp x data satd =
      { u with groups := gs, poison := ps, ops := os, wgs := ws } := by
  obtain ⟨ps, gs, ws, e, -⟩ := sectorWritten_fields (os := os) (cp := cp) (satd := satd) hu
  unfold sectorLanded
  obtain ⟨ws', gs', e'⟩ := landIterate_eq x.target cp.bar x.quads.length
    (restorePresence (sectorWritten (v.beside v.groups v.poison os) w cp x data satd) x.target (quadLines x.quads))
  rw [e', e]
  exact ⟨ps, gs', ws', rfl⟩

/-- The scratchpads: the quads have landed at the barrier, after the error bit of a saturated element. -/
theorem sectorLanded_scratch : PresentAs ((fun a => barUpdate a x.target cp.bar barLand)^[x.quads.length]
      (if satd then barUpdate u x.target cp.bar (barFlag 4) else u)) (sectorLanded (v.beside v.groups v.poison os) w cp x data satd) := by
  obtain ⟨ps, gs, ws, e, same⟩ := sectorWritten_fields (os := os) (cp := cp) (satd := satd) hu
  have wgs : (sectorWritten (v.beside v.groups v.poison os) w cp x data satd).wgs =
      (if satd then barUpdate u x.target cp.bar (barFlag 4) else u).wgs := by rw [e, same]
  exact PresentAs.landIterate (Eq.trans (map_updateIf (fun _ => by rfl) ..) (PresentAs.of_wgs wgs)) x.target cp.bar x.quads.length

omit hu in
theorem sectorWritten_drain (s : State) : DrainFrame s (sectorWritten s w cp x data satd) := by
  have bytes := ((DrainFrame.refl s).memoryOnly (memoryOnly_clearPoisonFor s (sectorBytes x data))).after_engineSetAll (w.core / 4) w.owner
    (sectorBytes x data)
  unfold sectorWritten
  dsimp only
  generalize hz : (if x.trailer.isSome then _ else _ : State) = z
  have noted : DrainFrame s z := by
    rw [← hz]
    obtain ⟨ps, e⟩ := poisonLocs_eq (engineSetAll (clearPoisonFor s (sectorBytes x data)) (w.core / 4) w.owner (sectorBytes x data))
      (quadSrcs cp.src cp.cvt x.quads) ((sectorBytes x data).map (·.loc))
    exact ite_keeps bytes (e ▸ bytes.congr rfl rfl)
  exact ite_keeps (noted.after_barUpdate ..) noted

/-- The receiver: its status is as it was, and of its lines those are present again that no operation still holds. -/
theorem sectorLanded_wg {y : Wg} (hy : findWg v x.target = some y) :
    ∃ y', findWg (sectorLanded (v.beside v.groups v.poison os) w cp x data satd) x.target = some y' ∧ y'.status = y.status ∧
      ∀ l, l ∈ y'.absent ↔ l ∈ y.absent ∧ (l ∈ quadLines x.quads → os.any (opHolds x.target l) = true) := by
  obtain ⟨ps, gs, ws, e, -⟩ := sectorWritten_fields (os := os) (cp := cp) (satd := satd) hu
  have ops : (sectorWritten (v.beside v.groups v.poison os) w cp x data satd).ops = os := by rw [e]
  have written : DrainFrame (v.beside v.groups v.poison os) (sectorWritten (v.beside v.groups v.poison os) w cp x data satd) :=
    sectorWritten_drain _
  obtain ⟨y₁, hy₁, same₁⟩ := written.wg (show findWg (v.beside v.groups v.poison os) x.target = some y from hy)
  obtain ⟨y₂, hy₂, status₂, absent₂⟩ := findWg_restorePresence hy₁ (quadLines x.quads)
  obtain ⟨y₃, hy₃, same₃⟩ := ((DrainFrame.refl _).after_landIterate x.target cp.bar x.quads.length).wg hy₂
  have status₁ : y₁.status = y.status := (congrArg Wg.status same₁ :)
  have absent₁ : y₁.absent = y.absent := (congrArg Wg.absent same₁ :)
  have status₃ : y₃.status = y₂.status := (congrArg Wg.status same₃ :)
  have absent₃ : y₃.absent = y₂.absent := (congrArg Wg.absent same₃ :)
  exact ⟨y₃, hy₃, (status₃.trans status₂).trans status₁, fun l => by rw [absent₃, absent₂, absent₁, ops]⟩

omit hu in
theorem syncLines_of_not_saved {s : State} {uid : Nat} {y : Wg} (h : findWg s uid = some y) (ne : y.status ≠ .saved) (ls : List Nat) :
    syncLines s uid ls = s := by
  unfold syncLines
  rw [h]
  dsimp only
  rw [if_neg ne]

end

/-! ## COPY_SECTOR_LAND -/

/-- The state in which the bytes of a sector are read: that of its issue, its lines read past the core's L1 where they are not bound. -/
def sectorRead (s : State) (w : Wg) (cp : CopyOp) (x : Sector) : State :=
  if x.trailer = none ∧ x.bound = [] then touchHome s w.core w.owner (quadSrcs cp.src cp.cvt x.quads) else s

theorem fillFrame_sectorRead (s : State) (w : Wg) (cp : CopyOp) (x : Sector) : FillFrame s (sectorRead s w cp x) := by
  unfold sectorRead
  split
  · exact fillFrame_touchHome ..
  · rfl

theorem sectorRead_wgs (s : State) (w : Wg) (cp : CopyOp) (x : Sector) : (sectorRead s w cp x).wgs = s.wgs :=
  (congrArg State.wgs (fillFrame_sectorRead s w cp x) :)

theorem sectorRead_ops (s : State) (w : Wg) (cp : CopyOp) (x : Sector) : (sectorRead s w cp x).ops = s.ops :=
  (congrArg State.ops (fillFrame_sectorRead s w cp x) :)

/-- An operation is this copy from now on. -/
def copyAs (v : State) (id : Nat) (cp : CopyOp) : State := updOp v id (fun o => { o with kind := .copy cp })

/-- What is left of the event once the sector has its data: it is dropped and counted where its receiver is gone (R121). -/
def sectorTo (v : State) (id : Nat) (w : Wg) (cp : CopyOp) (x : Sector) (data : List (List Byte)) (satd : Bool) : State :=
  match findWg v x.target with
  | none => setCluster (copyAs v id cp) (w.core / 4) { clusterOf v (w.core / 4) with drops := (clusterOf v (w.core / 4)).drops + 1 }
  | some _ =>
      let r := writeSector (copyAs v id cp) w cp x data satd
      copyAs r.1 id { cp with vias := dedup (cp.vias ++ r.2) }

theorem landSector_eq {s : State} {id n : Nat} {o : Op} {cp : CopyOp} {g : Group} {w : Wg} {ln : Launch} {x : Sector}
    (found : findOp s id = some o) (kind : o.kind = .copy cp) (ctx : findCtx s o.grp = some (g, w, ln)) (sector : cp.sectors[n]? = some x)
    (ready : sectorReady s o cp x = true) {v : State} (hv : sectorRead s w cp x = v) {d : List (List Byte) × List (Nat × Nat)}
    (hd : sectorData v w.core ln cp x = d) :
    landSector s id n = some (copyEnd (sectorTo v id w (bindPart cp n x d.1 d.2 (x.satd || !d.2.isEmpty)) x d.1
      (x.satd || !d.2.isEmpty)) id) := by
  have read : (if (x.trailer.isNone && x.bound.isEmpty) = true then touchHome s w.core w.owner (quadSrcs cp.src cp.cvt x.quads) else s) = v := by
    rw [← hv]
    exact if_congr (by simp) rfl rfl
  unfold landSector sectorTo
  rw [found]
  dsimp only
  rw [kind, ctx]
  dsimp only
  rw [sector]
  dsimp only
  rw [if_pos ready, read, hd]
  show (match findWg v x.target with | none => _ | some _ => _) = _
  cases findWg v x.target <;> rfl

end Sys2Proof.Machine

/-! SUPPORT. The event of a sector of a copy (R116, R121, R127, R129). -/

namespace Sys2Proof.Machine

set_option Elab.async false

/-! ## The copy after its sector -/

/-- The end of a copy changes of operations only which are listed and which are done. -/
theorem mem_copyEnd {s : State} {id : Nat} {o : Op} (h : o ∈ (copyEnd s id).ops) : ∃ o' ∈ s.ops, o'.id = o.id ∧ o'.kind = o.kind := by
  have kept : o ∈ s.ops → ∃ o' ∈ s.ops, o'.id = o.id ∧ o'.kind = o.kind := fun h => ⟨o, h, rfl, rfl⟩
  unfold copyEnd at h
  split at h
  · split at h
    · split at h
      · obtain ⟨o', ho', id', kind', -⟩ := mem_finishOp h
        exact ⟨o', ho', id', kind'⟩
      · exact kept h
    · exact kept h
  · exact kept h

theorem kind_of_copyAs {s : State} {id : Nat} {cp : CopyOp} {o : Op} (h : o ∈ (copyAs s id cp).ops) (same : o.id = id) :
    o.kind = .copy cp := by
  obtain ⟨o', -, rfl⟩ := List.mem_map.mp h
  by_cases same' : o'.id = id
  · rw [if_pos (by simpa using same')]
  · rw [if_neg (by simpa using same')] at same
    exact absurd same same'

section
variable (v : State) (id : Nat) (w : Wg) (cp : CopyOp) (x : Sector) (data : List (List Byte)) (satd : Bool)

/-- The copy has landed its sector, unless it is gone with it. -/
theorem kind_copyEnd_sectorTo {y : Op} (h : y ∈ (copyEnd (sectorTo v id w cp x data satd) id).ops) (same : y.id = id) :
    ∃ cp', y.kind = .copy cp' ∧ cp'.sectors = cp.sectors := by
  obtain ⟨y', hy', id', kind'⟩ := mem_copyEnd h
  rw [← kind']
  unfold sectorTo at hy'
  dsimp only at hy'
  split at hy'
  · exact ⟨cp, kind_of_copyAs hy' (id'.trans same), rfl⟩
  · exact ⟨_, kind_of_copyAs hy' (id'.trans same), rfl⟩

end

/-! ## The receiver is gone -/

theorem clusterOf_setCluster {s : State} (h : mapWf Cluster.empty s.clusters = true) (i : Nat) (c : Cluster) :
    clusterOf (setCluster s i c) i = c := by
  unfold clusterOf setCluster
  rw [mapGet_mapSet _ _ _ h, if_pos rfl]

theorem sectorTo_gone {v : State} {x : Sector} (gone : findWg v x.target = none) (canon : mapWf Cluster.empty v.clusters = true) (id : Nat)
    (w : Wg) (cp : CopyOp) (data : List (List Byte)) (satd : Bool) {t : State} (ht : copyEnd (sectorTo v id w cp x data satd) id = t) :
    (clusterOf t (w.core / 4)).drops = (clusterOf v (w.core / 4)).drops + 1 ∧ Claims.HomeAs t v ∧ t.wgs = v.wgs := by
  obtain ⟨os, hs, e⟩ := copyEnd_eq (sectorTo v id w cp x data satd) id
  rw [← ht, e]
  unfold sectorTo
  rw [gone]
  dsimp only
  refine ⟨?_, ⟨rfl, rfl, rfl⟩, rfl⟩
  exact congrArg Cluster.drops (clusterOf_setCluster canon ..)

/-! ## The receiver is there -/

section
variable {v : State} {id : Nat} {w : Wg} {cp : CopyOp} {x : Sector} {y : Wg} {data : List (List Byte)} {satd : Bool} {u t : State}
  (here : findWg v x.target = some y) (hu : engineSetAll v (w.core / 4) w.owner (sectorBytes x data) = u)
  (ht : copyEnd (sectorTo v id w cp x data satd) id = t)
include here ht

/-- The event leaves its sector landed at the receiver, and what a saved receiver's image takes of it. -/
theorem sectorTo_here : ∃ os hs, t = { syncLines (sectorLanded (copyAs v id cp) w cp x data satd) x.target
    (cp.bar / 128 :: quadLines x.quads) with ops := os, hits := hs } := by
  obtain ⟨os, hs, e⟩ := copyEnd_eq (sectorTo v id w cp x data satd) id
  rw [← ht, e, ← writeSector_eq]
  unfold sectorTo
  rw [here]
  exact ⟨os, hs, rfl⟩

theorem sectorTo_wgs : t.wgs = (sectorLanded (copyAs v id cp) w cp x data satd).wgs := by
  obtain ⟨os, hs, e⟩ := sectorTo_here here ht
  rw [e]
  exact (memoryOnly_syncLines ..).wgs

include hu

/-- Memory takes the bytes of the sector. -/
theorem sectorTo_home (ne : y.status ≠ .saved) : Claims.HomeAs t u ∧ t.cores = u.cores := by
  obtain ⟨os, hs, e⟩ := sectorTo_here here ht
  obtain ⟨y', hy', status, -⟩ := sectorLanded_wg (os := (copyAs v id cp).ops) (cp := cp) (satd := satd) hu here
  obtain ⟨ps, gs, ws, fields⟩ := sectorLanded_fields (os := (copyAs v id cp).ops) (cp := cp) (satd := satd) hu
  have kept : syncLines (sectorLanded (copyAs v id cp) w cp x data satd) x.target (cp.bar / 128 :: quadLines x.quads) =
      { u with groups := gs, poison := ps, ops := (copyAs v id cp).ops, wgs := ws } :=
    (syncLines_of_not_saved hy' (status ▸ ne) _).trans fields
  rw [e, kept]
  exact ⟨⟨rfl, rfl, rfl⟩, rfl⟩

theorem sectorTo_scratch : Claims.ScratchAs t ((fun a => barUpdate a x.target cp.bar barLand)^[x.quads.length]
    (if satd then barUpdate u x.target cp.bar (barFlag 4) else u)) x.target := by
  have landed := (sectorLanded_scratch (os := (copyAs v id cp).ops) (cp := cp) (satd := satd) hu).scratch x.target
  have found := findWg_congr (sectorTo_wgs here ht)
  unfold Claims.ScratchAs
  rw [found]
  exact landed

theorem sectorTo_wg : Claims.WgIs t x.target (fun y' => ∀ l, l ∈ y'.absent ↔ l ∈ y.absent ∧
    (l ∈ quadLines x.quads → (copyAs v id cp).ops.any (opHolds x.target l) = true)) := by
  obtain ⟨y', hy', -, absent⟩ := sectorLanded_wg (os := (copyAs v id cp).ops) (cp := cp) (satd := satd) hu here
  exact ⟨y', (findWg_congr (sectorTo_wgs here ht) x.target).trans hy', absent⟩

end

/-! ## COPY_SECTOR_LAND -/

theorem saturated_iff (x : Sector) (sats : List (Nat × Nat)) : (x.satd || !sats.isEmpty) = true ↔ x.satd = true ∨ sats ≠ [] := by simp

/-- A sector lands at its receiver, or is dropped and counted where that is gone (R116, R121, R127, R129). -/
theorem copySectorLand_ends {s : State} {id : Nat} {o : Op} {cp : CopyOp} {g : Group} {w : Wg} {ln : Launch} {n : Nat} {x : Sector}
    (canon : Canon s) (found : findOp s id = some o) (kind : o.kind = .copy cp) (ctx : findCtx s o.grp = some (g, w, ln))
    (sector : cp.sectors[n]? = some x) (ready : sectorReady s o cp x = true) {v : State} (hv : sectorRead s w cp x = v)
    {d : List (List Byte) × List (Nat × Nat)} (hd : sectorData v w.core ln cp x = d) {u : State}
    (hu : engineSetAll v (w.core / 4) w.owner (sectorBytes x d.1) = u) :
    Claims.Ends (.copySectorLand id n) s (fun t =>
      (∀ y ∈ t.ops, y.id = id → y.done = false → ∃ cp', y.kind = .copy cp' ∧ ∃ z, cp'.sectors[n]? = some z ∧ z.landed = true) ∧
      (findWg s x.target = none → (clusterOf t (w.core / 4)).drops = (clusterOf s (w.core / 4)).drops + 1 ∧
        Claims.HomeAs t v ∧ t.wgs = s.wgs) ∧
      (∀ y, findWg s x.target = some y → (y.status ≠ .saved → Claims.HomeAs t u ∧ t.cores = u.cores) ∧
        Claims.ScratchAs t ((fun a => barUpdate a x.target cp.bar barLand)^[x.quads.length]
          (if x.satd = true ∨ d.2 ≠ [] then barUpdate u x.target cp.bar (barFlag 4) else u)) x.target ∧
        Claims.WgIs t x.target (fun y' => ∀ l, l ∈ y'.absent ↔ l ∈ y.absent ∧ (l ∈ quadLines x.quads → ∃ o' ∈ s.ops,
          opHolds x.target l (if o'.id = id then { o' with kind := .copy (cp.withLanded n) } else o') = true)))) := by
  have wgs : v.wgs = s.wgs := hv ▸ sectorRead_wgs s w cp x
  have ops : v.ops = s.ops := hv ▸ sectorRead_ops s w cp x
  have clusters : v.clusters = s.clusters := hv ▸ (congrArg State.clusters (fillFrame_sectorRead s w cp x) :)
  refine ends_of_event rfl (landSector_eq found kind ctx sector ready hv hd) ?_
  generalize ht : copyEnd (sectorTo ..) id = t
  refine ⟨fun y hy same _ => ?_, fun gone => ?_, fun y here => ?_⟩
  · obtain ⟨cp', kind', sectors⟩ := kind_copyEnd_sectorTo _ _ _ _ _ _ _ (ht ▸ hy) same
    exact ⟨cp', kind', sectors ▸ landed_bindPart cp n x d.1 d.2 _ sector⟩
  · rw [← wgs, show clusterOf s (w.core / 4) = clusterOf v (w.core / 4) by rw [clusterOf, clusterOf, clusters]]
    exact sectorTo_gone ((findWg_congr wgs _).trans gone) (clusters ▸ canon.clusters) id w _ d.1 _ ht
  · have here' := (findWg_congr wgs _).trans here
    refine ⟨sectorTo_home here' hu ht, ?_, ?_⟩
    · rw [if_congr (saturated_iff x d.2).symm rfl rfl]
      exact sectorTo_scratch (cp := bindPart cp n x d.1 d.2 _) here' hu ht
    · obtain ⟨y', hy', absent⟩ := sectorTo_wg here' hu ht
      refine ⟨y', hy', fun l => (absent l).trans (and_congr_right fun _ => imp_congr_right fun _ => ?_)⟩
      exact (holds_after_bindPart cp n x d.1 d.2 _ v.ops id x.target l).trans (by rw [ops])

end Sys2Proof.Machine

/-! SUPPORT. Events of the request collector (R292, R297, R300), and the settlement of O44. -/

namespace Sys2Proof.Machine

set_option Elab.async false

/-! ## Line entries -/

/-- Changes of a core, and of groups beside it, leave every byte. -/
theorem sameBytes_setCore (s : State) (core : Nat) (c : Core) (gs : List Group) : SameBytes s { setCore s core c with groups := gs } :=
  sameBytes_of_homeAs ⟨rfl, rfl, rfl⟩ rfl

theorem collDispatch_ends {s : State} {core : Nat} {e : CollEntry} (canon : Canon s) (listed : e ∈ (coreOf s core).coll.take 64)
    (waits : e.dispatched = false) (due : 32 ≤ e.opened ∨ 4 ≤ e.idle) : Claims.Ends (.collectorDispatch core e.line) s (fun t =>
      SameBytes s t ∧ { e with dispatched := true } ∈ (coreOf t core).coll) := by
  have can : (e.line == e.line && !e.dispatched && (decide (32 ≤ e.opened) || decide (4 ≤ e.idle))) = true := by simp [waits, due]
  refine ends_of_event rfl (if_pos (List.any_eq_true.mpr ⟨e, listed, can⟩)) ⟨sameBytes_setCore s core _ s.groups, ?_⟩
  rw [coreOf_setCore canon.cores]
  exact List.mem_append_left _ (List.mem_map.mpr ⟨e, listed, if_pos can⟩)

theorem collRelease_eq (s : State) (core : Nat) : ∃ gs, collRelease s core = { s with groups := gs } := ⟨_, rfl⟩

theorem collLineServed_ends {s : State} {core : Nat} {e : CollEntry} (canon : Canon s)
    (served : (coreOf s core).coll.find? (fun x => x.line == e.line && x.dispatched) = some e) :
    Claims.Ends (.collectorLineServed core e.line) s (fun t => SameBytes s t ∧ (coreOf t core).coll = (coreOf s core).coll.erase e) := by
  have frees : collLineServed s core e.line =
      some (collRelease (setCore s core { coreOf s core with coll := (coreOf s core).coll.erase e }) core) := by
    unfold collLineServed
    dsimp only
    rw [served]
  obtain ⟨gs, released⟩ := collRelease_eq (setCore s core { coreOf s core with coll := (coreOf s core).coll.erase e }) core
  refine ends_of_event rfl frees ?_
  rw [released]
  exact ⟨sameBytes_setCore s core _ gs, congrArg Core.coll (coreOf_setCore canon.cores core _)⟩

/-! ## GATH and SCAT -/

theorem gathComplete_ready {s : State} {id : Nat} {o : Op} {fills : List LocFill} {w : Wg} (found : findOp s id = some o)
    (kind : o.kind = .gath fills none) (hw : findWg s o.grp.wg = some w) (ready : collReady s w o = true) (heads : headsClass s o = true) :
    gathComplete s id = some (finishOp (landRegs (touchHome s w.core w.owner (fills.filterMap (·.src))) o
      (gathRead (touchHome s w.core w.owner (fills.filterMap (·.src))) w.core w.owner fills).1
      (gathRead (touchHome s w.core w.owner (fills.filterMap (·.src))) w.core w.owner fills).2) id []) := by
  unfold gathComplete
  rw [found]
  dsimp only
  rw [kind, hw]
  exact if_pos (by simp [ready, heads])

theorem gathComplete_bound {s : State} {id : Nat} {o : Op} {fills : List LocFill} {r : List Fill × List (Nat × Nat)} {w : Wg}
    (found : findOp s id = some o) (kind : o.kind = .gath fills (some r)) (hw : findWg s o.grp.wg = some w) (undone : o.done = false)
    (heads : headsClass s o = true) : gathComplete s id = some (finishOp (landRegs s o r.1 r.2) id []) := by
  unfold gathComplete
  rw [found]
  dsimp only
  rw [kind, hw]
  exact if_pos (by simp [undone, heads])

theorem scatWrite_eq {s : State} {id : Nat} {o : Op} {bs : List StoreByte} {w : Wg} (found : findOp s id = some o) (kind : o.kind = .scat bs)
    (hw : findWg s o.grp.wg = some w) (ready : collReady s w o = true) : scatWrite s id =
      some (finishOp (collDrop (engineSetAll (clearPoisonFor s bs) (w.core / 4) w.owner bs) w.core o.id) o.id []) := by
  unfold scatWrite
  rw [found]
  dsimp only
  rw [kind, hw]
  dsimp only
  rw [if_pos ready]
  unfold collPerform
  rw [kind]

theorem collDrop_eq (s : State) (core id : Nat) : ∃ cs gs, collDrop s core id = { s with cores := cs, groups := gs } := ⟨_, _, rfl⟩

theorem engineSetAll_of_poison (s : State) (bs bs' : List StoreByte) (cl owner : Nat) : ∃ ps,
    engineSetAll (clearPoisonFor s bs') cl owner bs = { engineSetAll s cl owner bs with poison := ps } := by
  obtain ⟨ps, e⟩ := clearPoisonFor_eq s bs'
  have set := (Aside.engineSetAll cl owner bs).beside s s.groups ps s.ops
  refine ⟨ps, (congrArg (fun x => engineSetAll x cl owner bs) e).trans (set.trans ?_)⟩
  have groups := (Aside.engineSetAll cl owner bs).groups s
  have ops := (Aside.engineSetAll cl owner bs).ops s
  rw [← groups, ← ops]
  rfl

theorem scatWrite_ends {s : State} {id : Nat} {o : Op} {bs : List StoreByte} {w : Wg} (found : findOp s id = some o) (kind : o.kind = .scat bs)
    (hw : findWg s o.grp.wg = some w) (ready : collReady s w o = true) {u : State} (hu : engineSetAll s (w.core / 4) w.owner bs = u) :
    Claims.Ends (.scatWrite id) s (fun t => Claims.Finished t id ∧ Claims.HomeAs t u ∧ t.wgs = u.wgs) := by
  obtain ⟨-, oid⟩ := mem_of_findOp found
  obtain ⟨ps, written⟩ := engineSetAll_of_poison s bs bs (w.core / 4) w.owner
  rw [hu] at written
  refine ends_of_event rfl (scatWrite_eq found kind hw ready) ⟨oid ▸ finished_finishOp _ _ _, ?_⟩
  rw [written]
  obtain ⟨cs, gs, dropped⟩ := collDrop_eq { u with poison := ps } w.core o.id
  obtain ⟨os, hs, ended⟩ := finishOp_eq (collDrop { u with poison := ps } w.core o.id) o.id []
  rw [ended, dropped]
  exact ⟨⟨rfl, rfl, rfl⟩, rfl⟩

theorem gathComplete_ready_ends {s : State} {id : Nat} {o : Op} {fills : List LocFill} {g : Group} {w : Wg} (found : findOp s id = some o)
    (kind : o.kind = .gath fills none) (hw : findWg s o.grp.wg = some w) (ready : collReady s w o = true) (heads : headsClass s o = true)
    (hg : findGroup s o.grp = some g) {v : State} (hv : touchHome s w.core w.owner (fills.filterMap (·.src)) = v) :
    Claims.Ends (.gathComplete id) s (fun t => t.wgs = v.wgs ∧ (∀ x ∈ t.ops, x.id ≠ id) ∧
      Claims.Landed t v o g (gathRead v w.core w.owner fills).1) := by
  have ops : v.ops = s.ops := hv ▸ (Aside.touchHome ..).ops s
  have groups : v.groups = s.groups := hv ▸ (Aside.touchHome ..).groups s
  have done := gathComplete_ready found kind hw ready heads
  rw [hv] at done
  obtain ⟨landed, wgs, gone⟩ := load_landed (gathRead v w.core w.owner fills).1 (gathRead v w.core w.owner fills).2
    ((findOp_congr ops id).trans found) ((headsClass_congr ops o).trans heads) ((findGroup_congr groups _).trans hg)
  exact ends_of_event rfl done ⟨wgs, gone, landed⟩

theorem gathComplete_bound_ends {s : State} {id : Nat} {o : Op} {fills : List LocFill} {r : List Fill × List (Nat × Nat)} {g : Group} {w : Wg}
    (found : findOp s id = some o) (kind : o.kind = .gath fills (some r)) (hw : findWg s o.grp.wg = some w) (undone : o.done = false)
    (heads : headsClass s o = true) (hg : findGroup s o.grp = some g) : Claims.Ends (.gathComplete id) s (fun t =>
      t.wgs = s.wgs ∧ (∀ x ∈ t.ops, x.id ≠ id) ∧ Claims.Landed t s o g r.1) := by
  obtain ⟨landed, wgs, gone⟩ := load_landed r.1 r.2 found heads hg
  exact ends_of_event rfl (gathComplete_bound found kind hw undone heads) ⟨wgs, gone, landed⟩

/-! ## SISECT: its run leaves the operations -/

section
variable (w : Wg) (ln : Launch)

theorem ops_siOut (s : State) (oh : Option Handle) (o n x : Nat) (src : List Loc) : (siOut s w ln oh o n x src).1.ops = s.ops := by
  have written (bs : List StoreByte) (dst : List Loc) :
      (poisonLocs (engineSetAll (clearPoisonFor s bs) (w.core / 4) w.owner bs) src dst).ops = s.ops := by
    obtain ⟨ps, noted⟩ := poisonLocs_eq (engineSetAll (clearPoisonFor s bs) (w.core / 4) w.owner bs) src dst
    rw [noted]
    exact ((Aside.engineSetAll ..).ops _).trans (ops_clearPoisonFor s bs)
  unfold siOut
  split
  · rfl
  · split
    · rfl
    · split
      · exact written ..
      · rfl

theorem ops_siLoop {si : SiOp} {l : SiLane} {n : Nat} {s : State} {p : SiPos} {r : State × SiPos × Nat} (h : siLoop w ln si l n s p = some r) :
    r.1.ops = s.ops := by
  induction n generalizing s p with
  | zero =>
    unfold siLoop at h
    split at h <;> (cases h; rfl)
  | succ n ih =>
    rw [siLoop] at h
    split at h
    · cases h; rfl
    · split at h
      · cases h
      · cases h; rfl
      · split at h
        · cases h
        · cases h; rfl
        · next la _ _ lb _ =>
          have touched : (touchHome s w.core w.owner [la, lb]).ops = s.ops := (Aside.touchHome ..).ops s
          dsimp only at h
          split at h
          · exact (ih h).trans touched
          · split at h
            · exact (ih h).trans touched
            · split at h
              · next s' out =>
                have left := ops_siOut w ln (touchHome s w.core w.owner [la, lb]) si.oh l.o p.n
                  (ofBytes (engineBytes (touchHome s w.core w.owner [la, lb]) w.core w.owner la 4)) [la, lb]
                rw [out] at left
                exact (ih h).trans (left.trans touched)
              · cases h; exact touched
              · cases h

theorem ops_siLanes {o : Op} {si : SiOp} {ls : List SiLane} {s u : State} (h : siLanes w ln o si ls s = some u) : u.ops = s.ops := by
  induction ls generalizing s with
  | nil => cases h; rfl
  | cons l ls ih =>
    unfold siLanes at h
    split at h
    · cases h
    · next s' p stop ran => exact ((ih h).trans (landRegs_fields ..).1).trans (ops_siLoop w ln ran)

end

theorem sisectRun_eq {s : State} {id : Nat} {o : Op} {si : SiOp} {g : Group} {w : Wg} {ln : Launch} {u : State} (found : findOp s id = some o)
    (kind : o.kind = .sisect si) (ctx : findCtx s o.grp = some (g, w, ln)) (ready : collReady s w o = true) (heads : headsClass s o = true)
    (ran : siLanes w ln o si si.lanes s = some u) : sisectRun s id = some (finishOp u id []) := by
  unfold sisectRun
  rw [found]
  dsimp only
  rw [kind, ctx]
  dsimp only
  rw [if_pos (by simp [ready, heads]), ran]

theorem sisectRun_ends {s : State} {id : Nat} {o : Op} {si : SiOp} {g : Group} {w : Wg} {ln : Launch} {u : State} (found : findOp s id = some o)
    (kind : o.kind = .sisect si) (ctx : findCtx s o.grp = some (g, w, ln)) (ready : collReady s w o = true) (heads : headsClass s o = true)
    (ran : siLanes w ln o si si.lanes s = some u) : Claims.Ends (.sisectRun id) s (fun t =>
      t.groups = u.groups ∧ Claims.MemAs t u ∧ ∀ x ∈ t.ops, x.id ≠ id) := by
  have ops := ops_siLanes w ln ran
  have gone := finishOp_gone ((findOp_congr ops id).trans found) ((headsClass_congr ops o).trans heads) []
  obtain ⟨os, hs, ended⟩ := finishOp_eq u id []
  refine ends_of_event rfl (sisectRun_eq found kind ctx ready heads ran) ⟨?_, ?_, gone⟩
  · rw [ended]
  · rw [ended]
    exact ⟨rfl, rfl, rfl, rfl, rfl⟩

end Sys2Proof.Machine

namespace Sys2Proof.Proofs

open Sys2Proof.Machine

/-- Settles O44: what a sector leaves is computed beside the operations, groups and notes of poison of its state, so its bytes, its
barrier and its lines stand as if the copy's record had not changed; the collector's operations end as loads and stores do. -/
theorem copyAndCollectorEvents : Obligations.CopyAndCollectorEvents := by
  unfold Obligations.CopyAndCollectorEvents
  refine ⟨fun s id o cp g w ln n x canon found kind ctx sector ready => ?_, fun s core e canon listed waits due => ?_,
    fun s core e canon served => ?_, fun s id o fills g w found kind hw ready heads hg => ?_,
    fun s id o fills r g w found kind hw undone heads hg => ?_, fun s id o bs w found kind hw ready => ?_,
    fun s id o si g w ln u found kind ctx ready heads ran => ?_⟩
  · exact copySectorLand_ends canon found kind ctx sector ready rfl rfl rfl
  · exact collDispatch_ends canon listed waits due
  · exact collLineServed_ends canon served
  · exact gathComplete_ready_ends found kind hw ready heads hg rfl
  · exact gathComplete_bound_ends found kind hw undone heads hg
  · exact scatWrite_ends found kind hw ready rfl
  · exact sisectRun_ends found kind ctx ready heads ran

end Sys2Proof.Proofs
